-- ==== Sys2Proof/Word.lean ====
section
/-! DEFINITION. The word types of the Deruz (00_scope.md R8, R9) and their plainest arithmetic. -/

set_option Elab.async false  -- one theorem after another: waiting threads would use up the memory a check is given

namespace Sys2Proof

/-- One byte of memory (R8). -/
abbrev Byte := BitVec 8

/-- A 32-bit register element (R22). -/
abbrev Word := BitVec 32

/-- A 64-bit value, held in a register pair (R24). -/
abbrev DWord := BitVec 64

/-- A mask with one bit per lane of a warp (R14). -/
abbrev LaneMask := BitVec 32

/-- A program counter: a 55-bit virtual byte address (R18, R41). -/
abbrev Pc := BitVec 55

/-- One instruction word (R53). -/
abbrev InstrWord := BitVec 96

/-- The lane numbers of a warp, in ascending order (R14). -/
def lanes : List Nat := List.range 32

end Sys2Proof
end

