-- ==== Sys2Proof/Config.lean ====
section
/-! DEFINITION. What the spec leaves open: free values (opaque constants with no body, so that nothing can be
proved of what they are) and the choices that one implementation fixes. Each is named in a log entry. -/

namespace Sys2Proof.Config

/-- A free choice. The first argument is the state's counter of free draws, the second says what is chosen.
Used wherever the spec says 'unspecified' of a choice among values that the model can name (R63, R155, R212,
R232, R289, R344, R416). Log entry 3. -/
opaque free : Nat → Nat → Nat

/-- The far close time of an interval of a party on another device (R309, R334): its device, warp, number, and whether the party is an
engine command. Log entry 35. -/
opaque foreignClose : Nat → Nat → Nat → Bool → Nat

/-- A free byte: a value that the spec does not fix at all, at draw and position (R300, R247). Log entry 3. -/
opaque freeByte : Nat → Nat → BitVec 8

/-- The ECC code of a line's data and of side-band bytes 4 to 15 (R395): the spec gives its strength and not the
code. Log entry 4. -/
opaque ecc : List (BitVec 8) → BitVec 32

/-- The device's signed answer to an SPDM request (R479), from the request and the measurements: the firmware digest, the fused
anti-rollback counter, the life-cycle state and the port modes. The spec names the algorithms; the keys and the rest of the fused
configuration are fixed for the device and not given. Log entry 5. -/
opaque spdmAnswer : List (BitVec 8) → List (BitVec 8) → Nat → Nat → List Bool → List (BitVec 8)

/-- The bits of a sample record that report latencies of the pipeline (R440, R422): timing that the spec gives
only as a formula of contention-free paths. Log entry 6. -/
opaque sampleLatency : Nat → BitVec 80

/-- HBM4 bytes present on the package: 768 GiB (R3, R482). -/
def hbmBytes : Nat := 824633720832

/-- Compute dies, clusters per die and cores per cluster (R3). -/
def nDies : Nat := 4
def nClusters : Nat := 25
def nCoresPerCluster : Nat := 8

/-- Binary digits kept after the point when a transcendental result is formed before its one rounding (R165).
Log entry 7. -/
def transBits : Nat := 256

end Sys2Proof.Config
end

