-- ==== Sys2Proof/Syntax.lean ====
section
/-! DEFINITION. The instruction set: the decoded instruction forms (02_instruction_encoding.md R61 to R79) and the one
inductive with a constructor for every row of the table of operations and events. The rows that are instructions
carry the decoded fields of their word; the rows that are events of the device carry what the event is about. -/

namespace Sys2Proof

/-- Operand class codes (R68): a vector register, a uniform register, the special file of the position
(predicate, tile, accumulator, stream or convergence), or the word's immediate. -/
inductive Cls where
  | vec | uni | special | imm
  deriving DecidableEq, Repr

/-- Type codes (R72), in code order 0x00 to 0x0E. -/
inductive Ty where
  | b32 | i32 | n32 | i64 | n64 | f32 | f16x2 | bf16x2 | f64 | i8 | n8 | i16 | n16 | b64 | rt
  deriving DecidableEq, Repr

/-- Access widths (R74). -/
inductive Width where
  | b8 | b16 | b32 | b64 | b128
  deriving DecidableEq, Repr

/-- Scopes (R74, R301). -/
inductive Scope where
  | warp | block | cluster | die | device | domain | system
  deriving DecidableEq, Repr

/-- Address spaces of the memory form (R74, R209). -/
inductive Space where
  | generic | well | const
  deriving DecidableEq, Repr

/-- The bits every form shares, 95:90 (R61): switch marker, uniform, negated guard, guard predicate. -/
structure Common where
  s : Bool
  u : Bool
  n : Bool
  guard : BitVec 3
  deriving DecidableEq, Repr

/-- The register form (R67). Field `e` is the word's source C. -/
structure RegForm where
  c : Common
  d : BitVec 8
  a : BitVec 8
  b : BitVec 8
  e : BitVec 8
  dc : Cls
  ac : Cls
  bc : Cls
  ec : Cls
  ty : Ty
  sub : BitVec 3
  imm : BitVec 32
  deriving DecidableEq, Repr

/-- The fields of `movi` (R146): a pair and a 64-bit constant. -/
structure MoviForm where
  c : Common
  d : BitVec 8
  value : BitVec 64
  deriving DecidableEq, Repr

/-- The memory form (R74). `duni` and `buni` are the D class and the base class: uniform or vector. -/
structure MemForm where
  c : Common
  d : BitVec 8
  base : BitVec 8
  data : BitVec 8
  cmp : BitVec 8
  duni : Bool
  buni : Bool
  width : Width
  scope : Scope
  space : Space
  aop : BitVec 3
  offset : BitVec 32
  deriving DecidableEq, Repr

/-- The branch form (R76). -/
structure BrForm where
  c : Common
  link : BitVec 8
  index : BitVec 8
  uni : Bool
  indexUni : Bool
  disp : BitVec 32
  deriving DecidableEq, Repr

/-- The engine form (R78). -/
structure EngForm where
  c : Common
  token : BitVec 8
  record : BitVec 8
  conv : BitVec 8
  aux : BitVec 8
  mod : BitVec 16
  imm : BitVec 32
  deriving DecidableEq, Repr

/-- What the ECC check of a line read from HBM4 finds (R395, R397): a physical event. -/
inductive EccOutcome where
  | clean | correctable | uncorrectable
  deriving DecidableEq, Repr

/-- A message that is served at a home or at the well switch, and what the error code finds in the words it reads (R402, R406). -/
structure Service where
  msg : Nat
  ecc : EccOutcome
  deriving DecidableEq, Repr

/-- An engine command that runs on, and the units it may do before its next event (R246). -/
structure EngineRun where
  eng : Nat
  units : Nat
  deriving DecidableEq, Repr

/-- A core whose matrix engine runs on, and the parts of the operands that it reads (R261). -/
structure MatrixRun where
  core : Nat
  parts : List Nat
  /-- What the code of the weight store finds as the first of them is read (R406). -/
  ecc : EccOutcome
  deriving DecidableEq, Repr

/-- What a die's sensors give: mean power in mW, and junction temperature in °C (R461, R483). -/
structure PowerReading where
  milliwatts : Nat
  tempC : Nat
  deriving DecidableEq, Repr

/-- A die and its junction temperature in °C (R462). -/
structure HeatReading where
  die : Nat
  tempC : Nat
  deriving DecidableEq, Repr

/-- The operation of a peer's request (R467): a data access, a paired access, or a relaxed atomic. -/
inductive PeerOp where
  | load | store | swap | cas (cmp : BitVec 64) | rmw (aop : Nat) (signed : Bool) | accum (aop : Nat)
  deriving DecidableEq, Repr

/-- How the sender of a partial has joined a collective (R255). -/
structure CollHead where
  op : Nat
  redop : Nat
  count : Nat
  root : Nat
  deriving DecidableEq, Repr

/-- A partial or a result of a collective on its way between members (R254, R255): how its sender has joined, and the bytes. -/
structure CollPartial where
  head : CollHead
  data : List Byte
  deriving DecidableEq, Repr

/-- A request that another device of the domain makes of this one (R401, R467), with the requesting party: its
device, live-warp slot, number (interval, or engine sequence number when `eng`) and acquire time (R334). -/
structure PeerReq where
  /-- Device number with its domain: domain in bits 17:12 (R466). -/
  dev : Nat
  /-- Its place in the order in which the device sent its requests (R467). -/
  seq : Nat
  eng : Bool
  slot : Nat
  num : Nat
  /-- The requesting warp, as its own device tells it from every other occupant of its slot (R294). -/
  who : Nat
  acqWide : Nat
  /-- The owner's context whose page it is, and whether the page is checked. -/
  ctx : Nat
  chk : Bool
  /-- Label code of R218. -/
  label : Nat
  write : Bool
  /-- What a strong access does, and its operands (R224, R226). -/
  op : PeerOp
  addr : Nat
  data : List Byte
  len : Nat
  /-- The releases that a write of it carries (R303): scope code, stamp, and whether a release fence before it made it. -/
  rels : List (Nat × Nat × Bool)
  deriving DecidableEq, Repr

/-- A host access through BAR2 (R473): the offset in the window and the bytes written, or a read of `len` bytes. -/
structure HostAccess where
  write : Bool
  offset : Nat
  data : List Byte
  len : Nat
  deriving DecidableEq, Repr

/-- A PTP sync (R465): the measured offset of device time in ns and the slew the servo chose, in parts per billion. -/
structure PtpSync where
  /-- PTP domain, and the port it came by, as PTPPORTS numbers them (R464, R474). -/
  domain : Nat
  port : Nat
  offset : Int
  slewPpb : Int
  /-- The forward step asked for, in ns. -/
  stepNs : Nat
  deriving DecidableEq, Repr

/-- A firmware image as the boot ROM sees it (R478): the outcome of its two signature checks and of the key
digests, whether it is vendor-signed diagnostic firmware (R480), its version, the ladder states it sets (R450) and the mode
of each host port (true: CXL, R471). -/
structure FirmwareImage where
  diag : Bool
  rsaOk : Bool
  slhOk : Bool
  keysOk : Bool
  version : Nat
  /-- Digest of the firmware (R479). -/
  digest : List Byte
  halt : BitVec 2
  flush : BitVec 2
  cxl0 : Bool
  cxl1 : Bool
  deriving DecidableEq, Repr

/-- Life-cycle states (R480). -/
inductive LifeCycle where
  | manufacture | provisioned | deployed | rma
  deriving DecidableEq, Repr

/-- One step of the part: an instruction, or an event of the device. One constructor for each row of the table. -/
inductive Instr where
  /-- NOP (R139): Performs no operation beyond honouring its switch marker. -/
  | nop (f : RegForm)
  /-- GETSR (R140): Reads a special register into a vector or uniform register, as one reading for 64-bit registers. -/
  | getsr (f : RegForm)
  /-- SETSR (R141): Writes the floating-point sticky flags after every earlier floating-point instruction of the warp has completed. -/
  | setsr (f : RegForm)
  /-- BRA (R174): Sends each active lane to a PC-relative target; inactive lanes continue in sequence. -/
  | bra (f : BrForm)
  /-- BRX (R174): Sends each active lane to the target in its index register plus a displacement. -/
  | brx (f : BrForm)
  /-- CALL (R175): Writes the return PC to the link pair and branches to a PC-relative target. -/
  | call (f : BrForm)
  /-- CALLI (R175): Writes the return PC to the link pair and branches to an indexed target. -/
  | calli (f : BrForm)
  /-- RET (R174): Sends each active lane to the PC held in its link pair. -/
  | ret (f : BrForm)
  /-- EXIT (R176): Waits for the region's mark checks and ends the active threads. -/
  | exit (f : BrForm)
  /-- TRAP (R178): Ends the region and raises TRAP for the warp with a code, parking its threads at the next instruction. -/
  | trap (f : RegForm)
  /-- BRK (R442): Raises BRK and swaps the whole block out to its save slot for the debugger. -/
  | brk (f : RegForm)
  /-- PAUSE (R179): Sets the active threads to paused for a number of arithmetic cycles. -/
  | pause (f : RegForm)
  /-- YIELD (R180): Keeps the warp out of the next issue choice of its scheduler and restarts bundle formation. -/
  | yield (f : RegForm)
  /-- BAR (R182): Arrives at a block barrier and parks until every thread of the block that has not exited has arrived. -/
  | bar (f : RegForm)
  /-- BAR_PHASE (R189): Arrives at a phase barrier that releases, writes the phase record, resets the non-carried state and returns the block's wells. -/
  | barPhase (f : RegForm)
  /-- CLBAR (R185): Arrives at the barrier of the cluster group, with ordering at cluster scope. -/
  | clbar (f : RegForm)
  /-- GBAR (R186): Arrives at the barrier of the whole grid, with ordering at device scope, possibly advancing the context's phase. -/
  | gbar (f : RegForm)
  /-- CVINIT (R187): Prepares a convergence register to collect n signatures. -/
  | cvinit (f : RegForm)
  /-- LAUNCH (R193): Reads and checks a launch record and creates a child grid of the next depth, with a token. -/
  | launch (f : EngForm)
  /-- SPAWN (R195): Checks a spawn record, allocates identity-filled view wells and queues a child in spawn order. -/
  | spawn (f : EngForm)
  /-- MERGE (R197): Releases and ends the active threads, handing the child's views to the merge engine once all have exited. -/
  | merge (f : EngForm)
  /-- SYNC_SPAWN (R199): Parks the threads until every child spawned so far has been folded, then acquires at device scope. -/
  | syncSpawn (f : EngForm)
  /-- TSUB (R201): Submits a task: assigns its index, takes footprint entries, derives its pending count and writes its state. -/
  | tsub (f : EngForm)
  /-- TSIG (R203): Decrements a submitted task's pending count indivisibly, faulting TASK.UNDERFLOW at zero. -/
  | tsig (f : EngForm)
  /-- SYS_TLBINV (R205): Invalidates matching TLB and walker-cache entries of the device by page, context or all. -/
  | sysTlbinv (f : RegForm)
  /-- SYS_FWAKE (R205): Makes a named warp's fault-parked threads and suspended work ready, checking context and generation. -/
  | sysFwake (f : RegForm)
  /-- SYS_FKILL (R205): Ends a named warp and sends its grid down the exception path with a code. -/
  | sysFkill (f : RegForm)
  /-- SYS_EVICT (R205): Evicts the whole block of a named warp into its save slot with rollback. -/
  | sysEvict (f : RegForm)
  /-- SYS_RESUME (R205): Queues for restoration the block whose save slot begins at the given address. -/
  | sysResume (f : RegForm)
  /-- SYS_MCOUNT (R205): Reads, and optionally clears, the forwarded-access counters of a 2 MiB region of a context. -/
  | sysMcount (f : RegForm)
  /-- VOTE_AGREE (R206): Legacy form of vote.same that also increments DEPUSE. -/
  | voteAgree (f : RegForm)
  /-- BAR_CNT (R206): Legacy barrier that completes once n or more threads have arrived. -/
  | barCnt (f : RegForm)
  /-- SYS_FLUSH (R206): Writes back every dirty L1 line of the core and completes when the writes are acknowledged. -/
  | sysFlush (f : RegForm)
  /-- SYS_HALT (R206): Raises TRAP with code 0xF1, or faults ILLEGAL once the form has been removed. -/
  | sysHalt (f : RegForm)
  /-- ADD (R143): Integer add, wrapping or saturating. -/
  | add (f : RegForm)
  /-- SUB (R143): Integer subtract, wrapping or saturating. -/
  | sub (f : RegForm)
  /-- MUL (R143): Integer multiply, low half, wrapping or saturating. -/
  | mul (f : RegForm)
  /-- MULHI (R143): High half of the exact integer product. -/
  | mulhi (f : RegForm)
  /-- MAD (R143): Integer multiply-add with a single narrowing. -/
  | mad (f : RegForm)
  /-- MIN (R143): Integer minimum, signed or natural. -/
  | min (f : RegForm)
  /-- MAX (R143): Integer maximum, signed or natural. -/
  | max (f : RegForm)
  /-- ABS (R143): Integer absolute value, wrapping or saturating. -/
  | abs (f : RegForm)
  /-- NEG (R143): Integer negation, wrapping or saturating. -/
  | neg (f : RegForm)
  /-- ADDC (R144): 32-bit add with the carry in and carry out held in one predicate. -/
  | addc (f : RegForm)
  /-- LEA (R145): Forms a 64-bit address from a base, a shifted index and an offset. -/
  | lea (f : RegForm)
  /-- MOV (R146): Copies a register or immediate. -/
  | mov (f : RegForm)
  /-- MOVI (R146): Places a 64-bit constant in a register pair. -/
  | movi (f : MoviForm)
  /-- SEL (R146): Selects one of two sources per lane by a predicate. -/
  | sel (f : RegForm)
  /-- AND (R148): Bitwise AND. -/
  | andB (f : RegForm)
  /-- OR (R148): Bitwise OR. -/
  | orB (f : RegForm)
  /-- XOR (R148): Bitwise XOR. -/
  | xorB (f : RegForm)
  /-- NOT (R148): Bitwise NOT. -/
  | notB (f : RegForm)
  /-- SHL (R148): Logical shift left, zero once the count reaches the width. -/
  | shl (f : RegForm)
  /-- SHR (R148): Logical shift right, zero once the count reaches the width. -/
  | shr (f : RegForm)
  /-- SAR (R148): Arithmetic shift right. -/
  | sar (f : RegForm)
  /-- ROT (R148): Rotation left or right by the count modulo the width. -/
  | rot (f : RegForm)
  /-- CLZ (R148): Counts leading zero bits. -/
  | clz (f : RegForm)
  /-- POPC (R148): Counts one bits. -/
  | popc (f : RegForm)
  /-- BREV (R148): Reverses the bit order. -/
  | brev (f : RegForm)
  /-- BFE (R149): Extracts a bit field, with sign extension for signed types. -/
  | bfe (f : RegForm)
  /-- BFI (R149): Inserts a bit field. -/
  | bfi (f : RegForm)
  /-- CMP (R151): Integer comparison into a predicate. -/
  | cmp (f : RegForm)
  /-- FCMP (R152): Floating-point comparison into a predicate, raising nv as specified. -/
  | fcmp (f : RegForm)
  /-- PAND (R153): Predicate AND with optional inversions. -/
  | pand (f : RegForm)
  /-- POR (R153): Predicate OR with optional inversions. -/
  | por (f : RegForm)
  /-- PXOR (R153): Predicate XOR with optional inversions. -/
  | pxor (f : RegForm)
  /-- PNOT (R153): Predicate NOT. -/
  | pnot (f : RegForm)
  /-- PMOV (R153): Copies a predicate to a predicate. -/
  | pmov (f : RegForm)
  /-- PMOV_PACK (R153): Packs the 32 lane bits of a predicate into a register. -/
  | pmovPack (f : RegForm)
  /-- PMOV_UNPACK (R153): Sets each lane's predicate bit from bit l of a register. -/
  | pmovUnpack (f : RegForm)
  /-- SHFL (R156): Copies a value from a source lane chosen by from, rot, shift or flip. -/
  | shfl (f : RegForm)
  /-- VOTE (R157): Combines a predicate over the active lanes as every, some, mask, count or same. -/
  | vote (f : RegForm)
  /-- REDUX (R157): Reduces a value over the active lanes and gives every active lane the result. -/
  | redux (f : RegForm)
  /-- MATCH (R157): Gives the mask of active lanes with equal values. -/
  | matchL (f : RegForm)
  /-- PREFIX (R158): Inclusive or exclusive scan over the active lanes in ascending order. -/
  | prefixL (f : RegForm)
  /-- FADD (R160): Floating-point add with one rounding. -/
  | fadd (f : RegForm)
  /-- FSUB (R160): Floating-point subtract with one rounding. -/
  | fsub (f : RegForm)
  /-- FMUL (R160): Floating-point multiply with one rounding. -/
  | fmul (f : RegForm)
  /-- FFMA (R160): Fused multiply-add with one rounding. -/
  | ffma (f : RegForm)
  /-- FMIN (R161): Floating-point minimum that ignores a NaN beside a number. -/
  | fmin (f : RegForm)
  /-- FMAX (R161): Floating-point maximum that ignores a NaN beside a number. -/
  | fmax (f : RegForm)
  /-- FABS (R162): Clears the sign bit. -/
  | fabs (f : RegForm)
  /-- FNEG (R162): Flips the sign bit. -/
  | fneg (f : RegForm)
  /-- FCLASS (R163): Writes a class mask for each element. -/
  | fclass (f : RegForm)
  /-- FRND (R164): Rounds to an integral value in the given mode. -/
  | frnd (f : RegForm)
  /-- FRCP (R165): Correctly rounded reciprocal. -/
  | frcp (f : RegForm)
  /-- FSQRT (R165): Correctly rounded square root. -/
  | fsqrt (f : RegForm)
  /-- FRSQ (R165): Correctly rounded reciprocal square root. -/
  | frsq (f : RegForm)
  /-- FEXP2 (R165): Correctly rounded power of two. -/
  | fexp2 (f : RegForm)
  /-- FLOG2 (R165): Correctly rounded base-2 logarithm. -/
  | flog2 (f : RegForm)
  /-- CVT (R167): Converts between integer and floating-point types with rounding, wrapping or saturation. -/
  | cvt (f : RegForm)
  /-- PACK (R168): Joins two values into one 32-bit lane. -/
  | pack (f : RegForm)
  /-- UNPACK (R169): Splits one lane into a register pair. -/
  | unpack (f : RegForm)
  /-- RNFWD (R170): Converts an i32 into a canonical residue triple. -/
  | rnfwd (f : RegForm)
  /-- RNADD (R170): Adds residue triples channel by channel. -/
  | rnadd (f : RegForm)
  /-- RNSUB (R170): Subtracts residue triples channel by channel. -/
  | rnsub (f : RegForm)
  /-- RNMUL (R170): Multiplies residue triples channel by channel. -/
  | rnmul (f : RegForm)
  /-- RNREV (R170): Reconstructs the i32 that a residue triple represents. -/
  | rnrev (f : RegForm)
  /-- LD (R220): Weak data load from generic or well space. -/
  | ld (f : MemForm)
  /-- ST (R220): Weak byte-masked data store to generic or well space. -/
  | st (f : MemForm)
  /-- LDC (R221): Loads from the block's const space. -/
  | ldc (f : MemForm)
  /-- PRF (R222): Prefetches a line into the L1 or L2, dropping bad addresses without fault. -/
  | prf (f : MemForm)
  /-- LDA (R224): Paired load followed by an acquire at its scope. -/
  | lda (f : MemForm)
  /-- STL (R224): Release at its scope followed by a paired store. -/
  | stl (f : MemForm)
  /-- XAR (R224): Release, indivisible exchange, then acquire. -/
  | xar (f : MemForm)
  /-- CAR (R224): Release, indivisible compare-and-swap, then acquire. -/
  | car (f : MemForm)
  /-- ATC (R226): Counter-class atomic that returns the old value. -/
  | atc (f : MemForm)
  /-- REDC (R226): Counter-class atomic reduction without return. -/
  | redc (f : MemForm)
  /-- ATA (R226): Accumulate-class floating-point atomic add that returns the old value. -/
  | ata (f : MemForm)
  /-- REDA (R226): Accumulate-class floating-point atomic add without return. -/
  | reda (f : MemForm)
  /-- LDF (R226): Flag-class strong read. -/
  | ldf (f : MemForm)
  /-- STF (R226): Flag-class strong write. -/
  | stf (f : MemForm)
  /-- ATX (R226): Exchange-class atomic swap. -/
  | atx (f : MemForm)
  /-- CAS (R226): Exchange-class compare-and-swap. -/
  | cas (f : MemForm)
  /-- FENCE (R229): Releases, acquires, or both at a scope, with .sc in a total order. -/
  | fence (f : MemForm)
  /-- LDFE (R231): Per lane: waits for a full well word, reads it, marks it empty and acquires. -/
  | ldfe (f : MemForm)
  /-- STFE (R231): Per lane: releases, waits for an empty well word, writes it and marks it full. -/
  | stfe (f : MemForm)
  /-- GIVE (R233): Checks and reserves room to move a slot's well to another core's arrival queue. -/
  | give (f : MemForm)
  /-- GIVE_DRAIN_COMPLETE (R233): Once the well's accesses have drained, unmaps the slot, releases, and appends the well to the target queue. -/
  | giveDrainComplete (give : Nat)
  /-- TAKE (R234): Parks the warp until a well from the arrival queue can be mapped into slot k. -/
  | take (f : MemForm)
  /-- WMAP (R235): Reads a bank-map slot's valid bit and well number. -/
  | wmap (f : MemForm)
  /-- WFILL (R236): Releases and fills a well range with a value and an empty or full state. -/
  | wfill (f : MemForm)
  /-- ACOPY (R245): Asynchronous linear copy between memory and wells, optionally counting on a stage barrier. -/
  | acopy (f : EngForm)
  /-- ACOPY_WSL (R408): Privileged copy that writes the weight store in weight-load state. -/
  | acopyWsl (f : EngForm)
  /-- ACOPY_SB (R420): Privileged copy of global lines with their side bands, refused for live marks. -/
  | acopySb (f : EngForm)
  /-- ACOPY_T (R246): Asynchronous tensor-box copy between memory and wells in element order. -/
  | acopyT (f : EngForm)
  /-- STAGE_BARRIER_COUNT (R247): A completed copy unit subtracts its bytes from a stage barrier, filling or poisoning it. -/
  | stageBarrierCount (eng : Nat)
  /-- TLD (R249): Loads a 64-row tile from a tensor with padding. -/
  | tld (f : EngForm)
  /-- TST (R249): Stores a tile's in-bounds elements to a tensor. -/
  | tst (f : EngForm)
  /-- GPOOL (R251): Gathers table rows by index and pools each bag into a well in index order. -/
  | gpool (f : EngForm)
  /-- COLL (R254): Joins the group's next collective operation, reducing along the configured tree. -/
  | coll (f : EngForm)
  /-- COLL_PARTIAL_RECEIVE (R470): A collective engine receives a child's partial or the root's result and combines or forwards it. -/
  | collPartialReceive (eng child : Nat) (fromRoot : Bool) (data : CollPartial)
  /-- COLL_ABORT_RECEIVE (R470): A collective abort message arrives and completes the member with status 1. -/
  | collAbortReceive (eng : Nat) (code : Byte)
  /-- COLL_TIMEOUT (R255): A member not completed tmo µs of slice time after issue completes with status 2 and aborts the others. -/
  | collTimeout (eng : Nat)
  /-- SEND (R258): Reads a 64-byte message and sends it to a ring of a named cluster. -/
  | send (f : EngForm)
  /-- RING_APPEND (R258): At the receiver, once there is room, writes the message slot, advances tail and completes the token. -/
  | ringAppend (eng : Nat)
  /-- RWAIT (R257): Parks the warp until the ring's tail differs from its head, then acquires. -/
  | rwait (f : EngForm)
  /-- RWAIT_OPEN (R257): Checks a ring header and opens the ring, setting tail to head. -/
  | rwaitOpen (f : EngForm)
  /-- RWAIT_CLOSE (R257): Waits until no append is in progress and closes the ring. -/
  | rwaitClose (f : EngForm)
  /-- MMA (R273): Signs or issues a 64x64 matrix product into an accumulator. -/
  | mma (f : EngForm)
  /-- MATRIX_OP_COMPLETE (R275): A matrix operation writes its accumulator once and completes every signer's token. -/
  | matrixOpComplete (core : MatrixRun)
  /-- MCONV (R278): Signs or issues a matrix product whose A is generated from an activation tensor and a window. -/
  | mconv (f : EngForm)
  /-- TZERO (R280): Zeroes a tile. -/
  | tzero (f : RegForm)
  /-- AZERO (R280): Zeroes an accumulator. -/
  | azero (f : RegForm)
  /-- AMOV (R280): Copies an accumulator. -/
  | amov (f : RegForm)
  /-- ALD (R280): Reads accumulator cells of a row into a vector register. -/
  | ald (f : RegForm)
  /-- AST (R280): Writes a vector register into accumulator cells of a row. -/
  | ast (f : RegForm)
  /-- TMOV (R280): Copies a tile to a tile. -/
  | tmov (f : RegForm)
  /-- TMOV_W (R280): Writes a vector register into a tile row. -/
  | tmovW (f : RegForm)
  /-- TMOV_R (R280): Reads a tile row into a vector register. -/
  | tmovR (f : RegForm)
  /-- HQNT (R282): Quantises a 64-element block into rn8 codes in a tile and an S8 scale. -/
  | hqnt (f : RegForm)
  /-- ACONV (R283): Converts an accumulator's f32 cells into a bf16 or f16 tile. -/
  | aconv (f : RegForm)
  /-- ACONV_F32 (R283): Converts an accumulator's i32 cells to f32 in place. -/
  | aconvF32 (f : RegForm)
  /-- HDEQ (R282): Dequantises a tile block back into two vector registers. -/
  | hdeq (f : RegForm)
  /-- WSINFO (R286): Returns the opening time of the current or next refresh window of a bank group. -/
  | wsinfo (f : RegForm)
  /-- WSWAIT (R286): Holds the warp until no refresh window of a group overlaps the next n ns. -/
  | wswait (f : RegForm)
  /-- SLEN (R288): Sets the block's stream length. -/
  | slen (f : RegForm)
  /-- SSEED (R289): Writes a class seed of the context. -/
  | sseed (f : RegForm)
  /-- SGEN (R290): Generates a stream per lane from a value and a class hash. -/
  | sgen (f : RegForm)
  /-- SAND (R292): AND of two streams, with a correlation check unless .c. -/
  | sand (f : RegForm)
  /-- SOR (R292): OR of two streams. -/
  | sor (f : RegForm)
  /-- SXOR (R292): XOR of two streams. -/
  | sxor (f : RegForm)
  /-- SXNOR (R292): XNOR of two streams. -/
  | sxnor (f : RegForm)
  /-- SNOT (R292): Inverts a stream. -/
  | snot (f : RegForm)
  /-- SMUX (R292): Selects bitwise between two streams by a third. -/
  | smux (f : RegForm)
  /-- SCNT (R293): Counts the ones of each lane's stream. -/
  | scnt (f : RegForm)
  /-- SREGEN (R290): Regenerates a stream in a new class with the same density. -/
  | sregen (f : RegForm)
  /-- SSHIFT (R292): Rotates a stream and marks it derived. -/
  | sshift (f : RegForm)
  /-- SMOV (R292): Copies a stream with its tag. -/
  | smov (f : RegForm)
  /-- SCLASS (R293): Reads a stream's class mask or its length and derived bits. -/
  | sclass (f : RegForm)
  /-- SCHEDULER_ISSUE_CYCLE (R355): Each cycle, each scheduler chooses one warp and issues its bundle. -/
  | schedulerIssueCycle (core sched : Nat)
  /-- LINE_FETCH (R56): A fetched line arrives and its line-word and slot parities are checked. -/
  | lineFetch (uid wid : Nat) (flip : BitVec 512)
  /-- LINE_REFETCH (R56): The second copy of a line that failed parity arrives and is used or faults CODE.PARITY. -/
  | lineRefetch (uid wid : Nat) (flip : BitVec 512)
  /-- PAUSE_EXPIRY (R179): A paused thread's count reaches zero and the thread becomes ready. -/
  | pauseExpiry (uid wid lane : Nat)
  /-- RESULT_WRITEBACK (R38): An owed register result is written and the outstanding counter decrements. -/
  | resultWriteback (owed : Nat)
  /-- LOAD_SECTOR_RETURN (R214): A returning sector writes its part of a load's destination. -/
  | loadSectorReturn (owed piece : Nat)
  /-- MARK_CHECK_ACK (R59): A home acknowledges a mark check, letting a waiting region end proceed. -/
  | markCheckAck (msg : Nat)
  /-- HOME_MARK_CHECK (R393): The home reads the line's record, attributes and expires marks, applies the race rule and faults or marks. -/
  | homeMarkCheck (msg : Nat)
  /-- DEFERRED_FAULT_DELIVERY (R213): A data-read or mark-check fault is delivered at the next region boundary with rollback. -/
  | deferredFaultDelivery (uid wid : Nat)
  /-- HOLDING_SLOT_REREAD (R427): At least every 1,000 ns, rereads the ring head and drains holding slots while there is room. -/
  | holdingSlotReread (ctx : Nat)
  /-- ENGINE_COMPLETION (R39): An engine command completes, writes its status word and clears the pending token. -/
  | engineCompletion (eng : EngineRun)
  /-- ENGINE_SUSPEND (R239): An engine meeting a repairable translation fault suspends and writes a record. -/
  | engineSuspend (eng : Nat)
  /-- PHASE_READY (R189): A block phase becomes ready once its engine commands and, with .wc, its child grids are done. -/
  | phaseReady (uid : Nat)
  /-- PHASE_START (R189): A ready phase starts with fresh wells, its carry registers and a device-scope acquire. -/
  | phaseStart (uid : Nat)
  /-- GRID_ACCEPT (R346): The distributor takes the best ready entry and accepts its grid, rechecking a task's launch record. -/
  | gridAccept
  /-- GRID_SKIP_TIMEOUT (R346): A grid skipped for 100 µs blocks placement of lower grids on its partition. -/
  | gridSkipTimeout (gid : Nat)
  /-- BLOCK_PLACE (R347): Places a pending block or group on the chosen core and starts it with an acquire. -/
  | blockPlace
  /-- RESTORE (R52): Restores an evicted block or warp with fresh slots, reloaded state and a new acquire epoch. -/
  | restore (uid : Nat)
  /-- WARP_RELEASE (R176): A warp whose threads have all exited, with a zero counter and no engine command, frees its slot. -/
  | warpRelease (uid wid : Nat)
  /-- BLOCK_RETIRE (R350): A block whose warps are released and children folded retires and returns its resources. -/
  | blockRetire (uid : Nat)
  /-- GRID_RETIRE (R176): A grid retires once its blocks and child grids have retired. -/
  | gridRetire (gid : Nat)
  /-- CHILD_FOLD (R196): The merge engine folds a child's views into the parent's targets once the previous sibling has folded. -/
  | childFold (parent : Nat)
  /-- L1_FILL (R383): A fill arrives, merges under the dirty mask and records its epoch. -/
  | l1Fill (msg : Nat)
  /-- LINE_WRITEBACK (R384): The home performs a byte-masked write-back in send order and acknowledges it. -/
  | lineWriteback (msg : Nat)
  /-- WRITEBACK_ACK (R309): Write-back acknowledgements arrive, letting a release proceed or setting closeFar. -/
  | writebackAck (msg : Nat)
  /-- L2_EVICT (R396): A line leaves the L2 with its mark record written to the side band. -/
  | l2Evict (line : Nat)
  /-- L2_REFILL (R396): A line is refilled from HBM4 with its stored record, correcting or poisoning on ECC errors. -/
  | l2Refill (line : Nat) (ecc : EccOutcome)
  /-- BACK_INVALIDATE (R399): A CXL back-invalidate makes the home write back and drop the line before it answers. -/
  | backInvalidate (line : Nat)
  /-- PEER_REQUEST (R467): A request from another device is performed at the owner's home slice in send order. -/
  | peerRequest (req : PeerReq)
  /-- FORWARDED_LINE_REQUEST (R417): A forwarded far, host or peer request is counted per context and 2 MiB region. -/
  | forwardedLineRequest (msg : Nat)
  /-- MIGRATION_HOLD_TIMEOUT (R419): A write held for 20 µs on a migrating page is refused with PAGE.ABSENT. -/
  | migrationHoldTimeout (msg : Nat)
  /-- ACQUIRE_FLOOR_RECOMPUTE (R322): Every 512 ns the context's acquire floor is recomputed, expiring intervals and ending ring stalls. -/
  | acquireFloorRecompute (ctx : Nat)
  /-- WELL_SWITCH_ACCESS (R402): The well switch serves an access to a well in arrival order. -/
  | wellSwitchAccess (msg : Service)
  /-- QUEUED_WELL_RELEASE (R405): A queued well returns to the pool once the giver's context has no resident or evicted block. -/
  | queuedWellRelease (core : Nat)
  /-- WS_WINDOW_OPEN (R284): A bank group's 250 ns refresh window opens and stalls reads of the group. -/
  | wsWindowOpen (die group : Nat)
  /-- WS_WINDOW_CLOSE (R284): A refresh window closes and stalled reads and waits proceed. -/
  | wsWindowClose (die group : Nat)
  /-- GANG_BOUNDARY (R370): At a slice boundary, priorities change and the incoming owner's blocks are placed or restored. -/
  | gangBoundary
  /-- SAMPLE_INTERVAL_START (R440): At each sampling interval, a scheduler draws from its LFSR to pick an instruction to tag. -/
  | sampleIntervalStart (core sched : Nat)
  /-- SAMPLE_RECORD_WRITE (R440): A tagged instruction reaches write-back and its sample record is written. -/
  | sampleRecordWrite (core sched : Nat)
  /-- TRCTL_WRITE (R438): Writing the trace control register enables the trace unit and loads the LFSRs. -/
  | trctlWrite (die : Nat) (value : BitVec 64)
  /-- TRSTAT_WRITE (R441): Writing 1 to lost clears it and drop, and restarts the trace unit. -/
  | trstatWrite (die : Nat) (value : BitVec 32)
  /-- DOORBELL_WRITE (R475): A doorbell write wakes the command processor for a queue. -/
  | doorbellWrite (queue : Nat)
  /-- REGISTER_WRITE (R474): A host write to a BAR0 register that has no behaviour of its own stores the value. -/
  | registerWrite (offset : Nat) (value : BitVec 64)
  /-- CMD_LAUNCH (R475): Checks and accepts a depth-0 grid from a launch record. -/
  | cmdLaunch
  /-- CMD_CREATE_CONTEXT (R423): Reads a context record and clears dead. -/
  | cmdCreateContext
  /-- CMD_KILL_CONTEXT (R432): Aborts every grid of a context, sets dead and increments gen. -/
  | cmdKillContext
  /-- CMD_WRITE_PARTITION_TABLE (R337): Writes the 16 partition entries. -/
  | cmdWritePartitionTable
  /-- CMD_WRITE_SLICE_TABLE (R369): Writes the gang slice table, effective at the next boundary. -/
  | cmdWriteSliceTable
  /-- CMD_WRITE_COLL_GROUPS (R469): Writes collective group entries. -/
  | cmdWriteCollGroups
  /-- CMD_ENTER_WEIGHT_LOAD (R408): Puts the named dies into weight-load state. -/
  | cmdEnterWeightLoad
  /-- CMD_LEAVE_WEIGHT_LOAD (R408): Takes the named dies out of weight-load state. -/
  | cmdLeaveWeightLoad
  /-- CMD_SET_CTXBASE (R423): Sets the context-record base while no context exists. -/
  | cmdSetCtxbase
  /-- CMD_WRITE_POWER_CONTROL (R460): Writes a die's power control register, failing on out-of-range values. -/
  | cmdWritePowerControl
  /-- CMD_WRITE_STITCH (R456): Writes a stitch entry once no kernel runs on the die, failing on bad shapes. -/
  | cmdWriteStitch
  /-- CMD_RELOAD_CONTEXT (R423): Rereads a context record's RW fields. -/
  | cmdReloadContext
  /-- HOST_BAR2_ACCESS (R473): A host access through BAR2 is performed at the home slice or weight store, unchecked. -/
  | hostBar2Access (acc : HostAccess)
  /-- POWER_COMPARE (R461): Every 10 µs a die compares mean power with its cap and steps the clock. -/
  | powerCompare (die : Nat) (meanMilliwatts : PowerReading)
  /-- PLL_RELOCK_DONE (R458): After 1,500 ns the new clock starts and fstept, fstepc and a sync record are written. -/
  | pllRelockDone (die : Nat)
  /-- THERMAL_THROTTLE (R462): At 105 °C junction the die steps to fmin. -/
  | thermalThrottle (die : HeatReading)
  /-- THERMAL_RECOVER (R462): Below 95 °C the die returns to control under its cap. -/
  | thermalRecover (die : HeatReading)
  /-- THERMAL_TRIP (R462): At 115 °C every clock stops, ttrip is set, contexts are killed and an interrupt is raised. -/
  | thermalTrip
  /-- PTP_SYNC (R465): A PTP sync message slews device time and updates the lock state. -/
  | ptpSync (sync : PtpSync)
  /-- PTP_HOLDOVER (R465): With no sync for 2 s, the device enters holdover, clears ptplock and interrupts. -/
  | ptpHoldover
  /-- LINK_DOWN (R468): A link that fails a flit's CRC on 8 retries is taken down and traffic reroutes. -/
  | linkDown (port : Nat)
  /-- ROUTE_TIMEOUT (R468): A request with no route for 100 µs fails with poison, PAGE.FATAL or status 1. -/
  | routeTimeout (msg : Nat)
  /-- DEVICE_RESET (R478): Reset starts the wipe of every memory. -/
  | deviceReset
  /-- WIPE_COMPLETE (R482): The wipe ends, clearing wipe and raising vector 7. -/
  | wipeComplete (image : FirmwareImage)
  /-- RECOVERY_IMAGE_LOAD (R478): In recovery, the device accepts a new firmware image. -/
  | recoveryImageLoad (image : FirmwareImage)
  /-- LIFECYCLE_CHANGE (R480): An irreversible life-cycle transition is fused and a wipe follows. -/
  | lifecycleChange (next : LifeCycle)
  /-- SPDM_REQUEST (R479): The device answers an SPDM request over DOE or MCTP. -/
  | spdmRequest (request : List Byte)
  /-- MGMT_RESET_REQUEST (R483): A reset request arrives over the management interface. -/
  | mgmtResetRequest
  /-- HOME_SLICE_ACCESS (R227): A request arriving at a line's home slice (fill, relaxed atomic, or strong access at cluster scope or wider) is performed there in the location's single order, stamping the atomic time. -/
  | homeSliceAccess (msg : Service)
  deriving DecidableEq, Repr

end Sys2Proof
end

