-- ==== Sys2Proof/Machine/State.lean ====
section
/-! DEFINITION. The state of the machine, as plain data: everything the spec names (INVENTORY.md, heading State, has
one line for each piece), and the model's own bookkeeping (the free-value counter, the issuing warp, the script of
outside inputs). Maps are association lists with rising keys. -/

namespace Sys2Proof.Machine

/-- Sparse storage in one canonical form: keys strictly rising, and no entry equal to the zero an unlisted key reads
as. -/
abbrev Cells (w : Nat) := List (Nat × BitVec w)

/-- Memory bytes by physical address (R375); a peer device's address is its device number times 2^52 plus the
address there (R410). An unlisted byte reads as zero: the wipe writes zero (R482). -/
abbrev Memory := List Host.Cell

/-! ### Threads and warps (01_machine_state.md) -/

/-- Park reasons (R20). -/
inductive Reason where
  | marker | barrier | take | fault | syncSpawn | rwait | binding | debugger
  deriving DecidableEq, Repr

/-- Thread states with their argument (R18, R19). -/
inductive TState where
  | ready
  | parked (r : Reason)
  | paused (cycles : Nat)
  | blocked (word : Nat) (stfe : Bool)
  | exited
  deriving DecidableEq, Repr

/-- One entry of the thread table (R18), and what the core keeps for the thread besides it. -/
structure Thread where
  pc : Pc := 0
  rentry : Pc := 0
  rseq : BitVec 16 := 0
  /-- 0 to 255. -/
  age : Nat := 0
  st : TState := .ready
  /-- The next instruction begins a region (R59). -/
  newRegion : Bool := false
  /-- The next issue re-enters the saved region instance (R47, R59). -/
  reenter : Bool := false
  /-- Its PC was made current by a rollback, a resume or a start: the next issue checks it as a landing (R58). -/
  landed : Bool := false
  /-- Its strong access of the last instruction took a fault and was not performed (R317). -/
  redo : Bool := false
  /-- A switch marker is still to be applied when the present wait ends (R62, R64, R179). -/
  marker : Bool := false
  /-- Virtual address of the binding state word the thread is parked on (R437). -/
  bind : Option Nat := none
  /-- When the thread began its well wait, among all well waits (R232). -/
  waitSeq : Nat := 0
  /-- The value that a waiting `stfe` is to write (R231). -/
  wval : Word := 0
  /-- The thread whose access a waiting uniform `ldfe` or `stfe` performs, for all its threads (R32, R231). -/
  wlead : Bool := true
  /-- Registers written in the current run, kept in hazard-check mode (R66): file code and number. -/
  runWr : List (Nat × Nat) := []
  /-- Registers that the current region instance has read before writing them, those of them that it has written since, and
  those written first (R300): file code and number. -/
  rgRead : List (Nat × Nat) := []
  rgBad : List (Nat × Nat) := []
  rgWrote : List (Nat × Nat) := []
  /-- Places of the bytes it has loaded, and of those of them that it has stored to since (R300): a physical address, or a well
  byte above 2^70. -/
  rgLoad : List Nat := []
  rgStore : List Nat := []
  deriving DecidableEq, Repr

/-- A thread that has arrived at a `bar.phase` (R188): the instruction's PC, and the region instance that it stands in. -/
structure PhaseBack where
  wid : Nat
  lane : Nat
  pc : Pc
  rentry : Pc
  rseq : BitVec 16
  deriving DecidableEq, Repr

/-- A token (R39, R40): its register, the engine command, and whether the command has completed. -/
structure Token where
  reg : Nat
  eng : Nat
  done : Bool
  deriving DecidableEq, Repr

/-- A closed interval of a warp in the ring of its live-warp slot (R309, R311). -/
structure Interval where
  num : Word
  closeNear : Nat
  /-- none: pending. -/
  closeFar : Option Nat
  opc : Pc
  /-- Full phase number of the context when the interval opened (R321, R391). -/
  phase : Nat
  /-- The latest time at which a home has performed a write of it, as far as its write-backs are acknowledged (R309). -/
  farAt : Nat := 0
  deriving DecidableEq, Repr

/-- The current bundle (R352): its threads, its PC and the instructions it has issued. -/
structure Bundle where
  mask : LaneMask
  pc : Pc
  count : Nat
  deriving DecidableEq, Repr

/-- Where the fetch of a line stands (R56). -/
inductive FetchSt where
  | wanted | refetch | good | parity | fault (code : Byte) (cause level : Nat)
  deriving DecidableEq, Repr

/-- The line a warp issues from: its virtual address (bits 5:0 zero) and its 64 bytes. -/
structure LineBuf where
  line : Nat
  st : FetchSt
  data : BitVec 512
  /-- Device time at which it came (R440). -/
  time : Nat := 0
  deriving DecidableEq, Repr

/-- A fault, abort or engine record (R424), field by field. -/
structure FaultRec where
  addr : BitVec 64 := 0
  opc : Pc := 0
  onum : Word := 0
  odev : Nat := 0
  oslot : Nat := 0
  okind : Nat := 0
  oclass : Nat := 0
  rentry : Pc := 0
  pc : Pc := 0
  lanes : LaneMask := 0
  rseq : BitVec 16 := 0
  eseq : Word := 0
  slot : Nat := 0
  wid : Nat := 0
  bid : Nat := 0
  ctx : Nat := 0
  gen : Nat := 0
  level : Nat := 0
  acc : Nat := 0
  cause : Nat := 0
  src : Nat := 0
  aux : Nat := 0
  held : Bool := false
  code : Byte := 0
  deriving DecidableEq, Repr

/-- A release that has been performed (R301, R303): the releasing party, as a warp or the issuing warp of an engine command, with
its core; its scope code; and its stamp. -/
structure Rel where
  /-- none: the device itself. -/
  party : Option (Nat × Nat × Nat)
  scope : Nat
  stamp : Nat
  /-- A release fence before the write (R303 case 2), not a release of the write itself. -/
  fence : Bool := false
  deriving DecidableEq, Repr

/-- A paired access that waits for its lanes (R224, R307): its scope, the lanes not yet performed, and the largest release
stamp met so far. -/
structure AcqWait where
  scope : Scope
  lanes : List Nat
  stamp : Nat
  /-- The release of the same instruction has already ended the interval (R307). -/
  ended : Bool
  /-- Its release is still to be performed, with the first lane at its home (R224, R308). -/
  rel : Bool := false
  /-- It acquires once every lane has been performed. -/
  acquires : Bool := true
  /-- A lane has been performed. -/
  done : Bool := false
  deriving DecidableEq, Repr

/-- A waiting `take` (R234): its bank-map slot, its destination register, and whether the outstanding counter still
counts it. -/
structure Take where
  uid : Nat
  wid : Nat
  slot : Nat
  reg : Nat
  pc : Pc
  lanes : LaneMask
  counted : Bool := true
  deriving DecidableEq, Repr

/-- A warp: its registers, thread table, counters and ordering state. -/
structure Warp where
  uid : Nat
  wid : Nat
  /-- Warp slot in the core, 0 to 127 (R17). -/
  slot : Nat := 0
  /-- Core number over the device: die × 200 + `%core`. -/
  core : Nat := 0
  /-- On a core, not evicted (R372). -/
  resident : Bool := true
  threads : List Thread := []
  /-- Register r of lane l at key 32r + l (R22). -/
  vregs : Cells 32 := []
  sregs : Cells 32 := []
  /-- Predicate p's lane bits at key p; p7 is hard-wired and never listed (R25). -/
  preds : Cells 32 := []
  /-- R38. -/
  outstanding : Nat := 0
  tokens : List Token := []
  fflags : BitVec 5 := 0
  iseq : Word := 0
  eseq : Word := 0
  /-- The hybrid clock (R308). -/
  clock : Nat := 0
  /-- Stamp of its latest release. -/
  relStamp : Nat := 0
  /-- Scope code and stamp of its latest release fence at each scope, which its later strong writes carry (R303 case 2). -/
  fences : List (Nat × Nat) := []
  /-- Releases that its strong reads have met, for its acquire fences (R303 case 2). -/
  seen : List Rel := []
  /-- The line that the warp's fetch, or its issuing instruction, last asked a home that it could not reach for, and when (R459, R468). -/
  askedAt : Option (Nat × Nat) := none
  /-- The latest time that a line has recorded for a relaxed atomic of it (R308, R315). -/
  atomTime : Nat := 0
  acqNear : Nat := 0
  acqWide : Nat := 0
  /-- Acquire epoch (R383). -/
  acqEpoch : Nat := 0
  /-- Filter tag (R382). -/
  ftag : Nat := 0
  /-- Dirty list of line addresses and its overflow mark (R384). -/
  dirty : List Nat := []
  dirtyOv : Bool := false
  /-- Opening PC of the current interval; none until its first instruction issues (R307). -/
  opc : Option Pc := none
  /-- Full phase number when that instruction issued (R391). -/
  openPhase : Nat := 0
  /-- The last 64 closed intervals, newest first (R311). -/
  ring : List Interval := []
  /-- Held after a fault (R426). -/
  held : Bool := false
  /-- Stalled for want of a holding slot, with the order of stalling (R427). -/
  faultStall : Option Nat := none
  /-- Faults of orders 7 and 8 to be delivered at the next region boundary, with the lane of each (R213). -/
  deferred : List (Nat × FaultRec) := []
  /-- Mark checks of the current region that no home has acknowledged (R59). -/
  checks : List Nat := []
  /-- Write-backs in flight: message, and the interval they belong to (R309, R330). -/
  wbs : List (Nat × Word) := []
  /-- The write-backs, checks or fills that the instruction now stalled waits for have been sent (R302, R330). -/
  flushed : Bool := false
  /-- The first name still free when a stalled instruction began to wait for what was under way; 0 when none does. -/
  waitId : Nat := 0
  /-- Level of the page that a waiting `sys.tlbinv` has invalidated (R205). -/
  waitLevel : Nat := 0
  /-- Waiting at a region boundary (R59). -/
  atBoundary : Bool := false
  acq : Option AcqWait := none
  bundle : Option Bundle := none
  /-- Unable to issue since its last attempt (R355). -/
  stall : Bool := false
  /-- Something that it may wait for has come about since that attempt: whether it can issue now is still to be tried (R355). -/
  doubt : Bool := false
  /-- Waiting for a ring entry to expire (R324), and on a pending token (R39, R322). -/
  ringStall : Bool := false
  tokenStall : Bool := false
  /-- Cycle at which the warp came to have an issuable bundle (R355). -/
  since : Option Nat := none
  /-- Skipped by `yield` for one choice (R180). -/
  yielded : Bool := false
  line : Option LineBuf := none
  /-- Takes that wait while the warp is off the core (R351). -/
  takes : List Take := []
  /-- Slot and registers returned (R176). -/
  released : Bool := false
  /-- Its resume alone faulted ILLEGAL: it stays away until `sys.resume` (R21). -/
  barred : Bool := false
  deriving DecidableEq, Repr

/-! ### Blocks, grids and tasks (05, 09) -/

/-- Tag of a stream register (R29). -/
structure StreamTag where
  cmask : BitVec 64 := 0
  /-- Length code: 0 256, 1 512, 2 1,024 bits. -/
  len : BitVec 2 := 2
  derived : Bool := false
  deriving DecidableEq, Repr

/-- A convergence register (R30). -/
structure ConvReg where
  first : BitVec 80 := 0
  signers : BitVec 32 := 0
  /-- 0 free, 1 collecting, 2 issuing. -/
  state : Nat := 0
  count : Nat := 0
  n : Nat := 0
  /-- Engine commands that hold the signers' tokens (R273, R275). -/
  engs : List Nat := []
  deriving DecidableEq, Repr

/-- A bank-map slot entry (R403); a slot with no entry maps nothing. -/
structure Bank where
  well : Nat
  first : Nat
  /-- Granules mapped, 1 to 16. -/
  count : Nat
  deriving DecidableEq, Repr

/-- A barrier in use: who has arrived, and the count that `bar.cnt` fixed (R182, R206). -/
structure Barrier where
  id : Nat
  arrived : List (Nat × Nat)
  need : Option Nat
  deriving DecidableEq, Repr

/-- A kernel descriptor's fields (R447). -/
structure Kernel where
  entry : Pc := 0
  nv : Nat := 1
  ns : Nat := 1
  tiles : Nat := 0
  accs : Nat := 0
  streams : Nat := 0
  cvs : Nat := 0
  wellbytes : Nat := 0
  privBytes : Nat := 0
  ugbar : Bool := false
  uclbar : Bool := false
  deriving DecidableEq, Repr

/-- The fields of a `bar.phase` (R188). -/
structure PhaseOp where
  pc : Pc
  vb : Nat
  vmask : BitVec 32
  sb : Nat
  smask : BitVec 16
  wc : Bool
  deriving DecidableEq, Repr

/-- A view of a spawned child (R194). -/
structure View where
  poff : Nat
  len : Nat
  cslot : Nat
  op : Nat
  sat : Bool
  /-- Ranges of the target that earlier unfolded views covered at the spawn, earliest first: offset, length and operator
  (R198). -/
  bound : List (Nat × Nat × Nat) := []
  /-- The wells that the target's slots held at the spawn; none once `sys.fwake` has resumed the fold (R198). -/
  wells : List (Nat × Nat) := []
  deriving DecidableEq, Repr

/-- Where a block is. -/
inductive BlockSt where
  /-- Waiting to be placed (R346, R364). -/
  | pending
  | resident
  /-- Off the core; `bySys`: by `sys.evict` or BRK, returns only through `sys.resume` (R374, R442). -/
  | evicted (bySys : Bool)
  /-- Descheduled at `bar.phase`; `ready`: the phase may start (R189). -/
  | phase (ready : Bool)
  /-- All threads exited, views with the merge engine (R197). -/
  | merging
  | retired
  deriving DecidableEq, Repr

/-- A merge in the merge engine (R196, R198): who merged last, the view and element cursor, and a stopped fold. -/
structure Merge where
  wid : Nat := 0
  slot : Nat := 0
  core : Nat := 0
  pc : Pc := 0
  eseq : Word := 0
  merged : Bool := false
  view : Nat := 0
  elem : Nat := 0
  stopped : Bool := false
  deriving DecidableEq, Repr

structure Block where
  uid : Nat
  gid : Nat
  bid : Nat
  crank : Nat := 0
  ctx : Nat := 0
  depth : Nat := 0
  ntid : Nat := 1
  st : BlockSt := .pending
  /-- Core number over the device; of the last residence while off the core. -/
  core : Nat := 0
  /-- Cluster over the device that wells and views belong to, once placed. -/
  cluster : Option Nat := none
  start : Nat := 0
  kernel : Kernel := {}
  /-- Parameter address: the const space (R221). -/
  param : BitVec 64 := 0
  /-- 16-bit element (i, j) of tile t at 4096t + 64i + j (R22). -/
  tiles : Cells 16 := []
  accs : Cells 32 := []
  /-- Lane l of stream q at 32q + l. -/
  streams : Cells 1024 := []
  tags : List (Nat × StreamTag) := []
  cvs : List (Nat × ConvReg) := []
  slen : Nat := 1024
  bank : List (Nat × Bank) := []
  bars : List Barrier := []
  /-- Arrivals at the cluster barrier and at the grid barrier (R185, R186). -/
  clArr : List (Nat × Nat) := []
  gArr : List (Nat × Nat) := []
  /-- Arrivals at a `bar.phase` and its fields (R188). -/
  phArr : List (Nat × Nat) := []
  phase : Option PhaseOp := none
  /-- Arrivals that show another PC or other fields. -/
  phClash : Bool := false
  /-- Where each arrival at the phase barrier goes back to when the barrier faults (R188). -/
  phBack : List PhaseBack := []
  /-- The largest release stamp of the arrivals at the phase barrier that completed last (R189, R303 case 3). -/
  phStamp : Nat := 0
  /-- The largest stamp of the releases that exiting warps have performed (R171, R182): they count as arrived. -/
  exitStamp : Nat := 0
  readySince : Nat := 0
  /-- Cycles of its queue's home die when it became ready to be placed (R358, R362). -/
  readyCyc : Nat := 0
  /-- The block that spawned this one, and its place in the spawn order (R195, R196). -/
  parent : Option (Nat × Nat) := none
  views : List View := []
  prio : Nat := 0
  /-- Children spawned so far, and folded so far. -/
  spawned : Nat := 0
  folded : Nat := 0
  /-- For each `sync.spawn` that waits: the warp, its lanes, and the folds it waits for (R199). -/
  syncs : List (Nat × LaneMask × Nat) := []
  merge : Option Merge := none
  /-- Hazard checks and watchpoints in force since the last start or restore (R423). -/
  hcheck : Bool := false
  watch : List (BitVec 64) := []
  /-- Queued for restoration (R205, R374). -/
  resume : Bool := false
  /-- As an entry of its grid's queue, a phase that has left its core or a spawned child, taken by the distributor: its place in the
  order of acceptance (R346, R362). -/
  accepted : Option Nat := none
  deriving DecidableEq, Repr

/-- A partition entry (R337). -/
structure Partition where
  valid : Bool := false
  wgran : Nat := 0
  cmask : BitVec 8 := 0
  clus : List (BitVec 25) := []
  deriving DecidableEq, Repr

/-- A launch record's fields (R339). -/
structure Launch where
  cores : Bool := false
  prio : Nat := 0
  cgroup : Nat := 0
  part : Nat := 0
  queue : Nat := 0
  ntid : Nat := 1
  sastride : Nat := 64
  nbid : Nat := 1
  sabase : BitVec 64 := 0
  gpbase : BitVec 64 := 0
  param : BitVec 64 := 0
  kdesc : BitVec 64 := 0
  deriving DecidableEq, Repr

inductive GridSt where
  /-- In its task queue (R346, R358). -/
  | queued
  | accepted
  | retired
  | aborted
  deriving DecidableEq, Repr

structure Grid where
  /-- The model's own name of the grid; `%gid` is `num` (R31). -/
  gid : Nat
  num : Word := 0
  ctx : Nat
  gen : Nat := 0
  depth : Nat := 0
  launch : Launch := {}
  partition : Partition := {}
  kernel : Kernel := {}
  st : GridSt := .queued
  readyAt : Nat := 0
  acceptedAt : Nat := 0
  /-- Next block to create when its turn to be placed comes. -/
  nextBid : Nat := 0
  retiredBlocks : Nat := 0
  /-- Time since which the grid has been skipped, and whether 100 µs have passed (R346). -/
  skipSince : Option Nat := none
  blocking : Bool := false
  parent : Option Nat := none
  parentBlock : Option Nat := none
  /-- Engine command whose token waits for the grid, and `.wait` (R193). -/
  token : Option Nat := none
  wait : Bool := false
  task : Option (Nat × Nat) := none
  /-- Acquire stamp for the blocks' start (R303 case 6). -/
  stamp : Nat := 0
  /-- A host launch's completion address, and whether it asked for the interrupt (R475). -/
  host : Option (Nat × Bool) := none
  abortCode : Byte := 0
  /-- Cycles of its queue's home die when it became ready (R358, R362). -/
  readyCyc : Nat := 0
  deriving DecidableEq, Repr

/-- A footprint range (R200). -/
structure Range where
  base : Nat
  len : Nat
  wr : Bool
  deriving DecidableEq, Repr

/-- A task in the task tables (R200, R360). -/
structure Task where
  queue : Nat
  index : Nat
  ctx : Nat
  gen : Nat
  depth : Nat
  recordAt : BitVec 64
  launchAt : BitVec 64
  param : BitVec 64
  prio : Nat
  /-- 0 idle, 1 waiting, 2 ready, 3 running, 4 done, 5 aborted. -/
  state : Nat
  pend : Nat
  ranges : List Range
  /-- Indices of the later tasks whose count this one entered (R202). -/
  succs : List Nat
  token : Option Nat
  wait : Bool
  /-- Fault of the first counted predecessor that aborted (R361). -/
  predAbort : Option Byte
  readyAt : Nat
  parentGrid : Nat
  parentBlock : Nat
  stamp : Nat
  readyCyc : Nat := 0
  deriving DecidableEq, Repr

/-! ### Engines (06, 07) -/

inductive EngineSt where
  | running
  | suspended
  | done
  deriving DecidableEq, Repr

/-- An engine command (R237, R238): its party, its captured operands and its progress. -/
structure Engine where
  id : Nat
  uid : Nat
  wid : Nat
  /-- Live-warp slot at issue (R17, R238). -/
  lslot : Nat
  eseq : Word
  ctx : Nat
  gen : Nat
  core : Nat
  pc : Pc
  lanes : LaneMask
  op : Instr
  /-- Register operands and record words read at issue. -/
  args : List Nat
  token : Option Nat
  /-- Units done (R246), or the phase of a collective. -/
  progress : Nat := 0
  st : EngineSt := .running
  /-- Status word once done (R39). -/
  status : BitVec 32 := 0
  acqNear : Nat := 0
  acqWide : Nat := 0
  issued : Nat := 0
  /-- Signatures of a matrix operation: warp, engine command (R273). -/
  signers : List Nat := []
  /-- Children's partials received by a collective, and the root's result (R254). -/
  partials : List (Nat × List Byte) := []
  result : Option (List Byte) := none
  /-- The parts of a matrix operation's operands read so far (R261): row i of A at i, and column j of a dense B, with its scales,
  or slot j of a compressed B at 64 + j. -/
  got : List (Nat × List Nat) := []
  /-- Device time counted outside the job's slices, and since when the job has been pre-empted (R255). -/
  paused : Nat := 0
  offSince : Option Nat := none
  /-- A write has been held at a migrating page since this time (R419). -/
  heldAt : Option Nat := none
  /-- Since when its next access, to a peer, has been under way without a route (R468). -/
  routeAt : Option Nat := none
  /-- Close time of the party: the consumption of the token (R328). -/
  close : Option Nat := none
  /-- The completion's release stamp (R303 case 5). -/
  stamp : Nat := 0
  deriving DecidableEq, Repr

/-- A result register (R22): lane of a vector register, byte `k` of one (R282), a uniform register, or lane of a
predicate. -/
inductive RegSlot where
  | vec (r l : Nat)
  | vecB (r l k : Nat)
  | uni (r : Nat)
  | pred (p l : Nat)
  deriving DecidableEq, Repr

/-- One lane of a load on its way (R214): the registers it fills, the line and offset it reads, and the bytes that were
the core's own at issue (R216). Each lies within one sector. -/
structure Piece where
  slots : List RegSlot
  signed : Bool
  size : Nat
  addr : Nat
  got : List (Option Byte)
  /-- Every byte is there. -/
  ready : Bool
  /-- Nothing of it is missing any more. -/
  done : Bool := false
  lane : Nat
  /-- The record of the fault that the read may find (R213 order 7). -/
  flt : FaultRec
  deriving DecidableEq, Repr

/-- A result owed to a warp's registers (R38). -/
structure Owed where
  id : Nat
  uid : Nat
  wid : Nat
  /-- Never discarded (R215). -/
  strong : Bool := false
  /-- The outstanding counter counts it (R38). -/
  counted : Bool := true
  /-- A floating-point instruction (R37). -/
  fp : Bool := false
  writes : List (RegSlot × Word) := []
  pieces : List Piece := []
  /-- Lanes of an access not yet performed at its home or at the well switch. -/
  lanes : List Nat := []
  /-- The destination of a waiting `ldfe` (R231): uniform, and register; and whether one of its lanes has been
  performed. -/
  dst : Option (Bool × Nat) := none
  hit : Bool := false
  /-- Its response is held in a die link until this time (R459). -/
  after : Nat := 0
  /-- The responses on their way that bring values of strong accesses: home, core, and when each left (R454). -/
  resps : List (Nat × Nat × Nat) := []
  /-- Earlier responses between the same ends that were on their way then: messages. -/
  behind : List Nat := []
  deriving DecidableEq, Repr

/-! ### Caches, home slices and messages (10) -/

/-- A line of a core's L1 (R379). The list of a core's lines is in order of use, latest first. -/
structure L1Line where
  ctx : Nat
  line : Nat
  data : BitVec 512 := 0
  svalid : BitVec 2 := 0
  dirty : BitVec 64 := 0
  owner : Nat := 0
  otag : Nat := 0
  rbits : BitVec 16 := 0
  wbits : BitVec 16 := 0
  fepoch0 : Nat := 0
  fepoch1 : Nat := 0
  poison : BitVec 4 := 0
  /-- Sectors whose fill is on its way. -/
  pending : BitVec 2 := 0
  /-- Location, virtual line address, migration bit and trace pin of the page the last access went through, for the
  line's write-back (R332, R417, R419). -/
  loc : Nat := 0
  va : Nat := 0
  mig : Bool := false
  tpin : Bool := false
  deriving DecidableEq, Repr

/-- A mark record (R386). -/
structure Mark where
  phase : BitVec 3 := 0
  aclass : BitVec 3 := 0
  rmask : BitVec 16 := 0
  wmask : BitVec 16 := 0
  rfield : BitVec 22 := 0
  rstate : BitVec 2 := 0
  wfield : BitVec 22 := 0
  wstate : BitVec 2 := 0
  deriving DecidableEq, Repr

/-- A party's marks on a line, as a party slot of an overflow entry holds them (R388), or a compact mark (R387). -/
structure OvParty where
  /-- Writer (slots 0 to 3) or reader (slots 4 to 7). -/
  writer : Bool
  eng : Bool
  /-- none: this device. -/
  dev : Option Nat
  slot : Nat
  num : Word
  mask : BitVec 16
  /-- The warp whose number it is. -/
  uid : Nat
  wid : Nat
  /-- Only the low five bits of the number are known (R391). -/
  unsure : Bool := false
  /-- When a party of another device last marked the line (R334). -/
  seen : Nat := 0
  deriving DecidableEq, Repr

/-- Atomic words of one class in an overflow entry; a second one is the entry chained through slot 7 (R388). -/
structure OvAtomic where
  aclass : Nat
  amask : BitVec 16
  atime : Nat
  deriving DecidableEq, Repr

/-- An overflow entry (R388): slice (over the device), index, the context and full phase it belongs to, and its line. -/
structure OvEntry where
  slice : Nat
  index : Nat
  ctx : Nat
  phase : Nat
  line : Nat
  parties : List OvParty := []
  atomics : List OvAtomic := []
  /-- The broad state of the line's record is known to be of the current phase (R387). -/
  sure : Bool := true
  deriving DecidableEq, Repr

/-- A line held in the L2, with its record, the full phase number of the record, and whether the line has been held since the writer's
and the reader's mark was last changed (R387, R391). -/
structure L2Line where
  line : Nat
  mark : Mark := {}
  phase : Nat := 0
  held : Bool := false
  rheld : Bool := false
  /-- The refill found the line uncorrectable, and the access that reads it is still to fault (R397). -/
  ecc : Bool := false
  /-- The context whose check last changed the record, while the L2 has held it. -/
  ctx : Option Nat := none
  /-- When the line came into the L2 (R440). -/
  time : Nat := 0
  deriving DecidableEq, Repr

/-- The owner's record of this device's marks on a line of a peer device (R334, R401). -/
structure PeerMark where
  line : Nat
  parties : List OvParty := []
  atomics : List OvAtomic := []
  broad : Bool := false
  rmask : BitVec 16 := 0
  deriving DecidableEq, Repr

/-- The side band of a line (R395), but for its ecc (`Config.ecc`). -/
structure Band where
  line : Nat
  mark : Mark := {}
  mvalid : Bool := false
  cmp : BitVec 2 := 0
  poison : BitVec 4 := 0
  deriving DecidableEq, Repr

/-- A far-mark entry (R394): home die, page (PA bits 51:16) and record. -/
structure FarMark where
  die : Nat
  page : Nat
  ctx : Nat
  phase : Nat
  mark : Mark
  deriving DecidableEq, Repr

/-- A party as a request names it (R294, R334): device (none: this one), engine or warp, live-warp slot, number, and
acquire times. -/
structure Party where
  dev : Option Nat := none
  uid : Nat := 0
  wid : Nat := 0
  eng : Option Nat := none
  slot : Nat := 0
  num : Word := 0
  acqNear : Nat := 0
  acqWide : Nat := 0
  phase : Nat := 0
  ctx : Nat := 0
  /-- When a party of another device made its request (R334). -/
  seen : Nat := 0
  deriving DecidableEq, Repr

/-- An access as its home sees it: party, label code of R218, read or write, the page's location code, the words of
the line, and what a fault record needs. -/
structure Access where
  party : Party
  lane : Nat
  label : Nat
  write : Bool
  addr : Nat
  loc : Nat
  words : BitVec 16
  va : BitVec 64
  pc : Pc
  lanes : LaneMask
  rseq : BitVec 16
  deriving DecidableEq, Repr

/-- A strong operation on one location (R224, R226, R231). -/
inductive StrongOp where
  | load (signed : Bool) | store | swap | cas (cmp : BitVec 64)
  | rmw (aop : Nat) (signed : Bool)
  | accum (aop : Nat)
  deriving DecidableEq, Repr

/-- One lane of a strong access on its way (R227). -/
structure Strong where
  uid : Nat
  wid : Nat
  /-- The lane; of a plain access to several well words, l + 32k for word k. -/
  lane : Nat
  /-- The threads it is performed for. -/
  group : LaneMask
  seq : Nat
  cls : Nat
  scope : Scope
  op : StrongOp
  /-- Bytes: 4 or 8. -/
  size : Nat
  addr : Nat
  loc : Nat
  checked : Bool
  value : BitVec 64
  /-- Result owed, with the registers of this lane. -/
  owed : Option Nat
  slots : List RegSlot
  /-- Scope codes and stamps of the release fences before it, which its write carries (R303 case 2). -/
  fences : List (Nat × Nat)
  /-- It releases before its first lane (R224). -/
  releases : Bool
  acquires : Bool
  acc : Access
  /-- Virtual address and migration bit of its page (R419). -/
  va : Nat
  mig : Bool
  deriving DecidableEq, Repr

/-- The releases that a read of a location's value meets (R303, R308): the value at its home, or in a core's L1. -/
structure RelStamp where
  core : Option Nat := none
  addr : Nat
  rels : List Rel
  deriving DecidableEq, Repr

/-- A fill (R383): the sectors asked for, the core's epoch at the request, and the pieces of loads that wait for it. -/
structure Fill where
  core : Nat
  ctx : Nat
  line : Nat
  sectors : BitVec 2
  epoch : Nat
  owed : List (Nat × Nat)
  loc : Nat
  /-- Virtual line address that the request was translated from (R416). -/
  va : Nat := 0
  /-- Bytes written back since the request, which the fill does not replace (R216, R381). -/
  keep : BitVec 64 := 0
  data : BitVec 512 := 0
  poison : BitVec 4 := 0
  /-- The 8-byte words that the read found uncorrectable (R397, R406). -/
  bad : BitVec 8 := 0
  /-- The releases that the values read carry (R303). -/
  rels : List RelStamp := []
  deriving DecidableEq, Repr

/-- A write-back (R384), with the warps and intervals it belongs to, and its page's location, virtual line address and
migration bit. -/
structure Wb where
  core : Nat
  ctx : Nat
  line : Nat
  mask : BitVec 64
  data : BitVec 512
  owners : List (Nat × Nat × Word)
  loc : Nat
  va : Nat
  mig : Bool
  /-- The releases that the values written carry (R303). -/
  rels : List RelStamp := []
  deriving DecidableEq, Repr

/-- Messages between cores and homes (R382, R384, R401, R454). -/
inductive MsgKind where
  /-- A mark check and its acknowledgement (R382, R59). -/
  | check (a : Access) (core : Nat)
  | checkAck (uid wid check core loc line : Nat)
  /-- A fill request for sectors of a line, and its reply (R383). -/
  | fillReq (f : Fill)
  | fillReply (f : Fill)
  /-- A prefetch of a line into its home's L2 (R222). -/
  | prefetch (core ctx line loc : Nat)
  /-- A write-back with its byte mask, and its acknowledgement (R384, R309). -/
  | wb (x : Wb)
  | wbAck (owners : List (Nat × Nat × Word)) (msg time core loc line : Nat)
  /-- One lane of a strong access on global memory, or on a well. -/
  | strong (r : Strong)
  | well (r : Strong)
  /-- A forwarded line request to be counted (R417). -/
  | fwd (ctx va loc dev die : Nat)
  deriving DecidableEq, Repr

structure Msg where
  id : Nat
  sent : Nat
  kind : MsgKind
  /-- Held since this time at a migrating page's home (R419). -/
  heldAt : Option Nat := none
  /-- Refused after 20 µs; performed again after `sys.fwake` (R419). -/
  refused : Bool := false
  deriving DecidableEq, Repr

/-- A TLB entry (R414): the unit that holds it (a core's L1 TLB, a cluster's TLB or Quill, a die's walker cache). -/
inductive TlbUnit where
  | core (n : Nat) | cluster (n : Nat) | quill (n : Nat) | walker (die : Nat)
  deriving DecidableEq, Repr

structure TlbEntry where
  unit : TlbUnit
  ctx : Nat
  /-- Level of the entry: 0 or 1 for the walker cache, the leaf's level otherwise. -/
  level : Nat
  /-- Virtual address with the bits below the page cleared. -/
  va : Nat
  pte : BitVec 64
  deriving DecidableEq, Repr

/-- An access counter (R417). -/
structure Counter where
  die : Nat
  ctx : Nat
  region : Nat
  count : Nat
  deriving DecidableEq, Repr

/-! ### Cores, dies and the live-warp table -/

/-- A sample in flight (R440). -/
structure Sample where
  pc : Pc
  eseq : Word
  slot : Nat
  ctx : Nat
  time : Nat
  cls : Nat
  minor : Nat
  nact : Nat
  fault : Bool
  disc : Bool
  pair : Bool
  /-- The places that have served its accesses so far. -/
  levels : List Nat := []
  /-- The names that the instruction gave: from the first on, and up to another's, once the scheduler has issued one. -/
  name : Nat := 0
  upto : Option Nat := none
  deriving DecidableEq, Repr

/-- A scheduler of a core (R355, R440). -/
structure Scheduler where
  last : Nat := 31
  /-- `last` before the choice that is being tried (R355). -/
  prev : Nat := 31
  prevTags : List Nat := []
  /-- The warp slots whose `yield` that choice used up (R180). -/
  prevYields : List Nat := []
  /-- Zero, which the register never holds: as the last enable loaded it. -/
  lfsr : BitVec 16 := 0
  /-- When the next sampling interval starts; before the last enable: at that enable. -/
  nextAt : Nat := 0
  /-- From when on the next instruction is to be tagged: one time for each interval drawn and not yet used. -/
  tagAt : List Nat := []
  /-- Tagged instructions that are still to be written back, oldest first. -/
  samples : List Sample := []
  deriving DecidableEq, Repr

/-- A `give` between its check and its completion (R233). -/
structure Give where
  id : Nat
  uid : Nat
  wid : Nat
  slot : Nat
  well : Nat
  /-- Core over the device. -/
  target : Nat
  f : MemForm
  lanes : LaneMask
  deriving DecidableEq, Repr

/-- A well in an arrival queue (R233, R405). -/
structure Arrival where
  well : Nat
  giver : Nat
  ctx : Nat
  stamp : Nat
  deriving DecidableEq, Repr

structure Core where
  /-- Core number over the device: die × 200 + `%core`. -/
  id : Nat
  /-- Epoch E (R383), which begins at 1 (DESIGN CHOICE, log entry 103), and filter-tag counter (R382). -/
  epoch : Nat := 1
  tagCtr : Nat := 0
  l1 : List L1Line := []
  /-- Holding slots, oldest first, at most 16 (R427). -/
  holding : List FaultRec := []
  /-- Reports of events that nothing waits on and for which no slot was free, oldest first (R427, log entry 88). -/
  late : List FaultRec := []
  arrivals : List Arrival := []
  takes : List Take := []
  /-- Matrix operations in issue order (R261). -/
  matq : List Nat := []
  scheds : List Scheduler := []
  deriving DecidableEq, Repr

/-- A former ring of a live-warp slot (R392). -/
structure FormerRing where
  slot : Nat
  uid : Nat
  wid : Nat
  ring : List Interval
  /-- The number of the interval that was open when the warp left the slot. -/
  last : Word := 0
  /-- The warp's context. -/
  ctx : Nat := 0
  deriving DecidableEq, Repr

/-- Owner of low bits k in a live-warp slot (R390). -/
structure Owner where
  slot : Nat
  k : Nat
  num : Word
  uid : Nat
  wid : Nat
  ctx : Nat
  deriving DecidableEq, Repr

/-- An address-range entry (R377). -/
structure AddrRange where
  valid : Bool := false
  stride : Nat := 0
  base : Nat := 0
  limit : Nat := 0
  smask : BitVec 64 := 0
  deriving DecidableEq, Repr

/-- A trace unit (R438 to R441). -/
structure Trace where
  ctl : BitVec 64 := 0
  base : BitVec 64 := 0
  ptr : BitVec 64 := 0
  lost : Bool := false
  on : Bool := false
  drop : BitVec 24 := 0
  last : Nat := 0
  /-- Device time of the last enable (R440). -/
  enAt : Nat := 0
  deriving DecidableEq, Repr

structure Die where
  /-- Current clock in MHz. -/
  fMHz : Nat := 4000
  /-- Stopped until the PLL relocks at this time (R458). -/
  relock : Option Nat := none
  nextMHz : Nat := 4000
  cycle : Nat := 0
  scyc : Nat := 0
  fstept : Nat := 0
  fstepc : Nat := 0
  /-- Fraction of a cycle elapsed, in MHz × ns (below 1,000). -/
  frac : Nat := 0
  /-- Power control register (R460). -/
  fmax : Nat := 40
  fmin : Nat := 8
  cap : Nat := 570
  thr : Bool := false
  hot : Bool := false
  lastPower : Nat := 0
  /-- Mean power in mW at the last comparison, and junction temperature in °C as last measured (R461, R462, R483). -/
  meanMw : Nat := 0
  tempC : Nat := 0
  /-- Refresh origin T0_d (R407). -/
  t0 : Nat := 0
  openGroups : List Nat := []
  weightLoad : Bool := false
  stitch : List (BitVec 64) := []
  ranges : List AddrRange := []
  trace : Trace := {}
  deriving DecidableEq, Repr

/-! ### Contexts, rings and collectives -/

/-- Notice kinds (R428). -/
inductive NoticeKind where
  | fault | migration | overflow | killed
  deriving DecidableEq, Repr

/-- A context as the device holds it (R423): the RW fields read at creation or reload, the RO fields of its own, and
its phase and floor (R311, R322). -/
structure Ctx where
  id : Nat
  created : Bool := false
  ptroot : BitVec 64 := 0
  fring : BitVec 64 := 0
  mring : BitVec 64 := 0
  bindbase : BitVec 64 := 0
  bindcount : Nat := 0
  hctx : Nat := 0
  gen : Nat := 0
  hnote : BitVec 16 := 0
  migthr : Word := 0
  fqovf : Word := 0
  depctl : Word := 0
  watch : List (BitVec 64) := []
  wspill : BitVec 64 := 0
  nspill : Nat := 0
  wsread : Bool := false
  dead : Bool := false
  priv : Bool := false
  prio : Nat := 0
  hcheck : Bool := false
  /-- Full phase number and its start time. -/
  phase : Nat := 0
  phaseStart : Nat := 0
  /-- Acquire floor F, and when it was last recomputed (R322). -/
  floor : Nat := 0
  floorAt : Nat := 0
  /-- Notices waiting to be appended: kind and value. -/
  notices : List (NoticeKind × Word) := []
  /-- Migration record numbers per die (R418). -/
  migSeq : List (Nat × Word) := []
  /-- The next `%gid` to give out (R31). -/
  nextGid : Word := 1
  /-- The function whose queue created it: it owns the context (R476). -/
  fn : Nat := 0
  deriving DecidableEq, Repr

/-- An open messaging ring of a cluster (R256, R257). -/
structure Ring where
  cluster : Nat
  num : Nat
  uid : Nat
  well : Nat
  /-- Word index of the header in its well. -/
  word : Nat
  /-- Release stamp of the last append. -/
  stamp : Nat := 0
  deriving DecidableEq, Repr

/-- A warp waiting in `rwait` (R257). -/
structure RingWait where
  uid : Nat
  wid : Nat
  cluster : Nat
  num : Nat
  lanes : LaneMask
  deriving DecidableEq, Repr

/-- A collective group entry (R469). -/
structure CollGroup where
  num : Nat
  valid : Bool
  nchild : Nat
  parent : Nat
  rank : Nat
  size : Nat
  chlist : BitVec 64
  /-- Operations this member has issued (R254). -/
  issued : Nat := 0
  deriving DecidableEq, Repr

/-- Wells of a block spilled to a slot of its context (R434): the bank-map slots, and the words of them, at 16384 × slot + word,
that the switch's code had found uncorrectable (R402). -/
structure Spill where
  ctx : Nat
  slot : Nat
  uid : Nat
  slots : List Nat := []
  bad : List Nat := []
  deriving DecidableEq, Repr

/-- The gang slice table (R369). -/
structure Slices where
  owner : List Nat := []
  n : Nat := 0
  len : Nat := 0
  t0 : Nat := 0
  deriving DecidableEq, Repr

/-! ### The platform (12) -/

/-- A command queue as the command processor read its header at the last wake (R475): its number (16 × function + queue),
its header's address, and the header's fields; `head` is the processor's own. -/
structure QueueRun where
  queue : Nat
  hdr : Nat
  base : Nat
  lg : Nat
  head : Nat
  tail : Nat
  deriving DecidableEq, Repr

/-- An interrupt that was raised (R476): vector, context where one is concerned, and the function it goes to. -/
structure Interrupt where
  vector : Nat
  ctx : Option Nat
  fn : Nat := 0
  deriving DecidableEq, Repr

structure Platform where
  /-- DEVSTAT (R481). -/
  wipe : Bool := true
  ready : Bool := false
  ttrip : Bool := false
  ptplock : Bool := false
  bootfail : Bool := false
  recovery : Bool := false
  lcs : LifeCycle := .manufacture
  /-- BAR0 registers (R474). -/
  farport : Word := 0
  winbase : BitVec 64 := 0
  ptpdom : Word := 0
  ptpports : BitVec 64 := 0
  qbase : Cells 64 := []
  /-- MSI-X table words, with the mask bit of each entry inverted, and vectors that wait for their mask (R474). -/
  msix : Cells 32 := []
  msixPending : List Interrupt := []
  /-- LADDER and LADDERCNT (R450). -/
  ladderFlush : BitVec 2 := 1
  ladderHalt : BitVec 2 := 2
  nflush : Word := 0
  nhalt : Word := 0
  /-- Fused anti-rollback counter (R478). -/
  rollback : Nat := 0
  /-- Host port modes (true: CXL, R471). -/
  cxl0 : Bool := false
  cxl1 : Bool := false
  ctxbase : BitVec 64 := 0
  partitions : List Partition := []
  slices : Slices := {}
  /-- A written table and when it takes effect; none: at the next boundary (R369). -/
  nextSlices : Option (Slices × Option Nat) := none
  /-- Time of the last boundary passed, and the slot's owner. -/
  sliceAt : Option Nat := none
  sliceOwner : Option Nat := none
  /-- The queues that are served, and the one served last (R475). -/
  queues : List QueueRun := []
  lastQueue : Nat := 0
  interrupts : List Interrupt := []
  /-- PTP (R465). -/
  syncs : Nat := 0
  lastSync : Nat := 0
  slewPpb : Int := 0
  /-- Billionths of a ns of device time that the slew has still to give. -/
  slewFrac : Nat := 0
  holdover : Bool := false
  /-- Ductus links that are down (R468). -/
  linksDown : List Nat := []
  /-- Since when no port is up (R468). -/
  noRouteSince : Option Nat := none
  /-- This device's number: domain and device (R466). -/
  device : Nat := 0
  /-- Digest of the firmware that runs (R479). -/
  digest : List Byte := []
  /-- SPDM answers given (R479). -/
  spdm : List (List Byte) := []
  /-- What host reads through BAR2 have given (R473). -/
  hostReads : List (List Byte) := []
  /-- Logged memory errors, by line (R397, R398). -/
  errlog : List Nat := []
  /-- Thermal trip has stopped every die clock (R462). -/
  stopped : Bool := false
  resetAt : Nat := 0
  deriving DecidableEq, Repr

/-! ### Issue and the whole state -/

/-- The instruction now issuing: the warp whose bundle it is. -/
structure Issue where
  uid : Nat
  wid : Nat
  /-- A trial of a warp that stalled before (R355): it counts only if the warp can issue. -/
  probe : Bool := false
  deriving DecidableEq, Repr

/-- An outside input, or the next event of the device in the order that outside timing gives: let `dt` ns of device
time pass, then `event`. -/
structure Scripted where
  dt : Nat
  event : Instr
  deriving DecidableEq, Repr

/-- The whole machine. -/
structure State where
  /-- Device time in ns (R33). -/
  time : Nat := 0
  dies : List Die := []
  cores : List Core := []
  warps : List Warp := []
  blocks : List Block := []
  grids : List Grid := []
  tasks : List Task := []
  engines : List Engine := []
  owed : List Owed := []
  msgs : List Msg := []
  mem : Memory := []
  /-- Well words, full bits and poison tags: word w of well n of cluster c at key (c × 96 + n) × 16384 + w (R402). -/
  wells : Cells 32 := []
  wellFull : Cells 1 := []
  wellPoison : Cells 1 := []
  /-- Well words that the switch's code finds uncorrectable (R402). -/
  wellBad : Cells 1 := []
  /-- 8-byte words of the weight store that its code finds uncorrectable, at key offset / 8 (R406). -/
  wstoreBad : Cells 1 := []
  bands : List Band := []
  l2 : List L2Line := []
  overflow : List OvEntry := []
  farMarks : List FarMark := []
  peerMarks : List PeerMark := []
  /-- The number of the last request that each peer device made on a line: device, line and number (R467). -/
  peerLast : List (Nat × Nat × Nat) := []
  owners : List Owner := []
  uncertain : Cells 32 := []
  formers : List FormerRing := []
  /-- Resources have been freed at this instant that are still to be offered (R350; log entry 104). -/
  freed : Bool := false
  tlb : List TlbEntry := []
  counters : List Counter := []
  stamps : List RelStamp := []
  gives : List Give := []
  rings : List Ring := []
  ringWaits : List RingWait := []
  groups : List CollGroup := []
  spills : List Spill := []
  ctxs : List Ctx := []
  plat : Platform := {}
  /-- Stores made to I/O pages, in order: physical address and bytes (R412). -/
  ioLog : List (Nat × List Byte) := []
  /-- The single total order of `.sc` fences and wide paired accesses so far: a count (R304). -/
  scOrder : Nat := 0
  /-- Names still free. -/
  nextId : Nat := 1
  /-- Free draws made (the model's own). -/
  freeCtr : Nat := 0
  issue : Option Issue := none
  /-- What comes from outside, and in which order the device's own events fall (the model's own). -/
  script : List Scripted := []
  /-- Schedulers (4 × core + scheduler) that have had their turn at this instant when nothing is scripted (the model's own). -/
  cycled : List Nat := []
  deriving DecidableEq, Repr

/-- Why a step stops. Architectural faults are next states (R426); these are not. -/
inductive Fault where
  /-- Raised by the meaning of an instruction when no warp is issuing, a state no step reaches: safe. -/
  | noIssue
  deriving DecidableEq, Repr

/-- Why a step has no meaning. -/
inductive Refusal where
  /-- An instruction not modelled yet, by its mnemonic: safe. -/
  | notModelled (mnemonic : String)
  deriving DecidableEq, Repr

/-- The dies after reset: full clock, no step taken, power register at its reset values (R34, R35, R460). -/
def Die.reset (d : Nat) : Die := { t0 := 250 * d }

/-- The machine right after reset: the wipe is in progress, every memory and register is zero, no work exists
(R481, R482), and the script is empty. -/
def State.reset : State := { dies := (List.range Config.nDies).map Die.reset }

end Sys2Proof.Machine
end

