-- ==== Sys2Proof/Machine/Cells.lean ====
section
/-! DEFINITION. Sparse storage in canonical form, bytes and bit fields: the plain data operations everything else uses. -/

namespace Sys2Proof.Machine

/-- Read a cell; an unlisted key reads as zero. -/
def cget {w : Nat} : Cells w → Nat → BitVec w
  | [], _ => 0
  | (a, v) :: t, k => if k < a then 0 else if k = a then v else cget t k

/-- Write a cell, keeping the form: writing zero removes the entry. -/
def cset {w : Nat} : Cells w → Nat → BitVec w → Cells w
  | [], k, v => if v = 0 then [] else [(k, v)]
  | (a, x) :: t, k, v =>
    if k < a then (if v = 0 then (a, x) :: t else (k, v) :: (a, x) :: t)
    else if k = a then (if v = 0 then t else (k, v) :: t)
    else (a, x) :: cset t k v

/-- The listed cells of consecutive keys from `lo`, zeros left out. -/
def crun {w : Nat} : Nat → List (BitVec w) → Cells w
  | _, [] => []
  | lo, v :: vs => if v = 0 then crun (lo + 1) vs else (lo, v) :: crun (lo + 1) vs

/-- Write consecutive cells from `lo`. -/
def cput {w : Nat} (c : Cells w) (lo : Nat) (vs : List (BitVec w)) : Cells w :=
  c.filter (fun x => x.1 < lo) ++ crun lo vs ++ c.filter (fun x => lo + vs.length ≤ x.1)

/-- Make `n` cells from `lo` read as zero. -/
def cclear {w : Nat} (c : Cells w) (lo n : Nat) : Cells w :=
  c.filter (fun x => x.1 < lo || lo + n ≤ x.1)

/-- `n` consecutive cells from `lo`. -/
def cgets {w : Nat} (c : Cells w) (lo n : Nat) : List (BitVec w) := (List.range n).map fun k => cget c (lo + k)

/-- The canonical form: keys strictly rising from above `lo`, and no zero entry. -/
def cwfFrom {w : Nat} : Nat → Cells w → Bool
  | _, [] => true
  | lo, (a, v) :: t => decide (lo ≤ a) && decide (v ≠ 0) && cwfFrom (a + 1) t

def cwf {w : Nat} (c : Cells w) : Bool := cwfFrom 0 c

/-- Memory is in its canonical form. -/
def Memory.wf (m : Memory) : Bool := cwf (w := 8) m

/-- Little-endian bytes as one number (R8). -/
def natOfBytes : List Byte → Nat
  | [] => 0
  | b :: bs => b.toNat + 256 * natOfBytes bs

/-- The `n` low bytes of a number, little-endian (R8). -/
def bytesOfNat : Nat → Nat → List Byte
  | 0, _ => []
  | n + 1, v => BitVec.ofNat 8 v :: bytesOfNat n (v / 256)

/-- Read `n` bytes. -/
def readBytes (m : Memory) (a n : Nat) : List Byte := cgets (w := 8) m a n

/-- Write bytes one address after another. -/
def writeBytes : Memory → Nat → List Byte → Memory
  | m, _, [] => m
  | m, a, b :: bs => writeBytes (cset (w := 8) m a b) (a + 1) bs

/-- Write the bytes whose mask bit is set (R384). -/
def writeMasked (m : Memory) (a : Nat) (mask : BitVec 64) (data : BitVec 512) : Memory :=
  (List.range 64).foldl
    (fun m k => if mask.getLsbD k then cset (w := 8) m (a + k) (data.extractLsb' (8 * k) 8) else m) m

/-- A number read from memory, little-endian. -/
def readNat (m : Memory) (a n : Nat) : Nat := natOfBytes (readBytes m a n)

/-- Write the low `n` bytes of a number. -/
def writeNat (m : Memory) (a n v : Nat) : Memory := writeBytes m a (bytesOfNat n v)

/-- Bits `lo` to `lo + len - 1` of a number. -/
def fieldOf (v lo len : Nat) : Nat := v / 2 ^ lo % 2 ^ len

/-- A field placed in a number. -/
def putField (lo len v : Nat) : Nat := v % 2 ^ len * 2 ^ lo

/-- Sixty-four bytes as a line. -/
def lineOfBytes (bs : List Byte) : BitVec 512 := BitVec.ofNat 512 (natOfBytes bs)

/-- Byte k of a line. -/
def lineByte (d : BitVec 512) (k : Nat) : Byte := d.extractLsb' (8 * k) 8

/-- Replace byte k of a line. -/
def setLineByte (d : BitVec 512) (k : Nat) (b : Byte) : BitVec 512 :=
  (d &&& ~~~((0xFF#512) <<< (8 * k))) ||| (b.setWidth 512 <<< (8 * k))

/-- Take bytes of `d` where the mask is set, of `o` elsewhere. -/
def mergeLine (mask : BitVec 64) (d o : BitVec 512) : BitVec 512 :=
  (List.range 64).foldl (fun r k => if mask.getLsbD k then setLineByte r k (lineByte d k) else r) o

/-- Set bit k. -/
def setBit {w : Nat} (v : BitVec w) (k : Nat) (b : Bool) : BitVec w :=
  if b then v ||| ((1 : BitVec w) <<< k) else v &&& ~~~((1 : BitVec w) <<< k)

/-- Number of one bits. -/
def popCount {w : Nat} (v : BitVec w) : Nat := ((List.range w).filter fun k => v.getLsbD k).length

/-- The lanes of a mask, ascending. -/
def lanesOf (m : LaneMask) : List Nat := lanes.filter fun l => m.getLsbD l

/-- The mask of a list of lanes. -/
def maskOf (ls : List Nat) : LaneMask := ls.foldl (fun m l => setBit m l true) 0

/-- XOR of all bits (R55). -/
def parity {w : Nat} (v : BitVec w) : Bool := popCount v % 2 == 1

/-- Replace the element of a list that satisfies `p`. -/
def replaceIf {α : Type} (p : α → Bool) (f : α → α) (l : List α) : List α := l.map fun x => if p x then f x else x

/-- Round up to a multiple of `m`. -/
def roundUp (n m : Nat) : Nat := (n + m - 1) / m * m

def ceilDiv (n m : Nat) : Nat := (n + m - 1) / m

/-- Division rounding to nearest, ties to even (R34). -/
def roundDivEven (n d : Nat) : Nat :=
  let q := n / d
  let r := n % d
  if 2 * r < d then q else if 2 * r > d then q + 1 else if q % 2 = 0 then q else q + 1

/-- Insert or update the entry with key `k` of an association list. -/
def assocSet {α : Type} (l : List (Nat × α)) (k : Nat) (v : α) : List (Nat × α) :=
  match l with
  | [] => [(k, v)]
  | (a, x) :: t => if k < a then (k, v) :: (a, x) :: t else if k = a then (k, v) :: t else (a, x) :: assocSet t k v

def assocGet {α : Type} (l : List (Nat × α)) (k : Nat) : Option α := (l.find? fun x => x.1 == k).map Prod.snd

def assocDel {α : Type} (l : List (Nat × α)) (k : Nat) : List (Nat × α) := l.filter fun x => x.1 != k

/-- Insert into a list kept in order of a key. -/
def insertBy {α : Type} (lt : α → α → Bool) (x : α) : List α → List α
  | [] => [x]
  | y :: ys => if lt y x then y :: insertBy lt x ys else x :: y :: ys

/-- Sort by insertion; equal elements keep their order. -/
def sortBy {α : Type} (lt : α → α → Bool) (l : List α) : List α := l.foldr (fun x acc => insertBy lt x acc) []

/-- The first element that no other is below. -/
def bestBy {α : Type} (lt : α → α → Bool) : List α → Option α
  | [] => none
  | x :: xs =>
    match bestBy lt xs with
    | none => some x
    | some y => if lt y x then some y else some x

end Sys2Proof.Machine
end

