-- ==== Sys2Proof/Machine/Access.lean ====
section
/-! DEFINITION. Named reads and writes of the state: warps, blocks, grids, cores, contexts, dies, registers, time.
Everything else goes through these. -/

namespace Sys2Proof.Machine

/-- The outcome of a step. -/
abbrev Out := Host.Outcome State Fault Refusal

/-! ### Finding and replacing -/

def State.warp? (s : State) (uid wid : Nat) : Option Warp := s.warps.find? fun w => w.uid == uid && w.wid == wid

def State.setWarp (s : State) (w : Warp) : State :=
  { s with warps := replaceIf (fun x => x.uid == w.uid && x.wid == w.wid) (fun _ => w) s.warps }

def State.modWarp (s : State) (uid wid : Nat) (f : Warp → Warp) : State :=
  { s with warps := replaceIf (fun x => x.uid == uid && x.wid == wid) f s.warps }

def State.block? (s : State) (uid : Nat) : Option Block := s.blocks.find? fun b => b.uid == uid

def State.modBlock (s : State) (uid : Nat) (f : Block → Block) : State :=
  { s with blocks := replaceIf (fun x => x.uid == uid) f s.blocks }

def State.setBlock (s : State) (b : Block) : State := s.modBlock b.uid fun _ => b

def State.grid? (s : State) (gid : Nat) : Option Grid := s.grids.find? fun g => g.gid == gid

def State.modGrid (s : State) (gid : Nat) (f : Grid → Grid) : State :=
  { s with grids := replaceIf (fun x => x.gid == gid) f s.grids }

def State.task? (s : State) (q i : Nat) : Option Task := s.tasks.find? fun t => t.queue == q && t.index == i

def State.modTask (s : State) (q i : Nat) (f : Task → Task) : State :=
  { s with tasks := replaceIf (fun t => t.queue == q && t.index == i) f s.tasks }

def State.engine? (s : State) (id : Nat) : Option Engine := s.engines.find? fun e => e.id == id

def State.modEngine (s : State) (id : Nat) (f : Engine → Engine) : State :=
  { s with engines := replaceIf (fun x => x.id == id) f s.engines }

/-- Change every engine command that satisfies a test. -/
def State.modEngines (s : State) (p : Engine → Bool) (f : Engine → Engine) : State :=
  { s with engines := replaceIf p f s.engines }

/-- Change every core. -/
def State.modCores (s : State) (f : Core → Core) : State := { s with cores := s.cores.map f }

def State.owed? (s : State) (id : Nat) : Option Owed := s.owed.find? fun o => o.id == id

def State.modOwed (s : State) (id : Nat) (f : Owed → Owed) : State :=
  { s with owed := replaceIf (fun x => x.id == id) f s.owed }

def State.dropOwed (s : State) (id : Nat) : State := { s with owed := s.owed.filter fun o => o.id != id }

def State.msg? (s : State) (id : Nat) : Option Msg := s.msgs.find? fun m => m.id == id

def State.dropMsg (s : State) (id : Nat) : State := { s with msgs := s.msgs.filter fun m => m.id != id }

/-- Send a message now; its number orders it behind every earlier one (R454). -/
def State.send (s : State) (k : MsgKind) : State :=
  { s with msgs := s.msgs ++ [{ id := s.nextId, sent := s.time, kind := k }], nextId := s.nextId + 1 }

/-- The context as the device holds it; one never created reads as all zero (R423). -/
def State.ctx (s : State) (id : Nat) : Ctx := (s.ctxs.find? fun c => c.id == id).getD { id := id }

def State.setCtx (s : State) (c : Ctx) : State :=
  if s.ctxs.any fun x => x.id == c.id then
    { s with ctxs := replaceIf (fun x => x.id == c.id) (fun _ => c) s.ctxs }
  else { s with ctxs := s.ctxs ++ [c] }

def State.modCtx (s : State) (id : Nat) (f : Ctx → Ctx) : State := s.setCtx (f (s.ctx id))

/-- A core; one that nothing has touched is as after reset. -/
def State.core (s : State) (id : Nat) : Core := (s.cores.find? fun c => c.id == id).getD { id := id }

def State.setCore (s : State) (c : Core) : State :=
  if s.cores.any fun x => x.id == c.id then
    { s with cores := replaceIf (fun x => x.id == c.id) (fun _ => c) s.cores }
  else { s with cores := s.cores ++ [c] }

def State.modCore (s : State) (id : Nat) (f : Core → Core) : State := s.setCore (f (s.core id))

def Core.sched (c : Core) (n : Nat) : Scheduler := c.scheds.getD n {}

def Core.setSched (c : Core) (n : Nat) (x : Scheduler) : Core :=
  { c with scheds := (List.range 4).map fun k => if k = n then x else c.sched k }

def State.die (s : State) (d : Nat) : Die := s.dies.getD d {}

def State.setDie (s : State) (d : Nat) (x : Die) : State := { s with dies := s.dies.set d x }

def State.modDie (s : State) (d : Nat) (f : Die → Die) : State := s.setDie d (f (s.die d))

/-- Is a grid live (R46, R321): from the placement of its first block until it retires (log entry 29)? -/
def Grid.live (g : Grid) : Bool := g.st == .accepted && g.nextBid != 0

/-! ### Places (R3, R17, R31) -/

def coreDie (core : Nat) : Nat := core / 200
/-- `%core`. -/
def coreInDie (core : Nat) : Nat := core % 200
/-- Cluster over the device. -/
def coreCluster (core : Nat) : Nat := core / 8
/-- Position in the cluster. -/
def corePos (core : Nat) : Nat := core % 8
def clusterDie (cl : Nat) : Nat := cl / 25
/-- `%cluster`. -/
def clusterInDie (cl : Nat) : Nat := cl % 25

/-- Live-warp slot number (R17): die 16:15, core 14:7, warp slot 6:0. -/
def liveSlot (core slot : Nat) : Nat := coreDie core * 32768 + coreInDie core * 128 + slot

def Warp.lslot (w : Warp) : Nat := liveSlot w.core w.slot

def slotCore (ls : Nat) : Nat := ls / 32768 * 200 + ls / 128 % 256
def slotWarp (ls : Nat) : Nat := ls % 128

/-- The resident, unreleased warp in a live-warp slot. -/
def State.warpAt (s : State) (ls : Nat) : Option Warp :=
  s.warps.find? fun w => w.resident && !w.released && w.lslot == ls

/-- Is a context privileged (R423)? -/
def State.privileged (s : State) (ctx : Nat) : Bool := (s.ctx ctx).priv

/-! ### Time -/

def State.dtime (s : State) : BitVec 64 := BitVec.ofNat 64 s.time

/-- Scaled-cycle increment (R34), in units of 2^-8. -/
def scycStep (fMHz : Nat) : Nat := roundDivEven 1024000 fMHz

/-- Opening time of the next window of bank group `g` of a die strictly after `t` (R284). -/
def windowAfter (t0 g t : Nat) : Nat :=
  let o := (t0 + 1000 * g) % 64000
  if t < o then o else o + ((t - o) / 64000 + 1) * 64000

/-- Time since the latest opening of the group at or before `t` (R284): the windows open for every integer m. -/
def windowPhase (t0 g t : Nat) : Nat := (t + 64000 - (t0 + 1000 * g) % 64000) % 64000

/-- Is a window of the group open at `t` (R284): 250 ns from its opening? -/
def windowOpenAt (t0 g t : Nat) : Bool := windowPhase t0 g t < 250

/-- `%wsnext` (R31): the earliest opening of any group of the die strictly after `t`. -/
def wsNext (t0 t : Nat) : Nat :=
  ((List.range 64).map fun g => windowAfter t0 g t).foldl Nat.min (windowAfter t0 0 t)

/-! ### Registers -/

def Warp.vget (w : Warp) (r l : Nat) : Word := cget w.vregs (32 * r + l)
def Warp.vset (w : Warp) (r l : Nat) (v : Word) : Warp := { w with vregs := cset w.vregs (32 * r + l) v }
def Warp.sget (w : Warp) (r : Nat) : Word := cget w.sregs r
def Warp.sset (w : Warp) (r : Nat) (v : Word) : Warp := { w with sregs := cset w.sregs r v }

/-- Lane bits of a predicate; p7 reads as 1 in every lane (R25). -/
def Warp.pget (w : Warp) (p : Nat) : LaneMask := if p = 7 then BitVec.allOnes 32 else cget w.preds p

/-- Write a predicate's lane bits; writes to p7 are discarded (R25). -/
def Warp.pset (w : Warp) (p : Nat) (v : LaneMask) : Warp :=
  if p = 7 then w else { w with preds := cset w.preds p v }

/-- Write one register element. -/
def Warp.put (w : Warp) (x : RegSlot) (v : Word) : Warp :=
  match x with
  | .vec r l => w.vset r l v
  | .vecB r l k =>
    w.vset r l ((w.vget r l &&& ~~~((0xFF#32) <<< (8 * k))) ||| ((v &&& 0xFF) <<< (8 * k)))
  | .uni r => w.sset r v
  | .pred p l => w.pset p (setBit (w.pget p) l (v.getLsbD 0))

def Warp.puts (w : Warp) (ws : List (RegSlot × Word)) : Warp := ws.foldl (fun w x => w.put x.1 x.2) w

/-- A 64-bit value in a pair (R24). -/
def Warp.vget64 (w : Warp) (r l : Nat) : DWord := w.vget (r + 1) l ++ w.vget r l
def Warp.sget64 (w : Warp) (r : Nat) : DWord := w.sget (r + 1) ++ w.sget r

def Warp.thread (w : Warp) (l : Nat) : Thread := w.threads.getD l { st := .exited }

def Warp.modThread (w : Warp) (l : Nat) (f : Thread → Thread) : Warp :=
  { w with threads := w.threads.set l (f (w.thread l)) }

/-- Apply a change to the threads of a mask. -/
def Warp.modThreads (w : Warp) (m : LaneMask) (f : Nat → Thread → Thread) : Warp :=
  { w with threads := w.threads.mapIdx fun l t => if m.getLsbD l then f l t else t }

/-- The lanes whose threads satisfy a test. -/
def Warp.lanesWhere (w : Warp) (p : Thread → Bool) : LaneMask :=
  maskOf (lanes.filter fun l => p (w.thread l))

def Warp.allExited (w : Warp) : Bool := w.threads.all fun t => t.st == .exited

def Block.tag (b : Block) (q : Nat) : StreamTag := (assocGet b.tags q).getD {}
def Block.cv (b : Block) (n : Nat) : ConvReg := (assocGet b.cvs n).getD {}

/-- The context of a warp. -/
def State.warpCtx (s : State) (w : Warp) : Nat := ((s.block? w.uid).map Block.ctx).getD 0

/-- Warps of a block. -/
def State.warpsOf (s : State) (uid : Nat) : List Warp := s.warps.filter fun w => w.uid == uid

def Block.nwarps (b : Block) : Nat := ceilDiv b.ntid 32

/-- `%tid` (R15). -/
def tidOf (wid lane : Nat) : Nat := 32 * wid + lane

/-! ### Free draws -/

/-- A free choice among `n` (log entry 3), and the state after the draw. -/
def State.draw (s : State) (what n : Nat) : Nat × State :=
  (Config.free s.freeCtr what % n, { s with freeCtr := s.freeCtr + 1 })

/-- Free bytes (log entry 3). -/
def State.drawBytes (s : State) (n : Nat) : List Byte × State :=
  ((List.range n).map (Config.freeByte s.freeCtr), { s with freeCtr := s.freeCtr + 1 })

/-- Something has happened: of a warp that could not issue, it is in doubt whether it can now (R355). -/
def State.unstall (s : State) : State :=
  { s with warps := s.warps.map fun w => { w with stall := false, doubt := w.stall || w.doubt } }

/-- Is a vector masked in the MSI-X table of a function (R474)? -/
def Platform.masked (p : Platform) (fn v : Nat) : Bool := !(cget p.msix (8192 * fn + 4 * v + 3)).getLsbD 0

/-- Raise an interrupt (R476), as a vector of the function that owns the context concerned: sent, or pending while it is masked. -/
def State.interrupt (s : State) (v : Nat) (ctx : Option Nat) : State :=
  let fn := (ctx.map fun c => (s.ctx c).fn).getD 0
  let i : Interrupt := { vector := v, ctx := ctx, fn := fn }
  if s.plat.masked fn v then
    if s.plat.msixPending.any fun x => x.vector == v && x.fn == fn then s
    else { s with plat := { s.plat with msixPending := s.plat.msixPending ++ [i] } }
  else { s with plat := { s.plat with interrupts := s.plat.interrupts ++ [i] } }

end Sys2Proof.Machine
end

