-- ==== Sys2Proof/Machine/Float.lean ====
section
/-! DEFINITION. Number formats and exact arithmetic (03_number_formats.md): a finite value is a sign, a natural
significand and a power of two; every operation is formed exactly and rounded once, with its flags. -/

namespace Sys2Proof.Machine

/-- Flags of one operation, as bits 4:0 of `%fflags`: nv, dz, of, uf, nx (R37). -/
abbrev Flags := BitVec 5

def flagNv : Flags := 0x10
def flagDz : Flags := 0x08
def flagOf : Flags := 0x04
def flagUf : Flags := 0x02
def flagNx : Flags := 0x01

/-- A floating-point format (R93). -/
structure Fmt where
  bits : Nat
  ebits : Nat
  mbits : Nat
  bias : Nat
  deriving DecidableEq, Repr

def fmt64 : Fmt := ⟨64, 11, 52, 1023⟩
def fmt32 : Fmt := ⟨32, 8, 23, 127⟩
def fmt16 : Fmt := ⟨16, 5, 10, 15⟩
def fmtB16 : Fmt := ⟨16, 8, 7, 127⟩

/-- Rounding modes (R96). -/
inductive Mode where
  | ne | rz | rp | rm
  deriving DecidableEq, Repr

def Mode.ofSub (n : Nat) : Mode := if n = 1 then .rz else if n = 2 then .rp else if n = 3 then .rm else .ne

/-- A value: NaN (signalling or not), infinity, or a signed significand times a power of two; zero has significand 0. -/
inductive FVal where
  | nan (sig : Bool)
  | inf (neg : Bool)
  | num (neg : Bool) (m : Nat) (e : Int)
  deriving DecidableEq, Repr

/-- Number of binary digits. -/
def bitLen : Nat → Nat
  | 0 => 0
  | n + 1 => Nat.log2 (n + 1) + 1

def Fmt.expMax (F : Fmt) : Nat := 2 ^ F.ebits - 1
/-- Exponent of the unit of the subnormal grid. -/
def Fmt.qMin (F : Fmt) : Int := 1 - (F.bias : Int) - F.mbits
/-- The canonical NaN (R93). -/
def Fmt.canonNan (F : Fmt) : Nat := F.expMax * 2 ^ F.mbits + 2 ^ (F.mbits - 1)
def Fmt.signBit (F : Fmt) (neg : Bool) : Nat := if neg then 2 ^ (F.bits - 1) else 0
def Fmt.infBits (F : Fmt) (neg : Bool) : Nat := F.signBit neg + F.expMax * 2 ^ F.mbits
def Fmt.maxBits (F : Fmt) (neg : Bool) : Nat := F.signBit neg + F.expMax * 2 ^ F.mbits - 1

/-- The value of a bit pattern (R93). -/
def Fmt.dec (F : Fmt) (x : Nat) : FVal :=
  let neg := x / 2 ^ (F.bits - 1) % 2 == 1
  let ex := x / 2 ^ F.mbits % 2 ^ F.ebits
  let fr := x % 2 ^ F.mbits
  if ex = F.expMax then
    if fr = 0 then .inf neg else .nan (fr / 2 ^ (F.mbits - 1) = 0)
  else if ex = 0 then .num neg fr F.qMin
  else .num neg (2 ^ F.mbits + fr) (F.qMin + ex - 1)

/-- Is the discarded part of a rounding to be rounded up: part `r` of a unit of 2·`half`, more beyond it if `sticky`? -/
def roundUpBy (mode : Mode) (neg odd : Bool) (r half : Nat) (sticky : Bool) : Bool :=
  match mode with
  | .ne => decide (r > half) || (r == half && (sticky || odd))
  | .rz => false
  | .rp => !neg && (r != 0 || sticky)
  | .rm => neg && (r != 0 || sticky)

/-- Round `m × 2^e` (and a little more, if `sticky`) to a multiple of 2^q: the multiple, and whether it is inexact. -/
def roundAt (mode : Mode) (neg : Bool) (m : Nat) (e : Int) (sticky : Bool) (q : Int) : Nat × Bool :=
  if q ≤ e then (m * 2 ^ (e - q).toNat, sticky)
  else
    let s := (q - e).toNat
    let n := m / 2 ^ s
    let r := m % 2 ^ s
    let up := roundUpBy mode neg (n % 2 == 1) r (2 ^ (s - 1)) sticky
    (if up then n + 1 else n, r != 0 || sticky)

/-- `round(x, F, mode)` of a nonzero real (R97, R98), with its flags (R101). -/
def Fmt.roundNum (F : Fmt) (mode : Mode) (neg : Bool) (m : Nat) (e : Int) (sticky : Bool := false) : Nat × Flags :=
  let top : Int := e + bitLen m - 1
  let q := top - F.mbits
  let (n, inex) := roundAt mode neg m e sticky q
  let yTop : Int := q + bitLen n - 1
  if yTop > F.bias then
    let big :=
      match mode with
      | .ne => F.infBits neg
      | .rz => F.maxBits neg
      | .rp => if neg then F.maxBits neg else F.infBits neg
      | .rm => if neg then F.infBits neg else F.maxBits neg
    (big, flagOf ||| flagNx)
  else if q < F.qMin then
    let (k, inexS) := roundAt mode neg m e sticky F.qMin
    let tiny := yTop < F.qMin + F.mbits
    (F.signBit neg + k, (if inexS then flagNx else 0) ||| (if tiny && inexS then flagUf else 0))
  else
    let ex := (q - F.qMin).toNat
    (F.signBit neg + (ex * 2 ^ F.mbits + n), if inex then flagNx else 0)

/-- Round an exact value; zero keeps its sign. -/
def Fmt.round (F : Fmt) (mode : Mode) (v : FVal) : Nat × Flags :=
  match v with
  | .nan sig => (F.canonNan, if sig then flagNv else 0)
  | .inf neg => (F.infBits neg, 0)
  | .num neg m e => if m = 0 then (F.signBit neg, 0) else F.roundNum mode neg m e

def FVal.isSig : FVal → Bool
  | .nan s => s
  | _ => false

def FVal.isNan : FVal → Bool
  | .nan _ => true
  | _ => false

def FVal.negate : FVal → FVal
  | .nan s => .nan s
  | .inf n => .inf (!n)
  | .num n m e => .num (!n) m e

/-- The signed integer `m × 2^e` as a multiple of 2^q, for q ≤ e. -/
def scaled (neg : Bool) (m : Nat) (e q : Int) : Int :=
  let v : Int := m * 2 ^ (e - q).toNat
  if neg then -v else v

/-- The exact sum of two finite values; an exact zero takes its sign from R99. -/
def exactAdd (mode : Mode) (n1 : Bool) (m1 : Nat) (e1 : Int) (n2 : Bool) (m2 : Nat) (e2 : Int) : FVal :=
  let q := min e1 e2
  let s := scaled n1 m1 e1 q + scaled n2 m2 e2 q
  if s = 0 then
    if m1 = 0 ∧ m2 = 0 ∧ n1 = n2 then .num n1 0 0 else .num (mode == .rm) 0 0
  else .num (decide (s < 0)) s.natAbs q

/-- An invalid operation's result (R101). -/
def invalid (F : Fmt) : Nat × Flags := (F.canonNan, flagNv)

/-- NaN among the operands: canonical NaN, nv for a signalling one (R100, R101). -/
def nanOut (F : Fmt) (vs : List FVal) : Nat × Flags := (F.canonNan, if vs.any FVal.isSig then flagNv else 0)

/-- Sum of two values, rounded (R97 to R101). -/
def Fmt.addV (F : Fmt) (mode : Mode) (a b : FVal) : Nat × Flags :=
  match a, b with
  | .nan _, _ => nanOut F [a, b]
  | _, .nan _ => nanOut F [a, b]
  | .inf x, .inf y => if x = y then (F.infBits x, 0) else invalid F
  | .inf x, _ => (F.infBits x, 0)
  | _, .inf y => (F.infBits y, 0)
  | .num n1 m1 e1, .num n2 m2 e2 => F.round mode (exactAdd mode n1 m1 e1 n2 m2 e2)

/-- The exact product, or infinity; none: an invalid 0 × ∞. -/
def exactMul (a b : FVal) : Option FVal :=
  match a, b with
  | .nan s, _ => some (.nan s)
  | _, .nan s => some (.nan s)
  | .inf x, .inf y => some (.inf (x != y))
  | .inf x, .num n m _ => if m = 0 then none else some (.inf (x != n))
  | .num n m _, .inf y => if m = 0 then none else some (.inf (n != y))
  | .num n1 m1 e1, .num n2 m2 e2 => some (.num (n1 != n2) (m1 * m2) (e1 + e2))

def Fmt.mulV (F : Fmt) (mode : Mode) (a b : FVal) : Nat × Flags :=
  if a.isNan || b.isNan then nanOut F [a, b]
  else
    match exactMul a b with
    | none => invalid F
    | some p => F.round mode p

/-- a × b + c with one rounding. -/
def Fmt.fmaV (F : Fmt) (mode : Mode) (a b c : FVal) : Nat × Flags :=
  match exactMul a b with
  | none => (F.canonNan, flagNv)
  | some p =>
    if a.isNan || b.isNan || c.isNan then nanOut F [a, b, c]
    else F.addV mode p c

/-- Quotient of two finite values, divisor nonzero, rounded. -/
def Fmt.divNum (F : Fmt) (mode : Mode) (n1 : Bool) (m1 : Nat) (e1 : Int) (n2 : Bool) (m2 : Nat) (e2 : Int) :
    Nat × Flags :=
  if m1 = 0 then (F.signBit (n1 != n2), 0)
  else
    let k := bitLen m2 + F.mbits + 4
    let q := m1 * 2 ^ k / m2
    F.roundNum mode (n1 != n2) q (e1 - e2 - k) (m1 * 2 ^ k % m2 != 0)

/-- One step of the binary square root: from the candidate `r`, try to set bit `b`. -/
def sqrtBits (n : Nat) : Nat → Nat → Nat
  | 0, r => r
  | b + 1, r =>
    let t := r + 2 ^ b
    sqrtBits n b (if t * t ≤ n then t else r)

/-- Integer square root. -/
def isqrt (n : Nat) : Nat := sqrtBits n (bitLen n / 2 + 1) 0

/-- Reciprocal (R165): ±0 gives ±∞ with dz. -/
def Fmt.rcpV (F : Fmt) (a : FVal) : Nat × Flags :=
  match a with
  | .nan _ => nanOut F [a]
  | .inf n => (F.signBit n, 0)
  | .num n m e => if m = 0 then (F.infBits n, flagDz) else F.divNum .ne false 1 0 n m e

/-- Square root (R165). -/
def Fmt.sqrtV (F : Fmt) (a : FVal) : Nat × Flags :=
  match a with
  | .nan _ => nanOut F [a]
  | .inf n => if n then invalid F else (F.infBits false, 0)
  | .num n m e =>
    if m = 0 then (F.signBit n, 0)
    else if n then invalid F
    else
      let k := 2 * (F.mbits + 4) + (if e % 2 = 0 then 0 else 1)
      let a := m * 2 ^ k
      let r := isqrt a
      F.roundNum .ne false r ((e - k) / 2) (r * r != a)

/-- Reciprocal square root (R165): ±0 gives ±∞ with dz. -/
def Fmt.rsqV (F : Fmt) (a : FVal) : Nat × Flags :=
  match a with
  | .nan _ => nanOut F [a]
  | .inf n => if n then invalid F else (F.signBit false, 0)
  | .num n m e =>
    if m = 0 then (F.infBits n, flagDz)
    else if n then invalid F
    else
      let odd : Nat := if e % 2 = 0 then 0 else 1
      let m := m * 2 ^ odd
      let k := bitLen m + F.mbits + 8
      let a := 2 ^ (2 * k)
      let r := isqrt (a / m)
      F.roundNum .ne false r (-(k : Int) - (e - odd) / 2) (r * r * m != a)

/-- Fixed point with `Config.transBits` digits after the point. -/
def one : Nat := 2 ^ Config.transBits

/-- 2 to the fraction whose `n` binary digits are `f`, each digit weighing a further square root of 2. -/
def exp2Digits : Nat → Nat → Nat → Nat → Nat
  | 0, _, _, acc => acc
  | n + 1, f, root, acc =>
    let acc := if f / 2 ^ n % 2 = 1 then acc * root / one else acc
    exp2Digits n f (isqrt (root * one)) acc

/-- Power of two (R165). -/
def Fmt.exp2V (F : Fmt) (a : FVal) : Nat × Flags :=
  match a with
  | .nan _ => nanOut F [a]
  | .inf n => if n then (0, 0) else (F.infBits false, 0)
  | .num n m e =>
    if m = 0 then F.round .ne (.num false 1 0)
    else if e + bitLen m > 12 then
      -- |x| ≥ 2^12: beyond every format that the instruction takes
      if n then F.roundNum .ne false 1 (-100000) else F.roundNum .ne false 1 100000
    else
      let d := (-e).toNat
      let v : Int := if n then -((m * 2 ^ e.toNat : Nat) : Int) else ((m * 2 ^ e.toNat : Nat) : Int)
      let whole := v / 2 ^ d
      let frac := (v % 2 ^ d).toNat
      if frac = 0 then F.roundNum .ne false 1 whole
      else F.roundNum .ne false (exp2Digits d frac (isqrt (2 * one * one)) one) (whole - Config.transBits) true

/-- The first `n` binary digits of log2 of a fixed-point number in [1, 2). -/
def log2Digits : Nat → Nat → Nat → Nat
  | 0, _, acc => acc
  | n + 1, x, acc =>
    let y := x * x / one
    if y ≥ 2 * one then log2Digits n (y / 2) (2 * acc + 1) else log2Digits n y (2 * acc)

/-- Base-2 logarithm (R165): ±0 gives −∞ with dz. -/
def Fmt.log2V (F : Fmt) (a : FVal) : Nat × Flags :=
  match a with
  | .nan _ => nanOut F [a]
  | .inf n => if n then invalid F else (F.infBits false, 0)
  | .num n m e =>
    if m = 0 then (F.infBits true, flagDz)
    else if n then invalid F
    else
      let top : Int := e + bitLen m - 1
      let x := m * one / 2 ^ (bitLen m - 1)
      if m = 2 ^ (bitLen m - 1) then
        F.round .ne (.num (decide (top < 0)) top.natAbs 0)
      else
        let d := 120
        let l : Int := top * 2 ^ d + log2Digits d x 0
        -- the exact value lies strictly between l and l + 1 units
        if l ≥ 0 then F.roundNum .ne false l.natAbs (-(d : Int)) true
        else F.roundNum .ne true (-(l + 1)).natAbs (-(d : Int)) true

/-- Ordering of finite values and infinities: −1, 0 or 1. -/
def fcompare (a b : FVal) : Int :=
  let key : FVal → FVal → Int := fun x y =>
    match x, y with
    | .num n m e, .num n' m' e' =>
      let q := min e e'
      (scaled n m e q - scaled n' m' e' q).sign
    | .inf n, .inf n' => if n = n' then 0 else if n then -1 else 1
    | .inf n, _ => if n then -1 else 1
    | _, .inf n => if n then 1 else -1
    | _, _ => 0
  key a b

/-- `fmin` and `fmax` of two patterns (R161): a number beats a NaN, −0 is below +0. -/
def Fmt.minmax (F : Fmt) (wantMax : Bool) (x y : Nat) : Nat × Flags :=
  let a := F.dec x
  let b := F.dec y
  let fl : Flags := if a.isSig || b.isSig then flagNv else 0
  if a.isNan && b.isNan then (F.canonNan, fl)
  else if a.isNan then (y, fl)
  else if b.isNan then (x, fl)
  else
    let c := fcompare a b
    let negX := x / 2 ^ (F.bits - 1) % 2 == 1
    let below := c < 0 || (c == 0 && negX)
    (if below == wantMax then y else x, fl)

/-- Round to an integral value (R164): the integer, and whether it is inexact. -/
def roundInt (mode : Mode) (neg : Bool) (m : Nat) (e : Int) : Nat × Bool := roundAt mode neg m e false 0

/-- `to_int(x, T, mode)` (R103) for the range [lo, hi]. -/
def toInt (mode : Mode) (lo hi : Int) (v : FVal) : Int × Flags :=
  match v with
  | .nan _ => (0, flagNv)
  | .inf n => (if n then lo else hi, flagNv)
  | .num n m e =>
    let (k, inex) := roundInt mode n m e
    let y : Int := if n then -(k : Int) else k
    if y < lo then (lo, flagNv) else if y > hi then (hi, flagNv) else (y, if inex then flagNx else 0)

/-- An integer as an exact value. -/
def FVal.ofInt (x : Int) : FVal := .num (decide (x < 0)) x.natAbs 0

/-! ### Patterns of one format -/

def Fmt.add (F : Fmt) (mode : Mode) (x y : Nat) : Nat × Flags := F.addV mode (F.dec x) (F.dec y)
def Fmt.sub (F : Fmt) (mode : Mode) (x y : Nat) : Nat × Flags := F.addV mode (F.dec x) (F.dec y).negate
def Fmt.mul (F : Fmt) (mode : Mode) (x y : Nat) : Nat × Flags := F.mulV mode (F.dec x) (F.dec y)
def Fmt.fma (F : Fmt) (mode : Mode) (x y z : Nat) : Nat × Flags := F.fmaV mode (F.dec x) (F.dec y) (F.dec z)

/-- Flip the sign bit. -/
def Fmt.flip (F : Fmt) (x : Nat) : Nat :=
  if x / 2 ^ (F.bits - 1) % 2 = 1 then x - 2 ^ (F.bits - 1) else x + 2 ^ (F.bits - 1)

/-- round_ne of the sum, without flags (R118, R196, R226). -/
def addNe (F : Fmt) (x y : Nat) : Nat := (F.add .ne x y).1
def mulNe (F : Fmt) (x y : Nat) : Nat := (F.mul .ne x y).1

/-- Widen a pattern exactly (R104, R71). -/
def widen (F G : Fmt) (x : Nat) : Nat := (G.round .ne (F.dec x)).1

/-! ### Narrow integers, scales, residues (R105 to R114) -/

/-- rn8 code as an integer (R105). -/
def rn8 (x : Nat) : Int := if x ≥ 128 then (x : Int) - 256 else x
def rn4 (x : Nat) : Int := if x ≥ 8 then (x : Int) - 16 else x

/-- `s8_value(c)` (R108): significand and exponent of the scale; significand 0 for code 0. -/
def s8 (c : Nat) : Nat × Int := if c = 0 then (0, 0) else (8 + c % 8, (c / 8 : Nat) - 16 - 3)

def rtPack (c256 c255 c257 : Nat) : Word := BitVec.ofNat 32 (c256 + c255 * 256 + c257 * 65536)
def rt256 (t : Word) : Nat := t.toNat % 256
/-- Channels read modulo their moduli (R111). -/
def rt255 (t : Word) : Nat := t.toNat / 256 % 256 % 255
def rt257 (t : Word) : Nat := t.toNat / 65536 % 512 % 257

/-- `crt_fwd(x)` (R112). -/
def crtFwd (x : Int) : Word := rtPack (x % 256).toNat (x % 255).toNat (x % 257).toNat

/-- `crt_rev(t)` (R113). -/
def crtRev (t : Word) : Int :=
  let a1 : Int := rt256 t
  let a2 : Int := ((rt255 t : Int) - a1) % 255
  let a3 : Int := (((rt257 t : Int) - a1 + a2) * 129) % 257
  let u := a1 + 256 * a2 + 65280 * a3
  if u ≥ 8388480 then u - 16776960 else u

/-- Channel by channel (R114). -/
def rtMap (f : Nat → Nat → Nat → Nat) (x y : Word) : Word :=
  rtPack (f 256 (rt256 x) (rt256 y) % 256) (f 255 (rt255 x) (rt255 y) % 255) (f 257 (rt257 x) (rt257 y) % 257)

/-! ### Hashes and the Hadamard transform (R122 to R127) -/

def mix64 (z : BitVec 64) : BitVec 64 :=
  let z := (z ^^^ (z >>> 30)) * 0xBF58476D1CE4E5B9
  let z := (z ^^^ (z >>> 27)) * 0x94D049BB133111EB
  z ^^^ (z >>> 31)

def hsign (seed b : BitVec 64) : BitVec 64 := mix64 (seed + (b + 1) * 0x9E3779B97F4A7C15)

/-- Negate element i where bit i of the sign word is set. -/
def signFlip (z : BitVec 64) (xs : List Nat) : List Nat := xs.mapIdx fun i x => if z.getLsbD i then fmt32.flip x else x

/-- One stage of `hadamard64` (R124), with the flags of its roundings. -/
def hadStage (d : Nat) (xs : List Nat) : List (Nat × Flags) :=
  xs.mapIdx fun i x =>
    if i / d % 2 = 0 then fmt32.add .ne x (xs.getD (i + d) 0) else fmt32.sub .ne (xs.getD (i - d) 0) x

/-- Run stages from distance `d`, `n` of them, collecting flags. -/
def hadRun : Nat → Nat → List Nat × Flags → List Nat × Flags
  | 0, _, x => x
  | n + 1, d, (xs, fl) =>
    let ys := hadStage d xs
    hadRun n (2 * d) (ys.map Prod.fst, ys.foldl (fun a y => a ||| y.2) fl)

def hadamard64 (xs : List Nat) : List Nat × Flags := hadRun 6 1 (xs, 0)

/-- Division by 8 of a pattern, rounded (R125, R127). -/
def eighth (x : Nat) : Nat × Flags :=
  match fmt32.dec x with
  | .num n m e => fmt32.round .ne (.num n m (e - 3))
  | v => fmt32.round .ne v

def eighths (xs : List Nat) (fl : Flags) : List Nat × Flags :=
  let ys := xs.map eighth
  (ys.map Prod.fst, ys.foldl (fun a y => a ||| y.2) fl)

def isFiniteBits (F : Fmt) (x : Nat) : Bool := x / 2 ^ F.mbits % 2 ^ F.ebits != F.expMax

/-- Exact comparison m / s8_value(c) ≤ 127 for a magnitude m (R125). -/
def scaleFits (m : Nat) (e : Int) (c : Nat) : Bool :=
  let (sm, se) := s8 c
  let q := min e se
  m * 2 ^ (e - q).toNat ≤ 127 * (sm * 2 ^ (se - q).toNat)

/-- Exact quotient x / scale rounded to an integer, saturated to ±127: the code and whether it is inexact (R125). -/
def quantOne (x c : Nat) : Nat × Bool :=
  match fmt32.dec x with
  | .num n m e =>
    let (sm, se) := s8 c
    let q := min e se
    let a := m * 2 ^ (e - q).toNat
    let b := sm * 2 ^ (se - q).toNat
    let k := roundDivEven a b
    let sat := k > 127
    let k := if sat then 127 else k
    (if n ∧ k ≠ 0 then 256 - k else k, a % b != 0 || sat)
  | _ => (0, false)

/-- The largest magnitude of a list of finite patterns, as a pattern without its sign. -/
def maxMag (xs : List Nat) : Nat := (xs.map fun x => x % 2 ^ 31).foldl Nat.max 0

/-- `hq_block` (R125): scale code, 64 codes and flags (R126). -/
def hqBlock (x : List Nat) (seed b : BitVec 64) : Nat × List Nat × Flags :=
  let x := signFlip (hsign seed b) x
  let (x, fl) := hadamard64 x
  let (x, fl) := eighths x fl
  if x.any fun v => !isFiniteBits fmt32 v then
    (0, List.replicate 64 0, flagNv ||| (fl &&& flagOf))
  else
    let m := maxMag x
    let c :=
      match fmt32.dec m with
      | .num _ mm e =>
        if mm = 0 then 0
        else (((List.range 255).map fun k => k + 1).find? fun c => scaleFits mm e c).getD 255
      | _ => 0
    let q := x.map fun v => if c = 0 then (0, false) else quantOne v c
    (c, q.map Prod.fst,
      if fl &&& flagNx != 0 || q.any fun y => y.2 then flagNx else 0)

/-- `hd_block` (R127): 64 values and flags. -/
def hdBlock (q : List Nat) (s : Nat) (seed b : BitVec 64) : List Nat × Flags :=
  let (sm, se) := s8 s
  let y := q.map fun c =>
    let v := rn8 c
    (fmt32.round .ne (.num (decide (v < 0)) (v.natAbs * sm) se)).1
  let (y, fl) := hadamard64 y
  let (y, fl) := eighths y fl
  (signFlip (hsign seed b) y, fl)

end Sys2Proof.Machine
end

