-- ==== Sys2Proof/Machine/Flags.lean ====
section
/-! DEFINITION. The sticky flags `%fflags` (R37, R101, R102). -/

namespace Sys2Proof.Machine

/-- OR the flags an instruction raises into the warp's (R37). -/
def Warp.raise (w : Warp) (f : Flags) : Warp := { w with fflags := w.fflags ||| f }

/-- Flags of several lanes or elements together (R102). -/
def orFlags (fs : List Flags) : Flags := fs.foldl (fun a b => a ||| b) 0

end Sys2Proof.Machine
end

