-- ==== Sys2Proof/Machine/Translate.lean ====
section
/-! DEFINITION. Addresses: the generic windows (R41 to R46), physical addresses (R375), page tables (R409 to R412) and
TLBs (R414 to R416), and reads and writes of memory at its home. -/

namespace Sys2Proof.Machine

/-- Fault codes (R425). -/
inductive FaultCode where
  | illegal | target | nonuniform | codeParity | runHazard | pageAbsent | pagePerm | pageFatal | align | privateAlias
  | raceWW | raceWR | raceRW | raceSyncdata | raceClassmix | markCapacity | wellDetached | wellGive | taskUnderflow
  | taskDepth | viewFull | mergeMismatch | mergeDetached | streamCorrelated | streamLength | mmaOperand | wstoreRO
  | poison | eccUncorrectable | trap | brk
  deriving DecidableEq, Repr

def FaultCode.code : FaultCode → Byte
  | .illegal => 0x01 | .target => 0x02 | .nonuniform => 0x03 | .codeParity => 0x04 | .runHazard => 0x05
  | .pageAbsent => 0x10 | .pagePerm => 0x11 | .pageFatal => 0x12 | .align => 0x13 | .privateAlias => 0x14
  | .raceWW => 0x20 | .raceWR => 0x21 | .raceRW => 0x22 | .raceSyncdata => 0x23 | .raceClassmix => 0x24
  | .markCapacity => 0x25 | .wellDetached => 0x30 | .wellGive => 0x31 | .taskUnderflow => 0x40 | .taskDepth => 0x41
  | .viewFull => 0x42 | .mergeMismatch => 0x43 | .mergeDetached => 0x44 | .streamCorrelated => 0x50
  | .streamLength => 0x51 | .mmaOperand => 0x58 | .wstoreRO => 0x59 | .poison => 0x60 | .eccUncorrectable => 0x61
  | .trap => 0x70 | .brk => 0x71

/-- Every fault code. -/
def FaultCode.all : List FaultCode :=
  [.illegal, .target, .nonuniform, .codeParity, .runHazard, .pageAbsent, .pagePerm, .pageFatal, .align, .privateAlias,
   .raceWW, .raceWR, .raceRW, .raceSyncdata, .raceClassmix, .markCapacity, .wellDetached, .wellGive, .taskUnderflow,
   .taskDepth, .viewFull, .mergeMismatch, .mergeDetached, .streamCorrelated, .streamLength, .mmaOperand, .wstoreRO,
   .poison, .eccUncorrectable, .trap, .brk]

/-- A fault an access finds: code, and for a walk its level and cause (R424). -/
structure XFault where
  code : FaultCode
  level : Nat := 0
  /-- 0 none, 1 invalid entry, 2 malformed entry, 3 write refused during migration, 4 reserved window. -/
  cause : Nat := 0
  deriving DecidableEq, Repr

/-! ### Windows (R41) -/

/-- What a 64-bit generic address denotes. -/
inductive Window where
  | global (va : Nat)
  | wstore (off : Nat)
  | priv (off : Nat)
  | well (off : Nat)
  | reserved
  deriving DecidableEq, Repr

def windowOf (a : BitVec 64) : Window :=
  let n := a.toNat
  if n ≤ 0x007FEFFFFFFFFFFF then .global n
  else if 0x007FFC0000000000 ≤ n ∧ n ≤ 0x007FFC00FFFFFFFF then .wstore (n - 0x007FFC0000000000)
  else if 0x007FFE0000000000 ≤ n ∧ n ≤ 0x007FFE0000FFFFFF then .priv (n - 0x007FFE0000000000)
  else if 0x007FFF0000000000 ≤ n ∧ n ≤ 0x007FFF00000BFFFF then .well (n - 0x007FFF0000000000)
  else .reserved

/-! ### Page-table entries (R410) -/

def pteV (p : BitVec 64) : Bool := p.getLsbD 0
def pteR (p : BitVec 64) : Bool := p.getLsbD 3
def pteW (p : BitVec 64) : Bool := p.getLsbD 4
def pteX (p : BitVec 64) : Bool := p.getLsbD 5
def ptePriv (p : BitVec 64) : Bool := p.getLsbD 6
def pteLeaf (p : BitVec 64) : Bool := p.getLsbD 7
def pteChk (p : BitVec 64) : Bool := p.getLsbD 10
def pteTpin (p : BitVec 64) : Bool := p.getLsbD 11
def pteMig (p : BitVec 64) : Bool := p.getLsbD 12
/-- 0 LOCAL, 1 WSTORE, 2 FAR, 3 HOST, 4 PEER, 5 IO. -/
def pteLoc (p : BitVec 64) : Nat := (p.extractLsb' 13 3).toNat
/-- The frame's first physical address. -/
def pteFrame (p : BitVec 64) : Nat := (p.extractLsb' 16 36).toNat * 65536
def pteDev (p : BitVec 64) : Nat := (p.extractLsb' 52 12).toNat

def locLocal : Nat := 0
def locWstore : Nat := 1
def locFar : Nat := 2
def locHost : Nat := 3
def locPeer : Nat := 4
def locIO : Nat := 5

/-- A physical address inside local HBM4 (R375). -/
def inHbm (pa : Nat) : Bool := pa < 2 ^ 48 && pa % 2 ^ 46 < 0x3000000000
def inWstore (pa : Nat) : Bool := 0x1000000000000 ≤ pa && pa ≤ 0x10000FFFFFFFF
def inFar (pa : Nat) : Bool := 0x2000000000000 ≤ pa && pa ≤ 0x3FFFFFFFFFFFF
def inIO (pa : Nat) : Bool := 0x4000000000000 ≤ pa && pa ≤ 0x4FFFFFFFFFFFF

/-- Does the frame lie where its location says (R412), outside what R375 excludes? -/
def frameOk (loc pa : Nat) : Bool :=
  if loc = locLocal then inHbm pa
  else if loc = locWstore then inWstore pa
  else if loc = locFar ∨ loc = locHost then inFar pa
  else if loc = locPeer then inHbm pa || inWstore pa
  else inIO pa

/-- A malformed entry at a level (R411). -/
def pteMalformed (p : BitVec 64) (level : Nat) : Bool :=
  p.extractLsb' 1 2 != 0 || p.extractLsb' 8 2 != 0
    || (if pteLeaf p then
          level == 0 || pteLoc p ≥ 6 || (level == 1 && p.extractLsb' 16 13 != 0)
            || !frameOk (pteLoc p) (pteFrame p)
            || (pteLoc p == locWstore && pteW p)
            || (pteChk p && (pteLoc p == locWstore || pteLoc p == locIO))
            || (pteChk p && (pteLoc p == locFar || pteLoc p == locHost) && level == 1)
            || (pteTpin p && pteMig p)
        else
          level == 2 || p &&& 0xFFF000000000FFFE != 0 
            || !(inHbm (pteFrame p) || inWstore (pteFrame p) || inFar (pteFrame p) || inIO (pteFrame p)))

/-- Index of a virtual address in a level's table (R409). -/
def walkIndex (va level : Nat) : Nat := va / 2 ^ (42 - 13 * level) % 8192

/-- Bytes mapped by a leaf at a level. -/
def pageSize (level : Nat) : Nat := if level = 1 then 2 ^ 29 else 2 ^ 16

def pageBase (va level : Nat) : Nat := va / pageSize level * pageSize level

/-- Walk from a table at a level (R409, R411, R413): the leaf and its level. `fuel` counts the levels left. -/
def walkFrom (mem : Memory) (va : Nat) : Nat → Nat → Nat → Except XFault (BitVec 64 × Nat)
  | 0, _, level => .error { code := .pageAbsent, level := level, cause := 2 }
  | fuel + 1, table, level =>
    let p := BitVec.ofNat 64 (readNat mem (table + 8 * walkIndex va level) 8)
    if !pteV p then .error { code := .pageAbsent, level := level, cause := 1 }
    else if pteMalformed p level then .error { code := .pageAbsent, level := level, cause := 2 }
    else if pteLeaf p then .ok (p, level)
    else walkFrom mem va fuel (pteFrame p) (level + 1)

/-- The entry the tables hold now. -/
def State.walk (s : State) (ctx va : Nat) : Except XFault (BitVec 64 × Nat) :=
  walkFrom s.mem va 3 (s.ctx ctx).ptroot.toNat 0

/-! ### TLBs (R414 to R416) -/

/-- Virtual address of the first byte that an entry of a level covers. -/
def entryBase (va level : Nat) : Nat := va / 2 ^ (if level = 0 then 42 else if level = 1 then 29 else 16) * 2 ^ (if level = 0 then 42 else if level = 1 then 29 else 16)

/-- Entries that a unit holds (R414, R415). -/
def TlbUnit.capacity : TlbUnit → Nat
  | .core _ => 1024
  | .cluster _ => 16384
  | .quill _ => 2048
  | .walker _ => 4096

def TlbUnit.isWalker : TlbUnit → Bool
  | .walker _ => true
  | _ => false

/-- Entries for an address that the units may use. -/
def State.tlbHits (s : State) (units : List TlbUnit) (ctx va : Nat) : List TlbEntry :=
  s.tlb.filter fun e => units.contains e.unit && e.ctx == ctx && e.va == entryBase va e.level

/-- Take an entry into its unit. A full unit gives one of its own up, which one is free (log entry 75). -/
def State.tlbPut (s : State) (e : TlbEntry) : State :=
  if s.tlb.contains e then s
  else
    let mine := s.tlb.filter fun x => x.unit == e.unit
    if mine.length < e.unit.capacity then { s with tlb := e :: s.tlb }
    else
      let (k, s) := s.draw 5 mine.length
      { s with tlb := e :: s.tlb.erase (mine.getD k e) }

/-- Remember a translation in the units that served it: the walker's cache holds the entries of levels 0 and 1 that the walk has
read, the TLBs its leaf (R414). -/
def State.tlbFill (s : State) (units : List TlbUnit) (ctx va level : Nat) (p : BitVec 64) : State :=
  units.foldl (fun (s : State) u =>
    if u.isWalker && level = 2 then s
    else s.tlbPut { unit := u, ctx := ctx, level := level, va := entryBase va level, pte := p }) s

/-- The valid non-leaf entries of a walk that goes on below them, with their levels (R409). `fuel` counts the levels left. -/
def walkPath (mem : Memory) (va : Nat) : Nat → Nat → Nat → List (Nat × BitVec 64)
  | 0, _, _ => []
  | fuel + 1, table, level =>
    let p := BitVec.ofNat 64 (readNat mem (table + 8 * walkIndex va level) 8)
    if !pteV p || pteMalformed p level || pteLeaf p then []
    else (level, p) :: walkPath mem va fuel (pteFrame p) (level + 1)

/-- Note a walk of the tables in the units: the entries on its way in the walker's cache, its leaf everywhere. -/
def State.walkFill (s : State) (units : List TlbUnit) (ctx va level : Nat) (p : BitVec 64) : State :=
  let s := (walkPath s.mem va 3 (s.ctx ctx).ptroot.toNat 0).foldl (fun (s : State) x =>
    s.tlbFill (units.filter TlbUnit.isWalker) ctx va x.1 x.2) s
  s.tlbFill units ctx va level p

/-- The translation that a cached entry gives: a leaf its own, a table entry of the walker's cache the rest of the walk. -/
def State.throughEntry (s : State) (va : Nat) (e : TlbEntry) : Except XFault (BitVec 64 × Nat) :=
  if pteLeaf e.pte then .ok (e.pte, e.level) else walkFrom s.mem va (2 - e.level) (pteFrame e.pte) (e.level + 1)

/-- Are two translations one? -/
def sameWalk (x y : Except XFault (BitVec 64 × Nat)) : Bool :=
  match x, y with
  | .ok a, .ok b => a == b
  | .error a, .error b => a == b
  | _, _ => false

/-- The entry an access uses: while a TLB or the walker's cache holds another entry than the tables, either one (R416). -/
def State.pickPte (s : State) (units : List TlbUnit) (ctx va : Nat) : Except XFault (BitVec 64 × Nat) × State :=
  let now := s.walk ctx va
  let hits := s.tlbHits units ctx va
  let old := (hits.map (s.throughEntry va)).filter fun x => !sameWalk x now
  let (k, s) := if old.isEmpty then (0, s) else s.draw 1 (old.length + 1)
  if k = 0 then
    match now with
    | .ok (p, l) =>
      -- a hit in a TLB needs no walk
      if hits.any fun e => !e.unit.isWalker && e.pte == p && e.level == l then (.ok (p, l), s.tlbFill (units.filter fun u => !u.isWalker) ctx va l p)
      else (.ok (p, l), s.walkFill units ctx va l p)
    | .error x => (.error x, s)
  else
    match old.getD (k - 1) now with
    | .ok (p, l) => (.ok (p, l), s.tlbFill (units.filter fun u => !u.isWalker) ctx va l p)
    | .error x => (.error x, s)

/-- What an access needs of its page (R411). -/
inductive Need where
  | read | write | both | fetch
  deriving DecidableEq, Repr

/-- A translated access: physical address (peer devices apart, as `Memory` says), location and check bit. -/
structure Xlat where
  pa : Nat
  loc : Nat := 0
  chk : Bool := false
  mig : Bool := false
  tpin : Bool := false
  deriving DecidableEq, Repr

/-- The host port that serves a far or host line (R472): true, CXL. -/
def Platform.portCxl (p : Platform) (pa : Nat) : Bool :=
  let f := p.farport.toNat % 4
  if f = 1 then p.cxl1 else if f = 2 then (if pa / 65536 % 2 = 1 then p.cxl1 else p.cxl0) else p.cxl0

/-- Permission check, in the order of R411. -/
def permOk (p : BitVec 64) (need : Need) : Bool :=
  match need with
  | .read => pteR p
  | .write => pteW p
  | .both => pteR p && pteW p
  | .fetch => pteX p

/-- Translate an address in the global window through the units (R41, R409 to R416, R472). -/
def State.xlatIn (s : State) (units : List TlbUnit) (ctx va : Nat) (need : Need) : Except XFault Xlat × State :=
  match s.pickPte units ctx va with
  | (.error x, s) => (.error x, s)
  | (.ok (p, level), s) =>
    let pa := pteFrame p + va % pageSize level
    if ptePriv p && !s.privileged ctx then (.error { code := .pagePerm }, s)
    else if !permOk p need then (.error { code := .pagePerm }, s)
    else if pteLoc p == locFar && !s.plat.portCxl pa then (.error { code := .pageFatal }, s)
    else
      (.ok { pa := (if pteLoc p = locPeer then pteDev p * 2 ^ 52 else 0) + pa, loc := pteLoc p, chk := pteChk p,
             mig := pteMig p, tpin := pteTpin p }, s)

/-- Translate a generic address that the device takes as one of the global window (R41): any other lies outside what can be
translated (log entry 76). -/
def State.xlat (s : State) (units : List TlbUnit) (ctx va : Nat) (need : Need) : Except XFault Xlat × State :=
  match windowOf (BitVec.ofNat 64 va) with
  | .global v => s.xlatIn units ctx v need
  | _ => (.error { code := .pageAbsent, cause := 4 }, s)

/-- Units of per-lane accesses and fetch, and of engine operands, with the walkers of the core's die (R414, R415). -/
def laneUnits (core : Nat) : List TlbUnit := [.core core, .cluster (coreCluster core), .walker (coreDie core)]
def engineUnits (core : Nat) : List TlbUnit := [.cluster (coreCluster core), .walker (coreDie core)]
def quillUnits (core : Nat) : List TlbUnit := [.quill (coreCluster core), .cluster (coreCluster core), .walker (coreDie core)]

/-! ### Homes (R376 to R378) -/

/-- Home die of a physical address (R376). -/
def homeDie (pa : Nat) : Nat := if inFar pa then pa / 2 ^ 16 % 4 else pa / 2 ^ 46 % 4

/-- Position of the n-th set bit of a slice set (R378). -/
def nthSet (m : BitVec 64) (n : Nat) : Nat := ((List.range 64).filter fun k => m.getLsbD k).getD n 0

/-- The home slice of an address, over the device (R378). -/
def State.homeSlice (s : State) (pa : Nat) : Nat :=
  let d := homeDie pa
  let hi := pa / 65536 % 2 ^ 36
  let hit := (s.die d).ranges.find? fun e =>
    e.valid && e.smask != 0 && e.stride != 15 && e.base < e.limit && e.base ≤ hi && hi < e.limit
  let slice :=
    match hit with
    | some e => nthSet e.smask ((pa - e.base * 65536) / 2 ^ (6 + e.stride) % popCount e.smask)
    | none => (List.range 7).foldl (fun x k => Nat.xor x (pa / 2 ^ (6 + 6 * k) % 64)) 0
  d * 64 + slice

/-- Die of a home: none for a peer's (R376, R406). -/
def homeDieOf (loc pa : Nat) : Option Nat :=
  if loc = locPeer then none else if loc = locWstore then some (pa % 2 ^ 32 / 2 ^ 30) else some (homeDie pa)

/-- A home as an endpoint of messages (R454): a slice, a die's weight store, or a peer device. -/
def State.homeKey (s : State) (loc pa : Nat) : Nat :=
  if loc = locPeer then 1000 + pa / 2 ^ 52 else if loc = locWstore then 900 + pa % 2 ^ 32 / 2 ^ 30 else s.homeSlice pa

/-- The dies that a transfer about a line crosses, its ends among them (R457). -/
def pathDies (src dst pa : Nat) : List Nat :=
  if (src + 2) % 4 = dst then [src, (if pa / 64 % 2 = 0 then (src + 1) % 4 else (src + 3) % 4), dst] else [src, dst]

/-- The nanoseconds that a transfer takes at least between two dies: half of what R422 gives for an access and its answer (log entry
32). -/
def linkTime (src dst : Nat) : Nat := if (src + 2) % 4 = dst then 57 else 38

/-- Had what was sent at `sent` got past a die that takes `n` ns to leave behind, when its clock stopped (R459)? -/
def State.pastDie (s : State) (d n sent : Nat) : Bool := (s.die d).relock.all fun t => sent + n + 1500 ≤ t

/-- May what was sent at `sent` from one die to another have arrived (R459)? It had got past every die on its way that is stopped
now, and the receiving die's clock runs. -/
def State.linkOpen (s : State) (src dst pa sent : Nat) : Bool :=
  !s.plat.stopped && (s.die dst).relock.isNone && (pathDies src dst pa).all fun d => s.pastDie d (linkTime src dst) sent

/-- Until when a response that leaves now is held in a die link (R459). -/
def State.heldUntil (s : State) (src dst pa : Nat) : Nat :=
  (pathDies src dst pa).foldl (fun n d => max n ((s.die d).relock.getD 0)) 0

/-- Is there a route to where accesses of a location go (R468)? -/
def State.routed (s : State) (loc : Nat) : Bool := loc != locPeer || s.plat.noRouteSince.isNone

/-- Has there been no route to any peer for 100 µs (R468)? -/
def State.routeLost (s : State) : Bool := s.plat.noRouteSince.any fun t => t + 100000 ≤ s.time

/-- Can a core's request for a line be answered now (R459, R468)? -/
def State.answers (s : State) (core loc pa : Nat) : Bool :=
  let here := coreDie core
  s.routed loc &&
    match homeDieOf loc pa with
    | some d => s.linkOpen here d pa s.time && s.linkOpen d here pa s.time
    | none => !s.plat.stopped && (s.die here).relock.isNone

/-- A warp asks for a line that cannot be reached: since when. -/
def Warp.asks (w : Warp) (line now : Nat) : Warp :=
  if w.askedAt.any fun x => x.1 == line then w else { w with askedAt := some (line, now) }

/-- Has a warp's request for a line had no route for 100 µs (R468)? -/
def State.askedLong (s : State) (w : Warp) (line : Nat) : Bool :=
  s.routeLost && w.askedAt.any fun x => x.1 == line && x.2 + 100000 ≤ s.time

/-! ### Memory at its home -/

def State.band (s : State) (line : Nat) : Band := (s.bands.find? fun b => b.line == line).getD { line := line }

def State.setBand (s : State) (b : Band) : State :=
  if s.bands.any fun x => x.line == b.line then
    { s with bands := replaceIf (fun x => x.line == b.line) (fun _ => b) s.bands }
  else { s with bands := b :: s.bands }

/-- Line address of a physical address. -/
def lineOf (pa : Nat) : Nat := pa / 64 * 64

/-- Granules of a line that bytes `a` to `a + n - 1` touch (R395). -/
def granules (a n : Nat) : List Nat := (List.range 4).filter fun k => k * 16 < a % 64 + n && a % 64 < k * 16 + 16

/-- Is a byte of the access in a poisoned granule (R395, R397)? -/
def State.poisoned (s : State) (a n : Nat) : Bool :=
  (granules a n).any fun k => (s.band (lineOf a)).poison.getLsbD k

/-- The line's bytes. -/
def State.lineData (s : State) (line : Nat) : BitVec 512 := lineOfBytes (readBytes s.mem line 64)

/-- A write has rewritten a line that a refill found uncorrectable: no access faults for it any more (R398). -/
def State.eccDone (s : State) (line : Nat) : State :=
  { s with l2 := replaceIf (fun x => x.line == line) (fun x => { x with ecc := false }) s.l2 }

/-- A byte-masked write at the home: granules covered whole lose their poison (R384, R397). -/
def State.homeWrite (s : State) (line : Nat) (mask : BitVec 64) (data : BitVec 512) : State :=
  let b := s.band line
  let whole := (List.range 4).filter fun k => mask.extractLsb' (16 * k) 16 == BitVec.allOnes 16
  let s := { s with mem := writeMasked s.mem line mask data }.eccDone line
  if whole.any fun k => b.poison.getLsbD k then
    s.setBand { b with poison := whole.foldl (fun p k => setBit p k false) b.poison }
  else s

/-- A write of consecutive bytes at their home. -/
def State.homeBytes (s : State) (a : Nat) (bs : List Byte) : State :=
  let s := { s with mem := writeBytes s.mem a bs }
  let lines := (List.range (ceilDiv (a % 64 + bs.length) 64)).map fun k => lineOf a + 64 * k
  lines.foldl (fun (s : State) line =>
    let s := s.eccDone line
    let b := s.band line
    if b.poison = 0 then s
    else s.setBand { b with poison := (List.range 4).foldl (fun p k =>
      if a ≤ line + 16 * k ∧ line + 16 * k + 16 ≤ a + bs.length then setBit p k false else p) b.poison }) s

/-! ### What only the device writes (R10, R200, R421, R423) -/

/-- Bytes of a context record's header that hold RO bits, with those bits: the record's own (R423), and the reserved bits of its
watchpoints (R443) and of DEPCTL (R449). -/
def ctxRoBytes : List (Nat × Byte) :=
  [(0, 0x83), (1, 0xFE)] ++ ((List.range 20).map fun k => (2 + k, 0xFF)) ++ ((List.range 4).map fun k => (64 + k, 0xFF))
    ++ (List.range 4).flatMap (fun n => [(32 + 8 * n + 6, 0x80), (32 + 8 * n + 7, 0x03)])
    ++ [(68, 0x04), (69, 0xFF), (70, 0xFF), (71, 0xFF)]
    ++ ((List.range 4).map fun k => (76 + k, 0xFF)) ++ [(84, 0xFF), (85, 0xFF), (88, 0xFF), (89, 0xFF)]

/-- RO bits of memory, by byte: of the records of contexts that have been created, of the headers of their fault and migration rings,
and of the records of tasks that the device knows and that have not ended (log entry 80). -/
def State.roBytes (s : State) : List (Nat × Byte) :=
  let at' (ctx : Nat) (va : Nat) : Option Nat :=
    match (s.xlat [] ctx va .write).1 with
    | .ok x => some x.pa
    | .error _ => none
  let ring (hctx : Nat) (va : BitVec 64) : List (Nat × Byte) :=
    match (if va = 0 then none else at' hctx va.toNat) with
    | some pa => ((List.range 4).map fun k => (pa + 16 + k, 0xFF)) ++ (List.range 4).map fun k => (pa + 24 + k, 0xFF)
    | none => []
  ((s.ctxs.filter Ctx.created).flatMap fun c =>
      (ctxRoBytes.map fun x => (s.plat.ctxbase.toNat + 1024 * c.id + x.1, x.2))
        ++ (if c.dead then [] else ring c.hctx c.fring ++ ring c.hctx c.mring))
    ++ (s.tasks.filter fun t => t.state < 4).flatMap fun t =>
      match at' t.ctx t.recordAt.toNat with
      | some pa => ([(pa + 20, 0xFF), (pa + 21, 0xFC)] : List (Nat × Byte)) ++ (List.range 8).map fun k => (pa + 24 + k, 0xFF)
      | none => []

/-- What a write by software changes of a line: RO bits keep their values (R10), and a write to DEPUSE clears it (R449). -/
def State.guard (s : State) (line : Nat) (mask : BitVec 64) (data : BitVec 512) : BitVec 64 × BitVec 512 :=
  let inLine (a : Nat) : Bool := lineOf a == line
  let (m, d) := ((s.roBytes).filter fun x => inLine x.1).foldl (fun (x : BitVec 64 × BitVec 512) r =>
    let old : Byte := cget s.mem r.1
    let new := lineByte x.2 (r.1 % 64)
    (x.1, setLineByte x.2 (r.1 % 64) ((old &&& r.2) ||| (new &&& ~~~r.2)))) (mask, data)
  (s.ctxs.filter Ctx.created).foldl (fun (x : BitVec 64 × BitVec 512) c =>
    let a := s.plat.ctxbase.toNat + 1024 * c.id + 72
    if inLine a && (List.range 4).any fun k => x.1.getLsbD (a % 64 + k) then
      (List.range 4).foldl (fun (x : BitVec 64 × BitVec 512) k =>
        (setBit x.1 (a % 64 + k) true, setLineByte x.2 (a % 64 + k) 0)) x
    else x) (m, d)

/-- Bytes of a line have new values, at their home or in a core's L1: no read meets the releases of the old ones any more (R303). -/
def State.relsDrop (s : State) (core : Option Nat) (line : Nat) (mask : BitVec 64) : State :=
  { s with stamps := s.stamps.filter fun r =>
      r.core != core || lineOf r.addr != line || mask.extractLsb' (r.addr % 64) 4 = 0 }

/-- A byte-masked write of software at the home. -/
def State.softWrite (s : State) (line : Nat) (mask : BitVec 64) (data : BitVec 512) : State :=
  let x := s.guard line mask data
  (s.homeWrite line x.1 x.2).relsDrop none line x.1

/-- The mask of bytes `k` to `k + n - 1` of a line. -/
def byteMask (k n : Nat) : BitVec 64 := (List.range n).foldl (fun (m : BitVec 64) i => setBit m (k + i) true) 0

/-- A write of software of bytes within one line, at their home. -/
def State.softLine (s : State) (a : Nat) (bs : List Byte) : State :=
  s.softWrite (lineOf a) (byteMask (a % 64) bs.length) (lineOfBytes (List.replicate (a % 64) 0 ++ bs))

/-- A write of software of consecutive bytes at their homes. `fuel` bounds the lines. -/
def softRun : Nat → State → Nat → List Byte → State
  | 0, s, _, _ => s
  | fuel + 1, s, a, bs =>
    if bs.isEmpty then s
    else
      let n := 64 - a % 64
      softRun fuel (s.softLine a (bs.take n)) (a + n) (bs.drop n)

def State.softBytes (s : State) (a : Nat) (bs : List Byte) : State := softRun (bs.length / 64 + 2) s a bs

/-- Read a record of consecutive bytes through a context's tables, line by line (R192, R237). -/
def State.readVirt (s : State) (units : List TlbUnit) (ctx va : Nat) : Nat → Except XFault (List Byte) × State
  | 0 => (.ok [], s)
  | n + 1 =>
    match s.xlat units ctx (va + 64 * n) .read with
    | (.error x, s) => (.error x, s)
    | (.ok x, s) =>
      match s.readVirt units ctx va n with
      | (.error y, s) => (.error y, s)
      | (.ok bs, s) => (.ok (bs ++ readBytes s.mem x.pa 64), s)

/-- Does every 64 KiB of a range translate with write permission (R421, R514)? The physical address of each line of
the range, or the first fault and its address. -/
def State.xlatLines (s : State) (units : List TlbUnit) (ctx va : Nat) (need : Need) :
    Nat → Except (XFault × Nat) (List Nat) × State
  | 0 => (.ok [], s)
  | n + 1 =>
    match s.xlatLines units ctx va need n with
    | (.error e, s) => (.error e, s)
    | (.ok as, s) =>
      match s.xlat units ctx (va + 64 * n) need with
      | (.error x, s) => (.error (x, va + 64 * n), s)
      | (.ok x, s) => (.ok (as ++ [x.pa]), s)

end Sys2Proof.Machine
end

