-- ==== Sys2Proof/Machine/Save.lean ====
section
/-! DEFINITION. The save area (R48 to R51) and its entries: the bytes of a thread-table entry, a warp word, a block
header, stream tags and convergence registers, where each lies, and reading them back (R21, R52). -/

namespace Sys2Proof.Machine

/-! ### Numbers of the fields -/

def Reason.code : Reason → Nat
  | .marker => 1 | .barrier => 2 | .take => 3 | .fault => 4 | .syncSpawn => 5 | .rwait => 6 | .binding => 7
  | .debugger => 8

def Reason.ofCode (n : Nat) : Option Reason :=
  match n with
  | 1 => some .marker | 2 => some .barrier | 3 => some .take | 4 => some .fault | 5 => some .syncSpawn
  | 6 => some .rwait | 7 => some .binding | 8 => some .debugger
  | _ => none

/-- State code, reason and arg of a thread (R18 to R20). -/
def TState.codes : TState → Nat × Nat × Nat
  | .ready => (0, 0, 0)
  | .parked r => (1, r.code, 0)
  | .paused n => (2, 0, n)
  | .blocked w st => (3, 0, w * 4 + if st then 1 else 0)
  | .exited => (4, 0, 0)

/-- The state that saved codes stand for; none for a reserved state or reason (R20, R21). A parked entry whose reason is 0x0 has no
meaning in R20's table, which R21 does not list as reserved: the model takes it as reserved (DESIGN CHOICE, log entry 78). -/
def TState.ofCodes (state reason arg : Nat) : Option TState :=
  if 9 ≤ reason then none
  else match state with
  | 0 => some .ready
  | 1 => (Reason.ofCode reason).map .parked
  | 2 => some (.paused (arg % 65536))
  | 3 => some (.blocked (arg / 4 % 2 ^ 18) (arg % 2 == 1))
  | 4 => some .exited
  | _ => none

/-- A thread-table entry (R18). -/
def threadEntry (t : Thread) : Nat :=
  let (st, re, arg) := t.st.codes
  t.pc.toNat + putField 64 55 t.rentry.toNat + putField 128 20 arg + putField 156 4 re + putField 160 3 st
    + putField 168 8 t.age + putField 176 16 t.rseq.toNat

/-- The RW fields of an entry: pc, rentry, arg, reason, state, age (R18). -/
def threadRwMask : Nat :=
  putField 0 55 (2 ^ 55 - 1) + putField 64 55 (2 ^ 55 - 1) + putField 128 20 (2 ^ 20 - 1) + putField 156 4 15
    + putField 160 3 7 + putField 168 8 255

/-- The warp word (R50). -/
def warpWord (w : Warp) : Nat :=
  let tpend := (w.tokens.filter fun t => !t.done).foldl (fun n t => n ||| 2 ^ t.reg) 0
  w.fflags.toNat + putField 32 32 w.iseq.toNat + putField 64 32 w.eseq.toNat + putField 128 128 tpend

def slenCode (n : Nat) : Nat := if n = 256 then 0 else if n = 512 then 1 else 2

/-- Bytes of the registers of one warp, each section padded to 64 bytes (R48). -/
def warpBytes (k : Kernel) : Nat := k.nv * 1024 + k.ns * 64 + 64 + 1024 + 64

def roundLine (n : Nat) : Nat := roundUp n 64

/-- Offsets of the sections (R48). -/
def saveWarpAt (k : Kernel) (wid : Nat) : Nat := 128 + wid * warpBytes k
def saveSregsAt (k : Kernel) (wid : Nat) : Nat := saveWarpAt k wid + k.nv * 1024
def savePredsAt (k : Kernel) (wid : Nat) : Nat := saveSregsAt k wid + k.ns * 64
def saveThreadsAt (k : Kernel) (wid : Nat) : Nat := savePredsAt k wid + 64
def saveWordAt (k : Kernel) (wid : Nat) : Nat := saveThreadsAt k wid + 1024
def saveTilesAt (k : Kernel) (nw : Nat) : Nat := 128 + nw * warpBytes k
def saveAccsAt (k : Kernel) (nw : Nat) : Nat := saveTilesAt k nw + k.tiles * 8192
def saveStreamsAt (k : Kernel) (nw : Nat) : Nat := saveAccsAt k nw + k.accs * 16384
def saveCvsAt (k : Kernel) (nw : Nat) : Nat := saveStreamsAt k nw + k.streams * 4160
/-- Total size (R49). -/
def saveSize (k : Kernel) (ntid : Nat) : Nat := saveCvsAt k (ceilDiv ntid 32) + roundLine (k.cvs * 16)

/-- The block header (R49). -/
def saveHeader (b : Block) (num : Word) : Nat :=
  putField 0 32 b.bid + putField 32 32 num.toNat + putField 64 11 b.ntid + putField 80 8 b.nwarps
    + putField 88 8 b.kernel.nv + putField 96 8 b.kernel.ns + putField 104 8 b.kernel.tiles
    + putField 112 8 b.kernel.accs + putField 120 8 b.kernel.streams + putField 128 8 b.kernel.cvs
    + putField 136 2 (slenCode b.slen) + putField 144 8 b.depth + putField 152 8 b.crank + putField 160 16 b.ctx
    + putField 192 64 (saveSize b.kernel b.ntid)

def wordBytes (v : Word) : List Byte := bytesOfNat 4 v.toNat

/-- One warp's sections. -/
def warpImage (k : Kernel) (w : Warp) : List Byte :=
  (List.range (k.nv * 8 * 32)).flatMap (fun i => wordBytes (cget w.vregs i))
    ++ (List.range (k.ns * 16)).flatMap (fun i => wordBytes (w.sget i))
    ++ (List.range 8).flatMap (fun p => wordBytes (w.pget p)) ++ List.replicate 32 0
    ++ (List.range 32).flatMap (fun l => bytesOfNat 32 (threadEntry (w.thread l)))
    ++ bytesOfNat 64 (warpWord w)

/-- A stream tag (R29). -/
def tagWord (t : StreamTag) : Nat := t.cmask.toNat + putField 64 2 t.len.toNat + putField 66 1 t.derived.toNat

/-- A convergence register (R30). -/
def cvWord (c : ConvReg) : Nat :=
  c.n % 64 + putField 8 6 c.count + putField 14 2 c.state + putField 16 32 c.signers.toNat
    + putField 48 80 c.first.toNat

/-- The block-owned sections: tiles, accumulators, streams, convergence registers. -/
def blockImage (b : Block) : List Byte :=
  (List.range (b.kernel.tiles * 4096)).flatMap (fun i => bytesOfNat 2 (cget b.tiles i).toNat)
    ++ (List.range (b.kernel.accs * 4096)).flatMap (fun i => wordBytes (cget b.accs i))
    ++ (List.range b.kernel.streams).flatMap (fun q =>
        (List.range 32).flatMap (fun l => bytesOfNat 128 (cget b.streams (32 * q + l)).toNat)
          ++ bytesOfNat 64 (tagWord (b.tag q)))
    ++ (List.range b.kernel.cvs).flatMap (fun n => bytesOfNat 16 (cvWord (b.cv n)))
    ++ List.replicate (roundLine (b.kernel.cvs * 16) - b.kernel.cvs * 16) 0

/-! ### The slot in memory -/

/-- Virtual address of a block's save slot (R341). -/
def State.saveSlot (s : State) (b : Block) : Nat :=
  match s.grid? b.gid with
  | some g => (g.launch.sabase.toNat + b.bid * g.launch.sastride) % 2 ^ 64
  | none => 0

/-- Write bytes to lines at given physical addresses. -/
def writeLines (m : Memory) : List Nat → List Byte → Memory
  | [], _ => m
  | a :: as, bs => writeLines (writeBytes m a (bs.take 64)) as (bs.drop 64)

/-- Physical address of a byte of a block's save slot, through its context's tables (R514); none if it fails. -/
def State.savePa (s : State) (b : Block) (off : Nat) : Option Nat :=
  match (s.xlat [] b.ctx (s.saveSlot b + off) .write).1 with
  | .ok x => some x.pa
  | .error _ => none

/-- Change a saved number of `n` bytes at an offset of the slot. -/
def State.saveMod (s : State) (b : Block) (off n : Nat) (f : Nat → Nat) : State :=
  match s.savePa b off with
  | some pa => { s with mem := writeNat s.mem pa n (f (readNat s.mem pa n)) }
  | none => s

/-- Make a saved thread ready, in the save area (R183, R351). -/
def State.saveWake (s : State) (b : Block) (wid lane : Nat) : State :=
  s.saveMod b (saveThreadsAt b.kernel wid + 32 * lane) 32 fun v =>
    v - putField 128 20 (fieldOf v 128 20) - putField 156 4 (fieldOf v 156 4) - putField 160 3 (fieldOf v 160 3)

/-- Write a saved uniform register and clear its tpend bit (R51). -/
def State.saveToken (s : State) (b : Block) (wid reg : Nat) (v : Word) : State :=
  let s := s.saveMod b (saveSregsAt b.kernel wid + 4 * reg) 4 fun _ => v.toNat
  s.saveMod b (saveWordAt b.kernel wid) 64 fun x => if fieldOf x (128 + reg) 1 = 1 then x - 2 ^ (128 + reg) else x

/-! ### Reading back (R21, R52) -/

/-- A saved thread: none when an RO field was changed or a code is reserved (R21). The rest of the thread is as the
core kept it. -/
def threadBack (t : Thread) (v : Nat) : Option Thread :=
  if v &&& (2 ^ 256 - 1 - threadRwMask) ≠ threadEntry t &&& (2 ^ 256 - 1 - threadRwMask) then none
  else
    match TState.ofCodes (fieldOf v 160 3) (fieldOf v 156 4) (fieldOf v 128 20) with
    | none => none
    | some st =>
      some { t with pc := BitVec.ofNat 55 v, rentry := BitVec.ofNat 55 (fieldOf v 64 55), age := fieldOf v 168 8,
                    st := st }

/-- Cells of words read from bytes, registers numbered from 0. -/
def wordCells (bs : List Byte) (n : Nat) : Cells 32 :=
  crun 0 ((List.range n).map fun i => BitVec.ofNat 32 (natOfBytes ((bs.drop (4 * i)).take 4)))

/-- Every element of a list of options, or none. -/
def allSome {α : Type} : List (Option α) → Option (List α)
  | [] => some []
  | none :: _ => none
  | some x :: t => (allSome t).map (x :: ·)

/-- A warp from its saved sections (R48, R52); none as R21 says. -/
def warpBack (k : Kernel) (w : Warp) (bs : List Byte) : Option Warp :=
  let at32 := bs.drop (k.nv * 1024)
  let preds := at32.drop (k.ns * 64)
  let tt := preds.drop 64
  let word := natOfBytes ((tt.drop 1024).take 64)
  match allSome ((List.range 32).map fun l =>
      threadBack (w.thread l) (natOfBytes ((tt.drop (32 * l)).take 32))) with
  | none => none
  | some ts =>
    if word / 32 ≠ warpWord w / 32 then none
    else
      some { w with
        vregs := wordCells bs (k.nv * 256), sregs := wordCells at32 (k.ns * 16),
        preds := (wordCells preds 8).filter fun c => c.1 != 7,
        threads := ts, fflags := BitVec.ofNat 5 word }

/-- A stream tag; none for a reserved length or a changed reserved field (R21, R29). -/
def tagBack (v : Nat) : Option StreamTag :=
  if fieldOf v 64 2 = 3 ∨ v / 2 ^ 67 ≠ 0 then none
  else some { cmask := BitVec.ofNat 64 v, len := BitVec.ofNat 2 (fieldOf v 64 2), derived := fieldOf v 66 1 == 1 }

/-- Length of a length code (R29). -/
def lenOf (c : BitVec 2) : Nat := if c = 0 then 256 else if c = 1 then 512 else 1024

/-- The block-owned sections read back. Bits of a stream at or above its length read as zero (R29). -/
def blockBack (b : Block) (bs : List Byte) : Option Block :=
  let k := b.kernel
  let accs := bs.drop (k.tiles * 8192)
  let strs := accs.drop (k.accs * 16384)
  let cvs := strs.drop (k.streams * 4160)
  match allSome ((List.range k.streams).map fun q => tagBack (natOfBytes ((strs.drop (4160 * q + 4096)).take 64))) with
  | none => none
  | some tags =>
    if (List.range k.cvs).any fun n => natOfBytes ((cvs.drop (16 * n)).take 16) ≠ cvWord (b.cv n) then none
    else
      some { b with
        tiles := crun 0 ((List.range (k.tiles * 4096)).map fun i =>
          BitVec.ofNat 16 (natOfBytes ((bs.drop (2 * i)).take 2))),
        accs := wordCells accs (k.accs * 4096),
        streams := crun 0 ((List.range (k.streams * 32)).map fun i =>
          BitVec.ofNat 1024 (natOfBytes ((strs.drop (4160 * (i / 32) + 128 * (i % 32))).take 128)
            % 2 ^ lenOf ((tags.getD (i / 32) {}).len))),
        tags := (List.range k.streams).zip tags }

end Sys2Proof.Machine
end

