-- ==== Sys2Proof/Machine/Trace.lean ====
section
/-! DEFINITION. Trace units (R438, R439, R441): writing a record, with the sync record that may have to come first. -/

namespace Sys2Proof.Machine

def Trace.en (t : Trace) : Bool := t.ctl.getLsbD 0
def Trace.wrap (t : Trace) : Bool := t.ctl.getLsbD 1
def Trace.ctx (t : Trace) : Nat := (t.ctl.extractLsb' 48 16).toNat
def Trace.len (t : Trace) : Nat := (t.ctl.extractLsb' 32 16).toNat
def Trace.sint (t : Trace) : Nat := (t.ctl.extractLsb' 16 16).toNat
def Trace.event (t : Trace) (bit : Nat) : Bool := t.ctl.getLsbD bit

/-- evmask bit of an event code (R438, R439). -/
def traceBit (code : Nat) : Nat :=
  if code = 1 then 8 else if code ≤ 3 then 9 else if code ≤ 5 then 10 else if code = 6 then 11
  else if code ≤ 8 then 12 else 13

/-- Place one record of 64 bytes at the write position (R438, R441). A full buffer continues from its start with
wrap, and a sync record is then due; without it the unit stops. A failed translation stops the unit, sets lost and
interrupts the host. -/
def State.tracePut (s : State) (d : Nat) (body : Nat) : State :=
  let t := (s.die d).trace
  let cap := t.len * 1024
  if !t.en then s
  else if t.lost then
    s.modDie d fun x => { x with trace := { t with drop := if t.drop = BitVec.allOnes 24 then t.drop else t.drop + 1 } }
  else if !t.on then s
  else if cap = 0 then s.modDie d fun x => { x with trace := { t with on := false } }
  else
    let n := t.ptr.toNat
    if n ≠ 0 ∧ n % cap = 0 ∧ !t.wrap then s.modDie d fun x => { x with trace := { t with on := false } }
    else
      match (s.xlat [] t.ctx (t.base.toNat + 64 * (n % cap)) .write).1 with
      | .ok x =>
        if x.tpin then
          let s := { s with mem := writeNat s.mem x.pa 64 body }
          s.modDie d fun y => { y with trace := { t with ptr := t.ptr + 1, last := s.time } }
        else
          (s.modDie d fun y => { y with trace := { t with on := false, lost := true, drop := 1 } }).interrupt 2
            (some t.ctx)
      | .error _ =>
        (s.modDie d fun y => { y with trace := { t with on := false, lost := true, drop := 1 } }).interrupt 2
          (some t.ctx)

/-- A sync record (R439). -/
def syncRec (s : State) (d why : Nat) : Nat :=
  1 + putField 360 8 why + putField 368 16 (s.die d).fMHz + putField 384 64 (s.die d).cycle
    + putField 448 64 s.time

/-- The next record stands at the start of the buffer again. -/
def Trace.wrapped (t : Trace) : Bool := t.len != 0 && t.ptr.toNat != 0 && t.ptr.toNat % (t.len * 1024) == 0 && t.wrap

/-- The sync record that is due before the next record: after a wrap, or when the delta would not fit (R439). -/
def State.syncDue (s : State) (d : Nat) : State :=
  let t := (s.die d).trace
  if t.wrapped then s.tracePut d (syncRec s d 4)
  else if s.time - t.last > 2 ^ 28 - 1 then s.tracePut d (syncRec s d 3)
  else s

/-- Write a sync record, after that of a wrap (R439). -/
def State.syncPut (s : State) (d why : Nat) : State :=
  let s := if (s.die d).trace.wrapped then s.tracePut d (syncRec s d 4) else s
  s.tracePut d (syncRec s d why)

/-- Write a record of a type, its delta filled in, after the sync record that is due (R439). -/
def State.traceRec (s : State) (d : Nat) (type body : Nat) : State :=
  if !(s.die d).trace.en then s
  else
    let s := s.syncDue d
    let t := (s.die d).trace
    s.tracePut d (type + putField 4 28 (s.time - t.last) + body)

/-- A number that the spec does not give (log entry 3), unless it is given. -/
def State.orFree (s : State) (v : Option Nat) : Nat × State :=
  match v with
  | some n => (n, s)
  | none =>
    let (bs, s) := s.drawBytes 8
    (natOfBytes bs, s)

/-- An event record (R439), when its kind is enabled. R439 states the argument of engine completions and faults only, and
an event that no warp makes has no pc, eseq or slot: what the spec does not state is free. -/
def State.traceEvent (s : State) (d code : Nat) (arg : Option Nat) (pc : Option Pc) (eseq : Option Word) (slot : Option Nat)
    (ctx : Nat) : State :=
  if (s.die d).trace.event (traceBit code) then
    let (arg, s) := s.orFree arg
    let (pc, s) := s.orFree (pc.map BitVec.toNat)
    let (eseq, s) := s.orFree (eseq.map BitVec.toNat)
    let (slot, s) := s.orFree slot
    s.traceRec d 3 (putField 312 16 code + putField 328 16 ctx + putField 344 17 slot + putField 361 32 eseq
      + putField 393 55 pc + putField 448 64 arg)
  else s

end Sys2Proof.Machine
end

