-- ==== Sys2Proof/Machine/Ops.lean ====
section
/-! DEFINITION. The shared operations: stamps, well words, rings and notices, fault records, completing engine
commands, ending tasks and grids, killing a context, and TAKING A FAULT (R426) with its rollback (R47), the return
from one beside it (R205). -/

namespace Sys2Proof.Machine

/-! ### Releases at locations (R301, R303, R308) -/

/-- The device of a core number; the parties of a peer count their cores from 800 times its number plus one on. -/
def coreDevice (core : Nat) : Nat := core / 800

/-- Does each of two parties lie in the other's instance of a scope (R301)? The device itself lies in the instances from device scope
on; parties of other devices are of one domain. -/
def sameInstance (scope : Nat) (x y : Option (Nat × Nat × Nat)) : Bool :=
  match x, y with
  | some a, some b =>
    match scope with
    | 0 => a.1 == b.1 && a.2.1 == b.2.1
    | 1 => a.1 == b.1
    | 2 => coreCluster a.2.2 == coreCluster b.2.2
    | 3 => coreDie a.2.2 == coreDie b.2.2
    | 4 => coreDevice a.2.2 == coreDevice b.2.2
    | _ => true
  | _, _ => 4 ≤ scope

/-- A warp as a party of releases and acquires. -/
def Warp.party (w : Warp) : Option (Nat × Nat × Nat) := some (w.uid, w.wid, w.core)

/-- The largest stamp of the releases that an acquire at a scope by a party synchronises with (R301, R303). -/
def relMet (rels : List Rel) (party : Option (Nat × Nat × Nat)) (scope : Nat) : Nat :=
  rels.foldl (fun n r => if sameInstance r.scope r.party party && sameInstance scope r.party party then max n r.stamp else n) 0

/-- The releases that a read of a location's value meets, at its home or in a core's L1. -/
def State.relsIn (s : State) (core : Option Nat) (a : Nat) : List Rel :=
  ((s.stamps.find? fun r => r.core == core && r.addr == a).map RelStamp.rels).getD []

def State.relsAt (s : State) (a : Nat) : List Rel := s.relsIn none a

/-- Set the releases of a location's value, at its home or in a core's L1: what earlier values carried is no longer read. A release
stamped below the present time raises no acquire time (R308), so it is forgotten. -/
def State.relSetIn (s : State) (core : Option Nat) (a : Nat) (rels : List Rel) : State :=
  let now (l : List Rel) : List Rel := l.filter fun r => s.time ≤ r.stamp
  let rest := (s.stamps.map fun r => { r with rels := now r.rels }).filter fun r => !(r.core == core && r.addr == a) && !r.rels.isEmpty
  { s with stamps := if (now rels).isEmpty then rest else { core := core, addr := a, rels := now rels } :: rest }

def State.relSet (s : State) (a : Nat) (rels : List Rel) : State := s.relSetIn none a rels

/-- The releases that values have taken along to their home, or to a core's L1 (R303). -/
def State.relsMove (s : State) (core : Option Nat) (rs : List RelStamp) : State :=
  rs.foldl (fun (s : State) r => s.relSetIn core r.addr r.rels) s

/-- The releases of the values that some bytes of a line hold, at their home or in a core's L1. -/
def State.relsOf (s : State) (core : Option Nat) (line : Nat) (mask : BitVec 64) : List RelStamp :=
  s.stamps.filter fun r => r.core == core && lineOf r.addr == line && mask.extractLsb' (r.addr % 64) 4 ≠ 0

/-- Add releases to those that stay at a location. -/
def State.relPut (s : State) (a : Nat) (rels : List Rel) : State := s.relSet a (rels ++ s.relsAt a)

/-- The release that a warp performed last, at a scope. -/
def State.relOf (s : State) (uid wid scope : Nat) : List Rel :=
  ((s.warp? uid wid).map fun w => [({ party := w.party, scope := scope, stamp := w.relStamp } : Rel)]).getD []

/-- The largest stamp that a warp's acquire at a scope meets at a location. -/
def State.relMetAt (s : State) (uid wid scope a : Nat) : Nat :=
  relMet (s.relsAt a) ((s.warp? uid wid).bind Warp.party) scope

/-! ### Wells (R402, R403) -/

/-- Key of a well word. -/
def wellKey (cluster well word : Nat) : Nat := (cluster * 96 + well) * 16384 + word

/-- Stamp location of a well word, apart from memory addresses. -/
def wellStampAt (key : Nat) : Nat := 2 ^ 70 + key

/-- Where the releases of `wfill` on a word are kept, which every later full/empty operation on it meets (R303 case 4). -/
def fillStampAt (key : Nat) : Nat := 2 ^ 71 + key

/-- The well word that a window offset of a block reaches (R403): its key; none under R44. -/
def Block.wellAt (b : Block) (off : Nat) : Option Nat :=
  match b.cluster, assocGet b.bank (off / 65536) with
  | some c, some e =>
    let g := off % 65536 / 4096
    if g < e.count then some (wellKey c e.well ((e.first + g) * 1024 + off % 4096 / 4)) else none
  | _, _ => none

/-- Does a range of window offsets lie wholly in mapped granules? -/
def Block.wellMapped (b : Block) (off n : Nat) : Bool :=
  (List.range (ceilDiv (off % 4096 + n) 4096)).all fun k => (b.wellAt (off / 4096 * 4096 + 4096 * k)).isSome

/-- Set a well word; any write clears its poison tag (R232). -/
def State.wellPut (s : State) (key : Nat) (v : Word) : State :=
  { s with wells := cset s.wells key v, wellPoison := cset s.wellPoison key 0, wellBad := cset s.wellBad key 0 }

def State.wellGet (s : State) (key : Nat) : Word := cget s.wells key
def State.wellIsFull (s : State) (key : Nat) : Bool := cget s.wellFull key == 1
def State.wellSetFull (s : State) (key : Nat) (f : Bool) : State :=
  { s with wellFull := cset s.wellFull key (if f then 1 else 0) }

/-- Bytes of a block's well window. -/
def State.wellBytes (s : State) (b : Block) (off n : Nat) : List Byte :=
  (List.range n).map fun i =>
    match b.wellAt (off + i) with
    | some k => (s.wellGet k).extractLsb' (8 * ((off + i) % 4)) 8
    | none => 0

/-- Is a word the tail of an open ring, which only the network interface writes: a write of a program to it is ignored (R10,
R256)? -/
def State.isTail (s : State) (key : Nat) : Bool := s.rings.any fun r => wellKey r.cluster r.well (r.word + 1) == key

/-- A program's write of a well word. -/
def State.wellPutSoft (s : State) (key : Nat) (v : Word) : State := if s.isTail key then s else s.wellPut key v

/-- Write one byte of a well word. -/
def State.wellByte (s : State) (key pos : Nat) (v : Byte) : State :=
  let w := s.wellGet key
  s.wellPutSoft key ((w &&& ~~~((0xFF#32) <<< (8 * pos))) ||| (v.setWidth 32 <<< (8 * pos)))

/-- Write bytes of a block's well window. -/
def State.wellWrite (s : State) (b : Block) (off : Nat) : List Byte → State
  | [] => s
  | v :: vs =>
    let s : State :=
      match b.wellAt off with
      | some k => s.wellByte k (off % 4) v
      | none => s
    s.wellWrite b (off + 1) vs

/-! ### Messaging rings and notices (R256 to R258, R428) -/

def State.ring? (s : State) (cluster num : Nat) : Option Ring :=
  s.rings.find? fun r => r.cluster == cluster && r.num == num

def Ring.key (r : Ring) (k : Nat) : Nat := wellKey r.cluster r.well (r.word + k)
def State.ringHead (s : State) (r : Ring) : Word := s.wellGet (r.key 0)
def State.ringTail (s : State) (r : Ring) : Word := s.wellGet (r.key 1)
def State.ringCap (s : State) (r : Ring) : Nat := (s.wellGet (r.key 2)).toNat

/-- Is one of the words that the network interface or a waiting receiver reads beyond correction (R402)? -/
def State.ringBad (s : State) (r : Ring) : Bool := (List.range 3).any fun k => cget s.wellBad (r.key k) == 1

/-- Is there room for a message (R258)? -/
def State.ringRoom (s : State) (r : Ring) : Bool := (s.ringTail r - s.ringHead r).toNat < s.ringCap r

/-- Make the threads of a mask that are parked for a reason ready, in the core and, for a warp that is off it, in the
save area too (R183, R351). -/
def State.wakeWhere (s : State) (uid wid : Nat) (p : Nat → Thread → Bool) : State :=
  match s.warp? uid wid, s.block? uid with
  | some w, some b =>
    let ls := lanes.filter fun l => p l (w.thread l)
    let w' := w.modThreads (maskOf ls) fun _ t => { t with st := if t.marker then .parked .marker else .ready, marker := false, bind := none }
    let w' := if w'.outstanding = 0 then w'.modThreads (maskOf ls) fun _ t => { t with st := .ready } else w'
    let s := s.setWarp w'
    if w.resident then s else ls.foldl (fun s l => s.saveWake b wid l) s
  | _, _ => s

/-- Make every thread of a warp parked for a reason ready. -/
def State.wake (s : State) (uid wid : Nat) (r : Reason) : State :=
  s.wakeWhere uid wid fun _ t => t.st == .parked r

/-- Append a message of 64 bytes to an open ring with room (R258). Waiting receivers are looked at again by the
issue of their `rwait`. -/
def State.ringAppend (s : State) (r : Ring) (msg : List Byte) (rel : Rel) : State :=
  let tail := s.ringTail r
  let slot := 16 + 16 * (tail.toNat % s.ringCap r)
  let s : State := (List.range 16).foldl (fun s k =>
    s.wellPut (r.key (slot + k)) (BitVec.ofNat 32 (natOfBytes ((msg.drop (4 * k)).take 4)))) s
  let s := s.wellPut (r.key 1) (tail + 1)
  let s := s.relPut (wellStampAt (r.key 1)) [rel]
  { s with
    rings := replaceIf (fun x => x.cluster == r.cluster && x.num == r.num)
      (fun x => { x with stamp := max x.stamp rel.stamp }) s.rings }

def NoticeKind.code : NoticeKind → Nat
  | .fault => 1 | .migration => 2 | .overflow => 3 | .killed => 4

/-- The ring that hnote names, over the device (R423). -/
def Ctx.noticeRing (c : Ctx) : Nat × Nat :=
  let h := c.hnote.toNat
  (h / 32 % 4 * 25 + h % 32, h / 256 % 16)

/-- Append the context's waiting notices while their ring is open and has room (R428). -/
def State.flushNotices (s : State) (ctx : Nat) : State :=
  (s.ctx ctx).notices.foldl (fun s n =>
    match s.ring? (s.ctx ctx).noticeRing.1 (s.ctx ctx).noticeRing.2 with
    | some r =>
      if s.ringRoom r then
        let msg := bytesOfNat 64 (n.1.code + putField 16 16 ctx + putField 32 32 n.2.toNat)
        (s.ringAppend r msg { party := none, scope := 4, stamp := s.time }).modCtx ctx fun c => { c with notices := c.notices.filter fun x => x.1 != n.1 }
      else s
    | none => s.modCtx ctx fun c => { c with notices := c.notices.filter fun x => x.1 != n.1 }) s

/-- Append what waits of every context's notices: a ring may have room again (R428). -/
def State.flushAll (s : State) : State :=
  s.ctxs.foldl (fun (s : State) c => if c.notices.isEmpty then s else s.flushNotices c.id) s

/-- Queue a notice, joining one of its kind that waits, and append what can be (R428). -/
def State.notice (s : State) (ctx : Nat) (k : NoticeKind) (v : Word) : State :=
  (s.modCtx ctx fun c => { c with notices := (c.notices.filter fun x => x.1 != k) ++ [(k, v)] }).flushNotices ctx

/-! ### Forwarded requests (R417) -/

/-- A request to a far, host or peer page is counted, unless the page is trace-pinned (R417). -/
def State.forward (s : State) (core ctx va loc pa : Nat) (tpin : Bool) : State :=
  if (loc = locFar ∨ loc = locHost ∨ loc = locPeer) ∧ !tpin then
    s.send (.fwd ctx va loc (pa / 2 ^ 52) (coreDie core))
  else s

/-- Requests for the lines of a range, translated through these units; those that leave the device's own memory are counted (R415,
R417). -/
def State.forwardLines (s : State) (core ctx va n : Nat) (need : Need := .read) (units : List TlbUnit := []) : State :=
  (List.range n).foldl (fun (s : State) k =>
    match s.xlat units ctx (va + 64 * k) need with
    | (.ok x, s) => s.forward core ctx (va + 64 * k) x.loc x.pa x.tpin
    | (.error _, s) => s) s

/-! ### The device's own stores (R200, R423) -/

/-- A flag-class store of the device at device scope: a strong store without a release. -/
def State.flagStore (s : State) (pa : Nat) (bs : List Byte) : State := (s.homeBytes pa bs).relSet pa []

/-- Write a context's FQOVF or DEPUSE in its record (R423). -/
def State.ctxRecord32 (s : State) (ctx off : Nat) (v : Word) : State :=
  s.flagStore (s.plat.ctxbase.toNat + 1024 * ctx + off) (wordBytes v)

/-- FQOVF: the warps stalled for want of a holding slot (R427), with the notice of its rise from zero (R428). -/
def State.setFqovf (s : State) (ctx : Nat) (v : Word) : State :=
  let was := (s.ctx ctx).fqovf
  let s : State := (s.modCtx ctx fun c => { c with fqovf := v }).ctxRecord32 ctx 76 v
  if was = 0 ∧ v ≠ 0 then s.notice ctx .overflow v else s

/-- A stalled warp no longer waits for a slot: it is served, or ends (R427). -/
def State.unqueue (s : State) (w : Warp) (ctx : Nat) : State :=
  if w.faultStall.isSome then
    (s.setFqovf ctx ((s.ctx ctx).fqovf - 1)).modWarp w.uid w.wid fun w => { w with faultStall := none, stall := false }
  else s

/-! ### Fault and migration rings (R421) -/

/-- A usable ring: header address and its fields. -/
structure RingHdr where
  va : Nat
  pa : Nat
  base : Nat
  lg : Nat
  head : Nat
  tail : Nat
  lost : Nat
  deriving DecidableEq, Repr

/-- Does every page of a range translate with write permission in a context's tables? -/
def State.rangeWritable (s : State) (ctx va n : Nat) : Bool :=
  (List.range (ceilDiv (va % 65536 + n) 65536)).all fun k =>
    match (s.xlat [] ctx (va / 65536 * 65536 + 65536 * k) .write).1 with
    | .ok _ => true
    | .error _ => false

/-- The header of a ring in the handler context's tables; none when the ring is unusable (R421, R423). -/
def State.ringHdr (s : State) (hctx : Nat) (va : BitVec 64) : Option RingHdr :=
  let h := s.ctx hctx
  if va = 0 ∨ !h.created ∨ !h.priv ∨ h.dead ∨ va.toNat % 64 ≠ 0 then none
  else
    match (s.xlat [] hctx va.toNat .write).1 with
    | .error _ => none
    | .ok x =>
      let v := readNat s.mem x.pa 64
      let r : RingHdr := { va := va.toNat, pa := x.pa, base := fieldOf v 0 64, lg := fieldOf v 64 4, head := fieldOf v 160 32,
                           tail := fieldOf v 128 32, lost := fieldOf v 192 32 }
      if r.lg < 4 ∨ r.base % 64 ≠ 0 ∨ !s.rangeWritable hctx r.base (64 * 2 ^ r.lg) then none else some r

def RingHdr.full (r : RingHdr) : Bool := (r.tail + 2 ^ 32 - r.head) % 2 ^ 32 ≥ 2 ^ r.lg

/-- Write a record and advance tail with a release at device scope (R421): the new tail. Its reading of the header and its two writes
are requests of the core's die (R417). -/
def State.ringWrite (s : State) (core hctx : Nat) (r : RingHdr) (body : Nat) : State × Nat :=
  let tail := (r.tail + 1) % 2 ^ 32
  let at' := r.base + 64 * (r.tail % 2 ^ r.lg)
  match (s.xlat [] hctx at' .write).1 with
  | .ok x =>
    let s := s.homeBytes x.pa (bytesOfNat 64 body)
    let s := s.homeBytes (r.pa + 16) (bytesOfNat 4 tail)
    let s := ((s.forwardLines core hctx r.va 1).forwardLines core hctx at' 1 .write).forwardLines core hctx r.va 1 .write
    (s.relSet (r.pa + 16) [{ party := none, scope := 4, stamp := s.time }], tail)
  | .error _ => (s, r.tail)

/-- The 64 bytes of a fault record, as a number (R424). -/
def FaultRec.bits (r : FaultRec) : Nat :=
  r.code.toNat + putField 15 1 r.held.toNat + putField 16 16 r.aux + putField 39 2 r.src + putField 41 4 r.cause
    + putField 45 3 r.acc + putField 48 2 r.level + putField 50 16 r.gen + putField 66 16 r.ctx + putField 82 32 r.bid
    + putField 114 5 r.wid + putField 119 17 r.slot + putField 136 32 r.eseq.toNat + putField 168 16 r.rseq.toNat
    + putField 184 32 r.lanes.toNat + putField 216 55 r.pc.toNat + putField 271 55 r.rentry.toNat
    + putField 326 3 r.oclass + putField 329 3 r.okind + putField 332 17 r.oslot + putField 349 12 r.odev
    + putField 361 32 r.onum.toNat + putField 393 55 r.opc.toNat + putField 448 64 r.addr.toNat

/-! ### Engine commands and tokens (R39, R240) -/

/-- The status word of a completed command (R39). -/
def statusWord (eseq : Word) (fault status : Nat) : Word :=
  BitVec.ofNat 32 (status + putField 8 8 fault + putField 16 16 eseq.toNat)

/-- Address of a carried uniform register in a descheduled block's phase record (R190, R191). -/
def State.phaseSreg (s : State) (b : Block) (wid reg : Nat) : Option Nat :=
  match b.phase with
  | none => none
  | some p =>
    if reg < p.sb ∨ reg ≥ p.sb + 16 ∨ !p.smask.getLsbD (reg - p.sb) then none
    else
      let per := roundLine (128 * popCount p.vmask + 4 * popCount p.smask)
      let k := ((List.range (reg - p.sb)).filter fun i => p.smask.getLsbD i).length
      s.savePa b (128 + roundLine (16 * b.nwarps) + wid * per + 128 * popCount p.vmask + 4 * k)

/-- Give a warp the status word of its token, wherever the warp is (R39, R51, R190). -/
def State.putToken (s : State) (uid wid reg : Nat) (v : Word) (eng : Nat) : State :=
  let s := s.modWarp uid wid fun w =>
    { (w.sset reg v) with tokens := w.tokens.map fun t => if t.eng = eng then { t with done := true } else t }
  match s.warp? uid wid, s.block? uid with
  | some w, some b =>
    match b.st with
    | .phase _ =>
      match s.phaseSreg b wid reg with
      | some pa => { s with mem := writeNat s.mem pa 4 v.toNat }
      | none => s
    | _ => if w.resident then s else s.saveToken b wid reg v
  | _, _ => s

/-- Complete an engine command: its status word, its token, and the release of its writes (R39, R303 case 5). -/
def State.completeEngine (s : State) (id status fault : Nat) : State :=
  match s.engine? id with
  | none => s
  | some e =>
    if e.st == .done then s
    else
      let v := statusWord e.eseq fault status
      let s := s.modEngine id fun e =>
        { e with st := .done, status := v, stamp := s.time, close := if e.token.isNone then some s.time else e.close }
      let s := s.traceEvent (coreDie e.core) 5 (some v.toNat) (some e.pc) (some e.eseq) (some e.lslot) e.ctx
      match e.token with
      | some reg => s.putToken e.uid e.wid reg v id
      | none => s

/-! ### Tasks (R200 to R202, R361) -/

/-- Write the device's fields of a task record, where it can be translated and written (R200): one request of the queue's home die
(R417). -/
def State.taskWrite (s : State) (t : Task) : State :=
  match (s.xlat [] t.ctx t.recordAt.toNat .write).1 with
  | .error _ => s
  | .ok x =>
    let s := s.forward (200 * (t.queue / 16)) t.ctx t.recordAt.toNat x.loc x.pa x.tpin
    let s := s.flagStore (x.pa + 28) (bytesOfNat 4 t.index)
    let s := s.flagStore (x.pa + 24) (bytesOfNat 4 t.pend)
    let lo := readNat s.mem (x.pa + 20) 4
    -- bytes 20 to 23 hold bits 191:160: state in 167:160, prio in 169:168, queue in 175:170, extra in 191:176
    let lo := lo / 65536 * 65536 + t.queue % 64 * 1024 + lo % 1024 / 256 * 256 + t.state % 256
    s.flagStore (x.pa + 20) (bytesOfNat 4 lo)

/-- Cycles of a task queue's home die (R358). -/
def State.homeCycle (s : State) (queue : Nat) : Nat := (s.die (queue / 16)).cycle

/-- End a task (R202, R361): state 4, or 5 with a code; its successors lose one from their counts in the same cycle,
and those that reach zero after an aborted predecessor end in turn. `fuel` bounds the chain. -/
def taskEnd : Nat → State → Nat → Nat → Option Byte → State
  | 0, s, _, _, _ => s
  | fuel + 1, s, q, i, abort =>
    match s.task? q i with
    | none => s
    | some t =>
      if t.state ≥ 4 then s
      else
        let t := { t with state := if abort.isSome then 5 else 4, ranges := [] }
        let s := s.modTask q i fun _ => t
        let s := s.taskWrite t
        let s : State :=
          match t.token, t.wait with
          | some e, true =>
            s.completeEngine e (if abort.isSome then 1 else 0) ((abort.map BitVec.toNat).getD 0)
          | _, _ => s
        t.succs.foldl (fun s j =>
          match s.task? q j with
          | none => s
          | some u =>
            if u.state ≠ 1 then s
            else
              let u := { u with pend := u.pend - 1, stamp := max u.stamp s.time,
                                predAbort := match u.predAbort, abort with
                                  | none, some c => some c
                                  | p, _ => p }
              if u.pend ≠ 0 then (s.modTask q j fun _ => u).taskWrite u
              else
                match u.predAbort with
                | some c =>
                  let s : State := (s.modTask q j fun _ => u).taskWrite u
                  taskEnd fuel s q j (some c)
                | none =>
                  let u := { u with state := 2, readyAt := s.time, readyCyc := s.homeCycle q }
                  (s.modTask q j fun _ => u).taskWrite u) s

/-! ### Ending warps, blocks and grids -/

/-- Close the warp's open interval: its entry in the ring (R307, R309, R311). `far`: close time, if known. -/
def Warp.pushInterval (w : Warp) (near : Nat) (far : Option Nat) (phase : Nat) : Warp :=
  { w with ring := ({ num := w.iseq, closeNear := near, closeFar := far, opc := w.opc.getD 0, phase := if w.opc.isSome then w.openPhase else phase } ::
              w.ring).take 64,
           iseq := w.iseq + 1, opc := none }

/-- A former slot's ring with the intervals that the warp has ended since (R392). -/
def ringJoin (ring own : List Interval) : List Interval :=
  ((own.filter fun i => !ring.any fun x => x.num == i.num) ++ ring).take 64

/-- A warp leaves its slot for good: its ring stays reachable (R392), its slot and registers return (R350). -/
def State.leaveSlot (s : State) (w : Warp) : State :=
  let s := s.unqueue w (s.warpCtx w)
  let fs : List FormerRing := s.formers.map fun (f : FormerRing) =>
    if f.uid = w.uid ∧ f.wid = w.wid then { f with ring := ringJoin f.ring w.ring } else f
  let s := { s with formers := { slot := w.lslot, uid := w.uid, wid := w.wid, ring := w.ring, last := w.iseq, ctx := s.warpCtx w } :: fs }
  s.setWarp { w with resident := false, released := true, faultStall := none, bundle := none, vregs := [], sregs := [], preds := [],
                     ring := [] }

/-- Messages that a warp's unperformed accesses have under way are withdrawn. -/
def State.dropWarpMsgs (s : State) (uid : Nat) : State :=
  { s with msgs := s.msgs.filter fun m =>
      match m.kind with
      | .strong r => r.uid != uid
      | .well r => r.uid != uid
      | .check a _ => a.party.uid != uid || a.party.eng.isSome
      | .checkAck u _ _ _ _ _ => u != uid
      | _ => true }

/-- End a block at once, as an abort does (R432 steps 1 and 2): its warps stop, its loads are discarded, its engine
commands complete with status 1 and the code, its rings close and its wells return (R259, R350). -/
def State.endBlock (s : State) (uid : Nat) (code : Byte) : State :=
  match s.block? uid with
  | none => s
  | some b =>
    if b.st == .retired then s
    else
      let s := s.dropWarpMsgs uid
      let s := { s with owed := s.owed.filter fun o => o.uid != uid, gives := s.gives.filter fun g => g.uid != uid,
                        ringWaits := s.ringWaits.filter fun r => r.uid != uid,
                        rings := s.rings.filter fun r => r.uid != uid,
                        spills := s.spills.filter fun p => p.uid != uid }
      let s := s.modCores fun c => { c with takes := c.takes.filter fun t => t.uid != uid }
      let s : State := (s.engines.filter fun e => e.uid == uid && !(e.st == .done)).foldl
        (fun s e => s.completeEngine e.id 1 code.toNat) s
      let busy (id : Nat) : Bool := s.engines.any fun e => e.id == id && !(e.st == .done)
      let s := s.modCores fun c => { c with matq := c.matq.filter busy }
      let s := (s.warpsOf uid).foldl (fun (s : State) (w : Warp) =>
        if w.released then s
        else
          let w : Warp := { w with threads := w.threads.map fun t => { t with st := .exited }, outstanding := 0, held := false }
          s.leaveSlot (w.pushInterval s.time (some s.time) (s.ctx b.ctx).phase)) s
      let s := s.modEngines (fun e => e.uid == uid && e.close.isNone) fun e => { e with close := some s.time }
      s.modBlock uid fun b => { b with st := .retired, bank := [], merge := none, tiles := [], accs := [], streams := [],
                                       tags := [], cvs := [], bars := [] }

/-- Write the completion word of a host command (R475): status and fault code, with a release at system scope, and the
completion interrupt if it was asked for. -/
def State.hostDone (s : State) (at' : Nat) (irq : Bool) (ctx status code : Nat) : State :=
  let s := (s.homeBytes at' (bytesOfNat 8 (status + 256 * code))).relSet at' [{ party := none, scope := 6, stamp := s.time }]
  if irq then s.interrupt 0 (some ctx) else s

/-- Abort a grid (R432): its blocks, its child grids, its task and its tokens; the abort records, oldest first, and
for a grid of depth 0 the report to the driver (R476). `fuel` bounds the depth of children. -/
def abortGrid : Nat → State → Nat → Byte → State × List FaultRec
  | 0, s, _, _ => (s, [])
  | fuel + 1, s, gid, code =>
    match s.grid? gid with
    | none => (s, [])
    | some g =>
      if g.st == .retired || g.st == .aborted then (s, [])
      else
        let s := s.modGrid gid fun g => { g with st := .aborted, abortCode := code }
        let s : State := (s.blocks.filter fun b => b.gid == gid).foldl (fun s b => s.endBlock b.uid code) s
        let (s, recs) := (s.grids.filter fun c => c.parent == some gid).foldl
          (fun (x : State × List FaultRec) c =>
            let (s, rs) := abortGrid fuel x.1 c.gid code
            (s, x.2 ++ rs)) (s, [])
        let s : State :=
          match g.task with
          | some (q, i) => taskEnd (s.tasks.length + 1) s q i (some code)
          | none => s
        let s : State :=
          match g.token, g.wait || g.st == .queued with
          | some e, true => s.completeEngine e 1 code.toNat
          | _, _ => s
        let s : State :=
          match g.host, g.st == .queued with
          | some (at', irq), true => s.hostDone at' irq g.ctx 1 code.toNat
          | _, _ => s
        let s := if g.depth = 0 then s.interrupt 1 (some g.ctx) else s
        let r0 : FaultRec :=
          { ctx := g.ctx, gen := (s.ctx g.ctx).gen, code := code, src := 3, okind := if g.task.isSome then 5 else 0,
            onum := match g.task with | some (_, i) => BitVec.ofNat 32 i | none => 0 }
        (s, recs ++ [r0])

/-- Write the device's own RO fields of a context's record: gen, the dead bit, FQOVF, and the reserved fields as zero (R423). -/
def State.ctxRo (s : State) (ctx : Nat) : State :=
  let at' := s.plat.ctxbase.toNat + 1024 * ctx
  let c := s.ctx ctx
  let own (k : Nat) : Byte :=
    if k = 0 ∧ c.dead then 0x80
    else if 76 ≤ k ∧ k < 80 then c.fqovf.extractLsb' (8 * (k - 76)) 8
    else if k = 88 ∨ k = 89 then BitVec.ofNat 8 (c.gen / 256 ^ (k - 88))
    else 0
  ctxRoBytes.foldl (fun (s : State) x =>
    { s with mem := cset s.mem (at' + x.1) ((cget s.mem (at' + x.1) &&& ~~~x.2) ||| (own x.1 &&& x.2)) }) s

/-- The records of a core that wait: in its slots, and those beyond them (log entry 88). -/
def Core.waiting (c : Core) : List FaultRec := c.holding ++ c.late

/-- Records that wait beyond the slots enter the free ones, oldest first (R427). -/
def Core.promote (c : Core) : Core :=
  { c with holding := c.holding ++ c.late.take (16 - c.holding.length), late := c.late.drop (16 - c.holding.length) }

/-- Serve the longest-stalled warps of a core, one for each free holding slot: each takes its fault afresh (R427). -/
def retake : Nat → State → Nat → State
  | 0, s, _ => s
  | n + 1, s, core =>
    match bestBy (fun (x y : Warp) => x.faultStall.getD 0 < y.faultStall.getD 0)
        (s.warps.filter fun w => w.core == core && w.resident && !w.released && w.faultStall.isSome) with
    | none => s
    | some w => retake n (s.unqueue w (s.warpCtx w)) core

/-- Discard a context's records that wait at a core, and serve the warps that waited for their slots (R427). -/
def State.discardHeld (s : State) (core ctx : Nat) : State :=
  if (s.core core).waiting.any fun r => r.ctx == ctx then
    let s := s.modCore core fun c =>
      ({ c with holding := c.holding.filter fun r => r.ctx != ctx, late := c.late.filter fun r => r.ctx != ctx } : Core).promote
    retake (16 - (s.core core).holding.length) s core
  else s

/-- Kill a context (R432, R423): every grid and task aborts, dead is set, gen rises, held records are discarded, and a
notice of kind 4 is due (R428). -/
def State.killContext (s : State) (ctx : Nat) (code : Byte) : State × List FaultRec :=
  let (s, recs) := (s.grids.filter fun g => g.ctx == ctx).foldl
    (fun (x : State × List FaultRec) g =>
      let (s, rs) := abortGrid 12 x.1 g.gid code
      (s, x.2 ++ rs)) (s, [])
  let s : State := (s.tasks.filter fun t => t.ctx == ctx).foldl
    (fun s t => taskEnd (s.tasks.length + 1) s t.queue t.index (some code)) s
  let s := s.modCtx ctx fun c => { c with dead := true, gen := (c.gen + 1) % 65536, fqovf := 0 }
  let s := s.ctxRo ctx
  let s := s.cores.foldl (fun (s : State) c => s.discardHeld c.id ctx) s
  (s.notice ctx .killed 0, recs)

/-! ### Where a record goes (R427, R513) -/

/-- Count a use of a legacy form (R207, R449): DEPUSE, which the context's record holds, saturating, and the advisory interrupt that
DEPCTL selects. -/
def State.countLegacy (s : State) (ctx : Nat) : State :=
  let c := s.ctx ctx
  let cur : Word := BitVec.ofNat 32 (readNat s.mem (s.plat.ctxbase.toNat + 1024 * ctx + 72) 4)
  let n := if cur = BitVec.allOnes 32 then cur else cur + 1
  let mode := c.depctl.toNat % 4
  let k := c.depctl.toNat / 8 % 32
  let raise := (mode == 1 && cur == 0) || (mode == 2 && n != cur && n.toNat % 2 ^ k == 0)
  let s := s.ctxRecord32 ctx 72 n
  if raise then s.interrupt 3 (some ctx) else s

/-- A record that its context's ring cannot take kills the context with the record's code; the abort records of that
kill are discarded (R513). -/
def State.undeliverable (s : State) (r : FaultRec) : State :=
  if (s.ctx r.ctx).dead then s else (s.killContext r.ctx r.code).1

/-- Take a waiting record away; one that waited beyond the slots enters a free one (R427). -/
def Core.unhold (c : Core) (r : FaultRec) : Core :=
  if c.holding.contains r then ({ c with holding := c.holding.erase r } : Core).promote else { c with late := c.late.erase r }

/-- Move waiting records of a core to their context's ring while it has room, oldest first (R427); one that cannot reach the ring
at all kills the context (R513). -/
def drainCore : Nat → State → Nat → Nat → State
  | 0, s, _, _ => s
  | fuel + 1, s, core, ctx =>
    match (s.core core).waiting.find? fun r => r.ctx == ctx with
    | none => s
    | some r =>
      let c := s.ctx ctx
      match s.ringHdr c.hctx c.fring with
      | none => s.undeliverable r
      | some h =>
        if h.full then s.forwardLines core c.hctx h.va 1
        else
          let (s, tail) := s.ringWrite core c.hctx h r.bits
        drainCore fuel ((s.modCore core fun k => k.unhold r).notice ctx .fault (BitVec.ofNat 32 tail)) core ctx

/-- REREAD a context's ring (R427): every core's waiting records of the context go to it while it has room, and the warps that
waited for a slot are served. -/
def State.reread (s : State) (ctx : Nat) : State :=
  s.cores.foldl (fun (s : State) c =>
    if (s.core c.id).waiting.any fun r => r.ctx == ctx then
      let s := drainCore ((s.core c.id).waiting.length + 1) s c.id ctx
      retake (16 - (s.core c.id).holding.length) s c.id
    else s) s

/-- Send a record to its context's fault ring, or to a holding slot of the core; none when every slot is taken and the
record may wait (R427, R513). A report on which nothing waits then waits beyond the slots (log entry 88). -/
def State.putRecord (s : State) (core : Nat) (r : FaultRec) (mayWait : Bool) : Option State :=
  let c := s.ctx r.ctx
  let s := s.reread r.ctx
  match s.ringHdr c.hctx c.fring with
  | none => some (s.undeliverable r)
  | some h =>
    if !h.full ∧ !((s.core core).waiting.any fun x => x.ctx == r.ctx) then
      let (s, tail) := s.ringWrite core c.hctx h r.bits
      some (s.notice r.ctx .fault (BitVec.ofNat 32 tail))
    else if (s.core core).holding.length < 16 then
      some ((s.forwardLines core c.hctx h.va 1).modCore core fun k => { k with holding := k.holding ++ [{ r with held := true }] })
    else if mayWait then none
    else some ((s.forwardLines core c.hctx h.va 1).modCore core fun k => { k with late := k.late ++ [{ r with held := true }] })

/-- A record on which nothing waits (R424 src 2 and 3). -/
def State.report (s : State) (core : Nat) (r : FaultRec) : State := (s.putRecord core r false).getD s

def State.reports (s : State) (core : Nat) (rs : List FaultRec) : State := rs.foldl (fun s r => s.report core r) s

/-- A command's record when it has ended with status 1: nothing waits on it (R424, R426). -/
def State.endRecord (s : State) (e : Engine) : FaultRec :=
  { code := BitVec.ofNat 8 (e.status.toNat / 256), src := 2, pc := e.pc, lanes := e.lanes, eseq := e.eseq, slot := e.lslot,
    wid := e.wid, bid := ((s.block? e.uid).map Block.bid).getD 0, ctx := e.ctx, gen := e.gen }

/-- Record every command that has ended with status 1 since `s0` (R426). -/
def State.reportFailed (s0 s : State) : State :=
  (s.engines.filter fun e => e.st == .done && e.status.toNat % 256 == 1
      && s0.engines.any fun x => x.id == e.id && !(x.st == .done)).foldl (fun s e => s.report e.core (s.endRecord e)) s

/-! ### Rollback and taking a fault (R47, R426) -/

/-- `n` free bits, from free bytes at a draw (log entry 3). -/
def freeBits (draw at' n : Nat) : Nat :=
  natOfBytes ((List.range (ceilDiv n 8)).map fun k => Config.freeByte draw (at' + k)) % 2 ^ n

/-- Does a fault or an eviction take a thread back over instructions that it has performed in its region instance? -/
def Thread.goesBack (t : Thread) : Bool := !(t.newRegion && !t.redo) && !(t.rgBad.isEmpty && t.rgStore.isEmpty)

/-- A register that a rolled-back thread of lane `l` has read and then written in its region holds a free value (R300, log
entry 74). -/
def State.freeReg (s : State) (uid wid l draw : Nat) (x : Nat × Nat) : State :=
  let at' := 2 ^ 20 * (256 * x.1 + x.2) + 2 ^ 15 * l
  let word : Word := BitVec.ofNat 32 (freeBits draw at' 32)
  match x.1 with
  | 0 => s.modWarp uid wid fun w => w.vset x.2 l word
  | 1 => s.modWarp uid wid fun w => w.sset x.2 (BitVec.ofNat 32 (freeBits draw (2 ^ 20 * (256 + x.2)) 32))
  | 2 => s.modWarp uid wid fun w => w.pset x.2 (setBit (w.pget x.2) l (word.getLsbD 0))
  | 3 => s.modBlock uid fun b =>
    { b with tiles := cput b.tiles (4096 * x.2) ((List.range 4096).map fun i => BitVec.ofNat 16 (freeBits draw (at' + 2 * i) 16)) }
  | 4 => s.modBlock uid fun b =>
    { b with accs := cput b.accs (4096 * x.2) ((List.range 4096).map fun i => BitVec.ofNat 32 (freeBits draw (at' + 4 * i) 32)) }
  | 5 => s.modBlock uid fun b =>
    { b with streams := cput b.streams (32 * x.2) ((List.range 32).map fun i => BitVec.ofNat 1024 (freeBits draw (at' + 128 * i) 1024)) }
  | _ => s

/-- A byte of memory or of a well that a rolled-back thread has loaded and then stored to holds a free value, wherever a copy of
it stands (R300, log entry 74). -/
def State.freeAt (s : State) (draw place : Nat) : State :=
  let v := Config.freeByte draw place
  if 2 ^ 70 ≤ place then s.wellByte ((place - 2 ^ 70) / 4) (place % 4) v
  else
    let line := lineOf place
    let s := s.modCores fun c =>
      { c with l1 := c.l1.map fun (x : L1Line) => if x.line = line then { x with data := setLineByte x.data (place % 64) v } else x }
    let ms : List Msg := s.msgs.map fun (m : Msg) =>
      match m.kind with
      | .wb x => if x.line = line then { m with kind := .wb { x with data := setLineByte x.data (place % 64) v } } else m
      | _ => m
    { s with msgs := ms, mem := cset (w := 8) s.mem place v }

/-- What the rollback of a warp's threads leaves unspecified (R300): a free value for each register and byte that its regions
have read and then written. `back`: the threads that roll back. -/
def State.unspecify (s : State) (uid wid : Nat) (back : Thread → Bool) : State :=
  match s.warp? uid wid with
  | none => s
  | some w =>
    let ls := lanes.filter fun l => back (w.thread l) && (w.thread l).goesBack
    if ls.isEmpty then s
    else
      let n := s.freeCtr
      let s := ls.foldl (fun (s : State) l =>
        let s := ((w.thread l).rgBad).foldl (fun (s : State) x => s.freeReg uid wid l n x) s
        ((w.thread l).rgStore).foldl (fun (s : State) a => s.freeAt n a) s) s
      { s with freeCtr := n + 1 }

/-- A thread that has performed nothing yet of its region instance (R300). -/
def Thread.fresh (t : Thread) : Thread := { t with rgRead := [], rgBad := [], rgWrote := [], rgLoad := [], rgStore := [] }

/-- Return a thread to its region entry (R47). A thread whose last instruction ended its region, and was performed,
stays at the next instruction, which is its region entry (R59, R298). -/
def Thread.rollback (t : Thread) : Thread :=
  if t.newRegion && !t.redo then
    { t.fresh with rentry := t.pc, rseq := t.rseq + 1, newRegion := false, reenter := true, landed := true, age := 0,
                   runWr := [] }
  else { t.fresh with pc := t.rentry, newRegion := false, redo := false, reenter := true, landed := true, age := 0,
                      runWr := [] }

/-- Mark the sampled instruction of a warp, if its record is not written yet (R440). -/
def State.sampleMark (s : State) (w : Warp) (f : Sample → Sample) : State :=
  if (s.core w.core).scheds.any fun x => x.samples.any fun p => p.slot == w.lslot then
    s.modCore w.core fun c =>
      { c with scheds := c.scheds.map fun (x : Scheduler) =>
          { x with samples := x.samples.map fun p => if p.slot = w.lslot then f p else p } }
  else s

/-- A place has served an access of a sampled instruction (R440): by the name of the result owed. -/
def State.servedBy (s : State) (core name level : Nat) : State :=
  if (s.core core).scheds.any fun x => x.samples.any fun p => p.name ≤ name then
    s.modCore core fun c =>
      { c with scheds := c.scheds.map fun (x : Scheduler) =>
          { x with samples := x.samples.map fun p =>
              if p.name ≤ name ∧ p.upto.all (fun n => name < n) then { p with levels := p.levels ++ [level] } else p } }
  else s

/-- The loads in flight of a warp are discarded, results already computed are written, and its counter is zero (R47). -/
def State.discardLoads (s : State) (uid wid : Nat) : State :=
  let mine := s.owed.filter fun o => o.uid == uid && o.wid == wid && !o.strong
  -- a waiting `ldfe` goes on for the threads it has not served (R426)
  let waits : List Owed := (mine.filter fun o => o.dst.isSome && !o.lanes.isEmpty).map fun (o : Owed) =>
    { o with writes := [], counted := false }
  let os : List Owed := (s.owed.filter fun o => !(o.uid == uid && o.wid == wid && !o.strong)) ++ waits
  let s : State := { s with owed := os }
  let s := s.modCores fun c =>
    { c with takes := c.takes.map fun t => if t.uid = uid ∧ t.wid = wid then { t with counted := false } else t }
  s.modWarp uid wid fun w =>
    { (mine.foldl (fun (w : Warp) (o : Owed) => w.puts o.writes) w) with outstanding := 0, bundle := none }

/-- Are strong accesses of the warp still under way (R215)? -/
def State.strongBusy (s : State) (uid wid : Nat) : Bool :=
  (s.owed.any fun o => o.uid == uid && o.wid == wid && o.strong)
    || s.msgs.any fun m =>
      match m.kind with
      | .strong r => r.uid == uid && r.wid == wid
      | .well r => r.uid == uid && r.wid == wid && r.cls != 0
      | _ => false

/-- The fields of a record that name the warp (R424). -/
def State.recordOf (s : State) (w : Warp) (r : FaultRec) : FaultRec :=
  match s.block? w.uid with
  | none => r
  | some b => { r with wid := w.wid, bid := b.bid, slot := w.lslot, ctx := b.ctx, gen := (s.ctx b.ctx).gen }

/-- Threads that roll back on a fault: those in state 0 or 2 (R426). -/
def faulting (t : Thread) : Bool :=
  match t.st with
  | .ready => true
  | .paused _ => true
  | _ => false

/-- TAKE A FAULT (R426): threads that were ready or paused roll back and park with reason 4, the warp is held, loads
are discarded, and the record goes to the ring. While strong accesses are under way the fault waits (R215); while
every holding slot of the core is taken the warp stalls without rollback and FQOVF counts it (R427).
`keep`: lanes that do not roll back but park at their present pc, as `trap` does (R178). -/
def State.takeFault (s : State) (w : Warp) (r : FaultRec) (keep : LaneMask := 0) : State :=
  if s.strongBusy w.uid w.wid then s.modWarp w.uid w.wid fun w => { w with stall := true }
  else
    let r := s.recordOf w r
    match s.putRecord w.core r true with
    | none =>
      let s := s.setFqovf r.ctx ((s.ctx r.ctx).fqovf + 1)
      { s with nextId := s.nextId + 1 }.modWarp w.uid w.wid fun w =>
        { w with faultStall := some s.nextId, stall := true }
    | some s =>
      let s := s.traceEvent (coreDie w.core) 6 (some r.code.toNat) (some r.pc) (some r.eseq) (some r.slot) r.ctx
      let s := s.sampleMark w fun p => if p.pc = r.pc then { p with fault := true } else { p with disc := true }
      let s := (s.discardLoads w.uid w.wid).unspecify w.uid w.wid faulting
      s.modWarp w.uid w.wid fun w =>
        { w with
          line := none,
          threads := w.threads.mapIdx fun l t =>
            if faulting t then
              { (if keep.getLsbD l then { t with runWr := [], age := 0 } else t.rollback) with st := .parked .fault }
            else t,
          held := true, deferred := [], stall := false, ringStall := false, tokenStall := false, flushed := false,
          waitId := 0, atBoundary := false }

/-- RETURN FROM A FAULT (R205): the fault-parked threads are ready at their region entries, the hold ends, and the
warp's suspended engine commands resume where they stopped (R239). -/
def State.wakeFaulted (s : State) (w : Warp) : State :=
  let s := s.wake w.uid w.wid .fault
  let s := s.modWarp w.uid w.wid fun w => { w with held := false }
  s.modEngines (fun e => e.uid == w.uid && e.wid == w.wid && e.st == .suspended) fun e => { e with st := .running }

end Sys2Proof.Machine
end

