-- ==== Sys2Proof/Machine/Shapes.lean ====
section
/-! DEFINITION. The operand tables of the instruction chapters: for every instruction, which positions it uses, which
classes, types and variants each accepts (R132, R173, R177, R181, R192, R204, R206, R208, R219 to R230, R237, R245,
R249, R250, R253, R257, R258, R265, R276, R279, R281, R285, R287), and how many registers each operand takes. -/

namespace Sys2Proof

/-- Is a type 64 bits wide (R24, R72)? -/
def Ty.is64 : Ty → Bool
  | .i64 | .n64 | .b64 | .f64 => true
  | _ => false

/-- Type codes (R72). -/
def Ty.code : Ty → BitVec 5
  | .b32 => 0x00 | .i32 => 0x01 | .n32 => 0x02 | .i64 => 0x03 | .n64 => 0x04 | .f32 => 0x05 | .f16x2 => 0x06
  | .bf16x2 => 0x07 | .f64 => 0x08 | .i8 => 0x09 | .n8 => 0x0A | .i16 => 0x0B | .n16 => 0x0C | .b64 => 0x0D | .rt => 0x0E

/-- The type a code names; codes 0x0F to 0x1F are reserved (R72). -/
def Ty.ofCode (n : BitVec 5) : Option Ty :=
  match n.toNat with
  | 0 => some .b32 | 1 => some .i32 | 2 => some .n32 | 3 => some .i64 | 4 => some .n64 | 5 => some .f32
  | 6 => some .f16x2 | 7 => some .bf16x2 | 8 => some .f64 | 9 => some .i8 | 10 => some .n8 | 11 => some .i16
  | 12 => some .n16 | 13 => some .b64 | 14 => some .rt
  | _ => none

def Ty.isScalarNum : Ty → Bool
  | .i8 | .n8 | .i16 | .n16 | .i32 | .n32 | .i64 | .n64 | .f32 | .f64 => true
  | _ => false

def Ty.isPacked : Ty → Bool
  | .f16x2 | .bf16x2 => true
  | _ => false

def Ty.isFloat : Ty → Bool
  | .f32 | .f64 | .f16x2 | .bf16x2 => true
  | _ => false

end Sys2Proof

namespace Sys2Proof.Machine

/-- The special files (R22, R68). -/
inductive File where
  | vec | uni | pred | tile | acc | stream | cv
  deriving DecidableEq, Repr

/-- Number of registers a field may name in each file (R69). -/
def File.limit : File → Nat
  | .vec => 256
  | .uni => 128
  | .pred => 8
  | .tile => 8
  | .acc => 16
  | .stream => 32
  | .cv => 16

/-- How many registers an operand of a position takes: by the instruction's type, or a fixed count. -/
inductive Regs where
  | byType | one | two
  deriving DecidableEq, Repr

def Regs.count : Regs → Ty → Nat
  | .byType, t => if Ty.is64 t then 2 else 1
  | .one, _ => 1
  | .two, _ => 2

/-- One operand position: the classes it accepts (none: the position is unused), the file that class 0b10 names
there, and the registers it takes. -/
structure Position where
  cls : List Cls := []
  file : File := .pred
  regs : Regs := .byType
  deriving DecidableEq, Repr

/-- What a register-form instruction accepts. -/
structure Shape where
  /-- U = 0 accepted. -/
  u0 : Bool := true
  /-- U = 1 accepted. -/
  u1 : Bool := true
  d : Position := {}
  a : Position := {}
  b : Position := {}
  e : Position := {}
  tys : List Ty := [.b32]
  subs : List Nat := [0]
  /-- imm32 has a meaning of its own, checked by `extra` (R132). -/
  immField : Bool := false
  /-- The C field has a meaning of its own, checked by `extra` (`cvt`, `bar.phase`). -/
  rawFields : Bool := false
  extra : RegForm → Bool := fun _ => true

def pR : Position := { cls := [.vec, .uni] }
def pRI : Position := { cls := [.vec, .uni, .imm] }
def pV : Position := { cls := [.vec] }
def pU : Position := { cls := [.uni] }
def pUI : Position := { cls := [.uni, .imm] }
def pF (f : File) : Position := { cls := [.special], file := f, regs := .one }
def Position.one (p : Position) : Position := { p with regs := .one }
def Position.two (p : Position) : Position := { p with regs := .two }

def tysInt : List Ty := [.i32, .n32, .i64, .n64]
def tysB : List Ty := [.b32, .b64]
def tysF : List Ty := [.f32, .f16x2, .bf16x2, .f64]
def roundSubs : List Nat := [0, 1, 2, 3]

/-- Widths in bits of the special registers of R31, by index; none for a reserved index. -/
def srBits (i : Nat) : Option Nat :=
  if i ≤ 0x0D then some 32 else if 0x10 ≤ i ∧ i ≤ 0x15 then some 64 else if 0x18 ≤ i ∧ i ≤ 0x1C then some 32 else none

/-- `getsr` (R140): the index is named and its width matches the type. -/
def getsrOk (f : RegForm) : Bool :=
  f.imm.toNat < 256 && (srBits f.imm.toNat == some (if f.ty = .b64 then 64 else 32))

/-- The source type of `cvt` (R166): bits 52:48, with 55:53 zero. -/
def cvtSrc (f : RegForm) : Option Ty := if f.e.toNat < 32 then Ty.ofCode (f.e.setWidth 5) else none

/-- `cvt` (R166, R167): both types scalar or both packed, with the sub codes of the pair. -/
def cvtOk (f : RegForm) : Bool :=
  match cvtSrc f with
  | none => false
  | some t =>
    ((t.isScalarNum && Ty.isScalarNum f.ty) || (t.isPacked && Ty.isPacked f.ty)) && f.ec == .vec && f.bc == .vec && f.b == 0
      && f.sub.toNat < (if t.isFloat || Ty.isFloat f.ty then 4 else 2)

/-- `cmp` (R151): the b types accept only `.eq` and `.ne`. -/
def cmpOk (f : RegForm) : Bool := (f.ty != .b32 && f.ty != .b64) || f.sub.toNat < 2

/-- `vote` (R154): `.every`, `.some` and `.same` write a predicate, `.mask` and `.count` a vector register. -/
def voteOk (f : RegForm) : Bool := (f.dc == .vec) == (f.sub.toNat == 2 || f.sub.toNat == 3)

/-- `redux` (R154): add, min and max take i32 and n32; and, or and xor take b32. -/
def reduxOk (f : RegForm) : Bool := (f.ty == .b32) == (3 ≤ f.sub.toNat)

/-- `prefix` (R154): `.add`, `.addx`, `.min`, `.max` take i32 and n32; the others b32. -/
def scanOk (f : RegForm) : Bool := (f.ty == .b32) == (4 ≤ f.sub.toNat)

/-- `pack` (R168): a rounding mode for the floating types, none for the integer ones. -/
def packOk (f : RegForm) : Bool := Ty.isPacked f.ty || f.sub.toNat == 0

/-- `pause` (R179): an immediate lies in 1 to 65,535. -/
def pauseOk (f : RegForm) : Bool := f.ac != .imm || (1 ≤ f.imm.toNat && f.imm.toNat ≤ 65535)

/-- `bar.phase` (R181): the named fields replace the operands; every class is zero. -/
def barPhaseOk (f : RegForm) : Bool :=
  f.dc == .vec && f.ac == .vec && f.bc == .vec && f.ec == .vec && f.d.toNat < 128 && f.sub.toNat < 2

/-- imm32 of `hqnt` and `hdeq` (R281): tile in bits 2:0, row in 13:8, block in 17:16, all others zero. -/
def hqntOk (f : RegForm) : Bool := f.imm &&& 0xFFFCC0F8 == 0

/-- `wswait` (R285): imm32 bits 31:26 are zero. -/
def wswaitOk (f : RegForm) : Bool := f.imm &&& 0xFC000000 == 0

/-- `sclass` (R287): b64 with sub 0, b32 with sub 1. -/
def sclassOk (f : RegForm) : Bool := (f.ty == .b64) == (f.sub.toNat == 0)

/-- `sys.fkill` (R204): imm32 bits 7:0 are the code and the rest is zero, unless B is imm32 itself. -/
def fkillOk (f : RegForm) : Bool := f.bc == .imm || f.imm.toNat < 256

def shInt2 : Shape := { d := pR, a := pR, b := pRI, tys := tysInt }
def shIntSat : Shape := { shInt2 with subs := [0, 1] }
def shBit2 : Shape := { d := pR, a := pR, b := pRI, tys := tysB }
def shShift : Shape := { shBit2 with b := pRI.one }
def shP2 : Shape := { d := pF .pred, a := pF .pred, b := pF .pred, subs := [0, 1, 2, 3, 4, 5, 6, 7] }
def shF2 : Shape := { d := pR, a := pR, b := pRI, tys := tysF, subs := roundSubs }
def shTrans : Shape := { d := pR, a := pRI, tys := [.f32, .f16x2] }
def shRn2 : Shape := { d := pR, a := pRI, b := pRI, tys := [.rt] }
def shNone : Shape := { u1 := false }
def shSys : Shape := { u0 := false, d := pU.one, a := pU.one, b := pUI.one }
def shS2 : Shape :=
  { u0 := false, d := pF .stream, a := pF .stream, b := pF .stream, subs := [0, 1] }

/-- Which fields a memory-form instruction uses and with which values (R208). -/
structure MemShape where
  u0 : Bool := true
  u1 : Bool := true
  d : Bool := false
  base : Bool := true
  data : Bool := false
  cmp : Bool := false
  /-- The cmp field is no register: `extra` checks it (R225). -/
  cmpRaw : Bool := false
  /-- With no base: the offset field has a meaning of its own, checked by `extra` (R230). -/
  offsetRaw : Bool := false
  widths : List Width := [.b32, .b64]
  scopes : List Scope := [.warp]
  spaces : List Space := [.generic, .well]
  aops : List Nat := [0]
  extra : MemForm → Bool := fun _ => true

def allScopes : List Scope := [.warp, .block, .cluster, .die, .device, .domain, .system]
def allWidths : List Width := [.b8, .b16, .b32, .b64, .b128]

/-- `ld` (R219): sign extension only for b8 and b16. -/
def ldOk (f : MemForm) : Bool := f.aop.toNat == 0 || f.width == .b8 || f.width == .b16

/-- `atc` and `redc` (R225): cmp is no register; bit 0 may be set for min and max only. -/
def atcOk (f : MemForm) : Bool := f.cmp.toNat == 0 || (f.cmp.toNat == 1 && (f.aop.toNat == 3 || f.aop.toNat == 4))

/-- `ata` and `reda` (R225): the width is fixed by aop. -/
def ataOk (f : MemForm) : Bool := (f.width == .b64) == (f.aop.toNat == 2)

/-- `give` (R230): slot in offset bits 3:0, immediate target in 10:8, data only with a register target. -/
def giveOk (f : MemForm) : Bool :=
  (f.offset.setWidth 4).toNat < 12 &&
    (if f.aop.toNat == 0 then f.data.toNat == 0 && f.offset &&& 0xFFFFF8F0 == 0
     else f.data.toNat < 128 && f.offset &&& 0xFFFFFFF0 == 0)

/-- `take` and `wmap` (R230): slot in offset bits 3:0. -/
def slotOk (f : MemForm) : Bool := f.offset.toNat < 12

def msLd : MemShape := { d := true, widths := allWidths, aops := [0, 1], extra := ldOk }
def msPaired : MemShape := { scopes := allScopes }
def msAtc : MemShape :=
  { data := true, cmpRaw := true, scopes := allScopes, aops := [0, 1, 2, 3, 4, 5, 6, 7], extra := atcOk }
def msAta : MemShape := { data := true, scopes := allScopes, aops := [0, 1, 2], extra := ataOk }
def msSlot : MemShape :=
  { u0 := false, d := true, base := false, offsetRaw := true, widths := [.b8], spaces := [.generic], extra := slotOk }

/-- What the token, record and convergence fields of an engine-form instruction hold (R79). -/
inductive TokenUse where
  | required | none80 | zero
  deriving DecidableEq, Repr

structure EngShape where
  token : TokenUse := .required
  /-- The record field names an even uniform pair; otherwise it is zero. -/
  record : Bool := true
  /-- A convergence register may be named; otherwise the field is 0x80. -/
  conv : Bool := false
  extra : EngForm → Bool := fun _ => true

def engPlain (f : EngForm) : Bool := f.aux.toNat == 0 && f.mod.toNat == 0 && f.imm.toNat == 0

/-- `acopy` (R245): mod bits 1:0, aux an even pair. -/
def acopyOk (f : EngForm) : Bool := f.mod.toNat < 4 && f.aux.toNat < 128
def acopyTOk (f : EngForm) : Bool := acopyOk f && f.imm.toNat < 128
def acopyWslOk (f : EngForm) : Bool := f.mod.toNat == 4 && f.aux.toNat < 128
def acopySbOk (f : EngForm) : Bool := f.mod.toNat == 8 && f.aux.toNat < 128
def tldOk (f : EngForm) : Bool := f.aux.toNat < 8 && f.mod.toNat == 0 && f.imm.toNat < 128
def sendOk (f : EngForm) : Bool := f.aux.toNat < 128 && f.mod.toNat == 0 && f.imm.toNat == 0

/-- Format code of `mma` and `mconv` (R265): mod bits 3:0, word bits 35:32. -/
def mmaFmt (f : EngForm) : Nat := f.mod.toNat % 16
def mmaAcc (f : EngForm) : Nat := f.mod.toNat / 16 % 16
def mmaWells (f : EngForm) : Bool := f.mod.toNat / 256 % 2 == 1
def mmaTile (f : EngForm) : Nat := f.mod.toNat / 512 % 8
def mmaSel (f : EngForm) : Nat := f.mod.toNat / 4096 % 4
def mmaReg (f : EngForm) : Nat := f.imm.toNat / 256 % 128
def mmaOreg (f : EngForm) : Nat := f.imm.toNat % 128

/-- Formats that name scale registers in aux: rn8, rn4 and the `.k64` forms (R265). -/
def mmaScaled (fmt : Nat) : Bool := fmt == 2 || fmt == 3 || fmt == 6 || fmt == 7

/-- Fields that `mma` and `mconv` share (R265): unused bits zero, a defined format, `aux` only where scales are. -/
def mmaCommonOk (f : EngForm) : Bool :=
  f.mod.toNat < 16384 && mmaFmt f < 8 && f.imm.toNat < 32768 && f.imm.toNat / 128 % 2 == 0
    && (mmaScaled (mmaFmt f) || f.aux.toNat == 0)

/-- `mma` (R265, R267): sel is the K-block for `.k64`, the tile half for bf16 and f16 (bit 0, tile source only). -/
def mmaOk (f : EngForm) : Bool :=
  mmaCommonOk f && mmaOreg f + 1 < 128
    && (if mmaWells f then mmaTile f == 0 else mmaReg f == 0)
    && (if mmaFmt f ≥ 6 then true
        else if mmaFmt f < 2 then mmaSel f < 2 && (!mmaWells f || mmaSel f == 0) else mmaSel f == 0)

/-- `mconv` (R276): asrc, tile and the half bit are zero; five operand registers follow oreg. -/
def mconvOk (f : EngForm) : Bool :=
  mmaCommonOk f && !mmaWells f && mmaTile f == 0 && mmaOreg f + 4 < 128 && (mmaFmt f ≥ 6 || mmaSel f == 0)

/-- `rwait` (R257): aux bits 3:0 the ring, mod the operation, imm bits 19:0 the header offset with `.open`. -/
def rwaitOk (op : Nat) (f : EngForm) : Bool :=
  f.aux.toNat < 16 && f.mod.toNat == op && (if op == 1 then f.imm.toNat < 1048576 else f.imm.toNat == 0)

def launchOk (f : EngForm) : Bool := f.aux.toNat < 4 && f.mod.toNat < 2 && f.imm.toNat == 0
def tsubOk (f : EngForm) : Bool := f.aux.toNat < 64 && f.mod.toNat < 2 && f.imm.toNat == 0

/-- Which branch-form fields an instruction uses (R173). -/
structure BrShape where
  link : Bool := false
  index : Bool := false
  uni : Bool := true
  disp : Bool := true

/-- The operand form of a row: the fields of its word and what they may hold; an event of the device has no word. -/
inductive Form where
  | reg (sh : Shape) (f : RegForm)
  | mem (sh : MemShape) (f : MemForm)
  | br (sh : BrShape) (f : BrForm)
  | eng (sh : EngShape) (f : EngForm)
  | movi (f : MoviForm)
  | event

/-- The operand table of every instruction. -/
def form : Instr → Form
  | .nop f => .reg shNone f
  | .getsr f => .reg { d := pR, tys := tysB, immField := true, extra := getsrOk } f
  | .setsr f => .reg { a := pR, immField := true, extra := fun f => f.imm == 0x1C } f
  | .bra f => .br {} f
  | .brx f => .br { index := true } f
  | .call f => .br { link := true } f
  | .calli f => .br { link := true, index := true } f
  | .ret f => .br { link := true, disp := false } f
  | .exit f => .br { uni := false, disp := false } f
  | .trap f => .reg { shNone with immField := true, extra := fun f => f.imm.toNat < 0xF0 } f
  | .brk f => .reg { shNone with immField := true, extra := fun f => f.imm.toNat < 0x10000 } f
  | .pause f => .reg { u1 := false, a := pRI, tys := [.n32], extra := pauseOk } f
  | .yield f => .reg shNone f
  | .bar f => .reg { shNone with immField := true, extra := fun f => f.imm.toNat < 16 } f
  | .barPhase f => .reg { shNone with immField := true, rawFields := true, subs := [0, 1], extra := barPhaseOk } f
  | .clbar f => .reg shNone f
  | .gbar f => .reg shNone f
  | .cvinit f => .reg { u0 := false, d := pF .cv, a := pUI, tys := [.n32] } f
  | .launch f => .eng { extra := launchOk } f
  | .spawn f => .eng { extra := engPlain } f
  | .merge f => .eng { token := .none80, record := false, extra := engPlain } f
  | .syncSpawn f => .eng { token := .none80, record := false, extra := engPlain } f
  | .tsub f => .eng { extra := tsubOk } f
  | .tsig f => .eng { token := .none80, extra := engPlain } f
  | .sysTlbinv f => .reg { shSys with d := {}, a := pU.two, subs := [0, 1, 2] } f
  | .sysFwake f => .reg shSys f
  | .sysFkill f => .reg { shSys with immField := true, extra := fkillOk } f
  | .sysEvict f => .reg shSys f
  | .sysResume f => .reg { shSys with a := pU.two, b := {} } f
  | .sysMcount f => .reg { shSys with a := pU.two, subs := [0, 1] } f
  | .voteAgree f => .reg { u1 := false, d := pF .pred, a := pF .pred } f
  | .barCnt f => .reg { u1 := false, a := pRI, tys := [.n32], subs := [0, 1, 2, 3, 4, 5, 6, 7] } f
  | .sysFlush f => .reg shNone f
  | .sysHalt f => .reg shNone f
  | .add f => .reg shIntSat f
  | .sub f => .reg shIntSat f
  | .mul f => .reg shIntSat f
  | .mulhi f => .reg shInt2 f
  | .mad f => .reg { shIntSat with e := pRI } f
  | .min f => .reg shInt2 f
  | .max f => .reg shInt2 f
  | .abs f => .reg { d := pR, a := pR, tys := [.i32, .i64], subs := [0, 1] } f
  | .neg f => .reg { d := pR, a := pR, tys := [.i32, .i64], subs := [0, 1] } f
  | .addc f => .reg { d := pR, a := pR, b := pRI, e := pF .pred, tys := [.n32] } f
  | .lea f => .reg { d := pR.two, a := pR.two, b := pR, tys := tysInt, subs := [0, 1, 2, 3, 4, 5, 6, 7],
                     immField := true } f
  | .mov f => .reg { d := pR, a := pRI, tys := tysB } f
  | .movi f => .movi f
  | .sel f => .reg { d := pR, a := pRI, b := pRI, e := pF .pred, tys := tysB } f
  | .andB f => .reg shBit2 f
  | .orB f => .reg shBit2 f
  | .xorB f => .reg shBit2 f
  | .notB f => .reg { d := pR, a := pR, tys := tysB } f
  | .shl f => .reg shShift f
  | .shr f => .reg shShift f
  | .sar f => .reg shShift f
  | .rot f => .reg { shShift with subs := [0, 1] } f
  | .clz f => .reg { d := pR.one, a := pR, tys := tysB } f
  | .popc f => .reg { d := pR.one, a := pR, tys := tysB } f
  | .brev f => .reg { d := pR, a := pR, tys := tysB } f
  | .bfe f => .reg { d := pR, a := pR, b := pRI.one, tys := tysInt } f
  | .bfi f => .reg { d := pR, a := pR, b := pR, e := pRI.one, tys := tysB } f
  | .cmp f => .reg { d := pF .pred, a := pR, b := pRI, tys := [.i32, .n32, .i64, .n64, .b32, .b64],
                     subs := [0, 1, 2, 3, 4, 5], extra := cmpOk } f
  | .fcmp f => .reg { d := pF .pred, a := pR, b := pRI, tys := [.f32, .f64], subs := [0, 1, 2, 3, 4, 5, 6, 7] } f
  | .pand f => .reg shP2 f
  | .por f => .reg shP2 f
  | .pxor f => .reg shP2 f
  | .pnot f => .reg { d := pF .pred, a := pF .pred } f
  | .pmov f => .reg { d := pF .pred, a := pF .pred } f
  | .pmovPack f => .reg { d := pR.one, a := pF .pred, subs := [1] } f
  | .pmovUnpack f => .reg { u1 := false, d := pF .pred, a := pR.one, subs := [2] } f
  | .shfl f => .reg { u1 := false, d := pV, a := pV, b := pRI.one, tys := tysB, subs := [0, 1, 2, 3] } f
  | .vote f => .reg { u1 := false, d := { cls := [.vec, .special], file := .pred, regs := .one }, a := pF .pred,
                      subs := [0, 1, 2, 3, 4], extra := voteOk } f
  | .redux f => .reg { u1 := false, d := pV, a := pV, tys := [.i32, .n32, .b32], subs := [0, 1, 2, 3, 4, 5],
                       extra := reduxOk } f
  | .matchL f => .reg { u1 := false, d := pV.one, a := pV, tys := tysB, subs := [0, 1] } f
  | .prefixL f => .reg { u1 := false, d := pV, a := pV, tys := [.i32, .n32, .b32],
                         subs := [0, 1, 2, 3, 4, 5, 6, 7], extra := scanOk } f
  | .fadd f => .reg shF2 f
  | .fsub f => .reg shF2 f
  | .fmul f => .reg shF2 f
  | .ffma f => .reg { shF2 with e := pRI } f
  | .fmin f => .reg { shF2 with subs := [0] } f
  | .fmax f => .reg { shF2 with subs := [0] } f
  | .fabs f => .reg { d := pR, a := pR, tys := tysF } f
  | .fneg f => .reg { d := pR, a := pR, tys := tysF } f
  | .fclass f => .reg { d := pR.one, a := pR, tys := tysF } f
  | .frnd f => .reg { d := pR, a := pR, tys := tysF, subs := roundSubs } f
  | .frcp f => .reg { shTrans with tys := [.f32, .f16x2, .f64] } f
  | .fsqrt f => .reg { shTrans with tys := [.f32, .f16x2, .f64] } f
  | .frsq f => .reg { shTrans with tys := [.f32, .f16x2, .f64] } f
  | .fexp2 f => .reg shTrans f
  | .flog2 f => .reg shTrans f
  | .cvt f => .reg { d := pR, a := { pRI with regs := if ((cvtSrc f).map Ty.is64).getD false then .two else .one },
                     tys := [.i8, .n8, .i16, .n16, .i32, .n32, .i64, .n64, .f32, .f64, .f16x2, .bf16x2],
                     subs := [0, 1, 2, 3], rawFields := true, extra := cvtOk } f
  | .pack f => .reg { d := pR, a := pRI, b := pRI, tys := [.f16x2, .bf16x2, .i16, .n16], subs := roundSubs,
                      extra := packOk } f
  | .unpack f => .reg { d := pR.two, a := pRI, tys := [.f16x2, .bf16x2, .i16, .n16] } f
  | .rnfwd f => .reg { shRn2 with b := {} } f
  | .rnadd f => .reg shRn2 f
  | .rnsub f => .reg shRn2 f
  | .rnmul f => .reg shRn2 f
  | .rnrev f => .reg { shRn2 with b := {} } f
  | .ld f => .mem msLd f
  | .st f => .mem { data := true, widths := allWidths } f
  | .ldc f => .mem { d := true, widths := [.b32, .b64, .b128], spaces := [.const] } f
  | .prf f => .mem { widths := [.b8], spaces := [.generic], aops := [0, 1] } f
  | .lda f => .mem { msPaired with d := true } f
  | .stl f => .mem { msPaired with data := true } f
  | .xar f => .mem { msPaired with d := true, data := true } f
  | .car f => .mem { msPaired with d := true, data := true, cmp := true } f
  | .atc f => .mem { msAtc with d := true } f
  | .redc f => .mem msAtc f
  | .ata f => .mem { msAta with d := true } f
  | .reda f => .mem msAta f
  | .ldf f => .mem { msPaired with d := true } f
  | .stf f => .mem { msPaired with data := true } f
  | .atx f => .mem { msPaired with d := true, data := true } f
  | .cas f => .mem { msPaired with d := true, data := true, cmp := true } f
  | .fence f => .mem { u1 := false, base := false, widths := [.b8], scopes := allScopes, spaces := [.generic],
                       aops := [0, 1, 2, 3] } f
  | .ldfe f => .mem { d := true, widths := [.b32], spaces := [.well] } f
  | .stfe f => .mem { data := true, widths := [.b32], spaces := [.well] } f
  | .give f => .mem { u0 := false, base := false, data := true, offsetRaw := true, widths := [.b8], spaces := [.generic],
                      aops := [0, 1], extra := giveOk } f
  | .take f => .mem msSlot f
  | .wmap f => .mem msSlot f
  | .wfill f => .mem { u0 := false, data := true, cmp := true, widths := [.b32], spaces := [.well],
                       aops := [0, 1] } f
  | .acopy f => .eng { extra := acopyOk } f
  | .acopyWsl f => .eng { extra := acopyWslOk } f
  | .acopySb f => .eng { extra := acopySbOk } f
  | .acopyT f => .eng { extra := acopyTOk } f
  | .tld f => .eng { extra := tldOk } f
  | .tst f => .eng { extra := tldOk } f
  | .gpool f => .eng { extra := engPlain } f
  | .coll f => .eng { extra := engPlain } f
  | .send f => .eng { extra := sendOk } f
  | .rwait f => .eng { token := .none80, record := false, extra := rwaitOk 0 } f
  | .rwaitOpen f => .eng { token := .none80, record := false, extra := rwaitOk 1 } f
  | .rwaitClose f => .eng { token := .none80, record := false, extra := rwaitOk 2 } f
  | .mma f => .eng { conv := true, extra := mmaOk } f
  | .mconv f => .eng { conv := true, extra := mconvOk } f
  | .tzero f => .reg { u0 := false, d := pF .tile } f
  | .azero f => .reg { u0 := false, d := pF .acc } f
  | .amov f => .reg { u0 := false, d := pF .acc, a := pF .acc } f
  | .ald f => .reg { u1 := false, d := pV, a := pF .acc, b := pRI, subs := [0, 1] } f
  | .ast f => .reg { u1 := false, d := pF .acc, a := pV, b := pRI, subs := [0, 1] } f
  | .tmov f => .reg { u0 := false, d := pF .tile, a := pF .tile } f
  | .tmovW f => .reg { u1 := false, d := pF .tile, a := pV, b := pRI, subs := [1] } f
  | .tmovR f => .reg { u1 := false, d := pV, a := pF .tile, b := pRI, subs := [2] } f
  | .hqnt f => .reg { u1 := false, d := pV, a := pV, b := pU.two, e := pU.two, tys := [.f32], immField := true,
                      extra := hqntOk } f
  | .aconv f => .reg { u0 := false, d := pF .tile, a := pF .acc, tys := [.bf16x2, .f16x2], subs := roundSubs } f
  | .aconvF32 f => .reg { u0 := false, d := pF .acc, a := pF .acc, tys := [.f32], subs := roundSubs } f
  | .hdeq f => .reg { u1 := false, d := pV, a := pV, b := pU.two, e := pU.two, tys := [.f32], immField := true,
                      extra := hqntOk } f
  | .wsinfo f => .reg { d := pR.two, a := pRI.one, tys := [.b64] } f
  | .wswait f => .reg { u0 := false, immField := true, extra := wswaitOk } f
  | .slen f => .reg { u0 := false, a := pUI, tys := [.n32] } f
  | .sseed f => .reg { u0 := false, a := pU.two, b := pUI.one, tys := [.b64] } f
  | .sgen f => .reg { u1 := false, d := pF .stream, a := pRI, b := pUI, tys := [.n32] } f
  | .sand f => .reg shS2 f
  | .sor f => .reg shS2 f
  | .sxor f => .reg shS2 f
  | .sxnor f => .reg { shS2 with subs := [0] } f
  | .snot f => .reg { shS2 with b := {}, subs := [0] } f
  | .smux f => .reg { shS2 with e := pF .stream } f
  | .scnt f => .reg { u1 := false, d := pV, a := pF .stream, tys := [.n32] } f
  | .sregen f => .reg { u0 := false, d := pF .stream, a := pF .stream, b := pUI.one } f
  | .sshift f => .reg { u0 := false, d := pF .stream, a := pF .stream, b := pUI.one } f
  | .smov f => .reg { shS2 with b := {}, subs := [0] } f
  | .sclass f => .reg { u0 := false, d := pU, a := pF .stream, tys := [.b64, .b32], subs := [0, 1],
                        extra := sclassOk } f
  | _ => .event

end Sys2Proof.Machine
end

