-- ==== Sys2Proof/Machine/Operands.lean ====
section
/-! DEFINITION. Operand forms: what an immediate stands for (R71), reading sources and naming destinations (R22 to R26,
R68, R70), and which registers each instruction reads and writes (R23, R24, R66). -/

namespace Sys2Proof.Machine

/-- Width in bits of a scalar type (R91, R93). -/
def tyBits (t : Ty) : Nat :=
  match t with
  | .i64 | .n64 | .b64 | .f64 => 64
  | .i8 | .n8 => 8
  | .i16 | .n16 => 16
  | _ => 32

def tySigned (t : Ty) : Bool :=
  match t with
  | .i8 | .i16 | .i32 | .i64 => true
  | _ => false

/-- The float format of a type, of one element for the packed types (R93, R94). -/
def tyFmt (t : Ty) : Fmt :=
  match t with
  | .f64 => fmt64
  | .f16x2 => fmt16
  | .bf16x2 => fmtB16
  | _ => fmt32

/-- Sign-extend the low `n` bits of a number to `m` bits. -/
def sext (v n m : Nat) : Nat := if v / 2 ^ (n - 1) % 2 = 1 then v % 2 ^ n + (2 ^ m - 2 ^ n) else v % 2 ^ n

/-- f32 widened to f64, a NaN bit for bit (R71). -/
def widenImm (v : Nat) : Nat :=
  match fmt32.dec v with
  | .nan _ => v / 2 ^ 31 * 2 ^ 63 + 2047 * 2 ^ 52 + v % 2 ^ 23 * 2 ^ 29
  | _ => widen fmt32 fmt64 v

/-- An imm32 source as the bits of the instruction's type (R71). -/
def immBits (t : Ty) (imm : BitVec 32) : Nat :=
  let v := imm.toNat
  match t with
  | .i8 => sext v 8 32
  | .i16 => sext v 16 32
  | .n8 => v % 2 ^ 8
  | .n16 => v % 2 ^ 16
  | .i64 => sext v 32 64
  | .f64 => widenImm v
  | _ => v

/-- The bits of a source in a lane: one register, or a pair when `two` (R24, R68). A special-file source reads the
predicate bit. -/
def readSrc (w : Warp) (cls : Cls) (r : BitVec 8) (two : Bool) (imm : Nat) (l : Nat) : Nat :=
  match cls with
  | .vec => if two then (w.vget64 r.toNat l).toNat else (w.vget r.toNat l).toNat
  | .uni => if two then (w.sget64 r.toNat).toNat else (w.sget r.toNat).toNat
  | .special => ((w.pget r.toNat).getLsbD l).toNat
  | .imm => imm

/-- An integer operand's value: i8 to n16 from the low bits (R91), the others whole. -/
def intVal (t : Ty) (bits : Nat) : Int :=
  let n := tyBits t
  let v := bits % 2 ^ n
  if tySigned t && v / 2 ^ (n - 1) % 2 == 1 then (v : Int) - 2 ^ n else v

/-- Range of an integer type (R91). -/
def tyMin (t : Ty) : Int := if tySigned t then -(2 ^ (tyBits t - 1)) else 0
def tyMax (t : Ty) : Int := if tySigned t then 2 ^ (tyBits t - 1) - 1 else 2 ^ tyBits t - 1

/-- `sat(x, T)` (R92). -/
def satInt (t : Ty) (x : Int) : Int := if x < tyMin t then tyMin t else if x > tyMax t then tyMax t else x

/-- The bits of an integer result, wrapped (R92). -/
def wrapBits (t : Ty) (x : Int) : Nat := (x % 2 ^ tyBits t).toNat

/-- Result elements of a value of one or two registers (R24). -/
def vecWrite (r l : Nat) (two : Bool) (v : Nat) : List (RegSlot × Word) :=
  if two then [(.vec r l, BitVec.ofNat 32 v), (.vec (r + 1) l, BitVec.ofNat 32 (v / 2 ^ 32))]
  else [(.vec r l, BitVec.ofNat 32 v)]

def uniWrite (r : Nat) (two : Bool) (v : Nat) : List (RegSlot × Word) :=
  if two then [(.uni r, BitVec.ofNat 32 v), (.uni (r + 1), BitVec.ofNat 32 (v / 2 ^ 32))]
  else [(.uni r, BitVec.ofNat 32 v)]

/-- A predicate bit written for one lane, or the same bit for all 32 by a uniform instruction (R25). -/
def predWrite (p l : Nat) (uniform : Bool) (v : Bool) : List (RegSlot × Word) :=
  if uniform then lanes.map fun k => (.pred p k, if v then 1 else 0) else [(.pred p l, if v then 1 else 0)]

/-- The lanes that an instruction computes: the active ones, or once for a uniform instruction, at the lowest active
lane (R32, R62, R134). -/
def workLanes (uniform : Bool) (active : LaneMask) : List Nat :=
  if uniform then (lanesOf active).take 1 else lanesOf active

/-- Result elements of a computed value in a lane, by D class (R26). -/
def destWrite (dc : Cls) (d : BitVec 8) (two : Bool) (l v : Nat) : List (RegSlot × Word) :=
  match dc with
  | .vec => vecWrite d.toNat l two v
  | .uni => uniWrite d.toNat two v
  | _ => []

/-- Registers of a memory operand by width (R24). -/
def widthRegs : Width → Nat
  | .b64 => 2
  | .b128 => 4
  | _ => 1

/-- Bytes of an access (R210). -/
def widthBytes : Width → Nat
  | .b8 => 1 | .b16 => 2 | .b32 => 4 | .b64 => 8 | .b128 => 16

/-! ### Which registers an instruction uses (R23, R24, R66) -/

/-- Registers `reg` to `reg + n - 1` of a file (0 vector, 1 uniform, 2 predicate, 3 tile, 4 accumulator, 5 stream,
6 convergence), read or written; `grp` is the alignment that R24 asks for. -/
structure Use where
  file : Nat
  reg : Nat
  n : Nat
  write : Bool
  grp : Nat := 1
  deriving DecidableEq, Repr

def File.num : File → Nat
  | .vec => 0 | .uni => 1 | .pred => 2 | .tile => 3 | .acc => 4 | .stream => 5 | .cv => 6

/-- The use a position of the register form makes. -/
def Position.use (p : Position) (cls : Cls) (field : BitVec 8) (ty : Ty) (write : Bool) : List Use :=
  if p.cls.isEmpty then []
  else
    let n := p.regs.count ty
    match cls with
    | .vec => [{ file := 0, reg := field.toNat, n := n, write := write, grp := n }]
    | .uni => [{ file := 1, reg := field.toNat, n := n, write := write, grp := n }]
    | .special => [{ file := p.file.num, reg := field.toNat, n := 1, write := write }]
    | .imm => []

def useOf (uni : Bool) (r : BitVec 8) (n : Nat) (write : Bool) : Use :=
  { file := if uni then 1 else 0, reg := r.toNat, n := n, write := write, grp := n }

def memUses (sh : MemShape) (f : MemForm) : List Use :=
  (if sh.d then [useOf f.duni f.d (widthRegs f.width) true] else [])
    ++ (if sh.base then [useOf f.buni f.base 2 false] else [])
    ++ (if sh.data && !(sh.offsetRaw && f.aop.toNat == 0) then [useOf f.c.u f.data (widthRegs f.width) false] else [])
    ++ (if sh.cmp then [useOf f.c.u f.cmp (widthRegs f.width) false] else [])

def uni1 (r : Nat) (write : Bool := false) : Use := { file := 1, reg := r, n := 1, write := write }
def vec1 (r : Nat) (write : Bool := false) : Use := { file := 0, reg := r, n := 1, write := write }

/-! ### Matrix formats (R266) -/

/-- Length K of the reduction. -/
def mmaK (fmt : Nat) : Nat := [32, 32, 256, 512, 256, 512, 64, 64].getD fmt 64

/-- Nibbles of an element. -/
def mmaNibs (fmt : Nat) : Nat := if fmt < 2 then 4 else if fmt % 2 = 0 then 2 else 1

/-- Format code of a tensor that holds such elements. -/
def mmaCode (fmt : Nat) : Nat := if fmt = 0 then 0x11 else if fmt = 1 then 0x10 else if fmt % 2 = 0 then 0x20 else 0x21

/-- Bytes of a row of A in wells. -/
def mmaRow (fmt : Nat) : Nat := mmaK fmt * mmaNibs fmt / 2

/-- Scale registers of a matrix format (R266). -/
def scaleRegs (fmt vs : Nat) : List Use :=
  match fmt with
  | 2 => [vec1 vs, vec1 (vs + 1)]
  | 3 => [vec1 vs, vec1 (vs + 1), vec1 (vs + 2), vec1 (vs + 3)]
  | 6 => [vec1 vs, vec1 (vs + 1)]
  | 7 => [vec1 vs, vec1 (vs + 2)]
  | _ => []

/-- Tiles that an `mma` with a tile source reads (R266, R267). -/
def mmaTiles (f : EngForm) : List Nat :=
  if mmaWells f then []
  else
    match mmaFmt f with
    | 2 => [mmaTile f, mmaTile f + 1]
    | 3 => [mmaTile f, mmaTile f + 1]
    | 4 => [mmaTile f, mmaTile f + 1]
    | 5 => [mmaTile f, mmaTile f + 1]
    | 6 => [mmaTile f + mmaSel f / 2]
    | _ => [mmaTile f]

def pairUse (r : Nat) : Use := { file := 1, reg := r, n := 2, write := false, grp := 2 }

/-- Uses beyond the form's own positions. -/
def extraUses (i : Instr) : List Use :=
  match i with
  | .hqnt f =>
    [vec1 f.a.toNat, vec1 (f.a.toNat + 1), vec1 (f.d.toNat + fieldOf f.imm.toNat 8 6 / 32) true,
     { file := 3, reg := f.imm.toNat % 8 + fieldOf f.imm.toNat 16 2 / 2, n := 1, write := true }]
  | .hdeq f =>
    [vec1 f.d.toNat true, vec1 (f.d.toNat + 1) true, vec1 (f.a.toNat + fieldOf f.imm.toNat 8 6 / 32),
     { file := 3, reg := f.imm.toNat % 8 + fieldOf f.imm.toNat 16 2 / 2, n := 1, write := false }]
  | .acopy f => [pairUse f.aux.toNat]
  | .acopyWsl f => [pairUse f.aux.toNat]
  | .acopySb f => [pairUse f.aux.toNat]
  | .acopyT f => pairUse f.aux.toNat :: (List.range 5).map fun k => uni1 (f.imm.toNat + k)
  | .tld f =>
    { file := 3, reg := f.aux.toNat, n := 1, write := true } :: (List.range 5).map fun k => uni1 (f.imm.toNat + k)
  | .tst f =>
    { file := 3, reg := f.aux.toNat, n := 1, write := false } :: (List.range 5).map fun k => uni1 (f.imm.toNat + k)
  | .send f => [uni1 f.aux.toNat]
  | .mma f =>
    [uni1 (mmaOreg f), uni1 (mmaOreg f + 1), { file := 4, reg := mmaAcc f, n := 1, write := true }]
      ++ scaleRegs (mmaFmt f) f.aux.toNat
      ++ (if mmaWells f then [uni1 (mmaReg f)] else (mmaTiles f).map fun t => { file := 3, reg := t, n := 1, write := false })
      ++ (if f.conv = 0x80 then [] else [{ file := 6, reg := f.conv.toNat, n := 1, write := true }])
  | .mconv f =>
    pairUse (mmaReg f) :: { file := 4, reg := mmaAcc f, n := 1, write := true } ::
      ((List.range 5).map fun k => uni1 (mmaOreg f + k)) ++ scaleRegs (mmaFmt f) f.aux.toNat
      ++ (if f.conv = 0x80 then [] else [{ file := 6, reg := f.conv.toNat, n := 1, write := true }])
  | .barPhase f =>
    ((List.range 32).filter fun k => f.imm.getLsbD k).map (fun k => vec1 (f.a.toNat + k))
      ++ ((List.range 16).filter fun k => (f.b ++ f.e).getLsbD k).map fun k => uni1 (f.d.toNat + k)
  | _ => []

/-- The predicates that some instructions name both to read and to write (R144), or to read under a class that the
shape leaves open. -/
def formUses (i : Instr) : List Use :=
  match form i with
  | .reg sh f =>
    match i with
    | .hqnt _ => Position.use sh.b f.bc f.b f.ty false ++ Position.use sh.e f.ec f.e f.ty false
    | .hdeq _ => Position.use sh.b f.bc f.b f.ty false ++ Position.use sh.e f.ec f.e f.ty false
    | .cvt _ =>
      let two := ((cvtSrc f).map Ty.is64).getD false
      Position.use sh.d f.dc f.d f.ty true
        ++ (Position.use { sh.a with regs := if two then .two else .one } f.ac f.a f.ty false)
    | .addc _ =>
      Position.use sh.d f.dc f.d f.ty true ++ Position.use sh.a f.ac f.a f.ty false
        ++ Position.use sh.b f.bc f.b f.ty false ++ Position.use sh.e f.ec f.e f.ty false
        ++ Position.use sh.e f.ec f.e f.ty true
    | _ =>
      Position.use sh.d f.dc f.d f.ty true ++ Position.use sh.a f.ac f.a f.ty false
        ++ Position.use sh.b f.bc f.b f.ty false ++ Position.use sh.e f.ec f.e f.ty false
  | .mem sh f => memUses sh f
  | .br sh f =>
    (if sh.link then [{ file := 0, reg := f.link.toNat, n := 2, write := sh.disp, grp := 2 }] else [])
      ++ (if sh.index then [useOf f.indexUni f.index 2 false] else [])
  | .eng sh f => if sh.record then [pairUse f.record.toNat] else []
  | .movi f => [useOf f.c.u f.d 2 true]
  | .event => []

/-- The token register an instruction names (R39). -/
def tokenOf (i : Instr) : Option Nat :=
  match form i with
  | .eng sh f => if sh.token == .required then some f.token.toNat else none
  | _ => none

/-- Every register that an instruction reads or writes, its token apart. -/
def usesOf (i : Instr) : List Use := formUses i ++ extraUses i

/-- R23, R24: within the block's counts, and aligned as a pair or quad. -/
def useOk (k : Kernel) (u : Use) : Bool :=
  u.reg % u.grp == 0 &&
    match u.file with
    | 0 => u.reg + u.n ≤ 8 * k.nv
    | 1 => u.reg + u.n ≤ 16 * k.ns
    | 2 => true
    | 3 => u.reg + u.n ≤ k.tiles
    | 4 => u.reg + u.n ≤ k.accs
    | 5 => u.reg + u.n ≤ k.streams
    | _ => u.reg + u.n ≤ k.cvs

/-- The registers of a use that the run rules name: vector, uniform and predicate (R63). -/
def Use.regs (u : Use) : List (Nat × Nat) :=
  if u.file ≤ 2 then (List.range u.n).map fun k => (u.file, u.reg + k) else []

end Sys2Proof.Machine
end

