-- ==== Sys2Proof/Machine/Cache.lean ====
section
/-! DEFINITION. A core's L1 (R379 to R385): finding, allocating and dropping lines, write-backs, fills, filter tags and
epochs. -/

namespace Sys2Proof.Machine

/-- Set of a line (R379): PA bits 13:6. -/
def l1Set (line : Nat) : Nat := line / 64 % 256

def L1Line.is (x : L1Line) (ctx line : Nat) : Bool := x.ctx == ctx && x.line == line

def State.l1? (s : State) (core ctx line : Nat) : Option L1Line := (s.core core).l1.find? fun x => x.is ctx line

/-- Write a line of the L1 back to its place, as the latest used (R379). -/
def State.l1Put (s : State) (core : Nat) (x : L1Line) : State :=
  s.modCore core fun c => { c with l1 := x :: c.l1.filter fun y => !y.is x.ctx x.line }

/-- Change a line without using it. -/
def State.l1Mod (s : State) (core ctx line : Nat) (f : L1Line → L1Line) : State :=
  s.modCore core fun c => { c with l1 := replaceIf (fun x => x.is ctx line) f c.l1 }

def State.l1Drop (s : State) (core ctx line : Nat) : State :=
  s.modCore core fun c => { c with l1 := c.l1.filter fun x => !x.is ctx line }

/-- Does the warp's interval own dirty bytes of a line, as far as the core knows (R384)? -/
def Warp.names (w : Warp) (line : Nat) : Bool := w.dirtyOv || w.dirty.contains line

def Fill.is (f : Fill) (core ctx line : Nat) : Bool := f.core == core && f.ctx == ctx && f.line == line

/-- Bytes of a line that are written back while fills of it are under way keep their value in the L1 (R216). -/
def State.keepBytes (s : State) (core ctx line : Nat) (mask : BitVec 64) : State :=
  { s with msgs := s.msgs.map fun (m : Msg) =>
      match m.kind with
      | .fillReq f => if f.is core ctx line then { m with kind := .fillReq { f with keep := f.keep ||| mask } } else m
      | .fillReply f => if f.is core ctx line then { m with kind := .fillReply { f with keep := f.keep ||| mask } } else m
      | _ => m }

/-- Start the write-back of a line's dirty bytes (R384). Its owners are the warps whose current intervals name it. -/
def State.writeBack (s : State) (core ctx line : Nat) : State :=
  match s.l1? core ctx line with
  | none => s
  | some x =>
    if x.dirty = 0 then s
    else
      let own := s.warps.filter fun w => w.core == core && w.resident && s.warpCtx w == ctx && w.names line
      let id := s.nextId
      let s := s.keepBytes core ctx line x.dirty
      let s := s.send (.wb { core := core, ctx := ctx, line := line, mask := x.dirty, data := x.data, loc := x.loc, va := x.va,
                             mig := x.mig, owners := own.map fun w => (w.uid, w.wid, w.iseq),
                             rels := s.relsOf (some core) line x.dirty })
      let s := own.foldl (fun (s : State) (w : Warp) =>
        s.modWarp w.uid w.wid fun w => { w with wbs := w.wbs ++ [(id, w.iseq)] }) s
      (s.forward core ctx x.va x.loc x.line x.tpin).l1Mod core ctx line fun x => { x with dirty := 0 }

/-- Make sure that a line is in the L1 and used last; none while every way of its set waits for a fill (R379). -/
def State.l1Room (s : State) (core ctx line : Nat) : Option State :=
  match s.l1? core ctx line with
  | some x => some (s.l1Put core x)
  | none =>
    let ways := (s.core core).l1.filter fun x => l1Set x.line == l1Set line
    if ways.length < 16 then some (s.l1Put core { ctx := ctx, line := line })
    else
      match (ways.filter fun x => x.pending = 0).getLast? with
      | none => none
      | some v => some (((s.writeBack core v.ctx v.line).l1Drop core v.ctx v.line).l1Put core { ctx := ctx, line := line })

/-! ### Filter tags and epochs -/

/-- Give every resident warp of a core a fresh tag after the counter has wrapped (R382). -/
def State.retag (s : State) (core : Nat) : State :=
  let ws := s.warps.filter fun w => w.resident && !w.released && w.core == core
  let s := ws.foldl (fun (s : State) (w : Warp) =>
    let t := (s.core core).tagCtr + 1
    (s.modWarp w.uid w.wid fun w => { w with ftag := t }).modCore core fun c => { c with tagCtr := t })
    (s.modCore core fun c => { c with tagCtr := 0, l1 := c.l1.map fun x => { x with otag := 0 } })
  s.modCore core fun c => { c with tagCtr := max 1 c.tagCtr }

/-- A fresh filter tag for a warp (R382). -/
def State.freshTag (s : State) (uid wid : Nat) : State :=
  match s.warp? uid wid with
  | none => s
  | some w =>
    let t := (s.core w.core).tagCtr + 1
    if t > 0xFFFF then s.retag w.core
    else (s.modWarp uid wid fun w => { w with ftag := t }).modCore w.core fun c => { c with tagCtr := t }

/-- Sectors of a line that hold dirty bytes. -/
def dirtySectors (d : BitVec 64) : BitVec 2 :=
  (if d.extractLsb' 0 32 = 0 then 0#2 else 1#2) ||| (if d.extractLsb' 32 32 = 0 then 0#2 else 2#2)

/-- The core's epoch wraps (R383): clean sectors go, dirty bytes stay, and every epoch starts again. -/
def State.wrapEpoch (s : State) (core : Nat) : State :=
  let s := s.modCore core fun c =>
    { c with
      epoch := 1,
      l1 := (c.l1.filter fun x => x.dirty != 0 || x.pending != 0).map fun x =>
        { x with svalid := x.svalid &&& dirtySectors x.dirty, fepoch0 := 0, fepoch1 := 0 } }
  let ws : List Warp := s.warps.map fun (w : Warp) => if w.core = core then { w with acqEpoch := 1 } else w
  let ms : List Msg := s.msgs.map fun (m : Msg) =>
    match m.kind with
    | .fillReq f => if f.core = core then { m with kind := .fillReq { f with epoch := 0 } } else m
    | .fillReply f => if f.core = core then { m with kind := .fillReply { f with epoch := 0 } } else m
    | _ => m
  { s with warps := ws, msgs := ms }

/-- An acquire at cluster scope or wider, or a restore (R331, R383): the core's epoch rises and the warp takes it. -/
def State.bumpEpoch (s : State) (uid wid : Nat) : State :=
  match s.warp? uid wid with
  | none => s
  | some w =>
    let e := (s.core w.core).epoch + 1
    if e > 0xFFFF then s.wrapEpoch w.core
    else (s.modCore w.core fun c => { c with epoch := e }).modWarp uid wid fun w => { w with acqEpoch := e }

/-! ### Reads and writes of the L1 -/

/-- Sector of a byte of a line. -/
def sectorOf (a : Nat) : Nat := a % 64 / 32

def L1Line.fepoch (x : L1Line) (sec : Nat) : Nat := if sec = 0 then x.fepoch0 else x.fepoch1

/-- The dirty bytes of an access, the rest absent. -/
def L1Line.dirtyBytes (x : L1Line) (off n : Nat) : List (Option Byte) :=
  (List.range n).map fun k => if x.dirty.getLsbD (off + k) then some (lineByte x.data (off + k)) else none

/-- Does a sector serve clean bytes to a warp with this acquire epoch (R383)? A sector with fepoch 0 counts as
unfilled. -/
def L1Line.serves (x : L1Line) (sec acqEpoch : Nat) : Bool :=
  x.svalid.getLsbD sec && x.fepoch sec ≠ 0 && acqEpoch ≤ x.fepoch sec

/-- The bytes of an access as the L1 can serve them to a warp: its dirty bytes, and clean ones on a hit (R381, R383). -/
def L1Line.bytesFor (x : L1Line) (acqEpoch off n : Nat) : List (Option Byte) :=
  if x.serves (off / 32) acqEpoch then (List.range n).map fun k => some (lineByte x.data (off + k))
  else x.dirtyBytes off n

def allThere (bs : List (Option Byte)) : Bool := bs.all Option.isSome

/-- Is a byte of the access in a poisoned granule of the L1's copy (R379)? -/
def L1Line.poisonedAt (x : L1Line) (a n : Nat) : Bool := (granules a n).any fun k => x.poison.getLsbD k

/-- Ask the home for a sector (R381, R383). -/
def State.askFill (s : State) (core ctx line sec : Nat) (owed : List (Nat × Nat)) (loc va : Nat) (tpin : Bool) : State :=
  let s := s.send (.fillReq { core := core, ctx := ctx, line := line, sectors := (1 : BitVec 2) <<< sec,
                              epoch := (s.core core).epoch, owed := owed, loc := loc, va := va })
  (s.forward core ctx va loc line tpin).l1Mod core ctx line fun x => { x with pending := setBit x.pending sec true }

/-- Store bytes into the L1's line (R381, R384): data, dirty bits, and the granules covered whole lose their poison. -/
def L1Line.store (x : L1Line) (off : Nat) (bs : List Byte) : L1Line :=
  let mask : BitVec 64 := (List.range bs.length).foldl (fun (m : BitVec 64) k => setBit m (off + k) true) 0
  let d := (List.range bs.length).foldl (fun (d : BitVec 512) k => setLineByte d (off + k) (bs.getD k 0)) x.data
  { x with
    data := d, dirty := x.dirty ||| mask,
    poison := (List.range 4).foldl (fun (p : BitVec 4) k =>
      if mask.extractLsb' (16 * k) 16 = BitVec.allOnes 16 then setBit p k false else p) x.poison }

/-- Name a line in the warp's dirty list (R384). -/
def Warp.noteDirty (w : Warp) (line : Nat) : Warp :=
  if w.dirty.contains line then w
  else if w.dirty.length ≥ 256 then { w with dirtyOv := true }
  else { w with dirty := w.dirty ++ [line] }

/-- Words of a line that bytes `a` to `a + n - 1` touch. -/
def wordsOf (a n : Nat) : BitVec 16 :=
  (List.range 16).foldl (fun (m : BitVec 16) k => setBit m k (4 * k < a % 64 + n && a % 64 < 4 * k + 4)) 0

/-- Is the mark check of a data access filtered (R382)? -/
def L1Line.filters (x : L1Line) (tag : Nat) (write : Bool) (words : BitVec 16) : Bool :=
  tag ≠ 0 && x.otag = tag
    && ((x.wbits &&& words) = words || (!write && ((x.rbits ||| x.wbits) &&& words) = words))

/-- The line takes the warp as owner and its bits are set (R382). -/
def L1Line.owned (x : L1Line) (slot tag : Nat) (write : Bool) (words : BitVec 16) : L1Line :=
  let x := if x.otag = tag then x else { x with owner := slot, otag := tag, rbits := 0, wbits := 0 }
  if write then { x with wbits := x.wbits ||| words } else { x with rbits := x.rbits ||| words }

/-- The warp as a party (R294, R311). -/
def State.warpParty (s : State) (w : Warp) : Party :=
  { uid := w.uid, wid := w.wid, slot := w.lslot, num := w.iseq, acqNear := w.acqNear, acqWide := w.acqWide,
    phase := (s.ctx (s.warpCtx w)).phase, ctx := s.warpCtx w }

/-- Send a mark check (R382), which the current region waits for (R59). -/
def State.sendCheck (s : State) (w : Warp) (a : Access) : State :=
  let id := s.nextId
  (s.send (.check a w.core)).modWarp w.uid w.wid fun w => { w with checks := w.checks ++ [id] }

/-- Write back every dirty line of a core (R206, R384). -/
def State.flushCore (s : State) (core : Nat) : State :=
  (s.core core).l1.foldl (fun s x => s.writeBack core x.ctx x.line) s

/-- Write back the lines of a warp's current interval (R330, R384). -/
def State.flushWarp (s : State) (w : Warp) : State :=
  if w.dirtyOv then s.flushCore w.core
  else w.dirty.foldl (fun s l => s.writeBack w.core (s.warpCtx w) l) s

end Sys2Proof.Machine
end

