-- ==== Sys2Proof/Machine/Order.lean ====
section
/-! DEFINITION. Intervals, releases and acquires (R301 to R310, R323, R324, R330, R331): what ends an interval, the
hybrid clock, the ring of closed intervals, and an acquire that waits for its lanes. -/

namespace Sys2Proof.Machine

/-- Scope codes (R74). -/
def Scope.num : Scope → Nat
  | .warp => 0 | .block => 1 | .cluster => 2 | .die => 3 | .device => 4 | .domain => 5 | .system => 6

/-- Cluster scope or wider: performed at the home, with write-backs acknowledged (R302, R330). -/
def Scope.wide (x : Scope) : Bool := 2 ≤ Scope.num x

/-- Block scope or wider (R310). -/
def Scope.near (x : Scope) : Bool := 1 ≤ Scope.num x

/-- Has a closed interval expired (R323)? -/
def State.expired (s : State) (ctx : Nat) (i : Interval) : Bool :=
  match i.closeFar with
  | some t => t < (s.ctx ctx).floor
  | none => false

/-- Waiting acquire-only instructions of a warp, each of which will end an interval (R307): `ldfe`, with its last lane,
`take`, `rwait` and `sync.spawn`. -/
def State.endsDue (s : State) (w : Warp) : Nat :=
  (w.threads.foldl (fun (l : List Nat) t =>
    match t.st with
    | .blocked _ false => if l.contains t.waitSeq then l else t.waitSeq :: l
    | _ => l) []).length
    + ((s.core w.core).takes.filter fun t => t.uid == w.uid && t.wid == w.wid).length
    + (s.ringWaits.filter fun r => r.uid == w.uid && r.wid == w.wid).length
    + (((s.block? w.uid).map Block.syncs).getD []).foldl (fun n x => if x.1 = w.wid then n + 1 else n) 0

/-- Would an interval end have to wait for the ring (R324)? The entries it and the ends already due would retire have
not all expired. -/
def State.ringBlocked (s : State) (w : Warp) : Bool :=
  !((w.ring.drop (63 - s.endsDue w)).all (s.expired (s.warpCtx w)))

/-- Accesses of a warp that are still to be performed: loads without their bytes, and accesses on their way to a home
or to the well switch. No data access moves across an interval end (R296). -/
def State.accessesPending (s : State) (uid wid : Nat) : Bool :=
  (s.owed.any fun o => o.uid == uid && o.wid == wid && o.pieces.any fun p => !p.ready && !p.done)
    || s.msgs.any fun m =>
      match m.kind with
      | .strong r => r.uid == uid && r.wid == wid
      | .well r => r.uid == uid && r.wid == wid
      | _ => false

/-- End the warp's interval (R307): start its write-backs, put it in the ring and in the rings of its former slots
(R392), and take a fresh filter tag. `wide`: a release at cluster scope or wider, whose write-backs are in (R309). -/
def State.endInterval (s : State) (uid wid near : Nat) (wide : Bool) : State :=
  match s.warp? uid wid with
  | none => s
  | some w0 =>
    let s := s.flushWarp w0
    match s.warp? uid wid with
    | none => s
    | some w =>
      let far := if wide then some near else if w.wbs.any fun x => x.2 == w.iseq then none else some near
      let w' := { (w.pushInterval near far (s.ctx (s.warpCtx w)).phase) with dirty := [], dirtyOv := false }
      let s := s.setWarp w'
      let fs : List FormerRing := s.formers.map fun (f : FormerRing) =>
        if f.uid = uid ∧ f.wid = wid then { f with ring := ringJoin f.ring (w'.ring.take 1) } else f
      { s with formers := fs }.freshTag uid wid

/-- Raise the warp's acquire times for an acquire that synchronises with releases stamped up to `stamp` (R308, R310,
R331). The acquire time is the warp's clock afterwards. -/
def State.acquire (s : State) (uid wid : Nat) (scope : Scope) (stamp : Nat) : State :=
  match s.warp? uid wid with
  | none => s
  | some w =>
    let t := max s.time (max (w.clock + 1) (stamp + 1))
    let s := s.modWarp uid wid fun w =>
      { w with clock := t, acqNear := if Scope.near scope then t else w.acqNear,
               acqWide := if Scope.wide scope then t else w.acqWide }
    if Scope.wide scope then s.bumpEpoch uid wid else s

/-- The warp's clock. -/
def State.clockOf (s : State) (uid wid : Nat) : Nat := ((s.warp? uid wid).map Warp.clock).getD 0

/-- An acquire-only instruction's interval end (R307). -/
def State.acquireEnd (s : State) (uid wid : Nat) (scope : Scope) (stamp : Nat) : State :=
  let s := s.acquire uid wid scope stamp
  s.endInterval uid wid (s.clockOf uid wid) false

/-- The warp word of an evicted warp, in its save area, as the device now holds it: `%iseq` and the pending tokens (R50, R351). -/
def State.saveWord (s : State) (uid wid : Nat) : State :=
  match s.warp? uid wid, s.block? uid with
  | some w, some b =>
    let saved := match b.st with
      | .resident => true
      | .evicted _ => true
      | _ => false
    if w.resident || w.released || !saved then s
    else s.saveMod b (saveWordAt b.kernel wid) 64 fun v => v % 32 + warpWord w / 32 * 32
  | _, _ => s

/-- The acquire with which a wait ends (R199, R234, R257), and its interval end; an evicted warp's in its save area too. -/
def State.wakeAcquire (s : State) (uid wid : Nat) (scope : Scope) (stamp : Nat) : State :=
  (s.acquireEnd uid wid scope stamp).saveWord uid wid

/-- Stamp a release, whose waiting is over, and end the interval (R307, R308): later than the warp's clock and than every time
that a line has recorded for a relaxed atomic of it. -/
def State.releaseNow (s : State) (uid wid : Nat) (scope : Scope) : State :=
  match s.warp? uid wid with
  | none => s
  | some w =>
    let t := max s.time (max (w.clock + 1) (w.atomTime + 1))
    let s := s.modWarp uid wid fun w => { w with clock := t, relStamp := t, flushed := false }
    s.endInterval uid wid t (Scope.wide scope)

/-- A paired access whose lanes have all been performed: its acquire (R224, R307). -/
def State.finishAcq (s : State) (uid wid : Nat) (a : AcqWait) : State :=
  let s := s.modWarp uid wid fun w => { w with acq := none }
  if !a.acquires then s
  else if a.ended then s.acquire uid wid a.scope a.stamp
  else s.acquireEnd uid wid a.scope a.stamp

/-- The release of a paired access, with the first of its lanes that is performed at its home (R224, R308). -/
def State.releaseDue (s : State) (uid wid : Nat) : State :=
  match (s.warp? uid wid).bind Warp.acq with
  | none => s
  | some a =>
    if !a.rel then s
    else (s.releaseNow uid wid a.scope).modWarp uid wid fun w => { w with acq := some { a with rel := false, ended := true } }

/-- A lane of a waiting paired access has been performed, meeting releases (R303, R307). -/
def State.acqLane (s : State) (uid wid lane stamp : Nat) : State :=
  match s.warp? uid wid with
  | none => s
  | some w =>
    match w.acq with
    | none => s
    | some a =>
      let a := { a with lanes := a.lanes.erase lane, stamp := max a.stamp stamp, done := true }
      if a.lanes.isEmpty then s.finishAcq uid wid a else s.modWarp uid wid fun w => { w with acq := some a }

/-- A lane of a waiting paired access will not be performed: it faulted (R317). -/
def State.acqSkip (s : State) (uid wid lane : Nat) : State :=
  match s.warp? uid wid with
  | none => s
  | some w =>
    match w.acq with
    | none => s
    | some a =>
      let a := { a with lanes := a.lanes.erase lane }
      if !a.lanes.isEmpty then s.modWarp uid wid fun w => { w with acq := some a }
      else if a.done then s.finishAcq uid wid a
      else s.modWarp uid wid fun w => { w with acq := none }

/-- An acknowledged write-back of an interval, performed at its home at `t`; `last`: none of the interval is out any more, so a
pending closeFar is known (R309). -/
def Interval.acked (i : Interval) (num : Word) (t : Nat) (last : Bool) : Interval :=
  if i.num = num ∧ i.closeFar.isNone then
    { i with farAt := max i.farAt t, closeFar := if last then some (max (max i.farAt t) i.closeNear) else none }
  else i

/-- Write-back acknowledgements for an interval (R309). -/
def Warp.wbDone (w : Warp) (msg : Nat) (num : Word) (t : Nat) : Warp :=
  let wbs := w.wbs.filter fun x => x.1 != msg
  let last := !(wbs.any fun x => x.2 == num)
  { w with wbs := wbs, ring := w.ring.map fun i => i.acked num t last }

/-- The same, in the rings of former slots too (R392). -/
def State.wbDone (s : State) (uid wid msg : Nat) (num : Word) (t : Nat) : State :=
  let s := s.modWarp uid wid fun w => w.wbDone msg num t
  let last := !(((s.warp? uid wid).map Warp.wbs).getD []).any fun x => x.2 == num
  let fs : List FormerRing := s.formers.map fun (f : FormerRing) =>
    if f.uid = uid ∧ f.wid = wid then { f with ring := f.ring.map fun i => i.acked num t last } else f
  { s with formers := fs }

/-! ### Results owed (R38, R214) -/

/-- One result of a warp is in: the counter falls, and at zero the threads parked by a switch marker wake (R64). -/
def State.resultIn (s : State) (uid wid : Nat) : State :=
  let s := s.modWarp uid wid fun w => { w with outstanding := w.outstanding - 1 }
  match s.warp? uid wid with
  | none => s
  | some w => if w.outstanding = 0 then s.wake uid wid .marker else s

/-- Take an owed result off the list once nothing of it is missing (R214). -/
def State.settle (s : State) (id : Nat) : State :=
  match s.owed? id with
  | none => s
  | some o =>
    if o.writes.isEmpty && (o.pieces.all Piece.done) && o.lanes.isEmpty then
      if o.counted then (s.dropOwed id).resultIn o.uid o.wid else s.dropOwed id
    else s

/-- Owe a result that the counter has counted already, or does not count. -/
def State.oweMore (s : State) (o : Owed) : State :=
  { s with owed := s.owed ++ [{ o with id := s.nextId }], nextId := s.nextId + 1 }

/-- Owe a result to a warp (R38). -/
def State.owe (s : State) (o : Owed) : State :=
  (s.oweMore o).modWarp o.uid o.wid fun w => { w with outstanding := w.outstanding + 1 }

end Sys2Proof.Machine
end

