-- ==== Sys2Proof/Machine/Records.lean ====
section
/-! DEFINITION. Kernel descriptors (R447, R448), launch records (R339, R340), partitions (R337), what a block needs of a
core (R342, R343), and the wells of a cluster's pool (R344). -/

namespace Sys2Proof.Machine

/-- Are bits `lo` to `lo + len - 1` zero? -/
def zeroAt (v lo len : Nat) : Bool := fieldOf v lo len == 0

/-- A partition entry (R337): none when a reserved field or the budget is out of range. -/
def partitionOf (v : Nat) : Option Partition :=
  let bad := !(zeroAt v 145 367 && zeroAt v 121 7 && zeroAt v 89 7 && zeroAt v 57 7 && zeroAt v 25 7)
  let valid := fieldOf v 144 1 == 1
  if bad || (valid && fieldOf v 136 8 > 192) then none
  else
    some { valid := valid, wgran := fieldOf v 136 8, cmask := BitVec.ofNat 8 (fieldOf v 128 8),
           clus := (List.range 4).map fun d => BitVec.ofNat 25 (fieldOf v (32 * d) 25) }

/-- The clusters and cores a partition names, over the device, in placement order (R337, R347). -/
def Partition.clusters (p : Partition) : List Nat :=
  (List.range 100).filter fun k => (p.clus.getD (k / 25) 0).getLsbD (k % 25)

def Partition.coresOf (p : Partition) (cluster : Nat) : List Nat :=
  ((List.range 8).filter fun k => p.cmask.getLsbD k).map fun k => cluster * 8 + k

def Partition.cores (p : Partition) : List Nat := p.clusters.flatMap p.coresOf

/-- Bytes of a phase record with this carry set (R191). -/
def phaseBytes (nw nvec nuni : Nat) : Nat := 128 + roundLine (16 * nw) + nw * roundLine (128 * nvec + 4 * nuni)

/-- A kernel descriptor under the version rule (R447, R448). -/
def kernelOf (v : Nat) : Option Kernel :=
  let k : Kernel :=
    { entry := BitVec.ofNat 55 v, nv := fieldOf v 64 8, ns := fieldOf v 72 8, tiles := fieldOf v 80 4,
      accs := fieldOf v 84 5, streams := fieldOf v 89 6, cvs := fieldOf v 96 5, wellbytes := fieldOf v 104 20,
      privBytes := fieldOf v 128 25, ugbar := fieldOf v 248 1 == 1, uclbar := fieldOf v 249 1 == 1 }
  let reserved := zeroAt v 512 512 && zeroAt v 251 5 && zeroAt v 228 4 && zeroAt v 153 7 && zeroAt v 124 4
    && zeroAt v 101 3 && zeroAt v 95 1
  let version := fieldOf v 240 8 == 4 && fieldOf v 232 8 ≤ 2
  let ranges := fieldOf v 0 64 < 2 ^ 55 && 1 ≤ k.nv && k.nv ≤ 32 && 1 ≤ k.ns && k.ns ≤ 8 && k.tiles ≤ 8 && k.accs ≤ 16
    && k.streams ≤ 32 && k.streams % 4 == 0 && k.cvs ≤ 16 && k.wellbytes ≤ 786432 && k.privBytes ≤ 16777216
    && fieldOf v 224 4 ≤ 10 && fieldOf v 200 8 ≤ 127
  if reserved && version && ranges then some k else none

/-- Bytes of the phase record of the descriptor's own carry set (R340, R447). -/
def kernelPhaseBytes (v nw : Nat) : Nat :=
  phaseBytes nw (popCount (BitVec.ofNat 32 (fieldOf v 160 32))) (popCount (BitVec.ofNat 16 (fieldOf v 208 16)))

/-- A launch record's fields, in range (R339, R340). -/
def launchOf (v : Nat) : Option Launch :=
  let l : Launch :=
    { cores := fieldOf v 354 1 == 1, prio := fieldOf v 352 2, cgroup := fieldOf v 348 4, part := fieldOf v 344 4,
      queue := fieldOf v 336 6, ntid := fieldOf v 320 11, sastride := fieldOf v 288 32, nbid := fieldOf v 256 32,
      sabase := BitVec.ofNat 64 (fieldOf v 192 64), gpbase := BitVec.ofNat 64 (fieldOf v 128 64),
      param := BitVec.ofNat 64 (fieldOf v 64 64), kdesc := BitVec.ofNat 64 (fieldOf v 0 64) }
  if zeroAt v 355 669 && zeroAt v 342 2 && zeroAt v 331 5 && l.cgroup ≤ 8 && 1 ≤ l.ntid && l.ntid ≤ 1024
      && l.sastride % 64 == 0 && 1 ≤ l.nbid && l.sabase.toNat % 64 == 0 && l.gpbase.toNat % 256 == 0
      && l.kdesc.toNat % 64 == 0 then some l
  else none

/-! ### Room on a core (R342, R343) -/

/-- What one scheduler has free: warp slots, vector granules, uniform granules. -/
structure SchedRoom where
  slots : Nat
  vgran : Nat
  sgran : Nat
  deriving DecidableEq, Repr

/-- What a core has free. -/
structure CoreRoom where
  scheds : List SchedRoom
  tiles : Nat
  accs : Nat
  streams : Nat
  cvs : Nat
  /-- Well budget left for the partition concerned. -/
  budget : Nat
  deriving DecidableEq, Repr

def emptyRoom (wgran : Nat) : CoreRoom :=
  { scheds := List.replicate 4 ⟨32, 192, 256⟩, tiles := 8, accs := 16, streams := 8, cvs := 128, budget := wgran }

def Kernel.granules (k : Kernel) : Nat := ceilDiv k.wellbytes 4096

/-- The scheduler the next warp goes to (R343). -/
def pickSched (k : Kernel) (rs : List SchedRoom) : Option Nat :=
  let ok := (List.range rs.length).filter fun i =>
    let r := rs.getD i ⟨0, 0, 0⟩
    1 ≤ r.slots && k.nv ≤ r.vgran && k.ns ≤ r.sgran
  bestBy (fun i j =>
    let a := rs.getD i ⟨0, 0, 0⟩
    let b := rs.getD j ⟨0, 0, 0⟩
    a.vgran > b.vgran || (a.vgran == b.vgran && (a.slots > b.slots || (a.slots == b.slots && i < j)))) ok

/-- Assign warps to schedulers in `%wid` order: their schedulers, and the room left. -/
def assignWarps (k : Kernel) : Nat → List SchedRoom → Option (List Nat × List SchedRoom)
  | 0, rs => some ([], rs)
  | n + 1, rs =>
    match pickSched k rs with
    | none => none
    | some i =>
      let r := rs.getD i ⟨0, 0, 0⟩
      match assignWarps k n (rs.set i ⟨r.slots - 1, r.vgran - k.nv, r.sgran - k.ns⟩) with
      | none => none
      | some (l, rs) => some (i :: l, rs)

/-- Take a block out of a core's room: the schedulers of its warps, and the room left; none when it does not fit. -/
def CoreRoom.take (r : CoreRoom) (k : Kernel) (nw : Nat) (owned : Bool) : Option (List Nat × CoreRoom) :=
  match assignWarps k nw r.scheds with
  | none => none
  | some (l, rs) =>
    if !owned then some (l, { r with scheds := rs })
    else if k.tiles ≤ r.tiles ∧ k.accs ≤ r.accs ∧ k.streams / 4 ≤ r.streams ∧ k.cvs ≤ r.cvs ∧ k.granules ≤ r.budget then
      some (l, { scheds := rs, tiles := r.tiles - k.tiles, accs := r.accs - k.accs, streams := r.streams - k.streams / 4,
                 cvs := r.cvs - k.cvs, budget := r.budget - k.granules })
    else none

/-- How many blocks of a kernel an empty core holds, at most `fuel`. -/
def coreHolds (k : Kernel) (nw : Nat) : Nat → CoreRoom → Nat
  | 0, _ => 0
  | fuel + 1, r =>
    match r.take k nw true with
    | none => 0
    | some (_, r) => coreHolds k nw fuel r + 1

/-- How many blocks of a kernel a cluster's empty pool holds (R344). -/
def poolHolds (k : Kernel) : Nat :=
  let g := k.granules
  if g = 0 then 128 * 8
  else
    (List.range 1025).foldl (fun best n =>
      let full := n * (g / 16)
      let last := if g % 16 = 0 then 0 else ceilDiv n (16 / (g % 16))
      if full + last ≤ 96 then n else best) 0

/-- Can the partition, with no other work, hold every block at once (R340, R348)? -/
def holdsAll (p : Partition) (k : Kernel) (l : Launch) : Bool :=
  let per := coreHolds k (ceilDiv l.ntid 32) 128 (emptyRoom p.wgran)
  let cl (c : Nat) : Nat := min ((p.coresOf c).length * per) (poolHolds k)
  if l.cgroup = 0 then l.nbid ≤ p.clusters.foldl (fun n c => n + cl c) 0
  else
    let whole := p.clusters.foldl (fun n c => n + cl c / l.cgroup) 0
    let full := l.nbid / l.cgroup
    let last := l.nbid % l.cgroup
    -- the smaller last group takes a place that is over when the whole groups are placed
    if last = 0 then full ≤ whole
    else full < whole || (full == whole && p.clusters.any fun c => last ≤ cl c % l.cgroup)

/-- The check of a launch record (R340): its fields, its kernel and its partition, or none. -/
def State.checkLaunch (s : State) (ctx v : Nat) (units : List TlbUnit := []) : Option (Launch × Kernel × Partition) :=
  match launchOf v with
  | none => none
  | some l =>
    match (s.readVirt units ctx l.kdesc.toNat 2).1 with
    | .error _ => none
    | .ok bs =>
      let kv := natOfBytes bs
      match kernelOf kv with
      | none => none
      | some k =>
        let p := s.plat.partitions.getD l.part {}
        let nw := ceilDiv l.ntid 32
        if p.valid && ((emptyRoom p.wgran).take k nw true).isSome && 1 ≤ poolHolds k
            && saveSize k l.ntid ≤ l.sastride && kernelPhaseBytes kv nw ≤ l.sastride
            && (!l.cores || holdsAll p k l) && (!k.ugbar || l.cores) && (!k.uclbar || l.cgroup != 0) then
          some (l, k, p)
        else none

/-- A warp holds its slot and registers. -/
def Warp.holds (w : Warp) : Bool := w.resident && !w.released

/-- Does a block hold its block-owned resources on its core (R342)? -/
def State.holdsCore (s : State) (b : Block) : Bool :=
  match b.st with
  | .resident => true
  | .phase _ => (s.warpsOf b.uid).any Warp.holds
  | _ => false

/-- Partition number of a block's grid. -/
def State.partOf (s : State) (b : Block) : Nat := ((s.grid? b.gid).map fun g => g.launch.part).getD 0

/-- Is the interval that was open when a warp left a slot still open (R391, R392)? -/
def State.lastOpen (s : State) (f : FormerRing) : Bool := (s.warp? f.uid f.wid).any fun w => !w.released && w.iseq == f.last

/-- Slots of former rings still reachable (R392): until every interval in them that owns low bits has expired, the one that the
warp left open among them. -/
def State.formersAt (s : State) (ls : Nat) : Nat :=
  (s.formers.filter fun f =>
    let own := s.owners.filter fun o => o.slot == ls && o.uid == f.uid && o.wid == f.wid
    f.slot == ls && own.any fun o =>
      (o.num == f.last && s.lastOpen f) || f.ring.any fun i => o.num == i.num && !s.expired o.ctx i).length

/-- Warp slots of a core that are taken: by a warp, by the last merging warp of an unfolded child (R197), or by two
former rings (R392). -/
def State.slotTaken (s : State) (core slot : Nat) : Bool :=
  (s.warps.any fun w => w.holds && w.core == core && w.slot == slot)
    || (s.blocks.any fun b => !(b.st == .retired) && (b.merge.any fun m => m.merged && m.core == core && m.slot == slot))
    || 2 ≤ s.formersAt (liveSlot core slot)

/-- What a core has free for blocks of a partition (R342, R343). -/
def State.room (s : State) (core part wgran : Nat) : CoreRoom :=
  let ws := s.warps.filter fun w => w.holds && w.core == core
  let kern (w : Warp) : Kernel := ((s.block? w.uid).map Block.kernel).getD {}
  let bs := s.blocks.filter fun b => b.core == core && s.holdsCore b
  let sum (f : Kernel → Nat) : Nat := bs.foldl (fun n b => n + f b.kernel) 0
  { scheds := (List.range 4).map fun i =>
      let mine := ws.filter fun w => w.slot / 32 == i
      { slots := ((List.range 32).filter fun k => !s.slotTaken core (32 * i + k)).length,
        vgran := 192 - mine.foldl (fun n w => n + (kern w).nv) 0,
        sgran := 256 - mine.foldl (fun n w => n + (kern w).ns) 0 },
    tiles := 8 - sum Kernel.tiles, accs := 16 - sum Kernel.accs, streams := 8 - sum fun k => k.streams / 4,
    cvs := 128 - sum Kernel.cvs,
    budget := wgran - (bs.filter fun b => s.partOf b == part).foldl (fun n b => n + b.kernel.granules) 0 }

/-! ### The pool of wells (R344, R402 to R405) -/

/-- Bank-map slots of a block that are spilled (R434). -/
def State.spilledSlots (s : State) (uid : Nat) : List Nat := ((s.spills.find? fun p => p.uid == uid).map Spill.slots).getD []

/-- Granules of a cluster's wells that are taken: well, first granule, count. Spilled ones are free (R434). -/
def State.wellsTaken (s : State) (cluster : Nat) : List (Nat × Nat × Nat) :=
  (s.blocks.filter fun b => b.cluster == some cluster).flatMap
      (fun b => (b.bank.filter fun x => !(s.spilledSlots b.uid).contains x.1).map fun x => (x.2.well, x.2.first, x.2.count))
    ++ (s.cores.filter fun c => coreCluster c.id == cluster).flatMap (fun c => c.arrivals.map fun a => (a.well, 0, 16))

/-- Is a granule of a well free? -/
def granFree (taken : List (Nat × Nat × Nat)) (well g : Nat) : Bool :=
  !taken.any fun t => t.1 == well && t.2.1 ≤ g && g < t.2.1 + t.2.2

/-- Places for a run of `n` granules: well and first granule. -/
def runsFree (taken : List (Nat × Nat × Nat)) (n : Nat) : List (Nat × Nat) :=
  (List.range 96).flatMap fun w =>
    ((List.range (17 - n)).filter fun f => (List.range n).all fun k => granFree taken w (f + k)).map fun f => (w, f)

/-- Take a run of granules of the pool, as the well switch chooses (R344, log entry 3). -/
def State.takeRun (s : State) (taken : List (Nat × Nat × Nat)) (n : Nat) : Option (Bank × State) :=
  match runsFree taken n with
  | [] => none
  | x :: xs =>
    let (k, s) := s.draw 2 (xs.length + 1)
    let y := (x :: xs).getD k x
    some ({ well := y.1, first := y.2, count := n }, s)

/-- Map a block's well range (R344): slots 0 and up, `left` granules to go. -/
def takeWells : Nat → State → List (Nat × Nat × Nat) → Nat → Nat → Option (List (Nat × Bank) × State)
  | 0, s, _, _, _ => some ([], s)
  | fuel + 1, s, taken, slot, left =>
    if left = 0 then some ([], s)
    else
      match s.takeRun taken (min 16 left) with
      | none => none
      | some (b, s) =>
        match takeWells fuel s ((b.well, b.first, b.count) :: taken) (slot + 1) (left - min 16 left) with
        | none => none
        | some (l, s) => some ((slot, b) :: l, s)

/-- Make a run of granules read as zero and empty (R344). -/
def State.clearRun (s : State) (cluster : Nat) (b : Bank) : State :=
  let lo := wellKey cluster b.well (b.first * 1024)
  let n := b.count * 1024
  { s with wells := cclear s.wells lo n, wellFull := cclear s.wellFull lo n, wellPoison := cclear s.wellPoison lo n,
           wellBad := cclear s.wellBad lo n }

end Sys2Proof.Machine
end

