-- ==== Sys2Proof/Machine/Place.lean ====
section
/-! DEFINITION. Blocks on and off a core: starting a block (R349), eviction and its save area (R48, R371, R372, R433,
R514), restoration (R52, R374, R435), spilling wells (R434), and phases (R188 to R191, R363). -/

namespace Sys2Proof.Machine

/-! ### Warps into slots -/

/-- Effective priority of a context (R368, R429). -/
def State.effPrio (s : State) (ctx : Nat) : Nat :=
  if s.privileged ctx || s.plat.sliceOwner == some ctx then 15 else (s.ctx ctx).prio

/-- Put a warp into a free slot of a scheduler (R17, log entry 3): which one is not stated. -/
def State.seatWarp (s : State) (w : Warp) (core sched : Nat) : State :=
  let free := (List.range 32).filter fun k => !s.slotTaken core (32 * sched + k)
  let (k, s) := s.draw 3 (max 1 free.length)
  let w : Warp := { w with core := core, slot := 32 * sched + free.getD k 0, resident := true, released := false }
  (if (s.warp? w.uid w.wid).isSome then s.setWarp w else { s with warps := s.warps ++ [w] }).freshTag w.uid w.wid

/-- The threads of a warp at block start (R15, R18): in the entry region, whose instance is number 0 (R59, R494). -/
def startThreads (entry : Pc) (ntid wid : Nat) : List Thread :=
  lanes.map fun l =>
    let t : Thread := { pc := entry, rentry := entry, reenter := true, landed := true }
    if tidOf wid l < ntid then t else { t with st := .exited }

/-- Seat the warps of a block. -/
def State.seatAll (s : State) (ws : List Warp) (core : Nat) (scheds : List Nat) : State :=
  (ws.zip scheds).foldl (fun s x => s.seatWarp x.1 core x.2) s

/-- Every warp of a block acquires at device scope, as a start does (R302, R349). -/
def State.startAcquire (s : State) (uid stamp : Nat) : State :=
  (s.warpsOf uid).foldl (fun (s : State) (w : Warp) => if w.holds then s.acquire uid w.wid .device stamp else s) s

/-- START A BLOCK on a core (R27, R349): registers and wells zero, live lanes ready at the entry. -/
def State.startBlock (s : State) (b : Block) (core : Nat) (scheds : List Nat) (bank : List (Nat × Bank)) (stamp : Nat) :
    State :=
  let ctx := s.ctx b.ctx
  let cl := coreCluster core
  let b : Block := { b with st := .resident, core := core, cluster := some cl, start := s.time, bank := b.bank ++ bank,
                            hcheck := ctx.hcheck, watch := ctx.watch }
  let s := if (s.block? b.uid).isSome then s.setBlock b else { s with blocks := s.blocks ++ [b] }
  let s := bank.foldl (fun (s : State) x => s.clearRun cl x.2) s
  let ws : List Warp := (List.range b.nwarps).map fun wid =>
    { uid := b.uid, wid := wid, threads := startThreads b.kernel.entry b.ntid wid }
  let s := s.seatAll ws core scheds
  let s := s.startAcquire b.uid stamp
  s.traceEvent (coreDie core) 2 none none none none b.ctx

/-! ### Eviction (R371, R372, R433, R514) -/

/-- Addresses of the lines of a block's save slot, or the translation fault and its address (R514). -/
def State.saveLines (s : State) (b : Block) : Except (XFault × Nat) (List Nat) :=
  (s.xlatLines [] b.ctx (s.saveSlot b) .write (saveSize b.kernel b.ntid / 64)).1

/-- The report of a refused eviction (R514). -/
def State.refuseReport (s : State) (b : Block) (x : XFault) (addr : Nat) : State :=
  match s.warp? b.uid 0 with
  | none => s
  | some w =>
    s.report w.core (s.recordOf w
      { code := x.code.code, addr := BitVec.ofNat 64 addr, src := 2, acc := 2, cause := x.cause, level := x.level })

/-- Write bytes at an offset of the slot whose lines lie at these addresses; the offset is a multiple of 64. -/
def writeSlot (m : Memory) (pas : List Nat) (off : Nat) (bs : List Byte) : Memory := writeLines m (pas.drop (off / 64)) bs

/-- Threads of a warp as it leaves its core (R47, R372): each returns to its region entry, which for a thread whose last
instruction has ended its region is where it stands. Ready, paused and well-blocked ones are ready; parked ones keep their
reason, and those of a switch marker have lost the loads they wait for (R507, R512). `dbg`: fault-parked threads take reason 8
(R442). -/
def evictThread (dbg : Bool) (t : Thread) : Thread :=
  match t.st with
  | .ready => { t.rollback with st := .ready }
  | .paused _ => { t.rollback with st := .ready, marker := false }
  | .blocked _ _ => { t.rollback with st := .ready, marker := false }
  | .parked r => { t.rollback with st := .parked (if dbg && r == .fault then .debugger else r) }
  | .exited => t

/-- Can a warp leave now: no strong value in flight (R215), no `give` half done? -/
def State.canLeave (s : State) (w : Warp) : Bool :=
  !s.strongBusy w.uid w.wid && w.acq.isNone && !(s.gives.any fun g => g.uid == w.uid && g.wid == w.wid)

/-- Evict one warp into its sections of the save slot (R372). -/
def State.evictWarp (s : State) (b : Block) (pas : List Nat) (wid : Nat) (dbg : Bool) : State :=
  match s.warp? b.uid wid with
  | none => s
  | some w0 =>
    if !w0.holds then s
    else
      let s := s.unqueue w0 b.ctx
      let s := (s.flushWarp w0).discardLoads b.uid wid
      let s := { s with owed := s.owed.filter fun o => !(o.uid == b.uid && o.wid == wid) }
      let s := s.unspecify b.uid wid fun t => t.st != .exited
      match s.warp? b.uid wid with
      | none => s
      | some w =>
        let c := s.core w.core
        let mine := c.takes.filter fun t => t.uid == b.uid && t.wid == wid
        let s := s.setCore { c with takes := c.takes.filter fun t => !(t.uid == b.uid && t.wid == wid) }
        let w' : Warp :=
          { w with threads := w.threads.map (evictThread dbg), resident := false, bundle := none, line := none,
                   stall := false, ringStall := false, tokenStall := false, flushed := false, waitId := 0, atBoundary := false, faultStall := none,
                   -- the fault of a `bar.phase` that was not performed is still to come (R188)
                   deferred := w.deferred.filter fun x => x.2.code == FaultCode.illegal.code, dirty := [], dirtyOv := false, yielded := false, since := none,
                   takes := mine, checks := [] }
        let s := { s with formers := { slot := w.lslot, uid := b.uid, wid := wid, ring := w.ring, last := w.iseq, ctx := b.ctx } :: s.formers }
        let s := { s with mem := writeSlot s.mem pas (saveWarpAt b.kernel wid) (warpImage b.kernel w') }
        let s := s.forwardLines w.core b.ctx (s.saveSlot b + saveWarpAt b.kernel wid) (warpBytes b.kernel / 64) .write
        (s.setWarp w').traceEvent (coreDie w.core) 7 none none (some w.eseq) (some w.lslot) b.ctx

/-- The block-owned sections and the header (R48, R49). -/
def State.saveBlock (s : State) (b : Block) (pas : List Nat) : State :=
  let num := ((s.grid? b.gid).map Grid.num).getD 0
  let m := writeSlot s.mem pas 0 (bytesOfNat 128 (saveHeader b num))
  let s := { s with mem := writeSlot m pas (saveTilesAt b.kernel b.nwarps) (blockImage b) }
  (s.forwardLines b.core b.ctx (s.saveSlot b) 2 .write).forwardLines b.core b.ctx (s.saveSlot b + saveTilesAt b.kernel b.nwarps)
    ((blockImage b).length / 64) .write

/-- Evict a whole block (R372, R433); its wells stay in the pool. `dbg`: the warp a BRK has parked (R442). -/
def State.evictBlock (s : State) (b : Block) (pas : List Nat) (bySys : Bool) (dbg : Option Nat) : State :=
  let s := (List.range b.nwarps).foldl (fun s wid => s.evictWarp b pas wid (dbg == some wid)) s
  let s := (s.saveBlock b pas)
  let s := s.modCores fun c => { c with takes := c.takes.filter fun t => t.uid != b.uid }
  s.modBlock b.uid fun b => { b with st := .evicted bySys, resume := false }

/-- May a block be evicted now? Every warp can leave. -/
def State.blockCanLeave (s : State) (b : Block) : Bool :=
  b.st == .resident && (s.warpsOf b.uid).all fun w => !w.holds || s.canLeave w

/-- Swap a block out for the debugger after its warp `wid` took BRK (R442), unless its save slot refuses (R514). -/
def State.swapOut (s : State) (uid wid : Nat) : State :=
  match s.block? uid, s.warp? uid wid with
  | some b, some w =>
    if !w.held || !(b.st == .resident) then s
    else
      match s.saveLines b with
      | .ok pas => s.evictBlock b pas true (some wid)
      | .error (x, a) => s.refuseReport b x a
  | _, _ => s

/-! ### Spilling and reloading wells (R434, R435) -/

/-- Bytes of a spill slot's part for a bank-map slot. -/
def spillAt (slot k : Nat) : Nat := 835584 * slot + 69632 * k

/-- The words of one granule: data bytes, full bits, poison bits. -/
def State.granuleImage (s : State) (cl well g : Nat) : List Byte × List Byte × List Byte :=
  let lo := wellKey cl well (g * 1024)
  let bitsAt (c : Cells 1) : List Byte := (List.range 128).map fun i =>
    BitVec.ofNat 8 ((List.range 8).foldl (fun n j => n + (cget c (lo + 8 * i + j)).toNat * 2 ^ j) 0)
  ((List.range 1024).flatMap fun i => wordBytes (s.wellGet (lo + i)), bitsAt s.wellFull, bitsAt s.wellPoison)

/-- Write bytes through the handler context's tables; none when a line fails. -/
def State.writeVirt (s : State) (ctx va : Nat) (bs : List Byte) : Option State :=
  match (s.xlatLines [] ctx (va / 64 * 64) .write (ceilDiv (va % 64 + bs.length) 64)).1 with
  | .error _ => none
  | .ok pas =>
    some (((List.range bs.length).zip bs).foldl (fun (s : State) x =>
      { s with mem := cset (w := 8) s.mem (pas.getD ((va % 64 + x.1) / 64) 0 + (va + x.1) % 64) x.2 }) s)

/-- Read bytes through a context's tables. -/
def State.readVirtBytes (s : State) (ctx va n : Nat) : Option (List Byte) :=
  match (s.xlatLines [] ctx (va / 64 * 64) .read (ceilDiv (va % 64 + n) 64)).1 with
  | .error _ => none
  | .ok pas => some ((List.range n).map fun i => cget (w := 8) s.mem (pas.getD ((va % 64 + i) / 64) 0 + (va + i) % 64))

/-- The lines of a granule in a spill slot: its data, and its full and poison bits (R434). -/
def State.spillLines (s : State) (cl hctx base i : Nat) (need : Need) : State :=
  ((s.forwardLines (8 * cl) hctx (base + 4096 * i) 64 need).forwardLines (8 * cl) hctx (base + 65536 + 128 * i) 2 need).forwardLines
    (8 * cl) hctx (base + 67584 + 128 * i) 2 need

/-- Spill one bank-map slot. -/
def State.spillBank (s : State) (hctx base cl : Nat) (x : Nat × Bank) : Option State :=
  (List.range x.2.count).foldl (fun (o : Option State) i =>
    o.bind fun s =>
      let (d, f, p) := s.granuleImage cl x.2.well (x.2.first + i)
      let s := s.spillLines cl hctx base i .write
      ((s.writeVirt hctx (base + 4096 * i) d).bind fun s => s.writeVirt hctx (base + 65536 + 128 * i) f).bind fun s =>
        s.writeVirt hctx (base + 67584 + 128 * i) p) (some s)

/-- Does the well of a bank-map entry hold an open ring header (R259)? It is never spilled. -/
def State.holdsRing (s : State) (cl : Nat) (x : Nat × Bank) : Bool := s.rings.any fun r => r.cluster == cl && r.well == x.2.well

/-- The bank-map entries of an evicted block that may be spilled now, and are not yet (R434). -/
def State.spillable (s : State) (b : Block) : List (Nat × Bank) :=
  match b.cluster with
  | some cl => b.bank.filter fun x => !s.holdsRing cl x && !(s.spilledSlots b.uid).contains x.1
  | none => []

/-- Has an engine command, an access or a fold that touches the block's wells not completed (R434)? The fold of a child is among them
from its `spawn` on. -/
def State.wellsBusy (s : State) (b : Block) : Bool :=
  (s.engines.any fun e => e.uid == b.uid && !(e.st == .done))
    || (s.msgs.any fun m =>
      match m.kind with
      | .well r => r.uid == b.uid
      | _ => false)
    || s.blocks.any fun c => (c.parent.map Prod.fst) == some b.uid && !(c.st == .retired) && !c.views.isEmpty

/-- The spill slot of a block: the one that it has, else the lowest free one of its context. -/
def State.spillSlot (s : State) (b : Block) : Option Nat :=
  match s.spills.find? fun p => p.uid == b.uid with
  | some p => some p.slot
  | none => (List.range (s.ctx b.ctx).nspill).find? fun k => !s.spills.any fun p => p.ctx == b.ctx && p.slot == k

/-- The words of a bank-map entry that the switch's code has found uncorrectable, by bank-map slot and word (R402). -/
def State.bankBad (s : State) (cl : Nat) (x : Nat × Bank) : List Nat :=
  let lo := wellKey cl x.2.well (x.2.first * 1024)
  (s.wellBad.filter fun c => lo ≤ c.1 && c.1 < lo + 1024 * x.2.count).map fun c => 16384 * x.1 + (c.1 - lo)

/-- Spill the wells of an evicted block, but for those that hold an open ring's header (R434); none when it stays pinned. -/
def State.spill (s : State) (b : Block) : Option State :=
  match s.spillSlot b, b.cluster with
  | some k, some cl =>
    let xs := s.spillable b
    if xs.isEmpty || s.wellsBusy b then none
    else
      let c := s.ctx b.ctx
      (xs.foldl (fun (o : Option State) x =>
        o.bind fun s => s.spillBank c.hctx (c.wspill.toNat + spillAt k x.1) cl x) (some s)).map fun s =>
          { s with
            spills := (s.spills.filter fun p => p.uid != b.uid)
              ++ [{ ctx := b.ctx, slot := k, uid := b.uid, slots := s.spilledSlots b.uid ++ xs.map Prod.fst,
                    bad := ((s.spills.find? fun p => p.uid == b.uid).map Spill.bad).getD [] ++ xs.flatMap (s.bankBad cl) }] }
  | _, _ => none

/-- Reload one bank-map slot from a spill slot into a fresh run; `bad`: its words that were beyond correction (R402). -/
def State.reloadBank (s : State) (hctx base cl : Nat) (b : Bank) (bad : List Nat) : State :=
  (List.range b.count).foldl (fun (s : State) i =>
    let lo := wellKey cl b.well ((b.first + i) * 1024)
    let s := s.spillLines cl hctx base i .read
    let d := (s.readVirtBytes hctx (base + 4096 * i) 4096).getD []
    let f := (s.readVirtBytes hctx (base + 65536 + 128 * i) 128).getD []
    let p := (s.readVirtBytes hctx (base + 67584 + 128 * i) 128).getD []
    let bits (bs : List Byte) : List (BitVec 1) :=
      (List.range 1024).map fun j => if (bs.getD (j / 8) 0).getLsbD (j % 8) then 1 else 0
    let ws : List Word := (List.range 1024).map fun j => BitVec.ofNat 32 (natOfBytes ((d.drop (4 * j)).take 4))
    { s with wells := cput s.wells lo ws, wellFull := cput s.wellFull lo (bits f), wellPoison := cput s.wellPoison lo (bits p),
             wellBad := bad.foldl (fun m k => if 1024 * i ≤ k ∧ k < 1024 * (i + 1) then cset m (lo + k % 1024) 1 else m)
               (cclear s.wellBad lo 1024) }) s

/-- Fresh granules for the bank map of a spilled block, slot by slot with their counts (R435). -/
def freshBanks : List (Nat × Bank) → State → List (Nat × Nat × Nat) → Option (List (Nat × Bank) × State)
  | [], s, _ => some ([], s)
  | (k, b) :: rest, s, taken =>
    match s.takeRun taken b.count with
    | none => none
    | some (n, s) =>
      match freshBanks rest s ((n.well, n.first, n.count) :: taken) with
      | none => none
      | some (l, s) => some ((k, n) :: l, s)

/-- Bring a block's spilled wells back, each at its slot (R435); none when the pool lacks the granules. -/
def State.unspill (s : State) (b : Block) : Option State :=
  match s.spills.find? fun p => p.uid == b.uid, b.cluster with
  | some p, some cl =>
    match freshBanks (b.bank.filter fun x => p.slots.contains x.1) s (s.wellsTaken cl) with
    | none => none
    | some (l, s) =>
      let c := s.ctx b.ctx
      let s := l.foldl (fun (s : State) x =>
        s.reloadBank c.hctx (c.wspill.toNat + spillAt p.slot x.1) cl x.2
          ((p.bad.filter fun k => k / 16384 == x.1).map fun k => k % 16384)) s
      some ({ s with spills := s.spills.filter fun q => q.uid != b.uid }.modBlock b.uid fun b =>
        { b with bank := b.bank.map fun (x : Nat × Bank) => (x.1, (assocGet l x.1).getD x.2) })
  | _, _ => some s

/-! ### Restoration (R52, R374) -/

/-- A thread after a restore: marker parks wake, since the counter is zero (R47), and so do threads the debugger held
(R442). Its first issue re-enters the saved region instance and lands on the saved PC (R21, R58, R59). -/
def restoreThread (t : Thread) : Thread :=
  let t := { t with reenter := true, landed := true, newRegion := false, runWr := [] }
  match t.st with
  | .parked .marker => { t with st := .ready, marker := false }
  | .parked .debugger => { t with st := .ready }
  | _ => t

/-- The saved sections of a warp. -/
def State.savedWarp (s : State) (b : Block) (pas : List Nat) (w : Warp) : Option Warp :=
  let bs := ((pas.drop (saveWarpAt b.kernel w.wid / 64)).take (warpBytes b.kernel / 64)).flatMap fun a => readBytes s.mem a 64
  warpBack b.kernel w bs

/-- Restore one warp to a scheduler (R52, R374, R383). -/
def State.restoreWarp (s : State) (b : Block) (w : Warp) (core sched : Nat) : State :=
  let dbg := w.threads.any fun t => t.st == .parked .debugger
  let w' : Warp := { w with threads := w.threads.map restoreThread, outstanding := 0, held := w.held && !dbg, takes := [], barred := false }
  let s := (s.seatWarp w' core sched).bumpEpoch w.uid w.wid
  let s := s.modCore core fun c => { c with takes := c.takes ++ w.takes.map fun t => { t with counted := false } }
  let s := s.forwardLines core b.ctx (s.saveSlot b + saveWarpAt b.kernel w.wid) (warpBytes b.kernel / 64)
  s.traceEvent (coreDie core) 8 none none (some w.eseq) ((s.warp? w.uid w.wid).map Warp.lslot) b.ctx

/-- A block header and its reserved bytes are as the device wrote them (R21, R49). -/
def State.headerKept (s : State) (b : Block) (pas : List Nat) : Bool :=
  let num := ((s.grid? b.gid).map Grid.num).getD 0
  natOfBytes ((pas.take 2).flatMap fun a => readBytes s.mem a 64) == saveHeader b num

/-- The record of a resume that faults ILLEGAL (R21), naming a warp. -/
def State.illegalReport (s : State) (uid wid : Nat) : State :=
  match s.warp? uid wid with
  | none => s
  | some w =>
    let t := w.thread 0
    s.report w.core (s.recordOf w { code := FaultCode.illegal.code, pc := t.pc, rentry := t.rentry, rseq := t.rseq, eseq := w.eseq })

/-- The resume of a block faults ILLEGAL (R21): a record naming its warp 0, and nothing resumes. -/
def State.resumeIllegal (s : State) (b : Block) : State :=
  (s.modBlock b.uid fun b => { b with resume := false, st := .evicted true }).illegalReport b.uid 0

/-- The resume of a warp evicted alone faults ILLEGAL (R21): it does not resume. -/
def State.warpIllegal (s : State) (b : Block) (wid : Nat) : State :=
  (s.modWarp b.uid wid fun w => { w with barred := true }).illegalReport b.uid wid

/-- RESTORE a whole evicted block to a core (R52); none when the pool cannot hold its wells. -/
def State.restoreBlock (s : State) (b : Block) (core : Nat) (scheds : List Nat) : Option State :=
  match s.saveLines b with
  | .error _ => none
  | .ok pas =>
    let ws := (s.warpsOf b.uid).filter fun w => !w.released
    let back := allSome (ws.map fun w => s.savedWarp b pas w)
    let own := blockBack b ((pas.drop (saveTilesAt b.kernel b.nwarps / 64)).flatMap fun a => readBytes s.mem a 64)
    match back, own with
    | some ws', some b' =>
      if !s.headerKept b pas then some (s.resumeIllegal b)
      else
        match s.unspill b with
        | none => none
        | some s =>
          let bank := ((s.block? b.uid).map Block.bank).getD []
          let c := s.ctx b.ctx
          let s := s.setBlock { b' with st := .resident, core := core, cluster := some (coreCluster core),
                                        bank := bank, resume := false, hcheck := c.hcheck, watch := c.watch }
          let n := (saveSize b.kernel b.ntid - saveTilesAt b.kernel b.nwarps) / 64
          let s := (s.forwardLines core b.ctx (s.saveSlot b) 2).forwardLines core b.ctx (s.saveSlot b + saveTilesAt b.kernel b.nwarps) n
          some ((ws'.zip scheds).foldl (fun (s : State) x => s.restoreWarp b x.1 core x.2) s)
    | _, _ => some (s.resumeIllegal b)

/-! ### Phases (R188 to R191) -/

/-- The carried registers of a phase operation. -/
def PhaseOp.vecs (p : PhaseOp) : List Nat := ((List.range 32).filter fun k => p.vmask.getLsbD k).map fun k => p.vb + k
def PhaseOp.unis (p : PhaseOp) : List Nat := ((List.range 16).filter fun k => p.smask.getLsbD k).map fun k => p.sb + k

/-- Size of a block's phase record. -/
def phaseSize (b : Block) (p : PhaseOp) : Nat := phaseBytes b.nwarps p.vecs.length p.unis.length

/-- The header of a phase record (R191), its link field zero. `pc`: the instruction after `bar.phase`. -/
def phaseHeader (b : Block) (num : Word) (p : PhaseOp) (pc : Pc) : Nat :=
  putField 64 32 b.bid + putField 96 32 num.toNat + putField 128 8 b.nwarps + putField 144 11 b.ntid
    + putField 160 8 b.depth + putField 168 8 b.crank + putField 176 16 b.ctx + putField 192 1 p.wc.toNat
    + putField 256 64 (phaseSize b p) + putField 320 16 p.smask.toNat + putField 336 8 p.sb + putField 344 8 p.vb
    + putField 352 32 p.vmask.toNat + putField 384 55 pc.toNat

/-- The warp table of a phase record (R191). -/
def phaseTable (ws : List Warp) : List Byte :=
  let bs := ws.flatMap fun w =>
    bytesOfNat 16 ((w.lanesWhere fun t => t.st == .exited).toNat + putField 32 32 w.iseq.toNat + putField 64 32 w.eseq.toNat)
  bs ++ List.replicate (roundLine bs.length - bs.length) 0

/-- The carried registers of one warp, padded (R191). -/
def phaseCarry (p : PhaseOp) (w : Warp) : List Byte :=
  let bs := p.vecs.flatMap (fun r => lanes.flatMap fun l => wordBytes (w.vget r l)) ++ p.unis.flatMap fun r => wordBytes (w.sget r)
  bs ++ List.replicate (roundLine bs.length - bs.length) 0

/-- Addresses of the lines of a block's phase record, or the translation fault. -/
def State.phaseLines (s : State) (b : Block) (p : PhaseOp) : Except (XFault × Nat) (List Nat) :=
  (s.xlatLines [] b.ctx (s.saveSlot b) .write (phaseSize b p / 64)).1

/-- Close the rings a block has opened (R259): waiting sends then find no ring. -/
def State.closeRings (s : State) (uid : Nat) : State := { s with rings := s.rings.filter fun r => r.uid != uid }

/-- Keep only the carried registers of a warp (R189): every other one is as at a block's start. -/
def phaseReset (p : PhaseOp) (w : Warp) : Warp :=
  { w with
    vregs := w.vregs.filter fun c => p.vecs.contains (c.1 / 32), sregs := w.sregs.filter fun c => p.unis.contains c.1,
    preds := [], fflags := 0, tokens := w.tokens.filter fun t => p.unis.contains t.reg }

/-- A phase-descheduled block leaves its core (R189 step 5, R363): it keeps its record and its numbers. -/
def State.phaseLeave (s : State) (uid : Nat) : State :=
  (s.warpsOf uid).foldl (fun (s : State) (w : Warp) =>
    if !w.holds then s
    else
      let s := { s with formers := { slot := w.lslot, uid := uid, wid := w.wid, ring := w.ring, last := w.iseq, ctx := s.warpCtx w } :: s.formers }
      s.setWarp { w with resident := false, bundle := none, line := none }) s

/-- The warps of a block as its phase record takes them: those that were evicted alone from their save slot (R52, R371), which the
record will overwrite. The warp whose saved entry breaks R21, where one does. -/
def State.phaseWarps (s : State) (b : Block) (pas : List Nat) : Except Nat (List Warp) :=
  (s.warpsOf b.uid).foldl (fun (r : Except Nat (List Warp)) (w : Warp) =>
    match r with
    | .error e => .error e
    | .ok l =>
      if w.resident || w.released then .ok (l ++ [w])
      else
        match s.savedWarp b pas w with
        | some x => .ok (l ++ [x])
        | none => .error w.wid) (.ok [])

/-- Can the phase record of a block be written now, with the saved state of the warps that are not on its core in reach? -/
def State.phaseWritable (s : State) (b : Block) : Bool :=
  b.phase.any fun p =>
    let whole := (s.warpsOf b.uid).all fun w => w.resident || w.released
    match s.phaseLines b p, if whole then .ok [] else s.saveLines b with
    | .ok _, .ok slot =>
      match s.phaseWarps b slot with
      | .ok _ => true
      | .error _ => false
    | _, _ => false

/-- COMPLETE a phase barrier (R189 steps 2 and 3): write the record, reset what is not carried, return the wells. A block that has
not all its warps on the core leaves it. Where the slot can no longer be translated the block stays as it is (log entry 79). -/
def State.phaseComplete (s : State) (uid : Nat) : State :=
  match s.block? uid with
  | none => s
  | some b =>
    match b.phase with
    | none => s
    | some p =>
      let whole := (s.warpsOf b.uid).all fun w => w.resident || w.released
      match s.phaseLines b p, if whole then .ok [] else s.saveLines b with
      | .ok pas, .ok slot =>
        match s.phaseWarps b slot with
        | .error wid => if (s.warp? uid wid).any Warp.barred then s else s.warpIllegal b wid
        | .ok ws =>
          let num := ((s.grid? b.gid).map Grid.num).getD 0
          let pc := if p.pc.toNat % 64 = 48 then p.pc + 16 else p.pc + 12
          let bs := bytesOfNat 128 (phaseHeader b num p pc) ++ phaseTable ws ++ ws.flatMap (phaseCarry p)
          let s := { s with mem := writeLines s.mem pas bs }.forwardLines b.core b.ctx (s.saveSlot b) pas.length .write
          let s := s.closeRings uid
          let gone (e : Engine) : Bool := e.uid == uid && (e.token.any fun r => !p.unis.contains r)
          let s := s.modEngines gone fun e => { e with token := none }
          let s := ws.foldl (fun (s : State) (w : Warp) => s.setWarp (phaseReset p w)) s
          let s := s.modBlock uid fun b =>
            { b with st := .phase false, accepted := none, phArr := [], phBack := [], tiles := [], accs := [], streams := [], tags := [], cvs := [],
                     slen := 1024, bank := [] }
          if whole then s else s.phaseLeave uid
      | _, _ => s

/-- The phase record still holds what the device wrote in its RO fields (R191). -/
def State.phaseKept (s : State) (b : Block) (p : PhaseOp) (pas : List Nat) : Bool :=
  let num := ((s.grid? b.gid).map Grid.num).getD 0
  let pc := if p.pc.toNat % 64 = 48 then p.pc + 16 else p.pc + 12
  let bs := pas.flatMap fun a => readBytes s.mem a 64
  natOfBytes (bs.take 128) / 2 ^ 64 == phaseHeader b num p pc / 2 ^ 64
    && (bs.drop 128).take (roundLine (16 * b.nwarps)) == phaseTable (s.warpsOf b.uid)

/-- A warp's carried registers from the record. -/
def phaseLoad (p : PhaseOp) (w : Warp) (bs : List Byte) : Warp :=
  let per := roundLine (128 * p.vecs.length + 4 * p.unis.length)
  let my := bs.drop (w.wid * per)
  let word (off : Nat) : Word := BitVec.ofNat 32 (natOfBytes ((my.drop off).take 4))
  let w := ((List.range p.vecs.length).zip p.vecs).foldl (fun (w : Warp) x =>
    { w with vregs := cput w.vregs (32 * x.2) (lanes.map fun l => word (128 * x.1 + 4 * l)) }) w
  ((List.range p.unis.length).zip p.unis).foldl (fun (w : Warp) x => w.sset x.2 (word (128 * p.vecs.length + 4 * x.1))) w

/-- START a ready phase of a block whose warps are on a core (R189 step 6); none when the pool lacks its wells. -/
def State.phaseBegin (s : State) (uid core : Nat) : Option State :=
  match s.block? uid with
  | none => none
  | some b =>
    match b.phase with
    | none => none
    | some p =>
      match s.phaseLines b p with
      | .error _ => none
      | .ok pas =>
        if !s.phaseKept b p pas then some (s.resumeIllegal b)
        else
          let cl := coreCluster core
          match takeWells 13 s (s.wellsTaken cl) 0 b.kernel.granules with
          | none => none
          | some (bank, s) =>
            let s := bank.foldl (fun (s : State) x => s.clearRun cl x.2) s
            let bs := (pas.flatMap fun a => readBytes s.mem a 64).drop (128 + roundLine (16 * b.nwarps))
            let c := s.ctx b.ctx
            let s := s.forwardLines core b.ctx (s.saveSlot b) pas.length
            let s := s.modBlock uid fun b =>
              { b with st := .resident, core := core, cluster := some cl, bank := bank, phase := none, hcheck := c.hcheck,
                       watch := c.watch }
            let s := (s.warpsOf uid).foldl (fun (s : State) (w : Warp) =>
              let w := phaseLoad p w bs
              s.setWarp { w with threads := w.threads.map fun t =>
                if t.st == .exited then t
                else { t with st := .ready, marker := false, landed := true } }) s
            some (s.startAcquire uid b.phStamp)

end Sys2Proof.Machine
end

