-- ==== Sys2Proof/WellFormed.lean ====
section
/-! DEFINITION. Which instructions the encoding rules accept (R61 to R81, R132, R208): everything a decoded word must
satisfy beyond its field codes. A word that is not well formed is a reserved encoding (R80). -/

namespace Sys2Proof

open Sys2Proof.Machine

/-- R68, R69: a used position holds an accepted class, a register field of class 0b11 is zero, and every other register
field lies within its file's range. -/
def Machine.Position.fieldOk (p : Position) (cls : Cls) (field : BitVec 8) : Bool :=
  p.cls.contains cls &&
    match cls with
    | .imm => field == 0
    | .vec => true
    | .uni => field.toNat < File.limit .uni
    | .special => field.toNat < p.file.limit

/-- R73: an unused position and its class are zero. -/
def unusedOk (cls : Cls) (field : BitVec 8) : Bool := cls == .vec && field == 0

/-- R70: the D class that goes with U. -/
def destAgrees (u : Bool) (cls : Cls) : Bool :=
  match cls with
  | .vec => !u
  | .uni => u
  | .special => true
  | .imm => false

/-- R70: no source of a uniform instruction is a vector register. -/
def sourceAgrees (u : Bool) (cls : Cls) : Bool := !u || cls != .vec

/-- A destination position of the register form. -/
def destOk (p : Position) (raw u : Bool) (cls : Cls) (field : BitVec 8) : Bool :=
  if p.cls.isEmpty then raw || unusedOk cls field else p.fieldOk cls field && destAgrees u cls

/-- A source position of the register form. -/
def sourceOk (p : Position) (raw u : Bool) (cls : Cls) (field : BitVec 8) : Bool :=
  if p.cls.isEmpty then raw || unusedOk cls field else p.fieldOk cls field && sourceAgrees u cls

/-- Is a used source taken from imm32? -/
def Machine.Position.usesImm (p : Position) (cls : Cls) : Bool := !p.cls.isEmpty && cls == .imm

def Machine.Shape.uOk (sh : Shape) (u : Bool) : Bool := if u then sh.u1 else sh.u0

/-- R67 to R73: a register-form instruction. -/
def Machine.Shape.ok (sh : Shape) (f : RegForm) : Bool :=
  sh.uOk f.c.u
    && destOk sh.d sh.rawFields f.c.u f.dc f.d
    && sourceOk sh.a sh.rawFields f.c.u f.ac f.a
    && sourceOk sh.b sh.rawFields f.c.u f.bc f.b
    && sourceOk sh.e sh.rawFields f.c.u f.ec f.e
    && sh.tys.contains f.ty
    && sh.subs.contains f.sub.toNat
    && (sh.immField || sh.a.usesImm f.ac || sh.b.usesImm f.bc || sh.e.usesImm f.ec || f.imm == 0)
    && sh.extra f

/-- A register field of the memory form: used and in range (uniform fields 0 to 127, R69), or zero. -/
def memFieldOk (used uni : Bool) (field : BitVec 8) : Bool :=
  if used then !uni || field.toNat < File.limit .uni else field == 0

/-- R74, R75, R208: a memory-form instruction. -/
def Machine.MemShape.ok (sh : MemShape) (f : MemForm) : Bool :=
  (if f.c.u then sh.u1 else sh.u0)
    && memFieldOk sh.d f.c.u f.d && (f.duni == (sh.d && f.c.u))
    && memFieldOk sh.base f.buni f.base && (if sh.base then f.buni || !f.c.u else !f.buni)
    && memFieldOk sh.data f.c.u f.data
    && (sh.cmpRaw || memFieldOk sh.cmp f.c.u f.cmp)
    && sh.widths.contains f.width
    && sh.scopes.contains f.scope
    && sh.spaces.contains f.space
    && sh.aops.contains f.aop.toNat
    && (sh.base || sh.offsetRaw || f.offset == 0)
    && sh.extra f

/-- R76, R77: a branch-form instruction. An index register is read only by `brx` and `calli`. -/
def Machine.BrShape.ok (sh : BrShape) (f : BrForm) : Bool :=
  !f.c.u
    && (sh.link || f.link == 0)
    && (if sh.index then !f.indexUni || f.index.toNat < File.limit .uni else f.index == 0 && !f.indexUni)
    && (sh.uni || !f.uni)
    && (sh.disp || f.disp == 0)

/-- R78, R79: token, record and convergence fields of an engine-form instruction. -/
def tokenOk (t : TokenUse) (field : BitVec 8) : Bool :=
  match t with
  | .required => field.toNat < 128
  | .none80 => field == 0x80
  | .zero => field == 0

def Machine.EngShape.ok (sh : EngShape) (f : EngForm) : Bool :=
  f.c.u
    && tokenOk sh.token f.token
    && (if sh.record then f.record.toNat < File.limit .uni else f.record == 0)
    && (if sh.conv then f.conv == 0x80 || f.conv.toNat < File.limit .cv else f.conv == 0x80)
    && sh.extra f

/-- R146: `movi` writes a vector pair, or a uniform pair when U = 1. -/
def moviOk (f : MoviForm) : Bool := !f.c.u || f.d.toNat < File.limit .uni

/-- Is this instruction one that a word of the encoding stands for? An event of the device has no word and no
encoding rule. -/
def wellFormed (i : Instr) : Bool :=
  match form i with
  | .reg sh f => sh.ok f
  | .mem sh f => sh.ok f
  | .br sh f => sh.ok f
  | .eng sh f => sh.ok f
  | .movi f => moviOk f
  | .event => true

end Sys2Proof
end

