-- ==== Sys2Proof/Machine/Issue.lean ====
section
/-! DEFINITION. Issuing one instruction (R59 to R66, R82): the checks every instruction passes before its own meaning,
in the order of R82, the stalls at issue, and what every instruction does when it has been performed. -/

namespace Sys2Proof.Machine

/-- The fields every form shares (R61); an event of the device has none. -/
def common (i : Instr) : Common :=
  match form i with
  | .reg _ f => f.c
  | .mem _ f => f.c
  | .br _ f => f.c
  | .eng _ f => f.c
  | .movi f => f.c
  | .event => { s := false, u := false, n := false, guard := 7 }

/-- Does the instruction take one of the warp's 16 engine slots (R40, R192, R237)? -/
def isEngine (i : Instr) : Bool :=
  match form i with
  | .eng _ _ => true
  | _ => false

/-- Instructions that end a region (R298). -/
def endsRegion (i : Instr) : Bool :=
  match i with
  | .lda _ | .stl _ | .xar _ | .car _ | .atc _ | .redc _ | .ata _ | .reda _ | .ldf _ | .stf _ | .atx _ | .cas _
  | .fence _ | .ldfe _ | .stfe _ | .give _ | .take _ | .wfill _
  | .acopy _ | .acopyWsl _ | .acopySb _ | .acopyT _ | .tld _ | .tst _ | .gpool _ | .coll _ | .send _ | .mma _ | .mconv _
  | .launch _ | .spawn _ | .merge _ | .syncSpawn _ | .tsub _ | .tsig _ | .rwait _ | .rwaitOpen _ | .rwaitClose _
  | .bar _ | .barPhase _ | .clbar _ | .gbar _ | .barCnt _ | .cvinit _
  | .exit _ | .trap _ | .brk _ | .sysHalt _
  | .sysTlbinv _ | .sysFwake _ | .sysFkill _ | .sysEvict _ | .sysResume _ | .sysMcount _ | .sysFlush _ => true
  | _ => false

/-- Instructions that themselves end the interval (R171, R302), which the consumption of a token in them does not. -/
def endsInterval (i : Instr) : Bool :=
  match i with
  | .lda _ | .stl _ | .xar _ | .car _ | .fence _ | .ldfe _ | .stfe _ | .give _ | .take _ | .wfill _
  | .launch _ | .spawn _ | .merge _ | .syncSpawn _ | .tsub _ | .tsig _ | .rwait _
  | .bar _ | .barPhase _ | .clbar _ | .gbar _ | .barCnt _
  | .sysTlbinv _ | .sysFwake _ | .sysFkill _ | .sysEvict _ | .sysResume _ | .sysFlush _ => true
  | _ => false

/-- Privileged instructions (R81, R83, R245). -/
def isPrivileged (i : Instr) : Bool :=
  match i with
  | .sysTlbinv _ | .sysFwake _ | .sysFkill _ | .sysEvict _ | .sysResume _ | .sysMcount _ | .sysFlush _ | .sysHalt _
  | .acopyWsl _ | .acopySb _ => true
  | _ => false

/-- Loads and atomics that return a value, which the outstanding counter counts (R214). -/
def owesResult (i : Instr) : Bool :=
  match i with
  | .ld _ | .ldc _ | .lda _ | .xar _ | .car _ | .atc _ | .ata _ | .ldf _ | .atx _ | .cas _ | .ldfe _ | .take _
  | .wmap _ => true
  | .setsr _ | .nop _ | .bra _ | .brx _ | .call _ | .calli _ | .ret _ => false
  | _ =>
    match form i with
    | .reg sh _ => !sh.d.cls.isEmpty && sh.d.file == .pred
    | .movi _ => true
    | _ => false

/-- The issue in progress: the warp and its block, the PC, the bundle's lanes, and the active ones (R62). -/
structure Ic where
  w : Warp
  b : Block
  pc : Pc
  bundle : LaneMask
  active : LaneMask
  deriving DecidableEq, Repr

/-- The issue that the state holds, for an instruction with these common bits. -/
def State.issueCtx (s : State) (c : Common) : Option Ic :=
  match s.issue with
  | none => none
  | some n =>
    match s.warp? n.uid n.wid, s.block? n.uid with
    | some w, some b =>
      match w.bundle with
      | none => none
      | some x =>
        let g := w.pget c.guard.toNat
        some { w := w, b := b, pc := x.pc, bundle := x.mask, active := x.mask &&& (if c.n then ~~~g else g) }
    | _, _ => none

/-- The next sequential PC (R54). -/
def nextPc (pc : Pc) : Pc := if pc.toNat % 64 = 48 then pc + 16 else pc + 12

/-- Slot number of a PC (R54). -/
def slotOf (pc : Pc) : Nat := pc.toNat % 64 / 12

/-- Is a PC a slot address (R54)? -/
def isSlot (pc : Nat) : Bool := pc % 64 < 60 && pc % 64 % 12 == 0

/-- The line word of a line (R55). -/
def lineWord (d : BitVec 512) : BitVec 32 := d.extractLsb' 480 32

/-- The instruction word in a slot (R53). -/
def slotWord (d : BitVec 512) (k : Nat) : InstrWord := d.extractLsb' (96 * k) 96

def lwTarget (lw : BitVec 32) (k : Nat) : Bool := lw.getLsbD k
def lwRegion (lw : BitVec 32) (k : Nat) : Bool := lw.getLsbD (16 + k)
def lwPair (lw : BitVec 32) (k : Nat) : Bool := lw.getLsbD (5 + k)

/-- Does every parity of a line hold (R55, R56)? -/
def lineParityOk (d : BitVec 512) : Bool :=
  let lw := lineWord d
  (lw.getLsbD 14 == (parity (lw.extractLsb' 15 17) != parity (lw.extractLsb' 0 14)))
    && (List.range 5).all fun k => lw.getLsbD (9 + k) == parity (slotWord d k)

/-- R57: reserved bits, or a region bit without its target bit. -/
def lineWordBad (lw : BitVec 32) : Bool :=
  lw.extractLsb' 21 11 != 0 || lw.getLsbD 15 || (List.range 5).any fun k => lwRegion lw k && !lwTarget lw k

/-- Lowest active lane. -/
def Ic.lane0 (c : Ic) : Nat := (lanesOf c.active).headD 0

/-- A fault record of the issuing instruction (R424): the lowest faulting lane gives the region entry and sequence. -/
def Ic.record (c : Ic) (code : FaultCode) (lane : Nat) (addr : BitVec 64 := 0) (acc : Nat := 0) : FaultRec :=
  { code := code.code, addr := addr, acc := acc, pc := c.pc, lanes := c.active, eseq := c.w.eseq,
    rentry := (c.w.thread lane).rentry, rseq := (c.w.thread lane).rseq }

/-- What an instruction's own meaning answers. -/
inductive Res where
  /-- Performed; `pcOf` gives an active lane's PC from the next sequential one. -/
  | done (s : State) (pcOf : Nat → Pc → Pc)
  /-- A precise fault: nothing of the instruction happened. -/
  | fault (r : FaultRec)
  /-- A watchpoint hit (R443): nothing of the instruction happened, and the block is swapped out (R442). -/
  | brk (r : FaultRec)
  /-- Not performed now: the state with whatever has been started meanwhile (R355). -/
  | stall (s : State)
  /-- The whole next state. -/
  | raw (s : State)

/-- Performed, in sequence. -/
def Res.next (s : State) : Res := .done s fun _ n => n

def Ic.illegal (c : Ic) : Res := .fault (c.record .illegal c.lane0)

/-- End the issue: nothing issues until the next choice, and whatever waited may look again. -/
def State.issued (s : State) : State := { s.unstall with issue := none }

/-- The choice of a warp that then could not issue is taken back (R355, R440): its scheduler chooses again in this cycle. -/
def State.unchoose (s : State) (w : Warp) : State :=
  let k := w.slot / 32
  let yields := ((s.core w.core).sched k).prevYields
  let ws : List Warp := s.warps.map fun (x : Warp) =>
    if x.core = w.core ∧ x.slot / 32 = k ∧ yields.contains x.slot then { x with yielded := true } else x
  let back (x : Scheduler) : Scheduler :=
    if x.prevTags != x.tagAt then { x with last := x.prev, tagAt := x.prevTags, samples := x.samples.dropLast }
    else { x with last := x.prev }
  { (s.modCore w.core fun c => c.setSched k (back (c.sched k))) with warps := ws, cycled := s.cycled.filter fun n => n != 4 * w.core + k }

/-- The warp cannot issue now (R355): it is not chosen again before something else has happened. -/
def State.stalled (s : State) (c : Ic) : State :=
  let s := if s.issue.any Issue.probe then s else s.unchoose c.w
  { s with issue := none }.modWarp c.w.uid c.w.wid fun w => { w with stall := true, doubt := false, since := none }

/-! ### The region rules (R59) -/

/-- Does the slot of the issuing PC begin a region? -/
def Ic.regionBit (c : Ic) : Bool :=
  match c.w.line with
  | some l => lwRegion (lineWord l.data) (slotOf c.pc)
  | none => false

/-- Threads of the bundle that begin a region with this issue (R59). -/
def Ic.beginners (c : Ic) : LaneMask :=
  maskOf ((lanesOf c.bundle).filter fun l =>
    let t := c.w.thread l
    !t.reenter && (t.newRegion || c.regionBit))

/-- Begin the regions. `reenter` stays until the instruction is performed, so that a stalled instruction begins its
region once. -/
def Ic.begun (c : Ic) : Ic :=
  let m := c.beginners
  { c with w := c.w.modThreads m fun _ t => { t.fresh with rentry := c.pc, rseq := t.rseq + 1, newRegion := false, redo := false, reenter := true } }

/-- Are all mark checks of the warp's region acknowledged, its strong accesses on checked pages among them (R59)? -/
def State.checksIn (s : State) (w : Warp) : Bool :=
  w.checks.isEmpty && w.deferred.isEmpty
    && !s.msgs.any fun m =>
      match m.kind with
      | .strong r => r.uid == w.uid && r.wid == w.wid && r.checked
      | _ => false

/-! ### Tokens (R39, R40) -/

/-- Uniform registers that an instruction reads or writes, or names as its token. -/
def uniRegs (i : Instr) (write : Bool) : List Nat :=
  (usesOf i).foldl (fun l u =>
    if u.file = 1 ∧ (u.write = write ∨ write) then l ++ (List.range u.n).map fun k => u.reg + k else l) []

/-- Uniform registers whose tokens an instruction may touch: `bar.phase` carries registers without reading them, so that a command
may complete after it (R190). -/
def tokenRegs (i : Instr) (write : Bool) : List Nat :=
  match i with
  | .barPhase _ => []
  | _ => uniRegs i write

/-- Does the instruction touch a pending token (R39)? -/
def pendingToken (w : Warp) (i : Instr) : Bool :=
  let rs := tokenRegs i true ++ (tokenOf i).toList
  w.tokens.any fun t => !t.done && rs.contains t.reg

/-- Completed tokens that the instruction consumes (R40): those it reads, and the one it names. -/
def consumed (w : Warp) (i : Instr) : List Token :=
  let rs := tokenRegs i false ++ (tokenOf i).toList
  w.tokens.filter fun t => t.done && rs.contains t.reg

/-- Engine commands of a warp in flight (R40). -/
def State.enginesOf (s : State) (uid wid : Nat) : List Engine :=
  s.engines.filter fun e => e.uid == uid && e.wid == wid && !(e.st == .done)

/-- Consume tokens: their parties close, the warp acquires at device scope, after that close, and its interval ends
unless the instruction itself ends it (R40, R302, R307, R328). -/
def State.consume (s : State) (w : Warp) (ts : List Token) (ends : Bool) : State :=
  let stamp := ts.foldl (fun m t => max m (((s.engine? t.eng).map Engine.stamp).getD 0)) s.time
  let s := s.modEngines (fun e => ts.any fun t => t.eng == e.id) fun e => { e with close := some s.time }
  let s := s.modWarp w.uid w.wid fun w => { w with tokens := w.tokens.filter fun t => !ts.contains t }
  if ends then s.acquire w.uid w.wid .device stamp else s.acquireEnd w.uid w.wid .device stamp

/-! ### The gate (R82) -/

/-- The implicit acquire of the ring stall, at its start (R324). -/
def State.ringImplicit (s : State) (w : Warp) : State :=
  if w.ringStall then s
  else (s.acquire w.uid w.wid .device 0).modWarp w.uid w.wid fun w => { w with ringStall := true }

/-- Registers of a run already written that the instruction would read or write (R66): for an active thread those it names, for every
thread of the bundle its guard, which each has read (R62). -/
def hazard (c : Ic) (i : Instr) : Bool :=
  let rs := (usesOf i).flatMap Use.regs
  ((lanesOf c.active).any fun l => (c.w.thread l).runWr.any fun x => rs.contains x)
    || (lanesOf c.bundle).any fun l => (c.w.thread l).runWr.contains (2, (common i).guard.toNat)

/-- The warp with its interval's opening PC known: that of the first instruction issued in it (R307), and the phase then
(R391). -/
def Warp.opened (w : Warp) (pc : Pc) (phase : Nat) : Warp :=
  if w.opc.isSome then w else { w with opc := some pc, openPhase := phase }

/-- An instruction that could not be performed has not opened the interval (R307). A `give` that drains has. -/
def State.unopened (s : State) (w : Warp) : State :=
  if w.opc.isSome || s.gives.any (fun g => g.uid == w.uid && g.wid == w.wid) then s else s.modWarp w.uid w.wid fun w => { w with opc := none }

/-- Everything before the instruction's own meaning: an outcome, or the issue with the state in which the meaning
runs. -/
inductive Gate where
  | out (s : State)
  | go (c : Ic) (s : State)

/-- Blocked on a well word (R19). -/
def TState.isBlocked : TState → Bool
  | .blocked _ _ => true
  | _ => false

/-- The registers that an instruction reads, its guard among them, or writes, of every class (R300). -/
def regionRegs (i : Instr) (write : Bool) : List (Nat × Nat) :=
  let rs := ((usesOf i).filter fun u => u.write == write && u.file ≤ 5).flatMap fun u => (List.range u.n).map fun k => (u.file, u.reg + k)
  (if write then rs else (2, (common i).guard.toNat) :: rs).filter fun x => x != (2, 7)

/-- What a thread's region instance has read and written, after one more instruction of it (R300). -/
def Thread.noteRegs (t : Thread) (rd wr : List (Nat × Nat)) : Thread :=
  let reads := t.rgRead ++ rd.filter fun x => !t.rgWrote.contains x && !t.rgRead.contains x
  { t with rgRead := reads, rgBad := t.rgBad ++ wr.filter fun x => reads.contains x && !t.rgBad.contains x,
           rgWrote := t.rgWrote ++ wr.filter fun x => !reads.contains x && !t.rgWrote.contains x }

/-- The registers that a performed instruction has written for a thread of its bundle (R62, R63, R66): a uniform instruction's for
every thread, another's for the active ones; writes to p7 are discarded (R25). -/
def runWrites (i : Instr) (act : Bool) : List (Nat × Nat) :=
  ((((usesOf i).filter Use.write).flatMap Use.regs).filter fun x => x != (2, 7)).filter fun x => act || x.1 == 1 || (common i).u

/-- After an instruction has been performed (R64, R352, R353). `act`: its effect was performed for the active lanes. Only they begin
a region after an instruction that ends one: a thread that the guard leaves inactive goes on in its own (log entry 89). -/
def State.retire (s : State) (c : Ic) (i : Instr) (pcOf : Nat → Pc → Pc) : State :=
  match s.warp? c.w.uid c.w.wid with
  | none => s.issued
  | some w =>
    let cm := common i
    let nx := nextPc c.pc
    let acts := c.active != 0
    let rd := regionRegs i false
    let wr := regionRegs i true
    let ths := w.threads.mapIdx fun l t =>
      if c.bundle.getLsbD l then
        let act := c.active.getLsbD l
        let waits := t.st.isBlocked
        let t : Thread := if act then (if endsRegion i && !waits then t.fresh else t.noteRegs rd wr) else t
        let t : Thread :=
          { t with
            pc := if act then pcOf l nx else nx, age := 0, reenter := waits, landed := false,
            newRegion := act && endsRegion i && !waits,
            runWr := if cm.s then [] else if acts && c.b.hcheck then t.runWr ++ runWrites i act else t.runWr }
        if !cm.s then t
        else
          match t.st with
          | .ready => if w.outstanding = 0 then t else { t with st := .parked .marker }
          | .exited => t
          | _ => { t with marker := true }
      else
        match t.st with
        | .ready => { t with age := min 255 (t.age + 1) }
        | _ => t
    let ls := lanesOf c.bundle
    let pc0 := (ths.getD (ls.headD 0) {}).pc
    let together := ls.all fun l => (ths.getD l {}).pc == pc0 && (ths.getD l {}).st == .ready
    let n := (w.bundle.map Bundle.count).getD 0 + 1
    let yields := acts && (match i with
      | .yield _ => true
      | _ => false)
    let keep := together && n < 4 && !cm.s && !yields
    let bd := if keep then some ⟨c.bundle, pc0, n⟩ else none
    (s.setWarp { w with threads := ths, bundle := bd, since := none, flushed := false, waitId := 0, atBoundary := false,
                        ringStall := false, tokenStall := false }).issued

/-- The checks and stalls that come before every instruction's own meaning (R59, R62, R82 steps 4 to 8, R38 to R40). -/
def gate (i : Instr) (s : State) : Option Gate :=
  match s.issueCtx (common i) with
  | none => none
  | some c0 =>
    let boundary := c0.beginners != 0
    if c0.w.acq.isSome then some (.out (s.stalled c0))
    else if boundary && !s.checksIn c0.w then
      some (.out ((s.modWarp c0.w.uid c0.w.wid fun w => { w with atBoundary := true }).stalled c0))
    else
      let c := c0.begun
      let s := s.setWarp c.w
      let bad : Option FaultRec :=
        if isPrivileged i && !s.privileged c.b.ctx then some (c.record .illegal c.lane0)
        else if !wellFormed i then some (c.record .illegal c.lane0)
        else if !((usesOf i).all (useOk c.b.kernel) && (tokenOf i).all fun r => r < 16 * c.b.kernel.ns) then
          some (c.record .illegal c.lane0)
        else if c.b.hcheck && hazard c i then some (c.record .runHazard c.lane0)
        else none
      if c.active = 0 then
        some (.out ((s.setWarp (c.w.opened c.pc (s.ctx c.b.ctx).phase)).retire c i fun _ n => n))
      else
        match bad with
        | some r => some (.out (s.issued.takeFault c.w r))
        | none =>
          if pendingToken c.w i then
            some (.out ((s.modWarp c.w.uid c.w.wid fun w => { w with tokenStall := true }).stalled c))
          else if isEngine i && 16 ≤ (s.enginesOf c.w.uid c.w.wid).length then some (.out (s.stalled c))
          else if owesResult i && 63 ≤ c.w.outstanding then some (.out (s.stalled c))
          else if endsRegion i && !s.checksIn c.w then
            some (.out ((s.modWarp c.w.uid c.w.wid fun w => { w with atBoundary := true }).stalled c))
          else
            let ts := consumed c.w i
            if !ts.isEmpty && s.accessesPending c.w.uid c.w.wid then some (.out (s.stalled c))
            else if !ts.isEmpty && s.ringBlocked c.w then some (.out ((s.ringImplicit c.w).stalled c))
            else
              let w := c.w.opened c.pc (s.ctx c.b.ctx).phase
              let s := s.setWarp w
              let s := if ts.isEmpty then s else s.consume w ts (endsInterval i)
              some (.go { c with w := (s.warp? w.uid w.wid).getD w } s)

/-- Issue an instruction: the gate, its own meaning, and what follows. A precise fault is taken in the state before
any token was consumed (R82). -/
def run (i : Instr) (s : State) (body : Ic → State → Res) : Out :=
  match gate i s with
  | none => .fault .noIssue
  | some (.out s) => .next s
  | some (.go c s') =>
    -- the state before the instruction, its regions begun
    let w := ((s.warp? c.w.uid c.w.wid).getD c.w).modThreads c.bundle fun l _ => c.w.thread l
    let s0 := s.setWarp w
    match body c s' with
    | .done s pcOf => .next (s.retire c i pcOf)
    | .fault r => .next (s0.issued.takeFault w r)
    | .brk r =>
      if s.strongBusy w.uid w.wid || !s.blockCanLeave c.b then .next (s0.stalled c)
      else .next ((s0.issued.takeFault w r).swapOut w.uid w.wid)
    | .stall s => .next ((s.unopened w).stalled c)
    | .raw s => .next s.issued

/-! ### Releases and acquires at issue -/

/-- What a release at a scope waits for (R172, R302, R330): a ring entry, the warp's strong accesses, and at cluster
scope or wider the write-backs that the release starts. `k` goes on when all of it is in, before the release. -/
def withWritten (s : State) (c : Ic) (scope : Scope) (k : State → Res) : Res :=
  match s.warp? c.w.uid c.w.wid with
  | none => .stall s
  | some w =>
    if s.ringBlocked w then .stall (s.ringImplicit w)
    else if s.accessesPending w.uid w.wid then .stall s
    else if !Scope.wide scope then k s
    else
      let s := if w.flushed then s else (s.flushWarp w).modWarp w.uid w.wid fun w => { w with flushed := true }
      if (s.warpsOf w.uid).any fun x => !x.wbs.isEmpty then .stall s else k s

/-- Perform a release at a scope and go on. -/
def withRelease (s : State) (c : Ic) (scope : Scope) (k : State → Res) : Res :=
  withWritten s c scope fun s => k (s.releaseNow c.w.uid c.w.wid scope)

/-- An acquire-only instruction needs a ring entry too (R324), and its warp's earlier accesses performed (R296, R304). -/
def withRing (s : State) (c : Ic) (k : Unit → Res) : Res :=
  if s.accessesPending c.w.uid c.w.wid then .stall s
  else if s.ringBlocked c.w then .stall (s.ringImplicit c.w)
  else k ()

/-- A release, then an acquire, at one scope (R171). -/
def withBoth (s : State) (c : Ic) (scope : Scope) (k : State → Res) : Res :=
  withRelease s c scope fun s => k (s.acquire c.w.uid c.w.wid scope 0)

end Sys2Proof.Machine
end

