-- ==== Sys2Proof/Machine/Alu.lean ====
section
/-! DEFINITION. Integer, move and bit instructions (classes 0x00, 0x08, 0x09), residue instructions (class 0x17), and
the operation that every register-to-register instruction goes through. -/

namespace Sys2Proof.Machine

/-! ### Owing a computed result -/

/-- What an instruction computes in one lane: result elements and flags. -/
abbrev LaneOut := List (RegSlot × Word) × Flags

/-- Compute in every working lane, OR the flags in, and owe the results (R32, R37, R62, R135). -/
def owed (c : Ic) (s : State) (uniform fp : Bool) (f : Nat → LaneOut) : State :=
  let rs := (workLanes uniform c.active).map f
  (s.modWarp c.w.uid c.w.wid fun w => w.raise (orFlags (rs.map Prod.snd))).owe
    { id := 0, uid := c.w.uid, wid := c.w.wid, fp := fp, writes := rs.flatMap Prod.fst }

/-- An instruction that only computes on registers (R135, R136). -/
def compute (i : Instr) (s : State) (fp : Bool) (f : Ic → Nat → LaneOut) : Out :=
  run i s fun c s => .next (owed c s (common i).u fp (f c))

/-- Sources of the register form, in a lane. -/
def srcA (c : Ic) (f : RegForm) (two : Bool) (t : Ty) (l : Nat) : Nat := readSrc c.w f.ac f.a two (immBits t f.imm) l
def srcB (c : Ic) (f : RegForm) (two : Bool) (t : Ty) (l : Nat) : Nat := readSrc c.w f.bc f.b two (immBits t f.imm) l
def srcE (c : Ic) (f : RegForm) (two : Bool) (t : Ty) (l : Nat) : Nat := readSrc c.w f.ec f.e two (immBits t f.imm) l

/-- A result of the instruction's own type (R24, R26). -/
def putD (f : RegForm) (l v : Nat) : LaneOut := (destWrite f.dc f.d (Ty.is64 f.ty) l v, 0)

/-- A result of one register whatever the type (R147). -/
def putD1 (f : RegForm) (l v : Nat) : LaneOut := (destWrite f.dc f.d false l v, 0)

/-! ### Special registers (R31, R139 to R141) -/

/-- The value of a special register in a lane (R31). -/
def State.special (s : State) (c : Ic) (i l : Nat) : Nat :=
  let w := (s.warp? c.w.uid c.w.wid).getD c.w
  let b := c.b
  let d := s.die (coreDie w.core)
  let g := (s.grid? b.gid).getD { gid := b.gid, ctx := b.ctx }
  match i with
  | 0x00 => l
  | 0x01 => tidOf w.wid l
  | 0x02 => b.ntid
  | 0x03 => w.wid
  | 0x04 => b.bid
  | 0x05 => g.launch.nbid
  | 0x06 => g.num.toNat
  | 0x07 => b.depth
  | 0x08 => b.crank
  | 0x09 => coreInDie w.core
  | 0x0A => clusterInDie (coreCluster w.core)
  | 0x0B => coreDie w.core
  | 0x0C => b.ctx
  | 0x0D => w.lslot
  | 0x10 => s.time % 2 ^ 64
  | 0x11 => d.cycle % 2 ^ 64
  | 0x12 => d.scyc % 2 ^ 64
  | 0x13 => d.fstept % 2 ^ 64
  | 0x14 => d.fstepc % 2 ^ 64
  | 0x15 => wsNext d.t0 s.time % 2 ^ 64
  | 0x18 => w.iseq.toNat
  | 0x19 => (w.thread l).rseq.toNat
  | 0x1A => w.eseq.toNat
  | 0x1B => b.slen
  | 0x1C => w.fflags.toNat
  | _ => 0

/-- Is a floating-point instruction of the warp not complete (R37)? -/
def State.fpBusy (s : State) (w : Warp) : Bool := s.owed.any fun o => o.uid == w.uid && o.wid == w.wid && o.fp

/-- NOP (R139). -/
def execNop (f : RegForm) (s : State) : Out := run (.nop f) s fun _ s => .next s

/-- GETSR (R140): `%fflags` waits for earlier floating-point instructions (R37). -/
def execGetsr (f : RegForm) (s : State) : Out :=
  run (.getsr f) s fun c s =>
    let i := f.imm.toNat % 256
    if i = 0x1C ∧ s.fpBusy c.w then .stall s
    else .next (owed c s f.c.u false fun l => putD f l (s.special c i l))

/-- SETSR (R37, R141). -/
def execSetsr (f : RegForm) (s : State) : Out :=
  run (.setsr f) s fun c s =>
    if s.fpBusy c.w then .stall s
    else .next (s.modWarp c.w.uid c.w.wid fun w => { w with fflags := BitVec.ofNat 5 (srcA c f false .b32 c.lane0) })

/-! ### Integer arithmetic (R143 to R146) -/

/-- Narrow an exact result once (R143). -/
def narrow (t : Ty) (sat : Bool) (x : Int) : Nat := wrapBits t (if sat then satInt t x else x)

/-- An instruction on exact integers of the instruction's type (R143). -/
def intInstr (i : Instr) (f : RegForm) (s : State) (sat : Bool) (op : Int → Int → Int → Int) : Out :=
  let two := Ty.is64 f.ty
  compute i s false fun c l =>
    let v (bits : Nat) : Int := intVal f.ty bits
    putD f l (narrow f.ty sat (op (v (srcA c f two f.ty l)) (v (srcB c f two f.ty l)) (v (srcE c f two f.ty l))))

def subOne (f : RegForm) : Bool := f.sub == 1

/-- ADD (R143). -/
def execAdd (f : RegForm) (s : State) : Out := intInstr (.add f) f s (subOne f) fun a b _ => a + b
/-- SUB (R143). -/
def execSub (f : RegForm) (s : State) : Out := intInstr (.sub f) f s (subOne f) fun a b _ => a - b
/-- MUL (R143). -/
def execMul (f : RegForm) (s : State) : Out := intInstr (.mul f) f s (subOne f) fun a b _ => a * b
/-- MULHI (R143): the floor of the exact product over 2^w. -/
def execMulhi (f : RegForm) (s : State) : Out := intInstr (.mulhi f) f s false fun a b _ => (a * b).fdiv (2 ^ tyBits f.ty)
/-- MAD (R143): the product is not narrowed before the addition. -/
def execMad (f : RegForm) (s : State) : Out := intInstr (.mad f) f s (subOne f) fun a b c => a * b + c
/-- MIN (R143). -/
def execMin (f : RegForm) (s : State) : Out := intInstr (.min f) f s false fun a b _ => if a ≤ b then a else b
/-- MAX (R143). -/
def execMax (f : RegForm) (s : State) : Out := intInstr (.max f) f s false fun a b _ => if a ≥ b then a else b
/-- ABS (R143). -/
def execAbs (f : RegForm) (s : State) : Out := intInstr (.abs f) f s (subOne f) fun a _ _ => if a < 0 then -a else a
/-- NEG (R143). -/
def execNeg (f : RegForm) (s : State) : Out := intInstr (.neg f) f s (subOne f) fun a _ _ => -a

/-- Predicate bit that a lane reads: its own, or the lowest active lane's for a uniform instruction (R134), which is
the one lane a uniform instruction works in. -/
def predBit (c : Ic) (p : BitVec 8) (l : Nat) : Bool := (c.w.pget p.toNat).getLsbD l

/-- ADDC (R144). -/
def execAddc (f : RegForm) (s : State) : Out :=
  compute (.addc f) s false fun c l =>
    let x := srcA c f false .n32 l + srcB c f false .n32 l + (predBit c f.e l).toNat
    (destWrite f.dc f.d false l (x % 2 ^ 32) ++ predWrite f.e.toNat l f.c.u (2 ^ 32 ≤ x), 0)

/-- LEA (R145). -/
def execLea (f : RegForm) (s : State) : Out :=
  compute (.lea f) s false fun c l =>
    let b := intVal f.ty (srcB c f (Ty.is64 f.ty) f.ty l)
    let x : Int := (srcA c f true f.ty l : Int) + b * 2 ^ f.sub.toNat + f.imm.toInt
    (destWrite f.dc f.d true l (x % 2 ^ 64).toNat, 0)

/-- MOV (R146). -/
def execMov (f : RegForm) (s : State) : Out :=
  compute (.mov f) s false fun c l => putD f l (srcA c f (Ty.is64 f.ty) f.ty l)

/-- MOVI (R146). -/
def execMovi (f : MoviForm) (s : State) : Out :=
  compute (.movi f) s false fun _ l => (destWrite (if f.c.u then .uni else .vec) f.d true l f.value.toNat, 0)

/-- SEL (R146). -/
def execSel (f : RegForm) (s : State) : Out :=
  compute (.sel f) s false fun c l =>
    putD f l (if predBit c f.e l then srcA c f (Ty.is64 f.ty) f.ty l else srcB c f (Ty.is64 f.ty) f.ty l)

/-! ### Bit operations (R148, R149) -/

/-- A bitwise instruction of two full operands. -/
def bitInstr (i : Instr) (f : RegForm) (s : State) (op : Nat → Nat → Nat) : Out :=
  compute i s false fun c l =>
    putD f l (op (srcA c f (Ty.is64 f.ty) f.ty l) (srcB c f (Ty.is64 f.ty) f.ty l) % 2 ^ tyBits f.ty)

/-- A shift instruction: width, operand, and the whole unmasked count. -/
def shiftInstr (i : Instr) (f : RegForm) (s : State) (op : Nat → Nat → Nat → Nat) : Out :=
  compute i s false fun c l =>
    let w := tyBits f.ty
    putD f l (op w (srcA c f (Ty.is64 f.ty) f.ty l) (srcB c f false .n32 l) % 2 ^ w)

/-- AND (R148). -/
def execAndB (f : RegForm) (s : State) : Out := bitInstr (.andB f) f s Nat.land
/-- OR (R148). -/
def execOrB (f : RegForm) (s : State) : Out := bitInstr (.orB f) f s Nat.lor
/-- XOR (R148). -/
def execXorB (f : RegForm) (s : State) : Out := bitInstr (.xorB f) f s Nat.xor
/-- NOT (R148). -/
def execNotB (f : RegForm) (s : State) : Out := bitInstr (.notB f) f s fun a _ => 2 ^ tyBits f.ty - 1 - a
/-- SHL (R148): zero when the count reaches the width. -/
def execShl (f : RegForm) (s : State) : Out := shiftInstr (.shl f) f s fun w a k => if k ≥ w then 0 else a * 2 ^ k
/-- SHR (R148). -/
def execShr (f : RegForm) (s : State) : Out := shiftInstr (.shr f) f s fun w a k => if k ≥ w then 0 else a / 2 ^ k
/-- Arithmetic shift right (R148). -/
def sarBits (w a k : Nat) : Nat :=
  let n := min k w
  if a / 2 ^ (w - 1) % 2 = 1 then a / 2 ^ n + (2 ^ w - 2 ^ (w - n)) else a / 2 ^ n
/-- SAR (R148). -/
def execSar (f : RegForm) (s : State) : Out := shiftInstr (.sar f) f s sarBits
/-- Rotation left (R148). -/
def rotLeft (w a k : Nat) : Nat := a * 2 ^ (k % w) % 2 ^ w + a / 2 ^ (w - k % w)
/-- ROT (R148): left, or right with sub 1. -/
def execRot (f : RegForm) (s : State) : Out :=
  shiftInstr (.rot f) f s fun w a k => if subOne f then rotLeft w a (w - k % w) else rotLeft w a k
/-- CLZ (R148). -/
def execClz (f : RegForm) (s : State) : Out :=
  compute (.clz f) s false fun c l => putD1 f l (tyBits f.ty - bitLen (srcA c f (Ty.is64 f.ty) f.ty l))
/-- POPC (R148). -/
def execPopc (f : RegForm) (s : State) : Out :=
  compute (.popc f) s false fun c l => putD1 f l (popCount (BitVec.ofNat 64 (srcA c f (Ty.is64 f.ty) f.ty l)))
/-- Bits in the opposite order (R148). -/
def revBits (w a : Nat) : Nat := (List.range w).foldl (fun r j => r + a / 2 ^ j % 2 * 2 ^ (w - 1 - j)) 0
/-- BREV (R148). -/
def execBrev (f : RegForm) (s : State) : Out := bitInstr (.brev f) f s fun a _ => revBits (tyBits f.ty) a

/-- Field position and width of a control word (R149), for a register of `w` bits. -/
def fieldAt (w ctl : Nat) : Nat × Nat := (ctl % 256, min (ctl / 256 % 256) (w - ctl % 256))

/-- `bfe` of a value (R149). -/
def bfeBits (t : Ty) (a ctl : Nat) : Nat :=
  let (pos, n) := fieldAt (tyBits t) ctl
  if n = 0 then 0
  else
    let x := a / 2 ^ pos % 2 ^ n
    if tySigned t then sext x n (tyBits t) else x

/-- BFE (R149). -/
def execBfe (f : RegForm) (s : State) : Out :=
  compute (.bfe f) s false fun c l => putD f l (bfeBits f.ty (srcA c f (Ty.is64 f.ty) f.ty l) (srcB c f false .n32 l))

/-- `bfi` of two values (R149). -/
def bfiBits (t : Ty) (a b ctl : Nat) : Nat :=
  let (pos, n) := fieldAt (tyBits t) ctl
  a - a / 2 ^ pos % 2 ^ n * 2 ^ pos + b % 2 ^ n * 2 ^ pos

/-- BFI (R149). -/
def execBfi (f : RegForm) (s : State) : Out :=
  compute (.bfi f) s false fun c l =>
    let two := Ty.is64 f.ty
    putD f l (bfiBits f.ty (srcA c f two f.ty l) (srcB c f two f.ty l) (srcE c f false .n32 l))

/-! ### Residue instructions (R170) -/

/-- A residue instruction on triples. -/
def rnInstr (i : Instr) (f : RegForm) (s : State) (op : Word → Word → Word) : Out :=
  compute i s false fun c l =>
    (destWrite f.dc f.d false l
      (op (BitVec.ofNat 32 (srcA c f false .rt l)) (BitVec.ofNat 32 (srcB c f false .rt l))).toNat, 0)

/-- RNFWD (R112, R170). -/
def execRnfwd (f : RegForm) (s : State) : Out := rnInstr (.rnfwd f) f s fun a _ => crtFwd a.toInt
/-- RNADD (R114, R170). -/
def execRnadd (f : RegForm) (s : State) : Out := rnInstr (.rnadd f) f s (rtMap fun m x y => (x + y) % m)
/-- RNSUB (R114, R170). -/
def execRnsub (f : RegForm) (s : State) : Out := rnInstr (.rnsub f) f s (rtMap fun m x y => (x + m - y) % m)
/-- RNMUL (R114, R170). -/
def execRnmul (f : RegForm) (s : State) : Out := rnInstr (.rnmul f) f s (rtMap fun m x y => x * y % m)
/-- RNREV (R113, R170). -/
def execRnrev (f : RegForm) (s : State) : Out := rnInstr (.rnrev f) f s fun a _ => BitVec.ofInt 32 (crtRev a)

end Sys2Proof.Machine
end

