-- ==== Sys2Proof/Machine/Barrier.lean ====
section
/-! DEFINITION. Barriers (R182 to R189, R206, R321): who has arrived, when a barrier completes, and what its completion
does. An exiting thread completes barriers too, so these stand apart from the instructions. -/

namespace Sys2Proof.Machine

/-- Has every thread of a block that has not exited arrived (R182)? -/
def State.allIn (s : State) (uid : Nat) (arr : List (Nat × Nat)) : Bool :=
  (s.warpsOf uid).all fun w => lanes.all fun l => (w.thread l).st == .exited || arr.contains (w.wid, l)

/-- The largest release stamp of the warps that have arrived (R308), those that have exited among them (R182, R184). -/
def State.arriveStamp (s : State) (uid : Nat) (arr : List (Nat × Nat)) : Nat :=
  (s.warpsOf uid).foldl (fun n w => if arr.any fun x => x.1 == w.wid then max n w.relStamp else n)
    (((s.block? uid).map Block.exitStamp).getD 0)

/-- Let the threads that have arrived leave, with an acquire of each warp (R172, R303 case 3). -/
def State.depart (s : State) (uid : Nat) (arr : List (Nat × Nat)) (scope : Scope) (stamp : Nat) : State :=
  (s.warpsOf uid).foldl (fun (s : State) (w : Warp) =>
    if arr.any fun x => x.1 == w.wid then
      (s.wakeWhere uid w.wid fun l t => t.st == .parked .barrier && arr.contains (w.wid, l)).acquire uid w.wid scope stamp
    else s) s

/-- Complete one block barrier (R182): everyone leaves and the barrier is empty. -/
def State.barComplete (s : State) (uid : Nat) (x : Barrier) : State :=
  (s.depart uid x.arrived .block (s.arriveStamp uid x.arrived)).modBlock uid fun b =>
    { b with bars := b.bars.filter fun y => y.id != x.id }

/-- The blocks of a block's cluster group (R185, R340). -/
def State.groupOf (s : State) (b : Block) : List Block :=
  let g := ((s.grid? b.gid).map fun g => g.launch.cgroup).getD 0
  s.blocks.filter fun x => x.gid == b.gid && x.parent.isNone && x.bid / g == b.bid / g

/-- Complete the cluster barrier when its group is in (R185). -/
def State.clusterBar (s : State) (uid : Nat) : State :=
  match s.block? uid with
  | none => s
  | some b =>
    let bs := s.groupOf b
    if (bs.any fun x => !x.clArr.isEmpty) && bs.all fun x => s.allIn x.uid x.clArr then
      let stamp := bs.foldl (fun n x => max n (s.arriveStamp x.uid x.clArr)) 0
      bs.foldl (fun (s : State) x => (s.depart x.uid x.clArr .cluster stamp).modBlock x.uid fun x => { x with clArr := [] }) s
    else s

/-- Live grids of a context (R321). -/
def State.liveGrids (s : State) (ctx : Nat) : Nat := (s.grids.filter fun g => g.ctx == ctx && g.live).length

/-- A new phase of a context begins (R321): marks of earlier phases are dead, and its overflow entries, far marks, owners
and uncertain bits are free (R388, R390, R394). -/
def State.newPhase (s : State) (ctx : Nat) : State :=
  let s := s.modCtx ctx fun c => { c with phase := c.phase + 1, phaseStart := s.time }
  let mine := s.owners.filter fun o => o.ctx == ctx
  { s with
    owners := s.owners.filter fun o => o.ctx != ctx,
    uncertain := mine.foldl (fun (u : Cells 32) o => cset u o.slot (setBit (cget u o.slot) o.k false)) s.uncertain,
    overflow := s.overflow.filter fun e => e.ctx != ctx, farMarks := s.farMarks.filter fun f => f.ctx != ctx }

/-- Complete the grid barrier when every block of the grid is in (R186, R321). -/
def State.gridBar (s : State) (gid : Nat) : State :=
  match s.grid? gid with
  | none => s
  | some g =>
    let bs := s.blocks.filter fun x => x.gid == gid && x.parent.isNone
    if bs.length = g.launch.nbid && (bs.any fun x => !x.gArr.isEmpty) && bs.all fun x => s.allIn x.uid x.gArr then
      let stamp := bs.foldl (fun n x => max n (s.arriveStamp x.uid x.gArr)) 0
      let s := bs.foldl (fun (s : State) x => (s.depart x.uid x.gArr .device stamp).modBlock x.uid fun x => { x with gArr := [] }) s
      if s.liveGrids g.ctx = 1 then s.newPhase g.ctx else s
    else s

/-- The PC before a PC in sequence (R54). -/
def prevPc (pc : Pc) : Pc := if pc.toNat % 64 = 0 then pc - 16 else pc - 12

/-- Write the thread-table entries of lanes of an evicted warp to its save area, as the device has changed them (R351). -/
def State.saveThreads (s : State) (uid wid : Nat) (m : LaneMask) : State :=
  match s.warp? uid wid, s.block? uid with
  | some w, some b =>
    if w.resident then s
    else (lanesOf m).foldl (fun (s : State) l =>
      s.saveMod b (saveThreadsAt b.kernel wid + 32 * l) 32 fun _ => threadEntry (w.thread l)) s
  | _, _ => s

/-- Arrivals at a phase barrier differ (R188): every warp that arrived stands at its `bar.phase` again, which has not been performed
(R299), with ILLEGAL to be delivered there; an evicted warp in its save area, so that it takes the fault when it is back. -/
def State.phaseFault (s : State) (uid : Nat) : State :=
  let back := ((s.block? uid).map Block.phBack).getD []
  let s := s.modBlock uid fun b => { b with phArr := [], phase := none, phClash := false, phBack := [] }
  (s.warpsOf uid).foldl (fun (s : State) (w : Warp) =>
    match back.filter fun x => x.wid == w.wid with
    | [] => s
    | x :: xs =>
      let mine := maskOf ((x :: xs).map PhaseBack.lane)
      let w : Warp := w.modThreads mine fun l t =>
        match (x :: xs).find? fun y => y.lane == l with
        | some y =>
          { t with st := .ready, pc := y.pc, rentry := y.rentry, rseq := y.rseq, newRegion := false, reenter := true, marker := false }
        | none => t
      ((s.setWarp w).modWarp uid w.wid fun w =>
        { w with deferred := w.deferred ++ [(x.lane,
            { code := FaultCode.illegal.code, pc := x.pc, lanes := mine, eseq := w.eseq, rentry := x.rentry, rseq := x.rseq })] }
        ).saveThreads uid w.wid mine) s

/-- Are results of the block still on their way, those of exited threads among them: a strong value (R215), the result of a uniform
instruction, an access to a well? -/
def State.resultsOut (s : State) (uid : Nat) : Bool :=
  (s.owed.any fun o => o.uid == uid)
    || s.msgs.any fun m =>
      match m.kind with
      | .strong r => r.uid == uid
      | .well r => r.uid == uid
      | _ => false

/-- The release at device scope of every warp that has arrived at a phase barrier, when it completes (R189 step 1, log entry 95). An
evicted warp's warp word follows. -/
def State.phaseRelease (s : State) (uid : Nat) : State :=
  let arr := ((s.block? uid).map Block.phArr).getD []
  let s := (s.warpsOf uid).foldl (fun (s : State) (w : Warp) =>
    if arr.any fun x => x.1 == w.wid then (s.releaseNow uid w.wid .device).saveWord uid w.wid else s) s
  s.modBlock uid fun b => { b with phStamp := s.arriveStamp uid arr }

/-- Complete the phase barrier when the block is in, and nothing of it is on its way any more (R188, R189, R215). -/
def State.phaseBar (s : State) (uid : Nat) : State :=
  match s.block? uid with
  | none => s
  | some b =>
    if b.phArr.isEmpty || !s.allIn uid b.phArr then s
    else if b.phClash then s.phaseFault uid
    else if s.resultsOut uid then s
    else (if s.phaseWritable b then s.phaseRelease uid else s).phaseComplete uid

/-- The largest release stamp of a block's children (R303 case 6). -/
def State.childStamp (s : State) (uid : Nat) : Nat :=
  s.warps.foldl (fun n w =>
    if (s.block? w.uid).any fun b => (b.parent.map Prod.fst) == some uid then max n w.relStamp else n) 0

/-- Wake the `sync.spawn` waits whose folds are over (R199): an acquire at device scope, with no earlier access of the warp still to be
performed (R296). -/
def State.syncWake (s : State) (uid : Nat) : State :=
  match s.block? uid with
  | none => s
  | some p =>
    let due := p.syncs.filter fun x => x.2.2 ≤ p.folded && !s.accessesPending uid x.1
    let s := s.modBlock uid fun p => { p with syncs := p.syncs.filter fun x => !due.contains x }
    due.foldl (fun (s : State) x =>
      (s.wakeWhere uid x.1 fun l t => x.2.1.getLsbD l && t.st == .parked .syncSpawn).wakeAcquire uid x.1 .device (s.childStamp uid)) s

/-- Look at every barrier that a block's threads may have completed. -/
def State.barsCheck (s : State) (uid : Nat) : State :=
  match s.block? uid with
  | none => s
  | some b =>
    let s := b.bars.foldl (fun (s : State) x =>
      if x.need.isNone && !x.arrived.isEmpty && s.allIn uid x.arrived then s.barComplete uid x else s) s
    let s := if b.parent.isSome then s else (s.clusterBar uid).gridBar b.gid
    s.phaseBar uid

/-- Arrive at a barrier: the active threads park (R182). -/
def State.park (s : State) (c : Ic) (r : Reason) : State :=
  s.modWarp c.w.uid c.w.wid fun w => w.modThreads c.active fun _ t => { t with st := .parked r }

/-- The arrivals of the issuing bundle. -/
def Ic.arrivals (c : Ic) : List (Nat × Nat) := (lanesOf c.active).map fun l => (c.w.wid, l)

/-- Enter arrivals at a numbered barrier. -/
def Block.arrive (b : Block) (id : Nat) (xs : List (Nat × Nat)) (need : Option Nat) : Block :=
  match b.bars.find? fun x => x.id == id with
  | some x =>
    { b with bars := replaceIf (fun y => y.id == id) (fun _ => { x with arrived := x.arrived ++ xs }) b.bars }
  | none => { b with bars := b.bars ++ [{ id := id, arrived := xs, need := need }] }

/-- Is every register of a result in an exiting lane (R176)? -/
def Ic.gone (c : Ic) (slots : List RegSlot) : Bool :=
  slots.all fun x =>
    match x with
    | .vec _ l => c.active.getLsbD l
    | _ => false

/-- The plain well loads of exiting lanes that are on their way: owed result, and lane of it (R176, R404). -/
def State.goneWells (s : State) (c : Ic) : List (Nat × Nat × Nat) :=
  s.msgs.filterMap fun m =>
    match m.kind with
    | .well r =>
      match r.owed with
      | some o => if r.uid == c.w.uid && r.wid == c.w.wid && r.cls == 0 && c.gone r.slots then some (m.id, o, r.lane) else none
      | none => none
    | _ => none

/-- End the active threads (R176): their loads are discarded, their other work completes, and they count as arrived
everywhere (R182). -/
def State.endThreads (s : State) (c : Ic) : State :=
  let gone (o : Owed) (p : Piece) : Bool := o.uid == c.w.uid && o.wid == c.w.wid && !o.strong && c.gone p.slots
  let wells := s.goneWells c
  let os : List Owed := s.owed.map fun (o : Owed) =>
    { o with
      pieces := replaceIf (gone o) (fun p => { p with done := true }) o.pieces,
      lanes := o.lanes.filter fun l => !wells.any fun x => x.2.1 == o.id && x.2.2 == l }
  let hit := s.owed.filter fun o => (o.pieces.any (gone o)) || wells.any fun x => x.2.1 == o.id
  let s := { s with owed := os, msgs := s.msgs.filter fun m => !wells.any fun x => x.1 == m.id }.modWarp c.w.uid c.w.wid fun w =>
    w.modThreads c.active fun _ t => { t with st := .exited, marker := false }
  let s := hit.foldl (fun (s : State) (o : Owed) => s.settle o.id) s
  let last := ((s.warp? c.w.uid c.w.wid).map fun w => if w.allExited then w.relStamp else 0).getD 0
  (s.modBlock c.w.uid fun b => { b with exitStamp := max b.exitStamp last }).barsCheck c.w.uid

/-- Threads of the warp that would be left after the active ones exit. -/
def Ic.othersLive (c : Ic) : Bool :=
  lanes.any fun l => !c.active.getLsbD l && !((c.w.thread l).st == .exited)

end Sys2Proof.Machine
end

