-- ==== Sys2Proof/Machine/Resolve.lean ====
section
/-! DEFINITION. What an address denotes for a block (R41 to R46, R209 to R213, R220, R412, R443): the checks of orders
1 to 6, and the place that an access reaches. -/

namespace Sys2Proof.Machine

/-- Where an access goes: memory through a page, the weight-store window or the private window, or a well offset. -/
inductive Target where
  | mem (x : Xlat) (va : Nat)
  | well (off : Nat)
  deriving DecidableEq, Repr

/-- What kind of access looks at an address. -/
structure Look where
  size : Nat
  need : Need
  /-- A write, or any atomic but `ldf` (R43, R224, R227). -/
  writes : Bool := false
  /-- A paired access or an atomic. -/
  strong : Bool := false
  /-- The lane's `%tid`; an engine has none, and no private window. -/
  tid : Option Nat := none
  units : List TlbUnit := []
  /-- Watchpoints in force (R443). -/
  watch : List (BitVec 64) := []
  deriving DecidableEq, Repr

/-- A fault and its place in the order of R213. -/
structure Ordered where
  order : Nat
  fault : XFault
  deriving DecidableEq, Repr

/-- Bytes between two threads' private memories (R46). -/
def Kernel.pstride (k : Kernel) : Nat := roundUp k.privBytes 256

/-- Is an address in the alias range of a live grid of a context (R46)? From when on a grid is live is the model's reading (log
entry 29). -/
def State.inAlias (s : State) (ctx va : Nat) : Bool :=
  s.grids.any fun g =>
    g.ctx == ctx && g.live && g.launch.gpbase.toNat ≤ va
      && va < g.launch.gpbase.toNat + g.launch.nbid * g.launch.ntid * g.kernel.pstride

/-- Where a byte of a thread's private window is backed (R46). -/
def State.privAlias (s : State) (b : Block) (tid off : Nat) : Nat :=
  let gp := ((s.grid? b.gid).map fun g => g.launch.gpbase.toNat).getD 0
  (gp + (b.bid * b.ntid + tid) * b.kernel.pstride + off) % 2 ^ 64

/-- First byte of the weight store (R375). -/
def wstoreBase : Nat := 0x1000000000000

/-- The watchpoint that an access hits (R443): its number. -/
def watchHit (ws : List (BitVec 64)) (a size : Nat) (wr : Bool) : Option Nat :=
  (List.range ws.length).find? fun n =>
    let v := (ws.getD n 0).toNat
    let kind := fieldOf v 62 2
    let lg := fieldOf v 58 4
    let base := fieldOf v 0 55 / 2 ^ lg * 2 ^ lg
    3 ≤ lg && fieldOf kind (if wr then 1 else 0) 1 == 1 && base < a + size && a < base + 2 ^ lg

/-- The location's own rules, after translation (R220, R412): I/O pages take no strong access, and unchecked far and
host pages no data store. -/
def locRule (x : Xlat) (l : Look) : Option XFault :=
  if l.strong && x.loc == locIO then some { code := .pagePerm }
  else if !l.strong && l.writes && !x.chk && (x.loc == locFar || x.loc == locHost) then some { code := .pagePerm }
  else none

/-- Resolve a generic address (R41 to R46). -/
def State.resolve (s : State) (b : Block) (l : Look) (a : BitVec 64) : Except Ordered Target × State :=
  let n := a.toNat
  let hit := watchHit l.watch n l.size (l.need == .write || l.need == .both)
  let hit := if hit.isNone && l.need == .both then watchHit l.watch n l.size false else hit
  let brk : Option Ordered := hit.map fun k => { order := 6, fault := { code := .brk, level := k } }
  if n % l.size ≠ 0 then (.error { order := 1, fault := { code := .align } }, s)
  else
    match windowOf a with
    | .reserved => (.error { order := 2, fault := { code := .pageAbsent, cause := 4 } }, s)
    | .well off =>
      if (b.wellAt off).isNone then (.error { order := 3, fault := { code := .wellDetached } }, s)
      else
        match brk with
        | some e => (.error e, s)
        | none => (.ok (.well off), s)
    | .wstore off =>
      if l.writes then (.error { order := 5, fault := { code := .wstoreRO } }, s)
      else if !(s.ctx b.ctx).wsread then (.error { order := 6, fault := { code := .pagePerm } }, s)
      else
        match brk with
        | some e => (.error e, s)
        | none => (.ok (.mem { pa := wstoreBase + off, loc := locWstore } n), s)
    | .priv off =>
      match l.tid with
      | none => (.error { order := 6, fault := { code := .pagePerm } }, s)
      | some t =>
        if l.strong || b.kernel.privBytes < off + l.size then
          (.error { order := 6, fault := { code := .pagePerm } }, s)
        else
          match windowOf (BitVec.ofNat 64 (s.privAlias b t off)) with
          | .global va =>
            match s.xlat l.units b.ctx va l.need with
            | (.error x, s) => (.error { order := 6, fault := x }, s)
            | (.ok x, s) =>
              match locRule x l, brk with
              | some f, _ => (.error { order := 6, fault := f }, s)
              | none, some e => (.error e, s)
              | none, none => (.ok (.mem { x with chk := false } va), s)
          | _ => (.error { order := 6, fault := { code := .pageAbsent, cause := 4 } }, s)
    | .global va =>
      if !s.privileged b.ctx && s.inAlias b.ctx va then (.error { order := 4, fault := { code := .privateAlias } }, s)
      else
        match s.xlat l.units b.ctx va l.need with
        | (.error x, s) => (.error { order := 6, fault := x }, s)
        | (.ok x, s) =>
          match locRule x l, brk with
          | some f, _ => (.error { order := 6, fault := f }, s)
          | none, some e => (.error e, s)
          | none, none => (.ok (.mem x va), s)

/-- Resolve a well offset (space 1, R209). -/
def State.resolveWell (_s : State) (b : Block) (size off : Nat) : Except Ordered Target :=
  if off % size ≠ 0 then .error { order := 1, fault := { code := .align } }
  else if 0xC0000 ≤ off then .error { order := 2, fault := { code := .pageAbsent, cause := 4 } }
  else if (b.wellAt off).isNone then .error { order := 3, fault := { code := .wellDetached } }
  else .ok (.well off)

/-- The bytes of a target, as they stand at home or in the well. -/
def State.targetBytes (s : State) (b : Block) (t : Target) (n : Nat) : List Byte :=
  match t with
  | .mem x _ => readBytes s.mem x.pa n
  | .well off => s.wellBytes b off n

/-- Is a byte of the target poisoned or beyond correction (R213 order 7)? -/
def State.targetBad (s : State) (b : Block) (t : Target) (n : Nat) : Option FaultCode :=
  match t with
  | .mem x _ => if s.poisoned x.pa n then some .poison else none
  | .well off =>
    if (List.range (ceilDiv (off % 4 + n) 4)).any fun k => (b.wellAt (off + 4 * k)).any fun key => cget s.wellBad key == 1
    then some .eccUncorrectable else none

/-- The first fault of a list of lanes (R213): lowest order, then lowest lane. -/
def firstFault (es : List (Nat × Ordered)) : Option (Nat × Ordered) :=
  bestBy (fun x y => x.2.order < y.2.order || (x.2.order == y.2.order && x.1 < y.1)) es

end Sys2Proof.Machine
end

