-- ==== Sys2Proof/Machine/Command.lean ====
section
/-! DEFINITION. Reading the record that an engine-form instruction names (R192, R237), and issuing a command with a
token (R39, R40, R237, R238). -/

namespace Sys2Proof.Machine

/-- A fault record for an address that an instruction of the whole warp found. -/
def Ic.faultAt (c : Ic) (x : XFault) (a : BitVec 64) (acc : Nat) : FaultRec :=
  { c.record x.code c.lane0 a acc with cause := x.cause, level := x.level }

/-- Read whole lines at an address in the warp's context, for an instruction that creates work (R192): at their homes, neither
checked nor marked (log entry 20). Requests that leave the device's own memory are counted (R417). -/
def State.linesAt (s : State) (c : Ic) (units : List TlbUnit) (a : BitVec 64) : Nat → Except (XFault × BitVec 64) (List Byte) × State
  | 0 => (.ok [], s)
  | n + 1 =>
    match s.linesAt c units a n with
    | (.error e, s) => (.error e, s)
    | (.ok bs, s) =>
      let at' := a + BitVec.ofNat 64 (64 * n)
      match s.resolve c.b { size := 64, need := .read, units := units } at' with
      | (.error e, s) => (.error (e.fault, at'), s)
      | (.ok t, s) =>
        let s := match t with
          | .mem x va => s.forward c.w.core c.b.ctx va x.loc x.pa x.tpin
          | .well _ => s
        match s.targetBad c.b t 64 with
        | some f => (.error ({ code := f }, at'), s)
        | none => (.ok (bs ++ s.targetBytes c.b t 64), s)

/-- The record of an instruction that creates work, as a number, or its precise fault. -/
def State.record (s : State) (c : Ic) (pair lines : Nat) : Except FaultRec Nat × State :=
  let a := c.w.sget64 pair
  match s.linesAt c (engineUnits c.w.core) a lines with
  | (.error (x, a), s) => (.error (c.faultAt x a 1), s)
  | (.ok bs, s) => (.ok (natOfBytes bs), s)

/-- Is a context, which owns slots of the slice table, outside its slices (R255, R369)? -/
def State.offSlice (s : State) (ctx : Nat) : Bool :=
  let t := s.plat.slices
  t.n != 0 && (t.owner.take t.n).contains ctx && s.plat.sliceOwner != some ctx

def isColl (i : Instr) : Bool :=
  match i with
  | .coll _ => true
  | _ => false

/-- Issue a command with a token (R39, R237): its engine entry, the pending token and the next sequence number; its
party opens with the warp's acquire times (R310, R328). The new command's name, too. -/
def State.issueCommand (s : State) (c : Ic) (i : Instr) (token : Option Nat) (args : List Nat) : Nat × State :=
  let w := (s.warp? c.w.uid c.w.wid).getD c.w
  let id := s.nextId
  let e : Engine :=
    { id := id, uid := w.uid, wid := w.wid, lslot := w.lslot, eseq := w.eseq, ctx := c.b.ctx,
      gen := (s.ctx c.b.ctx).gen, core := w.core, pc := c.pc, lanes := c.active, op := i, args := args, token := token,
      acqNear := w.acqNear, acqWide := w.acqWide, issued := s.time,
      offSince := if isColl i && s.offSlice c.b.ctx then some s.time else none }
  let s := { s with nextId := id + 1, engines := s.engines ++ [e] }
  let s := s.setWarp { w with
    eseq := w.eseq + 1,
    tokens := (match token with
      | some r => (w.tokens.filter fun t => t.reg != r) ++ [{ reg := r, eng := id, done := false }]
      | none => w.tokens) }
  (id, s.traceEvent (coreDie w.core) 4 none (some c.pc) (some e.eseq) (some e.lslot) e.ctx)

end Sys2Proof.Machine
end

