-- ==== Sys2Proof/Machine/Memory.lean ====
section
/-! DEFINITION. Memory instructions (classes 0x18, 0x1A to 0x1F): data loads and stores, paired synchronisation, relaxed
atomics and fences, as the issuing core performs them (R208 to R229). What a home or the well switch does with an
access is an event of its own. -/

namespace Sys2Proof.Machine

/-! ### Addresses and operands (R209 to R213) -/

/-- Address of a lane's access (R209). -/
def memAddr (c : Ic) (f : MemForm) (l : Nat) : BitVec 64 :=
  (if f.buni then c.w.sget64 f.base.toNat else c.w.vget64 f.base.toNat l) + f.offset.signExtend 64

/-- Destination registers of a lane (R24, R211). -/
def memSlots (f : MemForm) (l : Nat) : List RegSlot :=
  (List.range (widthRegs f.width)).map fun k => if f.duni then .uni (f.d.toNat + k) else .vec (f.d.toNat + k) l

/-- A register operand of the access width in a lane (R24, R211). -/
def memReg (c : Ic) (f : MemForm) (r : BitVec 8) (l : Nat) : Nat :=
  (List.range (widthRegs f.width)).foldl (fun n k =>
    n + (if f.c.u then c.w.sget (r.toNat + k) else c.w.vget (r.toNat + k) l).toNat * 2 ^ (32 * k)) 0

/-- The threads that a lane's access is for: its own, or all active ones of a uniform instruction (R32). -/
def Ic.group (c : Ic) (f : MemForm) (l : Nat) : LaneMask := if f.c.u then c.active else (1 : LaneMask) <<< l

/-- Resolve the addresses of lanes: the targets, the faults, and the state with what the TLBs learnt. -/
def State.resolveLanes (s : State) (c : Ic) (f : MemForm) (lk : Look) :
    List Nat → List (Nat × Target) × List (Nat × Ordered) × State
  | [] => ([], [], s)
  | l :: ls =>
    let a := memAddr c f l
    let (r, s) :=
      if f.space == .well then (s.resolveWell c.b lk.size a.toNat, s)
      else s.resolve c.b { lk with tid := some (tidOf c.w.wid l) } a
    let (ts, es, s) := s.resolveLanes c f lk ls
    match r with
    | .ok t => ((l, t) :: ts, es, s)
    | .error e => (ts, (l, e) :: es, s)

/-- The record of a lane's own fault; a watchpoint's is a BRK with its number (R424, R443). -/
def Ic.laneFault (c : Ic) (l : Nat) (a : BitVec 64) (acc : Nat) (x : XFault) : Res :=
  let r := { c.record x.code l a acc with cause := x.cause, level := x.level }
  if x.code = .brk then .brk { r with aux := 0x100 + x.level, level := 0 } else .fault r

/-- What an access of the issuing warp looks for. -/
def Ic.look (c : Ic) (f : MemForm) (need : Need) (writes strong : Bool) : Look :=
  { size := widthBytes f.width, need := need, writes := writes, strong := strong, units := laneUnits c.w.core,
    watch := c.b.watch }

/-- Check every working lane before any is performed (R213 orders 1 to 6), then go on with their targets. `acc`: the
record's kind of access. -/
def withTargets (s : State) (c : Ic) (f : MemForm) (lk : Look) (acc : Nat)
    (k : List (Nat × Target) → State → Res) : Res :=
  let (ts, es, s) := s.resolveLanes c f lk (workLanes f.c.u c.active)
  match firstFault es with
  | none => k ts s
  | some (l, e) => c.laneFault l (memAddr c f l) acc e.fault

/-- A lane's access as its home sees it. -/
def State.accessOf (s : State) (c : Ic) (label : Nat) (write : Bool) (l : Nat) (x : Xlat) (va : BitVec 64) (size : Nat) :
    Access :=
  { party := s.warpParty ((s.warp? c.w.uid c.w.wid).getD c.w), lane := l, label := label, write := write, addr := x.pa,
    loc := x.loc, words := wordsOf x.pa size, va := va, pc := c.pc, lanes := c.active, rseq := (c.w.thread l).rseq }

/-- Send an access's mark check unless the L1's line filters it (R382). -/
def State.checkData (s : State) (c : Ic) (a : Access) : State :=
  match s.warp? c.w.uid c.w.wid, s.l1? c.w.core c.b.ctx (lineOf a.addr) with
  | some w, some y =>
    if y.filters w.ftag a.write a.words then s
    else (s.sendCheck w a).l1Mod w.core c.b.ctx y.line fun y => y.owned w.slot w.ftag a.write a.words
  | _, _ => s

/-- Let the L1's line know the page its last access went through: a line that holds bytes still to be written back keeps the page of
its stores, and a store through an entry whose migration bit differs first writes those bytes back (R384, R419). -/
def State.linePage (s : State) (c : Ic) (x : Xlat) (va : BitVec 64) (store : Bool := false) : State :=
  let line := lineOf x.pa
  let split := store && (s.l1? c.w.core c.b.ctx line).any fun y => y.dirty != 0 && y.mig != x.mig
  (if split then s.writeBack c.w.core c.b.ctx line else s).l1Mod c.w.core c.b.ctx line fun y =>
    if y.dirty != 0 && !store then y
    else { y with loc := x.loc, va := lineOf va.toNat, mig := if store then x.mig else y.mig, tpin := x.tpin }

/-! ### Data loads (R219 to R221) -/

/-- Note a fault of order 7 or 8 of a warp, to be delivered at its next region boundary (R213). -/
def State.defer (s : State) (uid wid lane : Nat) (r : FaultRec) : State :=
  s.modWarp uid wid fun w => { w with deferred := w.deferred ++ [(lane, r)] }

/-- The latest fill on its way that may serve a warp (R331, R383). -/
def State.fillFor (s : State) (core ctx line sec acqEpoch : Nat) : Option (Nat × Fill) :=
  (s.msgs.filterMap fun m =>
    match m.kind with
    | .fillReq f => if f.is core ctx line && f.sectors.getLsbD sec && f.epoch ≠ 0 && acqEpoch ≤ f.epoch then some (m.id, f) else none
    | .fillReply f => if f.is core ctx line && f.sectors.getLsbD sec && f.epoch ≠ 0 && acqEpoch ≤ f.epoch then some (m.id, f) else none
    | _ => none).getLast?

/-- Let pieces wait for a fill on its way. -/
def State.joinFill (s : State) (id : Nat) (refs : List (Nat × Nat)) : State :=
  { s with msgs := s.msgs.map fun (m : Msg) =>
      if m.id = id then
        match m.kind with
        | .fillReq f => { m with kind := .fillReq { f with owed := f.owed ++ refs } }
        | .fillReply f => { m with kind := .fillReply { f with owed := f.owed ++ refs } }
        | _ => m
      else m }

/-- Give a piece its bytes, or note that they are poisoned (R213 order 7, R379). -/
def State.pieceReady (s : State) (uid wid : Nat) (p : Piece) (bs : List (Option Byte)) (bad : Bool) : Piece × State :=
  if bad then ({ p with got := bs, ready := true, slots := [] }, s.defer uid wid p.lane p.flt)
  else ({ p with got := bs, ready := true }, s)

/-- Start one lane of a load through the L1 (R379 to R383): the piece, with the bytes that are the core's own, and a
fill for the rest. None when the set has no way to give (R379). `ref` names the piece. -/
def State.loadPiece (s : State) (c : Ic) (x : Xlat) (va : BitVec 64) (p : Piece) (ref : Nat × Nat) : Option (Piece × State) :=
  if x.loc = locIO then
    let n := s.freeCtr
    some ({ p with got := (List.range p.size).map fun i => some (Config.freeByte n i), ready := true },
      { s with freeCtr := n + 1 })
  else
    let core := c.w.core
    let ctx := c.b.ctx
    let line := lineOf x.pa
    (s.l1Room core ctx line).bind fun s =>
      let s := s.linePage c x va
      let s := if x.chk then s.checkData c (s.accessOf c 0 false p.lane x va p.size) else s
      match s.warp? c.w.uid c.w.wid, s.l1? core ctx line with
      | some w, some y =>
        let off := x.pa % 64
        let bs := y.bytesFor w.acqEpoch off p.size
        if allThere bs then some (s.pieceReady w.uid w.wid p bs (y.poisonedAt x.pa p.size))
        else
          match s.fillFor core ctx line (off / 32) w.acqEpoch with
          | some (id, f) =>
            let own := (List.range p.size).map fun k =>
              if (y.dirty ||| f.keep).getLsbD (off + k) then some (lineByte y.data (off + k)) else none
            if allThere own then some (s.pieceReady w.uid w.wid p own (y.poisonedAt x.pa p.size))
            else some ({ p with got := own }, s.joinFill id [ref])
          | none => some ({ p with got := bs }, s.askFill core ctx line (off / 32) [ref] x.loc va.toNat x.tpin)
      | _, _ => none

/-- An access of a lane to a well word, in its common parts (R402). -/
def State.wellAccess (s : State) (c : Ic) (f : MemForm) (l : Nat) (key off : Nat) (cls : Nat) (op : StrongOp) : Strong :=
  { uid := c.w.uid, wid := c.w.wid, lane := l, group := c.group f (l % 32), seq := s.nextId, cls := cls, scope := f.scope, op := op,
    size := widthBytes f.width, addr := key * 4 + off % 4, loc := 0, checked := false, value := 0, owed := none, slots := [],
    fences := [], releases := false, acquires := false, acc := s.accessOf c cls (op != .load false) l { pa := 0 } (memAddr c f (l % 32)) 0,
    va := 0, mig := false }

/-- Send a plain well load of a lane, word by word (R404); the lanes of the owed result, numbered l + 32k. -/
def State.wellLoad (s : State) (c : Ic) (f : MemForm) (id l off : Nat) : List Nat × State :=
  (List.range (max 1 (widthBytes f.width / 4))).foldl (fun (x : List Nat × State) k =>
    match c.b.wellAt (off + 4 * k) with
    | none => x
    | some key =>
      let r := x.2.wellAccess c f (l + 32 * k) key (off + 4 * k) 0 (.load (f.aop == 1))
      (x.1 ++ [l + 32 * k],
        x.2.send (.well { r with size := min 4 r.size, owed := some id, slots := ((memSlots f l).drop k).take 1 }))) ([], s)

/-- Start the lanes of a load; the pieces and the well lanes of the owed result, or none when one must wait. -/
def State.loadLanes (s : State) (c : Ic) (f : MemForm) (id : Nat) :
    List (Nat × Target) → Nat → Option (List Piece × List Nat) × State
  | [], _ => (some ([], []), s)
  | (l, t) :: rest, k =>
    match t with
    | .mem x va =>
      let p : Piece :=
        { slots := memSlots f l, signed := f.aop == 1, size := widthBytes f.width, addr := x.pa, got := [], ready := false,
          lane := l, flt := c.record .poison l (memAddr c f l) 1 }
      match s.loadPiece c x (BitVec.ofNat 64 va) p (id, k) with
      | none => (none, s)
      | some (p, s) =>
        let (o, s) := s.loadLanes c f id rest (k + 1)
        (o.map fun y => (p :: y.1, y.2), s)
    | .well off =>
      let (ls, s) := s.wellLoad c f id l off
      let (o, s) := s.loadLanes c f id rest k
      (o.map fun y => (y.1, ls ++ y.2), s)

/-- Owe a result under a name taken before (R38, R214). -/
def State.oweAs (s : State) (o : Owed) : State :=
  { s with owed := s.owed ++ [o] }.modWarp o.uid o.wid fun w => { w with outstanding := w.outstanding + 1 }

/-- Places of the bytes of an access, as a region's record names them (R300): physical addresses, and well bytes from 2^70 on. -/
def Target.places (b : Block) (size : Nat) : Target → List Nat
  | .mem x _ => if x.loc = locIO then [] else (List.range size).map fun k => x.pa + k
  | .well off => (List.range size).filterMap fun k => (b.wellAt (off + k)).map fun key => 2 ^ 70 + 4 * key + (off + k) % 4

/-- Note the bytes that the lanes of a load or of a store have touched in their region instances (R300). -/
def State.noteBytes (s : State) (c : Ic) (f : MemForm) (store : Bool) (ts : List (Nat × Target)) : State :=
  s.modWarp c.w.uid c.w.wid fun w =>
    ts.foldl (fun (w : Warp) x =>
      w.modThreads (c.group f x.1) fun _ t =>
        let ps := x.2.places c.b (widthBytes f.width)
        if store then { t with rgStore := t.rgStore ++ ps.filter fun a => t.rgLoad.contains a && !t.rgStore.contains a }
        else { t with rgLoad := t.rgLoad ++ ps.filter fun a => !t.rgLoad.contains a }) w

/-- Load from the targets of the lanes (R214, R220). -/
def State.loadAll (s : State) (c : Ic) (f : MemForm) (ts : List (Nat × Target)) : Res :=
  let id := s.nextId
  match { s with nextId := id + 1 }.loadLanes c f id ts 0 with
  | (none, s) => .stall s
  | (some (ps, ls), s) =>
    let s := if ps.any Piece.ready then s.servedBy c.w.core id 1 else s
    .next ((s.noteBytes c f false ts).oweAs { id := id, uid := c.w.uid, wid := c.w.wid, pieces := ps, lanes := ls })

/-- LD (R220). -/
def execLd (f : MemForm) (s : State) : Out :=
  run (.ld f) s fun c s => withTargets s c f (c.look f .read false false) 1 fun ts s => s.loadAll c f ts

/-- Addresses of a lane in the const space (R221): its fault, or its target, which is not checked. What must be a multiple of the access
size is the address reached, parameter address and offset together (DESIGN CHOICE, log entry 86). -/
def State.constTargets (s : State) (c : Ic) (f : MemForm) : List Nat → List (Nat × Target) × List (Nat × Ordered) × State
  | [] => ([], [], s)
  | l :: ls =>
    let a := memAddr c f l
    let lk := { c.look f .read false false with tid := some (tidOf c.w.wid l), watch := [] }
    let (r, s) : Except Ordered Target × State :=
      if a.toNat % lk.size ≠ 0 then (.error { order := 1, fault := { code := .align } }, s)
      else if 65536 < a.toNat + lk.size then (.error { order := 6, fault := { code := .pagePerm } }, s)
      else s.resolve c.b lk (c.b.param + a)
    let (ts, es, s) := s.constTargets c f ls
    match r with
    | .ok (.mem x va) => ((l, .mem { x with chk := false } va) :: ts, es, s)
    | .ok t => ((l, t) :: ts, es, s)
    | .error e => (ts, (l, e) :: es, s)

/-- LDC (R221). -/
def execLdc (f : MemForm) (s : State) : Out :=
  run (.ldc f) s fun c s =>
    let (ts, es, s) := s.constTargets c f (workLanes f.c.u c.active)
    match firstFault es with
    | none => s.loadAll c f ts
    | some (l, e) => c.laneFault l (memAddr c f l) 1 e.fault

/-- Bring a line into the L1, if there is room (R222). -/
def State.prefetch (s : State) (c : Ic) (x : Xlat) (va : BitVec 64) : State :=
  if x.loc = locIO then s
  else
    let line := lineOf x.pa
    match s.l1Room c.w.core c.b.ctx line with
    | none => s
    | some s =>
      [0, 1].foldl (fun (s : State) sec =>
        let epoch := ((s.warp? c.w.uid c.w.wid).map Warp.acqEpoch).getD 0
        if ((s.l1? c.w.core c.b.ctx line).any fun y => y.serves sec epoch)
            || (s.fillFor c.w.core c.b.ctx line sec epoch).isSome then s
        else s.askFill c.w.core c.b.ctx line sec [] x.loc va.toNat x.tpin) (s.linePage c x va)

/-- Ask the home of a line to take it into its L2 (R222): only local, far and host lines are held there (R376, R401). -/
def State.prefetchL2 (s : State) (c : Ic) (x : Xlat) (va : Nat) : State :=
  if x.loc = locLocal ∨ x.loc = locFar ∨ x.loc = locHost then
    (s.forward c.w.core c.b.ctx va x.loc x.pa x.tpin).send (.prefetch c.w.core c.b.ctx (lineOf x.pa) x.loc)
  else s

/-- PRF (R222): a bad address is dropped. `.l2` asks the home to take the line into its L2. -/
def execPrf (f : MemForm) (s : State) : Out :=
  run (.prf f) s fun c s =>
    let (ts, _, s) := s.resolveLanes c f { c.look f .read false false with watch := [] } (workLanes f.c.u c.active)
    if f.aop = 1 then
      .next (ts.foldl (fun (s : State) t =>
        match t.2 with
        | .mem x va => s.prefetchL2 c x va
        | .well _ => s) s)
    else
      .next (ts.foldl (fun (s : State) t =>
        match t.2 with
        | .mem x va => s.prefetch c x (BitVec.ofNat 64 va)
        | .well _ => s) s)

/-! ### Data stores (R220) -/

/-- Where a target lies, to tell lanes apart. -/
def Target.place : Target → Nat
  | .mem x _ => 2 * x.pa
  | .well off => 2 * off + 1

/-- Lanes that touch one element come in a free order (R212, log entry 3); others in lane order. -/
def State.laneOrder (s : State) (ts : List (Nat × Target)) : List (Nat × Target) × State :=
  let ps := ts.map fun t => t.2.place
  if ps.eraseDups.length = ps.length then (ts, s)
  else
    let n := s.freeCtr
    (sortBy (fun x y => Config.free n x.1 < Config.free n y.1) ts, { s with freeCtr := n + 1 })

/-- Send a plain well store of a lane, word by word (R404). -/
def State.wellStore (s : State) (c : Ic) (f : MemForm) (l off v : Nat) : State :=
  (List.range (max 1 (widthBytes f.width / 4))).foldl (fun (s : State) k =>
    match c.b.wellAt (off + 4 * k) with
    | none => s
    | some key =>
      let r := s.wellAccess c f (l + 32 * k) key (off + 4 * k) 0 .store
      s.send (.well { r with size := min 4 r.size, value := BitVec.ofNat 64 (v / 2 ^ (32 * k) % 2 ^ 32) })) s

/-- Store one lane's bytes (R220, R381, R384, R412); none when the set of its line has no way to give. -/
def State.storeLane (s : State) (c : Ic) (f : MemForm) (l : Nat) (t : Target) : Option State :=
  let size := widthBytes f.width
  let v := memReg c f f.data l
  match t with
  | .well off => some (s.wellStore c f l off v)
  | .mem x va =>
    let bs := bytesOfNat size v
    if x.loc = locIO then some { s with ioLog := s.ioLog ++ [(x.pa, bs)] }
    else
      (s.l1Room c.w.core c.b.ctx (lineOf x.pa)).map fun s =>
        let s := (s.linePage c x (BitVec.ofNat 64 va) true).l1Mod c.w.core c.b.ctx (lineOf x.pa) fun y => y.store (x.pa % 64) bs
        let s := s.relsDrop (some c.w.core) (lineOf x.pa) (byteMask (x.pa % 64) size)
        let s := s.modWarp c.w.uid c.w.wid fun w => w.noteDirty (lineOf x.pa)
        if x.chk then s.checkData c (s.accessOf c 0 true l x (memAddr c f l) size) else s

/-- A target in memory, not in a well. -/
def Target.isMem : Target → Bool
  | .mem _ _ => true
  | .well _ => false

/-- Store the lanes. -/
def State.storeLanes (s : State) (c : Ic) (f : MemForm) : List (Nat × Target) → Option Unit × State
  | [] => (some (), s)
  | (l, t) :: rest =>
    match s.storeLane c f l t with
    | none => (none, s)
    | some s => s.storeLanes c f rest

/-- ST (R220). -/
def execSt (f : MemForm) (s : State) : Out :=
  run (.st f) s fun c s =>
    withTargets s c f (c.look f .write true false) 2 fun ts s =>
      let (ts, s) := s.laneOrder ts
      match s.storeLanes c f ts with
      | (some _, t) =>
        let t := if ts.any fun x => x.2.isMem then t.servedBy c.w.core s.nextId 1 else t
        .next (t.noteBytes c f true ts)
      -- a device sees its store once, when the whole instruction is performed (R412)
      | (none, t) => .stall { t with ioLog := s.ioLog }

/-! ### Strong accesses (R223 to R228) -/

/-- What a strong instruction does: its label, operation, whether it reads, writes and returns a value, and its release
and acquire (R218, R224, R226). -/
structure StrongKind where
  label : Nat
  op : Nat → StrongOp
  need : Need
  /-- Any atomic but `ldf`, and any paired access but `lda` (R43). -/
  writes : Bool
  returns : Bool
  release : Bool := false
  acquire : Bool := false

/-- Drop a line from a core's L1 before a strong access to it at its home (R380): its dirty bytes are written back, and
fills of it that are under way serve only the loads that already wait. -/
def State.l1Yield (s : State) (core ctx line : Nat) : State :=
  let s := (s.writeBack core ctx line).l1Drop core ctx line
  { s with msgs := s.msgs.map fun (m : Msg) =>
      match m.kind with
      | .fillReq f => if f.is core ctx line then { m with kind := .fillReq { f with epoch := 0 } } else m
      | .fillReply f => if f.is core ctx line then { m with kind := .fillReply { f with epoch := 0 } } else m
      | _ => m }

/-- One lane of a strong access, to be performed at its home or at the well switch. `seq` names the instruction. -/
def State.strongOf (s : State) (c : Ic) (f : MemForm) (k : StrongKind) (seq : Nat) (owed : Option Nat) (l : Nat) (t : Target) :
    Strong :=
  let a := memAddr c f l
  let size := widthBytes f.width
  let x : Xlat :=
    match t with
    | .mem x _ => x
    | .well off => { pa := ((c.b.wellAt off).getD 0) * 4 + off % 4 }
  let va :=
    match t with
    | .mem _ va => va
    | .well _ => 0
  { uid := c.w.uid, wid := c.w.wid, lane := l, group := c.group f l, seq := seq, cls := k.label, scope := f.scope, op := k.op l, size := size,
    addr := x.pa, loc := x.loc, checked := x.chk, value := BitVec.ofNat 64 (memReg c f f.data l), owed := owed,
    slots := if k.returns then memSlots f l else [],
    fences := if k.writes then ((s.warp? c.w.uid c.w.wid).map Warp.fences).getD [] else [],
    releases := k.release, acquires := k.acquire, acc := s.accessOf c k.label k.writes l x a size, va := va, mig := x.mig }

/-- Send one lane of a strong access on its way (R227, R380). -/
def State.sendStrong (s : State) (c : Ic) (f : MemForm) (k : StrongKind) (seq : Nat) (owed : Option Nat) (x : Nat × Target) :
    State :=
  match x.2 with
  | .well _ => s.send (.well (s.strongOf c f k seq owed x.1 x.2))
  | .mem y va =>
    let s := s.l1Yield c.w.core c.b.ctx (lineOf y.pa)
    let s := s.forward c.w.core c.b.ctx va y.loc y.pa y.tpin
    s.send (.strong (s.strongOf c f k seq owed x.1 x.2))

/-- Does a lane's `cas` claim a binding entry (R437)? -/
def State.claims (s : State) (i : Instr) (c : Ic) (f : MemForm) (l : Nat) : Bool :=
  match i with
  | .cas _ =>
    let x := s.ctx c.b.ctx
    let a := (memAddr c f l).toNat
    !x.priv && f.width == .b32 && 4 ≤ Scope.num f.scope && x.bindbase.toNat ≤ a
      && a < x.bindbase.toNat + 16 * x.bindcount && (a - x.bindbase.toNat) % 16 == 0
  | _ => false

/-- Send the lanes of a strong access on their way, and owe what they return. A thread whose `cas` may park it (R437) waits for the
outcome. A warp whose access releases or acquires issues nothing until its lanes have been performed (R296, R304). -/
def State.strongAll (s : State) (i : Instr) (c : Ic) (f : MemForm) (k : StrongKind) (ts : List (Nat × Target)) : State :=
  let id := s.nextId
  let s := { s with nextId := id + 1 }
  let s := ts.foldl (fun (s : State) t => s.sendStrong c f k id (if k.returns then some id else none) t) s
  let s :=
    if k.returns then
      s.oweAs { id := id, uid := c.w.uid, wid := c.w.wid, strong := true, lanes := ts.map Prod.fst }
    else s
  let held := if f.c.u then (if s.claims i c f c.lane0 then c.active else 0)
    else maskOf ((lanesOf c.active).filter fun l => s.claims i c f l)
  let s := s.modWarp c.w.uid c.w.wid fun w => w.modThreads held fun _ t => { t with st := .parked .binding }
  if k.acquire || k.release then
    s.modWarp c.w.uid c.w.wid fun w =>
      { w with acq := some { scope := f.scope, lanes := ts.map Prod.fst, stamp := 0, ended := false, rel := k.release, acquires := k.acquire } }
  else s

/-- A relaxed atomic (R226, R227). -/
def relaxed (i : Instr) (f : MemForm) (s : State) (k : Ic → StrongKind) : Out :=
  run i s fun c s =>
    withTargets s c f (c.look f (k c).need (k c).writes true) 3 fun ts s =>
      let (ts, s) := s.laneOrder ts
      .next (s.strongAll i c f (k c) ts)

/-- ATC (R226). -/
def execAtc (f : MemForm) (s : State) : Out :=
  relaxed (.atc f) f s fun _ =>
    { label := 2, op := fun _ => .rmw f.aop.toNat (f.cmp.getLsbD 0), need := .both, writes := true, returns := true }
/-- REDC (R226). -/
def execRedc (f : MemForm) (s : State) : Out :=
  relaxed (.redc f) f s fun _ =>
    { label := 2, op := fun _ => .rmw f.aop.toNat (f.cmp.getLsbD 0), need := .write, writes := true, returns := false }
/-- ATA (R226). -/
def execAta (f : MemForm) (s : State) : Out :=
  relaxed (.ata f) f s fun _ =>
    { label := 3, op := fun _ => .accum f.aop.toNat, need := .both, writes := true, returns := true }
/-- REDA (R226). -/
def execReda (f : MemForm) (s : State) : Out :=
  relaxed (.reda f) f s fun _ =>
    { label := 3, op := fun _ => .accum f.aop.toNat, need := .write, writes := true, returns := false }
/-- LDF (R226). -/
def execLdf (f : MemForm) (s : State) : Out :=
  relaxed (.ldf f) f s fun _ => { label := 4, op := fun _ => .load false, need := .read, writes := false, returns := true }
/-- STF (R226). -/
def execStf (f : MemForm) (s : State) : Out :=
  relaxed (.stf f) f s fun _ => { label := 4, op := fun _ => .store, need := .write, writes := true, returns := false }
/-- ATX (R226). -/
def execAtx (f : MemForm) (s : State) : Out :=
  relaxed (.atx f) f s fun _ => { label := 5, op := fun _ => .swap, need := .both, writes := true, returns := true }
/-- CAS (R226, R437). -/
def execCas (f : MemForm) (s : State) : Out :=
  relaxed (.cas f) f s fun c =>
    { label := 5, op := fun l => .cas (BitVec.ofNat 64 (memReg c f f.cmp l)), need := .both, writes := true, returns := true }

/-- Value of a bf16x2 element sum, and of the other accumulate forms (R97 to R100, R226). -/
def accumulate (aop old v : Nat) : Nat :=
  match aop with
  | 0 => addNe fmt32 old v
  | 1 => addNe fmtB16 (old % 65536) (v % 65536) + 65536 * addNe fmtB16 (old / 65536) (v / 65536)
  | _ => addNe fmt64 old v

/-- What a strong write leaves at its location (R303): the release of its own instruction, and the release fences before it. -/
def Strong.rels (s : State) (r : Strong) : List Rel :=
  (if r.releases then s.relOf r.uid r.wid (Scope.num r.scope) else [])
    ++ r.fences.map fun x => { party := (s.warp? r.uid r.wid).bind Warp.party, scope := x.1, stamp := x.2, fence := true }

/-- The new value of a location after a strong operation (R224, R226). -/
def strongNew (op : StrongOp) (size old v : Nat) : Nat :=
  let m := 2 ^ (8 * size)
  let sg (x : Nat) : Int := if m / 2 ≤ x then (x : Int) - m else x
  match op with
  | .load _ => old
  | .store => v
  | .swap => v
  | .cas x => if old = x.toNat % m then v else old
  | .accum aop => accumulate aop old v
  | .rmw aop signed =>
    match aop with
    | 0 => (old + v) % m
    | 1 => if v ≤ old then 0 else old + 1
    | 2 => if old = 0 ∨ v < old then v else old - 1
    | 3 => if (if signed then sg old ≤ sg v else old ≤ v) then old else v
    | 4 => if (if signed then sg v ≤ sg old else v ≤ old) then old else v
    | 5 => Nat.land old v
    | 6 => Nat.lor old v
    | _ => Nat.xor old v

/-- Does the operation write its location? -/
def strongWrites (op : StrongOp) (size old : Nat) : Bool :=
  match op with
  | .load _ => false
  | .cas x => old == x.toNat % 2 ^ (8 * size)
  | _ => true

/-! ### Paired accesses in the L1 (R302, R380) -/

/-- Send the checks of a paired access at warp or block scope, and fetch what it reads (R302). -/
def State.pairedAsk (s : State) (c : Ic) (f : MemForm) (k : StrongKind) (first : Bool) (x : Nat × Target) : Option State :=
  match x.2 with
  | .well _ => some s
  | .mem y va =>
    let line := lineOf y.pa
    (s.l1Room c.w.core c.b.ctx line).map fun s =>
      let s := s.linePage c y (BitVec.ofNat 64 va) k.writes
      let s :=
        match s.warp? c.w.uid c.w.wid with
        | some w => if first && y.chk then s.sendCheck w (s.accessOf c k.label k.writes x.1 y (memAddr c f x.1) (widthBytes f.width)) else s
        | none => s
      let epoch := ((s.warp? c.w.uid c.w.wid).map Warp.acqEpoch).getD 0
      let have' := (s.l1? c.w.core c.b.ctx line).any fun z => allThere (z.bytesFor epoch (y.pa % 64) (widthBytes f.width))
      if !(k.need != .write) || have' || (s.fillFor c.w.core c.b.ctx line (y.pa % 64 / 32) epoch).isSome then s
      else s.askFill c.w.core c.b.ctx line (y.pa % 64 / 32) [] y.loc va y.tpin

/-- Are the bytes of a lane in the L1, when the access reads them? -/
def State.pairedHas (s : State) (c : Ic) (f : MemForm) (k : StrongKind) (x : Nat × Target) : Bool :=
  match x.2 with
  | .well _ => true
  | .mem y _ =>
    let epoch := ((s.warp? c.w.uid c.w.wid).map Warp.acqEpoch).getD 0
    (s.l1? c.w.core c.b.ctx (lineOf y.pa)).any fun z =>
      k.need == .write || allThere (z.bytesFor epoch (y.pa % 64) (widthBytes f.width))

/-- Perform one lane of a paired access in the L1: the result's writes, the release stamp it meets, and the state. -/
def State.pairedLane (s : State) (c : Ic) (f : MemForm) (k : StrongKind) (l : Nat) (y : Xlat) :
    List (RegSlot × Word) × Nat × State :=
  let size := widthBytes f.width
  let line := lineOf y.pa
  let z := (s.l1? c.w.core c.b.ctx line).getD { ctx := c.b.ctx, line := line }
  let old := natOfBytes ((List.range size).map fun i => lineByte z.data (y.pa % 64 + i))
  let ws := if k.returns then
      (memSlots f l).zip ((List.range (widthRegs f.width)).map fun i => BitVec.ofNat 32 (old / 2 ^ (32 * i))) else []
  let carried := s.relsIn (some c.w.core) y.pa
  let met := relMet carried ((s.warp? c.w.uid c.w.wid).bind Warp.party) (Scope.num f.scope)
  if !strongWrites (k.op l) size old then (ws, met, s)
  else
    let new := strongNew (k.op l) size old (memReg c f f.data l)
    let s := s.l1Mod c.w.core c.b.ctx line fun z => z.store (y.pa % 64) (bytesOfNat size new)
    let s := s.relsDrop (some c.w.core) line (byteMask (y.pa % 64) size)
    let s := s.modWarp c.w.uid c.w.wid fun w => w.noteDirty line
    let rels := (s.strongOf c f k 0 none l (.mem y 0)).rels s
    (ws, met, s.relSetIn (some c.w.core) y.pa (if k.op l == .store then rels else rels ++ carried))

/-- Perform a paired access at warp or block scope (R302): memory lanes in the L1, well lanes at the switch. -/
def State.pairedAll (s : State) (c : Ic) (f : MemForm) (k : StrongKind) (ts : List (Nat × Target)) : State :=
  let id := s.nextId
  let s := { s with nextId := id + 1 }
  let (ws, stamp, s) := ts.foldl (fun (x : List (RegSlot × Word) × Nat × State) t =>
    match t.2 with
    | .well _ => (x.1, x.2.1, x.2.2.sendStrong c f k id (if k.returns then some id else none) t)
    | .mem y _ =>
      let (w, m, s) := x.2.2.pairedLane c f k t.1 y
      (x.1 ++ w, max x.2.1 m, s)) ([], 0, s)
  let away := (ts.filter fun t =>
    match t.2 with
    | .well _ => true
    | .mem _ _ => false).map Prod.fst
  let s := if k.returns then
      s.oweAs { id := id, uid := c.w.uid, wid := c.w.wid, strong := true, writes := ws, lanes := away } else s
  if !k.acquire then s
  else
    let a : AcqWait := { scope := f.scope, lanes := away, stamp := stamp, ended := k.release, done := away.length < ts.length }
    if away.isEmpty then s.finishAcq c.w.uid c.w.wid a
    else s.modWarp c.w.uid c.w.wid fun w => { w with acq := some a }

/-- The first lane whose bytes in the L1 are poisoned (R213 order 7). -/
def State.pairedBad (s : State) (c : Ic) (f : MemForm) (k : StrongKind) (ts : List (Nat × Target)) : Option Nat :=
  (ts.filter fun t =>
    match t.2 with
    | .well _ => false
    | .mem y _ => k.need != .write
        && (s.l1? c.w.core c.b.ctx (lineOf y.pa)).any fun z => z.poisonedAt y.pa (widthBytes f.width)).map Prod.fst
    |> bestBy (fun a b => a < b)

/-- Every lane asks for its check and its fill; none when a set has no way to give. -/
def State.pairedAskAll (s : State) (c : Ic) (f : MemForm) (k : StrongKind) (first : Bool) (ts : List (Nat × Target)) : State :=
  ts.foldl (fun (s : State) t => (s.pairedAsk c f k first t).getD s) s

/-- Place of a deferred fault in the order of R213. -/
def deferredOrder (r : FaultRec) : Nat :=
  if r.code = FaultCode.poison.code ∨ r.code = FaultCode.eccUncorrectable.code then 7
  else if 0x20 ≤ r.code.toNat ∧ r.code.toNat ≤ 0x25 then 8
  else 6

/-- A paired access at warp or block scope: it waits for its checks and its bytes, then releases, is performed, and
acquires (R302). -/
def State.pairedNear (s : State) (c : Ic) (f : MemForm) (k : StrongKind) (ts : List (Nat × Target)) : Res :=
  match s.warp? c.w.uid c.w.wid with
  | none => .stall s
  | some w =>
    if !w.flushed && ts.any fun t => !(s.pairedAsk c f k false t).isSome then .stall s
    else
      let s := (s.pairedAskAll c f k (!w.flushed) ts).modWarp w.uid w.wid fun w => { w with flushed := true }
      match s.warp? w.uid w.wid with
      | none => .stall s
      | some w =>
        -- a deferred conflict of its own comes after another lane's POISON (R213 orders 7 and 8)
        let own := w.deferred.all fun x => x.2.pc == c.pc && 7 < deferredOrder x.2
        if !w.checks.isEmpty || !own then .stall (s.modWarp w.uid w.wid fun w => { w with atBoundary := !own })
        else if !ts.all fun t => s.pairedHas c f k t then .stall s
        else
          match s.pairedBad c f k ts with
          | some l => .fault (c.record .poison l (memAddr c f l) 3)
          | none =>
            if !w.deferred.isEmpty then .stall (s.modWarp w.uid w.wid fun w => { w with atBoundary := true })
            else
            let s := if k.release then s.releaseNow w.uid w.wid f.scope else s
            let (ts, s) := s.laneOrder ts
            .next (s.pairedAll c f k ts)

/-- A paired access (R224). At cluster scope or wider its lanes go to their homes once the warp's writes are in; its release is
performed with the first of them and its acquire after the last (R302, R308). -/
def paired (i : Instr) (f : MemForm) (s : State) (k : Ic → StrongKind) : Out :=
  run i s fun c s =>
    withTargets s c f (c.look f (k c).need (k c).writes true) 3 fun ts s =>
      let go (s : State) : Res :=
        if Scope.wide f.scope then
          let (ts, s) := s.laneOrder ts
          .next { s.strongAll i c f (k c) ts with scOrder := s.scOrder + 1 }
        else s.pairedNear c f (k c) ts
      if (k c).release then withWritten s c f.scope go else withRing s c fun _ => go s

/-- LDA (R224). -/
def execLda (f : MemForm) (s : State) : Out :=
  paired (.lda f) f s fun _ =>
    { label := 1, op := fun _ => .load false, need := .read, writes := false, returns := true, acquire := true }
/-- STL (R224). -/
def execStl (f : MemForm) (s : State) : Out :=
  paired (.stl f) f s fun _ =>
    { label := 1, op := fun _ => .store, need := .write, writes := true, returns := false, release := true }
/-- XAR (R224). -/
def execXar (f : MemForm) (s : State) : Out :=
  paired (.xar f) f s fun _ =>
    { label := 1, op := fun _ => .swap, need := .both, writes := true, returns := true, release := true, acquire := true }
/-- CAR (R224). -/
def execCar (f : MemForm) (s : State) : Out :=
  paired (.car f) f s fun c =>
    { label := 1, op := fun l => .cas (BitVec.ofNat 64 (memReg c f f.cmp l)), need := .both, writes := true, returns := true,
      release := true, acquire := true }

/-! ### Fences (R229) -/

/-- A release fence that has been performed: the warp's later strong writes carry it (R303 case 2). -/
def State.noteFence (s : State) (c : Ic) (scope : Scope) : State :=
  s.modWarp c.w.uid c.w.wid fun w =>
    { w with fences := (Scope.num scope, w.relStamp) :: w.fences.filter fun x => x.1 != Scope.num scope }

/-- The largest stamp among the releases that the warp's strong reads have met and that an acquire fence at a scope synchronises
with (R301, R303 case 2). -/
def State.seenBy (s : State) (c : Ic) (scope : Scope) : Nat :=
  ((s.warp? c.w.uid c.w.wid).map fun w => relMet w.seen w.party (Scope.num scope)).getD 0

/-- FENCE (R229): an acquire meets what the warp's relaxed reads have met (R303 case 2). -/
def execFence (f : MemForm) (s : State) : Out :=
  run (.fence f) s fun c s =>
    match f.aop.toNat with
    | 0 => withRing s c fun _ => .next (s.acquireEnd c.w.uid c.w.wid f.scope (s.seenBy c f.scope))
    | 1 => withRelease s c f.scope fun s => .next (s.noteFence c f.scope)
    | 2 => withRelease s c f.scope fun s =>
      .next ((s.noteFence c f.scope).acquire c.w.uid c.w.wid f.scope (s.seenBy c f.scope))
    | _ =>
      withRelease s c f.scope fun s =>
        .next { (s.noteFence c f.scope).acquire c.w.uid c.w.wid f.scope (s.seenBy c f.scope) with scOrder := s.scOrder + 1 }

end Sys2Proof.Machine
end

