-- ==== Sys2Proof/Machine/Blotter.lean ====
section
/-! DEFINITION. The blotter: mark records and overflow entries, the race rule and what an access to a checked line does to
them (R312 to R320, R326, R327, R333, R386 to R394). -/

namespace Sys2Proof.Machine

/-! ### Parties and their intervals (R294, R309, R311) -/

/-- An interval that a mark may belong to: its party, its close times as far as they are known, and its opening PC. -/
structure Iv where
  uid : Nat
  wid : Nat
  eng : Bool
  num : Word
  near : Option Nat
  far : Option Nat
  opc : Pc
  deriving DecidableEq, Repr

def Interval.iv (i : Interval) (uid wid : Nat) : Iv :=
  { uid := uid, wid := wid, eng := false, num := i.num, near := some i.closeNear, far := i.closeFar, opc := i.opc }

/-- The intervals of a warp that the live-warp table knows: the open one and its ring, with phases. -/
def Warp.ivs (w : Warp) : List (Nat × Iv) :=
  (w.openPhase, { uid := w.uid, wid := w.wid, eng := false, num := w.iseq, near := none, far := none, opc := w.opc.getD 0 })
    :: w.ring.map fun i => (i.phase, i.iv w.uid w.wid)

/-- Intervals that a former ring of a slot names (R392), with phases: those it holds, and the one that was open when the warp left
the slot, as long as it is open still. -/
def State.formerIvs (s : State) (f : FormerRing) : List (Nat × Iv) :=
  (if s.lastOpen f then ((s.warp? f.uid f.wid).map fun w => w.ivs.take 1).getD [] else [])
    ++ f.ring.map fun i => (i.phase, i.iv f.uid f.wid)

/-- Intervals of a context's warps in a slot, its former occupants' among them (R392), with phases. -/
def State.slotIvs (s : State) (ctx slot : Nat) : List (Nat × Iv) :=
  ((s.warps.filter fun w => !w.released && w.lslot == slot && s.warpCtx w == ctx).flatMap Warp.ivs)
    ++ (s.formers.filter fun f => f.slot == slot && f.ctx == ctx).flatMap s.formerIvs

/-- Do two entries stand for one interval? -/
def Iv.same (i j : Iv) : Bool := i.uid == j.uid && i.wid == j.wid && i.eng == j.eng && i.num == j.num

/-- Each interval once: a warp's own ring and a former ring may both hold it. -/
def distinctIvs (is : List Iv) : List Iv := is.foldl (fun js i => if js.any i.same then js else js ++ [i]) []

/-- A warp's interval by its full number: none once no ring holds it, when it has expired. -/
def State.warpIv (s : State) (uid wid : Nat) (num : Word) : Option Iv :=
  let own := ((s.warp? uid wid).map fun w => if w.released then [] else w.ivs).getD []
  let old := (s.formers.filter fun f => f.uid == uid && f.wid == wid).flatMap fun f => f.ring.map fun i => (i.phase, i.iv uid wid)
  ((own ++ old).find? fun x => x.2.num == num).map Prod.snd

/-- An engine party (R328): open until its token is consumed. -/
def State.engIv (s : State) (uid wid : Nat) (num : Word) : Option Iv :=
  (s.engines.find? fun e => e.uid == uid && e.wid == wid && e.eseq == num).map fun e =>
    { uid := uid, wid := wid, eng := true, num := num, near := e.close, far := e.close, opc := e.pc }

/-- Does the floor lie above a time, and the acquire time of every command of the context that still has accesses to make? A command
keeps the acquire times of its issue (R310), so a mark that it is not ordered after stays for it (R336; log entry 98). -/
def State.past (s : State) (ctx t : Nat) : Bool :=
  t < (s.ctx ctx).floor && s.engines.all fun e => e.ctx != ctx || e.st == .done || t < e.acqWide

/-- Has an interval expired (R323)? -/
def State.ivExpired (s : State) (ctx : Nat) (i : Iv) : Bool :=
  match i.far with
  | some t => s.past ctx t
  | none => false

/-- The interval of a party on another device (R334): its close time is not known here but for its bound, the party's last mark on
the line (log entry 35). -/
def OvParty.foreignIv (x : OvParty) : Iv :=
  { uid := x.uid, wid := x.wid, eng := x.eng, num := x.num, near := none,
    far := some (max x.seen (Config.foreignClose (x.dev.getD 0) x.uid x.num.toNat x.eng)), opc := 0 }

/-- The intervals that a mark may belong to and that have not expired (R391). A mark of a party on another device is never expired
early (R334). -/
def State.candidates (s : State) (ctx : Nat) (x : OvParty) : List Iv :=
  if x.dev.isSome then [x.foreignIv]
  else
    let all : List Iv :=
      if x.eng then (s.engIv x.uid x.wid x.num).toList
      else if x.unsure then
        distinctIvs (((s.slotIvs ctx x.slot).filter fun i =>
          i.1 == (s.ctx ctx).phase && i.2.num.toNat % 32 == x.num.toNat % 32).map Prod.snd)
      else (s.warpIv x.uid x.wid x.num).toList
    all.filter fun i => !s.ivExpired ctx i

/-- Is the interval one of the accessing party (R294)? -/
def Party.sameParty (y : Party) (dev : Option Nat) (i : Iv) : Bool :=
  dev == y.dev && i.uid == y.uid && i.wid == y.wid
    && (if i.eng then y.eng.isSome && i.num == y.num else y.eng.isNone)

/-- Is an interval of a party of this device, or of another one, ordered before an access of the party (R312)? -/
def Party.after (y : Party) (dev : Option Nat) (i : Iv) : Bool :=
  if i.uid = y.uid ∧ !i.eng ∧ y.eng.isNone ∧ y.dev.isNone ∧ dev.isNone then
    match i.near with
    | some t => t < y.acqNear
    | none => false
  else
    match i.far with
    | some t => t < y.acqWide
    | none => false

/-- Is everything a mark may belong to ordered before the party's access, or its own? -/
def State.markOrdered (s : State) (ctx : Nat) (y : Party) (x : OvParty) : Bool :=
  (s.candidates ctx x).all fun i => y.sameParty x.dev i || y.after x.dev i

/-! ### Records (R386, R387) -/

/-- What the blotter knows of a line: parties, atomic words by class, and a broad line's read words. -/
structure LineMarks where
  parties : List OvParty := []
  atomics : List OvAtomic := []
  broad : Bool := false
  rmask : BitVec 16 := 0
  /-- The broad state is known to be of the current phase (R387). -/
  sure : Bool := true
  deriving DecidableEq, Repr

/-- The line that a record is kept for: the page's first line for a far or host page (R394). -/
def markLine (loc pa : Nat) : Nat := if loc = locFar ∨ loc = locHost then pa / 65536 * 65536 else lineOf pa

/-- The words that an access marks (R312, R333). -/
def markWords (a : Access) : BitVec 16 := if a.loc = locFar ∨ a.loc = locHost then 1 else a.words

/-- A line's record as its home finds it, in the L2 or else in the side band, and whether its writer's and its reader's compact mark may be
certain (R387, R391, R394). A record that another context's check left is dead for this one. -/
def State.loadMark (s : State) (ctx loc pa : Nat) : Mark × Bool × Bool :=
  let line := markLine loc pa
  let ph := (s.ctx ctx).phase
  if loc = locFar ∨ loc = locHost then
    match s.farMarks.find? fun f => f.page == line / 65536 && f.ctx == ctx && f.phase == ph with
    | some f => (f.mark, true, true)
    | none => ({}, true, true)
  else
    match s.l2.find? fun x => x.line == line with
    | some x =>
      if x.mark.phase.toNat ≠ ph % 8 ∨ ((x.held ∨ x.rheld) ∧ x.phase ≠ ph) ∨ x.ctx.any (· ≠ ctx) then ({}, true, true)
      else (x.mark, x.held, x.rheld)
    | none =>
      let b := s.band line
      if !b.mvalid ∨ b.mark.phase.toNat ≠ ph % 8 then ({}, true, true) else (b.mark, false, false)

/-- The bits of an atomic time in a record (R387), and the time they stand for: the latest one that an access up to now
can have left. -/
def timeBits (t : Nat) : Nat := t / 1024 % 2 ^ 46
def State.timeOf (s : State) (ctx bits : Nat) : Nat :=
  let last := max (roundUp s.time 1024) ((s.ctx ctx).phaseStart / 1024 * 1024 + 1024)
  let t := last / 2 ^ 56 * 2 ^ 56 + bits * 1024
  if last < t then t - 2 ^ 56 else t

/-- A compact mark's party (R387, R390, R391). -/
def State.compactParty (s : State) (ctx : Nat) (sure writer : Bool) (f : BitVec 22) (mask : BitVec 16) : OvParty :=
  let slot := f.toNat / 32
  let k := f.toNat % 32
  match s.owners.find? fun o => o.slot == slot && o.k == k with
  | some o =>
    if sure && o.ctx == ctx && !(cget s.uncertain slot).getLsbD k then
      { writer := writer, eng := false, dev := none, slot := slot, num := o.num, mask := mask, uid := o.uid, wid := o.wid }
    else { writer := writer, eng := false, dev := none, slot := slot, num := BitVec.ofNat 32 k, mask := mask, uid := 0, wid := 0, unsure := true }
  | none => { writer := writer, eng := false, dev := none, slot := slot, num := BitVec.ofNat 32 k, mask := mask, uid := 0, wid := 0, unsure := true }

/-- The overflow entry that a record names, when it is in use and names the line (R387). -/
def State.entryOf (s : State) (ctx loc pa : Nat) (m : Mark) : Option OvEntry :=
  let line := markLine loc pa
  if m.wstate ≠ 2 then none
  else s.overflow.find? fun e =>
    e.slice == s.homeSlice line && e.index == (m.wfield.toNat % 4096) && e.line == line && e.ctx == ctx

/-- Has a party's mark expired, or does no interval stand for it (R323, R391)? -/
def State.markGone (s : State) (ctx : Nat) (x : OvParty) : Bool := (s.candidates ctx x).isEmpty

/-- Is every mark of an entry dead or expired (R388)? No order excuses data from paired words (R314), so theirs does not expire. -/
def State.entryDead (s : State) (e : OvEntry) : Bool :=
  e.parties.all (s.markGone e.ctx) && e.atomics.all fun x => x.aclass != 1 && s.past e.ctx x.atime

/-- STEPS 1 and 2 of a check (R393): what the home reads of a line. An atomic-state record whose time lies below the floor is
cleared. -/
def State.lineMarks (s : State) (ctx loc pa : Nat) : LineMarks × Option OvEntry :=
  let (m, wsure, rsure) := s.loadMark ctx loc pa
  let entry := s.entryOf ctx loc pa m
  let marks : LineMarks :=
    match entry with
    | some e =>
      { parties := e.parties, atomics := if s.entryDead e then [] else e.atomics, broad := m.rstate == 3,
        rmask := if m.rstate = 3 then m.rmask else 0, sure := e.sure || m.rstate != 3 }
    | none =>
      if m.wstate = 2 then {}
      else if m.wstate = 3 then
        let t := s.timeOf ctx (m.wfield.toNat + 2 ^ 22 * m.rstate.toNat + 2 ^ 24 * m.rfield.toNat)
        if t ≤ (s.ctx ctx).phaseStart ∨ t < (s.ctx ctx).floor then {} else { atomics := [⟨m.aclass.toNat, m.wmask, t⟩] }
      else
        { parties := (if m.wstate = 1 then [s.compactParty ctx wsure true m.wfield m.wmask] else [])
            ++ (if m.rstate = 1 then [s.compactParty ctx rsure false m.rfield m.rmask] else []),
          broad := m.rstate == 3, rmask := if m.rstate = 3 then m.rmask else 0, sure := rsure || m.rstate != 3 }
  (marks, entry)

/-- STEPS 1 to 3 of a check (R393): expired marks are dropped. -/
def State.readMarks (s : State) (ctx loc pa : Nat) : LineMarks × Option OvEntry :=
  let (m, entry) := s.lineMarks ctx loc pa
  ({ m with parties := m.parties.filter fun x => !s.markGone ctx x }, entry)

/-- Does a line hold a mark that is neither dead nor expired? -/
def LineMarks.live (m : LineMarks) : Bool := !m.parties.isEmpty || !m.atomics.isEmpty || m.broad

/-! ### The race rule (R312 to R316, R320, R326) -/

/-- A conflict: the fault and the other side of its record (R318, R424). -/
structure Conflict where
  code : FaultCode
  okind : Nat
  oclass : Nat := 0
  odev : Nat := 0
  oslot : Nat := 0
  onum : Word := 0
  opc : Pc := 0
  deriving DecidableEq, Repr

/-- A conflict with a party's mark, which is MARK.CAPACITY when the mark cannot be attributed (R320). -/
def State.partyConflict (s : State) (ctx : Nat) (code : FaultCode) (x : OvParty) : Conflict :=
  if x.unsure then { code := .markCapacity, okind := 4 }
  else
    { code := code, okind := if x.eng then 2 else 1, odev := x.dev.getD 0, oslot := x.slot, onum := x.num,
      opc := if x.eng then 0 else ((s.candidates ctx x).head?.map Iv.opc).getD 0 }

def atomicConflict (code : FaultCode) (x : OvAtomic) : Conflict :=
  { code := code, okind := 3, oclass := x.aclass, opc := BitVec.ofNat 55 x.atime }

/-- Conflicts of an access with a party's marks (R313, R314). -/
def State.partyRace (s : State) (a : Access) (x : OvParty) : List Conflict :=
  let ctx := a.party.ctx
  if x.mask &&& markWords a = 0 then []
  else if a.label = 1 then [s.partyConflict ctx .raceSyncdata x]
  else if !(x.writer || a.write) || s.markOrdered ctx a.party x then []
  else if a.label ≠ 0 then [s.partyConflict ctx .raceClassmix x]
  else [s.partyConflict ctx (if !x.writer then .raceRW else if a.write then .raceWW else .raceWR) x]

/-- Conflicts of an access with a class of atomic words (R313 to R316). A word that only `ldf` has touched counts as any other atomic word:
the record does not tell a read from a write (R315; DESIGN CHOICE, log entry 101). -/
def atomicRace (a : Access) (x : OvAtomic) : List Conflict :=
  if x.amask &&& markWords a = 0 || a.label = x.aclass then []
  else if a.label = 0 && x.aclass = 1 then [atomicConflict .raceSyncdata x]
  else if x.atime < a.party.acqWide then []
  else [atomicConflict .raceClassmix x]

/-- Conflicts of an access with a broad line (R326). -/
def broadRace (a : Access) (m : LineMarks) : List Conflict :=
  if !m.broad then []
  else if a.label = 0 && a.write then [{ code := .markCapacity, okind := 4 }]
  else if m.rmask &&& markWords a = 0 then []
  else if a.label = 1 then [{ code := if m.sure then .raceSyncdata else .markCapacity, okind := 4 }]
  else if a.label ≠ 0 && a.write then [{ code := .markCapacity, okind := 4 }]
  else []

/-- STEP 4: every conflict of an access (R312 to R316). What a broad line gives comes first, whatever the rest (R326). -/
def State.races (s : State) (a : Access) (m : LineMarks) : List Conflict :=
  match broadRace a m with
  | [] => m.parties.flatMap (s.partyRace a) ++ m.atomics.flatMap (atomicRace a)
  | cs => cs

/-! ### Leaving a mark (R315, R326, R327, R388 to R390) -/

/-- Atomic time of an access now (R315). -/
def State.atomicTime (s : State) (ctx : Nat) : Nat :=
  max (roundUp s.time 1024) (((s.ctx ctx).phaseStart / 1024 + 1) * 1024)

/-- Do two marks stand for one party? -/
def OvParty.same (x y : OvParty) : Bool :=
  x.eng == y.eng && x.dev == y.dev && x.uid == y.uid && x.wid == y.wid && x.slot == y.slot && !x.unsure && !y.unsure

/-- The access's own mark. -/
def Access.mark (a : Access) : OvParty :=
  { writer := a.write, eng := a.party.eng.isSome, dev := a.party.dev, slot := a.party.slot, num := a.party.num,
    mask := markWords a, uid := a.party.uid, wid := a.party.wid, seen := a.party.seen }

/-- Do two marks belong to one place of an entry (R388)? -/
def OvParty.place (x y : OvParty) : Bool := y.writer == x.writer && y.same x && y.num == x.num

/-- Join a mark's words to another's. -/
def OvParty.join (x y : OvParty) : OvParty := { y with mask := y.mask ||| x.mask, seen := max y.seen x.seen }

/-- Add a data mark to a line (R326, R327, R388): none when a fifth writer finds no place. -/
def LineMarks.addParty (m : LineMarks) (x : OvParty) : Option LineMarks :=
  if !x.writer && m.broad then some { m with rmask := m.rmask ||| x.mask }
  else if m.parties.any x.place then some { m with parties := replaceIf x.place x.join m.parties }
  else
    let n := (m.parties.filter fun y => y.writer == x.writer).length
    if x.writer then (if n < 4 then some { m with parties := m.parties ++ [x] } else none)
    else if n < (if 2 ≤ m.atomics.length then 3 else 4) then some { m with parties := m.parties ++ [x] }
    else
      some { m with
        broad := true, parties := m.parties.filter OvParty.writer,
        rmask := (m.parties.filter fun y => !y.writer).foldl (fun r y => r ||| y.mask) x.mask }

/-- Add an atomic mark (R315). A chained entry leaves room for three readers, and a fourth makes the line broad
(R388). -/
def LineMarks.addAtomic (m : LineMarks) (cls : Nat) (words : BitVec 16) (t : Nat) : LineMarks :=
  let m := if m.atomics.any fun x => x.aclass == cls then
      { m with atomics := replaceIf (fun x => x.aclass == cls) (fun x => { x with amask := x.amask ||| words, atime := max x.atime t }) m.atomics }
    else { m with atomics := m.atomics ++ [⟨cls, words, t⟩] }
  let rs := m.parties.filter fun y => !y.writer
  if 2 ≤ m.atomics.length && 3 < rs.length then
    { m with broad := true, parties := m.parties.filter OvParty.writer, rmask := rs.foldl (fun r y => r ||| y.mask) m.rmask }
  else m

/-- May a mark stand in compact form, but for the owner of its low bits (R387, R389)? -/
def OvParty.small (x : OvParty) : Bool := !x.eng && x.dev.isNone

/-- Is the mark's interval the owner of its low bits, or may it become so (R390)? -/
def State.owns (s : State) (ctx : Nat) (x : OvParty) : Bool :=
  x.unsure ||
    match s.owners.find? fun o => o.slot == x.slot && o.k == x.num.toNat % 32 with
    | some o => o.num == x.num && o.uid == x.uid && o.wid == x.wid && o.ctx == ctx
    | none => true

/-- Needs the line an overflow entry, the owners apart (R327, R389)? -/
def LineMarks.needs (m : LineMarks) : Bool :=
  let ws := m.parties.filter OvParty.writer
  let rs := m.parties.filter fun y => !y.writer
  1 < ws.length || 1 < rs.length || m.parties.any (fun x => !x.small) || 1 < m.atomics.length
    || (!m.parties.isEmpty && !m.atomics.isEmpty) || (m.broad && (!m.parties.isEmpty || !m.atomics.isEmpty))
    || ws.any fun x => rs.any fun y => x.same y && x.num != y.num

/-- Entries of a slice that a line's marks take: one for each class of atomic words, and one at least (R388). -/
def OvEntry.places (e : OvEntry) : Nat := max 1 e.atomics.length

/-- A record whose overflow entry is free again: a broad line stays broad (R326). -/
def Mark.unlinked (m : Mark) : Mark :=
  if m.rstate = 3 then { m with aclass := 0, wmask := 0, wfield := 0, wstate := 0 } else {}

/-- Does a record name one of these entries for its line? -/
def Mark.namesOf (m : Mark) (line : Nat) (es : List OvEntry) : Bool :=
  m.wstate == 2 && es.any fun e => e.line == line && e.index == m.wfield.toNat % 4096

/-- Free the entries of a slice in which every mark is dead or expired (R388). -/
def State.sweep (s : State) (slice : Nat) : State :=
  let gone := s.overflow.filter fun e => e.slice == slice && s.entryDead e
  if gone.isEmpty then s
  else
    { s with
      overflow := s.overflow.filter fun e => !gone.contains e,
      l2 := replaceIf (fun x => x.mark.namesOf x.line gone) (fun x => { x with mark := x.mark.unlinked }) s.l2,
      bands := replaceIf (fun x => x.mark.namesOf x.line gone) (fun x => { x with mark := x.mark.unlinked }) s.bands,
      farMarks := replaceIf (fun x => x.mark.namesOf (x.page * 65536) gone) (fun x => { x with mark := x.mark.unlinked }) s.farMarks }

/-- A mark as an overflow entry takes it: with certainty, when one interval only can have left it (R391); else nothing tells which of
them has (log entry 99). -/
def State.certain (s : State) (ctx : Nat) (x : OvParty) : OvParty :=
  if !x.unsure then x
  else
    match s.candidates ctx x with
    | [i] => { x with num := i.num, uid := i.uid, wid := i.wid, unsure := false }
    | _ => x

/-- A line's marks as an overflow entry takes them: each interval in one place of its kind (R388). -/
def State.fullMarks (s : State) (ctx : Nat) (xs : List OvParty) : List OvParty :=
  xs.foldl (fun ys x =>
    let x := s.certain ctx x
    if ys.any x.place then replaceIf x.place x.join ys else ys ++ [x]) []

/-- The accessing party's own compact mark, when no other interval can have left it. -/
def State.ownMark (s : State) (ctx : Nat) (y : Party) (x : OvParty) : OvParty :=
  match s.candidates ctx x with
  | [i] => if y.sameParty x.dev i && i.num == y.num then s.certain ctx x else x
  | _ => x

/-- The lowest free index of a slice's overflow entries, when `n` places are free. -/
def State.freeEntry (s : State) (slice n : Nat) : Option Nat :=
  let es := s.overflow.filter fun e => e.slice == slice
  if es.foldl (fun k e => k + e.places) 0 + n ≤ 4096 then
    (List.range 4096).find? fun i => !es.any fun e => e.index == i
  else none

/-- The record of marks in compact or atomic form (R386, R387). -/
def compactMark (phase : Nat) (m : LineMarks) : Mark :=
  let ph := BitVec.ofNat 3 phase
  match m.atomics with
  | x :: _ =>
    let b := timeBits x.atime
    { phase := ph, aclass := BitVec.ofNat 3 x.aclass, wmask := x.amask, wstate := 3, wfield := BitVec.ofNat 22 b,
      rstate := BitVec.ofNat 2 (b / 2 ^ 22), rfield := BitVec.ofNat 22 (b / 2 ^ 24) }
  | [] =>
    let f (x : OvParty) : BitVec 22 := BitVec.ofNat 22 (x.slot * 32 + x.num.toNat % 32)
    let w := m.parties.find? OvParty.writer
    let r := m.parties.find? fun x => !x.writer
    let k0 : Mark := { phase := if m.parties.isEmpty && !m.broad then 0 else ph }
    let k1 : Mark := match w with
      | some x => { k0 with wstate := 1, wfield := f x, wmask := x.mask }
      | none => k0
    match r with
    | some x => { k1 with rstate := 1, rfield := f x, rmask := x.mask }
    | none => if m.broad then { k1 with rstate := 3, rmask := m.rmask } else k1

/-- The record of a line with an overflow entry (R387). -/
def overflowMark (phase index : Nat) (m : LineMarks) : Mark :=
  { phase := BitVec.ofNat 3 phase, aclass := BitVec.ofNat 3 ((m.atomics.head?.map OvAtomic.aclass).getD 0),
    rmask := if m.broad then m.rmask else (m.parties.filter fun x => !x.writer).foldl (fun r x => r ||| x.mask) 0,
    wmask := (m.parties.filter OvParty.writer).foldl (fun r x => r ||| x.mask) 0,
    wstate := 2, wfield := BitVec.ofNat 22 index, rstate := if m.broad then 3 else 2 }

/-- Put a record where its home keeps it; none when the die's far-mark table is full (R327, R394). -/
def State.putMark (s : State) (ctx loc pa : Nat) (m : Mark) (wsure rsure : Bool) : Option State :=
  let line := markLine loc pa
  let ph := (s.ctx ctx).phase
  if loc = locFar ∨ loc = locHost then
    let die := homeDie line
    let rest := s.farMarks.filter fun f => !(f.page == line / 65536 && f.ctx == ctx)
    if m.wstate = 0 ∧ m.rstate = 0 then some { s with farMarks := rest }
    else if 65536 ≤ (rest.filter fun f => f.die == die).length then none
    else some { s with farMarks := { die := die, page := line / 65536, ctx := ctx, phase := ph, mark := m } :: rest }
  else
    let old := s.l2.find? fun x => x.line == line
    some { s with l2 := { line := line, mark := m, phase := ph, held := wsure, rheld := rsure, ecc := old.any L2Line.ecc, ctx := some ctx,
                          time := (old.map L2Line.time).getD s.time } :: s.l2.filter fun x => x.line != line }

/-- The owners of low bits that compact marks establish (R390). -/
def State.claimOwners (s : State) (ctx : Nat) (xs : List OvParty) : State :=
  xs.foldl (fun (s : State) x =>
    let k := x.num.toNat % 32
    if x.unsure || s.owners.any fun o => o.slot == x.slot && o.k == k then s
    else { s with owners := { slot := x.slot, k := k, num := x.num, uid := x.uid, wid := x.wid, ctx := ctx } :: s.owners }) s

/-- Write a line's marks back (R388 to R390): none when they need an overflow entry and none is free (R327). -/
def State.writeMarks (s : State) (ctx loc pa : Nat) (m : LineMarks) (entry : Option OvEntry) : Option State :=
  let line := markLine loc pa
  let slice := s.homeSlice line
  let ph := (s.ctx ctx).phase
  let bare := m.parties.isEmpty && m.atomics.isEmpty
  let full := m.parties.any fun x => !s.owns ctx x
  let wsure := !m.parties.any fun x => x.writer && x.unsure
  let rsure := m.sure && !m.parties.any fun x => !x.writer && x.unsure
  let s' : State := { s with overflow := s.overflow.filter fun e => !(e.slice == slice && e.line == line && e.ctx == ctx) }
  if bare || !(entry.isSome || m.needs || full) then
    ((s'.putMark ctx loc pa (compactMark ph m) wsure rsure).map fun s => s.claimOwners ctx m.parties)
  else
    let s' := s'.sweep slice
    let m := { m with parties := s.fullMarks ctx m.parties }
    match (match entry with
      | some e => if (s'.freeEntry slice (max 1 m.atomics.length)).isSome then some e.index else none
      | none => s'.freeEntry slice (max 1 m.atomics.length)) with
    | some i =>
      { s' with overflow := { slice := slice, index := i, ctx := ctx, phase := ph, line := line, parties := m.parties,
                              atomics := m.atomics, sure := m.sure } :: s'.overflow }.putMark ctx loc pa (overflowMark ph i m) true true
    | none =>
      if m.needs then none
      else
        -- a mark that only its owner bars from the compact form (R390)
        let s' := m.parties.foldl (fun (s : State) x =>
          if s.owns ctx x then s
          else { s with uncertain := cset s.uncertain x.slot (setBit (cget s.uncertain x.slot) (x.num.toNat % 32) true) }) s'
        (s'.putMark ctx loc pa (compactMark ph m) wsure rsure).map fun s => s.claimOwners ctx m.parties

/-- A fault record of an access that its home has refused (R318, R424). -/
def Access.record (a : Access) (x : Conflict) : FaultRec :=
  { code := x.code.code, addr := a.va, pc := a.pc, lanes := a.lanes, rseq := a.rseq,
    acc := if a.party.eng.isSome then (if a.write then 5 else 4) else if a.label ≠ 0 then 3 else if a.write then 2 else 1,
    okind := x.okind, oclass := x.oclass, odev := x.odev, oslot := x.oslot, onum := x.onum, opc := x.opc }

/-- The reader parties that a data read counts beside its own (R326). Expired ones are dropped (R323, R393), but a line that five parties
of one phase read ends the phase broad (R499): whether this check drops them is free (log entry 100). -/
def State.readersMet (s : State) (a : Access) (m : LineMarks) : LineMarks × State :=
  let gone := (s.lineMarks a.party.ctx a.loc a.addr).1.parties.filter fun x =>
    !x.writer && !x.unsure && !x.same a.mark && s.markGone a.party.ctx x
  if a.label ≠ 0 || a.write || m.broad || gone.isEmpty then (m, s)
  else
    let (k, s) := s.draw 4 2
    (if k = 0 then m else { m with parties := m.parties ++ gone }, s)

/-- CHECK AND MARK at this device's own home (R317, R393): the fault it meets, or the line with its mark. Which of
several conflicts the record names is free (log entry 3). -/
def State.blotHere (s : State) (a : Access) : Option FaultRec × State :=
  let ctx := a.party.ctx
  let (m, entry) := s.readMarks ctx a.loc a.addr
  match s.races a m with
  | c :: cs =>
    let (k, s) := if cs.isEmpty then (0, s) else s.draw 4 (cs.length + 1)
    -- the expired marks are gone all the same
    let s := (s.writeMarks ctx a.loc a.addr m entry).getD s
    (some (a.record ((c :: cs).getD k c)), s)
  | [] =>
    let full : Conflict := { code := .markCapacity, okind := 4 }
    let (m', s) := s.readersMet a { m with parties := m.parties.map (s.ownMark ctx a.party) }
    let put := if a.label = 0 then m'.addParty a.mark
      else some (m'.addAtomic a.label (markWords a) (s.atomicTime ctx))
    match put.bind fun m => s.writeMarks ctx a.loc a.addr m entry with
    | some s => (none, s)
    | none => (some (a.record full), (s.writeMarks ctx a.loc a.addr m entry).getD s)

/-! ### Checks at a peer's home (R334, R401) -/

/-- The marks of this device's parties on a peer's line, as the owner keeps them. -/
def State.peerLine (s : State) (line : Nat) : LineMarks :=
  ((s.peerMarks.find? fun p => p.line == line).map fun p =>
    { parties := p.parties, atomics := p.atomics, broad := p.broad, rmask := p.rmask }).getD {}

def State.setPeerLine (s : State) (line : Nat) (m : LineMarks) : State :=
  { s with peerMarks := { line := line, parties := m.parties, atomics := m.atomics, broad := m.broad, rmask := m.rmask }
      :: s.peerMarks.filter fun p => p.line != line }

/-- Faults that a mark of another device's party, or want of room at the owner, can give an access (R313, R320, R327). -/
def Access.foreignFaults (a : Access) : List FaultCode :=
  if a.label = 0 then (if a.write then [.raceWW, .raceRW] else [.raceWR]) ++ [.raceSyncdata, .raceClassmix, .markCapacity]
  else if a.label = 1 then [.raceSyncdata, .raceClassmix, .markCapacity]
  else [.raceClassmix, .markCapacity]

/-- CHECK AND MARK at a peer device's home (R334, R401). What the owner holds of other devices' parties, and whether its context's
phase has ended since, is not known here: whether such a mark is in the way, and what the record then names, is free, and so is the
end of the phase (log entry 35). -/
def State.blotPeer (s : State) (a : Access) : Option FaultRec × State :=
  let line := lineOf a.addr
  let n := s.freeCtr
  let (k, s) := s.draw 6 3
  if k = 1 then
    let fs := a.foreignFaults
    let code := fs.getD (Config.free n 7 % fs.length) .markCapacity
    (some (a.record { code := code, okind := Config.free n 8 % 5, oclass := Config.free n 9 % 6, odev := Config.free n 10 % 4096,
                      oslot := Config.free n 11 % 131072, onum := BitVec.ofNat 32 (Config.free n 12),
                      opc := BitVec.ofNat 55 (Config.free n 13) }), s)
  else
    let m := if k = 2 then {} else s.peerLine line
    match s.races a m with
    | c :: cs =>
      let (j, s) := if cs.isEmpty then (0, s) else s.draw 4 (cs.length + 1)
      (some (a.record ((c :: cs).getD j c)), s.setPeerLine line m)
    | [] =>
      match (if a.label = 0 then m.addParty a.mark else some (m.addAtomic a.label (markWords a) (s.atomicTime a.party.ctx))) with
      | some m => (none, s.setPeerLine line m)
      | none => (some (a.record { code := .markCapacity, okind := 4 }), s.setPeerLine line m)

/-- CHECK AND MARK an access to a checked line at its home (R317, R334, R393). -/
def State.blot (s : State) (a : Access) : Option FaultRec × State := if a.loc = locPeer then s.blotPeer a else s.blotHere a

end Sys2Proof.Machine
end

