-- ==== Sys2Proof/Machine/Wells.lean ====
section
/-! DEFINITION. Well instructions (class 0x20): full/empty loads and stores and their waiting lanes, `give`, `take`,
`wmap` and `wfill` (R230 to R236). -/

namespace Sys2Proof.Machine

/-! ### Waiting lanes (R19, R231, R232) -/

/-- A waiting lane: its warp, lane and name of the wait, and the warp's live-warp slot. -/
structure Waiter where
  uid : Nat
  wid : Nat
  lane : Nat
  seq : Nat
  slot : Nat
  deriving DecidableEq, Repr

/-- Lanes of a warp that wait on a well word. -/
def Block.waitersOf (b : Block) (w : Warp) (key : Nat) (stfe : Bool) : List Waiter :=
  lanes.filterMap fun l =>
    let t := w.thread l
    match t.st with
    | .blocked n x =>
      if x == stfe && t.wlead && b.wellAt (4 * n) == some key then
        some { uid := w.uid, wid := w.wid, lane := l, seq := t.waitSeq, slot := w.lslot }
      else none
    | _ => none

/-- The lanes that wait on a well word, first served first (R232). -/
def State.waiters (s : State) (key : Nat) (stfe : Bool) : List Waiter :=
  sortBy (fun x y =>
      x.seq < y.seq || (x.seq == y.seq && (x.slot < y.slot || (x.slot == y.slot && x.lane < y.lane))))
    (s.warps.flatMap fun (w : Warp) =>
      if !w.holds then [] else ((s.block? w.uid).map fun b => b.waitersOf w key stfe).getD [])

/-- The threads that a waiting lane stands for: itself, or every thread of a uniform instruction (R32). -/
def Warp.waitGroup (w : Warp) (x : Waiter) : LaneMask :=
  w.lanesWhere fun t => t.st.isBlocked && t.waitSeq == x.seq && !t.wlead

/-- A thread whose wait is over goes on after its instruction (R64, R231). -/
def Thread.goOn (t : Thread) (outstanding : Nat) : Thread :=
  { t with pc := nextPc t.pc, newRegion := true, reenter := false, marker := false, wlead := true,
           st := if t.marker && outstanding != 0 then .parked .marker else .ready }

/-- Let a waiting lane, and what it stands for, go on. -/
def State.waitOver (s : State) (x : Waiter) : State :=
  match s.warp? x.uid x.wid with
  | none => s
  | some w =>
    let m := w.waitGroup x ||| ((1 : LaneMask) <<< x.lane)
    s.setWarp (w.modThreads m fun _ t => t.goOn w.outstanding)

/-- Result elements of an `ldfe` in a lane. -/
def ldfeWrites (dst : Bool × Nat) (l : Nat) (v : Word) : List (RegSlot × Word) :=
  [(if dst.1 then .uni dst.2 else .vec dst.2 l, v)]

/-- Does another lane of the same instruction still wait? -/
def State.stillWaits (s : State) (uid wid seq : Nat) : Bool :=
  (s.warp? uid wid).any fun w => w.threads.any fun t => t.st.isBlocked && t.waitSeq == seq

/-- Threads of a waiting or parked instruction that a fault has found: ready again at it, with the fault to be delivered
at their region boundary, where they now stand (R213). -/
def State.failThreads (s : State) (uid wid : Nat) (m : LaneMask) (code : FaultCode) (pc : Pc) (addr : BitVec 64) : State :=
  match s.warp? uid wid with
  | none => s
  | some w =>
    let l := (lanesOf m).headD 0
    let w : Warp := w.modThreads m fun _ t =>
      { t with st := .ready, pc := pc, newRegion := false, reenter := true, marker := false, wlead := true }
    ((s.setWarp w).defer uid wid l
      { code := code.code, pc := pc, lanes := m, addr := addr, acc := 3, eseq := w.eseq, rseq := (w.thread l).rseq }).saveThreads uid wid m

/-- A waiting `ldfe` lane will not be performed: the result it was part of goes on without it. -/
def State.ldfeLeave (s : State) (x : Waiter) : State :=
  let hit := (s.owed? x.seq).any Owed.hit
  let s := (s.modOwed x.seq fun o => { o with lanes := o.lanes.erase x.lane }).settle x.seq
  if hit && !s.stillWaits x.uid x.wid x.seq then s.endInterval x.uid x.wid (s.clockOf x.uid x.wid) false else s

/-- A waiting lane faults (R232, R233). -/
def State.waitFault (s : State) (x : Waiter) (code : FaultCode) : State :=
  match s.warp? x.uid x.wid with
  | none => s
  | some w =>
    let t := w.thread x.lane
    let m := w.waitGroup x ||| ((1 : LaneMask) <<< x.lane)
    let s := s.failThreads x.uid x.wid m code t.pc 0
    match t.st with
    | .blocked _ false => s.ldfeLeave x
    | _ => s

/-- An `ldfe` lane takes a full word (R231): the word is empty, and the warp acquires at once, though its interval ends, and takes the
latest acquire time, only with the instruction's last lane (R307; DESIGN CHOICE, log entry 96). -/
def State.ldfeTake (s : State) (uid wid key : Nat) : Word × State :=
  let v := s.wellGet key
  (v, (s.wellSetFull key false).acquire uid wid .cluster (max (s.relMetAt uid wid 2 (wellStampAt key)) (s.relMetAt uid wid 2 (fillStampAt key))))

/-- Serve one waiting `ldfe` lane. -/
def State.serveLoad (s : State) (x : Waiter) (key : Nat) : State :=
  let (v, s) := s.ldfeTake x.uid x.wid key
  let s := s.modOwed x.seq fun o =>
    { o with writes := o.writes ++ ((o.dst.map fun d => ldfeWrites d x.lane v).getD []), lanes := o.lanes.erase x.lane,
             hit := true }
  let s := s.waitOver x
  if s.stillWaits x.uid x.wid x.seq then s else s.endInterval x.uid x.wid (s.clockOf x.uid x.wid) false

/-- An `stfe` lane fills an empty word (R231), with the release of its instruction: that of an earlier fill has been met. -/
def State.stfeFill (s : State) (uid wid key : Nat) (v : Word) : State :=
  ((s.wellPutSoft key v).wellSetFull key true).relSet (wellStampAt key) (s.relOf uid wid 2)

/-- Serve one waiting `stfe` lane. -/
def State.serveStore (s : State) (x : Waiter) (key : Nat) : State :=
  let v := (((s.warp? x.uid x.wid).map fun w => (w.thread x.lane).wval).getD 0)
  (s.stfeFill x.uid x.wid key v).waitOver x

/-- SERVE the lanes that wait on a word, one at a time, until none can go on (R232). A lane that would acquire waits until every earlier
access of its warp has been performed (R296). -/
def serveWord : Nat → State → Nat → State
  | 0, s, _ => s
  | fuel + 1, s, key =>
    if s.wellIsFull key then
      match s.waiters key false with
      | [] => s
      | x :: _ =>
        if s.accessesPending x.uid x.wid then s
        else if cget s.wellPoison key = 1 then serveWord fuel (s.waitFault x .poison) key
        else serveWord fuel (s.serveLoad x key) key
    else
      match s.waiters key true with
      | [] => s
      | x :: _ => serveWord fuel (s.serveStore x key) key

/-- After a change of a word's full bit, its waiting lanes are served. -/
def State.serve (s : State) (key : Nat) : State := serveWord (64 * s.warps.length + 2) s key

/-- The words on which `ldfe` lanes wait. -/
def State.waitedWords (s : State) : List Nat :=
  s.warps.flatMap fun (w : Warp) =>
    if !w.holds then []
    else lanes.filterMap fun l =>
      match (w.thread l).st with
      | .blocked n false => if (w.thread l).wlead then (s.block? w.uid).bind fun b => b.wellAt (4 * n) else none
      | _ => none

/-! ### `ldfe` and `stfe` -/

/-- Well offset of a target. -/
def Target.off : Target → Nat
  | .well off => off
  | .mem _ va => va

/-- Block a lane on a word (R19, R231). -/
def State.blockLane (s : State) (c : Ic) (f : MemForm) (l off seq : Nat) (stfe : Bool) (v : Word) : State :=
  s.modWarp c.w.uid c.w.wid fun w => w.modThreads (c.group f l) fun k t =>
    { t with st := .blocked (off / 4) stfe, waitSeq := seq, wval := v, wlead := k == l }

/-- The lanes of an `ldfe`: what has been read at once, the lanes that wait, and the state. -/
def State.ldfeLanes (s : State) (c : Ic) (f : MemForm) (seq : Nat) :
    List (Nat × Target) → List (RegSlot × Word) × List Nat × State
  | [] => ([], [], s)
  | (l, t) :: rest =>
    match c.b.wellAt t.off with
    | none => s.ldfeLanes c f seq rest
    | some key =>
      if s.wellIsFull key then
        let (v, s) := s.ldfeTake c.w.uid c.w.wid key
        let (ws, ls, s) := (s.serve key).ldfeLanes c f seq rest
        (ldfeWrites (f.duni, f.d.toNat) l v ++ ws, ls, s)
      else
        let (ws, ls, s) := (s.blockLane c f l t.off seq false 0).ldfeLanes c f seq rest
        (ws, l :: ls, s)

/-- What an `ldfe` finds wrong with its words before any is read (R232, R402). -/
def State.ldfeBad (s : State) (c : Ic) (ts : List (Nat × Target)) : Option (Nat × FaultCode) :=
  (ts.filterMap fun t =>
    match c.b.wellAt t.2.off with
    | none => none
    | some key =>
      if cget s.wellBad key = 1 then some (t.1, .eccUncorrectable)
      else if s.wellIsFull key && cget s.wellPoison key == 1 then some (t.1, .poison)
      else none).head?

/-- Lanes that wait stay at the instruction (R231). -/
def State.waitPc (s : State) (c : Ic) (l : Nat) (n : Pc) : Pc :=
  if (s.warp? c.w.uid c.w.wid).any fun w => (w.thread l).st.isBlocked then c.pc else n

/-- LDFE (R231). -/
def execLdfe (f : MemForm) (s : State) : Out :=
  run (.ldfe f) s fun c s =>
    withTargets s c f (c.look f .read false false) 3 fun ts s =>
      withRing s c fun _ =>
        match s.ldfeBad c ts with
        | some (l, code) => .fault (c.record code l (memAddr c f l) 3)
        | none =>
          let id := s.nextId
          let (ws, ls, s) := { s with nextId := id + 1 }.ldfeLanes c f id ts
          let s := s.oweAs { id := id, uid := c.w.uid, wid := c.w.wid, writes := ws, lanes := ls,
                             dst := some (f.duni, f.d.toNat), hit := !ws.isEmpty }
          let s := if ls.isEmpty then s.endInterval c.w.uid c.w.wid (s.clockOf c.w.uid c.w.wid) false else s
          .done s (s.waitPc c)

/-- The lanes of an `stfe`. -/
def State.stfeLanes (s : State) (c : Ic) (f : MemForm) (seq : Nat) : List (Nat × Target) → State
  | [] => s
  | (l, t) :: rest =>
    let v := BitVec.ofNat 32 (memReg c f f.data l)
    let s :=
      match c.b.wellAt t.off with
      | none => s
      | some key =>
        if s.wellIsFull key then s.blockLane c f l t.off seq true v
        else (s.stfeFill c.w.uid c.w.wid key v).serve key
    s.stfeLanes c f seq rest

/-- STFE (R231). -/
def execStfe (f : MemForm) (s : State) : Out :=
  run (.stfe f) s fun c s =>
    withTargets s c f (c.look f .write false false) 3 fun ts s =>
      withRelease s c .cluster fun s =>
        let id := s.nextId
        let s := { s with nextId := id + 1 }.stfeLanes c f id ts
        .done s (s.waitPc c)

/-! ### `wfill` (R236) -/

/-- Fill words one after another, each with its waiting lanes served. -/
def State.fillWords (s : State) (b : Block) (off : Nat) (v : Word) (full : Bool) (rels : List Rel) : Nat → State
  | 0 => s
  | n + 1 =>
    let s :=
      match b.wellAt off with
      | none => s
      | some key => ((((s.wellPutSoft key v).wellSetFull key full).relSet (wellStampAt key) rels).relPut (fillStampAt key) rels).serve key
    s.fillWords b (off + 4) v full rels n

/-- WFILL (R236). -/
def execWfill (f : MemForm) (s : State) : Out :=
  run (.wfill f) s fun c s =>
    let a := memAddr c f c.lane0
    let n := (c.w.sget f.cmp.toNat).toNat
    let bad (code : FaultCode) (cause : Nat) : Res := .fault { c.record code c.lane0 a 3 with cause := cause }
    if a.toNat % 4 ≠ 0 ∨ n % 4 ≠ 0 then bad .align 0
    else if 0xC0000 < a.toNat + n then bad .pageAbsent 4
    else if n ≠ 0 && !c.b.wellMapped a.toNat n then bad .wellDetached 0
    else withRelease s c .cluster fun s =>
      .next (s.fillWords c.b a.toNat (c.w.sget f.data.toNat) (f.aop == 1) (s.relOf c.w.uid c.w.wid 2) (n / 4))

/-! ### `give`, `take` and `wmap` (R233 to R235) -/

/-- Does a well of a cluster hold an open ring header (R256)? -/
def State.ringIn (s : State) (cluster well : Nat) : Bool := s.rings.any fun r => r.cluster == cluster && r.well == well

/-- Places of a core's arrival queue that are taken or reserved (R233). -/
def State.queued (s : State) (core : Nat) : Nat :=
  (s.core core).arrivals.length + (s.gives.filter fun g => g.target == core).length

/-- Does a core hold a block of a context (R233)? -/
def State.coreHasCtx (s : State) (core ctx : Nat) : Bool := s.blocks.any fun b => b.core == core && b.ctx == ctx && s.holdsCore b

/-- GIVE (R233), steps 1 and 2: what it gives drains, and the instruction completes with GIVE_DRAIN_COMPLETE. -/
def execGive (f : MemForm) (s : State) : Out :=
  run (.give f) s fun c s =>
    if s.gives.any fun g => g.uid == c.w.uid && g.wid == c.w.wid then .stall s
    else
      let slot := f.offset.toNat % 16
      let t := if f.aop = 1 then (c.w.sget f.data.toNat).toNat else f.offset.toNat / 256 % 8
      let cl := coreCluster c.w.core
      let target := cl * 8 + t
      match assocGet c.b.bank slot with
      | none => .fault (c.record .wellDetached c.lane0)
      | some e =>
        if e.count ≠ 16 || 7 < t || !s.coreHasCtx target c.b.ctx || s.ringIn cl e.well then
          .fault (c.record .wellGive c.lane0)
        else if 24 ≤ s.queued target then .stall s
        else withWritten s c .cluster fun s =>
          .stall { s with nextId := s.nextId + 1,
                          gives := s.gives ++ [{ id := s.nextId, uid := c.w.uid, wid := c.w.wid, slot := slot, well := e.well,
                                                 target := target, f := f, lanes := c.active }] }

/-- The first waiting taker of a core for whose context a well has arrived (R234), and that well; none while an earlier access of its warp
is still to be performed (R296). -/
def State.nextTake (s : State) (core : Nat) : Option (Take × Arrival) :=
  ((s.core core).takes.filterMap fun t =>
    match s.block? t.uid with
    | none => none
    | some b => ((s.core core).arrivals.find? fun a => a.ctx == b.ctx).map fun a => (t, a)).head?.filter
      fun x => !s.accessesPending x.1.uid x.1.wid

/-- MAP arrived wells for waiting takers (R234). `fuel`: the takers. -/
def mapTakes : Nat → State → Nat → State
  | 0, s, _ => s
  | fuel + 1, s, core =>
    match s.nextTake core with
    | none => s
    | some (t, a) =>
      let s := s.modCore core fun c => { c with takes := c.takes.erase t }
      let taken := (s.block? t.uid).any fun b => (assocGet b.bank t.slot).isSome
      if taken then
        let s := s.failThreads t.uid t.wid t.lanes .wellGive t.pc 0
        mapTakes fuel (if t.counted then s.resultIn t.uid t.wid else s) core
      else
        let s := s.modCore core fun c => { c with arrivals := c.arrivals.erase a }
        let s := s.modBlock t.uid fun b => { b with bank := assocSet b.bank t.slot { well := a.well, first := 0, count := 16 } }
        let v : Word := BitVec.ofNat 32 (corePos a.giver + 256 * a.well)
        let s := s.oweMore { id := 0, uid := t.uid, wid := t.wid, strong := true, counted := t.counted, writes := [(.uni t.reg, v)] }
        let s := s.wakeWhere t.uid t.wid fun l x => x.st == .parked .take && t.lanes.getLsbD l
        mapTakes fuel (s.wakeAcquire t.uid t.wid .cluster a.stamp) core

def State.takeWell (s : State) (core : Nat) : State := mapTakes ((s.core core).takes.length + 1) s core

/-- TAKE (R234). -/
def execTake (f : MemForm) (s : State) : Out :=
  run (.take f) s fun c s =>
    let slot := f.offset.toNat % 16
    if (assocGet c.b.bank slot).isSome then .fault (c.record .wellGive c.lane0)
    else withRing s c fun _ =>
      let s := (s.park c .take).modCore c.w.core fun k =>
        { k with takes := k.takes ++ [{ uid := c.w.uid, wid := c.w.wid, slot := slot, reg := f.d.toNat, pc := c.pc,
                                        lanes := c.active }] }
      let s := s.modWarp c.w.uid c.w.wid fun w => { w with outstanding := w.outstanding + 1 }
      .next (s.takeWell c.w.core)

/-- WMAP (R235, R403). -/
def execWmap (f : MemForm) (s : State) : Out :=
  run (.wmap f) s fun c s =>
    let v : Word :=
      match assocGet c.b.bank (f.offset.toNat % 16) with
      | some e => BitVec.ofNat 32 (2 ^ 31 + e.well)
      | none => 0
    .next (s.owe { id := 0, uid := c.w.uid, wid := c.w.wid, writes := [(.uni f.d.toNat, v)] })

end Sys2Proof.Machine
end

