-- ==== Sys2Proof/Machine/Home.lean ====
section
/-! DEFINITION. What homes, the L1 and the well switch do with the accesses on their way: mark checks, fills, strong
accesses, write-backs, results and the L2 (R38, R59, R214, R227, R309, R383, R384, R393, R396 to R404, R417 to R419). -/

namespace Sys2Proof.Machine

/-- The threads of a warp that wait in `rwait` on a ring whose head or tail cannot be read (R402): ready again at it, with the
fault. -/
def State.ringFail (s : State) (r : RingWait) : State :=
  match s.warp? r.uid r.wid with
  | none => s
  | some w =>
    let m := w.lanesWhere fun t => t.st == .parked .rwait
    let t := w.thread ((lanesOf m).headD 0)
    { s with ringWaits := s.ringWaits.erase r }.failThreads r.uid r.wid m .eccUncorrectable (prevPc t.pc) 0

/-- Wake the warps that wait in `rwait` on a ring in which a message stands, with their acquire (R257), before which every earlier
access of the warp has been performed (R296). -/
def State.rwaitsWake (s : State) : State :=
  s.ringWaits.foldl (fun (s : State) (r : RingWait) =>
    match s.ring? r.cluster r.num with
    | none => s
    | some x =>
      if s.ringBad x then s.ringFail r
      else if s.ringHead x = s.ringTail x || s.accessesPending r.uid r.wid then s
      else
        let s := { s with ringWaits := s.ringWaits.erase r }
        let s := s.wakeWhere r.uid r.wid fun l t => t.st == .parked .rwait && r.lanes.getLsbD l
        s.wakeAcquire r.uid r.wid .device x.stamp) s

/-- Everything that waits for what an event may have brought looks again: the notices, `rwait`, `ldfe` on words that are full, `take`,
`sync.spawn` and phase barriers (R189, R199, R232, R234, R257, R428). -/
def State.ringWake (s0 : State) : State :=
  let s := s0.flushAll.rwaitsWake
  let s := s.waitedWords.foldl (fun (s : State) key => if s.wellIsFull key then s.serve key else s) s
  let s := s.cores.foldl (fun (s : State) (c : Core) => if c.takes.isEmpty || c.arrivals.isEmpty then s else s.takeWell c.id) s
  s.blocks.foldl (fun (s : State) (b : Block) =>
    let s := if b.syncs.isEmpty then s else s.syncWake b.uid
    if b.phArr.isEmpty then s else s.phaseBar b.uid) s

/-- An event of the device: what it leaves, or, where it cannot happen now, the state as it was. Whatever waited may look
again after it. -/
def happens (s : State) (r : Option State) : Out :=
  match r with
  | some x => .next x.unstall.ringWake
  | none => .next s

/-! ### Results (R38, R135, R214) -/

/-- The registers of a piece (R211, R220). -/
def Piece.writes (p : Piece) : List (RegSlot × Word) :=
  let v := natOfBytes (p.got.map fun b => b.getD 0)
  let v := if p.signed then sext v (8 * p.size) 32 else v
  p.slots.zip ((List.range p.slots.length).map fun k => BitVec.ofNat 32 (v / 2 ^ (32 * k)))

/-- LOAD_SECTOR_RETURN (R214). -/
def execLoadSectorReturn (owed piece : Nat) (s : State) : Out :=
  happens s <|
    match s.owed? owed with
    | none => none
    | some o =>
      match o.pieces[piece]? with
      | none => none
      | some p =>
        if !p.ready || p.done then none
        else
          let s := s.modWarp o.uid o.wid fun w => w.puts p.writes
          some ((s.modOwed owed fun o => { o with pieces := o.pieces.set piece { p with done := true } }).settle owed)

/-! ### Order of messages (R304, R382, R384, R228, R454) -/

/-- Core and line of an access on its way to a home. -/
def State.msgLine (s : State) (m : Msg) : Option (Nat × Nat) :=
  match m.kind with
  | .check a core => some (core, markLine a.loc a.addr)
  | .fillReq f => some (f.core, f.line)
  | .wb x => some (x.core, x.line)
  | .strong r => (s.warp? r.uid r.wid).map fun w => (w.core, lineOf r.addr)
  | _ => none

/-- Messages sent before one. -/
def State.before (s : State) (id : Nat) : List Msg := s.msgs.takeWhile fun m => m.id != id

/-- Does a strong operation only read? -/
def StrongOp.isLoad : StrongOp → Bool
  | .load _ => true
  | _ => false

/-- Do writes that are held at a migrating page bar a later access of their core to the line (R419)? Reads proceed against the old
location. -/
def heldBars (m : Msg) : Bool :=
  match m.kind with
  | .fillReq _ => false
  | .check _ _ => false
  | .strong r => !r.op.isLoad
  | _ => true

/-- No earlier access of the same core to the same line is still on its way (R382, R384), but for writes held at a migrating page. -/
def State.lineClear (s : State) (m : Msg) : Bool :=
  match s.msgLine m with
  | none => true
  | some k => (s.before m.id).all fun x => s.msgLine x != some k || (x.heldAt.isSome && !heldBars m)

/-- The ends of a response on its way (R454): a home and a core. -/
def State.respEnds (s : State) (m : Msg) : Option (Nat × Nat) :=
  match m.kind with
  | .checkAck _ _ _ core loc line => some (s.homeKey loc line, core)
  | .wbAck _ _ _ core loc line => some (s.homeKey loc line, core)
  | .fillReply f => some (s.homeKey f.loc f.line, f.core)
  | _ => none

/-- Responses between two ends are delivered in the order in which they were sent (R454). -/
def State.respClear (s : State) (m : Msg) : Bool :=
  match s.respEnds m with
  | none => true
  | some k => ((s.before m.id).all fun x => s.respEnds x != some k)
      && s.owed.all fun o => o.resps.all fun x => (x.1, x.2.1) != k || m.sent ≤ x.2.2

/-- A strong access's value leaves its home for its core, behind the responses between the two that are on their way (R454). -/
def State.respSent (s : State) (r : Strong) : State :=
  match r.owed, s.warp? r.uid r.wid with
  | some o, some w =>
    let k := (s.homeKey r.loc r.addr, w.core)
    let ahead := (s.msgs.filter fun m => s.respEnds m == some k).map Msg.id
    s.modOwed o fun o => { o with resps := (k.1, k.2, s.time) :: o.resps, behind := o.behind ++ ahead }
  | _, _ => s

/-- Have the responses that values of strong accesses follow been delivered (R454)? -/
def State.respNext (s : State) (o : Owed) : Bool := o.behind.all fun id => !s.msgs.any fun m => m.id == id && (s.respEnds m).isSome

/-- Write results that were computed (R38). The elements of one result are written together (DESIGN CHOICE, log entry 14): a lane
instruction that reads other lanes meanwhile chooses for each element (R155). -/
def State.writeResults (s : State) (id : Nat) : Option State :=
  match s.owed? id with
  | none => none
  | some o =>
    if o.writes.isEmpty || s.time < o.after || !s.respNext o then none
    else
      let s := s.modWarp o.uid o.wid fun w => w.puts o.writes
      let s := (s.modOwed id fun o => { o with writes := [], resps := [], behind := [] }).settle id
      -- a phase barrier waits for the values of strong accesses (R215)
      some (if o.strong then s.barsCheck o.uid else s)

/-- RESULT_WRITEBACK (R38, R64). -/
def execResultWriteback (owed : Nat) (s : State) : Out := happens s (s.writeResults owed)

/-- May a message have reached its destination, as far as the dies' clocks and links go (R459)? -/
def State.reach (s : State) (m : Msg) : Bool :=
  let there (core loc pa : Nat) : Bool := s.routed loc &&
    match homeDieOf loc pa with
    | some d => s.linkOpen (coreDie core) d pa m.sent
    | none => s.pastDie (coreDie core) 38 m.sent
  let back (core loc pa : Nat) : Bool :=
    match homeDieOf loc pa with
    | some d => s.linkOpen d (coreDie core) pa m.sent
    | none => (s.die (coreDie core)).relock.isNone
  !s.plat.stopped &&
    match m.kind with
    | .check a core => there core a.loc a.addr
    | .fillReq f => there f.core f.loc f.line
    | .wb x => there x.core x.loc x.line
    | .strong r => (s.warp? r.uid r.wid).all fun w => there w.core r.loc r.addr
    | .well r => (s.warp? r.uid r.wid).all fun w => (s.die (coreDie w.core)).relock.isNone
    | .prefetch core _ line loc => there core loc line
    | .checkAck _ _ _ core loc line => back core loc line
    | .wbAck _ _ _ core loc line => back core loc line
    | .fillReply f => back f.core f.loc f.line
    | .fwd _ _ _ _ die => (s.die die).relock.isNone

/-- A response that can be delivered now (R454, R459). -/
def State.respHere (s : State) (m : Msg) : Bool := s.reach m && s.respClear m

/-- The strong access of a message, if it is one. -/
def Msg.strong? (m : Msg) : Option Strong :=
  match m.kind with
  | .strong r => some r
  | .well r => some r
  | _ => none

def StrongOp.reads : StrongOp → Bool
  | .store => false
  | _ => true

/-- Do two accesses touch a common word? -/
def Strong.meets (r x : Strong) : Bool := r.addr / 4 ≤ (x.addr + x.size - 1) / 4 && x.addr / 4 ≤ (r.addr + r.size - 1) / 4

/-- May a strong access be performed before its party's earlier ones that are on their way (R216, R228, R304)? Two atomics of one class and
scope keep their order where the instructions share a thread (DESIGN CHOICE, log entry 102). -/
def mayPass (r x : Strong) : Bool :=
  if x.uid ≠ r.uid ∨ x.wid ≠ r.wid ∨ x.seq = r.seq then true
  else if x.cls = 0 ∨ r.cls = 0 then !r.meets x
  else
    !(x.owed.isSome && x.op.reads) && !(x.cls == 1 && r.cls == 1)
      && !(x.cls == r.cls && x.scope == r.scope && (x.group &&& r.group) != 0) && !r.meets x

def State.strongClear (s : State) (m : Msg) (r : Strong) : Bool :=
  (s.before m.id).all fun x => x.strong?.all fun y => mayPass r y

/-! ### The L2 (R396 to R400) -/

/-- Is a refresh window of an address of the weight store open (R284, R407)? -/
def State.wsOpen (s : State) (pa : Nat) : Bool :=
  let o := pa % 2 ^ 32
  let d := s.die (o / 2 ^ 30)
  let g := o / 2 ^ 24 % 64
  d.openGroups.contains g || windowOpenAt d.t0 g s.time

/-- The 88 bits of a mark record (R386). -/
def Mark.bits (m : Mark) : Nat :=
  m.wstate.toNat + putField 2 22 m.wfield.toNat + putField 24 2 m.rstate.toNat + putField 26 22 m.rfield.toNat
    + putField 48 16 m.wmask.toNat + putField 64 16 m.rmask.toNat + putField 80 3 m.aclass.toNat + putField 83 3 m.phase.toNat

/-- Bytes 4 to 15 of a side band, at bits 127:32 (R395). -/
def Band.bits (b : Band) : Nat :=
  putField 32 4 b.poison.toNat + putField 36 2 b.cmp.toNat + putField 38 1 b.mvalid.toNat + putField 40 88 b.mark.bits

/-- A line's side band as HBM4 holds it (R395): its code is over the data and bytes 4 to 15. -/
def State.bandImage (s : State) (line : Nat) : Nat :=
  let v := (s.band line).bits
  v + (Config.ecc (readBytes s.mem line 64 ++ bytesOfNat 12 (v / 2 ^ 32))).toNat

/-- Contexts whose accesses to a line are on their way. -/
def State.ctxFor (s : State) (line : Nat) : Option Nat :=
  (s.msgs.filterMap fun m =>
    match m.kind with
    | .check a _ => if lineOf a.addr = line then some a.party.ctx else none
    | .fillReq f => if f.line = line then some f.ctx else none
    | .wb x => if x.line = line then some x.ctx else none
    | .strong r => if lineOf r.addr = line then some r.acc.party.ctx else none
    | _ => none).head?

/-- The context that a record belongs to, as far as it shows: the one of its overflow entry, of the owner of its writer's or reader's
low bits, or of an access that waits for the line. -/
def State.markCtx (s : State) (line : Nat) (m : Mark) : Option Nat :=
  let owner (f : BitVec 22) : Option Nat :=
    (s.owners.find? fun o => o.slot == f.toNat / 32 && o.k == f.toNat % 32).map Owner.ctx
  let entry := if m.wstate = 2 then (s.overflow.find? fun e => e.line == line && e.index == m.wfield.toNat % 4096).map OvEntry.ctx else none
  let writer := if m.wstate = 1 then owner m.wfield else none
  let reader := if m.wstate ≠ 3 ∧ m.rstate = 1 then owner m.rfield else none
  (entry.or (writer.or reader)).or (s.ctxFor line)

/-- The contexts whose record a line may hold: the one that left it, when that is known. -/
def State.markCtxs (s : State) (line : Nat) : List Nat :=
  let known := match s.l2.find? fun x => x.line == line with
    | some x => x.ctx.or (s.markCtx line x.mark)
    | none => s.markCtx line (s.band line).mark
  known.elim (s.ctxs.map Ctx.id) fun c => [c]

/-- A line leaves the L2 (R396): with a live record, its side band keeps it; a line of zeros is written as such. -/
def State.bandOut (s : State) (x : L2Line) : Band :=
  let live := (x.mark.wstate != 0 || x.mark.rstate != 0)
    && (s.markCtxs x.line).any fun c => (s.readMarks c locLocal x.line).1.live
  { s.band x.line with mark := if live then x.mark else {}, mvalid := live, cmp := if s.lineData x.line = 0 then 1 else 0 }

def State.l2Out (s : State) (x : L2Line) : State :=
  let b := s.bandOut x
  let s := { s with l2 := s.l2.filter fun y => y.line != x.line }
  if inHbm x.line then s.setBand b else s

/-- Lines that a slice's L2 holds: 4 MiB (R3). -/
def sliceLines : Nat := 65536

/-- Room for a line in its home slice's L2: a full slice gives one of its lines up, which one is free (log entry 75). -/
def State.l2Room (s : State) (line : Nat) : State :=
  let mine := s.l2.filter fun x => s.homeSlice x.line == s.homeSlice line
  if mine.length < sliceLines then s
  else
    let (k, s) := s.draw 8 mine.length
    s.l2Out (mine.getD k {line := line})

/-- The home can serve a line now: an HBM4 line is in the L2, a far or host line is taken into it, and no refresh window
bars a weight-store read. -/
def State.homeReady (s : State) (loc pa : Nat) : Option State :=
  let line := lineOf pa
  if loc = locLocal then (if s.l2.any fun x => x.line == line then some s else none)
  else if loc = locFar ∨ loc = locHost then
    some (if s.l2.any fun x => x.line == line then s
      else
        let s := s.l2Room line
        { s with l2 := { line := line, held := true, rheld := true, time := s.time } :: s.l2 })
  else if loc = locWstore then (if s.wsOpen pa then none else some s)
  else some s

/-- Words of 8 bytes of a line that its read finds uncorrectable (R397, R406): bit k for bytes 8k to 8k + 7. -/
def State.badWords (s : State) (pa : Nat) : BitVec 8 :=
  let line := lineOf pa
  if inWstore pa then
    (List.range 8).foldl (fun (m : BitVec 8) k => setBit m k (cget s.wstoreBad ((line - wstoreBase) / 8 + k) == 1)) 0
  else if s.l2.any fun x => x.line == line && x.ecc then 255 else 0

/-- Does an access touch one of those words? -/
def badIn (bad : BitVec 8) (pa n : Nat) : Bool := (List.range 8).any fun k => bad.getLsbD k && 8 * k < pa % 64 + n && pa % 64 < 8 * k + 8

/-- The fault of a read at its home (R213 order 7), and the state in which it has been told. -/
def State.readFault (s : State) (pa n : Nat) : Option FaultCode × State :=
  if badIn (s.badWords pa) pa n then (some .eccUncorrectable, s.eccDone (lineOf pa))
  else (if s.poisoned pa n then some .poison else none, s)

/-- The place that serves an access (R440): 2 the L2 of the core's own die, 3 another die's, 4 HBM4, 5 the weight store, 6 far or host
memory, 7 a peer. `sent`: when the access left its core; a line that has come into the L2 since came from HBM4 for it. -/
def State.placeLevel (s : State) (core loc pa sent : Nat) : Nat :=
  if loc = locPeer then 7
  else if loc = locFar ∨ loc = locHost then 6
  else if loc = locWstore then 5
  else if s.l2.any fun x => x.line == lineOf pa && sent ≤ x.time && x.time != 0 then 4
  else if (homeDieOf loc pa).all fun d => d == coreDie core then 2
  else 3

/-- L2_EVICT (R396). -/
def execL2Evict (line : Nat) (s : State) : Out := happens s <| (s.l2.find? fun x => x.line == line).map s.l2Out

/-- A record that is left broad without an entry (R397): a writer in compact form stays. -/
def Mark.broadened (m : Mark) : Mark :=
  let b : Mark := { phase := m.phase, rstate := 3, rmask := BitVec.allOnes 16 }
  if m.wstate = 1 then { b with wstate := 1, wfield := m.wfield, wmask := m.wmask } else b

/-- A line whose record may be damaged (R397): broad, and its writers kept in full form where an entry is free. -/
def State.damaged (s : State) (line : Nat) : State :=
  let bare : State :=
    { s with l2 := replaceIf (fun x => x.line == line) (fun x => { x with mark := x.mark.broadened }) s.l2 }
  match (s.l2.find? fun x => x.line == line).bind fun x => x.ctx.or (s.markCtx line x.mark) with
  | none => bare
  | some ctx =>
    let (m, entry) := s.readMarks ctx locLocal line
    let m := { m with parties := m.parties.filter OvParty.writer, broad := true, rmask := BitVec.allOnes 16 }
    (s.writeMarks ctx locLocal line m entry).getD bare

/-- Take a line into the L2 (R396): its stored record is not one that the L2 has held. -/
def State.takeLine (s : State) (line : Nat) : State :=
  let s := s.l2Room line
  let b := s.band line
  { s with l2 := { line := line, mark := if b.mvalid then b.mark else {}, held := !b.mvalid, rheld := !b.mvalid, time := s.time } :: s.l2 }

/-- L2_REFILL (R396, R397). -/
def execL2Refill (line : Nat) (ecc : EccOutcome) (s : State) : Out :=
  happens s <|
    if line % 64 ≠ 0 || !inHbm line || s.l2.any fun x => x.line == line then none
    else
      let s := s.takeLine line
      match ecc with
      | .clean => some s
      | .correctable => some { s with plat := { s.plat with errlog := s.plat.errlog ++ [line] } }
      | .uncorrectable =>
        let s := s.setBand { s.band line with poison := 15 }
        let s := (s.damaged line)
        some { s with
          plat := { s.plat with errlog := s.plat.errlog ++ [line] },
          l2 := replaceIf (fun x => x.line == line) (fun x => { x with ecc := true }) s.l2 }

/-- BACK_INVALIDATE (R399): memory holds what the home's copy does, so writing it back leaves it. -/
def execBackInvalidate (line : Nat) (s : State) : Out :=
  happens s <|
    if inFar line && s.l2.any fun x => x.line == line then some { s with l2 := s.l2.filter fun x => x.line != line }
    else none

/-! ### Mark checks (R59, R382, R393) -/

/-- The L1 no longer filters a line for a warp whose check found a fault. -/
def State.unfilter (s : State) (a : Access) : State :=
  match s.warp? a.party.uid a.party.wid with
  | none => s
  | some w => s.l1Mod w.core a.party.ctx (lineOf a.addr) fun y => if y.otag = w.ftag then { y with otag := 0, rbits := 0, wbits := 0 } else y

/-- HOME_MARK_CHECK (R317, R393): a peer's pages are checked at their owner (R334, R401). -/
def execHomeMarkCheck (msg : Nat) (s : State) : Out :=
  happens s <|
    match s.msg? msg with
    | none => none
    | some m =>
      match m.kind with
      | .check a core =>
        if !s.lineClear m || !s.reach m then none
        else
          (s.homeReady a.loc a.addr).map fun s =>
            let (f, s) := s.blot a
            let s := s.dropMsg msg
            let s := match f with
              | some r => (s.unfilter a).defer a.party.uid a.party.wid a.lane r
              | none => s
            s.send (.checkAck a.party.uid a.party.wid msg core a.loc (lineOf a.addr))
      | _ => none

/-- MARK_CHECK_ACK (R59). -/
def execMarkCheckAck (msg : Nat) (s : State) : Out :=
  happens s <|
    match s.msg? msg with
    | none => none
    | some m =>
      match m.kind with
      | .checkAck uid wid k _ _ _ =>
        if !s.respHere m then none
        else some ((s.dropMsg msg).modWarp uid wid fun w => { w with checks := w.checks.filter fun x => x != k })
      | _ => none

/-! ### Fills (R379 to R383) -/

/-- Bytes that write-backs of the same core, held at a migrating page, are still to write (R419): the core reads its own stores
(R216). -/
def State.heldBytes (s : State) (f : Fill) (d : BitVec 512) : BitVec 512 :=
  s.msgs.foldl (fun (d : BitVec 512) m =>
    match m.kind with
    | .wb x => if m.heldAt.isSome ∧ x.core = f.core ∧ x.ctx = f.ctx ∧ x.line = f.line then mergeLine x.mask x.data d else d
    | _ => d) d

/-- A read of the weight store finds one of the words of the sectors asked for uncorrectable, which one is free (R406). -/
def State.damageStore (s : State) (f : Fill) : State :=
  let ws := (List.range 8).filter fun k => f.sectors.getLsbD (k / 4)
  let (k, s) := s.draw 9 (max 1 ws.length)
  { s with wstoreBad := cset s.wstoreBad ((f.line - wstoreBase) / 8 + ws.getD k 0) 1 }

/-- The bytes of a fill's sectors. -/
def Fill.bytes (f : Fill) : BitVec 64 := (if f.sectors.getLsbD 0 then 0xFFFFFFFF else 0) ||| (if f.sectors.getLsbD 1 then 0xFFFFFFFF <<< 32 else 0)

/-- A home answers a fill request with the line as it stands. The answer is a response sent now (R454). -/
def State.fillServe (s : State) (m : Msg) (f : Fill) (ecc : EccOutcome) : Option State :=
  (s.homeReady f.loc f.line).map fun s =>
    let s := if f.loc = locWstore ∧ ecc = .uncorrectable then s.damageStore f else s
    let bad := s.badWords f.line
    let s := f.owed.foldl (fun (s : State) x => s.servedBy f.core x.1 (s.placeLevel f.core f.loc f.line m.sent)) s
    let s := if f.owed.isEmpty then s else s.eccDone f.line
    let f := { f with data := s.heldBytes f (s.lineData f.line), poison := (s.band f.line).poison,
                      bad := if f.owed.isEmpty && f.loc != locWstore then 0 else bad, rels := s.relsOf none f.line f.bytes }
    { s with msgs := (s.msgs.filter fun x => x.id != m.id) ++ [{ m with kind := .fillReply f, sent := s.time }] }

/-- Give a waiting piece the bytes of a fill. -/
def State.fillPiece (s : State) (f : Fill) (ref : Nat × Nat) : State :=
  match s.owed? ref.1 with
  | none => s
  | some o =>
    match o.pieces[ref.2]? with
    | none => s
    | some p =>
      if p.ready || p.done then s
      else
        let off := p.addr % 64
        let bs := (List.range p.size).map fun k =>
          match p.got.getD k none with
          | some b => some b
          | none => some (lineByte f.data (off + k))
        let bad := (granules p.addr p.size).any fun k => f.poison.getLsbD k
        let ecc := badIn f.bad p.addr p.size
        let p := if ecc then { p with flt := { p.flt with code := FaultCode.eccUncorrectable.code } } else p
        let (p, s) := s.pieceReady o.uid o.wid p bs (bad || ecc)
        s.modOwed o.id fun o => { o with pieces := o.pieces.set ref.2 p }

/-- Sectors of a fill that hold a word of the weight store beyond correction (R406): the L1 does not take them. -/
def Fill.badSectors (f : Fill) : BitVec 2 :=
  if f.loc = locWstore then
    (if f.bad.extractLsb' 0 4 = 0 then 0#2 else 1#2) ||| (if f.bad.extractLsb' 4 4 = 0 then 0#2 else 2#2)
  else 0

/-- The bytes that a line takes from a fill: those of the good sectors that the core has not stored to. -/
def L1Line.takes (x : L1Line) (f : Fill) : BitVec 64 :=
  ({ f with sectors := f.sectors &&& ~~~f.badSectors } : Fill).bytes &&& ~~~(x.dirty ||| f.keep)

/-- Merge a fill into its line (R381, R383). -/
def L1Line.fill (x : L1Line) (f0 : Fill) : L1Line :=
  let f := { f0 with sectors := f0.sectors &&& ~~~f0.badSectors }
  let own := x.dirty ||| f.keep
  let sec (k : Nat) : Bool := f.sectors.getLsbD (k / 32)
  { x with
    data := mergeLine (x.takes f0) f.data x.data, svalid := x.svalid ||| f.sectors, pending := x.pending &&& ~~~f0.sectors,
    fepoch0 := if f.sectors.getLsbD 0 then f.epoch else x.fepoch0,
    fepoch1 := if f.sectors.getLsbD 1 then f.epoch else x.fepoch1,
    poison := (List.range 4).foldl (fun (p : BitVec 4) k =>
      if sec (16 * k) && own.extractLsb' (16 * k) 16 ≠ BitVec.allOnes 16 then setBit p k (f.poison.getLsbD k) else p) x.poison }

/-- Is another fill of a sector of the line still on its way? -/
def State.stillFilling (s : State) (f : Fill) : Bool :=
  s.msgs.any fun m =>
    match m.kind with
    | .fillReq g => g.is f.core f.ctx f.line && g.sectors == f.sectors
    | .fillReply g => g.is f.core f.ctx f.line && g.sectors == f.sectors
    | _ => false

/-- L1_FILL (R383): fills of one line arrive in the order of their requests. -/
def execL1Fill (msg : Nat) (s : State) : Out :=
  happens s <|
    match s.msg? msg with
    | none => none
    | some m =>
      match m.kind with
      | .fillReply f =>
        let late := (s.before msg).any fun x =>
          match x.kind with
          | .fillReq g => g.is f.core f.ctx f.line
          | .fillReply g => g.is f.core f.ctx f.line
          | _ => false
        if late || !s.respHere m then none
        else
          let s := f.owed.foldl (fun (s : State) r => s.fillPiece f r) s
          let took := ((s.l1? f.core f.ctx f.line).map fun x => x.takes f).getD 0
          let s := ((s.relsDrop (some f.core) f.line took).relsMove (some f.core)
            (f.rels.filter fun r => took.extractLsb' (r.addr % 64) 4 ≠ 0))
          let s := (s.dropMsg msg).l1Mod f.core f.ctx f.line fun x => x.fill f
          some (if s.stillFilling f then s.l1Mod f.core f.ctx f.line fun x => { x with pending := x.pending ||| f.sectors } else s)
      | _ => none

/-! ### Strong accesses at their homes (R224, R226, R227) -/

/-- The physical address that a context's tables give a virtual address now. -/
def State.paOf (s : State) (ctx va : Nat) : Option Nat :=
  match s.walk ctx va with
  | .ok (p, level) => some ((if pteLoc p = locPeer then pteDev p * 2 ^ 52 else 0) + pteFrame p + va % pageSize level)
  | .error _ => none

/-- A binding state word has been written, wherever its page stands now (R437): threads parked on it wake unless it is 1. -/
def State.bindWake (s : State) (addr n : Nat) : State :=
  s.warps.foldl (fun (s : State) (w : Warp) =>
    let hit (t : Thread) : Option Nat :=
      (t.bind.bind fun va => s.paOf (s.warpCtx w) va).filter fun a => a < addr + n && addr < a + 4
    if w.threads.any fun t => (hit t).isSome then
      s.wakeWhere w.uid w.wid fun _ t => t.st == .parked .binding && (hit t).any fun a => readNat s.mem a 4 != 1
    else s) s

/-- A strong access that is not performed (R317): its threads stay in the region, its result is not owed any more. -/
def State.strongFault (s : State) (r : Strong) (f : FaultRec) : State :=
  let s := s.modWarp r.uid r.wid fun w => w.modThreads r.group fun _ t =>
    { t with redo := t.redo || t.newRegion,
             st := if t.st == .parked .binding && t.bind.isNone then .ready else t.st }
  let s := s.defer r.uid r.wid (r.lane % 32) f
  let s := match r.owed with
    | some o => (s.modOwed o fun o => { o with lanes := o.lanes.erase r.lane }).settle o
    | none => s
  if r.acquires || r.releases then s.acqSkip r.uid r.wid r.lane else s

/-- Release fences that a warp's relaxed read has met, for its acquire fences (R303 case 2); one stamped in the past raises no acquire time
(R308). -/
def State.metRelaxed (s : State) (uid wid : Nat) (met : List Rel) : State :=
  s.modWarp uid wid fun w =>
    { w with seen := (w.seen ++ met.filter fun r => r.fence && !w.seen.contains r).filter fun r => s.time ≤ r.stamp }

/-- Give a strong access its value, and let its acquire meet the releases that its location held (R303, R307, R308). -/
def State.strongDone (s : State) (r : Strong) (old : Nat) (met : List Rel) : State :=
  let s := match r.owed with
    | some o =>
      let v := match r.op with
        | .load true => sext old (8 * r.size) 32
        | _ => old
      let ws := r.slots.zip ((List.range r.slots.length).map fun k => BitVec.ofNat 32 (v / 2 ^ (32 * k)))
      let after := match homeDieOf r.loc r.addr, s.warp? r.uid r.wid with
        | some d, some w => s.heldUntil d (coreDie w.core) r.addr
        | none, some w => (s.die (coreDie w.core)).relock.getD 0
        | _, none => 0
      (s.modOwed o fun o => { o with writes := o.writes ++ ws, lanes := o.lanes.erase r.lane, after := max o.after after }).settle o
    | none => s
  if r.acquires || r.releases then
    s.acqLane r.uid r.wid r.lane (relMet met ((s.warp? r.uid r.wid).bind Warp.party) (Scope.num r.scope))
  else if r.op.reads && r.cls != 0 then s.metRelaxed r.uid r.wid met
  else s

/-- The release of a paired access comes before the first of its lanes that is performed (R224, R308). -/
def State.releaseFirst (s : State) (r : Strong) : State := if r.releases then s.releaseDue r.uid r.wid else s

/-- Outcome of a `cas` that may park its threads (R437). -/
def State.bindOutcome (s : State) (r : Strong) (old : Nat) : State :=
  match r.op with
  | .cas _ =>
    if r.cls ≠ 5 then s
    else
      s.modWarp r.uid r.wid fun w => w.modThreads r.group fun _ t =>
        if t.st == .parked .binding && t.bind.isNone then
          (if old = 1 then { t with bind := some r.va }
           else { t with st := if t.marker && w.outstanding != 0 then .parked .marker else .ready, marker := false })
        else t
  | _ => s

/-- Leave a strong write's releases at its location (R303): a read-modify-write keeps those of the value that it read. -/
def State.strongRels (s : State) (r : Strong) (at' : Nat) (met : List Rel) : State :=
  s.relSet at' (if r.op == .store then r.rels s else r.rels s ++ met)

/-- The value that a strong access finds at its location. A read proceeds against the old location of a migrating page, where it meets
the stores of its own warp that are held there (R216, R419). -/
def State.strongOld (s : State) (r : Strong) : Nat :=
  let own (d : BitVec 512) (m : Msg) : BitVec 512 :=
    match m.kind with
    | .wb x =>
      if m.heldAt.isSome && x.line == lineOf r.addr && x.owners.any fun o => o.1 == r.uid && o.2.1 == r.wid then mergeLine x.mask x.data d else d
    | _ => d
  if !r.op.isLoad then readNat s.mem r.addr r.size
  else
    let d := s.msgs.foldl own (s.lineData (lineOf r.addr))
    natOfBytes ((List.range r.size).map fun k => lineByte d (r.addr % 64 + k))

/-- Perform a strong access on memory (R224, R226). -/
def State.strongHere (s : State) (r : Strong) : State :=
  let old := s.strongOld r
  let s := s.releaseFirst r
  let met := s.relsAt r.addr
  let s :=
    if !strongWrites r.op r.size old then s
    else (s.softBytes r.addr (bytesOfNat r.size (strongNew r.op r.size old r.value.toNat))).strongRels r r.addr met
  let s := ((s.respSent r).strongDone r old met).bindOutcome r old
  if strongWrites r.op r.size old then s.bindWake r.addr r.size else s

/-- The time that a checked line has recorded for a warp's relaxed atomic (R315): its later releases are stamped later (R308). -/
def State.noteAtomic (s : State) (r : Strong) : State :=
  if r.cls < 2 then s
  else s.modWarp r.uid r.wid fun w => { w with atomTime := max w.atomTime (s.atomicTime r.acc.party.ctx) }

/-- A write to a page in migration is held at its old home (R419). -/
def State.holdMsg (s : State) (id : Nat) : State :=
  { s with
    msgs := replaceIf (fun (m : Msg) => m.id == id && m.heldAt.isNone)
      (fun (m : Msg) => { m with heldAt := some s.time }) s.msgs }

/-- Does a strong operation ask to write (R419)? -/
def StrongOp.mayWrite (op : StrongOp) : Bool := !op.isLoad

/-- A strong access at its home: a write at a migrating page is held (R419); any other is checked, then performed (R302, R317), later than
the nanosecond in which it left its core (log entry 98). -/
def State.strongServe (s : State) (m : Msg) (r : Strong) : Option State :=
  if !s.reach m || m.refused || s.time ≤ m.sent then none
  else if r.mig && r.op.mayWrite then (if m.heldAt.isSome then none else some (s.holdMsg m.id))
  else if !s.lineClear m || !s.strongClear m r then none
  else
    (s.homeReady r.loc r.addr).map fun s =>
      let core := ((s.warp? r.uid r.wid).map Warp.core).getD 0
      let s := s.servedBy core r.seq (s.placeLevel core r.loc r.addr m.sent)
      let (bad, s) := if r.op.reads then s.readFault r.addr r.size else (none, s)
      let s := s.dropMsg m.id
      match bad with
      | some code => s.strongFault r { code := code.code, addr := r.acc.va, pc := r.acc.pc, lanes := r.acc.lanes, rseq := r.acc.rseq, acc := 3 }
      | none =>
        let (f, s) := if r.checked then s.blot r.acc else (none, s)
        match f with
        | some x => s.strongFault r x
        | none => (if r.checked then s.noteAtomic r else s).strongHere r

/-- HOME_SLICE_ACCESS (R227): a fill, a prefetch or a strong access at its home, with what the code of the weight store finds
(R406). -/
def execHomeSliceAccess (x : Service) (s : State) : Out :=
  happens s <|
    match s.msg? x.msg with
    | none => none
    | some m =>
      match m.kind with
      | .fillReq f => if s.lineClear m && s.reach m then s.fillServe m f x.ecc else none
      | .strong r => s.strongServe m r
      | .prefetch _ _ line loc => if s.reach m then (s.homeReady loc line).map fun s => s.dropMsg x.msg else none
      | _ => none

/-! ### The well switch (R402, R404) -/

/-- Write the bytes of an access to a well, from a byte of its first word on. -/
def State.wellStoreAt (s : State) (key pos size new : Nat) : State :=
  (List.range size).foldl (fun (s : State) i =>
    s.wellByte (key + (pos + i) / 4) ((pos + i) % 4) (BitVec.ofNat 8 (new / 2 ^ (8 * i)))) s

/-- Perform an access to a well word, or to the two words of a b64 strong access. -/
def State.wellHere (s : State) (r : Strong) : State :=
  let key := r.addr / 4
  let two := r.size = 8
  let bad := cget s.wellBad key = 1 || (two && cget s.wellBad (key + 1) = 1)
  if r.op.reads && bad then
    let f : FaultRec := { code := FaultCode.eccUncorrectable.code, addr := r.acc.va, pc := r.acc.pc, lanes := r.acc.lanes,
                          rseq := r.acc.rseq, acc := if r.cls = 0 then 1 else 3 }
    s.strongFault r f
  else
    let word := (s.wellGet key).toNat + (if two then 2 ^ 32 * (s.wellGet (key + 1)).toNat else 0)
    let old := word / 2 ^ (8 * (r.addr % 4)) % 2 ^ (8 * r.size)
    let s := s.releaseFirst r
    let met := s.relsAt (wellStampAt key)
    let s :=
      if !strongWrites r.op r.size old then s
      else
        let s := s.wellStoreAt key (r.addr % 4) r.size (strongNew r.op r.size old r.value.toNat)
        if r.cls = 0 then s.relSet (wellStampAt key) [] else s.strongRels r (wellStampAt key) met
    s.strongDone r old met

/-- WELL_SWITCH_ACCESS (R402), with what the code of the words finds when they are read. -/
def execWellSwitchAccess (x : Service) (s : State) : Out :=
  happens s <|
    match s.msg? x.msg with
    | none => none
    | some m =>
      match m.kind with
      | .well r =>
        if !s.strongClear m r || !s.reach m then none
        else
          let s := if x.ecc = .uncorrectable ∧ r.op.reads then { s with wellBad := cset s.wellBad (r.addr / 4) 1 } else s
          some ((s.dropMsg x.msg).wellHere r)
      | _ => none

/-! ### Write-backs (R309, R384, R398) -/

/-- LINE_WRITEBACK (R384): the read-modify-write of a damaged line raises no fault (R398). -/
def execLineWriteback (msg : Nat) (s : State) : Out :=
  happens s <|
    match s.msg? msg with
    | none => none
    | some m =>
      match m.kind with
      | .wb x =>
        if !s.reach m || m.refused then none
        else if x.mig then (if m.heldAt.isSome then none else some (s.holdMsg msg))
        else if !s.lineClear m then none
        else
          (s.homeReady x.loc x.line).map fun s =>
            let s := ((s.dropMsg msg).softWrite x.line x.mask x.data).relsMove none x.rels
            (s.bindWake x.line 64).send (.wbAck x.owners msg s.time x.core x.loc x.line)
      | _ => none

/-- WRITEBACK_ACK (R309): it carries the time at which the home has performed the write. -/
def execWritebackAck (msg : Nat) (s : State) : Out :=
  happens s <|
    match s.msg? msg with
    | none => none
    | some m =>
      match m.kind with
      | .wbAck owners k t _ _ _ =>
        if !s.respHere m then none
        else some (owners.foldl (fun (s : State) o => s.wbDone o.1 o.2.1 k o.2.2 t) (s.dropMsg msg))
      | _ => none

/-! ### Forwarding and migration (R417 to R419) -/

/-- Write a migration record (R418, R421): nothing for an unusable ring, a count of the lost for a full one. A record that is not written
takes no number (DESIGN CHOICE, log entry 56). -/
def State.migrationRecord (s : State) (die ctx va loc dev : Nat) : State :=
  let c := s.ctx ctx
  match s.ringHdr c.hctx c.mring with
  | none => s
  | some h =>
    if h.full then
      ({ s with mem := writeNat s.mem (h.pa + 24) 4 (h.lost + 1) }.forwardLines (200 * die) c.hctx h.va 1).forwardLines
        (200 * die) c.hctx h.va 1 .write
    else
      let seq := ((assocGet c.migSeq die).getD 0)
      let body := seq.toNat + putField 32 2 die + putField 65 3 loc + putField 68 12 (if loc = locPeer then dev else 0)
        + putField 80 16 ctx + putField 96 32 c.migthr.toNat + putField 128 64 (va / 2 ^ 21 * 2 ^ 21) + putField 192 64 s.time
      let (s, tail) := s.ringWrite (200 * die) c.hctx h body
      (s.modCtx ctx fun c => { c with migSeq := assocSet c.migSeq die (seq + 1) }).notice ctx .migration (BitVec.ofNat 32 tail)

/-- Count a forwarded request (R417, R418). -/
def State.countForward (s : State) (ctx va loc dev die : Nat) : State :=
  let region := va / 2 ^ 21
  let mine (c : Counter) : Bool := c.die == die && c.ctx == ctx && c.region == region
  let n := min (2 ^ 32 - 1) (((s.counters.find? mine).map Counter.count).getD 0 + 1)
  let thr := (s.ctx ctx).migthr.toNat
  let hit := thr ≠ 0 && thr ≤ n
  let rest := s.counters.filter fun c => !mine c
  let own := rest.filter fun c => c.die == die
  -- a full table loses the counter used least recently
  let rest := if own.length < 16384 then rest else (rest.reverse.erase (own.getLast?.getD ⟨0, 0, 0, 0⟩)).reverse
  let s := { s with counters := { die := die, ctx := ctx, region := region, count := if hit then 0 else n } :: rest }
  if hit then s.migrationRecord die ctx va loc dev else s

/-- FORWARDED_LINE_REQUEST (R417). -/
def execForwardedLineRequest (msg : Nat) (s : State) : Out :=
  happens s <|
    match s.msg? msg with
    | none => none
    | some m =>
      match m.kind with
      | .fwd ctx va loc dev die => some ((s.dropMsg msg).countForward ctx va loc dev die)
      | _ => none

/-- A fault of a write-back, for a warp whose stores it carries: in its first thread that has not exited (log entry 36). -/
def State.deferWb (s : State) (uid wid : Nat) (r : FaultRec) : State :=
  match s.warp? uid wid with
  | none => s
  | some w =>
    let l := (lanesOf (w.lanesWhere fun t => t.st != .exited)).headD 0
    let t := w.thread l
    s.defer uid wid l { r with pc := t.pc, lanes := (1 : LaneMask) <<< l, rseq := t.rseq }

/-- A write that cannot be performed faults every warp whose write it carries, under the region rule: refused at a migrating page, or
with no place when it is translated again (R419). -/
def State.refuseWrite (s : State) (m : Msg) (x : XFault) : State :=
  let rec' (va : BitVec 64) (pc : Pc) (acc : Nat) : FaultRec :=
    { code := x.code.code, cause := x.cause, level := x.level, addr := va, pc := pc, acc := acc }
  match m.kind with
  | .strong r => (s.dropMsg m.id).strongFault r { rec' r.acc.va r.acc.pc 3 with lanes := r.acc.lanes, rseq := r.acc.rseq }
  | .wb x =>
    let s := { s with msgs := replaceIf (fun (y : Msg) => y.id == m.id) (fun (y : Msg) => { y with refused := true }) s.msgs }
    x.owners.foldl (fun (s : State) o => s.deferWb o.1 o.2.1 (rec' (BitVec.ofNat 64 x.va) 0 2)) s
  | _ => s

/-- MIGRATION_HOLD_TIMEOUT (R419). -/
def execMigrationHoldTimeout (msg : Nat) (s : State) : Out :=
  happens s <|
    match s.msg? msg with
    | none => none
    | some m => if (m.heldAt.any fun t => t + 20000 ≤ s.time) && !m.refused then some (s.refuseWrite m { code := .pageAbsent, cause := 3 }) else none

/-! ### Fault delivery (R213, R427) -/

/-- DEFERRED_FAULT_DELIVERY (R213): at a region boundary, once every check of the region has been acknowledged. -/
def execDeferredFaultDelivery (uid wid : Nat) (s : State) : Out :=
  happens s <|
    match s.warp? uid wid with
    | none => none
    | some w =>
      if !w.atBoundary || !w.checks.isEmpty || w.faultStall.isSome || s.strongBusy uid wid then none
      else
        (bestBy (fun x y => deferredOrder x.2 < deferredOrder y.2
            || (deferredOrder x.2 == deferredOrder y.2 && x.1 < y.1)) w.deferred).map fun x =>
          let t := w.thread x.1
          s.takeFault w { x.2 with eseq := w.eseq, rentry := if t.newRegion && !t.redo then t.pc else t.rentry }

/-- HOLDING_SLOT_REREAD (R427, R513). -/
def execHoldingSlotReread (ctx : Nat) (s : State) : Out :=
  happens s <| if s.cores.any fun c => c.waiting.any fun r => r.ctx == ctx then some (s.reread ctx) else none

/-! ### The acquire floor (R322) -/

/-- Is a warp parked at a synchronisation wait (R322)? -/
def Warp.syncWait (w : Warp) : Bool :=
  w.ringStall || w.tokenStall
    || w.threads.all fun t =>
      match t.st with
      | .exited => true
      | .blocked _ _ => true
      | .parked .barrier => true
      | .parked .take => true
      | .parked .rwait => true
      | .parked .syncSpawn => true
      | _ => false

/-- Warps of a context that count for its floor. -/
def State.floorWarps (s : State) (ctx : Nat) : List Warp :=
  s.warps.filter fun w =>
    !w.released && (s.block? w.uid).any fun b =>
      b.ctx == ctx &&
        match b.st with
        | .phase _ => false
        | .retired => false
        | _ => true

/-- ACQUIRE_FLOOR_RECOMPUTE (R322, R323): every 512 ns. -/
def execAcquireFloorRecompute (ctx : Nat) (s : State) : Out :=
  happens s <|
    let c := s.ctx ctx
    if s.time < c.floorAt + 512 then none
    else
      let f := (s.floorWarps ctx).foldl (fun n w => min n (if w.syncWait then s.time else w.acqWide)) s.time
      some (s.modCtx ctx fun c => { c with floor := max c.floor f, floorAt := s.time })

/-! ### Queued wells (R405) -/

/-- May a queued well return to the pool (R405)? -/
def State.wellForgotten (s : State) (core : Nat) (a : Arrival) : Bool :=
  !s.coreHasCtx core a.ctx && !(s.blocks.any fun b => b.ctx == a.ctx &&
    match b.st with
    | .evicted _ => true
    | _ => false)

/-- QUEUED_WELL_RELEASE (R405). -/
def execQueuedWellRelease (core : Nat) (s : State) : Out :=
  happens s <|
    if (s.core core).arrivals.any (s.wellForgotten core) then
      some (s.modCore core fun c => { c with arrivals := c.arrivals.filter fun a => !s.wellForgotten core a })
    else none

end Sys2Proof.Machine
end

