-- ==== Sys2Proof/Machine/Engines.lean ====
section
/-! DEFINITION. What every engine command shares (R237 to R239): its party and records, how it reads and writes memory and
wells, and running on until it is done, suspended, failed or must wait. -/

namespace Sys2Proof.Machine

/-- Why an engine command cannot go on: a fault that ends it, one that suspends it (R239), a write held at a migrating
page (R419), or something that will pass. -/
inductive EngStop where
  | fatal (r : FaultRec)
  | repair (r : FaultRec)
  | held (r : FaultRec)
  | noRoute (r : FaultRec)
  | wait
  deriving DecidableEq, Repr

/-- What a part of a command gives, with the state it leaves. -/
abbrev Eng (α : Type) := Except EngStop α × State

/-- Go on with what a part gave. -/
def engThen {α β : Type} (x : Eng α) (k : α → State → Eng β) : Eng β :=
  match x with
  | (.ok a, s) => k a s
  | (.error e, s) => (.error e, s)

/-- A record of a command (R424). -/
def State.engRecord (s : State) (e : Engine) (code : FaultCode) (addr acc : Nat) (cause : Nat := 0) (level : Nat := 0) :
    FaultRec :=
  { code := code.code, addr := BitVec.ofNat 64 addr, acc := acc, cause := cause, level := level, pc := e.pc, lanes := e.lanes,
    eseq := e.eseq, slot := e.lslot, wid := e.wid, bid := ((s.block? e.uid).map Block.bid).getD 0, ctx := e.ctx, gen := e.gen,
    oslot := 0 }

/-- The command as a party (R238, R328). -/
def State.engParty (s : State) (e : Engine) : Party :=
  { uid := e.uid, wid := e.wid, eng := some e.id, slot := e.lslot, num := e.eseq, acqNear := e.acqNear, acqWide := e.acqWide,
    phase := (s.ctx e.ctx).phase, ctx := e.ctx }

/-- The block whose window a command sees. -/
def State.engBlock (s : State) (e : Engine) : Block := (s.block? e.uid).getD { uid := e.uid, gid := 0, bid := 0, ctx := e.ctx }

/-- The home can serve a command's access: no die on the way is stopped, and its HBM4 line is in the L2 or is taken into it (log
entry 21, R459). -/
def State.engHome (s : State) (e : Engine) (loc pa : Nat) : Option State :=
  if (homeDieOf loc pa).any fun d => !s.linkOpen (coreDie e.core) d pa s.time then none
  else if loc = locLocal ∧ !(s.l2.any fun x => x.line == lineOf pa) then some (s.takeLine (lineOf pa)) else s.homeReady loc pa

/-- Parts of one line: offset and length of each. -/
abbrev Parts := List (Nat × Nat)

/-- The words that the parts touch. -/
def partWords (ps : Parts) : BitVec 16 := ps.foldl (fun (m : BitVec 16) p => m ||| wordsOf p.1 p.2) 0

/-- The bytes that the parts hold. -/
def partMask (ps : Parts) : BitVec 64 :=
  (List.range 64).foldl (fun (m : BitVec 64) k => setBit m k (ps.any fun p => p.1 ≤ k && k < p.1 + p.2)) 0

/-- The access of a command as its home sees it. -/
def State.engAccess (s : State) (e : Engine) (write : Bool) (x : Xlat) (line : Nat) (ps : Parts) : Access :=
  { party := s.engParty e, lane := 0, label := 0, write := write, addr := x.pa, loc := x.loc, words := partWords ps,
    va := BitVec.ofNat 64 (line + (ps.headD (0, 0)).1), pc := e.pc, lanes := e.lanes, rseq := 0 }

/-- Check and mark a command's access at its home (R238, R317). -/
def State.engMark (s : State) (e : Engine) (write : Bool) (x : Xlat) (line : Nat) (ps : Parts) : Eng Unit :=
  if !x.chk then (.ok (), s)
  else
    match s.blot (s.engAccess e write x line ps) with
    | (none, s) => (.ok (), s)
    | (some r, s) =>
      let m := s.engRecord e .illegal (line + (ps.headD (0, 0)).1) (if write then 5 else 4)
      (.error (.fatal { m with code := r.code, okind := r.okind, oclass := r.oclass, odev := r.odev, oslot := r.oslot,
                               onum := r.onum, opc := r.opc }), s)

/-- What reading the parts of a line finds wrong (R213 order 7), and the state in which it has been told. -/
def State.partsFault (s : State) (pa : Nat) (ps : Parts) : Option FaultCode × State :=
  ps.foldl (fun (x : Option FaultCode × State) p =>
    match x.1 with
    | some _ => x
    | none => x.2.readFault (pa + p.1) p.2) (none, s)

/-- Where a command's access to parts of a line goes, once everything that may stop it has been looked at. Copies of a migration
are neither checked nor marked (R294). -/
def State.engOpen (s : State) (e : Engine) (units : List TlbUnit) (line : Nat) (ps : Parts) (write : Bool) (marked : Bool := true) :
    Eng Target :=
  let acc := if write then 5 else 4
  let a := line + (ps.headD (0, 0)).1
  match s.resolve (s.engBlock e) { size := 1, need := if write then .write else .read, writes := write, units := units }
      (BitVec.ofNat 64 line) with
  | (.error x, s) =>
    let r := s.engRecord e x.fault.code a acc x.fault.cause x.fault.level
    let global := match windowOf (BitVec.ofNat 64 a) with
      | .global _ => true
      | _ => false
    if global && (x.fault.code == .pageAbsent || x.fault.code == .pagePerm) then (.error (.repair r), s)
    else (.error (.fatal r), s)
  | (.ok (.well off), s) =>
    match (if write then none else ps.findSome? fun p => s.targetBad (s.engBlock e) (.well (off + p.1)) p.2) with
    | some code => (.error (.fatal (s.engRecord e code a acc)), s)
    | none => (.ok (.well off), s)
  | (.ok (.mem x va), s) =>
    if write && x.mig then (.error (.held (s.engRecord e .pageAbsent a acc 3)), s)
    else if !s.routed x.loc then (.error (.noRoute (s.engRecord e .pageFatal a acc)), s)
    else
      match s.engHome e x.loc x.pa with
      | none => (.error .wait, s)
      | some s =>
        let (bad, s) := if write then (none, s) else s.partsFault x.pa ps
        match bad with
        | some code => (.error (.fatal (s.engRecord e code a acc)), s)
        | none =>
          let s := s.forward e.core e.ctx va x.loc x.pa x.tpin
          engThen (if marked then s.engMark e write x line ps else (.ok (), s)) fun _ s => (.ok (.mem x va), s)

/-- The parts of `n` bytes from `a` that lie in one line each (R246): address and length. `fuel` bounds the lines. -/
def chunks : Nat → Nat → Nat → List (Nat × Nat)
  | 0, _, _ => []
  | fuel + 1, a, n => if n = 0 then [] else (a, min n (64 - a % 64)) :: chunks fuel (a + min n (64 - a % 64)) (n - min n (64 - a % 64))

/-- Read parts of a line: its 64 bytes, of which only those of the parts have been read. One request (R417). -/
def State.engLine (s : State) (e : Engine) (units : List TlbUnit) (line : Nat) (ps : Parts) (marked : Bool := true) : Eng (List Byte) :=
  engThen (s.engOpen e units line ps false marked) fun t s =>
    match t with
    | .mem x _ => if x.loc = locIO then let (bs, s) := s.drawBytes 64; (.ok bs, s) else (.ok (readBytes s.mem x.pa 64), s)
    | .well off => (.ok (s.wellBytes (s.engBlock e) off 64), s)

/-- Read `n` bytes at a generic address. -/
def State.engRead (s : State) (e : Engine) (units : List TlbUnit) (a n : Nat) (marked : Bool := true) : Eng (List Byte) :=
  (chunks (n / 64 + 2) a n).foldl (fun (r : Eng (List Byte)) c =>
    engThen r fun bs s =>
      engThen (s.engLine e units (lineOf c.1 % 2 ^ 64) [(c.1 % 64, c.2)] marked) fun l s =>
        (.ok (bs ++ (l.drop (c.1 % 64)).take c.2), s)) (.ok [], s)

def State.engNat (s : State) (e : Engine) (units : List TlbUnit) (a n : Nat) : Eng Nat :=
  engThen (s.engRead e units a n) fun bs s => (.ok (natOfBytes bs), s)

/-- Write parts of a line: `new` gives the line's bytes from those that stand there. One request. What stands on an I/O page is
free. -/
def State.engPut (s : State) (e : Engine) (units : List TlbUnit) (line : Nat) (ps : Parts) (new : List Byte → List Byte) : Eng Unit :=
  engThen (s.engOpen e units line ps true) fun t s =>
    let part (bs : List Byte) (p : Nat × Nat) : List Byte := (bs.drop p.1).take p.2
    match t with
    | .mem x _ =>
      if x.loc = locIO then
        let (old, s) := s.drawBytes 64
        (.ok (), { s with ioLog := s.ioLog ++ ps.map fun p => (x.pa + p.1, part (new old) p) })
      else
        (.ok (), (s.softWrite x.pa (partMask ps) (lineOfBytes (new (readBytes s.mem x.pa 64)))).bindWake x.pa 64)
    | .well off =>
      let bs := new (s.wellBytes (s.engBlock e) off 64)
      (.ok (), ps.foldl (fun (s : State) p => s.wellWrite (s.engBlock e) (off + p.1) (part bs p)) s)

/-- Write bytes at a generic address. -/
def State.engWrite (s : State) (e : Engine) (units : List TlbUnit) (a : Nat) (bs : List Byte) : Eng Unit :=
  ((chunks (bs.length / 64 + 2) a bs.length).foldl (fun (r : Eng Nat) c =>
    engThen r fun k s =>
      engThen (s.engPut e units (lineOf c.1 % 2 ^ 64) [(c.1 % 64, c.2)]
          fun old => old.take (c.1 % 64) ++ (bs.drop k).take c.2 ++ old.drop (c.1 % 64 + c.2))
        fun _ s => (.ok (k + c.2), s)) (.ok 0, s))
    |> fun r => engThen r fun _ s => (.ok (), s)

/-- Generic address of a well offset (R209). -/
def wellGeneric (off : Nat) : Nat := 0x007FFF0000000000 + off

/-- Read and write a range of the well window by its offset. -/
def State.engWellRead (s : State) (e : Engine) (off n : Nat) : Eng (List Byte) := s.engRead e [] (wellGeneric off) n
def State.engWellWrite (s : State) (e : Engine) (off : Nat) (bs : List Byte) : Eng Unit := s.engWrite e [] (wellGeneric off) bs

/-! ### Checks at issue (R43, R237, R245), and a command's own record -/

/-- A well range, checked as R213 orders it: none when it is good. -/
def Ic.wellRange (c : Ic) (off n acc : Nat) : Option FaultRec :=
  if 0xC0000 < off + n then some { c.record .pageAbsent c.lane0 (BitVec.ofNat 64 off) acc with cause := 4 }
  else if n ≠ 0 && !c.b.wellMapped off n then some (c.record .wellDetached c.lane0 (BitVec.ofNat 64 off) acc)
  else none

/-- An operand base in the weight-store window (R43). -/
def State.wstoreBase? (s : State) (c : Ic) (a : BitVec 64) (write : Bool) : Option FaultRec :=
  match windowOf a with
  | .wstore _ =>
    if write then some (c.record .wstoreRO c.lane0 a 5)
    else if !(s.ctx c.b.ctx).wsread then some (c.record .pagePerm c.lane0 a 4)
    else none
  | _ => none

/-- The first fault of a list of checks. -/
def firstBad (xs : List (Option FaultRec)) : Option FaultRec := xs.findSome? id

/-- The first fault of checks of well ranges: an offset outside the window comes before an empty slot (R213). -/
def firstBadRange (xs : List (Option FaultRec)) : Option FaultRec :=
  (xs.findSome? fun x => x.filter fun r => r.code == FaultCode.pageAbsent.code).orElse fun _ => firstBad xs

def Ic.bad (c : Ic) (cond : Bool) (code : FaultCode) (a : BitVec 64 := 0) (acc : Nat := 0) : Option FaultRec :=
  if cond then some (c.record code c.lane0 a acc) else none

/-- The command that an instruction is about to issue, as its party (R310, R328). -/
def State.newEngine (s : State) (c : Ic) (i : Instr) : Engine :=
  let w := (s.warp? c.w.uid c.w.wid).getD c.w
  { id := s.nextId, uid := w.uid, wid := w.wid, lslot := w.lslot, eseq := w.eseq, ctx := c.b.ctx, gen := (s.ctx c.b.ctx).gen,
    core := w.core, pc := c.pc, lanes := c.active, op := i, args := [], token := none, acqNear := w.acqNear, acqWide := w.acqWide,
    issued := s.time }

/-- A fault that a command's access has found at issue, precise at the instruction (R237). -/
def Ic.engFault (c : Ic) (r : FaultRec) : FaultRec :=
  { c.record .illegal c.lane0 r.addr r.acc with
    code := r.code, cause := r.cause, level := r.level, okind := r.okind, oclass := r.oclass, odev := r.odev, oslot := r.oslot,
    onum := r.onum, opc := r.opc }

/-- Read a command's record of `n` bytes, which begins with a line, at issue (R237): an access of the command, checked and marked as
its party's (R238, R328). -/
def withRecord (s : State) (c : Ic) (i : Instr) (a : BitVec 64) (n : Nat) (k : Nat → State → Res) : Res :=
  if a.toNat % 64 ≠ 0 then .fault (c.record .align c.lane0 a 4)
  else
    match s.engRead (s.newEngine c i) (engineUnits c.w.core) a.toNat n with
    | (.ok bs, s) => k (natOfBytes bs) s
    | (.error .wait, _) => .stall s
    | (.error (.fatal r), _) => .fault (c.engFault r)
    | (.error (.repair r), _) => .fault (c.engFault r)
    | (.error (.held r), _) => .fault (c.engFault r)
    | (.error (.noRoute r), _) =>
      if s.askedLong c.w (lineOf r.addr.toNat) then .fault (c.engFault r)
      else .stall (s.modWarp c.w.uid c.w.wid fun w => w.asks (lineOf r.addr.toNat) s.time)

/-- Issue a command with its token once its checks are good. -/
def State.startCommand (s : State) (c : Ic) (i : Instr) (token : Nat) (args : List Nat) (checks : List (Option FaultRec)) : Res :=
  match firstBad checks with
  | some r => .fault r
  | none => .next (s.issueCommand c i (some token) args).2

/-! ### Tensor records (R241 to R243) -/

structure Tensor where
  base : Nat
  cmp : Bool
  fmt : Nat
  rank : Nat
  pad : Nat
  padval : Nat
  dims : List Nat
  strides : List Int
  box : List Nat
  seed : BitVec 64
  deriving DecidableEq, Repr

/-- Nibbles of an element (R242): none for a reserved code. -/
def fmtNibbles (fmt : Nat) : Option Nat :=
  if fmt = 0x01 ∨ fmt = 0x20 then some 2
  else if fmt = 0x02 ∨ fmt = 0x10 ∨ fmt = 0x11 then some 4
  else if fmt = 0x03 ∨ fmt = 0x12 then some 8
  else if fmt = 0x04 ∨ fmt = 0x13 then some 16
  else if fmt = 0x21 then some 1
  else none

def Tensor.en (t : Tensor) : Nat := (fmtNibbles t.fmt).getD 2

def signed32 (v : Nat) : Int := if v < 2 ^ 31 then v else (v : Int) - 2 ^ 32

/-- A tensor record (R241 to R243): none when a field breaks a rule. -/
def tensorOf (v : Nat) : Option Tensor :=
  let rank := fieldOf v 72 3
  let dims := (List.range 5).map fun k => fieldOf v (96 + 32 * k) 32
  let strides := (List.range 5).map fun k => signed32 (fieldOf v (256 + 32 * k) 32)
  let raw := ((List.range 4).map fun k => fieldOf v (416 + 8 * k) 8) ++ [1]
  let t : Tensor :=
    { base := fieldOf v 0 55, cmp := fieldOf v 63 1 == 1, fmt := fieldOf v 64 8, rank := rank, pad := fieldOf v 76 2,
      padval := fieldOf v 80 16, dims := dims, strides := strides, box := raw.map fun b => if b = 0 then 256 else b,
      seed := BitVec.ofNat 64 (fieldOf v 448 64) }
  let inner := (List.range 5).all fun k =>
    if k < rank then dims.getD k 0 != 0 else dims.getD k 0 == 0 && strides.getD k 0 == 0 && raw.getD k 1 == 1
  let rn4 := t.fmt != 0x21
    || (strides.getD 0 0 == 1 && raw.getD 0 1 % 2 == 0 && (strides.drop 1).all fun x => x % 2 == 0)
  if zeroAt v 55 8 && zeroAt v 78 2 && zeroAt v 75 1 && (fmtNibbles t.fmt).isSome && 1 ≤ rank && rank ≤ 5 && t.pad ≤ 1
      && inner && rn4 then some t
  else none

/-- Nibble address of an element (R243, R106). -/
def Tensor.nibAt (t : Tensor) (cs : List Int) : Nat :=
  let sum : Int := ((cs.zip t.strides).take t.rank).foldl (fun n x => n + x.1 * x.2) 0
  ((2 * t.base + sum * t.en) % (2 ^ 65 : Int)).toNat

def Tensor.inBounds (t : Tensor) (cs : List Int) : Bool :=
  ((cs.zip t.dims).take t.rank).all fun x => 0 ≤ x.1 && x.1 < x.2

/-- Coordinates clamped to the nearest element in bounds (R243). -/
def Tensor.clamp (t : Tensor) (cs : List Int) : List Int :=
  (cs.zip t.dims).map fun x => max 0 (min x.1 ((x.2 : Int) - 1))

/-- The padding pattern (R242). -/
def Tensor.padBits (t : Tensor) : Nat :=
  if t.fmt = 0x21 then t.padval % 16
  else if t.en = 2 then t.padval % 256
  else if t.fmt = 0x12 then t.padval * 65536
  else if t.fmt = 0x13 then widenImm (t.padval * 65536)
  else t.padval

/-- Where an element is read from: its nibble address, or none for the padding value. -/
def Tensor.source (t : Tensor) (cs : List Int) : Option Nat :=
  if t.inBounds cs then some (t.nibAt cs) else if t.pad = 1 then some (t.nibAt (t.clamp cs)) else none

/-- Offsets of a box in element order (R246): dimension 0 fastest. -/
def boxOffsets : List Nat → List (List Int)
  | [] => [[]]
  | n :: ns => (boxOffsets ns).flatMap fun rest => (List.range n).map fun (k : Nat) => (k : Int) :: rest

/-- Coordinates of a box's elements (R246). -/
def Tensor.boxCoords (t : Tensor) (origin : List Int) : List (List Int) :=
  (boxOffsets t.box).map fun o => (origin.zip o).map fun x => x.1 + x.2

def Tensor.boxCount (t : Tensor) : Nat := t.box.foldl (fun n b => n * b) 1

/-- Bytes of a box packed densely. -/
def Tensor.boxBytes (t : Tensor) : Nat := t.boxCount * t.en / 2

/-! ### Nibbles of memory, wells and tiles -/

/-- Join byte offsets into parts. -/
def joinBytes (bs : List Nat) : Parts :=
  bs.foldr (fun b r =>
    match r with
    | (x, n) :: t => if b + 1 = x then (b, n + 1) :: t else (b, 1) :: r
    | [] => [(b, 1)]) []

/-- The nibbles of elements of `en` nibbles: addresses. -/
def nibsOf (en : Nat) (as : List Nat) : List Nat := as.flatMap fun a => (List.range en).map fun k => a + k

/-- The lines that nibbles lie in, each once, with the parts of it that they touch. -/
def nibLines (ns : List Nat) : List (Nat × Parts) :=
  ((ns.map fun a => a / 128).eraseDups).map fun l =>
    (64 * l, joinBytes (((ns.filter fun a => a / 128 == l).map fun a => a / 2 % 64).eraseDups))

/-- Read the lines of nibbles, each with one request: its bytes as a number, by its address. -/
def State.engNibs (s : State) (e : Engine) (units : List TlbUnit) (ns : List Nat) : Eng (List (Nat × Nat)) :=
  (nibLines ns).foldl (fun (r : Eng (List (Nat × Nat))) x =>
    engThen r fun l s => engThen (s.engLine e units (x.1 % 2 ^ 64) x.2) fun bs s => (.ok (l ++ [(x.1, natOfBytes bs)]), s)) (.ok [], s)

/-- An element of `en` nibbles in lines that have been read. -/
def nibAt (ls : List (Nat × Nat)) (en a : Nat) : Nat :=
  (List.range en).foldl (fun n k =>
    n + fieldOf ((assocGet ls (64 * ((a + k) / 128))).getD 0) (4 * ((a + k) % 128)) 4 * 16 ^ k) 0

/-- Change one half of a byte of a line. -/
def putNib (bs : List Byte) (k v : Nat) : List Byte :=
  bs.modify (k / 2) fun b => BitVec.ofNat 8 (if k % 2 = 0 then b.toNat / 16 * 16 + v % 16 else b.toNat % 16 + v % 16 * 16)

/-- Write elements of `en` nibbles, each line of them with one request; the other half of a byte stays. -/
def State.engNibPuts (s : State) (e : Engine) (units : List TlbUnit) (en : Nat) (xs : List (Nat × Nat)) : Eng Unit :=
  let vs : List (Nat × Nat) := xs.flatMap fun x => (List.range en).map fun k => (x.1 + k, x.2 / 16 ^ k % 16)
  (nibLines (vs.map Prod.fst)).foldl (fun (r : Eng Unit) x =>
    engThen r fun _ s =>
      s.engPut e units (x.1 % 2 ^ 64) x.2 fun old =>
        (vs.filter fun v => 64 * (v.1 / 128) == x.1).foldl (fun bs v => putNib bs (v.1 % 128) v.2) old) (.ok (), s)

/-- A dense place for elements: a well offset, or a tile. -/
inductive Dense where
  | well (off : Nat)
  | tile (t : Nat)
  deriving DecidableEq, Repr

/-- Element `i` of `n` nibbles in a tile's bytes. -/
def Block.tileNibs (b : Block) (t i n : Nat) : Nat :=
  let pos := i * n
  (cget b.tiles (4096 * t + pos / 4)).toNat / 16 ^ (pos % 4) % 16 ^ n

def Block.tileNibPut (b : Block) (t i n v : Nat) : Block :=
  let pos := i * n
  let key := 4096 * t + pos / 4
  let old := (cget b.tiles key).toNat
  let new := old - old / 16 ^ (pos % 4) % 16 ^ n * 16 ^ (pos % 4) + v % 16 ^ n * 16 ^ (pos % 4)
  { b with tiles := cset b.tiles key (BitVec.ofNat 16 new) }

/-- Read elements by their places in a dense region. -/
def State.denseGets (s : State) (e : Engine) (d : Dense) (n : Nat) (is : List Nat) : Eng (List Nat) :=
  match d with
  | .well off =>
    let at' (i : Nat) : Nat := 2 * wellGeneric off + i * n
    engThen (s.engNibs e [] (nibsOf n (is.map at'))) fun ls s => (.ok (is.map fun i => nibAt ls n (at' i)), s)
  | .tile t => (.ok (is.map fun i => (s.engBlock e).tileNibs t i n), s)

/-- The tile elements of a block that is off its core are in its save slot too (R48, R249). -/
def State.tileSaved (s : State) (uid t i n : Nat) : State :=
  match s.block? uid with
  | none => s
  | some b =>
    match b.st with
    | .evicted _ =>
      let key := 4096 * t + i * n / 4
      s.saveMod b (saveTilesAt b.kernel b.nwarps + 2 * key) 2 fun _ => (cget b.tiles key).toNat
    | _ => s

/-- The cells of an accumulator of a block that is off its core are in its save slot too (R48, R261). -/
def State.accSaved (s : State) (uid a : Nat) : State :=
  match s.block? uid with
  | none => s
  | some b =>
    match b.st with
    | .evicted _ =>
      (List.range 256).foldl (fun (s : State) k =>
        s.saveMod b (saveAccsAt b.kernel b.nwarps + 16384 * a + 64 * k) 64 fun _ =>
          natOfBytes ((cgets b.accs (4096 * a + 16 * k) 16).flatMap wordBytes)) s
    | _ => s

/-- Write elements by their places in a dense region. -/
def State.densePuts (s : State) (e : Engine) (d : Dense) (n : Nat) (xs : List (Nat × Nat)) : Eng Unit :=
  match d with
  | .well off => s.engNibPuts e [] n (xs.map fun x => (2 * wellGeneric off + x.1 * n, x.2))
  | .tile t =>
    (.ok (), xs.foldl (fun (s : State) x => (s.modBlock e.uid fun b => b.tileNibPut t x.1 n x.2).tileSaved e.uid t x.1 n) s)

/-! ### Moving boxes (R246, R249) -/

/-- Group neighbours with one key. -/
def runsOf {α : Type} (key : α → Option Nat) : List α → List (List α)
  | [] => []
  | x :: xs =>
    match runsOf key xs with
    | (y :: ys) :: rest => if key x = key y then (x :: y :: ys) :: rest else [x] :: (y :: ys) :: rest
    | other => [x] :: other

/-- An element of a box, or a piece of one: its index, and the nibble address it is read from or written to, if any. -/
abbrev BoxElem := Nat × Option Nat

/-- The elements of a box for a load (`store = false`) or a store. -/
def Tensor.elems (t : Tensor) (origin : List Int) (store : Bool) : List BoxElem :=
  let cs := t.boxCoords origin
  (List.range cs.length).zip (cs.map fun c => if store then (if t.inBounds c then some (t.nibAt c) else none) else t.source c)

/-- Nibbles of the pieces that a box is moved in: whole elements, or bytes of them where the source is not aligned to its elements,
so that an element may lie on both sides of a 64-byte source boundary (R246). -/
def Tensor.grain (t : Tensor) (store : Bool) (lead : Nat) : Nat :=
  if (if store then 2 * lead else 2 * t.base) % t.en = 0 then t.en else 2

/-- The pieces of a box, in element order. -/
def Tensor.pieces (t : Tensor) (origin : List Int) (store : Bool) (grain : Nat) : List BoxElem :=
  let k := t.en / grain
  if k ≤ 1 then t.elems origin store
  else (t.elems origin store).flatMap fun x => (List.range k).map fun j => (x.1 * k + j, x.2.map fun a => a + j * grain)

/-- The units of a box: neighbours of which each lies in the same 64-byte line, or is padding (R246). A store's source
is dense: its units end with the source's lines. -/
def Tensor.units (t : Tensor) (origin : List Int) (store : Bool) (lead : Nat) : List (List BoxElem) :=
  let g := t.grain store lead
  runsOf (fun x => if store then some ((2 * lead + x.1 * g) / 128) else x.2.map fun a => a / 128) (t.pieces origin store g)

/-- Move one unit of a box, of pieces of `g` nibbles: the whole of it is read, and then written (R246). -/
def State.moveUnit (s : State) (e : Engine) (t : Tensor) (store : Bool) (g : Nat) (d : Dense) (xs : List BoxElem) : Eng Unit :=
  let units := quillUnits e.core
  if store then
    let there := xs.filter fun x => x.2.isSome
    engThen (s.denseGets e d g (there.map Prod.fst)) fun vs s =>
      s.engNibPuts e units g ((there.map fun x => x.2.getD 0).zip vs)
  else
    engThen (s.engNibs e units (nibsOf g (xs.filterMap Prod.snd))) fun ls s =>
      s.densePuts e d g (xs.map fun x =>
        match x.2 with
        | some a => (x.1, nibAt ls g a)
        | none => (x.1, t.padBits / 16 ^ (x.1 % (t.en / g) * g) % 16 ^ g))

/-- The pages of a box from a unit on, in box order, each once (R415): their first addresses. -/
def unitPages (us : List (List BoxElem)) : List Nat :=
  ((us.flatMap fun xs => xs.filterMap Prod.snd).map fun a => a / 2 / 65536 * 65536).eraseDups

/-- The Quill walks pages ahead in box order, 32 at most; how far it has come is free (R415, log entry 77). A fault that it finds
there is not delivered. -/
def State.walkAhead (s : State) (core ctx : Nat) (pages : List Nat) : State :=
  if pages.isEmpty then s
  else
    let (k, s) := s.draw 10 33
    (pages.take k).foldl (fun (s : State) p =>
      match windowOf (BitVec.ofNat 64 p) with
      | .global va => (s.pickPte (quillUnits core) ctx va).2
      | _ => s) s

/-! ### The work of each command, in units (R246, R249, R251) -/

def Engine.arg (e : Engine) (k : Nat) : Nat := e.args.getD k 0

/-- The tensor record and box origin that a command holds: record, then origins, from argument `k`. -/
def Engine.tensor (e : Engine) : Tensor := (tensorOf (e.arg 0)).getD ⟨0, false, 1, 1, 0, 0, [], [], [], 0⟩
def Engine.origin (e : Engine) (k : Nat) : List Int := (List.range 5).map fun j => signed32 (e.arg (k + j))

/-- Elements of a row of `gpool` (R250). -/
def poolElems (fmt rowb : Nat) : Nat := if fmt = 0 then rowb / 4 else if fmt = 1 then rowb / 2 else rowb - 4

/-- A NaN in canonical form. -/
def canon32 (x : Nat) : Nat := (fmt32.round .ne (fmt32.dec x)).1

/-- The elements of a row (R251). -/
def poolRow (fmt n : Nat) (bs : List Byte) : List Nat :=
  let at' (k len : Nat) : Nat := natOfBytes ((bs.drop k).take len)
  (List.range n).map fun i =>
    if fmt = 0 then canon32 (at' (4 * i) 4)
    else if fmt = 1 then canon32 (at' (2 * i) 2 * 65536)
    else (fmt32.mulV .ne (FVal.ofInt (rn8 (at' i 1))) (fmt32.dec (at' n 4))).1

/-- Take one row into a bag's sums (R251). -/
def poolAdd (op : Nat) (first : Bool) (w : Option Nat) (ys xs : List Nat) : List Nat :=
  let xs := match w with
    | some w => xs.map fun x => mulNe fmt32 w x
    | none => xs
  if first then xs
  else (ys.zip xs).map fun p => if op = 2 then (fmt32.minmax true p.1 p.2).1 else addNe fmt32 p.1 p.2

/-- Divide a sum by a count, rounded once (R251). -/
def poolMean (y n : Nat) : Nat :=
  match fmt32.dec y with
  | .num neg m e => (fmt32.divNum .ne neg m e false n 0).1
  | _ => canon32 y

/-- One bag of `gpool` (R251, R252): status 3 for an index out of range. -/
def State.poolBag (s : State) (e : Engine) (b : Nat) : Eng (Option Nat) :=
  let v := e.arg 0
  let units := engineUnits e.core
  let op := fieldOf v 408 8
  let fmt := fieldOf v 400 8
  let wts := fieldOf v 256 64
  let rowb := fieldOf v 64 32
  let n := poolElems fmt rowb
  engThen (s.engNat e units (fieldOf v 192 64 + 4 * b) 4) fun lo s =>
  engThen (s.engNat e units (fieldOf v 192 64 + 4 * b + 4) 4) fun hi s =>
  if hi < lo then (.ok (some 3), s)
  else
    let ks := (List.range (hi - lo)).map fun k => lo + k
    engThen (ks.foldl (fun (r : Eng (List Nat)) k =>
      engThen r fun l s => engThen (s.engNat e units (fieldOf v 128 64 + 4 * k) 4) fun i s => (.ok (l ++ [i]), s)) (.ok [], s))
      fun idx s =>
    if idx.any fun r => fieldOf v 96 32 ≤ r then (.ok (some 3), s)
    else
      let zero := List.replicate n 0
      engThen ((ks.zip idx).foldl (fun (r : Eng (List Nat)) x =>
        engThen r fun ys s =>
          engThen (s.engRead e units (fieldOf v 0 64 + x.2 * rowb) rowb) fun row s =>
            if wts = 0 then (.ok (poolAdd op (x.1 == lo) none ys (poolRow fmt n row)), s)
            else
              engThen (s.engNat e units (wts + 4 * x.1) 4) fun w s =>
                (.ok (poolAdd op (x.1 == lo) (some w) ys (poolRow fmt n row)), s)) (.ok zero, s)) fun ys s =>
      let ys := if op = 1 ∧ hi ≠ lo then ys.map fun y => poolMean y (hi - lo) else ys
      engThen (s.engWellWrite e (fieldOf v 352 32 + 4 * n * b) (ys.flatMap fun y => bytesOfNat 4 y)) fun _ s => (.ok none, s)

/-- Does a mark of some context that is neither dead nor expired stand on a line or its far page, in the L2, in its side band or in
the far-mark table (R420)? -/
def State.liveMarks (s : State) (ctx : Nat) (x : Xlat) : Bool × State :=
  if x.loc = locPeer then
    -- other devices' marks at the owner, and the end of its phase, are not known here (log entry 35)
    let (k, s) := s.draw 6 3
    (k = 1 || (k = 0 && (s.peerLine (lineOf x.pa)).live), s)
  else
    let known := if x.loc = locLocal then s.markCtxs (lineOf x.pa) else s.ctxs.map Ctx.id
    ((if known.contains ctx then known else ctx :: known).any fun c => (s.readMarks c x.loc x.pa).1.live, s)

/-- Where a copy of whole lines goes, with what may stop it (R239, R419). -/
def State.copyPlace (s : State) (e : Engine) (va acc : Nat) (need : Need) : Eng Xlat :=
  match s.xlat (engineUnits e.core) e.ctx va need with
  | (.error x, s) =>
    let r := s.engRecord e x.code va acc x.cause x.level
    (.error (if x.code = .pageFatal then .fatal r else .repair r), s)
  | (.ok x, s) =>
    if need == .write && x.mig then (.error (.held (s.engRecord e .pageAbsent va acc 3)), s)
    else if !s.routed x.loc then (.error (.noRoute (s.engRecord e .pageFatal va acc)), s)
    else
      match s.engHome e x.loc x.pa with
      | none => (.error .wait, s)
      | some s => (.ok x, s.forward e.core e.ctx va x.loc x.pa x.tpin)

/-- One line of `acopy.sb` (R245, R396, R420): data and the whole side band, the marks left behind being dead or expired. -/
def State.copyBand (s : State) (e : Engine) (src dst : Nat) : Eng (Option Nat) :=
  engThen (s.copyPlace e src 4 .read) fun x s =>
  engThen (s.copyPlace e dst 5 .write) fun y s =>
    let (live, s) := if x.chk then s.liveMarks e.ctx x else (false, s)
    if live then (.error (.fatal { s.engRecord e .markCapacity src 4 with okind := 4 }), s)
    else
      let from' := lineOf x.pa
      let line := lineOf y.pa
      if s.badWords from' ≠ 0 then (.error (.fatal (s.engRecord e .eccUncorrectable src 4)), s.eccDone from')
      else if x.loc = locIO ∨ y.loc = locIO then
        let (bs, s) := if x.loc = locIO then s.drawBytes 64 else (readBytes s.mem from' 64, s)
        (.ok none, if y.loc = locIO then { s with ioLog := s.ioLog ++ [(line, bs)] } else s.softBytes line bs)
      else
        let b := ((s.l2.find? fun z => z.line == from').map s.bandOut).getD (s.band from')
        let g := s.guard line (BitVec.allOnes 64) (s.lineData from')
        let s := { s with mem := writeMasked s.mem line g.1 g.2, l2 := s.l2.filter fun z => z.line != line }
        (.ok none, (s.setBand { b with line := line }).bindWake line 64)

/-- One line of `acopy.wsl` (R245, R408): neither checked nor marked (R294). -/
def State.copyStore (s : State) (e : Engine) (src off : Nat) : Eng (Option Nat) :=
  engThen (s.engRead e (engineUnits e.core) src 64 false) fun bs s =>
    if !(s.die (off / 2 ^ 30)).weightLoad then (.error (.fatal (s.engRecord e .wstoreRO (0x007FFC0000000000 + off) 5)), s)
    else if s.wsOpen (wstoreBase + off) || (s.die (off / 2 ^ 30)).relock.isSome then (.error .wait, s)
    else (.ok none, { (s.homeBytes (wstoreBase + off) bs) with wstoreBad := cclear s.wstoreBad (off / 8) 8 })

/-- Bytes of a collective element (R253). -/
def collElem (redop : Nat) : Nat := if redop = 1 then 2 else 4

/-- How many units a command has. -/
def Engine.units (e : Engine) : Nat :=
  match e.op with
  | .acopy f => (chunks (f.imm.toNat / 64 + 2) (if f.mod.getLsbD 0 then e.arg 1 else e.arg 0) f.imm.toNat).length
  | .acopyWsl f => f.imm.toNat / 64
  | .acopySb f => f.imm.toNat / 64
  | .acopyT f => (e.tensor.units (e.origin 3) (f.mod.getLsbD 0) (e.arg 1)).length
  | .tld _ => (e.tensor.units (e.origin 1) false 0).length
  | .tst _ => (e.tensor.units (e.origin 1) true 0).length
  | .gpool _ => fieldOf (e.arg 0) 320 32
  | .coll _ => 1
  | .send _ => 1
  | _ => 0

/-- Bytes that one unit moves (R246). The bytes of the elements of a stored box that lie outside the tensor, which are not written,
count as the others do (DESIGN CHOICE, log entry 24). -/
def Engine.unitBytes (e : Engine) (k : Nat) : Nat :=
  match e.op with
  | .acopy f =>
    ((chunks (f.imm.toNat / 64 + 2) (if f.mod.getLsbD 0 then e.arg 1 else e.arg 0) f.imm.toNat).getD k (0, 0)).2
  | .acopyT f =>
    let g := e.tensor.grain (f.mod.getLsbD 0) (e.arg 1)
    let xs := (e.tensor.units (e.origin 3) (f.mod.getLsbD 0) (e.arg 1)).getD k []
    let i := (xs.head?.map Prod.fst).getD 0
    -- a byte that two units share counts with the later one
    (i + xs.length) * g / 2 - i * g / 2
  | _ => 0

/-- Issued and uncompleted matrix operations older than a command read its tile (R261). -/
def State.tileBusy (s : State) (e : Engine) (t : Nat) : Bool :=
  (s.cores.flatMap Core.matq).any fun id =>
    id < e.id && (s.engine? id).any fun m =>
      m.uid == e.uid &&
        match m.op with
        | .mma f => (mmaTiles f).contains t
        | _ => false

/-- Unit `k` of a command that copies or pools: an early status, or nothing. -/
def State.engUnit (s : State) (e : Engine) (k : Nat) : Eng (Option Nat) :=
  match e.op with
  | .acopy f =>
    let store := f.mod.getLsbD 0
    let src := if store then e.arg 1 else e.arg 0
    let dst := if store then e.arg 0 else e.arg 1
    let c := (chunks (f.imm.toNat / 64 + 2) src f.imm.toNat).getD k (0, 0)
    let units := engineUnits e.core
    if store then
      engThen (s.engWellRead e c.1 c.2) fun bs s => engThen (s.engWrite e units (dst + (c.1 - src)) bs) fun _ s => (.ok none, s)
    else
      engThen (s.engRead e units c.1 c.2) fun bs s => engThen (s.engWellWrite e (dst + (c.1 - src)) bs) fun _ s => (.ok none, s)
  | .acopyWsl _ => s.copyStore e (e.arg 0 + 64 * k) (e.arg 1 + 64 * k)
  | .acopySb _ => s.copyBand e (e.arg 0 + 64 * k) (e.arg 1 + 64 * k)
  | .acopyT f =>
    let store := f.mod.getLsbD 0
    engThen (s.moveUnit e e.tensor store (e.tensor.grain store (e.arg 1)) (.well (e.arg 1))
        ((e.tensor.units (e.origin 3) store (e.arg 1)).getD k []))
      fun _ s => (.ok none, s)
  | .tld f =>
    if s.tileBusy e f.aux.toNat then (.error .wait, s)
    else
      engThen (s.moveUnit e e.tensor false (e.tensor.grain false 0) (.tile f.aux.toNat)
          ((e.tensor.units (e.origin 1) false 0).getD k []))
        fun _ s => (.ok none, s)
  | .tst f =>
    engThen (s.moveUnit e e.tensor true (e.tensor.grain true 0) (.tile f.aux.toNat)
        ((e.tensor.units (e.origin 1) true 0).getD k []))
      fun _ s => (.ok none, s)
  | .gpool _ => s.poolBag e k
  | _ => (.error .wait, s)

/-- What becomes of a command that runs on: finished with a status, or stopped; the units done; and the state. -/
structure Ran where
  stop : Except EngStop Nat
  progress : Nat
  s : State
  deriving Repr

/-- Run units one after another, `fuel` at most. The bags of `gpool`, which may run in any order and in parallel, run in ascending
order (R251; DESIGN CHOICE, log entry 90). -/
def runUnits : Nat → State → Engine → Nat → Ran
  | 0, s, _, k => { stop := .ok 0, progress := k, s := s }
  | fuel + 1, s, e, k =>
    match s.engUnit e k with
    | (.ok none, s) => runUnits fuel s e (k + 1)
    | (.ok (some st), s) => { stop := .ok st, progress := k, s := s }
    | (.error x, s) => { stop := .error x, progress := k, s := s }

/-- The pages that a command's Quill may walk now (R415): those of the units still to be read. -/
def Engine.aheadPages (e : Engine) : List Nat :=
  match e.op with
  | .acopyT f => unitPages ((e.tensor.units (e.origin 3) (f.mod.getLsbD 0) (e.arg 1)).drop e.progress)
  | .tld _ => unitPages ((e.tensor.units (e.origin 1) false 0).drop e.progress)
  | .tst _ => unitPages ((e.tensor.units (e.origin 1) true 0).drop e.progress)
  | _ => []

/-- The Quill walks ahead for a command. -/
def State.quillAhead (s : State) (id : Nat) : State :=
  match s.engine? id with
  | some e => s.walkAhead e.core e.ctx e.aheadPages
  | none => s

/-- Does a command count its units on a stage barrier (R245)? -/
def Engine.counts (e : Engine) : Bool :=
  match e.op with
  | .acopy f => f.mod.getLsbD 1
  | .acopyT f => f.mod.getLsbD 1
  | _ => false

/-! ### Stage barriers (R247) -/

/-- Word of a command's stage barrier. -/
def State.barrierKey (s : State) (e : Engine) : Option Nat := (s.engBlock e).wellAt (e.arg 2)

/-- Poison a stage barrier: bit 31, full, and its tag; its waiters fault. -/
def State.poisonBarrier (s : State) (e : Engine) : State :=
  match s.barrierKey e with
  | none => s
  | some key =>
    let s := (s.wellPutSoft key (s.wellGet key ||| 0x80000000)).wellSetFull key true
    ({ s with wellPoison := cset s.wellPoison key 1 }).serve key

/-- The release of a command's counted bytes, at cluster scope (R247). -/
def State.engRel (s : State) (e : Engine) (scope : Nat) : Rel := { party := some (e.uid, e.wid, e.core), scope := scope, stamp := s.time }

/-- Count the bytes of a unit: whether the barrier was overcounted. The tail of an open ring stays as it is (R10, R256). -/
def State.countUnit (s : State) (e : Engine) (n : Nat) : Bool × State :=
  match s.barrierKey e with
  | none => (false, s)
  | some key =>
    let remain := (s.wellGet key).toNat % 2 ^ 31
    if s.wellIsFull key || remain < n then (true, s.poisonBarrier e)
    else
      let s := s.wellPutSoft key (BitVec.ofNat 32 ((s.wellGet key).toNat - n))
      if remain = n then (false, (((s.wellSetFull key true).relSet (wellStampAt key) [s.engRel e 2]).serve key)) else (false, s)

/-- A running command that may go on: its die's clock runs (R459, R462). -/
def State.running (s : State) (id : Nat) : Option Engine :=
  (s.engine? id).filter fun e => e.st == .running && !s.plat.stopped && (s.die (coreDie e.core)).relock.isNone

/-- A command that ends with status 1 and a code (R239, R247, R426): nothing waits on its record. -/
def State.failEngine (s : State) (e : Engine) (r : FaultRec) : State :=
  let s := if e.counts then s.poisonBarrier e else s
  (s.completeEngine e.id 1 r.code.toNat).report e.core { r with src := 2 }

/-- Is the word that a command counts on beyond correction (R402)? -/
def State.barrierBad (s : State) (e : Engine) : Bool := (s.barrierKey e).any fun key => cget s.wellBad key == 1

/-- STAGE_BARRIER_COUNT (R246, R247): one unit is moved and counted. -/
def execStageBarrierCount (eng : Nat) (s : State) : Out :=
  happens s <|
    match s.running eng with
    | none => none
    | some e =>
      if !e.counts || e.units ≤ e.progress then none
      else
        match s.engUnit e e.progress with
        | (.ok _, s) =>
          if s.barrierBad e then some (s.failEngine e (s.engRecord e .eccUncorrectable (wellGeneric (e.arg 2)) 5))
          else
            let s := s.modEngine eng fun e => { e with progress := e.progress + 1, heldAt := none, routeAt := none }
            let (beyond, s) := s.countUnit e (e.unitBytes e.progress)
            some (if beyond then s.completeEngine eng 2 0 else s.quillAhead eng)
        | (.error _, _) => none

/-! ### Collectives (R253 to R255, R469, R470) -/

def State.group? (s : State) (n : Nat) : Option CollGroup := (s.groups.find? fun g => g.num == n).filter CollGroup.valid

/-- Fields of a collective's descriptor. -/
def collOp (v : Nat) : Nat := fieldOf v 160 8
def collRedop (v : Nat) : Nat := fieldOf v 168 8
def collCount (v : Nat) : Nat := fieldOf v 128 32

/-- Bytes of a member's block, and of the whole vector that travels the tree. -/
def collBlock (v : Nat) : Nat := collCount v * collElem (collRedop v)
def collBytes (v size : Nat) : Nat := if 3 ≤ collOp v then size * collBlock v else collBlock v

/-- One element of a reduction (R254). -/
def collAdd (redop x y : Nat) : Nat :=
  match redop with
  | 0 => addNe fmt32 x y
  | 1 => addNe fmtB16 x y
  | 2 => (x + y) % 2 ^ 32
  | 3 => (fmt32.minmax true x y).1
  | _ => (fmt32.minmax false x y).1

/-- An operand of a reduction as the reduction's result, when it has no other operand: a NaN becomes canonical (R100). -/
def collCanon (v : Nat) (xs : List Byte) : List Byte :=
  if collOp v = 2 ∨ collOp v = 3 ∨ collRedop v = 2 then xs
  else
    let n := collElem (collRedop v)
    let canon (x : Nat) : Nat := if collRedop v = 1 then (fmtB16.round .ne (fmtB16.dec x)).1 else canon32 x
    (List.range (xs.length / n)).flatMap fun k => bytesOfNat n (canon (natOfBytes ((xs.drop (n * k)).take n)))

/-- Combine two vectors: reduced element by element, or, where each byte comes from one member, joined. -/
def collJoin (v : Nat) (xs ys : List Byte) : List Byte :=
  if collOp v = 2 ∨ collOp v = 3 then (List.range xs.length).map fun k => xs.getD k 0 ||| ys.getD k 0
  else
    let n := collElem (collRedop v)
    (List.range (xs.length / n)).flatMap fun k =>
      bytesOfNat n (collAdd (collRedop v) (natOfBytes ((xs.drop (n * k)).take n)) (natOfBytes ((ys.drop (n * k)).take n)))

/-- Key under which a node keeps its own contribution among the partials: below every child's. -/
def ownKey : Nat := 0
def childKey (rank : Nat) : Nat := rank + 1

/-- Read the node's own contribution (R254). -/
def State.collOwn (s : State) (e : Engine) (g : CollGroup) : Eng (List Byte) :=
  let v := e.arg 0
  let units := engineUnits e.core
  let n := collBytes v g.size
  if collOp v = 2 then
    if fieldOf v 288 32 = g.rank then s.engRead e units (fieldOf v 0 64) n else (.ok (List.replicate n 0), s)
  else if collOp v = 3 then
    engThen (s.engRead e units (fieldOf v 0 64) (collBlock v)) fun bs s =>
      (.ok (List.replicate (g.rank * collBlock v) 0 ++ bs ++ List.replicate (n - (g.rank + 1) * collBlock v) 0), s)
  else s.engRead e units (fieldOf v 0 64) n

/-- Have the own contribution among the partials. -/
def State.collWithOwn (s : State) (e : Engine) (g : CollGroup) : Eng Engine :=
  if e.partials.any fun p => p.1 == ownKey then (.ok e, s)
  else
    engThen (s.collOwn e g) fun bs s =>
      let e := { e with partials := (ownKey, bs) :: e.partials }
      (.ok e, s.modEngine e.id fun _ => e)

/-- Child ranks of a group, ascending (R469); addresses of tables are device physical. -/
def State.childRanks (s : State) (g : CollGroup) : List Nat :=
  (List.range g.nchild).map fun k => readNat s.mem (g.chlist.toNat + 8 * k + 4) 4

/-- The tree's root: the member of rank 0 (log entry 22). -/
def CollGroup.isRoot (g : CollGroup) : Bool := g.rank == 0

/-- The node's sum, once its own contribution and every child's partial are there (R254). -/
def State.collSum (s : State) (e : Engine) (g : CollGroup) : Option (List Byte) :=
  let keys := ownKey :: (s.childRanks g).map childKey
  match allSome (keys.map fun k => assocGet e.partials k) with
  | some (x :: xs) => some (xs.foldl (collJoin (e.arg 0)) (collCanon (e.arg 0) x))
  | _ => none

/-- The vector a member receives: the root's own sum, or what has come down the tree. -/
def State.collResult (s : State) (e : Engine) (g : CollGroup) : Option (List Byte) :=
  match e.result with
  | some r => some r
  | none => if g.isRoot then s.collSum e g else none

/-- Write the destination (R253, R254). -/
def State.collStore (s : State) (e : Engine) (g : CollGroup) (r : List Byte) : Eng Unit :=
  let v := e.arg 0
  let dst := fieldOf v 64 64
  let units := engineUnits e.core
  if collOp v = 1 ∧ fieldOf v 288 32 ≠ g.rank then (.ok (), s)
  else if collOp v = 4 then s.engWrite e units dst ((r.drop (g.rank * collBlock v)).take (collBlock v))
  else s.engWrite e units dst r

/-- Run a collective as far as this device can (R254). -/
def State.runColl (s : State) (e : Engine) : Ran :=
  let n := fieldOf (e.arg 0) 192 32
  match s.group? n with
  | none => { stop := .error (.fatal (s.engRecord e .illegal 0 0)), progress := 0, s := s }
  | some g =>
    if fieldOf (e.arg 0) 224 32 ≠ g.rank then { stop := .error (.fatal (s.engRecord e .illegal 0 0)), progress := 0, s := s }
    else
      match s.collWithOwn e g with
      | (.error x, s) => { stop := .error x, progress := 0, s := s }
      | (.ok e, s) =>
        match s.collResult e g with
        | none => { stop := .error .wait, progress := 0, s := s }
        | some r =>
          match s.collStore e g r with
          | (.ok _, s) => { stop := .ok 0, progress := 1, s := s }
          | (.error x, s) => { stop := .error x, progress := 0, s := s }

/-- A collective that runs and whose job has its slice (R255). -/
def State.collective (s : State) (id : Nat) : Option Engine :=
  (s.running id).filter fun e => e.offSince.isNone &&
    match e.op with
    | .coll _ => true
    | _ => false

/-- How this member has joined the operation (R255). -/
def collHead (v : Nat) : CollHead := { op := collOp v, redop := collRedop v, count := collCount v, root := fieldOf v 288 32 }

/-- COLL_PARTIAL_RECEIVE (R254, R255, R470): a member that has joined with another operation ends it for every member. -/
def execCollPartialReceive (eng child : Nat) (fromRoot : Bool) (x : CollPartial) (s : State) : Out :=
  happens s <|
    match s.collective eng with
    | none => none
    | some e =>
      match s.group? (fieldOf (e.arg 0) 192 32) with
      | none => none
      | some g =>
        if x.head ≠ collHead (e.arg 0) ∨ x.data.length ≠ collBytes (e.arg 0) g.size then
          some (s.failEngine e (s.engRecord e .illegal 0 0))
        else
          match s.collWithOwn e g with
          | (.error _, _) => none
          | (.ok e, s) =>
            if fromRoot then
              if g.isRoot || e.result.isSome then none else some (s.modEngine eng fun _ => { e with result := some x.data })
            else if !((s.childRanks g).contains child) || (assocGet e.partials (childKey child)).isSome then none
            else some (s.modEngine eng fun _ => { e with partials := e.partials ++ [(childKey child, x.data)] })

/-! ### Ending, suspending and waiting (R39, R239, R240, R419) -/

/-- Run a command on for `n` units, or as far as it can get now. A counting copy moves its units by STAGE_BARRIER_COUNT, of which
the next one is only tried. -/
def State.runEngine (s : State) (e : Engine) (n : Nat) : Ran :=
  match e.op with
  | .coll _ => s.runColl e
  | .send _ =>
    match s.engRead e (engineUnits e.core) (e.arg 0) 64 with
    | (.ok _, s) => { stop := .error .wait, progress := 0, s := s }
    | (.error x, s) => { stop := .error x, progress := 0, s := s }
  | _ =>
    if !e.counts then
      let r := runUnits (min n (e.units - e.progress)) s e e.progress
      match r.stop with
      | .ok 0 => if r.progress < e.units then { r with stop := .error .wait } else r
      | _ => r
    else if e.units ≤ e.progress then { stop := .ok 0, progress := e.progress, s := s }
    else
      match s.engUnit e e.progress with
      | (.ok _, s) => { stop := .error .wait, progress := e.progress, s := s }
      | (.error x, s) => { stop := .error x, progress := e.progress, s := s }

/-- Commands that an event of their own completes. -/
def Engine.selfEnds (e : Engine) : Bool :=
  match e.op with
  | .mma _ => true
  | .mconv _ => true
  | .launch _ => true
  | .tsub _ => true
  | .spawn _ => true
  | _ => false

/-- ENGINE_COMPLETION (R39, R239, R240, R246): a command moves up to `x.units` units. It has ended, or one of its writes begins to wait
at a migrating page, or an access of it for a route (R468), or it goes on from there. -/
def execEngineCompletion (x : EngineRun) (s : State) : Out :=
  happens s <|
    match s.running x.eng with
    | none => none
    | some e =>
      if e.selfEnds || e.offSince.isSome then none
      else
        let r := s.runEngine e x.units
        match r.stop with
        | .ok st => some ((r.s.modEngine x.eng fun e => { e with progress := r.progress, heldAt := none }).completeEngine x.eng st 0)
        | .error (.fatal f) => some (r.s.failEngine e f)
        | .error (.held _) =>
          if e.heldAt.isSome then none
          else some (r.s.modEngine x.eng fun e => { e with progress := r.progress, heldAt := some s.time, routeAt := none })
        | .error (.noRoute _) =>
          if e.routeAt.isSome && r.progress ≤ e.progress then none
          else some (r.s.modEngine x.eng fun e => { e with progress := r.progress, heldAt := none, routeAt := some s.time })
        | .error _ =>
          if r.progress ≤ e.progress then none
          else some ((r.s.modEngine x.eng fun e => { e with progress := r.progress, heldAt := none, routeAt := none }).quillAhead x.eng)

/-- COLL_ABORT_RECEIVE (R255, R470). -/
def execCollAbortReceive (eng : Nat) (code : Byte) (s : State) : Out :=
  happens s <|
    match s.engine? eng with
    | none => none
    | some e =>
      match e.op with
      | .coll _ =>
        if e.st == .done then none
        else some ((s.completeEngine eng 1 code.toNat).report e.core { s.engRecord e .illegal 0 0 with code := code, src := 2 })
      | _ => none

/-- COLL_TIMEOUT (R255): a suspended operation's time runs on (R239). -/
def execCollTimeout (eng : Nat) (s : State) : Out :=
  happens s <|
    match (s.engine? eng).filter fun e => isColl e.op && !(e.st == .done) && e.offSince.isNone with
    | none => none
    | some e =>
      let t := fieldOf (e.arg 0) 256 32
      if s.time < e.issued + e.paused + 1000 * (if t = 0 then 1000000 else t) then none
      else some (s.completeEngine eng 2 0)

end Sys2Proof.Machine
end

