-- ==== Sys2Proof/Machine/Work.lean ====
section
/-! DEFINITION. Work creation (class 0x04): `launch`, `spawn`, `merge`, `sync.spawn`, `tsub` and `tsig`. -/

namespace Sys2Proof.Machine

/-! ### Grids (R193) -/

/-- Queue a grid (R31, R193, R358): it takes the context's next `%gid`, which counts up from 1 modulo 2^32 (DESIGN CHOICE, log entry
93). The grid's own name, and the state. -/
def State.newGrid (s : State) (g : Grid) : Nat × State :=
  let num := (s.ctx g.ctx).nextGid
  let g := { g with gid := s.nextId, num := num, gen := (s.ctx g.ctx).gen, readyAt := s.time,
                    readyCyc := s.homeCycle g.launch.queue }
  (g.gid, { s with nextId := s.nextId + 1, grids := s.grids ++ [g] }.modCtx g.ctx fun c => { c with nextGid := num + 1 })

/-- LAUNCH (R193). -/
def execLaunch (f : EngForm) (s : State) : Out :=
  run (.launch f) s fun c s =>
    if c.w.wid ≠ 0 || !c.active.getLsbD 0 then c.illegal
    else if 10 ≤ c.b.depth then .fault (c.record .taskDepth c.lane0)
    else withWritten s c .device fun s =>
      match s.record c f.record.toNat 2 with
      | (.error r, _) => .fault r
      | (.ok v, s) =>
        match s.checkLaunch c.b.ctx v (engineUnits c.w.core) with
        | none => c.illegal
        | some (l, k, p) =>
          let s := (s.forwardLines c.w.core c.b.ctx l.kdesc.toNat 2 .read (engineUnits c.w.core)).releaseNow c.w.uid c.w.wid .device
          let (e, s) := s.issueCommand c (.launch f) (some f.token.toNat) []
          let g : Grid :=
            { gid := 0, ctx := c.b.ctx, depth := c.b.depth + 1, launch := { l with prio := f.aux.toNat }, kernel := k,
              partition := p, parent := some c.b.gid, parentBlock := some c.b.uid, token := some e,
              wait := f.mod.getLsbD 0, stamp := s.clockOf c.w.uid c.w.wid }
          .next (s.newGrid g).2

/-! ### Spawned children (R194, R195, R364) -/

/-- Element size of a view operator, and its identity (R194). -/
def viewElem (op : Nat) : Nat := if op = 2 then 8 else 4

def viewIdentity (op : Nat) : Nat :=
  match op with
  | 1 => 0x80000000
  | 2 => 0x8000000000000000
  | 3 => 0x7FFFFFFF
  | 4 => 0x80000000
  | 5 => 0x7F800000
  | 6 => 0xFF800000
  | 7 => 0xFFFFFFFF
  | _ => 0

/-- A view entry (R194): none when a reserved field is nonzero. -/
def viewOf (v : Nat) : Option View :=
  if zeroAt v 81 47 && zeroAt v 20 32 then
    some { poff := fieldOf v 0 20, len := fieldOf v 52 20, cslot := fieldOf v 72 4, op := fieldOf v 76 4,
           sat := fieldOf v 80 1 == 1 }
  else none

/-- Slots that a view spans, in the parent and so in the child. -/
def View.slots (v : View) : Nat := (v.poff + v.len - 1) / 65536 - v.poff / 65536 + 1

/-- Offset of the view's region in the child's window (R195). -/
def View.coff (v : View) : Nat := v.cslot * 65536 + v.poff % 65536

/-- The child slots a view occupies. -/
def View.childSlots (v : View) : List Nat := (List.range v.slots).map fun k => v.cslot + k

/-- The checks of one view (R195). -/
def viewOk (b : Block) (v : View) : Bool :=
  v.op ≤ 9 && (!v.sat || v.op == 0) && 0 < v.len && v.len % viewElem v.op == 0 && v.poff % viewElem v.op == 0
    && v.poff + v.len ≤ 0xC0000 && b.wellMapped v.poff v.len && v.cslot + v.slots ≤ 12

def rangesMeet (a n b m : Nat) : Bool := a < b + m && b < a + n

/-- Two views of one record overlap in the parent or in the child. -/
def viewsClash (x y : View) : Bool :=
  rangesMeet x.poff x.len y.poff y.len || rangesMeet x.coff x.len y.coff y.len

def allPairs {α : Type} (p : α → α → Bool) : List α → Bool
  | [] => true
  | x :: xs => xs.all (p x) && allPairs p xs

/-- A spawn record's header fields (R194). -/
structure SpawnRec where
  ntid : Nat
  bid : Nat
  prio : Nat
  param : BitVec 64
  entry : BitVec 64
  deriving DecidableEq, Repr

/-- The header of a spawn record: none when a reserved field is nonzero, or its `ntid` or entry is out of range, which R195 does not
list: the model faults ILLEGAL for it, as R340 says of a launch record (DESIGN CHOICE, log entry 82). -/
def spawnOf (v : Nat) : Option SpawnRec :=
  let r : SpawnRec := { ntid := fieldOf v 168 11, bid := fieldOf v 136 32, prio := fieldOf v 132 2,
                        param := BitVec.ofNat 64 (fieldOf v 64 64), entry := BitVec.ofNat 64 (fieldOf v 0 64) }
  if zeroAt v 179 333 && zeroAt v 134 2 && 1 ≤ r.ntid && r.ntid ≤ 1024 && r.entry.toNat % 64 == 0 then some r else none

/-- Take one whole well of the pool for each slot, with its words zero and empty (R195). -/
def takeSpares : List Nat → State → Nat → List (Nat × Nat × Nat) → Option (List (Nat × Bank) × State)
  | [], s, _, _ => some ([], s)
  | k :: ks, s, cl, taken =>
    match s.takeRun taken 16 with
    | none => none
    | some (b, s) =>
      match takeSpares ks (s.clearRun cl b) cl ((b.well, b.first, b.count) :: taken) with
      | none => none
      | some (l, s) => some ((k, b) :: l, s)

/-- Views of a parent's children that are not folded, in spawn order and entry order (R196). -/
def State.unfolded (s : State) (p : Block) : List View :=
  (List.range p.spawned).flatMap fun k =>
    if k < p.folded then []
    else
      match s.blocks.find? fun b => b.parent == some (p.uid, k) with
      | some b => b.views
      | none => []

/-- A view as `spawn` makes it: what its target is bound to, and the wells it lies in (R198). -/
def State.bindView (s : State) (p : Block) (v : View) : View :=
  { v with
    bound := ((s.unfolded p).filter fun u => rangesMeet u.poff u.len v.poff v.len).map fun u => (u.poff, u.len, u.op),
    wells := (List.range v.slots).filterMap fun k =>
      (assocGet p.bank (v.poff / 65536 + k)).map fun b => (v.poff / 65536 + k, b.well) }

/-- Fill a view's region of a child with its identity (R195). -/
def State.fillView (s : State) (b : Block) (v : View) : State :=
  let n := viewElem v.op
  s.wellWrite b v.coff ((List.range (v.len / n)).flatMap fun _ => bytesOfNat n (viewIdentity v.op))

/-- What `spawn` finds wrong, or the child's kernel and views (R195). A kernel descriptor that cannot be read or breaks R447 faults
ILLEGAL, as R340 says of a launch (DESIGN CHOICE, log entry 82). The depth is tested before the spare wells (DESIGN CHOICE, log
entry 94). -/
def State.checkSpawn (s : State) (b : Block) (v : Nat) (tail : Nat) : Except FaultCode (SpawnRec × Kernel × List View) :=
  let n := fieldOf v 128 4
  if 9 ≤ n then .error .viewFull
  else
    match spawnOf v, allSome ((List.range n).map fun k => viewOf (fieldOf tail (128 * k) 128)) with
    | some r, some vs =>
      if !(vs.all (viewOk b)) || !allPairs (fun x y => !viewsClash x y) vs then .error .illegal
      else
        match (s.readVirt (engineUnits b.core) b.ctx r.entry.toNat 2).1 with
        | .error _ => .error .illegal
        | .ok bs =>
          match kernelOf (natOfBytes bs) with
          | none => .error .illegal
          | some k =>
            -- the child's own well range must not reach a view's slot (R364)
            let own := ceilDiv k.granules 16
            if (vs.flatMap View.childSlots).any fun x => x < own then .error .viewFull
            else if 10 ≤ b.depth then .error .taskDepth
            else .ok (r, k, vs)
    | _, _ => .error .illegal

/-- SPAWN (R195). -/
def execSpawn (f : EngForm) (s : State) : Out :=
  run (.spawn f) s fun c s =>
    withWritten s c .device fun s =>
      match s.record c f.record.toNat 1 with
      | (.error r, _) => .fault r
      | (.ok v, s) =>
        let nv := fieldOf v 128 4
        match (if 9 ≤ nv then (.ok [], s)
               else s.linesAt c (engineUnits c.w.core) (c.w.sget64 f.record.toNat + 64) (ceilDiv nv 4)) with
        | (.error (x, a), _) => .fault (c.faultAt x a 1)
        | (.ok bs, s) =>
          match s.checkSpawn c.b v (natOfBytes bs) with
          | .error e => .fault (c.record e c.lane0)
          | .ok (r, k, vs) =>
            let slots := (vs.flatMap View.childSlots).eraseDups
            let cl := coreCluster c.w.core
            match takeSpares slots s cl (s.wellsTaken cl) with
            | none => .fault (c.record .viewFull c.lane0)
            | some (bank, s) =>
              let s := (s.forwardLines c.w.core c.b.ctx r.entry.toNat 2 .read (engineUnits c.b.core)).releaseNow c.w.uid c.w.wid .device
              let (e, s) := s.issueCommand c (.spawn f) (some f.token.toNat) []
              let b : Block :=
                { uid := s.nextId, gid := c.b.gid, bid := r.bid, ctx := c.b.ctx, depth := c.b.depth + 1, ntid := r.ntid,
                  cluster := some cl, kernel := k, param := r.param, bank := bank, readySince := s.time,
                  readyCyc := s.homeCycle (((s.grid? c.b.gid).map fun g => g.launch.queue).getD 0),
                  parent := some (c.b.uid, c.b.spawned), views := vs.map (s.bindView c.b), prio := r.prio }
              let s := { s with nextId := s.nextId + 1, blocks := s.blocks ++ [b] }
              let s := vs.foldl (fun (s : State) v => s.fillView b v) s
              let s := s.modBlock c.b.uid fun b => { b with spawned := b.spawned + 1 }
              .next (s.completeEngine e 0 0)

/-- An engine-form instruction without a token completes before the warp's next one (R192). -/
def State.countCommand (s : State) (c : Ic) : State :=
  s.modWarp c.w.uid c.w.wid fun w => { w with eseq := w.eseq + 1 }

/-- MERGE (R197). -/
def execMerge (f : EngForm) (s : State) : Out :=
  run (.merge f) s fun c s =>
    withRelease s c .device fun s =>
      let s := s.modBlock c.b.uid fun b =>
        if b.parent.isNone then b
        else
          let m := b.merge.getD {}
          { b with merge := some { m with wid := c.w.wid, slot := c.w.slot, core := c.w.core, pc := c.pc, eseq := c.w.eseq,
                                          merged := true } }
      .next ((s.countCommand c).endThreads c)

/-- SYNC_SPAWN (R199): with every child folded it goes on at once. -/
def execSyncSpawn (f : EngForm) (s : State) : Out :=
  run (.syncSpawn f) s fun c s =>
    withRing s c fun _ =>
      let s := s.countCommand c
      if c.b.spawned ≤ c.b.folded then .next (s.acquireEnd c.w.uid c.w.wid .device (s.childStamp c.b.uid))
      else
        .next ((s.park c .syncSpawn).modBlock c.b.uid fun b =>
          { b with syncs := b.syncs ++ [(c.w.wid, c.active, b.spawned)] })

/-! ### Tasks (R200 to R203) -/

/-- A task record's footprint entries (R200): none when a reserved field is nonzero. -/
def footprintOf (v : Nat) : Option (List Range) :=
  let es := (List.range 4).map fun k => fieldOf v (256 + 128 * k) 128
  if es.all fun e => zeroAt e 121 7 && zeroAt e 55 9 then
    some ((es.map fun e => { base := fieldOf e 0 55, len := fieldOf e 64 56, wr := fieldOf e 120 1 == 1 : Range }).filter
      fun r => r.len ≠ 0)
  else none

/-- Do two tasks conflict (R201)? -/
def conflicts (a b : List Range) : Bool :=
  a.any fun x => b.any fun y => (x.wr || y.wr) && rangesMeet x.base x.len y.base y.len

/-- Footprint entries in use on a queue's home die (R358). -/
def State.footprintsUsed (s : State) (q : Nat) : Nat :=
  s.tasks.foldl (fun n t => if t.queue / 16 = q / 16 then n + t.ranges.length else n) 0

/-- Enter a submitted task (R201 steps 2 to 5): its index, its footprint, its count and its state. -/
def State.submit (s : State) (t : Task) : State :=
  let idx := (s.tasks.filter fun u => u.queue == t.queue).length
  let preds := s.tasks.filter fun u => u.queue == t.queue && u.state < 4 && conflicts u.ranges t.ranges
  let n := preds.length + t.pend
  let t := { t with index := idx, pend := n, state := if n = 0 then 2 else 1, readyAt := s.time,
                    readyCyc := s.homeCycle t.queue }
  let us : List Task := s.tasks.map fun (u : Task) =>
    if preds.any fun p => p.queue == u.queue && p.index == u.index then { u with succs := u.succs ++ [idx] } else u
  { s with tasks := us ++ [t] }.taskWrite t

/-- TSUB (R201). -/
def execTsub (f : EngForm) (s : State) : Out :=
  run (.tsub f) s fun c s =>
    withWritten s c .device fun s =>
      let at' := c.w.sget64 f.record.toNat
      match s.record c f.record.toNat 2 with
      | (.error r, _) => .fault r
      | (.ok v, s) =>
        match footprintOf v with
        | none => c.illegal
        | some rs =>
          if !(zeroAt v 768 256 && zeroAt v 128 32) then c.illegal
          else
            let la := BitVec.ofNat 64 (fieldOf v 0 64)
            match s.linesAt c (engineUnits c.w.core) la 2 with
            | (.error (x, a), _) => .fault (c.faultAt x a 1)
            | (.ok bs, s) =>
              let k := s.checkLaunch c.b.ctx (natOfBytes bs) (engineUnits c.w.core)
              let s := s.forwardLines c.w.core c.b.ctx (fieldOf (natOfBytes bs) 0 64) 2 .read (engineUnits c.w.core)
              if k.isNone then c.illegal
              else if 10 ≤ c.b.depth then .fault (c.record .taskDepth c.lane0)
              else
                let q := f.aux.toNat
                if 4096 < s.footprintsUsed q + rs.length then .stall s
                else
                  let s := s.releaseNow c.w.uid c.w.wid .device
                  let (e, s) := s.issueCommand c (.tsub f) (some f.token.toNat) []
                  let wait := f.mod.getLsbD 0
                  let s := s.submit
                    { queue := q, index := 0, ctx := c.b.ctx, gen := (s.ctx c.b.ctx).gen, depth := c.b.depth + 1,
                      recordAt := at', launchAt := la, param := BitVec.ofNat 64 (fieldOf v 64 64), prio := fieldOf v 168 2,
                      state := 0, pend := fieldOf v 176 16, ranges := rs, succs := [], token := some e, wait := wait,
                      predAbort := none, readyAt := s.time, parentGrid := c.b.gid, parentBlock := c.b.uid,
                      stamp := s.clockOf c.w.uid c.w.wid }
                  .next (if wait then s else s.completeEngine e 0 0)

/-- Take one from a waiting task's count; at zero it is ready, or aborts after an aborted predecessor (R202, R361). -/
def State.taskDrop (s : State) (u : Task) (stamp : Nat) : State :=
  let u := { u with pend := u.pend - 1, stamp := max u.stamp stamp }
  let u := if u.pend = 0 ∧ u.predAbort.isNone then { u with state := 2, readyAt := s.time, readyCyc := s.homeCycle u.queue } else u
  let s := (s.modTask u.queue u.index fun _ => u).taskWrite u
  match u.pend, u.predAbort with
  | 0, some code => s.reportFailed (taskEnd (s.tasks.length + 1) s u.queue u.index (some code))
  | _, _ => s

/-- The task that a record names (R203): the one of the record's queue and index that was submitted with this record, by its address or
by another name of the same memory. A record that was never submitted names none (DEDUCED, log entry 92). -/
def State.recordTask (s : State) (ctx : Nat) (a : BitVec 64) (q i : Nat) : Option Task :=
  (s.task? q i).filter fun u => u.ctx == ctx &&
    (u.recordAt == a ||
      match (s.xlat [] ctx a.toNat .read).1, (s.xlat [] ctx u.recordAt.toNat .read).1 with
      | .ok x, .ok y => x.pa == y.pa && x.loc == y.loc
      | _, _ => false)

/-- TSIG (R203, R500). -/
def execTsig (f : EngForm) (s : State) : Out :=
  run (.tsig f) s fun c s =>
    withWritten s c .device fun s =>
      match s.record c f.record.toNat 2 with
      | (.error r, _) => .fault r
      | (.ok v, s) =>
        let q := fieldOf v 170 6
        let i := fieldOf v 224 32
        let under : Res :=
          .fault { c.record .taskUnderflow c.lane0 (c.w.sget64 f.record.toNat) 3 with okind := 5, onum := BitVec.ofNat 32 i, aux := q }
        match s.recordTask c.b.ctx (c.w.sget64 f.record.toNat) q i with
        | some u =>
          if u.state = 1 ∧ 0 < u.pend then
            let s := (s.releaseNow c.w.uid c.w.wid .device).countCommand c
            .next (s.taskDrop u (s.clockOf c.w.uid c.w.wid))
          else under
        | none => under

end Sys2Proof.Machine
end

