-- ==== Sys2Proof/Machine/Commands.lean ====
section
/-! DEFINITION. Engine commands (classes 0x21 to 0x23): copies, tensor tiles, gather and pool, collectives, messaging rings,
and the completion of `give` (R233, R237, R245 to R259). -/

namespace Sys2Proof.Machine

/-! ### Asynchronous copies (R245) -/

/-- A uniform register of the issuing warp, as a number. -/
def Ic.uni (c : Ic) (r : Nat) : Nat := (c.w.sget r).toNat

/-- ACOPY (R245, R246). -/
def execAcopy (f : EngForm) (s : State) : Out :=
  run (.acopy f) s fun c s =>
    let n := f.imm.toNat
    let ga := c.w.sget64 f.record.toNat
    let wo := c.uni f.aux.toNat
    let so := c.uni (f.aux.toNat + 1)
    let store := f.mod.getLsbD 0
    let cnt := f.mod.getLsbD 1
    let acc := if store then 5 else 4
    s.startCommand c (.acopy f) f.token.toNat [ga.toNat, wo, so]
      [c.bad (n < 16 || 786432 < n || n % 16 != 0) .illegal,
       c.bad (ga.toNat % 16 != 0) .align ga acc, c.bad (wo % 16 != 0) .align (BitVec.ofNat 64 wo) acc,
       c.bad (cnt && so % 4 != 0) .align (BitVec.ofNat 64 so) acc,
       firstBadRange [c.wellRange wo n acc, if cnt then c.wellRange so 4 acc else none], s.wstoreBase? c ga store]

/-- ACOPY_WSL (R245, R408). A destination that does not lie in the weight-store window faults ILLEGAL (DESIGN CHOICE, log entry 84). -/
def execAcopyWsl (f : EngForm) (s : State) : Out :=
  run (.acopyWsl f) s fun c s =>
    let n := f.imm.toNat
    let ga := c.w.sget64 f.record.toNat
    let dst := c.w.sget64 f.aux.toNat
    let off := dst.toNat - 0x007FFC0000000000
    let inside := match windowOf dst with
      | .wstore o => o + n ≤ 2 ^ 32
      | _ => false
    let dies := (List.range 4).filter fun d => rangesMeet (d * 2 ^ 30) (2 ^ 30) off n
    s.startCommand c (.acopyWsl f) f.token.toNat [ga.toNat, off]
      [c.bad (n % 64 != 0 || 2 ^ 31 ≤ n) .illegal, c.bad (ga.toNat % 64 != 0) .align ga 4, c.bad (dst.toNat % 64 != 0) .align dst 5,
       c.bad (!inside) .illegal, c.bad (dies.any fun d => !(s.die d).weightLoad) .wstoreRO dst 5, s.wstoreBase? c ga false]

/-- A range that lies in the global window. -/
def inGlobal (a : BitVec 64) (n : Nat) : Bool := a.toNat + n ≤ 0x007FF00000000000

/-- ACOPY_SB (R245, R420). A base in the weight-store window faults as R43 says, PAGE.PERM for a source without wsread and
WSTORE.RO for a destination; any other source or destination outside the global window faults ILLEGAL (DESIGN CHOICE, log
entry 84). -/
def execAcopySb (f : EngForm) (s : State) : Out :=
  run (.acopySb f) s fun c s =>
    let n := f.imm.toNat
    let ga := c.w.sget64 f.record.toNat
    let dst := c.w.sget64 f.aux.toNat
    s.startCommand c (.acopySb f) f.token.toNat [ga.toNat, dst.toNat]
      [c.bad (n % 64 != 0 || 2 ^ 31 ≤ n) .illegal, c.bad (ga.toNat % 64 != 0) .align ga 4, c.bad (dst.toNat % 64 != 0) .align dst 5,
       s.wstoreBase? c ga false, s.wstoreBase? c dst true, c.bad (!inGlobal ga n || !inGlobal dst n) .illegal]

/-- Issue a command over a tensor record (R237, R241): read and check the record, then the rest. -/
def withTensor (s : State) (c : Ic) (i : Instr) (pair : Nat) (k : Nat → Tensor → State → Res) : Res :=
  withRecord s c i (c.w.sget64 pair) 64 fun v s =>
    match tensorOf v with
    | none => c.illegal
    | some t => k v t s

/-- Issue a command that moves a box: its Quill may walk ahead at once (R415). -/
def State.startBox (s : State) (c : Ic) (i : Instr) (token : Nat) (args : List Nat) (checks : List (Option FaultRec)) : Res :=
  match firstBad checks with
  | some r => .fault r
  | none =>
    let (id, s) := s.issueCommand c i (some token) args
    .next (s.quillAhead id)

/-- The five coordinate registers from one on (R245). -/
def Ic.coords (c : Ic) (r : Nat) : List Nat := (List.range 5).map fun k => c.uni (r + k)

/-- Origins that rn4 asks for (R243). -/
def Tensor.originOk (t : Tensor) (cs : List Nat) : Bool := t.fmt != 0x21 || (cs.take t.rank).all fun x => x % 2 == 0

/-- ACOPY_T (R245, R246). -/
def execAcopyT (f : EngForm) (s : State) : Out :=
  run (.acopyT f) s fun c s =>
    let wo := c.uni f.aux.toNat
    let so := c.uni (f.aux.toNat + 1)
    let store := f.mod.getLsbD 0
    let cnt := f.mod.getLsbD 1
    let acc := if store then 5 else 4
    let cs := c.coords f.imm.toNat
    match c.bad (cnt && so % 4 != 0) .align (BitVec.ofNat 64 so) acc with
    | some r => .fault r
    | none =>
      withTensor s c (.acopyT f) f.record.toNat fun v t s =>
        s.startBox c (.acopyT f) f.token.toNat ([v, wo, so] ++ cs)
          [c.bad (!t.originOk cs) .illegal, c.wellRange wo t.boxBytes acc, if cnt then c.wellRange so 4 acc else none,
           s.wstoreBase? c (BitVec.ofNat 64 t.base) store]

/-! ### Tensor tiles (R249) -/

/-- A record that describes a tile (R249). -/
def Tensor.tileOk (t : Tensor) (cs : List Nat) : Bool :=
  t.en ≤ 4 && t.box == [256 / t.en, 64, 1, 1, 1] && t.originOk cs

/-- TLD (R249). -/
def execTld (f : EngForm) (s : State) : Out :=
  run (.tld f) s fun c s =>
    let cs := c.coords f.imm.toNat
    withTensor s c (.tld f) f.record.toNat fun v t s =>
      s.startBox c (.tld f) f.token.toNat (v :: cs)
        [c.bad (!t.tileOk cs) .illegal, s.wstoreBase? c (BitVec.ofNat 64 t.base) false]

/-- TST (R249). -/
def execTst (f : EngForm) (s : State) : Out :=
  run (.tst f) s fun c s =>
    let cs := c.coords f.imm.toNat
    withTensor s c (.tst f) f.record.toNat fun v t s =>
      s.startBox c (.tst f) f.token.toNat (v :: cs)
        [c.bad (!t.tileOk cs) .illegal, s.wstoreBase? c (BitVec.ofNat 64 t.base) true]

/-! ### Gather and pool (R250) -/

/-- GPOOL (R250 to R252). -/
def execGpool (f : EngForm) (s : State) : Out :=
  run (.gpool f) s fun c s =>
    withRecord s c (.gpool f) (c.w.sget64 f.record.toNat) 64 fun v s =>
      let rowb := fieldOf v 64 32
      let nbags := fieldOf v 320 32
      let out := fieldOf v 352 32
      let ok := zeroAt v 416 96 && zeroAt v 384 16 && fieldOf v 408 8 ≤ 2 && fieldOf v 400 8 ≤ 2 && 1 ≤ nbags && nbags ≤ 65536
        && rowb % 4 == 0 && 4 ≤ rowb && rowb ≤ 65536
      let base (lo : Nat) : Option FaultRec := s.wstoreBase? c (BitVec.ofNat 64 (fieldOf v lo 64)) false
      s.startCommand c (.gpool f) f.token.toNat [v]
        [c.bad (!ok) .illegal, c.bad (out % 16 != 0) .align (BitVec.ofNat 64 out) 5,
         c.wellRange out (nbags * poolElems (fieldOf v 400 8) rowb * 4) 5, base 0, base 128, base 192,
         if fieldOf v 256 64 = 0 then none else base 256]

/-! ### Collectives (R253, R254) -/

/-- COLL (R253, R254): it joins the group's next operation. -/
def execColl (f : EngForm) (s : State) : Out :=
  run (.coll f) s fun c s =>
    withRecord s c (.coll f) (c.w.sget64 f.record.toNat) 64 fun v s =>
      let n := fieldOf v 192 32
      let op := collOp v
      let rootBad := (op == 1 || op == 2) && (s.group? n).any fun g => g.size ≤ fieldOf v 288 32
      let joined : State :=
        { s with groups := replaceIf (fun g => g.num == n) (fun g => { g with issued := g.issued + 1 }) s.groups }
      let k := ((s.group? n).map CollGroup.issued).getD 0
      joined.startCommand c (.coll f) f.token.toNat [v, k]
        [c.bad (!(zeroAt v 320 192 && zeroAt v 176 16 && op ≤ 4 && collRedop v ≤ 4) || rootBad) .illegal,
         s.wstoreBase? c (BitVec.ofNat 64 (fieldOf v 0 64)) false, s.wstoreBase? c (BitVec.ofNat 64 (fieldOf v 64 64)) true]

/-! ### Messaging rings (R256 to R259) -/

/-- Cluster over the device and ring that `send` names (R258). -/
def sendCluster (v : Nat) : Nat := fieldOf v 5 2 * 25 + fieldOf v 0 5
def sendRing (v : Nat) : Nat := fieldOf v 8 4

/-- SEND (R258). -/
def execSend (f : EngForm) (s : State) : Out :=
  run (.send f) s fun c s =>
    let a := c.w.sget64 f.record.toNat
    let d := c.uni f.aux.toNat
    s.startCommand c (.send f) f.token.toNat [a.toNat, d]
      [c.bad (24 < fieldOf d 0 5 || !zeroAt d 7 1 || !zeroAt d 12 20) .illegal, c.bad (a.toNat % 64 != 0) .align a 4,
       s.wstoreBase? c a false]

/-- An earlier message of the same warp to the same ring is still to be appended (R258). -/
def State.sendBefore (s : State) (e : Engine) : Bool :=
  s.engines.any fun x => x.uid == e.uid && x.wid == e.wid && x.id < e.id && !(x.st == .done) && x.arg 1 == e.arg 1 &&
    match x.op with
    | .send _ => true
    | _ => false

def Engine.isSend (e : Engine) : Bool :=
  match e.op with
  | .send _ => true
  | _ => false

/-- RING_APPEND (R258, R259). -/
def execRingAppend (eng : Nat) (s : State) : Out :=
  happens s <|
    match (s.running eng).filter Engine.isSend with
    | none => none
    | some e =>
      if s.sendBefore e then none
      else
        match s.engRead e (engineUnits e.core) (e.arg 0) 64 with
        | (.error _, _) => none
        | (.ok bs, s) =>
          match s.ring? (sendCluster (e.arg 1)) (sendRing (e.arg 1)) with
          | none => some (s.completeEngine eng 3 0)
          | some r =>
            if s.ringBad r then some (s.failEngine e (s.engRecord e .eccUncorrectable (e.arg 0) 5))
            else if s.ringRoom r then some ((s.ringAppend r bs (s.engRel e 4)).completeEngine eng 0 0)
            else none

/-- RWAIT (R257). -/
def execRwait (f : EngForm) (s : State) : Out :=
  run (.rwait f) s fun c s =>
    match s.ring? (coreCluster c.w.core) f.aux.toNat with
    | none => c.illegal
    | some r =>
      if s.ringBad r then .fault (c.record .eccUncorrectable c.lane0 0 1)
      else withRing s c fun _ =>
        let s := s.countCommand c
        if s.ringHead r ≠ s.ringTail r then .next (s.acquireEnd c.w.uid c.w.wid .device r.stamp)
        else
          let s := s.park c .rwait
          .next { s with ringWaits := s.ringWaits ++ [{ uid := c.w.uid, wid := c.w.wid, cluster := r.cluster, num := r.num,
                                                        lanes := c.active }] }

/-- RWAIT_OPEN (R256, R257). A header that is not 64-byte aligned faults ALIGN (DESIGN CHOICE, log entry 91). -/
def execRwaitOpen (f : EngForm) (s : State) : Out :=
  run (.rwaitOpen f) s fun c s =>
    let off := f.imm.toNat
    let a := BitVec.ofNat 64 off
    if s.accessesPending c.w.uid c.w.wid then .stall s
    else
      match firstBad [c.bad (off % 64 != 0) .align a 3, c.wellRange off 64 3] with
      | some r => .fault r
      | none =>
        match assocGet c.b.bank (off / 65536) with
        | none => .fault (c.record .wellDetached c.lane0 a 3)
        | some e =>
          let cl := coreCluster c.w.core
          let r : Ring := { cluster := cl, num := f.aux.toNat, uid := c.w.uid, well := e.well,
                            word := e.first * 1024 + off % 65536 / 4 }
          let cap := s.ringCap r
          if (s.ring? cl r.num).isSome || !((List.range 10).any fun k => cap == 2 ^ k)
              || e.count * 4096 < off % 65536 + 64 + 64 * cap then c.illegal
          else .next ({ s with rings := s.rings ++ [r] }.countCommand c |>.wellPut (r.key 1) (s.ringHead r))

/-- RWAIT_CLOSE (R257): an append is one step here, so none is in progress. A warp that waits for the ring stays parked (DESIGN
CHOICE, log entry 43). A ring that is not open faults ILLEGAL (DESIGN CHOICE, log entry 91). -/
def execRwaitClose (f : EngForm) (s : State) : Out :=
  run (.rwaitClose f) s fun c s =>
    match s.ring? (coreCluster c.w.core) f.aux.toNat with
    | none => c.illegal
    | some r => .next ({ s with rings := s.rings.filter fun x => !(x.cluster == r.cluster && x.num == r.num) }.countCommand c)

/-! ### The completion of `give` (R233) -/

/-- The well offsets that `n` bytes from a generic address on cover, where addresses wrap at 2^64. -/
def wellPart (a n : Nat) : List (Nat × Nat) :=
  let lo := a % 2 ^ 64
  [wellGeneric 0, 2 ^ 64 + wellGeneric 0].filterMap fun w =>
    if lo < w + 0xC0000 ∧ w < lo + n then some (lo - w, min (lo + n - w) 0xC0000 - (lo - w)) else none

/-- The well offsets of the elements that a box reads or writes in memory. -/
def Tensor.boxWells (t : Tensor) (origin : List Int) (store : Bool) : List (Nat × Nat) :=
  ((t.elems origin store).filterMap Prod.snd).flatMap fun a => wellPart (a / 2) (ceilDiv (a % 2 + t.en) 2)

/-- The well offsets between the first and the last byte of a tensor's elements: its strides may be negative (R243). -/
def Tensor.spanWells (t : Tensor) : List (Nat × Nat) :=
  let ends := ((t.dims.zip t.strides).take t.rank).map fun x => ((x.1 : Int) - 1) * x.2
  let lo : Int := ((2 * t.base : Int) + (ends.foldl (fun n x => n + min 0 x) 0) * t.en) / 2
  let n : Int := ((ends.foldl (fun n x => n + (if x < 0 then -x else x)) 0) + 1) * t.en / 2 + 1
  wellPart (lo % (2 ^ 64 : Int)).toNat n.toNat

/-- The tensor of a descriptor, if it is one, as `spanWells` takes it. -/
def recordWells (v : Nat) : List (Nat × Nat) := ((tensorOf v).map Tensor.spanWells).getD []

/-- Well ranges of a command (R233): offset and length. Where the entries of an index list say how far it reads, it may read as far
as an index goes. -/
def State.wellRanges (s : State) (e : Engine) : List (Nat × Nat) :=
  match e.op with
  | .acopy f => (e.arg 1, f.imm.toNat) :: (if e.counts then [(e.arg 2, 4)] else []) ++ wellPart (e.arg 0) f.imm.toNat
  | .acopyT f =>
    (e.arg 1, e.tensor.boxBytes) :: (if e.counts then [(e.arg 2, 4)] else []) ++ e.tensor.boxWells (e.origin 3) (f.mod.getLsbD 0)
  | .tld _ => e.tensor.boxWells (e.origin 1) false
  | .tst _ => e.tensor.boxWells (e.origin 1) true
  | .gpool _ =>
    let v := e.arg 0
    let nbags := fieldOf v 320 32
    (fieldOf v 352 32, nbags * poolElems (fieldOf v 400 8) (fieldOf v 64 32) * 4)
      :: wellPart (fieldOf v 0 64) (fieldOf v 96 32 * fieldOf v 64 32) ++ wellPart (fieldOf v 192 64) (4 * (nbags + 1))
        ++ wellPart (fieldOf v 128 64) (2 ^ 34) ++ (if fieldOf v 256 64 = 0 then [] else wellPart (fieldOf v 256 64) (2 ^ 34))
  | .coll _ =>
    let n := ((s.group? (fieldOf (e.arg 0) 192 32)).map fun g => collBytes (e.arg 0) g.size).getD 0
    wellPart (fieldOf (e.arg 0) 0 64) n ++ wellPart (fieldOf (e.arg 0) 64 64) n
  | .send _ => wellPart (e.arg 0) 64
  | .mma f => (if mmaWells f then [(e.arg 3, 64 * mmaRow (mmaFmt f))] else []) ++ recordWells (e.arg 0)
  | .mconv _ => recordWells (e.arg 0) ++ recordWells (e.arg 3)
  | _ => []

/-- Does a range of the window reach a well of the block? -/
def Block.reaches (b : Block) (well : Nat) (x : Nat × Nat) : Bool :=
  b.bank.any fun k => k.2.well == well && rangesMeet (k.1 * 65536) 65536 x.1 x.2

/-- The lanes that wait on a word of a well (R233 step 4). -/
def State.waitersIn (s : State) (cluster well : Nat) : List Waiter :=
  s.warps.flatMap fun (w : Warp) =>
    match s.block? w.uid with
    | none => []
    | some b =>
      lanes.filterMap fun l =>
        match (w.thread l).st with
        | .blocked n _ =>
          if (w.thread l).wlead && (b.wellAt (4 * n)).any fun key => key / 16384 == cluster * 96 + well then
            some { uid := w.uid, wid := w.wid, lane := l, seq := (w.thread l).waitSeq, slot := w.lslot }
          else none
        | _ => none

/-- The drain of a `give` is over (R233 step 3), and the warps of the lanes that its step 4 faults have performed every earlier access
(R296). -/
def State.drained (s : State) (cluster well : Nat) : Bool :=
  !(s.msgs.any fun m =>
      match m.kind with
      | .well r => r.addr / 4 / 16384 == cluster * 96 + well
      | _ => false)
    && !(s.engines.any fun e =>
      !(e.st == .done) && coreCluster e.core == cluster && (s.block? e.uid).any fun b => (s.wellRanges e).any (b.reaches well))
    && (s.waitersIn cluster well).all fun x => !s.accessesPending x.uid x.wid

/-- GIVE_DRAIN_COMPLETE (R233 steps 3 to 5). -/
def execGiveDrainComplete (give : Nat) (s : State) : Out :=
  happens s <|
    match s.gives.find? fun g => g.id == give with
    | none => none
    | some g =>
      match s.warp? g.uid g.wid with
      | none => none
      | some w =>
        match w.bundle with
        | none => none
        | some x =>
          let cl := coreCluster w.core
          if !s.drained cl g.well then none
          else
            let s := (s.waitersIn cl g.well).foldl (fun (s : State) x => s.waitFault x .wellDetached) s
            let s := s.modBlock g.uid fun b => { b with bank := assocDel b.bank g.slot }
            let s := s.releaseNow g.uid g.wid .cluster
            let stamp := ((s.warp? g.uid g.wid).map Warp.relStamp).getD 0
            let ctx := ((s.block? g.uid).map Block.ctx).getD 0
            let s := { s with gives := s.gives.filter fun y => y.id != give }
            let s := s.modCore g.target fun c =>
              { c with arrivals := c.arrivals ++ [{ well := g.well, giver := w.core, ctx := ctx, stamp := stamp }] }
            let s := s.takeWell g.target
            match s.warp? g.uid g.wid, s.block? g.uid with
            | some w, some b =>
              some (s.retire { w := w, b := b, pc := x.pc, bundle := x.mask, active := g.lanes } (.give g.f) fun _ n => n)
            | _, _ => none

end Sys2Proof.Machine
end

