-- ==== Sys2Proof/Decode.lean ====
section
/-! DEFINITION. The decoder of a 96-bit instruction word and, after it, the encoder, both from the forms of
02_instruction_encoding.md (R61, R67, R74, R76, R78) and the opcode map (R83). -/

namespace Sys2Proof

/-- Why a word is no instruction (R80). Each is a reserved encoding. -/
inductive Reject where
  /-- Fewer than 12 bytes. -/
  | short
  /-- A class absent from the opcode map. -/
  | cls (cls : Nat)
  /-- A minor beyond the last of its class. -/
  | minor (cls minor : Nat)
  /-- A reserved type code (R72). -/
  | type
  /-- A reserved D class or base class of the memory form, or D class 0b11 (R68, R74). -/
  | operandClass
  /-- A reserved width code (R74). -/
  | width
  /-- A reserved scope code (R74). -/
  | scope
  /-- A reserved space code (R74). -/
  | space
  /-- A nonzero reserved bit (R76). -/
  | reservedBits
  /-- A field that the instruction does not accept with this value (R70, R73, R75, R79, R132, R208). -/
  | field
  deriving DecidableEq, Repr

/-- Class codes (R68). -/
def Cls.code : Cls → BitVec 2
  | .vec => 0 | .uni => 1 | .special => 2 | .imm => 3

def Cls.ofCode (n : BitVec 2) : Cls :=
  if n = 0 then .vec else if n = 1 then .uni else if n = 2 then .special else .imm

/-- Width codes (R74). -/
def Width.code : Width → BitVec 4
  | .b8 => 0 | .b16 => 1 | .b32 => 2 | .b64 => 3 | .b128 => 4

def Width.ofCode (n : BitVec 4) : Option Width :=
  if n = 0 then some .b8 else if n = 1 then some .b16 else if n = 2 then some .b32
  else if n = 3 then some .b64 else if n = 4 then some .b128 else none

/-- Scope codes (R74). -/
def Scope.code : Scope → BitVec 3
  | .warp => 0 | .block => 1 | .cluster => 2 | .die => 3 | .device => 4 | .domain => 5 | .system => 6

def Scope.ofCode (n : BitVec 3) : Option Scope :=
  if n = 0 then some .warp else if n = 1 then some .block else if n = 2 then some .cluster
  else if n = 3 then some .die else if n = 4 then some .device else if n = 5 then some .domain
  else if n = 6 then some .system else none

/-- Space codes (R74). -/
def Space.code : Space → BitVec 2
  | .generic => 0 | .well => 1 | .const => 2

def Space.ofCode (n : BitVec 2) : Option Space :=
  if n = 0 then some .generic else if n = 1 then some .well else if n = 2 then some .const else none

/-- A field of the word, `len` bits from `lo`. -/
abbrev InstrWord.bits (w : InstrWord) (lo len : Nat) : BitVec len := w.extractLsb' lo len

def wordBit (w : InstrWord) (n : Nat) : Bool := w.getLsbD n

/-- Bits 95:90 (R61). -/
def readCommon (w : InstrWord) : Common :=
  { s := wordBit w 95, u := wordBit w 94, n := wordBit w 93, guard := w.extractLsb' 90 3 }

/-- R67. -/
def readReg (w : InstrWord) : Except Reject RegForm :=
  match Ty.ofCode (w.extractLsb' 35 5) with
  | none => .error .type
  | some ty =>
    .ok { c := readCommon w, d := w.extractLsb' 72 8, a := w.extractLsb' 64 8, b := w.extractLsb' 56 8,
          e := w.extractLsb' 48 8, dc := Cls.ofCode (w.extractLsb' 46 2), ac := Cls.ofCode (w.extractLsb' 44 2),
          bc := Cls.ofCode (w.extractLsb' 42 2), ec := Cls.ofCode (w.extractLsb' 40 2), ty := ty,
          sub := w.extractLsb' 32 3, imm := w.extractLsb' 0 32 }

/-- R146: bits 71:40 and imm32 are the constant; the type is b64 and sub is zero. -/
def readMovi (w : InstrWord) : Except Reject MoviForm :=
  if w.extractLsb' 35 5 = Ty.code .b64 then
    if w.extractLsb' 32 3 = (0 : BitVec 3) then
      .ok { c := readCommon w, d := w.extractLsb' 72 8, value := w.extractLsb' 40 32 ++ w.extractLsb' 0 32 }
    else .error .field
  else .error .type

/-- R74. -/
def readMem (w : InstrWord) : Except Reject MemForm :=
  if wordBit w 47 || wordBit w 45 then .error .operandClass
  else
    match Width.ofCode (w.extractLsb' 40 4) with
    | none => .error .width
    | some width =>
      match Scope.ofCode (w.extractLsb' 37 3) with
      | none => .error .scope
      | some scope =>
        match Space.ofCode (w.extractLsb' 35 2) with
        | none => .error .space
        | some space =>
          .ok { c := readCommon w, d := w.extractLsb' 72 8, base := w.extractLsb' 64 8, data := w.extractLsb' 56 8,
                cmp := w.extractLsb' 48 8, duni := wordBit w 46, buni := wordBit w 44, width := width,
                scope := scope, space := space, aop := w.extractLsb' 32 3, offset := w.extractLsb' 0 32 }

/-- R76. -/
def readBr (w : InstrWord) : Except Reject BrForm :=
  if w.extractLsb' 48 16 = (0 : BitVec 16) then
    if w.extractLsb' 32 14 = (0 : BitVec 14) then
      .ok { c := readCommon w, link := w.extractLsb' 72 8, index := w.extractLsb' 64 8, uni := wordBit w 47,
            indexUni := wordBit w 46, disp := w.extractLsb' 0 32 }
    else .error .reservedBits
  else .error .reservedBits

/-- R78. -/
def readEng (w : InstrWord) : EngForm :=
  { c := readCommon w, token := w.extractLsb' 72 8, record := w.extractLsb' 64 8, conv := w.extractLsb' 56 8,
    aux := w.extractLsb' 48 8, mod := w.extractLsb' 32 16, imm := w.extractLsb' 0 32 }

/-- What a class and minor stand for: a form, and the instruction that its fields make. -/
inductive Maker where
  | reg (mk : RegForm → Instr)
  | movi (mk : MoviForm → Instr)
  | mem (mk : MemForm → Instr)
  | br (mk : BrForm → Instr)
  | eng (mk : EngForm → Instr)

/-- The opcode map (R83). A minor is the position in its class's list; a variant is chosen by sub, type or mod
(R84), never by the minor. -/
def opcodeMap (cls minor : Nat) : Except Reject Maker :=
  match cls with
  | 0x00 =>
    match minor with
    | 0 => .ok (.reg .nop)
    | 1 => .ok (.reg .getsr)
    | 2 => .ok (.reg .setsr)
    | _ => .error (.minor cls minor)
  | 0x01 =>
    match minor with
    | 0 => .ok (.br .bra)
    | 1 => .ok (.br .brx)
    | 2 => .ok (.br .call)
    | 3 => .ok (.br .calli)
    | 4 => .ok (.br .ret)
    | 5 => .ok (.br .exit)
    | _ => .error (.minor cls minor)
  | 0x02 =>
    match minor with
    | 0 => .ok (.reg .trap)
    | 1 => .ok (.reg .brk)
    | 2 => .ok (.reg .pause)
    | 3 => .ok (.reg .yield)
    | _ => .error (.minor cls minor)
  | 0x03 =>
    match minor with
    | 0 => .ok (.reg .bar)
    | 1 => .ok (.reg .barPhase)
    | 2 => .ok (.reg .clbar)
    | 3 => .ok (.reg .gbar)
    | 4 => .ok (.reg .cvinit)
    | _ => .error (.minor cls minor)
  | 0x04 =>
    match minor with
    | 0 => .ok (.eng .launch)
    | 1 => .ok (.eng .spawn)
    | 2 => .ok (.eng .merge)
    | 3 => .ok (.eng .syncSpawn)
    | 4 => .ok (.eng .tsub)
    | 5 => .ok (.eng .tsig)
    | _ => .error (.minor cls minor)
  | 0x06 =>
    match minor with
    | 0 => .ok (.reg .sysTlbinv)
    | 1 => .ok (.reg .sysFwake)
    | 2 => .ok (.reg .sysFkill)
    | 3 => .ok (.reg .sysEvict)
    | 4 => .ok (.reg .sysResume)
    | 5 => .ok (.reg .sysMcount)
    | _ => .error (.minor cls minor)
  | 0x07 =>
    match minor with
    | 0 => .ok (.reg .voteAgree)
    | 1 => .ok (.reg .barCnt)
    | 2 => .ok (.reg .sysFlush)
    | 3 => .ok (.reg .sysHalt)
    | _ => .error (.minor cls minor)
  | 0x08 =>
    match minor with
    | 0 => .ok (.reg .add)
    | 1 => .ok (.reg .sub)
    | 2 => .ok (.reg .mul)
    | 3 => .ok (.reg .mulhi)
    | 4 => .ok (.reg .mad)
    | 5 => .ok (.reg .min)
    | 6 => .ok (.reg .max)
    | 7 => .ok (.reg .abs)
    | 8 => .ok (.reg .neg)
    | 9 => .ok (.reg .addc)
    | 10 => .ok (.reg .lea)
    | 11 => .ok (.reg .mov)
    | 12 => .ok (.movi .movi)
    | 13 => .ok (.reg .sel)
    | _ => .error (.minor cls minor)
  | 0x09 =>
    match minor with
    | 0 => .ok (.reg .andB)
    | 1 => .ok (.reg .orB)
    | 2 => .ok (.reg .xorB)
    | 3 => .ok (.reg .notB)
    | 4 => .ok (.reg .shl)
    | 5 => .ok (.reg .shr)
    | 6 => .ok (.reg .sar)
    | 7 => .ok (.reg .rot)
    | 8 => .ok (.reg .clz)
    | 9 => .ok (.reg .popc)
    | 10 => .ok (.reg .brev)
    | 11 => .ok (.reg .bfe)
    | 12 => .ok (.reg .bfi)
    | _ => .error (.minor cls minor)
  | 0x0E =>
    match minor with
    | 0 => .ok (.reg .cmp)
    | 1 => .ok (.reg .fcmp)
    | 2 => .ok (.reg .pand)
    | 3 => .ok (.reg .por)
    | 4 => .ok (.reg .pxor)
    | 5 => .ok (.reg .pnot)
    | 6 => .ok (.reg fun f => if f.sub == 1 then .pmovPack f else if f.sub == 2 then .pmovUnpack f else .pmov f)
    | _ => .error (.minor cls minor)
  | 0x0F =>
    match minor with
    | 0 => .ok (.reg .shfl)
    | 1 => .ok (.reg .vote)
    | 2 => .ok (.reg .redux)
    | 3 => .ok (.reg .matchL)
    | 4 => .ok (.reg .prefixL)
    | _ => .error (.minor cls minor)
  | 0x10 =>
    match minor with
    | 0 => .ok (.reg .fadd)
    | 1 => .ok (.reg .fsub)
    | 2 => .ok (.reg .fmul)
    | 3 => .ok (.reg .ffma)
    | 4 => .ok (.reg .fmin)
    | 5 => .ok (.reg .fmax)
    | 6 => .ok (.reg .fabs)
    | 7 => .ok (.reg .fneg)
    | 8 => .ok (.reg .fclass)
    | 9 => .ok (.reg .frnd)
    | _ => .error (.minor cls minor)
  | 0x15 =>
    match minor with
    | 0 => .ok (.reg .frcp)
    | 1 => .ok (.reg .fsqrt)
    | 2 => .ok (.reg .frsq)
    | 3 => .ok (.reg .fexp2)
    | 4 => .ok (.reg .flog2)
    | _ => .error (.minor cls minor)
  | 0x16 =>
    match minor with
    | 0 => .ok (.reg .cvt)
    | 1 => .ok (.reg .pack)
    | 2 => .ok (.reg .unpack)
    | _ => .error (.minor cls minor)
  | 0x17 =>
    match minor with
    | 0 => .ok (.reg .rnfwd)
    | 1 => .ok (.reg .rnadd)
    | 2 => .ok (.reg .rnsub)
    | 3 => .ok (.reg .rnmul)
    | 4 => .ok (.reg .rnrev)
    | _ => .error (.minor cls minor)
  | 0x18 =>
    match minor with
    | 0 => .ok (.mem .ld)
    | 1 => .ok (.mem .st)
    | 2 => .ok (.mem .ldc)
    | 3 => .ok (.mem .prf)
    | _ => .error (.minor cls minor)
  | 0x1A =>
    match minor with
    | 0 => .ok (.mem .lda)
    | 1 => .ok (.mem .stl)
    | 2 => .ok (.mem .xar)
    | 3 => .ok (.mem .car)
    | _ => .error (.minor cls minor)
  | 0x1B =>
    match minor with
    | 0 => .ok (.mem .atc)
    | 1 => .ok (.mem .redc)
    | _ => .error (.minor cls minor)
  | 0x1C =>
    match minor with
    | 0 => .ok (.mem .ata)
    | 1 => .ok (.mem .reda)
    | _ => .error (.minor cls minor)
  | 0x1D =>
    match minor with
    | 0 => .ok (.mem .ldf)
    | 1 => .ok (.mem .stf)
    | _ => .error (.minor cls minor)
  | 0x1E =>
    match minor with
    | 0 => .ok (.mem .atx)
    | 1 => .ok (.mem .cas)
    | _ => .error (.minor cls minor)
  | 0x1F =>
    match minor with
    | 0 => .ok (.mem .fence)
    | _ => .error (.minor cls minor)
  | 0x20 =>
    match minor with
    | 0 => .ok (.mem .ldfe)
    | 1 => .ok (.mem .stfe)
    | 2 => .ok (.mem .give)
    | 3 => .ok (.mem .take)
    | 4 => .ok (.mem .wmap)
    | 5 => .ok (.mem .wfill)
    | _ => .error (.minor cls minor)
  | 0x21 =>
    match minor with
    | 0 => .ok (.eng fun f => if f.mod == 4 then .acopyWsl f else if f.mod == 8 then .acopySb f else .acopy f)
    | 1 => .ok (.eng .acopyT)
    | _ => .error (.minor cls minor)
  | 0x22 =>
    match minor with
    | 0 => .ok (.eng .tld)
    | 1 => .ok (.eng .tst)
    | _ => .error (.minor cls minor)
  | 0x23 =>
    match minor with
    | 0 => .ok (.eng .gpool)
    | 1 => .ok (.eng .coll)
    | 2 => .ok (.eng .send)
    | 3 => .ok (.eng fun f => if f.mod == 1 then .rwaitOpen f else if f.mod == 2 then .rwaitClose f else .rwait f)
    | _ => .error (.minor cls minor)
  | 0x28 =>
    match minor with
    | 0 => .ok (.eng .mma)
    | _ => .error (.minor cls minor)
  | 0x29 =>
    match minor with
    | 0 => .ok (.eng .mconv)
    | _ => .error (.minor cls minor)
  | 0x2A =>
    match minor with
    | 0 => .ok (.reg .tzero)
    | 1 => .ok (.reg .azero)
    | 2 => .ok (.reg .amov)
    | 3 => .ok (.reg .ald)
    | 4 => .ok (.reg .ast)
    | 5 => .ok (.reg fun f => if f.sub == 1 then .tmovW f else if f.sub == 2 then .tmovR f else .tmov f)
    | _ => .error (.minor cls minor)
  | 0x2B =>
    match minor with
    | 0 => .ok (.reg .hqnt)
    | 1 => .ok (.reg fun f => if f.ty == .f32 then .aconvF32 f else .aconv f)
    | 2 => .ok (.reg .hdeq)
    | _ => .error (.minor cls minor)
  | 0x2C =>
    match minor with
    | 0 => .ok (.reg .wsinfo)
    | 1 => .ok (.reg .wswait)
    | _ => .error (.minor cls minor)
  | 0x30 =>
    match minor with
    | 0 => .ok (.reg .slen)
    | 1 => .ok (.reg .sseed)
    | 2 => .ok (.reg .sgen)
    | 3 => .ok (.reg .sand)
    | 4 => .ok (.reg .sor)
    | 5 => .ok (.reg .sxor)
    | 6 => .ok (.reg .sxnor)
    | 7 => .ok (.reg .snot)
    | 8 => .ok (.reg .smux)
    | 9 => .ok (.reg .scnt)
    | 10 => .ok (.reg .sregen)
    | 11 => .ok (.reg .sshift)
    | 12 => .ok (.reg .smov)
    | 13 => .ok (.reg .sclass)
    | _ => .error (.minor cls minor)
  | _ => .error (.cls cls)

/-- Make the instruction from the word's fields. -/
def Maker.build (m : Maker) (w : InstrWord) : Except Reject Instr :=
  match m with
  | .reg mk => (readReg w).map mk
  | .movi mk => (readMovi w).map mk
  | .mem mk => (readMem w).map mk
  | .br mk => (readBr w).map mk
  | .eng mk => .ok (mk (readEng w))

/-- Accept an instruction that is well formed (R80). -/
def accept (i : Instr) : Except Reject Instr := if wellFormed i then .ok i else .error .field

/-- The decoder of an instruction word: total, and every reserved encoding is rejected by name (R80). -/
def decodeWord (w : InstrWord) : Except Reject Instr :=
  match opcodeMap (w.extractLsb' 84 6).toNat (w.extractLsb' 80 4).toNat with
  | .error r => .error r
  | .ok m =>
    match m.build w with
    | .error r => .error r
    | .ok i => accept i

/-- Bytes of a slot as its word, byte 0 lowest (R53). -/
def wordOfBytes (bs : List Byte) : InstrWord :=
  bs.foldr (fun b acc => (acc <<< 8) ||| b.setWidth 96) 0

/-- The decoder on the bytes of a slot. -/
def decodeBytes (bs : List Byte) : Except Reject Instr :=
  if bs.length < 12 then .error .short else decodeWord (wordOfBytes (bs.take 12))

/-- The 12 bytes of a slot from its word (R53). -/
def bytesOfWord (w : InstrWord) : List Byte := (List.range 12).map fun k => w.extractLsb' (8 * k) 8

/-- The instruction the decoder reads from the word with `nbits` bits `w`, the bits above them zero. -/
def decodeTableWord (nbits w : Nat) : Option Instr :=
  match decodeBytes (bytesOfWord (BitVec.ofNat 96 (w % 2 ^ nbits))) with
  | .ok i => some i
  | .error _ => none

/-! The encoder, from the same tables. -/

/-- Class and minor of an instruction (R83); an event of the device has none. -/
def opcode (i : Instr) : Option (Nat × Nat) :=
  match i with
  | .nop _ => some (0x00, 0)
  | .getsr _ => some (0x00, 1)
  | .setsr _ => some (0x00, 2)
  | .bra _ => some (0x01, 0)
  | .brx _ => some (0x01, 1)
  | .call _ => some (0x01, 2)
  | .calli _ => some (0x01, 3)
  | .ret _ => some (0x01, 4)
  | .exit _ => some (0x01, 5)
  | .trap _ => some (0x02, 0)
  | .brk _ => some (0x02, 1)
  | .pause _ => some (0x02, 2)
  | .yield _ => some (0x02, 3)
  | .bar _ => some (0x03, 0)
  | .barPhase _ => some (0x03, 1)
  | .clbar _ => some (0x03, 2)
  | .gbar _ => some (0x03, 3)
  | .cvinit _ => some (0x03, 4)
  | .launch _ => some (0x04, 0)
  | .spawn _ => some (0x04, 1)
  | .merge _ => some (0x04, 2)
  | .syncSpawn _ => some (0x04, 3)
  | .tsub _ => some (0x04, 4)
  | .tsig _ => some (0x04, 5)
  | .sysTlbinv _ => some (0x06, 0)
  | .sysFwake _ => some (0x06, 1)
  | .sysFkill _ => some (0x06, 2)
  | .sysEvict _ => some (0x06, 3)
  | .sysResume _ => some (0x06, 4)
  | .sysMcount _ => some (0x06, 5)
  | .voteAgree _ => some (0x07, 0)
  | .barCnt _ => some (0x07, 1)
  | .sysFlush _ => some (0x07, 2)
  | .sysHalt _ => some (0x07, 3)
  | .add _ => some (0x08, 0)
  | .sub _ => some (0x08, 1)
  | .mul _ => some (0x08, 2)
  | .mulhi _ => some (0x08, 3)
  | .mad _ => some (0x08, 4)
  | .min _ => some (0x08, 5)
  | .max _ => some (0x08, 6)
  | .abs _ => some (0x08, 7)
  | .neg _ => some (0x08, 8)
  | .addc _ => some (0x08, 9)
  | .lea _ => some (0x08, 10)
  | .mov _ => some (0x08, 11)
  | .movi _ => some (0x08, 12)
  | .sel _ => some (0x08, 13)
  | .andB _ => some (0x09, 0)
  | .orB _ => some (0x09, 1)
  | .xorB _ => some (0x09, 2)
  | .notB _ => some (0x09, 3)
  | .shl _ => some (0x09, 4)
  | .shr _ => some (0x09, 5)
  | .sar _ => some (0x09, 6)
  | .rot _ => some (0x09, 7)
  | .clz _ => some (0x09, 8)
  | .popc _ => some (0x09, 9)
  | .brev _ => some (0x09, 10)
  | .bfe _ => some (0x09, 11)
  | .bfi _ => some (0x09, 12)
  | .cmp _ => some (0x0E, 0)
  | .fcmp _ => some (0x0E, 1)
  | .pand _ => some (0x0E, 2)
  | .por _ => some (0x0E, 3)
  | .pxor _ => some (0x0E, 4)
  | .pnot _ => some (0x0E, 5)
  | .pmov _ => some (0x0E, 6)
  | .pmovPack _ => some (0x0E, 6)
  | .pmovUnpack _ => some (0x0E, 6)
  | .shfl _ => some (0x0F, 0)
  | .vote _ => some (0x0F, 1)
  | .redux _ => some (0x0F, 2)
  | .matchL _ => some (0x0F, 3)
  | .prefixL _ => some (0x0F, 4)
  | .fadd _ => some (0x10, 0)
  | .fsub _ => some (0x10, 1)
  | .fmul _ => some (0x10, 2)
  | .ffma _ => some (0x10, 3)
  | .fmin _ => some (0x10, 4)
  | .fmax _ => some (0x10, 5)
  | .fabs _ => some (0x10, 6)
  | .fneg _ => some (0x10, 7)
  | .fclass _ => some (0x10, 8)
  | .frnd _ => some (0x10, 9)
  | .frcp _ => some (0x15, 0)
  | .fsqrt _ => some (0x15, 1)
  | .frsq _ => some (0x15, 2)
  | .fexp2 _ => some (0x15, 3)
  | .flog2 _ => some (0x15, 4)
  | .cvt _ => some (0x16, 0)
  | .pack _ => some (0x16, 1)
  | .unpack _ => some (0x16, 2)
  | .rnfwd _ => some (0x17, 0)
  | .rnadd _ => some (0x17, 1)
  | .rnsub _ => some (0x17, 2)
  | .rnmul _ => some (0x17, 3)
  | .rnrev _ => some (0x17, 4)
  | .ld _ => some (0x18, 0)
  | .st _ => some (0x18, 1)
  | .ldc _ => some (0x18, 2)
  | .prf _ => some (0x18, 3)
  | .lda _ => some (0x1A, 0)
  | .stl _ => some (0x1A, 1)
  | .xar _ => some (0x1A, 2)
  | .car _ => some (0x1A, 3)
  | .atc _ => some (0x1B, 0)
  | .redc _ => some (0x1B, 1)
  | .ata _ => some (0x1C, 0)
  | .reda _ => some (0x1C, 1)
  | .ldf _ => some (0x1D, 0)
  | .stf _ => some (0x1D, 1)
  | .atx _ => some (0x1E, 0)
  | .cas _ => some (0x1E, 1)
  | .fence _ => some (0x1F, 0)
  | .ldfe _ => some (0x20, 0)
  | .stfe _ => some (0x20, 1)
  | .give _ => some (0x20, 2)
  | .take _ => some (0x20, 3)
  | .wmap _ => some (0x20, 4)
  | .wfill _ => some (0x20, 5)
  | .acopy _ => some (0x21, 0)
  | .acopyWsl _ => some (0x21, 0)
  | .acopySb _ => some (0x21, 0)
  | .acopyT _ => some (0x21, 1)
  | .tld _ => some (0x22, 0)
  | .tst _ => some (0x22, 1)
  | .gpool _ => some (0x23, 0)
  | .coll _ => some (0x23, 1)
  | .send _ => some (0x23, 2)
  | .rwait _ => some (0x23, 3)
  | .rwaitOpen _ => some (0x23, 3)
  | .rwaitClose _ => some (0x23, 3)
  | .mma _ => some (0x28, 0)
  | .mconv _ => some (0x29, 0)
  | .tzero _ => some (0x2A, 0)
  | .azero _ => some (0x2A, 1)
  | .amov _ => some (0x2A, 2)
  | .ald _ => some (0x2A, 3)
  | .ast _ => some (0x2A, 4)
  | .tmov _ => some (0x2A, 5)
  | .tmovW _ => some (0x2A, 5)
  | .tmovR _ => some (0x2A, 5)
  | .hqnt _ => some (0x2B, 0)
  | .aconv _ => some (0x2B, 1)
  | .aconvF32 _ => some (0x2B, 1)
  | .hdeq _ => some (0x2B, 2)
  | .wsinfo _ => some (0x2C, 0)
  | .wswait _ => some (0x2C, 1)
  | .slen _ => some (0x30, 0)
  | .sseed _ => some (0x30, 1)
  | .sgen _ => some (0x30, 2)
  | .sand _ => some (0x30, 3)
  | .sor _ => some (0x30, 4)
  | .sxor _ => some (0x30, 5)
  | .sxnor _ => some (0x30, 6)
  | .snot _ => some (0x30, 7)
  | .smux _ => some (0x30, 8)
  | .scnt _ => some (0x30, 9)
  | .sregen _ => some (0x30, 10)
  | .sshift _ => some (0x30, 11)
  | .smov _ => some (0x30, 12)
  | .sclass _ => some (0x30, 13)
  | _ => none

/-- Bits 95:80 (R61). -/
def commonBits (c : Common) (op : Nat × Nat) : BitVec 16 :=
  BitVec.ofBool c.s ++ BitVec.ofBool c.u ++ BitVec.ofBool c.n ++ c.guard ++ BitVec.ofNat 6 op.1 ++ BitVec.ofNat 4 op.2

/-- R67. -/
def encodeReg (op : Nat × Nat) (f : RegForm) : InstrWord :=
  commonBits f.c op ++ f.d ++ f.a ++ f.b ++ f.e ++ f.dc.code ++ f.ac.code ++ f.bc.code ++ f.ec.code ++ f.ty.code
    ++ f.sub ++ f.imm

/-- R146. -/
def encodeMovi (op : Nat × Nat) (f : MoviForm) : InstrWord :=
  commonBits f.c op ++ f.d ++ f.value.extractLsb' 32 32 ++ Ty.code .b64 ++ (0 : BitVec 3) ++ f.value.extractLsb' 0 32

/-- R74. -/
def encodeMem (op : Nat × Nat) (f : MemForm) : InstrWord :=
  commonBits f.c op ++ f.d ++ f.base ++ f.data ++ f.cmp ++ BitVec.ofBool false ++ BitVec.ofBool f.duni
    ++ BitVec.ofBool false ++ BitVec.ofBool f.buni ++ f.width.code ++ f.scope.code ++ f.space.code ++ f.aop ++ f.offset

/-- R76. -/
def encodeBr (op : Nat × Nat) (f : BrForm) : InstrWord :=
  commonBits f.c op ++ f.link ++ f.index ++ (0 : BitVec 16) ++ BitVec.ofBool f.uni ++ BitVec.ofBool f.indexUni
    ++ (0 : BitVec 14) ++ f.disp

/-- R78. -/
def encodeEng (op : Nat × Nat) (f : EngForm) : InstrWord :=
  commonBits f.c op ++ f.token ++ f.record ++ f.conv ++ f.aux ++ f.mod ++ f.imm

/-- The word of an instruction; none for an event of the device. -/
def encode (i : Instr) : Option InstrWord :=
  match opcode i with
  | none => none
  | some op =>
    match Machine.form i with
    | .reg _ f => some (encodeReg op f)
    | .movi f => some (encodeMovi op f)
    | .mem _ f => some (encodeMem op f)
    | .br _ f => some (encodeBr op f)
    | .eng _ f => some (encodeEng op f)
    | .event => none

end Sys2Proof
end

