-- ==== Sys2Proof/Machine/Fetch.lean ====
section
/-! DEFINITION. Fetching the issuing instruction (R53 to R58, R82 steps 1 to 4) from the line its warp holds. -/

namespace Sys2Proof.Machine

/-- What the fetch of the issuing instruction gives. -/
inductive Fetched where
  /-- No instruction: a fault taken, a word with no active lane, or a warp that cannot issue. -/
  | out (s : State)
  | instr (i : Instr)

/-- A fault of the fetch, which needs no active lane (R82 steps 1 to 3). The warp's next issue fetches the line afresh. -/
def State.fetchFault (s : State) (w : Warp) (x : Bundle) (code : Byte) (cause level : Nat) (addr : Nat) : State :=
  let l := (lanesOf x.mask).headD 0
  (s.issued.modWarp w.uid w.wid fun w => { w with line := none }).takeFault w
    { code := code, cause := cause, level := level, addr := BitVec.ofNat 64 addr, pc := x.pc, lanes := x.mask,
      eseq := w.eseq, rentry := (w.thread l).rentry, rseq := (w.thread l).rseq }

/-- Does a thread of the bundle land on this PC (R58)? -/
def landing (w : Warp) (x : Bundle) : Bool := (lanesOf x.mask).any fun l => (w.thread l).landed

/-- An instruction of the register form that has common bits only: what a reserved word without active lanes amounts to (R80). -/
def bareForm (c : Common) : RegForm :=
  { c := c, d := 0, a := 0, b := 0, e := 0, dc := .vec, ac := .vec, bc := .vec, ec := .vec, ty := .b32, sub := 0, imm := 0 }

/-- The instruction the machine is about to issue, or what comes of the fetch before the instruction's own checks. -/
def fetchNow (s : State) : Fetched :=
  match s.issue with
  | none => .out s
  | some n =>
    match s.warp? n.uid n.wid with
    | none => .out { s with issue := none }
    | some w =>
      match w.bundle, w.line with
      | some x, some b =>
        let lw := lineWord b.data
        if b.line ≠ lineOf x.pc.toNat then .out { s with issue := none }
        else
          match b.st with
          | .wanted => .out { s with issue := none }
          | .refetch => .out { s with issue := none }
          | .fault code cause level => .out (s.fetchFault w x code cause level x.pc.toNat)
          | .parity => .out (s.fetchFault w x FaultCode.codeParity.code 0 0 0)
          | .good =>
            if lineWordBad lw then .out (s.fetchFault w x FaultCode.illegal.code 0 0 0)
            else if !isSlot x.pc.toNat || (landing w x && !lwTarget lw (slotOf x.pc)) then
              .out (s.fetchFault w x FaultCode.target.code 0 0 0)
            else
              let word := slotWord b.data (slotOf x.pc)
              match decodeWord word with
              | .ok i => .instr i
              | .error _ =>
                -- a reserved encoding: the guard first, then ILLEGAL (R80, R82)
                match s.issueCtx (readCommon word) with
                | none => .out { s with issue := none }
                | some c =>
                  let boundary := c.beginners != 0
                  if boundary && !s.checksIn c.w then
                    .out ((s.modWarp w.uid w.wid fun w => { w with atBoundary := true }).stalled c)
                  else
                    let c := c.begun
                    let s := s.setWarp c.w
                    if c.active = 0 then
                      .out ((s.setWarp (c.w.opened c.pc (s.ctx c.b.ctx).phase)).retire c (.nop (bareForm (readCommon word))) fun _ n => n)
                    else
                      .out (s.issued.takeFault c.w (c.record .illegal c.lane0))
      | _, _ => .out { s with issue := none }

end Sys2Proof.Machine
end

