-- ==== Sys2Proof/Machine/Lane.lean ====
section
/-! DEFINITION. Comparisons and predicate logic (class 0x0E) and lane operations (class 0x0F). -/

namespace Sys2Proof.Machine

/-! ### Comparisons and predicates (R151 to R153) -/

/-- A condition code (R151). -/
def condOf (sub : Nat) (lt eq : Bool) : Bool :=
  match sub with
  | 0 => eq
  | 1 => !eq
  | 2 => lt
  | 3 => lt || eq
  | 4 => !lt && !eq
  | _ => !lt

/-- CMP (R151). -/
def execCmp (f : RegForm) (s : State) : Out :=
  compute (.cmp f) s false fun c l =>
    let two := Ty.is64 f.ty
    let a := intVal f.ty (srcA c f two f.ty l)
    let b := intVal f.ty (srcB c f two f.ty l)
    (predWrite f.d.toNat l f.c.u (condOf f.sub.toNat (decide (a < b)) (a == b)), 0)

/-- A floating comparison (R152): the result and nv. -/
def fcmpBits (F : Fmt) (sub a b : Nat) : Bool × Flags :=
  let x := F.dec a
  let y := F.dec b
  if x.isNan || y.isNan then
    (sub == 1 || sub == 6, if x.isSig || y.isSig || (2 ≤ sub && sub ≤ 5) then flagNv else 0)
  else
    let c := fcompare x y
    (if sub = 6 then false else if sub = 7 then true else condOf sub (decide (c < 0)) (c == 0), 0)

/-- FCMP (R152). -/
def execFcmp (f : RegForm) (s : State) : Out :=
  compute (.fcmp f) s true fun c l =>
    let two := Ty.is64 f.ty
    let (r, fl) := fcmpBits (tyFmt f.ty) f.sub.toNat (srcA c f two f.ty l) (srcB c f two f.ty l)
    (predWrite f.d.toNat l f.c.u r, fl)

/-- A predicate operation with optional inversions (R153). -/
def predInstr (i : Instr) (f : RegForm) (s : State) (op : Bool → Bool → Bool) : Out :=
  compute i s false fun c l =>
    let a := predBit c f.a l != f.sub.getLsbD 0
    let b := predBit c f.b l != f.sub.getLsbD 1
    (predWrite f.d.toNat l f.c.u (op a b != f.sub.getLsbD 2), 0)

/-- PAND (R153). -/
def execPand (f : RegForm) (s : State) : Out := predInstr (.pand f) f s fun a b => a && b
/-- POR (R153). -/
def execPor (f : RegForm) (s : State) : Out := predInstr (.por f) f s fun a b => a || b
/-- PXOR (R153). -/
def execPxor (f : RegForm) (s : State) : Out := predInstr (.pxor f) f s fun a b => a != b
/-- PNOT (R153). -/
def execPnot (f : RegForm) (s : State) : Out := predInstr (.pnot f) f s fun a _ => !a
/-- PMOV (R153). -/
def execPmov (f : RegForm) (s : State) : Out := predInstr (.pmov f) f s fun a _ => a

/-- PMOV_PACK (R153): all 32 lanes, active or not (R134). -/
def execPmovPack (f : RegForm) (s : State) : Out :=
  compute (.pmovPack f) s false fun c l => putD1 f l (c.w.pget f.a.toNat).toNat

/-- PMOV_UNPACK (R153). -/
def execPmovUnpack (f : RegForm) (s : State) : Out :=
  compute (.pmovUnpack f) s false fun c l =>
    (predWrite f.d.toNat l false (srcA c f false .b32 l / 2 ^ l % 2 == 1), 0)

/-! ### Lane operations (R155 to R158) -/

/-- The source lane of `shfl` (R156), before the fall-back to the lane itself. -/
def shflSrc (sub l b : Nat) : Int :=
  match sub with
  | 0 => ((b % 32 : Nat) : Int)
  | 1 => (((l + b) % 32 : Nat) : Int)
  | 2 => (l : Int) + (BitVec.ofNat 32 b).toInt
  | _ => ((Nat.xor l (b % 32) : Nat) : Int)

/-- The lane that `shfl` reads for a lane (R156). -/
def shflLane (c : Ic) (f : RegForm) (l : Nat) : Nat :=
  let j := shflSrc f.sub.toNat l (srcB c f false .n32 l)
  if j < 0 ∨ j > 31 then l else j.toNat

/-- Results in flight that write the element of A in a lane outside the active set (R155). -/
def State.inFlight (s : State) (c : Ic) (f : RegForm) (k : Nat) : List Owed :=
  if c.active.getLsbD k then []
  else s.owed.filter fun o => o.uid == c.w.uid && o.wid == c.w.wid &&
    o.writes.any fun x => x.1 == .vec f.a.toNat k || x.1 == .vec (f.a.toNat + 1) k

/-- The registers as a lane of `shfl` collects its operand from lane `k` (R155): as they stand, or with a result in flight written. Which
is free for each reading lane (log entry 97). -/
def State.laneWarp (s : State) (c : Ic) (f : RegForm) (k l : Nat) : Warp :=
  let os := s.inFlight c f k
  match Config.free s.freeCtr (64 + l) % (os.length + 1) with
  | 0 => c.w
  | n + 1 => c.w.puts ((os[n]?.map Owed.writes).getD [])

/-- What `shfl` gives a lane (R155, R156). -/
def State.shflOut (s : State) (c : Ic) (f : RegForm) (l : Nat) : LaneOut :=
  let k := shflLane c f l
  putD f l (srcA { c with w := s.laneWarp c f k l } f (Ty.is64 f.ty) f.ty k)

/-- SHFL (R155, R156). -/
def execShfl (f : RegForm) (s : State) : Out :=
  run (.shfl f) s fun c s => .next (owed c { s with freeCtr := s.freeCtr + 1 } f.c.u false (s.shflOut c f))

/-- VOTE (R157). -/
def execVote (f : RegForm) (s : State) : Out :=
  compute (.vote f) s false fun c l =>
    let m := c.w.pget f.a.toNat &&& c.active
    match f.sub.toNat with
    | 0 => (predWrite f.d.toNat l false (m == c.active), 0)
    | 1 => (predWrite f.d.toNat l false (m != 0), 0)
    | 2 => putD1 f l m.toNat
    | 3 => putD1 f l (popCount m)
    | _ => (predWrite f.d.toNat l false (m == c.active || m == 0), 0)

/-- The operations of `redux` (R157), by sub code 0 to 5. -/
def reduxOp (t : Ty) (sub a b : Nat) : Nat :=
  match sub with
  | 0 => (a + b) % 2 ^ 32
  | 1 => if intVal t a ≤ intVal t b then a else b
  | 2 => if intVal t a ≥ intVal t b then a else b
  | 3 => Nat.land a b
  | 4 => Nat.lor a b
  | _ => Nat.xor a b

/-- Fold a list from its first element. -/
def foldFirst (op : Nat → Nat → Nat) : List Nat → Nat
  | [] => 0
  | x :: xs => xs.foldl op x

/-- REDUX (R157). -/
def execRedux (f : RegForm) (s : State) : Out :=
  compute (.redux f) s false fun c l =>
    putD f l (foldFirst (reduxOp f.ty f.sub.toNat) ((lanesOf c.active).map fun j => srcA c f false f.ty j))

/-- MATCH (R157). -/
def execMatchL (f : RegForm) (s : State) : Out :=
  compute (.matchL f) s false fun c l =>
    let v (j : Nat) := srcA c f (Ty.is64 f.ty) f.ty j
    let m := maskOf ((lanesOf c.active).filter fun j => v j == v l)
    putD1 f l (if f.sub == 0 then m.toNat else if m = c.active then c.active.toNat else 0)

/-- The operation of a `prefix` sub code, and whether it is exclusive (R154, R158). -/
def scanOp (sub : Nat) : Nat × Bool :=
  match sub with
  | 0 => (0, false) | 1 => (0, true) | 2 => (1, false) | 3 => (2, false) | 4 => (3, false) | 5 => (4, false)
  | 6 => (5, false)
  | _ => (5, true)

/-- PREFIX (R158). -/
def execPrefixL (f : RegForm) (s : State) : Out :=
  compute (.prefixL f) s false fun c l =>
    let (op, excl) := scanOp f.sub.toNat
    let xs := ((lanesOf c.active).filter fun j => if excl then j < l else j ≤ l).map fun j => srcA c f false f.ty j
    putD f l (foldFirst (reduxOp f.ty op) xs)

/-- VOTE_AGREE (R206, R207): `vote.same`, and one more on the context's DEPUSE. -/
def execVoteAgree (f : RegForm) (s : State) : Out :=
  run (.voteAgree f) s fun c s =>
    let m := c.w.pget f.a.toNat &&& c.active
    .next (owed c (s.countLegacy c.b.ctx) false false fun l =>
      (predWrite f.d.toNat l false (m == c.active || m == 0), 0))

end Sys2Proof.Machine
end

