-- ==== Sys2Proof/Machine/Control.lean ====
section
/-! DEFINITION. Control transfers (class 0x01), traps and waiting (class 0x02), barriers (class 0x03) and the legacy
forms (class 0x07). -/

namespace Sys2Proof.Machine

/-! ### Control transfers (R173 to R176) -/

/-- A line of instructions as a warp fetches it (R53, R56, R411, R414): `flip` is what goes wrong on the way, and `last` says that this
is the second fetch. Only the global window holds code; an I/O page's line is free (log entry 13). A line that cannot be reached stays
wanted (R459), and one that has had no route for 100 µs is poisoned, as for a load (R468). -/
def State.fetchLine (s : State) (w : Warp) (line : Nat) (flip : BitVec 512) (last : Bool) : LineBuf × State :=
  let core := w.core
  let ctx := s.warpCtx w
  let bad (code : FaultCode) (cause level : Nat) : LineBuf :=
    { line := line, st := .fault code.code cause level, data := 0 }
  match windowOf (BitVec.ofNat 64 line) with
  | .global va =>
    match s.xlat (laneUnits core) ctx va .fetch with
    | (.error x, s) => (bad x.code x.cause x.level, s)
    | (.ok x, s) =>
      if !s.answers core x.loc x.pa then
        (if !s.routed x.loc && s.askedLong w line then bad .poison 0 0 else { line := line, st := .wanted, data := 0 }, s)
      else if (s.band (lineOf x.pa)).poison != 0 then (bad .poison 0 0, s)
      else
        let (raw, s) := if x.loc = locIO then let (bs, s) := s.drawBytes 64; (lineOfBytes bs, s) else (s.lineData (lineOf x.pa), s)
        let s := s.forward core ctx va x.loc x.pa x.tpin
        let d := raw ^^^ flip
        ({ line := line, data := d, st := if lineParityOk d then .good else if last then .parity else .refetch }, s)
  | .reserved => (bad .pageAbsent 4 0, s)
  | _ => (bad .pagePerm 0 0, s)

/-- Does a fetched line let a transfer land on a PC (R58)? -/
def landsOn (b : LineBuf) (pc : Nat) : Bool := isSlot pc && lwTarget (lineWord b.data) (pc % 64 / 12)

/-- A fault of a landing line, and its code, cause and level. -/
def LineBuf.fault (b : LineBuf) : Option (Byte × Nat × Nat) :=
  match b.st with
  | .fault code cause level => some (code, cause, level)
  | .parity => some (FaultCode.codeParity.code, 0, 0)
  | _ => none

/-- Fetch the landing lines of the active lanes: the lines, in lane order, and the state with what the TLBs learnt. -/
def State.landings (s : State) (w : Warp) : List (Nat × BitVec 64) → List (Nat × BitVec 64 × LineBuf) × State
  | [] => ([], s)
  | (l, t) :: rest =>
    if 2 ^ 55 ≤ t.toNat then s.landings w rest
    else
      let (b, s) := s.fetchLine w (lineOf t.toNat) 0 true
      let (bs, s) := s.landings w rest
      ((l, t, b) :: bs, s)

/-- A control transfer (R174): `tgt` gives each active lane's target; `link` writes the return PC (R175), at
issue: within the run, a later read finds the new value (R63 leaves it open, log entry 14). -/
def transfer (i : Instr) (f : BrForm) (s : State) (link : Bool) (tgt : Ic → Nat → BitVec 64) : Out :=
  run i s fun c s =>
    let ts := (lanesOf c.active).map fun l => (l, tgt c l)
    if f.uni && ts.any fun x => x.2 != tgt c c.lane0 then .fault (c.record .nonuniform c.lane0)
    else
      let (bs, s) := s.landings c.w ts
      match bs.find? (fun x => x.2.2.fault.isSome), bs.find? (fun x => x.2.2.st == .wanted) with
      | some (l, t, b), _ =>
        let (code, cause, level) := b.fault.getD (0, 0, 0)
        .fault { c.record .target l t with code := code, cause := cause, level := level }
      | none, some x => .stall (s.modWarp c.w.uid c.w.wid fun w => w.asks x.2.2.line s.time)
      | none, none =>
        if bs.length < ts.length || bs.any fun x => !landsOn x.2.2 x.2.1.toNat then .fault (c.record .target c.lane0)
        else
          let ret : Nat := (nextPc c.pc).toNat
          let s := s.modWarp c.w.uid c.w.wid fun w =>
            if link then w.puts (ts.flatMap fun x => vecWrite f.link.toNat x.1 true ret) else w
          .done s fun l _ => (tgt c l).setWidth 55

def relTarget (f : BrForm) (c : Ic) : BitVec 64 := c.pc.setWidth 64 + f.disp.signExtend 64
def idxTarget (f : BrForm) (c : Ic) (l : Nat) : BitVec 64 :=
  (if f.indexUni then c.w.sget64 f.index.toNat else c.w.vget64 f.index.toNat l) + f.disp.signExtend 64

/-- BRA (R174). -/
def execBra (f : BrForm) (s : State) : Out := transfer (.bra f) f s false fun c _ => relTarget f c
/-- BRX (R174). -/
def execBrx (f : BrForm) (s : State) : Out := transfer (.brx f) f s false (idxTarget f)
/-- CALL (R175). -/
def execCall (f : BrForm) (s : State) : Out := transfer (.call f) f s true fun c _ => relTarget f c
/-- CALLI (R175). -/
def execCalli (f : BrForm) (s : State) : Out := transfer (.calli f) f s true (idxTarget f)
/-- RET (R174). -/
def execRet (f : BrForm) (s : State) : Out := transfer (.ret f) f s false fun c l => c.w.vget64 f.link.toNat l

/-- EXIT (R176): a warp's last exit releases at block scope (R171). -/
def execExit (f : BrForm) (s : State) : Out :=
  run (.exit f) s fun c s =>
    if c.othersLive then .next (s.endThreads c) else withRelease s c .block fun s => .next (s.endThreads c)

/-! ### Traps and waiting (R177 to R180) -/

/-- Park the active threads at the next instruction and fault the warp once (R178). A core without a free holding slot
leaves everything as it was (R427). -/
def State.trapNow (s : State) (c : Ic) (code : FaultCode) (aux : Nat) : State :=
  let nx := nextPc c.pc
  let t0 := c.w.thread c.lane0
  let r : FaultRec := { c.record code c.lane0 with aux := aux, rentry := nx, rseq := t0.rseq + 1 }
  let w : Warp := ((s.warp? c.w.uid c.w.wid).getD c.w).modThreads c.active fun _ t =>
    { t.fresh with pc := nx, rentry := nx, rseq := t.rseq + 1, newRegion := false, reenter := true, landed := true }
  let s' := (s.setWarp w).takeFault w r c.active
  match s'.warp? c.w.uid c.w.wid with
  | some x => if x.faultStall.isSome then s.takeFault c.w r else s'
  | none => s'

/-- TRAP (R178). -/
def execTrap (f : RegForm) (s : State) : Out :=
  run (.trap f) s fun c s =>
    if s.strongBusy c.w.uid c.w.wid then .stall s else .raw (s.trapNow c .trap f.imm.toNat)

/-- BRK (R442). -/
def execBrk (f : RegForm) (s : State) : Out :=
  run (.brk f) s fun c s =>
    if s.strongBusy c.w.uid c.w.wid || !s.blockCanLeave c.b then .stall s
    else .raw ((s.trapNow c .brk f.imm.toNat).swapOut c.w.uid c.w.wid)

/-- PAUSE (R179). -/
def execPause (f : RegForm) (s : State) : Out :=
  run (.pause f) s fun c s =>
    .next (s.modWarp c.w.uid c.w.wid fun w => w.modThreads c.active fun l t =>
      let n := min 65535 (srcA c f false .n32 l)
      if n = 0 then t else { t with st := .paused n })

/-- YIELD (R180). -/
def execYield (f : RegForm) (s : State) : Out :=
  run (.yield f) s fun c s => .next (s.modWarp c.w.uid c.w.wid fun w => { w with yielded := true })

/-! ### Barriers (R181 to R188) -/

/-- BAR (R182). -/
def execBar (f : RegForm) (s : State) : Out :=
  run (.bar f) s fun c s =>
    let id := f.imm.toNat
    if c.b.bars.any fun x => x.id == id && x.need.isSome then c.illegal
    else withRelease s c .block fun s =>
      .next (((s.park c .barrier).modBlock c.b.uid fun b => b.arrive id c.arrivals none).barsCheck c.b.uid)

/-- BAR_CNT (R206). -/
def execBarCnt (f : RegForm) (s : State) : Out :=
  run (.barCnt f) s fun c s =>
    let id := f.sub.toNat
    let n := srcA c f false .n32 c.lane0
    let ok := (lanesOf c.active).all fun l => srcA c f false .n32 l == n
    let open? := c.b.bars.find? fun x => x.id == id
    if n = 0 || 1024 < n || !ok || open?.any (fun x => x.need != some n) then c.illegal
    else withRelease s c .block fun s =>
      let s := ((s.countLegacy c.b.ctx).park c .barrier).modBlock c.b.uid fun b => b.arrive id c.arrivals (some n)
      match ((s.block? c.b.uid).bind fun b => b.bars.find? fun x => x.id == id) with
      | some x => .next (if n ≤ x.arrived.length then s.barComplete c.b.uid x else s)
      | none => .next s

/-- CLBAR (R185). -/
def execClbar (f : RegForm) (s : State) : Out :=
  run (.clbar f) s fun c s =>
    if c.b.parent.isSome || (s.grid? c.b.gid).all fun g => g.launch.cgroup == 0 then c.illegal
    else withRelease s c .cluster fun s =>
      .next (((s.park c .barrier).modBlock c.b.uid fun b => { b with clArr := b.clArr ++ c.arrivals }).clusterBar c.b.uid)

/-- GBAR (R186). -/
def execGbar (f : RegForm) (s : State) : Out :=
  run (.gbar f) s fun c s =>
    if c.b.parent.isSome || (s.grid? c.b.gid).all fun g => !g.launch.cores then c.illegal
    else withRelease s c .device fun s =>
      .next (((s.park c .barrier).modBlock c.b.uid fun b => { b with gArr := b.gArr ++ c.arrivals }).gridBar c.b.gid)

/-- CVINIT (R187). -/
def execCvinit (f : RegForm) (s : State) : Out :=
  run (.cvinit f) s fun c s =>
    let n := srcA c f false .n32 c.lane0
    let cv := c.b.cv f.d.toNat
    if n = 0 || 32 < n || c.b.nwarps < n || cv.state = 1 then c.illegal
    else if cv.state = 2 then .stall s
    else .next (s.modBlock c.b.uid fun b => { b with cvs := assocSet b.cvs f.d.toNat { state := 1, n := n } })

/-- The fields of a `bar.phase` at a PC (R181). -/
def phaseOpOf (f : RegForm) (pc : Pc) : PhaseOp :=
  { pc := pc, vb := f.a.toNat, vmask := f.imm, sb := f.d.toNat, smask := f.b ++ f.e, wc := f.sub.getLsbD 0 }

/-- Where the arriving threads of the issuing bundle go back to when their `bar.phase` faults (R188). -/
def Ic.goBack (c : Ic) : List PhaseBack :=
  (lanesOf c.active).map fun l =>
    { wid := c.w.wid, lane := l, pc := c.pc, rentry := (c.w.thread l).rentry, rseq := (c.w.thread l).rseq }

/-- BAR_PHASE (R188, R189): its write-backs are in before it arrives, and the release is the completion's. A save slot that cannot be written faults at the instruction of the arriving warp (DESIGN CHOICE, log
entry 79). -/
def execBarPhase (f : RegForm) (s : State) : Out :=
  run (.barPhase f) s fun c s =>
    let p := phaseOpOf f c.pc
    if c.w.outstanding ≠ 0 then .stall s
    else
      match s.phaseLines c.b p with
      | .error (x, a) =>
        .fault { c.record x.code c.lane0 (BitVec.ofNat 64 a) 2 with cause := x.cause, level := x.level }
      | .ok _ => withWritten s c .device fun s =>
        let s := (s.park c .barrier).modWarp c.w.uid c.w.wid fun w => w.modThreads c.active fun _ t =>
          { t with pc := nextPc c.pc }
        let s := s.modBlock c.b.uid fun b =>
          { b with
            phArr := b.phArr ++ c.arrivals, phClash := b.phClash || b.phase.any fun q => q != p,
            phase := b.phase.orElse fun _ => some p, phBack := b.phBack ++ c.goBack }
        -- when the arrivals clash, this one is not performed
        let clash := ((s.block? c.b.uid).map fun b => b.phClash && s.allIn c.b.uid b.phArr).getD false
        if clash then .raw (s.phaseBar c.b.uid) else .next (s.phaseBar c.b.uid)

/-! ### Legacy forms (R206, R207, R450) -/

/-- Add one to a saturating counter of 32 bits. -/
def satInc (v : Word) : Word := if v = BitVec.allOnes 32 then v else v + 1

def State.countFlush (s : State) : State := { s with plat := { s.plat with nflush := satInc s.plat.nflush } }
def State.countHalt (s : State) : State := { s with plat := { s.plat with nhalt := satInc s.plat.nhalt } }

/-- Write-backs of a core that no home has acknowledged, those that no warp's interval owns among them. -/
def State.wbsOut (s : State) (core : Nat) : Bool :=
  (s.warps.any fun w => w.core == core && w.resident && !w.wbs.isEmpty)
    || s.msgs.any fun m =>
      match m.kind with
      | .wb x => x.core == core
      | .wbAck owners _ _ k _ _ => owners.isEmpty && k == core
      | _ => false

/-- A trapped legacy form: it is performed, and counted, once its trap is taken (R207, R450); while it waits for a holding slot it is
not. -/
def State.trapCounted (s : State) (c : Ic) (code : Nat) (count : State → State) : Res :=
  if s.strongBusy c.w.uid c.w.wid then .stall s
  else
    let t := s.trapNow c .trap code
    .raw (if (t.warp? c.w.uid c.w.wid).any fun w => w.faultStall.isSome then t else count t)

/-- SYS_FLUSH (R206, R385, R450). -/
def execSysFlush (f : RegForm) (s : State) : Out :=
  run (.sysFlush f) s fun c s =>
    match s.plat.ladderFlush.toNat with
    | 3 => c.illegal
    | 2 => s.trapCounted c 0xF0 State.countFlush
    | _ =>
      let s := if c.w.flushed then s
        else (s.flushCore c.w.core).modWarp c.w.uid c.w.wid fun w => { w with flushed := true }
      if s.wbsOut c.w.core then .stall s
      else withBoth s c .device fun s => .next s.countFlush

/-- SYS_HALT (R206, R450): trapped in every firmware image, or removed. -/
def execSysHalt (f : RegForm) (s : State) : Out :=
  run (.sysHalt f) s fun c s =>
    if s.plat.ladderHalt = 3 then c.illegal else s.trapCounted c 0xF1 State.countHalt

end Sys2Proof.Machine
end

