-- ==== Sys2Proof/Machine/Distribute.lean ====
section
/-! DEFINITION. The block distributor (R346 to R349, R362, R367, R371, R374): accepting grids, finding a core for a block,
evicting to make room, placing, and restoring. -/

namespace Sys2Proof.Machine

/-! ### Accepting grids (R346, R362) -/

/-- An entry of a task queue that waits for acceptance (R358): a ready task, a queued grid that no task made, the ready phase of a
block that has left its core, with its grid, or a spawned child, with the grid of its parent. -/
inductive Entry where
  | task (t : Task)
  | grid (g : Grid)
  | phase (b : Block) (g : Grid)
  | child (b : Block) (g : Grid)
  deriving DecidableEq, Repr

def Entry.prio : Entry → Nat
  | .task t => t.prio
  | .grid g => g.launch.prio
  | .phase _ g => g.launch.prio
  | .child b _ => b.prio

/-- Device time at which it became ready. -/
def Entry.readyAt : Entry → Nat
  | .task t => t.readyAt
  | .grid g => g.readyAt
  | .phase b _ => b.readySince
  | .child b _ => b.readySince

/-- The cycle of its queue's home die in which it became ready (R358). -/
def Entry.readyCyc : Entry → Nat
  | .task t => t.readyCyc
  | .grid g => g.readyCyc
  | .phase b _ => b.readyCyc
  | .child b _ => b.readyCyc

def Entry.queue : Entry → Nat
  | .task t => t.queue
  | .grid g => g.launch.queue
  | .phase _ g => g.launch.queue
  | .child _ g => g.launch.queue

def Entry.ctx : Entry → Nat
  | .task t => t.ctx
  | .grid g => g.ctx
  | .phase b _ => b.ctx
  | .child b _ => b.ctx

/-- Among entries that became ready in one cycle (R362): tasks by index, grids by `%gid`, phases by `%gid` and `%bid`, children in
spawn order. -/
def Entry.rank : Entry → Nat × Nat × Nat
  | .task t => (0, t.index, 0)
  | .grid g => (1, g.num.toNat, 0)
  | .phase b g => (2, g.num.toNat, b.bid)
  | .child b _ => (3, (b.parent.map Prod.snd).getD 0, b.uid)

def rankBelow (x y : Nat × Nat × Nat) : Bool :=
  x.1 < y.1 || (x.1 == y.1 && (x.2.1 < y.2.1 || (x.2.1 == y.2.1 && x.2.2 < y.2.2)))

/-- The order of one queue (R362). -/
def Entry.before (x y : Entry) : Bool :=
  if x.prio ≠ y.prio then y.prio < x.prio
  else if x.readyCyc ≠ y.readyCyc then x.readyCyc < y.readyCyc
  else rankBelow x.rank y.rank

/-- The order among the heads of the queues (R362). -/
def Entry.beforeHead (x y : Entry) : Bool :=
  if x.prio ≠ y.prio then y.prio < x.prio
  else if x.readyAt ≠ y.readyAt then x.readyAt < y.readyAt
  else x.queue < y.queue

/-- The entry that a block is, if it is one: the ready phase of a block that has left its core (R363), or a child not placed yet
(R364). -/
def State.blockEntry (s : State) (b : Block) : Option Entry :=
  match s.grid? b.gid, b.st with
  | some g, .pending => if b.parent.isSome && b.accepted.isNone then some (.child b g) else none
  | some g, .phase true => if !s.holdsCore b && b.accepted.isNone then some (.phase b g) else none
  | _, _ => none

/-- The entries that wait. -/
def State.entries (s : State) : List Entry :=
  (s.tasks.filter fun t => t.state == 2).map Entry.task ++ (s.grids.filter fun g => g.st == .queued).map Entry.grid
    ++ s.blocks.filterMap s.blockEntry

/-- Is a block resident or evicted, and so its context on the device (R367)? -/
def Block.onDevice (b : Block) : Bool := !(b.st == .pending || b.st == .retired)

/-- Contexts with blocks resident or evicted (R367). -/
def State.busyCtxs (s : State) : List Nat := ((s.blocks.filter Block.onDevice).map Block.ctx).eraseDups

/-- May a context have blocks on the device: it has, or fewer than 64 others have (R367)? -/
def State.ctxRoom (s : State) (ctx : Nat) : Bool := s.busyCtxs.contains ctx || s.busyCtxs.length < 64

/-- May an entry be accepted: it is not of a 65th context, and a queued grid's partition is valid (R338, R367)? -/
def State.acceptable (s : State) (e : Entry) : Bool :=
  s.ctxRoom e.ctx &&
    match e with
    | .grid g => (s.plat.partitions.getD g.launch.part {}).valid
    | _ => true

/-- The entry that the distributor takes next (R362): the best of the heads of the queues. -/
def State.nextEntry (s : State) : Option Entry :=
  let es := s.entries.filter s.acceptable
  bestBy Entry.beforeHead (((es.map Entry.queue).eraseDups).filterMap fun q => bestBy Entry.before (es.filter fun e => e.queue == q))

/-- Accept a grid (R338, R346): it keeps its partition's entry; the token of a `launch` without `.wait` completes (R193),
and so does a host launch (R475). -/
def State.acceptGrid (s : State) (g : Grid) : State :=
  let s := s.modGrid g.gid fun g =>
    { g with st := .accepted, acceptedAt := s.time, partition := s.plat.partitions.getD g.launch.part {} }
  let s := s.traceEvent (g.launch.queue / 16) 1 none none none none g.ctx
  let s : State :=
    match g.host with
    | none => s
    | some (a, irq) => s.hostDone a irq g.ctx 0 0
  match g.token, g.wait with
  | some e, false => s.completeEngine e 0 0
  | _, _ => s

/-- Accept a ready task's grid after a second check of its launch record; a failure aborts the task (R201, R360, R361). -/
def State.acceptTask (s : State) (t : Task) : State :=
  let again : Option (Launch × Kernel × Partition) :=
    match (s.readVirt [] t.ctx t.launchAt.toNat 2).1 with
    | .error _ => none
    | .ok bs => s.checkLaunch t.ctx (natOfBytes bs)
  let la := t.launchAt.toNat
  let s := s.forwardLines (200 * (t.queue / 16)) t.ctx la 2
  match again with
  | none =>
    let s := s.reportFailed (taskEnd (s.tasks.length + 1) s t.queue t.index (some FaultCode.illegal.code))
    s.report (((s.block? t.parentBlock).map Block.core).getD 0)
      { ctx := t.ctx, gen := t.gen, code := FaultCode.illegal.code, src := 3, okind := 5, onum := BitVec.ofNat 32 t.index }
  | some (l, k, p) =>
    let t' : Task := { t with state := 3 }
    let s := (s.modTask t.queue t.index fun _ => t').taskWrite t'
    let g : Grid :=
      { gid := 0, ctx := t.ctx, depth := t.depth, launch := { l with param := t.param, prio := t.prio }, kernel := k,
        partition := p, parent := some t.parentGrid, parentBlock := some t.parentBlock, task := some (t.queue, t.index),
        stamp := t.stamp }
    let (gid, s) := s.newGrid g
    match s.grid? gid with
    | some g => s.acceptGrid g
    | none => s

/-- A phase or a child is pending from now on, at its place in the order of acceptance (R346). -/
def State.acceptBlock (s : State) (uid : Nat) : State :=
  { s with nextId := s.nextId + 1 }.modBlock uid fun b => { b with accepted := some s.nextId }

/-- Accept an entry. -/
def State.acceptEntry (s : State) (e : Entry) : State :=
  match e with
  | .task t => s.acceptTask t
  | .grid g => s.acceptGrid g
  | .phase b _ => s.acceptBlock b.uid
  | .child b _ => s.acceptBlock b.uid

/-- GRID_ACCEPT (R346): the next entry in the order of R362. A device that a thermal trip has stopped takes no work (R462). -/
def execGridAccept (s : State) : Out :=
  happens s <| if s.plat.stopped then none else s.nextEntry.map s.acceptEntry

/-! ### What waits for a core -/

/-- How a block comes to a core. -/
inductive Seat where
  /-- For the first time, from its grid. -/
  | fresh
  /-- A spawned child. -/
  | child
  /-- A ready phase (R363). -/
  | phase
  /-- Back from eviction, as a whole (R374). -/
  | back
  /-- One warp, back to its block's core. -/
  | warp (wid : Nat)
  deriving DecidableEq, Repr

/-- A block that is to be seated: on one of these cores. -/
structure Want where
  b : Block
  seat : Seat
  cores : List Nat
  deriving DecidableEq, Repr

/-- Warps that need a slot. -/
def State.wantWarps (s : State) (x : Want) : List Warp :=
  match x.seat with
  | .fresh => []
  | .child => []
  | .warp wid => (s.warpsOf x.b.uid).filter fun w => w.wid == wid
  | _ => (s.warpsOf x.b.uid).filter fun w => !w.released

def State.wantCount (s : State) (x : Want) : Nat :=
  match x.seat with
  | .fresh => x.b.nwarps
  | .child => x.b.nwarps
  | _ => (s.wantWarps x).length

/-- Block-owned resources are wanted too. -/
def Want.owned (x : Want) : Bool :=
  match x.seat with
  | .warp _ => false
  | _ => true

def State.gridOf (s : State) (b : Block) : Grid := (s.grid? b.gid).getD { gid := b.gid, ctx := b.ctx }

/-- What a core has free for it (R343). -/
def State.wantRoom (s : State) (x : Want) (core : Nat) : CoreRoom :=
  let g := s.gridOf x.b
  s.room core g.launch.part g.partition.wgran

/-! ### Wells for a placement (R344, R434, R435) -/

/-- Evicted blocks whose wells stay in a cluster's pool, in the candidate order of R371. -/
def State.pinned (s : State) (cl : Nat) : List Block :=
  sortBy (fun x y => s.effPrio x.ctx < s.effPrio y.ctx || (s.effPrio x.ctx == s.effPrio y.ctx && y.start < x.start))
    (s.blocks.filter fun b =>
      b.cluster == some cl && !(s.spillable b).isEmpty &&
        match b.st with
        | .evicted _ => true
        | _ => false)

/-- Does the pool of a cluster hold the wells that a block wants? -/
def State.poolOk (s : State) (x : Want) (cl : Nat) : Bool :=
  match x.seat with
  | .warp _ => true
  | .back =>
    (freshBanks (x.b.bank.filter fun y => (s.spilledSlots x.b.uid).contains y.1) s (s.wellsTaken cl)).isSome
  | _ => (takeWells 13 s (s.wellsTaken cl) 0 x.b.kernel.granules).isSome

/-- Spill evicted blocks' wells until the pool holds what a block wants (R434). -/
def spillFor (x : Want) (cl : Nat) : Nat → State → Option State
  | 0, s => if s.poolOk x cl then some s else none
  | n + 1, s =>
    if s.poolOk x cl then some s
    else
      match (s.pinned cl).findSome? fun b => if b.uid = x.b.uid then none else s.spill b with
      | none => none
      | some s => spillFor x cl n s

/-! ### Seating (R343, R349, R374) -/

/-- Seat a block on a core whose schedulers take its warps so. -/
def State.seat (s : State) (x : Want) (core : Nat) (scheds : List Nat) : Option State :=
  let b := x.b
  match spillFor x (coreCluster core) s.blocks.length s with
  | none => none
  | some s =>
    match x.seat with
    | .warp wid =>
      match s.saveLines b, s.warp? b.uid wid with
      | .ok pas, some w =>
        match s.savedWarp b pas w with
        | some w => some ((s.restoreWarp b w core (scheds.headD 0)).phaseBar b.uid)
        | none => some (s.warpIllegal b wid)
      | _, _ => none
    | .back => s.restoreBlock b core scheds
    | .phase => (s.seatAll (s.wantWarps x) core scheds).phaseBegin b.uid core
    | _ =>
      match takeWells 13 s (s.wellsTaken (coreCluster core)) 0 b.kernel.granules with
      | none => none
      | some (bank, s) =>
        let stamp :=
          match b.parent with
          | some (p, _) => (s.warpsOf p).foldl (fun n w => max n w.relStamp) 0
          | none => (s.gridOf b).stamp
        some (s.startBlock b core scheds bank stamp)

/-- Seat a block on a core if it fits there now. -/
def State.seatOn (s : State) (x : Want) (core : Nat) : Option State :=
  match (s.wantRoom x core).take x.b.kernel (s.wantCount x) x.owned with
  | none => none
  | some (scheds, _) => s.seat x core scheds

/-- Resident blocks of a grid on a core. -/
def State.residentsOf (s : State) (gid core : Nat) : Nat :=
  (s.blocks.filter fun b => b.gid == gid && b.core == core && s.holdsCore b).length

/-- The core that a block goes to (R347), among those that a test accepts: none of a die in weight-load state (R408). -/
def State.bestCore (s : State) (x : Want) (ok : Nat → Bool) : Option Nat :=
  bestBy (fun i j =>
    let a := s.residentsOf x.b.gid i
    let b := s.residentsOf x.b.gid j
    a < b || (a == b && i < j)) (x.cores.filter fun c => !(s.die (coreDie c)).weightLoad && ok c)

/-! ### Making room: descheduled phases (R189) and eviction (R371) -/

/-- Blocks descheduled at `bar.phase` leave a core for other work: those that are not ready at once, ready ones for a
higher priority (R189 step 5). -/
def State.shed (s : State) (core prio : Nat) : State :=
  (s.blocks.filter fun b => b.core == core && s.holdsCore b &&
      match b.st with
      | .phase ready => !ready || (s.gridOf b).launch.prio < prio
      | _ => false).foldl (fun (s : State) b => s.phaseLeave b.uid) s

/-- Candidate blocks on a core for an eviction on behalf of a context, in order (R371, R429): those of other contexts with
lower effective priority, later starts first. -/
def State.victims (s : State) (x : Want) (core : Nat) (spare : List Nat) : List Block :=
  sortBy (fun p q => s.effPrio p.ctx < s.effPrio q.ctx || (s.effPrio p.ctx == s.effPrio q.ctx && q.start < p.start))
    (s.blocks.filter fun b =>
      b.st == .resident && b.core == core && b.ctx != x.b.ctx && s.effPrio b.ctx < s.effPrio x.b.ctx
        && !s.privileged b.ctx && !spare.contains b.uid)

/-- Candidate warps: those of the candidate blocks, higher `%wid` first within one start time. -/
def State.warpVictims (s : State) (bs : List Block) : List Warp :=
  let key (w : Warp) : Nat × Nat :=
    match s.block? w.uid with
    | some b => (s.effPrio b.ctx, b.start)
    | none => (0, 0)
  sortBy (fun p q =>
    let a := key p
    let b := key q
    a.1 < b.1 || (a.1 == b.1 && (b.2 < a.2 || (b.2 == a.2 && q.wid < p.wid))))
    (s.warps.filter fun w => w.holds && bs.any fun b => b.uid == w.uid)

/-- The state as it would be without these blocks and warps on their cores. -/
def State.without (s : State) (bs : List Nat) (ws : List Warp) : State :=
  let blocks : List Block := s.blocks.map fun (b : Block) => if bs.contains b.uid then { b with st := .evicted false } else b
  let warps : List Warp := s.warps.map fun (w : Warp) =>
    if bs.contains w.uid || ws.any fun v => v.uid == w.uid && v.wid == w.wid then { w with resident := false } else w
  { s with blocks := blocks, warps := warps }

/-- Does the core then have the block-owned resources and wells? -/
def State.ownedFit (s : State) (x : Want) (core : Nat) : Bool :=
  !x.owned ||
    (((s.wantRoom x core).take x.b.kernel 0 true).isSome && (spillFor x (coreCluster core) s.blocks.length s).isSome)

/-- Does all of it fit? -/
def State.fits (s : State) (x : Want) (core : Nat) : Bool :=
  s.ownedFit x core && ((s.wantRoom x core).take x.b.kernel (s.wantCount x) x.owned).isSome

/-- The shortest prefix that covers a need; none when even the whole list does not. -/
def prefixFor {α : Type} (ok : List α → Bool) : List α → List α → Option (List α)
  | acc, [] => if ok acc then some acc else none
  | acc, x :: xs => if ok acc then some acc else prefixFor ok (acc ++ [x]) xs

/-- Walk a prefix from its last member back, dropping each whose removal leaves the need covered (R371): the members kept
so far, the rest of the prefix reversed. -/
def walkBack {α : Type} (ok : List α → Bool) : List α → List α → List α
  | kept, [] => kept
  | kept, x :: rest => if ok (rest.reverse ++ kept) then walkBack ok kept rest else walkBack ok (x :: kept) rest

/-- The victims of a need, in order (R371). -/
def cover {α : Type} (ok : List α → Bool) (cands : List α) : Option (List α) :=
  (prefixFor ok [] cands).map fun p => walkBack ok [] p.reverse

/-- What a core would evict for a block (R371): whole blocks for block-owned resources and wells, then single warps. -/
def State.evictPlan (s : State) (x : Want) (core : Nat) (spare : List Nat) : Option (List Nat × List Warp) :=
  let bs := s.victims x core spare
  match cover (fun us => (s.without us []).ownedFit x core) (bs.map Block.uid) with
  | none => none
  | some us =>
    (cover (fun ws => (s.without us ws).fits x core) (s.warpVictims (bs.filter fun b => !us.contains b.uid))).map
      fun ws => (us, ws)

/-- Evict one warp; a block whose last warp has left is saved as a whole (R372). -/
def State.evictOne (s : State) (b : Block) (pas : List Nat) (wid : Nat) : State :=
  let s := s.evictWarp b pas wid false
  if (s.warpsOf b.uid).any Warp.holds then s
  else (s.saveBlock b pas).modBlock b.uid fun b => { b with st := .evicted false, resume := false }

/-- What came of an attempt to seat a block: it does not fit, or a victim's save slot was refused (R514). -/
inductive Miss where
  | noRoom
  | refused (uid : Nat)
  deriving DecidableEq, Repr

/-- The first of these blocks whose save slot is refused. -/
def State.refusedOf (s : State) (us : List Nat) : Option Nat :=
  us.find? fun u =>
    match s.block? u with
    | none => false
    | some b =>
      match s.saveLines b with
      | .ok _ => false
      | .error _ => true

/-- Carry out a plan (R371, R372, R514): every victim's save slot is translated first, and every victim must be able to
leave. -/
def State.evictAll (s : State) (us : List Nat) (ws : List Warp) : Except Miss State :=
  match s.refusedOf (us ++ ws.map Warp.uid) with
  | some u => .error (.refused u)
  | none =>
    let stuck := (us.any fun u => (s.block? u).any fun b => !s.blockCanLeave b) || ws.any fun w => !s.canLeave w
    if stuck then .error .noRoom
    else
      let s : State := us.foldl (fun (s : State) u =>
        match s.block? u with
        | none => s
        | some b =>
          match s.saveLines b with
          | .ok pas => s.evictBlock b pas false none
          | .error _ => s) s
      .ok (ws.foldl (fun (s : State) w =>
        match s.block? w.uid with
        | none => s
        | some b =>
          match s.saveLines b with
          | .ok pas => s.evictOne b pas w.wid
          | .error _ => s) s)

/-- Seat one block (R347, R371): on a core where it fits, else on one that descheduled phases leave, else, with
`mode` 2, on one that evicts for it. -/
def State.place (s : State) (mode prio : Nat) (spare : List Nat) (x : Want) : Except Miss State :=
  let done (s : State) (core : Nat) : Except Miss State :=
    match s.seatOn x core with
    | some s => .ok s
    | none => .error .noRoom
  match s.bestCore x fun c => (s.seatOn x c).isSome with
  | some c => done s c
  | none =>
    match (if mode = 0 then none else s.bestCore x fun c => ((s.shed c prio).seatOn x c).isSome) with
    | some c => done (s.shed c prio) c
    | none =>
      match (if mode ≤ 1 then none else s.bestCore x fun c => ((s.shed c prio).evictPlan x c spare).isSome) with
      | none => .error .noRoom
      | some c =>
        let s := s.shed c prio
        match s.evictPlan x c spare with
        | none => .error .noRoom
        | some (us, ws) =>
          match s.evictAll us ws with
          | .error e => .error e
          | .ok s => done s c

/-- Seat several blocks at one instant, or none. -/
def placeAll (mode prio : Nat) (spare : List Nat) : List Want → State → Except Miss State
  | [], s => .ok s
  | x :: xs, s =>
    match s.place mode prio spare x with
    | .error e => .error e
    | .ok s => placeAll mode prio spare xs s

/-! ### Groups and grids at once (R340, R347, R348) -/

/-- The block that a grid makes next at a number (R31, R340). -/
def Grid.fresh (g : Grid) (uid bid : Nat) : Block :=
  { uid := uid, gid := g.gid, bid := bid, crank := if g.launch.cgroup = 0 then 0 else bid % g.launch.cgroup, ctx := g.ctx,
    depth := g.depth, ntid := g.launch.ntid, kernel := g.kernel, param := g.launch.param, prio := g.launch.prio }

/-- Seat blocks `bids` of a grid as one group on the lowest cluster that holds them all, evicting only where no cluster
does without. -/
def State.placeGroup (s : State) (g : Grid) (clusters barred spare : List Nat) (bids : List Nat) : Except Miss State :=
  let on (mode cl : Nat) : Except Miss State :=
    let cores := (g.partition.coresOf cl).filter fun c => !barred.contains c
    let wants : List Want := bids.map fun b => { b := g.fresh (s.nextId + b) b, seat := .fresh, cores := cores }
    placeAll mode g.launch.prio spare wants s
  let try' (mode : Nat) (r : Except Miss State) : Except Miss State :=
    match r with
    | .error .noRoom =>
      clusters.foldl (fun (r : Except Miss State) cl =>
        match r with
        | .error .noRoom => on mode cl
        | r => r) (.error .noRoom)
    | r => r
  try' 2 (try' 1 (try' 0 (.error .noRoom)))

/-- Seat the next block of a grid, its next group, or all of it (R347, R348). -/
def State.placeGrid (s : State) (g : Grid) (barred spare : List Nat) : Except Miss State :=
  let n := if g.launch.cores then g.launch.nbid - g.nextBid
    else if g.launch.cgroup = 0 then 1
    else min g.launch.cgroup (g.launch.nbid - g.nextBid)
  let bids := (List.range n).map fun k => g.nextBid + k
  let cores := g.partition.cores.filter fun c => !barred.contains c
  let s0 := if g.nextBid = 0 ∧ s.liveGrids g.ctx = 0 then s.newPhase g.ctx else s
  let r : Except Miss State :=
    if !s.ctxRoom g.ctx then .error .noRoom
    else if g.launch.cgroup = 0 then
      let wants : List Want := bids.map fun b => { b := g.fresh (s.nextId + b) b, seat := .fresh, cores := cores }
      placeAll 2 g.launch.prio spare wants s0
    else
      (List.range (ceilDiv n g.launch.cgroup)).foldl (fun (r : Except Miss State) k =>
        match r with
        | .error e => .error e
        | .ok s =>
          s.placeGroup g g.partition.clusters barred spare ((bids.drop (k * g.launch.cgroup)).take g.launch.cgroup)) (.ok s0)
  match r with
  | .error e => .error e
  | .ok s =>
    .ok ({ s with nextId := s.nextId + g.launch.nbid }.modGrid g.gid fun g => { g with nextBid := g.nextBid + n })

/-! ### Placing in order (R346) -/

/-- What is pending: a grid's next block or group, an accepted phase off its core, or an accepted child (R346, R363, R364); or a block
that is being restored (R374). -/
inductive Waiting where
  | grid (g : Grid)
  | block (b : Block)
  | back (b : Block)
  deriving DecidableEq, Repr

def Waiting.gid : Waiting → Nat
  | .grid g => g.gid
  | .block b => b.gid
  | .back b => b.gid

def State.waitPrio (s : State) (x : Waiting) : Nat :=
  match x with
  | .grid g => g.launch.prio
  | .block b => if b.parent.isSome && b.st == .pending then b.prio else (s.gridOf b).launch.prio
  | .back b => (s.gridOf b).launch.prio

/-- Place in the order within a grid: its blocks by `%bid`; then its spawned children, as they were accepted (R362; DESIGN CHOICE, log
entry 81: R346 speaks of the blocks of a grid). -/
def Waiting.place : Waiting → Nat × Nat
  | .grid g => (0, g.nextBid)
  | .block b => if b.parent.isSome && b.st == .pending then (1, b.accepted.getD 0) else (0, b.bid)
  | .back b => (0, b.bid)

/-- The order of R346. -/
def State.waitBefore (s : State) (x y : Waiting) : Bool :=
  let at' (x : Waiting) : Nat := ((s.grid? x.gid).map Grid.acceptedAt).getD 0
  if s.waitPrio x ≠ s.waitPrio y then s.waitPrio y < s.waitPrio x
  else if at' x ≠ at' y then at' x < at' y
  else if x.gid ≠ y.gid then x.gid < y.gid
  else x.place.1 < y.place.1 || (x.place.1 == y.place.1 && x.place.2 < y.place.2)

/-- An accepted phase whose block has left its core, or an accepted child not placed yet. -/
def State.blockWaits (s : State) (b : Block) : Bool :=
  b.accepted.isSome &&
    match b.st with
    | .pending => b.parent.isSome
    | .phase ready => ready && !s.holdsCore b
    | _ => false

def State.waiting (s : State) : List Waiting :=
  sortBy s.waitBefore
    (((s.grids.filter fun g => g.st == .accepted && g.nextBid < g.launch.nbid).map Waiting.grid)
      ++ (s.blocks.filter s.blockWaits).map Waiting.block)

/-- Cores that a block may go to (R347, R363, R364, R374). `stay`: only its old cluster. -/
def State.coresFor (s : State) (b : Block) (stay : Bool) : List Nat :=
  let p := (s.gridOf b).partition
  match b.cluster with
  | some cl => if stay then p.coresOf cl else p.cores
  | none => p.cores

/-- Must a block stay on its cluster? A child (R364), and one of a cluster group (R363); one that comes back from eviction, too,
when it holds wells or has children not folded (R374). -/
def State.stays (s : State) (b : Block) : Bool :=
  b.parent.isSome || (s.gridOf b).launch.cgroup != 0 ||
    match b.st with
    | .evicted _ => !b.bank.isEmpty || b.folded < b.spawned
    | _ => false

def State.wantOf (s : State) (b : Block) (seat : Seat) (barred : List Nat) : Want :=
  { b := b, seat := seat, cores := (s.coresFor b (s.stays b)).filter fun c => !barred.contains c }

/-! ### Restoring (R52, R374) -/

/-- What a block's restoration wants now: the whole block, or its lowest evicted warp. Its save is complete once its
write-backs are (R372); a block that `sys.evict` or BRK took away waits for `sys.resume`. -/
def State.restoreWant (s : State) (b : Block) (barred : List Nat) : Option Want :=
  let saved (w : Warp) : Bool := w.wbs.isEmpty
  match b.st with
  | .evicted bySys =>
    if (!bySys || b.resume) && (s.warpsOf b.uid).all fun w => w.released || saved w then some (s.wantOf b .back barred) else none
  | .resident =>
    match (s.warpsOf b.uid).find? fun w => !w.resident && !w.released && !w.barred && saved w with
    | some w => some { b := b, seat := .warp w.wid, cores := [b.core].filter fun c => !barred.contains c }
    | none => none
  | _ => none

/-- What is being restored, in order (R346): priority, their grids' acceptance, `%bid`. -/
def State.restores (s : State) : List Waiting :=
  sortBy s.waitBefore ((s.blocks.filter fun b => (s.restoreWant b []).isSome).map Waiting.back)

/-- All that is pending, in the order of R346: blocks being restored come first. -/
def State.pending (s : State) : List Waiting := s.restores ++ s.waiting

/-- Try to place what waits, dropping victims whose save slots are refused (R514): the reports stay. -/
def tryPlace (go : State → List Nat → Except Miss State) : Nat → List Nat → State → Bool × State
  | 0, _, s => (false, s)
  | fuel + 1, spare, s =>
    match go s spare with
    | .ok s => (true, s)
    | .error .noRoom => (false, s)
    | .error (.refused u) =>
      let s : State :=
        match s.block? u with
        | none => s
        | some b =>
          match s.saveLines b with
          | .ok _ => s
          | .error (x, a) => s.refuseReport b x a
      tryPlace go fuel (u :: spare) s

def State.tryWaiting (s : State) (x : Waiting) (barred : List Nat) : Bool × State :=
  tryPlace (fun s spare =>
    match x with
    | .grid g => s.placeGrid g barred spare
    | .block b =>
      s.place 2 (s.waitPrio x) spare (s.wantOf b (if b.parent.isSome && b.st == .pending then .child else .phase) barred)
    | .back b =>
      match s.restoreWant b barred with
      | some want => s.place 2 (s.waitPrio x) spare want
      | none => .error .noRoom)
    (s.blocks.length + 1) [] s

/-- Note that a grid was passed over (R346). -/
def State.skip (s : State) (gid : Nat) : State :=
  s.modGrid gid fun g => { g with skipSince := if g.skipSince.isSome then g.skipSince else some s.time }

/-- The next block of a grid has been placed: it is skipped no more (R346). -/
def State.unskip (s : State) (gid : Nat) : State := s.modGrid gid fun g => { g with skipSince := none, blocking := false }

/-- Serve what is pending, in order: the first that fits is placed. A grid whose next block fits nowhere is skipped with all that
is pending of it, and one that has been skipped too long bars the cores of its partition to those after it (R346). `skipped`: the grids
passed over. The reports of save slots that were refused stay, whatever comes of it (R514). -/
def serveRun : List Waiting → List Nat → List Nat → State → Option Waiting × State
  | [], _, _, s => (none, s)
  | x :: xs, skipped, barred, s =>
    if skipped.contains x.gid then serveRun xs skipped barred s
    else
      match s.tryWaiting x barred with
      | (true, s) => (some x, s.unskip x.gid)
      | (false, s) =>
        let g := (s.grid? x.gid).filter Grid.blocking
        serveRun xs (x.gid :: skipped) (barred ++ (g.map fun g => g.partition.cores).getD []) (s.skip x.gid)

/-! ### Serving (R346, R350) -/

/-- One placement, if one can be made: what was placed, and the state. -/
def State.placeOne (s : State) : Option Waiting × State := serveRun s.pending [] [] s

/-- RESTORE (R52, R346, R374): the block that comes first. -/
def execRestore (uid : Nat) (s : State) : Out :=
  happens s <|
    if s.plat.stopped then none
    else
      match s.placeOne with
      | (some (.back b), s) => if b.uid = uid then some s else none
      | _ => none

/-- Offer what has been freed (R350): `fuel` placements at most. -/
def offerRun : Nat → State → State
  | 0, s => s
  | fuel + 1, s =>
    match s.placeOne with
    | (some _, s) => offerRun fuel s
    | (none, s) => s

/-- What has been freed at this instant is offered to what is pending before time goes on (R350): blocks that retire at one instant
free their places together (R487; DEDUCED, log entry 104). -/
def State.offer (s : State) (dt : Nat) : State :=
  if dt = 0 || !s.freed then s
  else
    let s := { s with freed := false }
    if s.plat.stopped || s.pending.isEmpty then s else (offerRun 102400 s).unstall.ringWake

/-- BLOCK_PLACE (R346, R347): the first of what is pending that fits, unless a restored block comes first. -/
def execBlockPlace (s : State) : Out :=
  happens s <|
    if s.plat.stopped then none
    else
      let noted := s.pending.any fun x => (s.grid? x.gid).any fun g => g.skipSince.isNone
      match s.placeOne with
      | (some (.back _), _) => none
      | (some _, s) => some s
      | (none, s) => if noted then some s else none

/-- GRID_SKIP_TIMEOUT (R346). -/
def execGridSkipTimeout (gid : Nat) (s : State) : Out :=
  happens s <|
    match s.grid? gid with
    | none => none
    | some g =>
      if g.st == .accepted && !g.blocking && g.skipSince.any fun t => t + 100000 ≤ s.time then
        some (s.modGrid gid fun g => { g with blocking := true })
      else none

end Sys2Proof.Machine
end

