-- ==== Sys2Proof/Machine/FloatAlu.lean ====
section
/-! DEFINITION. Floating-point instructions (class 0x10), transcendentals (class 0x15) and conversions (class 0x16). -/

namespace Sys2Proof.Machine

/-- Apply an operation of one element to each element of the type: one, or two for the packed types (R94). -/
def perElem (t : Ty) (op : Fmt → List Nat → Nat × Flags) (xs : List Nat) : Nat × Flags :=
  if Ty.isPacked t then
    let lo := op (tyFmt t) (xs.map fun x => x % 65536)
    let hi := op (tyFmt t) (xs.map fun x => x / 65536 % 65536)
    (lo.1 + 65536 * hi.1, lo.2 ||| hi.2)
  else op (tyFmt t) xs

/-- Result and flags of a value of the instruction's type. -/
def putF (f : RegForm) (l : Nat) (x : Nat × Flags) : LaneOut := ((putD f l x.1).1, x.2)

/-- A floating-point instruction: every element of the three sources (R160). -/
def fpInstr (i : Instr) (f : RegForm) (s : State) (op : Fmt → Nat → Nat → Nat → Nat × Flags) : Out :=
  let two := Ty.is64 f.ty
  compute i s true fun c l =>
    putF f l (perElem f.ty (fun F xs => op F (xs.getD 0 0) (xs.getD 1 0) (xs.getD 2 0))
      [srcA c f two f.ty l, srcB c f two f.ty l, srcE c f two f.ty l])

def modeOf (f : RegForm) : Mode := Mode.ofSub f.sub.toNat

/-- FADD (R160). -/
def execFadd (f : RegForm) (s : State) : Out := fpInstr (.fadd f) f s fun F a b _ => F.add (modeOf f) a b
/-- FSUB (R160). -/
def execFsub (f : RegForm) (s : State) : Out := fpInstr (.fsub f) f s fun F a b _ => F.sub (modeOf f) a b
/-- FMUL (R160). -/
def execFmul (f : RegForm) (s : State) : Out := fpInstr (.fmul f) f s fun F a b _ => F.mul (modeOf f) a b
/-- FFMA (R160). -/
def execFfma (f : RegForm) (s : State) : Out := fpInstr (.ffma f) f s fun F a b c => F.fma (modeOf f) a b c
/-- FMIN (R161). -/
def execFmin (f : RegForm) (s : State) : Out := fpInstr (.fmin f) f s fun F a b _ => F.minmax false a b
/-- FMAX (R161). -/
def execFmax (f : RegForm) (s : State) : Out := fpInstr (.fmax f) f s fun F a b _ => F.minmax true a b
/-- FABS (R162). -/
def execFabs (f : RegForm) (s : State) : Out := fpInstr (.fabs f) f s fun F a _ _ => (a % 2 ^ (F.bits - 1), 0)
/-- FNEG (R162). -/
def execFneg (f : RegForm) (s : State) : Out := fpInstr (.fneg f) f s fun F a _ _ => (F.flip a, 0)

/-- Class bit of an element (R163). -/
def classBit (F : Fmt) (x : Nat) : Nat :=
  let neg := x / 2 ^ (F.bits - 1) % 2 == 1
  match F.dec x with
  | .nan sig => if sig then 0 else 1
  | .inf n => if n then 2 else 9
  | .num _ m _ =>
    if m = 0 then (if neg then 5 else 6)
    else if x / 2 ^ F.mbits % 2 ^ F.ebits = 0 then (if neg then 4 else 7)
    else if neg then 3 else 8

/-- FCLASS (R163). -/
def execFclass (f : RegForm) (s : State) : Out :=
  compute (.fclass f) s true fun c l =>
    let v := perElem f.ty (fun F xs => (2 ^ classBit F (xs.getD 0 0), 0)) [srcA c f (Ty.is64 f.ty) f.ty l]
    putD1 f l v.1

/-- `frnd` of an element (R164). -/
def frndBits (mode : Mode) (F : Fmt) (x : Nat) : Nat × Flags :=
  match F.dec x with
  | .nan sig => (F.canonNan, if sig then flagNv else 0)
  | .inf _ => (x, 0)
  | .num neg m e =>
    let (k, inex) := roundInt mode neg m e
    if inex then ((F.round .ne (.num neg k 0)).1, flagNx) else (x, 0)

/-- FRND (R164). -/
def execFrnd (f : RegForm) (s : State) : Out := fpInstr (.frnd f) f s fun F a _ _ => frndBits (modeOf f) F a

/-- FRCP (R165). -/
def execFrcp (f : RegForm) (s : State) : Out := fpInstr (.frcp f) f s fun F a _ _ => F.rcpV (F.dec a)
/-- FSQRT (R165). -/
def execFsqrt (f : RegForm) (s : State) : Out := fpInstr (.fsqrt f) f s fun F a _ _ => F.sqrtV (F.dec a)
/-- FRSQ (R165). -/
def execFrsq (f : RegForm) (s : State) : Out := fpInstr (.frsq f) f s fun F a _ _ => F.rsqV (F.dec a)
/-- FEXP2 (R165). -/
def execFexp2 (f : RegForm) (s : State) : Out := fpInstr (.fexp2 f) f s fun F a _ _ => F.exp2V (F.dec a)
/-- FLOG2 (R165). -/
def execFlog2 (f : RegForm) (s : State) : Out := fpInstr (.flog2 f) f s fun F a _ _ => F.log2V (F.dec a)

/-! ### Conversions (R166 to R169) -/

/-- The register value of an integer result of a type (R166): i8 to n16 widened to 32 bits. -/
def intBits (t : Ty) (x : Int) : Nat := (x % 2 ^ (if Ty.is64 t then 64 else 32)).toNat

/-- `cvt` of one value (R167). -/
def cvtBits (d src : Ty) (sub x : Nat) : Nat × Flags :=
  let mode := Mode.ofSub sub
  if Ty.isPacked src then perElem d (fun F xs => F.round mode ((tyFmt src).dec (xs.getD 0 0))) [x]
  else if Ty.isFloat src then
    let v := (tyFmt src).dec x
    if Ty.isFloat d then
      let r := (tyFmt d).round mode v
      (r.1, if v.isSig then r.2 ||| flagNv else r.2)
    else
      let r := toInt mode (tyMin d) (tyMax d) v
      (intBits d r.1, r.2)
  else if Ty.isFloat d then (tyFmt d).round mode (FVal.ofInt (intVal src x))
  else
    let v := intVal src x
    let y := if sub = 1 then satInt d v else intVal d (wrapBits d v)
    (intBits d y, 0)

/-- CVT (R166, R167). -/
def execCvt (f : RegForm) (s : State) : Out :=
  compute (.cvt f) s true fun c l =>
    let t := (cvtSrc f).getD .b32
    putF f l (cvtBits f.ty t f.sub.toNat (srcA c f (Ty.is64 t) t l))

/-- PACK (R168). -/
def execPack (f : RegForm) (s : State) : Out :=
  compute (.pack f) s true fun c l =>
    let a := srcA c f false .b32 l
    let b := srcB c f false .b32 l
    if Ty.isPacked f.ty then
      let x := (tyFmt f.ty).round (modeOf f) (fmt32.dec a)
      let y := (tyFmt f.ty).round (modeOf f) (fmt32.dec b)
      let fl : Flags := if (fmt32.dec a).isSig || (fmt32.dec b).isSig then flagNv else 0
      ((putD1 f l (x.1 + 65536 * y.1)).1, x.2 ||| y.2 ||| fl)
    else
      let h (v : Nat) : Nat := wrapBits f.ty (satInt f.ty (intVal .i32 v))
      putD1 f l (h a + 65536 * h b)

/-- UNPACK (R169). An immediate A is converted to the type as R71 says, before its two halves are taken (DEDUCED, log entry 87). -/
def execUnpack (f : RegForm) (s : State) : Out :=
  compute (.unpack f) s true fun c l =>
    let a := srcA c f false f.ty l
    let one (x : Nat) : Nat × Flags :=
      if Ty.isPacked f.ty then
        let v := (tyFmt f.ty).dec x
        ((fmt32.round .ne v).1, if v.isSig then flagNv else 0)
      else (intBits .i32 (intVal f.ty x), 0)
    let lo := one (a % 65536)
    let hi := one (a / 65536)
    (destWrite f.dc f.d true l (lo.1 + 2 ^ 32 * hi.1), lo.2 ||| hi.2)

end Sys2Proof.Machine
end

