-- ==== Sys2Proof/Machine/Host.lean ====
section
/-! DEFINITION. The host's side (R472 to R476): BAR0 registers, BAR2, doorbells and the commands of the command processor
(R337, R369, R408, R423, R432, R455, R456, R460, R469). -/

namespace Sys2Proof.Machine

/-! ### Registers (R438, R441, R450, R464, R472, R474, R481) -/

/-- Code of a life-cycle state (R480). -/
def lifeCode : LifeCycle → Nat
  | .manufacture => 0
  | .provisioned => 1
  | .deployed => 2
  | .rma => 3

/-- DEVSTAT (R481). -/
def State.devstat (s : State) : Nat :=
  let p := s.plat
  p.wipe.toNat + putField 1 1 p.ready.toNat + putField 6 1 p.ttrip.toNat + putField 7 1 p.ptplock.toNat
    + putField 8 1 p.bootfail.toNat + putField 9 1 p.recovery.toNat + putField 10 2 (lifeCode p.lcs)

/-- Are BAR0's registers there for writes: no wipe in progress (R474), and not in recovery (R478)? -/
def State.barOpen (s : State) : Bool := !s.plat.wipe && !s.plat.recovery

/-- Bytes of one function's BAR0 (R473): function 0 is the physical function, virtual function v is function v. -/
def barBytes : Nat := 2 ^ 26

def Trace.stat (t : Trace) : Nat := putField 31 1 t.lost.toNat + putField 30 1 t.on.toNat + t.drop.toNat

/-- An address-range entry of a die (R377). -/
def State.rangeAt (s : State) (die k : Nat) : AddrRange := (s.die die).ranges.getD k {}

/-- An address-range entry as its 192 bits (R377). -/
def AddrRange.image (r : AddrRange) : Nat :=
  r.valid.toNat + putField 1 4 r.stride + putField 32 36 r.base + putField 80 36 r.limit + putField 128 64 r.smask.toNat

/-- An address-range entry from its 192 bits (R377). -/
def rangeOf (v : Nat) : AddrRange :=
  { valid := fieldOf v 0 1 == 1, stride := fieldOf v 1 4, base := fieldOf v 32 36, limit := fieldOf v 80 36,
    smask := BitVec.ofNat 64 (fieldOf v 128 64) }

/-- Write a 64-bit word of an address-range entry of a die (R377). What lines of the die that the L2 holds, and that change their slice
by it, hold then is free (log entry 71). -/
def State.putRange (s : State) (die k word : Nat) (v : BitVec 64) : State :=
  let e := (s.rangeAt die k).image
  let r := rangeOf (e - putField (64 * word) 64 (fieldOf e (64 * word) 64) + putField (64 * word) 64 v.toNat)
  let t := s.modDie die fun d => { d with ranges := (d.ranges ++ List.replicate (64 - d.ranges.length) ({} : AddrRange)).set k r }
  (s.l2.filter fun y => t.homeSlice y.line != s.homeSlice y.line).foldl (fun (t : State) y =>
    let (bs, t) := t.drawBytes 64
    { t with mem := writeBytes t.mem y.line bs }) t

/-- The place among the device registers that the model gives the address-range entries, as a function past the last (log entry 71):
die, entry and word of an offset. -/
def rangeReg (fn off : Nat) : Option (Nat × Nat × Nat) :=
  if fn = 64 ∧ off < 32 * 64 * Config.nDies ∧ off % 8 = 0 ∧ off % 32 < 24 then some (off / 2048, off / 32 % 64, off % 32 / 8) else none

/-- What a read of a BAR0 register gives (R474): function and offset. Offsets not listed read as zero. -/
def State.barRead (s : State) (fn off : Nat) : Nat :=
  let p := s.plat
  let q := (off - 0x100) / 16
  let tr := (off - 0x1000) / 0x100
  let t := (s.die tr).trace
  if s.plat.recovery then 0
  else if let some (d, k, w) := rangeReg fn off then fieldOf (s.rangeAt d k).image (64 * w) 64
  else if off = 0 then s.devstat
  else if 0x100 ≤ off ∧ off < 0x200 ∧ off % 16 = 0 then (cget p.qbase (16 * fn + q)).toNat
  else if 0x100000 ≤ off ∧ off < 0x108000 then (cget p.msix (8192 * fn + (off - 0x100000) / 4) ^^^ (if off % 16 = 12 then 1 else 0)).toNat
  else if fn ≠ 0 then 0
  else if 0x120000 ≤ off ∧ off < 0x120100 then
    (List.range 64).foldl (fun n k => n + if p.msixPending.any fun i => i.fn == fn && i.vector == (off - 0x120000) / 8 * 64 + k then 2 ^ k else 0) 0
  else if off = 0x8 then p.farport.toNat
  else if off = 0x10 then p.winbase.toNat
  else if off = 0x20 then p.ladderFlush.toNat + 4 * p.ladderHalt.toNat
  else if off = 0x28 then p.nflush.toNat + 2 ^ 32 * p.nhalt.toNat
  else if off = 0x40 then p.ptpdom.toNat
  else if off = 0x48 then p.ptpports.toNat
  else if 0x1000 ≤ off ∧ off < 0x1400 then
    (if off % 0x100 = 0 then t.ctl.toNat else if off % 0x100 = 8 then t.base.toNat
     else if off % 0x100 = 0x10 then t.ptr.toNat else if off % 0x100 = 0x18 then t.stat else 0)
  else 0

/-- Store a word of a function's MSI-X table; a vector that this unmasks is sent if it is pending. -/
def State.msixWrite (s : State) (fn word : Nat) (v : Word) : State :=
  let key := 8192 * fn + word
  let s := { s with plat := { s.plat with msix := cset s.plat.msix key (v ^^^ (if word % 4 = 3 then 1 else 0)) } }
  if word % 4 = 3 ∧ !s.plat.masked fn (word / 4) then
    let mine (i : Interrupt) : Bool := i.fn == fn && i.vector == word / 4
    { s with plat := { s.plat with interrupts := s.plat.interrupts ++ s.plat.msixPending.filter mine,
                                   msixPending := s.plat.msixPending.filter fun i => !mine i } }
  else s

/-- A host write to a BAR0 register (log entry 85 for TRBASE) without behaviour of its own (R474): the offset counts on over the functions' BAR0s.
Writes to other offsets, and to read-only registers, are ignored. -/
def State.barWrite (s : State) (fn off : Nat) (v : BitVec 64) : State :=
  let p := s.plat
  if 0x100000 ≤ off ∧ off < 0x108000 ∧ off % 4 = 0 then s.msixWrite fn ((off - 0x100000) / 4) (v.setWidth 32)
  else if !s.barOpen then s
  else if let some (d, k, w) := rangeReg fn off then s.putRange d k w v
  else if 0x100 ≤ off ∧ off < 0x200 ∧ off % 16 = 0 then
    { s with plat := { p with qbase := cset p.qbase (16 * fn + (off - 0x100) / 16) v } }
  else if fn ≠ 0 then s
  else if off = 0x8 then { s with plat := { p with farport := v.setWidth 32 &&& 3 } }
  else if off = 0x10 then { s with plat := { p with winbase := v &&& ~~~(0xFFFFFFFFF#64) } }
  else if off = 0x40 then { s with plat := { p with ptpdom := v.setWidth 32 &&& 0xFF } }
  else if off = 0x48 then { s with plat := { p with ptpports := v &&& 0xFFFFFFFFFFF } }
  else if 0x1000 ≤ off ∧ off < 0x1400 ∧ off % 0x100 = 8 then
    s.modDie ((off - 0x1000) / 0x100) fun d => { d with trace := { d.trace with base := v &&& ~~~(0xFFFF#64) } }
  else s

/-- REGISTER_WRITE (R474). -/
def execRegisterWrite (offset : Nat) (value : BitVec 64) (s : State) : Out :=
  happens s <|
    let fn := offset / barBytes
    if 64 < fn || (s.plat.recovery) then none else some (s.barWrite fn (offset % barBytes) value)

/-- TRCTL_WRITE (R438 to R440): its reserved bits stay zero. Enabling starts the count of records, loads the LFSRs, and writes a sync
record. -/
def execTrctlWrite (die : Nat) (value : BitVec 64) (s : State) : Out :=
  happens s <|
    if !s.barOpen || Config.nDies ≤ die then none
    else
      let t := (s.die die).trace
      let ctl := value &&& ~~~(0xC0FC#64)
      let fresh := !t.en && ctl.getLsbD 0
      let t : Trace :=
        if fresh then { t with ctl := ctl, ptr := 0, on := !t.lost, last := s.time, enAt := s.time }
        else { t with ctl := ctl, on := t.on && ctl.getLsbD 0 }
      let s := s.modDie die fun d => { d with trace := t }
      some (if fresh then
        (s.modCores fun c =>
          if coreDie c.id = die then
            { c with scheds := c.scheds.map fun x => { x with lfsr := 0, nextAt := 0, tagAt := [], prevTags := [] } }
          else c).tracePut die (syncRec s die 0)
      else s)

/-- TRSTAT_WRITE (R441): writing 1 to lost clears it and drop, and the unit goes on at TRPTR. -/
def execTrstatWrite (die : Nat) (value : BitVec 32) (s : State) : Out :=
  happens s <|
    if !s.barOpen || Config.nDies ≤ die then none
    else if !value.getLsbD 31 then some s
    else some (s.modDie die fun d => { d with trace := { d.trace with lost := false, drop := 0, on := d.trace.en } })

/-! ### BAR2 (R473) -/

/-- May the host reach an address through BAR2 now: the clock of its home's die runs (R459, R462), and no refresh window bars the
weight store (R284)? -/
def State.hostReach (s : State) (a : Nat) : Bool :=
  !s.plat.stopped && (homeDieOf (if inWstore a then locWstore else locLocal) a).all (fun d => (s.die d).relock.isNone)
    && !(inWstore a && s.wsOpen a)

/-- A byte as a host read through BAR2 gives it: zero while a wipe is in progress (R482), and free where nothing of the device is
(log entry 52). -/
def State.hostByte (s : State) (a : Nat) : Byte :=
  if s.plat.wipe then 0 else if inHbm a || inWstore a || inFar a then cget s.mem a else Config.freeByte s.freeCtr a

/-- May a host write change a byte: memory that the device holds, but no weight store on whose die a kernel runs (R408)? -/
def State.hostWritable (s : State) (a : Nat) : Bool :=
  inHbm a || inFar a || (inWstore a && !s.blocks.any fun b => coreDie b.core == a % 2 ^ 32 / 2 ^ 30 && s.holdsCore b)

/-- Words of the weight store that a write has rewritten whole are good again (R406). -/
def State.storeMended (s : State) (a n : Nat) : State :=
  if inWstore a then
    let first := ceilDiv (a - wstoreBase) 8
    { s with wstoreBad := cclear s.wstoreBad first ((a - wstoreBase + n) / 8 - first) }
  else s

/-- HOST_BAR2_ACCESS (R473): unchecked and unmarked, at the lines' homes or in the weight store. A read gives the bytes that stand
there; a write to a binding state word wakes its waiters (R437). -/
def execHostBar2Access (acc : HostAccess) (s : State) : Out :=
  happens s <|
    let a := s.plat.winbase.toNat + acc.offset
    let n := if acc.write then (acc.data.take acc.len).length else acc.len
    if s.plat.recovery || 2 ^ 36 < acc.offset + n || (!s.plat.wipe && !(List.range n).all fun k => s.hostReach (a + k)) then none
    else if !acc.write then
      some { s with freeCtr := s.freeCtr + 1,
                    plat := { s.plat with hostReads := s.plat.hostReads ++ [(List.range n).map fun k => s.hostByte (a + k)] } }
    else if s.plat.wipe || !(List.range n).all fun k => s.hostWritable (a + k) then none
    else some (((s.softBytes a (acc.data.take acc.len)).storeMended a n).bindWake a n)

/-! ### Command queues (R475) -/

/-- Read a queue's header at a wake; none when it is not served. -/
def State.queueHdr (s : State) (q : Nat) : Option QueueRun :=
  let at' := (cget s.plat.qbase q).toNat
  let v := readNat s.mem at' 64
  let r : QueueRun := { queue := q, hdr := at', base := fieldOf v 0 64, lg := fieldOf v 64 4, head := fieldOf v 160 32,
                        tail := fieldOf v 128 32 }
  if at' = 0 ∨ at' % 64 ≠ 0 ∨ r.lg < 4 ∨ r.base % 64 ≠ 0 then none else some r

/-- The command at the head of a queue: its entry as a number; none when it is empty. -/
def State.queueEntry (s : State) (r : QueueRun) : Option Nat :=
  if r.head = r.tail then none else some (readNat s.mem (r.base + 64 * (r.head % 2 ^ r.lg)) 64)

def cmdOp (v : Nat) : Nat := fieldOf v 0 8
def cmdIrq (v : Nat) : Bool := fieldOf v 8 1 == 1
def cmdCtx (v : Nat) : Nat := fieldOf v 16 16
def cmdAddr (v : Nat) : Nat := fieldOf v 64 64
def cmdArg (v : Nat) : Nat := fieldOf v 128 64
def cmdDone (v : Nat) : Nat := fieldOf v 256 64

/-- Register selector of command 10. -/
def cmdReg (v : Nat) : Nat := fieldOf (cmdArg v) 4 4

/-- Is an entry well formed (R475)? -/
def cmdOk (v : Nat) : Bool :=
  1 ≤ cmdOp v && cmdOp v ≤ 11 && zeroAt v 9 7 && zeroAt v 32 32 && zeroAt v 192 64 && zeroAt v 320 192
    && (cmdOp v != 10 || (cmdReg v ≤ 4 && zeroAt (cmdArg v) 2 2 && zeroAt (cmdArg v) 8 56))

/-- The entry at a queue's head is over: the device writes head (R475). -/
def State.queuePop (s : State) (r : QueueRun) : State :=
  let head := (r.head + 1) % 2 ^ 32
  let s := s.homeBytes (r.hdr + 20) (bytesOfNat 4 head)
  { s with plat := { s.plat with lastQueue := r.queue,
                                 queues := replaceIf (fun x => x.queue == r.queue) (fun x => { x with head := head }) s.plat.queues } }

/-! ### What the commands need to know -/

/-- Does a kernel run on a die: a block on one of its cores? -/
def State.dieBusy (s : State) (d : Nat) : Bool := s.blocks.any fun b => coreDie b.core == d && s.holdsCore b

/-- A context exists: created, and not killed since (R423). -/
def Ctx.lives (c : Ctx) : Bool := c.created && !c.dead

/-- A command that has to wait (R456): its queue waits, the others do not. -/
def State.cmdWaits (s : State) (v : Nat) : Bool := cmdOp v == 10 && cmdReg v != 0 && s.dieBusy (fieldOf (cmdArg v) 0 2)

/-- The queue whose turn it is (R475): the first one after the queue served last that holds an entry which does not wait, and that
entry. -/
def State.nextCmd (s : State) : Option (QueueRun × Nat) :=
  let last := s.plat.lastQueue
  let qs := (s.plat.queues.filter fun r => last < r.queue) ++ s.plat.queues.filter fun r => r.queue ≤ last
  qs.findSome? fun r =>
    match s.queueEntry r with
    | some v => if cmdOk v && s.cmdWaits v then none else some (r, v)
    | none => none

/-- Reject malformed entries, each at its turn (R475), with code 0x01. -/
def rejectBad : Nat → State → State
  | 0, s => s
  | n + 1, s =>
    match s.nextCmd with
    | none => s
    | some (r, v) => if cmdOk v then s else rejectBad n ((s.queuePop r).hostDone (cmdDone v) (cmdIrq v) (cmdCtx v) 1 1)

/-- Entries that the queues hold. -/
def State.queuedCmds (s : State) : Nat := s.plat.queues.foldl (fun n r => n + (r.tail + 2 ^ 32 - r.head) % 2 ^ 32) 0

def State.rejectAll (s : State) : State := rejectBad s.queuedCmds s

/-- The command processor runs: the device is ready, and no thermal trip has stopped it (R462, R481). -/
def State.cmdsRun (s : State) : Bool := !s.plat.wipe && s.plat.ready && !s.plat.stopped

/-- DOORBELL_WRITE (R475): the command processor reads the queue's header again. `queue` is 16 × function + queue. -/
def execDoorbellWrite (queue : Nat) (s : State) : Out :=
  happens s <|
    if !s.cmdsRun || 1024 ≤ queue then none
    else
      let rest := s.plat.queues.filter fun r => r.queue != queue
      let qs : List QueueRun := match s.queueHdr queue with
        | some r => sortBy (fun x y => x.queue < y.queue) (r :: rest)
        | none => rest
      some { s with plat := { s.plat with queues := qs } }.rejectAll

/-- Perform the next command if it is one of this event's. `go`: the state after, or none when it is rejected. -/
def command (s : State) (mine : Nat → Bool) (go : Nat → State → Option State) : Out :=
  happens s <|
    if !s.cmdsRun then none
    else
      let s := s.rejectAll
      match s.nextCmd with
      | none => none
      | some (r, v) =>
        if !mine v then none
        else
          let s := s.queuePop r
          let s : State :=
            match go v s with
            | some s => s.hostDone (cmdDone v) (cmdIrq v) (cmdCtx v) 0 0
            | none => s.hostDone (cmdDone v) (cmdIrq v) (cmdCtx v) 1 1
          some s.rejectAll

/-- A command of one opcode. -/
def isCmd (op v : Nat) : Bool := cmdOp v == op

/-! ### The commands -/

/-- CMD_LAUNCH (R340, R475): its completion is written when the grid is accepted. -/
def execCmdLaunch (s : State) : Out :=
  happens s <|
    if !s.cmdsRun then none
    else
      let s := s.rejectAll
      match s.nextCmd with
      | none => none
      | some (r, v) =>
        if cmdOp v ≠ 1 then none
        else
          let s := s.queuePop r
          let ctx := cmdCtx v
          let ok := if (s.ctx ctx).lives && cmdAddr v % 64 == 0 then s.checkLaunch ctx (readNat s.mem (cmdAddr v) 128) else none
          let s : State :=
            match ok with
            | none => s.hostDone (cmdDone v) (cmdIrq v) ctx 1 1
            | some (l, k, p) =>
              (s.newGrid { gid := 0, ctx := ctx, depth := 0, launch := l, kernel := k, partition := p,
                           host := some (cmdDone v, cmdIrq v) }).2
          some s.rejectAll

/-- The RW fields of a context record (R423); DEPUSE stays in memory, where each use of it is counted (R449). -/
def Ctx.load (c : Ctx) (v : Nat) : Ctx :=
  { c with
    ptroot := BitVec.ofNat 64 (fieldOf v 960 64), fring := BitVec.ofNat 64 (fieldOf v 896 64),
    mring := BitVec.ofNat 64 (fieldOf v 832 64), bindbase := BitVec.ofNat 64 (fieldOf v 768 64),
    bindcount := fieldOf v 736 32, hctx := fieldOf v 720 16, hnote := BitVec.ofNat 16 (fieldOf v 688 16),
    migthr := BitVec.ofNat 32 (fieldOf v 640 32), depctl := BitVec.ofNat 32 (fieldOf v 544 8) &&& 0xFB,
    watch := (List.range 4).map fun n => BitVec.ofNat 64 (fieldOf v (256 + 64 * n) 64) &&& ~~~(7#64 <<< 55),
    wspill := BitVec.ofNat 64 (fieldOf v 192 64), nspill := fieldOf v 176 16, wsread := fieldOf v 8 1 == 1,
    priv := fieldOf v 6 1 == 1, prio := fieldOf v 3 3, hcheck := fieldOf v 2 1 == 1 }

/-- The header of a context's record. -/
def State.ctxHeader (s : State) (ctx : Nat) : Nat := readNat s.mem (s.plat.ctxbase.toNat + 1024 * ctx) 128

/-- CMD_CREATE_CONTEXT (R423): its class seeds are zero (R289). The function whose queue asks owns the context (R476). -/
def execCmdCreateContext (s : State) : Out :=
  command s (isCmd 2) fun v s =>
    let ctx := cmdCtx v
    let s := s.modCtx ctx fun c =>
      { c.load (s.ctxHeader ctx) with created := true, dead := false, fqovf := 0, fn := s.plat.lastQueue / 16 }
    let s := s.homeBytes (s.plat.ctxbase.toNat + 1024 * ctx + 128) (List.replicate 512 0)
    some ((s.ctxRo ctx).ctxRecord32 ctx 76 0)

/-- CMD_KILL_CONTEXT (R432). -/
def execCmdKillContext (s : State) : Out :=
  command s (isCmd 3) fun v s =>
    if !(s.ctx (cmdCtx v)).lives then none
    else
      let (t, rs) := s.killContext (cmdCtx v) 0
      some ((s.reportFailed t).reports 0 rs)

/-- CMD_WRITE_PARTITION_TABLE (R337): all sixteen entries, or none. -/
def execCmdWritePartitionTable (s : State) : Out :=
  command s (isCmd 4) fun v s =>
    (allSome ((List.range 16).map fun k => partitionOf (readNat s.mem (cmdAddr v + 64 * k) 64))).map fun ps =>
      { s with plat := { s.plat with partitions := ps } }

/-- A slice table (R369). -/
def slicesOf (v : Nat) : Option Slices :=
  let t : Slices := { owner := (List.range 16).map fun k => fieldOf v (128 + 16 * k) 16, n := fieldOf v 96 5, len := fieldOf v 64 32,
                      t0 := fieldOf v 0 64 }
  if !(zeroAt v 384 128 && zeroAt v 101 27) || 16 < t.n || (t.n != 0 && (t.len < 10 || 1000000 < t.len)) then none else some t

/-- When a write that enables slices takes effect (R369). -/
def Slices.first (t : Slices) (now : Nat) : Nat :=
  if now + 10000 ≤ t.t0 then t.t0
  else t.t0 + ceilDiv (now + 10000 - t.t0) (1000 * max 1 t.len) * (1000 * max 1 t.len)

/-- CMD_WRITE_SLICE_TABLE (R369). -/
def execCmdWriteSliceTable (s : State) : Out :=
  command s (isCmd 5) fun v s =>
    (slicesOf (readNat s.mem (cmdAddr v) 64)).map fun t =>
      let p := s.plat
      if p.slices.n ≠ 0 then { s with plat := { p with nextSlices := some (t, none) } }
      else if t.n ≠ 0 then { s with plat := { p with nextSlices := some (t, some (t.first s.time)) } }
      else
        match p.nextSlices with
        | some (_, at') => { s with plat := { p with nextSlices := some (t, at') } }
        | none => { s with plat := { p with slices := t } }

/-- A collective group entry (R469). -/
def groupOf (n v : Nat) : Option CollGroup :=
  let g : CollGroup :=
    { num := n, valid := fieldOf v 0 1 == 1, nchild := fieldOf v 88 5, parent := fieldOf v 96 18, rank := fieldOf v 128 32,
      size := fieldOf v 160 32, chlist := BitVec.ofNat 64 (fieldOf v 192 64) }
  let bad := !(zeroAt v 114 14 && zeroAt v 93 3 && zeroAt v 1 87) || 16 < g.nchild
    || (g.valid && (g.size < 1 || 262144 < g.size || g.size ≤ g.rank))
  if bad then none else some g

/-- CMD_WRITE_COLL_GROUPS (R469): the argument holds the first group in its low half and the count in its high half (log
entry 25). -/
def execCmdWriteCollGroups (s : State) : Out :=
  command s (isCmd 6) fun v s =>
    let first := fieldOf (cmdArg v) 0 32
    let n := fieldOf (cmdArg v) 32 32
    if 4096 < first + n then none
    else
      (allSome ((List.range n).map fun k => groupOf (first + k) (readNat s.mem (cmdAddr v + 32 * k) 32))).map fun gs =>
        { s with groups := (s.groups.filter fun g => !(first ≤ g.num && g.num < first + n)) ++ gs }

/-- The dies of a mask; none when other bits are set. -/
def diesOf (m : Nat) : Option (List Nat) := if m < 16 then some ((List.range 4).filter fun d => fieldOf m d 1 == 1) else none

/-- CMD_ENTER_WEIGHT_LOAD (R408): only while no kernel runs on the dies. -/
def execCmdEnterWeightLoad (s : State) : Out :=
  command s (isCmd 7) fun v s =>
    match diesOf (cmdArg v) with
    | none => none
    | some ds =>
      if ds.any s.dieBusy then none
      else some (ds.foldl (fun (s : State) d => s.modDie d fun x => { x with weightLoad := true }) s)

/-- CMD_LEAVE_WEIGHT_LOAD (R408). -/
def execCmdLeaveWeightLoad (s : State) : Out :=
  command s (isCmd 8) fun v s =>
    (diesOf (cmdArg v)).map fun ds => ds.foldl (fun (s : State) d => s.modDie d fun x => { x with weightLoad := false }) s

/-- CMD_SET_CTXBASE (R423): only while no context exists. -/
def execCmdSetCtxbase (s : State) : Out :=
  command s (isCmd 9) fun v s =>
    if s.ctxs.any Ctx.lives then none else some { s with plat := { s.plat with ctxbase := BitVec.ofNat 64 (cmdAddr v) } }

/-- CMD_WRITE_POWER_CONTROL (R460). -/
def execCmdWritePowerControl (s : State) : Out :=
  command s (fun v => isCmd 10 v && cmdReg v == 0) fun v s =>
    let x := cmdAddr v
    let fmax := fieldOf x 40 8
    let fmin := fieldOf x 32 8
    let cap := fieldOf x 10 10
    if fmax < 8 || 40 < fmax || fmin < 8 || fmax < fmin || cap < 150 || 700 < cap then none
    else some (s.modDie (fieldOf (cmdArg v) 0 2) fun d => { d with fmax := fmax, fmin := fmin, cap := cap })

/-- A die's power control register as it reads (R460). -/
def Die.powerReg (d : Die) : Nat :=
  putField 40 8 d.fmax + putField 32 8 d.fmin + putField 10 10 d.cap + putField 2 8 (d.fMHz / 100) + putField 1 1 d.thr.toNat

/-- Router of a cluster (R452). -/
def clusterRouter (c : Nat) : Nat × Nat :=
  let x : List Nat := [0, 2, 4, 5, 7]
  (x.getD (c % 5) 0, x.getD (c / 5) 0)

/-- Is a stitch entry in order, beside the die's other entries (R455, R456)? -/
def stitchOk (others : List Nat) (x : Nat) : Bool :=
  let clus (v : Nat) : List Nat := (List.range 25).filter fun c => fieldOf v c 1 == 1
  let valid (v : Nat) : Bool := fieldOf v 32 1 == 1
  let shape := fieldOf x 33 2
  let dimx := fieldOf x 44 4
  let dimy := fieldOf x 40 4
  let rs := (clus x).map clusterRouter
  let span (f : Nat × Nat → Nat) : Nat :=
    (rs.map f).foldl max 0 + 1 - (rs.map f).foldl min 7
  let dims := if shape = 3 then 2 ≤ dimx && dimx ≤ 8 && 2 ≤ dimy && dimy ≤ 8 && span Prod.fst == dimx && span Prod.snd == dimy
    else dimx == 0 && dimy == 0
  zeroAt x 48 16 && zeroAt x 35 5 && zeroAt x 25 7
    && (!valid x || (dims && others.all fun o => !valid o || (clus o).all fun c => !(clus x).contains c))

/-- CMD_WRITE_STITCH (R456): it waits until no kernel runs on the die, and changes latency and bandwidth only. -/
def execCmdWriteStitch (s : State) : Out :=
  command s (fun v => isCmd 10 v && cmdReg v != 0) fun v s =>
    let d := fieldOf (cmdArg v) 0 2
    let k := cmdReg v - 1
    let es := (List.range 4).map fun j => ((s.die d).stitch.getD j 0).toNat
    let others := ((List.range 4).filter fun j => j != k).map fun j => es.getD j 0
    if !stitchOk others (cmdAddr v) then none
    else some (s.modDie d fun x => { x with stitch := (es.set k (cmdAddr v)).map (BitVec.ofNat 64) })

/-- CMD_RELOAD_CONTEXT (R423). -/
def execCmdReloadContext (s : State) : Out :=
  command s (isCmd 11) fun v s =>
    let ctx := cmdCtx v
    if !(s.ctx ctx).lives then none else some ((s.modCtx ctx fun c => c.load (s.ctxHeader ctx)).ctxRo ctx)

end Sys2Proof.Machine
end

