-- ==== Sys2Proof/Machine/Matrix.lean ====
section
/-! DEFINITION. The matrix engine (R115 to R121, R261 to R278): `mma` and `mconv`, signing, the operation itself, and the
suspension of engine commands. -/

namespace Sys2Proof.Machine

/-- Cells of an accumulator or a tile's elements, row by row. -/
def cellAt (i j : Nat) : Nat := 64 * i + j

/-! ### The operation as its last signer issues it -/

/-- What a matrix operation works on (R261, R265, R276). -/
structure Mat where
  conv : Bool
  fmt : Nat
  sel : Nat
  acc : Nat
  /-- The first tile of A, or none: A in wells, or generated. -/
  tile : Option Nat
  /-- Well offset of A. -/
  well : Nat
  b : Tensor
  k0 : Nat
  n0 : Nat
  act : Tensor
  win : Nat
  n : Nat
  oy : Nat
  ox : Nat
  deriving DecidableEq, Repr

def noTensor : Tensor := ⟨0, false, 1, 1, 0, 0, [], [], [], 0⟩

/-- Operands (R265, R276): B's record, k0, n0, the well offset or activation record, window record, n, oy, ox; then, from
argument 8, the lanes of the scale registers. -/
def matOf (conv : Bool) (f : EngForm) (a : List Nat) : Mat :=
  { conv := conv, fmt := mmaFmt f, sel := mmaSel f, acc := mmaAcc f,
    tile := if conv || mmaWells f then none else some (mmaTile f), well := a.getD 3 0,
    b := (tensorOf (a.getD 0 0)).getD noTensor, k0 := a.getD 1 0, n0 := a.getD 2 0,
    act := (tensorOf (a.getD 3 0)).getD noTensor, win := a.getD 4 0, n := a.getD 5 0, oy := a.getD 6 0, ox := a.getD 7 0 }

/-- The matrix operation of a command. -/
def Engine.mat? (e : Engine) : Option Mat :=
  match e.op with
  | .mma f => some (matOf false f e.args)
  | .mconv f => some (matOf true f e.args)
  | _ => none

/-- A field of the window record (R277): byte `k`. -/
def Mat.winByte (m : Mat) (k : Nat) : Nat := fieldOf m.win (8 * k) 8

/-- Channels of the activation tensor. -/
def Mat.chan (m : Mat) : Nat := m.act.dims.getD 0 1

/-- How many of the operation's reduction indices are read: all of them, or up to the end of the reduction (R278). -/
def Mat.kRead (m : Mat) : Nat :=
  if m.conv then min (mmaK m.fmt) (m.winByte 1 * m.winByte 0 * m.chan - m.k0) else mmaK m.fmt

/-- Blocks of 64 reduction indices, all and read. -/
def Mat.blocks (m : Mat) : Nat := mmaK m.fmt / 64
def Mat.blocksRead (m : Mat) : Nat := ceilDiv m.kRead 64

/-- Coordinates of A[i, k] in the activation tensor (R278). -/
def Mat.actAt (m : Mat) (i k : Nat) : List Int :=
  let kap := m.k0 + k
  let kw := m.winByte 1
  let c := kap % m.chan
  let kx := kap / m.chan % kw
  let ky := kap / (m.chan * kw)
  let y : Int := (m.oy * m.winByte 2 : Nat) - (m.winByte 6 : Nat) + (ky * m.winByte 4 : Nat)
  let x : Int := ((m.ox + i) * m.winByte 3 : Nat) - (m.winByte 7 : Nat) + (kx * m.winByte 5 : Nat)
  [(c : Int), x, y, (m.n : Int)]

/-- Where the elements of column j of a dense B are read (R268): those that are read, in order of k. -/
def Mat.column (m : Mat) (j : Nat) : List (Option Nat) :=
  (List.range m.kRead).map fun k => m.b.source [((m.k0 + k : Nat) : Int), ((m.n0 + j : Nat) : Int)]

/-- Address of the scale of column j and block b of a dense B (R269). -/
def Mat.scaleAt (m : Mat) (b j : Nat) : Nat :=
  let d0 := m.b.dims.getD 0 0
  let d1 := m.b.dims.getD 1 0
  roundUp (m.b.base + ceilDiv (d0 * d1 * m.b.en) 2) 64 + (m.k0 / 64 + b) * d1 + m.n0 + j

/-- Address of a compressed slot (R270). -/
def Mat.slotAt (m : Mat) (b : Nat) : Nat :=
  m.b.base + (m.n0 / 64 * (m.b.dims.getD 0 0 / 64) + m.k0 / 64 + b) * (if m.b.en = 2 then 4736 else 2688)

/-! ### Reading the operands at run time -/

/-- The `n` elements of `en` nibbles in a number. -/
def nibElems (en n v : Nat) : List Nat := (List.range n).map fun k => fieldOf v (4 * en * k) (4 * en)

/-- Read elements, or take the padding value: each line of them with one request. -/
def State.engElems (s : State) (e : Engine) (en pad : Nat) (as : List (Option Nat)) : Eng (List Nat) :=
  engThen (s.engNibs e (quillUnits e.core) (nibsOf en (as.filterMap id))) fun ls s =>
    (.ok (as.map fun x =>
      match x with
      | some a => nibAt ls en a
      | none => pad), s)

/-- Pad a list with zeros to the operation's K. -/
def Mat.fill (m : Mat) (xs : List Nat) : List Nat := xs ++ List.replicate (mmaK m.fmt - xs.length) 0

/-- Row i of A from tiles (R267). -/
def Mat.tileRow (m : Mat) (b : Block) (t i : Nat) : List Nat :=
  let n := mmaNibs m.fmt
  let row := 256 / n
  let first := if m.fmt < 2 then 32 * m.sel else if m.fmt < 6 then 0 else 64 * m.sel
  (List.range (mmaK m.fmt)).map fun k => b.tileNibs (t + (first + k) / row) (i * row + (first + k) % row) n

/-- Row i of A (R267, R278). -/
def State.matRow (s : State) (e : Engine) (m : Mat) (i : Nat) : Eng (List Nat) :=
  if m.conv then
    engThen (s.engElems e m.act.en m.act.padBits ((List.range m.kRead).map fun k => m.act.source (m.actAt i k)))
      fun xs s => (.ok (m.fill xs), s)
  else
    match m.tile with
    | some t => (.ok (m.tileRow (s.engBlock e) t i), s)
    | none =>
      let rb := mmaRow m.fmt
      engThen (s.engWellRead e (m.well + i * rb) rb) fun bs s => (.ok (nibElems (mmaNibs m.fmt) (mmaK m.fmt) (natOfBytes bs)), s)

/-- Collect what `f` gives for 0, 1, … below n. -/
def engList {α : Type} (s : State) (n : Nat) (f : Nat → State → Eng α) : Eng (List α) :=
  (List.range n).foldl (fun (r : Eng (List α)) k => engThen r fun l s => engThen (f k s) fun x s => (.ok (l ++ [x]), s)) (.ok [], s)

/-- Payload bytes of `n` elements of `en` nibbles. -/
def packedBytes (en n : Nat) : Nat := ceilDiv (n * en) 2

/-- The elements of a mask-packed entry (R270): a set bit of the mask is a zero. -/
def unpack64 (mask : Nat) (xs : List Nat) : List Nat :=
  ((List.range 64).foldl (fun (r : List Nat × List Nat) k =>
    if fieldOf mask k 1 = 1 then (r.1 ++ [0], r.2) else (r.1 ++ [r.2.headD 0], r.2.tail)) ([], xs)).1

/-- One group entry (R270): its 64 elements, its scale, and where the next begins. -/
def State.entry (s : State) (e : Engine) (en a : Nat) : Eng (List Nat × Nat × Nat) :=
  let units := quillUnits e.core
  engThen (s.engNat e units a 1) fun h s =>
    if h = 0 then
      let n := packedBytes en 64
      engThen (s.engNat e units (a + 1) (n + 1)) fun v s =>
        (.ok (nibElems en 64 v, fieldOf v (8 * n) 8, a + n + 2), s)
    else if h = 1 then
      engThen (s.engNat e units (a + 1) 8) fun mask s =>
        let k := 64 - popCount (BitVec.ofNat 64 mask)
        let n := packedBytes en k
        engThen (s.engNat e units (a + 9) (n + 1)) fun v s =>
          (.ok (unpack64 mask (nibElems en k v), fieldOf v (8 * n) 8, a + n + 10), s)
    else (.error (.fatal (s.engRecord e .illegal 0 4)), s)

/-- The 64 entries of a slot: elements and scale of each column. -/
def State.slotCols (s : State) (e : Engine) (en a : Nat) : Eng (List (List Nat × Nat)) :=
  engThen ((List.range 64).foldl (fun (r : Eng (List (List Nat × Nat) × Nat)) _ =>
    engThen r fun x s => engThen (s.entry e en x.2) fun y s => (.ok (x.1 ++ [(y.1, y.2.1)], y.2.2), s)) (.ok ([], a), s))
    fun x s => (.ok x.1, s)

/-- How many parts an operation reads: the rows of A, and the columns of a dense B or the slots of a compressed one. -/
def Mat.parts (m : Mat) : Nat := 64 + if m.b.cmp then m.blocksRead else 64

/-- Read one part (R268 to R270, R278): row `k` of A; column `k - 64` of a dense B, its scales after its elements; or slot `k - 64` of a
compressed one, 64 elements and a scale for each column. -/
def State.matPart (s : State) (e : Engine) (m : Mat) (k : Nat) : Eng (List Nat) :=
  if k < 64 then s.matRow e m k
  else if m.b.cmp then
    engThen (s.slotCols e m.b.en (m.slotAt (k - 64))) fun cs s => (.ok (cs.flatMap fun x => x.1 ++ [x.2]), s)
  else
    engThen (s.engElems e m.b.en m.b.padBits (m.column (k - 64))) fun xs s =>
      if mmaScaled m.fmt then
        engThen (engList s m.blocksRead fun b s => s.engNat e (quillUnits e.core) (m.scaleAt b (k - 64)) 1) fun sc s =>
          (.ok (m.fill xs ++ sc), s)
      else (.ok (m.fill xs), s)

/-- Column j of B from the parts that have been read: its elements, and its scales by block. -/
def Mat.colOf (m : Mat) (part : Nat → List Nat) (j : Nat) : List Nat × List Nat :=
  if m.b.cmp then
    let bs := (List.range m.blocksRead).map fun b => (part (64 + b)).drop (65 * j)
    (m.fill ((bs.flatMap fun x => x.take 64).take m.kRead), bs.map fun x => x.getD 64 0)
  else ((part (64 + j)).take (mmaK m.fmt), (part (64 + j)).drop (mmaK m.fmt))

/-! ### Arithmetic (R115 to R121, R271) -/

/-- A reserved rn8 or rn4 code (R107). -/
def reservedCode (fmt x : Nat) : Bool := 2 ≤ fmt && x == (if fmt % 2 = 0 then 0x80 else 8)

/-- The signed value of a code. -/
def codeVal (fmt x : Nat) : Int := if fmt % 2 = 0 then rn8 x else rn4 x

/-- The exact sum of products of integers. -/
def dotInt (xs ys : List Int) : Int := (xs.zip ys).foldl (fun n p => n + p.1 * p.2) 0

/-- Is a value an infinity of a sign? -/
def FVal.isInf (neg : Bool) : FVal → Bool
  | .inf n => n == neg
  | _ => false

/-- A finite product as a multiple of 2^q; zero for another. -/
def FVal.fixed (q : Int) : FVal → Int
  | .num n m e => scaled n m e q
  | _ => 0

def FVal.isNegZero : FVal → Bool
  | .num n m _ => n && m == 0
  | _ => false

/-- round_ne(s, f32) of R115 for the products of a row and a column. -/
def dotFloat (F : Fmt) (xs ys : List FVal) : Nat :=
  let ps := (xs.zip ys).map fun p => exactMul p.1 p.2
  let vs := ps.filterMap id
  let plus := vs.any (FVal.isInf false)
  let minus := vs.any (FVal.isInf true)
  if vs.length < ps.length || vs.any FVal.isNan || (plus && minus) then fmt32.canonNan
  else if plus || minus then fmt32.infBits minus
  else
    let q := 2 * F.qMin
    let sum := vs.foldl (fun (n : Int) v => n + v.fixed q) 0
    if sum = 0 then fmt32.signBit (vs.all FVal.isNegZero) else (fmt32.round .ne (.num (decide (sum < 0)) sum.natAbs q)).1

/-- The term p of a block (R116). -/
def scaledTerm (sum : Int) (sa sb : Nat) : Nat :=
  let (ma, ea) := s8 sa
  let (mb, eb) := s8 sb
  let n := sum.natAbs * ma * mb
  if n = 0 then 0 else (fmt32.round .ne (.num (decide (sum < 0)) n (ea + eb))).1

/-- Scale byte of A for row r and block b (R120, R121), from the registers read at issue: 32 lanes of each. -/
def Mat.scaleA (m : Mat) (sc : Nat → Nat) (r b : Nat) : Nat :=
  let at' (reg byte : Nat) : Nat := fieldOf (sc (32 * reg + r % 32)) (8 * byte) 8
  match m.fmt with
  | 2 => at' (r / 32) b
  | 3 => at' (2 * (r / 32) + b / 4) (b % 4)
  | _ => at' (r / 32) m.sel

/-- One element of the result (R271). -/
def Mat.cell (m : Mat) (c : Nat) (row : List Nat) (sa : Nat → Nat) (col sb : List Nat) : Nat :=
  if m.fmt < 2 then
    let F := if m.fmt = 0 then fmtB16 else fmt16
    addNe fmt32 c (dotFloat F (row.map F.dec) (col.map F.dec))
  else
    let xs := row.map (codeVal m.fmt)
    let ys := col.map (codeVal m.fmt)
    if m.fmt = 4 ∨ m.fmt = 5 then
      let x := signed32 c + dotInt xs ys
      ((max (-(2 ^ 31)) (min x (2 ^ 31 - 1))) % 2 ^ 32).toNat
    else
      (List.range m.blocks).foldl (fun c b =>
        addNe fmt32 c
          (scaledTerm (dotInt ((xs.drop (64 * b)).take 64) ((ys.drop (64 * b)).take 64)) (sa b) (sb.getD b 0))) c

/-- The accumulator's new cells, once every part has been read (R271); none for a reserved code (R107, R275). -/
def State.matCells (s : State) (e : Engine) (m : Mat) : Option (List Word) :=
  let part (k : Nat) : List Nat := (assocGet e.got k).getD []
  let rows := (List.range 64).map part
  let cols := (List.range 64).map (m.colOf part)
  if (rows.any fun r => r.any (reservedCode m.fmt)) || cols.any fun c => c.1.any (reservedCode m.fmt) then none
  else
    let b := s.engBlock e
    some ((rows.zip (List.range 64)).flatMap fun r =>
      (cols.zip (List.range 64)).map fun c =>
        BitVec.ofNat 32 (m.cell (cget b.accs (4096 * m.acc + cellAt r.2 c.2)).toNat r.1
          (m.scaleA (fun k => e.args.getD (8 + k) 0) r.2) c.1.1 c.1.2))

/-- Read parts of an operation that it has not read yet (R261): why it stopped, if it did; how many it has read; the state. -/
def matRead (e : Engine) (m : Mat) : List Nat → State → Nat → Option EngStop × Nat × State
  | [], s, n => (none, n, s)
  | k :: ks, s, n =>
    if m.parts ≤ k || ((s.engine? e.id).any fun e => (assocGet e.got k).isSome) then matRead e m ks s n
    else
      match s.matPart e m k with
      | (.error x, s) => (some x, n, s)
      | (.ok v, s) => matRead e m ks (s.modEngine e.id fun e => { e with got := assocSet e.got k v }) (n + 1)

/-! ### Issue (R268 to R270, R273 to R277) -/

/-- Do `n` bytes at an address lie in the weight-store or well window that holds a base (R268)? -/
def besideBase (base a n : Nat) : Bool :=
  match windowOf (BitVec.ofNat 64 base), windowOf (BitVec.ofNat 64 a) with
  | .wstore _, .wstore o => o + n ≤ 2 ^ 32
  | .well _, .well o => o + n ≤ 0xC0000
  | _, _ => false

/-- Bytes of the weight store or the wells, as they stand. -/
def State.peekNat (s : State) (b : Block) (a n : Nat) : Nat :=
  match windowOf (BitVec.ofNat 64 a) with
  | .wstore o => readNat s.mem (wstoreBase + o) n
  | .well o => natOfBytes (s.wellBytes b o n)
  | _ => 0

/-- Where a slot's entries end (R270); a reserved header ends them. `fuel`: entries left. -/
def State.slotEnd (s : State) (b : Block) (en : Nat) : Nat → Nat → Nat
  | 0, a => a
  | fuel + 1, a =>
    let h := s.peekNat b a 1
    if h = 0 then s.slotEnd b en fuel (a + packedBytes en 64 + 2)
    else if h = 1 then
      s.slotEnd b en fuel (a + packedBytes en (64 - popCount (BitVec.ofNat 64 (s.peekNat b (a + 1) 8))) + 10)
    else a + 1

/-- Does every byte of B that the operation reads lie in the window of its base (R268)? -/
def State.extentOk (s : State) (b : Block) (m : Mat) : Bool :=
  if m.b.cmp then
    (List.range m.blocksRead).all fun k => besideBase m.b.base (m.slotAt k) (s.slotEnd b m.b.en 64 (m.slotAt k) - m.slotAt k)
  else
    ((List.range 64).all fun j => (m.column j).all fun a =>
      match a with
      | some a => besideBase m.b.base (a / 2) (ceilDiv m.b.en 2)
      | none => true)
      && (!mmaScaled m.fmt || (List.range m.blocksRead).all fun k => (List.range 64).all fun j =>
        besideBase m.b.base (m.scaleAt k j) 1)

/-- Is B's record one that the operation may use (R268 to R270, R275)? -/
def Mat.bOk (m : Mat) : Bool :=
  let d0 := m.b.dims.getD 0 0
  let d1 := m.b.dims.getD 1 0
  m.b.fmt == mmaCode m.fmt && m.b.rank == 2
    && (match windowOf (BitVec.ofNat 64 m.b.base) with
      | .wstore _ => true
      | .well _ => true
      | _ => false)
    && (if m.b.cmp then
          2 ≤ m.fmt && d0 % 64 == 0 && d1 % 64 == 0 && m.k0 % 64 == 0 && m.n0 % 64 == 0 && m.n0 + 64 ≤ d1
            && m.k0 + 64 * m.blocksRead ≤ d0
        else
          !mmaScaled m.fmt
            || (m.b.strides.getD 0 0 == 1 && m.b.strides.getD 1 0 == d0 && d0 % 64 == 0 && m.k0 % 64 == 0))

/-- Is the convolution's own part good (R276, R277)? -/
def Mat.convOk (m : Mat) : Bool :=
  m.act.rank == 4 && m.act.fmt == mmaCode m.fmt && !m.act.cmp && fieldOf m.win 64 192 == 0
    && ((List.range 6).all fun k => m.winByte k != 0) && m.k0 % mmaK m.fmt == 0 && m.n0 % 64 == 0

/-- Lanes of the scale registers (R261, R269). -/
def Ic.scales (c : Ic) (f : EngForm) : List Nat :=
  (scaleRegs (mmaFmt f) f.aux.toNat).flatMap fun u => lanes.map fun l => (c.w.vget u.reg l).toNat

/-- Check the operand values of the last signer (R273). -/
def State.checkMat (s : State) (c : Ic) (conv : Bool) (f : EngForm) (rec1 brec : Nat) (args : List Nat) (k : State → Res) : Res :=
  let m := matOf conv f args
  let w := BitVec.ofNat 64 m.well
  match firstBad
      [c.bad ((tensorOf brec).isNone || !m.bOk) .illegal,
       c.bad (conv && ((tensorOf (fieldOf rec1 0 512)).isNone || !m.convOk)) .illegal,
       s.wstoreBase? c (BitVec.ofNat 64 m.b.base) false,
       if conv then s.wstoreBase? c (BitVec.ofNat 64 m.act.base) false else none,
       c.bad (mmaWells f && m.well % 64 != 0) .align w 4,
       if mmaWells f then c.wellRange m.well (64 * mmaRow m.fmt) 4 else none,
       c.bad (!s.extentOk c.b m) .illegal] with
  | some r => .fault r
  | none => k s

/-- Read and check the operand values of the last signer (R273), and go on with the operation's arguments. -/
def withOperands (s : State) (c : Ic) (i : Instr) (conv : Bool) (f : EngForm) (k : List Nat → State → Res) : Res :=
  let u (k : Nat) : Nat := c.uni (mmaOreg f + k)
  withRecord s c i (c.w.sget64 f.record.toNat) (if conv then 96 else 64) fun rec1 s =>
    if conv then
      withRecord s c i (c.w.sget64 (mmaReg f)) 64 fun brec s =>
        let args := [brec, u 3, u 4, fieldOf rec1 0 512, fieldOf rec1 512 256, u 0, u 1, u 2] ++ c.scales f
        s.checkMat c conv f rec1 brec args (k args)
    else
      let args := [rec1, u 0, u 1, if mmaWells f then c.uni (mmaReg f) else 0, 0, 0, 0, 0] ++ c.scales f
      s.checkMat c conv f rec1 rec1 args (k args)

/-- Queue an operation on the core's matrix engine, for all its signers (R261, R273). -/
def State.queueMat (s : State) (core id : Nat) (signers : List Nat) : State :=
  (s.modEngine id fun e => { e with signers := signers }).modCore core fun k => { k with matq := k.matq ++ [id] }

/-- The pages of the activations that a convolution is still to read, row by row, each once. -/
def Mat.actPages (m : Mat) (e : Engine) : List Nat :=
  let rows := (List.range 64).filter fun i => (assocGet e.got i).isNone
  ((rows.flatMap fun i => (List.range m.kRead).filterMap fun k => m.act.source (m.actAt i k)).map fun a => a / 2 / 65536 * 65536).eraseDups

/-- The Quill may walk ahead for a convolution (R415). -/
def State.matAhead (s : State) (id : Nat) : State :=
  match s.engine? id with
  | none => s
  | some e =>
    match e.mat? with
    | some m => if m.conv then s.walkAhead e.core e.ctx (m.actPages e) else s
    | none => s

/-- A signature (R273): performed once per warp. -/
def sign (i : Instr) (conv : Bool) (f : EngForm) (c : Ic) (s : State) : Res :=
  let last (engs : List Nat) (close : State → State) : Res :=
    withOperands s c i conv f fun args s =>
      let (id, s) := s.issueCommand c i (some f.token.toNat) args
      .next (close ((s.queueMat c.w.core id (engs ++ [id])).matAhead id))
  if f.conv = 0x80 then last [] id
  else
    let n := f.conv.toNat
    let cv := c.b.cv n
    let word := ((encode i).getD 0).setWidth 80
    if cv.state = 2 then .stall s
    else if cv.state ≠ 1 || cv.signers.getLsbD c.w.wid then c.illegal
    else if cv.count ≠ 0 && word != cv.first then .fault (c.record .mmaOperand c.lane0)
    else
      let cv' : ConvReg := { cv with first := word, signers := setBit cv.signers c.w.wid true, count := cv.count + 1 }
      let put (cv : ConvReg) (s : State) : State := s.modBlock c.b.uid fun b => { b with cvs := assocSet b.cvs n cv }
      if cv'.count = cv.n then last cv.engs (put { cv' with state := 0, engs := [] })
      else
        let (id, s) := s.issueCommand c i (some f.token.toNat) []
        .next (put { cv' with engs := cv.engs ++ [id] } s)

/-- MMA (R265 to R275). -/
def execMma (f : EngForm) (s : State) : Out := run (.mma f) s (sign (.mma f) false f)

/-- MCONV (R276 to R278). -/
def execMconv (f : EngForm) (s : State) : Out := run (.mconv f) s (sign (.mconv f) true f)

/-! ### Completion and suspension (R239, R261, R272, R275) -/

/-- The operation at the head of a core's queue. -/
def State.matHead (s : State) (core : Nat) : Option Engine := (s.core core).matq.head?.bind s.running

/-- An operation leaves the queue. -/
def State.matPop (s : State) (core : Nat) : State := s.modCore core fun k => { k with matq := k.matq.tail }

/-- A matrix operation fails while it runs (R275): every signer's token has status 1 and the code. -/
def State.matFail (s : State) (core : Nat) (e : Engine) (code : Nat) : State :=
  s.reportFailed (e.signers.foldl (fun (s : State) id => s.completeEngine id 1 code) (s.matPop core))

/-- A matrix operation that has read all its parts ends (R271, R275): the accumulator is written once, and every signer's token
completes. -/
def State.matEnd (s : State) (core : Nat) (e : Engine) (m : Mat) : State :=
  match s.matCells e m with
  | none => s.matFail core e FaultCode.illegal.code.toNat
  | some cells =>
    let s := (s.modBlock e.uid fun b => { b with accs := cput b.accs (4096 * m.acc) cells }).accSaved e.uid m.acc
    e.signers.foldl (fun (s : State) id => s.completeEngine id 0 0) (s.matPop core)

/-- Words of 8 bytes of the weight store that a part of B is read from (R268, R270). -/
def State.partWords (s : State) (e : Engine) (m : Mat) (k : Nat) : List Nat :=
  let bytes :=
    if k < 64 then []
    else if m.b.cmp then
      let a := m.slotAt (k - 64)
      (List.range (s.slotEnd (s.engBlock e) m.b.en 64 a - a)).map fun i => a + i
    else (m.column (k - 64)).filterMap fun a => a.map fun a => a / 2
  (bytes.filterMap fun a =>
    match windowOf (BitVec.ofNat 64 a) with
    | .wstore o => some (o / 8)
    | _ => none).eraseDups

/-- What the code of the weight store finds as an operation reads a part: one of its words is beyond correction, which one is free
(R406). -/
def State.damagePart (s : State) (e : Engine) (m : Mat) (ks : List Nat) (ecc : EccOutcome) : State :=
  let ws := ((ks.find? fun k => (assocGet e.got k).isNone).map (s.partWords e m)).getD []
  if ecc != .uncorrectable || ws.isEmpty then s
  else
    let (k, s) := s.draw 9 ws.length
    { s with wstoreBad := cset s.wstoreBad (ws.getD k 0) 1 }

/-- MATRIX_OP_COMPLETE (R261, R272, R275, R406): the operation at the head of a core's queue reads parts of its operands, and completes
with the last of them; an access of it may begin to wait for a route (R468). -/
def execMatrixOpComplete (x : MatrixRun) (s : State) : Out :=
  happens s <|
    match s.matHead x.core with
    | none => none
    | some e =>
      match e.mat? with
      | none => none
      | some m =>
        match matRead e m x.parts (s.damagePart e m x.parts x.ecc) 0 with
        | (some (.fatal r), _, s) => some (s.matFail x.core e r.code.toNat)
        | (some (.noRoute _), n, s) =>
          if n = 0 && e.routeAt.isSome then none else some (s.modEngine e.id fun e => { e with routeAt := some s.time })
        | (_, n, s) =>
          match s.engine? e.id with
          | none => none
          | some e => if m.parts ≤ e.got.length then some (s.matEnd x.core e m) else if n = 0 then none else some (s.matAhead e.id)

/-- Run any command on as far as it can get: a matrix operation only at the head of its queue. -/
def State.runAny (s : State) (e : Engine) : Ran :=
  match e.mat? with
  | none => if e.selfEnds then { stop := .error .wait, progress := e.progress, s := s } else s.runEngine e e.units
  | some m =>
    if (s.core e.core).matq.head? ≠ some e.id then { stop := .error .wait, progress := 0, s := s }
    else
      match matRead e m (List.range m.parts) s 0 with
      | (none, _, s) => { stop := .ok 0, progress := 0, s := s }
      | (some x, _, s) => { stop := .error x, progress := 0, s := s }

/-- ENGINE_SUSPEND (R239, R419, R426): a repairable fault, or a write held for 20 µs. The issuing warp keeps running. -/
def execEngineSuspend (eng : Nat) (s : State) : Out :=
  happens s <|
    match s.running eng with
    | none => none
    | some e =>
      let r := s.runAny e
      let f : Option FaultRec :=
        match r.stop with
        | .error (.repair f) => some f
        | .error (.held f) => if e.heldAt.any fun t => t + 20000 ≤ s.time then some f else none
        | _ => none
      f.bind fun f =>
        (r.s.putRecord e.core { f with src := 1 } true).map fun s =>
          -- a record that cannot be delivered has killed the context and completed the command (R513)
          s.modEngine eng fun e => if e.st == .running then { e with st := .suspended, progress := r.progress, heldAt := none } else e

end Sys2Proof.Machine
end

