-- ==== Sys2Proof/Machine/Time.lean ====
section
/-! DEFINITION. The passing of device time (R33, R34, R179): die clocks, scaled cycles and pause counts. -/

namespace Sys2Proof.Machine

/-- Let device time pass on a die: its cycles and scaled cycles, and how many cycles passed (R34). A die whose clock is
stopped counts none (R458, R462). -/
def Die.tick (x : Die) (stopped : Bool) (dt : Nat) : Die × Nat :=
  if stopped || x.relock.isSome then (x, 0)
  else
    let a := x.frac + x.fMHz * dt
    let n := a / 1000
    ({ x with frac := a % 1000, cycle := x.cycle + n, scyc := x.scyc + n * scycStep x.fMHz }, n)

/-- Every arithmetic cycle takes one from the pause counts of the die's threads (R179). -/
def Thread.tick (t : Thread) (n : Nat) : Thread :=
  match t.st with
  | .paused k => { t with st := .paused (k - n) }
  | _ => t

/-- How far device time goes in `dt` ns of the reference clock, as the servo slews it (R465), and what is left over, in billionths of a
ns. -/
def Platform.slewed (p : Platform) (dt : Nat) : Nat × Nat :=
  let a := ((dt : Int) * (1000000000 + p.slewPpb) + p.slewFrac).toNat
  (a / 1000000000, a % 1000000000)

/-- Let `dt` ns of the reference clock pass; what waited for a time may be tried again. -/
def State.advance (s : State) (dt : Nat) : State :=
  if dt = 0 then s
  else
    let xs := s.dies.map fun x => x.tick s.plat.stopped dt
    let ws : List Warp := s.warps.map fun (w : Warp) =>
      let n := ((xs[coreDie w.core]?).map Prod.snd).getD 0
      if w.resident then { w with threads := w.threads.map fun t => t.tick n } else w
    let (t, frac) := s.plat.slewed dt
    { s with time := s.time + t, dies := xs.map Prod.fst, warps := ws, plat := { s.plat with slewFrac := frac } }.unstall

end Sys2Proof.Machine
end

