-- ==== Sys2Proof/Machine/Platform.lean ====
section
/-! DEFINITION. The platform: weight-store windows (R284), peers and links (R334, R401, R467, R468), sampling (R440), power and
clocks (R458 to R462), device time (R464, R465), and boot, wipe, life cycle and management (R478 to R483). -/

namespace Sys2Proof.Machine

/-! ### Refresh windows of the weight store (R284) -/

/-- WS_WINDOW_OPEN (R284): 250 ns, during which reads of the group wait. -/
def execWsWindowOpen (die group : Nat) (s : State) : Out :=
  happens s <|
    let d := s.die die
    if Config.nDies ≤ die || 64 ≤ group || d.openGroups.contains group || !windowOpenAt d.t0 group s.time then none
    else some (s.modDie die fun d => { d with openGroups := group :: d.openGroups })

/-- WS_WINDOW_CLOSE (R284). -/
def execWsWindowClose (die group : Nat) (s : State) : Out :=
  happens s <|
    let d := s.die die
    if !d.openGroups.contains group || windowOpenAt d.t0 group s.time then none
    else some (s.modDie die fun d => { d with openGroups := d.openGroups.filter fun g => g != group })

/-! ### Other devices (R334, R401, R466 to R468) -/

/-- The firmware has trained the links and started time discipline (R478). -/
def State.trained (s : State) : Bool := s.plat.ready && !s.plat.wipe && !s.plat.recovery

/-- Is a device number that of another device of this one's domain (R466)? -/
def Platform.isPeer (p : Platform) (dev : Nat) : Bool := dev < 2 ^ 18 && dev / 4096 == p.device / 4096 && dev != p.device

/-- The operation of a peer's request, as its home performs it (R226, R467). -/
def peerStrong : PeerOp → StrongOp
  | .load => .load false
  | .store => .store
  | .swap => .swap
  | .cas cmp => .cas cmp
  | .rmw aop signed => .rmw aop signed
  | .accum aop => .accum aop

/-- A peer's request as the home's access. -/
def peerAccess (r : PeerReq) (phase now : Nat) : Access :=
  { party := { dev := some (r.dev % 4096), eng := if r.eng then some 0 else none, slot := r.slot, num := BitVec.ofNat 32 r.num,
               uid := r.who, acqNear := 0, acqWide := r.acqWide, phase := phase, ctx := r.ctx, seen := now },
    lane := 0, label := r.label, write := r.write, addr := r.addr, loc := locLocal,
    words := (List.range (ceilDiv (r.addr % 4 + r.len) 4)).foldl (fun (m : BitVec 16) k => setBit m ((r.addr % 64 / 4 + k) % 16) true) 0,
    va := 0, pc := 0, lanes := 0, rseq := 0 }

/-- The write of a peer's request, if its operation writes (R226, R467), with the releases it carries. -/
def State.peerWrite (s : State) (r : PeerReq) : State :=
  let op := peerStrong r.op
  let old := readNat s.mem r.addr r.len
  if !strongWrites op r.len old then s
  else
    let data := r.data.take r.len
    let bs := if op = .store then data else bytesOfNat r.len (strongNew op r.len old (natOfBytes data))
    let rels : List Rel := (r.rels.filter fun x => 5 ≤ x.1).map fun x =>
      { party := some (r.slot, 0, 800 * (r.dev + 1)), scope := x.1, stamp := x.2.1, fence := x.2.2 }
    let met := s.relsAt r.addr
    let s := s.softBytes r.addr bs
    let s := if r.label = 0 then s else s.relSet r.addr (if op = .store then rels else rels ++ met)
    s.bindWake r.addr r.len

/-- Requests of one device that concern one line are performed in the order in which they were sent (R467). -/
def State.peerTurn (s : State) (r : PeerReq) : Bool :=
  s.peerLast.all fun x => !(x.1 == r.dev && x.2.1 == lineOf r.addr) || x.2.2 < r.seq

/-- PEER_REQUEST (R334, R401, R467): a checked page is checked and marked for the peer's party; a strong access that conflicts, or
that reads what is poisoned, is not performed, and its fault goes back to the requester. The weight store takes no write (R408). -/
def execPeerRequest (req : PeerReq) (s : State) : Out :=
  happens s <|
    let op := peerStrong req.op
    let loc := if inHbm req.addr then locLocal else locWstore
    if !s.trained || !s.plat.isPeer req.dev || !(inHbm req.addr || inWstore req.addr) || 64 < req.addr % 64 + req.len || req.len = 0
        || req.write != op.mayWrite || !s.peerTurn req || !s.hostReach req.addr then none
    else
      (s.homeReady loc req.addr).map fun s =>
        let s := { s with peerLast := (req.dev, lineOf req.addr, req.seq)
                    :: s.peerLast.filter fun x => !(x.1 == req.dev && x.2.1 == lineOf req.addr) }
        let (bad, s) := if op.reads then s.readFault req.addr req.len else (none, s)
        let stop := bad.isSome && req.label != 0
        let (f, s) := if req.chk && !stop then s.blot (peerAccess req (s.ctx req.ctx).phase s.time) else (none, s)
        if stop || (f.isSome && req.label != 0) || loc ≠ locLocal then s else s.peerWrite req

/-- LINK_DOWN (R468): with the last of the 36 ports the last route goes. -/
def execLinkDown (port : Nat) (s : State) : Out :=
  happens s <|
    if !s.trained || 36 ≤ port || s.plat.linksDown.contains port then none
    else
      let down := port :: s.plat.linksDown
      some ({ s with plat := { s.plat with
        linksDown := down,
        noRouteSince := if down.length = 36 then some s.time else s.plat.noRouteSince } }.interrupt 5 none)

/-- Fail a request that had no route (R468). -/
def State.noRoute (s : State) (m : Msg) : Option State :=
  let fatal (va : BitVec 64) (pc : Pc) (acc : Nat) : FaultRec := { code := FaultCode.pageFatal.code, addr := va, pc := pc, acc := acc }
  match m.kind with
  | .fillReq f =>
    if f.loc ≠ locPeer then none
    else
      let (bs, s) := s.drawBytes 64
      let f := { f with data := lineOfBytes bs, poison := 15 }
      some { s with msgs := (s.msgs.filter fun x => x.id != m.id) ++ [{ m with kind := .fillReply f, sent := s.time }] }
  | .strong r =>
    if r.loc ≠ locPeer then none
    else
      let rec' := fatal r.acc.va r.acc.pc 3
      let code := match r.op with
        | .load _ => FaultCode.poison.code
        | _ => rec'.code
      some ((s.dropMsg m.id).strongFault r { rec' with code := code, lanes := r.acc.lanes, rseq := r.acc.rseq })
  | .check a core =>
    if a.loc ≠ locPeer then none
    else
      let s := (s.dropMsg m.id).defer a.party.uid a.party.wid a.lane { fatal a.va a.pc (if a.write then 2 else 1) with lanes := a.lanes, rseq := a.rseq }
      some ((s.unfilter a).send (.checkAck a.party.uid a.party.wid m.id core a.loc (lineOf a.addr)))
  | .wb x =>
    if x.loc ≠ locPeer then none
    else
      some (x.owners.foldl (fun (s : State) o =>
        (s.wbDone o.1 o.2.1 m.id o.2.2 s.time).deferWb o.1 o.2.1 (fatal (BitVec.ofNat 64 x.va) 0 2)) (s.dropMsg m.id))
  | .prefetch _ _ _ loc => if loc = locPeer then some (s.dropMsg m.id) else none
  | _ => none

/-- Fail a command whose next access has itself had no route for 100 µs (R468): its party ends with status 1. -/
def State.noRouteEngine (s : State) (e : Engine) : Option State :=
  let r := s.runAny e
  match r.stop with
  | .error (.noRoute f) =>
    if e.progress < r.progress || !e.routeAt.any fun t => t + 100000 ≤ s.time then none
    else if e.mat?.isSome then some (r.s.matFail e.core e f.code.toNat)
    else some (r.s.failEngine e f)
  | _ => none

/-- ROUTE_TIMEOUT (R468): a message to a peer, or an engine command that has come to an access to a peer, named here, has had no route
for 100 µs. -/
def execRouteTimeout (msg : Nat) (s : State) : Out :=
  happens s <|
    if !s.routeLost then none
    else
      match s.msg? msg with
      | some m => if m.sent + 100000 ≤ s.time then s.noRoute m else none
      | none => (s.running msg).bind s.noRouteEngine

/-! ### Sampling (R440) -/

/-- What the last enable loaded (R440). -/
def lfsrLoad (t core sched : Nat) : BitVec 16 :=
  let v := (mix64 (BitVec.ofNat 64 t ^^^ BitVec.ofNat 64 (coreInDie core * 4) ^^^ BitVec.ofNat 64 sched)).setWidth 16
  if v = 0 then 0xACE1 else v

/-- One step of the register: taps 15, 13, 12 and 10 (R440). -/
def lfsrStep (v : BitVec 16) : BitVec 16 :=
  let b := v.getLsbD 15 ^^ v.getLsbD 13 ^^ v.getLsbD 12 ^^ v.getLsbD 10
  (v <<< 1) ||| (if b then 1 else 0)

def lfsrDraw (v : BitVec 16) : BitVec 16 := (List.range 16).foldl (fun v _ => lfsrStep v) v

/-- SAMPLE_INTERVAL_START (R440). -/
def execSampleIntervalStart (core sched : Nat) (s : State) : Out :=
  happens s <|
    let t := (s.die (coreDie core)).trace
    let x := (s.core core).sched sched
    let start := max x.nextAt t.enAt
    if !t.en || t.sint = 0 || 4 ≤ sched || 800 ≤ core || s.time < start then none
    else
      let r := lfsrDraw (if x.lfsr = 0 then lfsrLoad t.enAt core sched else x.lfsr)
      some (s.modCore core fun c => c.setSched sched
        { x with lfsr := r, nextAt := start + 1000 * t.sint, tagAt := x.tagAt ++ [start + r.toNat * t.sint * 1000 / 65536] })

/-- Class of an instruction that goes to memory (R61). -/
def memClass (c : Nat) : Bool := 0x18 ≤ c && c ≤ 0x1F

/-- Is every result of a sampled instruction written or discarded (R440)? -/
def State.sampleDone (s : State) (p : Sample) : Bool :=
  !s.owed.any fun o => p.name ≤ o.id && o.id < p.upto.getD s.nextId && (s.warp? o.uid o.wid).any fun w => w.lslot == p.slot

/-- The level of a sample (R440): the place that served it. Where several did, any of them; where a memory instruction was served by
none that the model knows, any; 0 for other instructions (log entry 6). -/
def State.sampleLevel (s : State) (p : Sample) : Nat × State :=
  if !p.levels.isEmpty then
    let (k, s) := s.draw 5 p.levels.length
    (p.levels.getD k 1, s)
  else if memClass p.cls then
    let (k, s) := s.draw 5 7
    (k + 1, s)
  else (0, s)

/-- The body of a sample's record (R440), in the bits of R439's record, with its latencies free (log entry 6). -/
def Sample.record (p : Sample) (core sched level lat : Nat) : Nat :=
  putField 448 64 p.time + putField 393 55 p.pc.toNat + putField 361 32 p.eseq.toNat + putField 344 17 p.slot
    + putField 328 16 p.ctx + putField 248 80 lat + putField 245 3 level
    + putField 239 6 p.cls + putField 235 4 p.minor + putField 229 6 p.nact + putField 228 1 p.fault.toNat
    + putField 227 1 p.disc.toNat + putField 226 1 p.pair.toNat + putField 224 2 sched + putField 216 8 (coreInDie core)

/-- SAMPLE_RECORD_WRITE (R440): of the oldest tagged instruction whose results have all been written or discarded. The latencies are not
determined by the model (log entry 6). -/
def execSampleRecordWrite (core sched : Nat) (s : State) : Out :=
  happens s <|
    (((s.core core).sched sched).samples.find? s.sampleDone).map fun p =>
      let (level, s) := s.sampleLevel p
      let body := p.record core sched level (Config.sampleLatency s.freeCtr).toNat
      let x := (s.core core).sched sched
      let s := s.modCore core fun c => c.setSched sched { x with samples := x.samples.erase p }
      { s with freeCtr := s.freeCtr + 1 }.traceRec (coreDie core) 2 body

/-! ### Power and clocks (R458 to R462) -/

/-- FREQ_STEP (R458): the die's clock stops now, for 1,500 ns. -/
def State.freqStep (s : State) (d mhz : Nat) : State :=
  s.modDie d fun x => { x with relock := some (s.time + 1500), nextMHz := mhz }

/-- The clock after a comparison (R461): the nearer bound first, then the cap. -/
def Die.compare (d : Die) (mw : Nat) : Nat :=
  let f := d.fMHz
  if f < 100 * d.fmin then 100 * d.fmin
  else if 100 * d.fmax < f then 100 * d.fmax
  else if 1000 * d.cap < mw then max (100 * d.fmin) (f - 100)
  else if !d.hot && 100 * mw < 95 * (1000 * d.cap) && f < 100 * d.fmax then f + 100
  else f

/-- What a die's sensors say (R461, R462, R483). -/
def State.sensed (s : State) (die mw tempC : Nat) : State := s.modDie die fun d => { d with meanMw := mw, tempC := tempC }

/-- POWER_COMPARE (R461): every 10 µs, the mean power in mW and the junction temperature given. -/
def execPowerCompare (die : Nat) (x : PowerReading) (s : State) : Out :=
  happens s <|
    let d := s.die die
    if Config.nDies ≤ die || s.time < d.lastPower + 10000 || d.relock.isSome || s.plat.stopped then none
    else
      let f := d.compare x.milliwatts
      let thr := f < 100 * d.fmax && (d.thr || d.hot || f < d.fMHz)
      let s := (s.sensed die x.milliwatts x.tempC).modDie die fun d => { d with lastPower := s.time, thr := thr }
      some (if f = d.fMHz then s else s.freqStep die f)

/-- Cycles of a die since its new clock started, when the event that says so comes later (R34, R179). -/
def State.catchUp (s : State) (d dt : Nat) : State :=
  let (x, n) := (s.die d).tick s.plat.stopped dt
  let ws : List Warp := s.warps.map fun (w : Warp) =>
    if w.resident ∧ coreDie w.core = d then { w with threads := w.threads.map fun (t : Thread) => t.tick n } else w
  { s with warps := ws }.setDie d x

/-- PLL_RELOCK_DONE (R35, R458): the new clock has started, and the trace unit writes a sync record. -/
def execPllRelockDone (die : Nat) (s : State) : Out :=
  happens s <|
    let d := s.die die
    match d.relock with
    | none => none
    | some t =>
      if s.time < t || s.plat.stopped then none
      else
        let s := s.modDie die fun d =>
          { d with relock := none, fMHz := d.nextMHz, fstept := t % 2 ^ 64, fstepc := d.cycle % 2 ^ 64, frac := 0 }
        some ((s.catchUp die (s.time - t)).syncPut die 1)

/-- THERMAL_THROTTLE (R462): at 105 °C. A die that is throttled already may grow hotter. -/
def execThermalThrottle (x : HeatReading) (s : State) : Out :=
  happens s <|
    let d := s.die x.die
    if Config.nDies ≤ x.die || x.tempC < 105 || s.plat.stopped then none
    else if d.hot then some (s.sensed x.die d.meanMw x.tempC)
    else
      let s := (s.sensed x.die d.meanMw x.tempC).modDie x.die fun d => { d with hot := true, thr := d.fmin < d.fmax }
      some (if d.relock.isSome then s.modDie x.die fun d => { d with nextMHz := 100 * d.fmin }
        else if d.fMHz = 100 * d.fmin then s else s.freqStep x.die (100 * d.fmin))

/-- THERMAL_RECOVER (R462): below 95 °C. -/
def execThermalRecover (x : HeatReading) (s : State) : Out :=
  happens s <|
    let d := s.die x.die
    if d.hot && x.tempC < 95 then some ((s.sensed x.die d.meanMw x.tempC).modDie x.die fun d => { d with hot := false }) else none

/-- THERMAL_TRIP (R462): at 115 °C of a die every die clock stops until a reset, and every context is killed. -/
def execThermalTrip (s : State) : Out :=
  happens s <|
    if s.plat.ttrip || !(s.dies.any fun d => 115 ≤ d.tempC) then none
    else
      let s := { s with plat := { s.plat with stopped := true, ttrip := true } }
      let s := (s.ctxs.filter Ctx.lives).foldl (fun (s : State) c =>
        let (t, rs) := s.killContext c.id 0
        (s.reportFailed t).reports 0 rs) s
      some (s.interrupt 6 none)

/-! ### Device time (R464, R465) -/

/-- Set the lock bit, with the interrupt of a change (R465, R476). -/
def State.setLock (s : State) (b : Bool) : State :=
  if s.plat.ptplock = b then s else { s with plat := { s.plat with ptplock := b } }.interrupt 4 none

/-- Does discipline take a sync (R464, R478): of the domain that the supervisor selects, by a port that may serve as a slave port? -/
def State.hearsSync (s : State) (sync : PtpSync) : Bool :=
  s.trained && sync.domain == s.plat.ptpdom.toNat && sync.port < 44 && s.plat.ptpports.getLsbD sync.port

/-- PTP_SYNC (R465): the slew stays within 200 ppm; a forward step happens only without contexts and unlocked. -/
def execPtpSync (sync : PtpSync) (s : State) : Out :=
  happens s <|
    if !s.hearsSync sync then none
    else
      let p := s.plat
      let off := sync.offset.natAbs
      let n := if off < 20 then p.syncs + 1 else 0
      let lock := if p.ptplock then decide (off ≤ 25) else decide (16 ≤ n)
      let step := if p.ptplock || s.ctxs.any Ctx.lives then 0 else sync.stepNs
      let slew := max (-200000) (min 200000 sync.slewPpb)
      let s := { s with time := s.time + step,
                        plat := { p with syncs := n, lastSync := s.time + step, slewPpb := slew, holdover := false } }
      some (s.setLock lock)

/-- PTP_HOLDOVER (R465): no sync for 2 s; the last frequency stays. -/
def execPtpHoldover (s : State) : Out :=
  happens s <|
    let p := s.plat
    if !s.trained || p.holdover || s.time < p.lastSync + 2000000000 then none
    else some ({ s with plat := { p with holdover := true, ptplock := false, syncs := 0 } }.interrupt 4 none)

/-! ### Boot, wipe and life cycle (R478 to R483) -/

/-- Memory that the wipe writes zero to (R482): the device's own HBM4 and weight store. -/
def wiped (a : Nat) : Bool := inHbm a || inWstore a

/-- The device after a reset or a life-cycle change (R478, R482): its own memories and registers are wiped; fuses, and so the ladder
(R450), stay, and so does what other devices and the host hold. The model's own script and counters go on. -/
def State.restart (s : State) (lcs : LifeCycle) : State :=
  { State.reset with
    plat := { lcs := lcs, rollback := s.plat.rollback, device := s.plat.device, ladderFlush := s.plat.ladderFlush,
              ladderHalt := s.plat.ladderHalt },
    mem := s.mem.filter fun x => !wiped x.1, ioLog := s.ioLog, script := s.script, freeCtr := s.freeCtr, nextId := s.nextId }

/-- How long the wipe lasts (R482): 0.4 ms and B / (2.4 TB/s × s), in ns. -/
def wipeTime : Nat := 400000 + ceilDiv Config.hbmBytes (2400 * 12)

/-- Does the boot ROM accept an image (R478, R480)? -/
def Platform.accepts (p : Platform) (i : FirmwareImage) : Bool :=
  i.rsaOk && i.slhOk && i.keysOk && p.rollback ≤ i.version && (p.lcs != .rma || i.diag)

/-- A ladder state that an image asks for (R450): never an earlier one than the form has reached. -/
def laterState (x y : BitVec 2) : BitVec 2 := if x.toNat ≤ y.toNat then y else x

/-- FIRMWARE_VERIFY (R478): boot, or enter recovery. The image sets LADDER and the port modes (R450, R471); `sys.halt` is trapped at
least in every image. -/
def State.verifyImage (s : State) (i : FirmwareImage) : State :=
  let p := s.plat
  if p.accepts i then
    { s with plat := { p with ready := true, bootfail := false, recovery := false, ladderFlush := laterState p.ladderFlush i.flush,
                              ladderHalt := laterState 2 (laterState p.ladderHalt i.halt), cxl0 := i.cxl0, cxl1 := i.cxl1,
                              rollback := i.version, digest := i.digest } }
  else { s with plat := { p with ready := false, bootfail := true, recovery := true } }

/-- WIPE_COMPLETE (R482, R478). -/
def execWipeComplete (image : FirmwareImage) (s : State) : Out :=
  happens s <|
    if !s.plat.wipe || s.time < s.plat.resetAt + wipeTime then none
    else some (({ s with plat := { s.plat with wipe := false } }.interrupt 7 none).verifyImage image)

/-- RECOVERY_IMAGE_LOAD (R478). -/
def execRecoveryImageLoad (image : FirmwareImage) (s : State) : Out :=
  happens s <| if s.plat.recovery && !s.plat.wipe then some (s.verifyImage image) else none

/-- DEVICE_RESET (R478, R482). -/
def execDeviceReset (s : State) : Out := .next (s.restart s.plat.lcs)

/-- MGMT_RESET_REQUEST (R483). -/
def execMgmtResetRequest (s : State) : Out := .next (s.restart s.plat.lcs)

/-- The next life-cycle state (R480). -/
def LifeCycle.follows (a b : LifeCycle) : Bool :=
  match a, b with
  | .manufacture, .provisioned => true
  | .provisioned, .deployed => true
  | .deployed, .rma => true
  | _, _ => false

/-- LIFECYCLE_CHANGE (R480, R482). -/
def execLifecycleChange (next : LifeCycle) (s : State) : Out :=
  happens s <| if LifeCycle.follows s.plat.lcs next then some (s.restart next) else none

/-- SPDM_REQUEST (R479): in every life-cycle state, and during recovery; the measurements cover the firmware's digest, the fused
configuration, the life-cycle state and the port modes. -/
def execSpdmRequest (request : List Byte) (s : State) : Out :=
  happens s <|
    let p := s.plat
    some { s with plat := { p with spdm := p.spdm ++ [Config.spdmAnswer request p.digest p.rollback (lifeCode p.lcs) [p.cxl0, p.cxl1]] } }

/-- What the management interface serves beside SPDM and the reset request (R483): DEVSTAT, and each die's temperature in °C and mean
power in mW. -/
def State.management (s : State) : Nat × List (Nat × Nat) := (s.devstat, s.dies.map fun d => (d.tempC, d.meanMw))

end Sys2Proof.Machine
end

