-- ==== Sys2Proof/Machine/Retire.lean ====
section
/-! DEFINITION. How work ends (R176, R189, R196 to R199, R202, R350, R365) and slices change (R369, R370): releasing warps,
retiring blocks and grids, folding children, phases, and gang boundaries. -/

namespace Sys2Proof.Machine

/-! ### Warps, blocks and grids (R176, R350) -/

/-- WARP_RELEASE (R176, R350). -/
def execWarpRelease (uid wid : Nat) (s : State) : Out :=
  happens s <|
    match s.warp? uid wid with
    | none => none
    | some w =>
      if w.holds && w.allExited && w.outstanding == 0 && w.acq.isNone
          && !s.engines.any fun e => e.uid == uid && e.wid == wid && !(e.st == .done) then
        some { s.leaveSlot w with freed := true }
      else none

/-- Every warp of a block is released. -/
def State.allReleased (s : State) (uid : Nat) : Bool := (s.warpsOf uid).all Warp.released

/-- A retiring block gives back what it owns (R350): its registers, its wells and its rings. A child keeps the wells of its
views for the merge engine (R197). -/
def Block.givenBack (b : Block) : Block :=
  let views := b.views.flatMap View.childSlots
  { b with tiles := [], accs := [], streams := [], tags := [], cvs := [], bars := [],
           st := if b.parent.isSome then .merging else .retired,
           bank := if b.parent.isSome then b.bank.filter fun x => views.contains x.1 else [] }

/-- BLOCK_RETIRE (R176, R197, R350, R365). -/
def execBlockRetire (uid : Nat) (s : State) : Out :=
  happens s <|
    match s.block? uid with
    | none => none
    | some b =>
      if b.st == .resident && s.allReleased uid && b.spawned ≤ b.folded then
        let s := (s.closeRings uid).modBlock uid Block.givenBack
        let s := if b.parent.isSome then s else s.modGrid b.gid fun g => { g with retiredBlocks := g.retiredBlocks + 1 }
        some { s.traceEvent (coreDie b.core) 3 none none none none b.ctx with freed := true }
      else none

/-- Grids that a grid's blocks launched, or that its tasks have started or will start, and that have not ended (R176, R366). -/
def State.childGrids (s : State) (gid : Nat) : Bool :=
  (s.grids.any fun g => g.parent == some gid && (g.st == .queued || g.st == .accepted))
    || s.tasks.any fun t => t.parentGrid == gid && (t.state == 1 || t.state == 2)

/-- May a grid retire: every block has been made and has retired, and every child grid has retired? It does not wait for write-backs
(R309). -/
def State.gridDone (s : State) (g : Grid) : Bool :=
  g.st == .accepted && g.nextBid == g.launch.nbid && !s.childGrids g.gid
    && (s.blocks.filter fun b => b.gid == g.gid).all fun b => b.st == .retired

/-- GRID_RETIRE (R176, R193, R202). -/
def execGridRetire (gid : Nat) (s : State) : Out :=
  happens s <|
    match s.grid? gid with
    | none => none
    | some g =>
      if !s.gridDone g then none
      else
        let s := s.modGrid gid fun g => { g with st := .retired }
        let s : State :=
          match g.token with
          | some e => s.completeEngine e 0 0
          | none => s
        match g.task with
        | some (q, i) => some (taskEnd (s.tasks.length + 1) s q i none)
        | none => some s

/-! ### Folding children (R196, R198, R199) -/

/-- A number of 32 bits as a signed one. -/
def sgn32 (x : Nat) : Int := if x < 2 ^ 31 then x else (x : Int) - 2 ^ 32

/-- One element of a fold (R194, R196). -/
def foldElem (v : View) (t c : Nat) : Nat :=
  match v.op with
  | 0 =>
    let x := sgn32 t + sgn32 c
    let x := if v.sat then max (-(2 ^ 31 : Int)) (min (2 ^ 31 - 1) x) else x
    (x % 2 ^ 32).toNat
  | 1 => addNe fmt32 t c
  | 2 => addNe fmt64 t c
  | 3 => if sgn32 c < sgn32 t then c else t
  | 4 => if sgn32 t < sgn32 c then c else t
  | 5 => (fmt32.minmax false t c).1
  | 6 => (fmt32.minmax true t c).1
  | 7 => Nat.land t c
  | 8 => Nat.lor t c
  | _ => Nat.xor t c

/-- What stops the fold of an element at an offset of the parent's window (R198). -/
def foldStop (p : Block) (v : View) (off n : Nat) : Option FaultCode :=
  let other := ((v.bound.find? fun x => rangesMeet x.1 x.2.1 off n).any fun x => x.2.2 != v.op)
    || p.views.any fun u => rangesMeet u.coff u.len off n && u.op != v.op
  let slot := off / 65536
  let gone := (p.wellAt off).isNone || ((assocGet v.wells slot).any fun k => (assocGet p.bank slot).any fun b => b.well != k)
  if other then some .mergeMismatch else if gone then some .mergeDetached else none

/-- Is a word of an element beyond correction, in the target or in the view (R402)? -/
def State.foldBad (s : State) (p c : Block) (v : View) (off i n : Nat) : Bool :=
  (List.range (n / 4)).any fun k =>
    ((p.wellAt (off + 4 * k)).any fun key => cget s.wellBad key == 1)
      || (c.wellAt (v.coff + i * n + 4 * k)).any fun key => cget s.wellBad key == 1

/-- Fold elements of one view from one on (R196): the element that stopped it and why, and the state. A word that the switch's code
finds beyond correction stops it as R198 says of the other reasons (DESIGN CHOICE, log entry 59). -/
def foldView (p c : Block) (v : View) : Nat → Nat → State → Option (Nat × FaultCode) × State
  | 0, _, s => (none, s)
  | fuel + 1, i, s =>
    let n := viewElem v.op
    let off := v.poff + i * n
    if v.len ≤ i * n then (none, s)
    else
      match foldStop p v off n with
      | some e => (some (i, e), s)
      | none =>
        if s.foldBad p c v off i n then (some (i, .eccUncorrectable), s)
        else
        let x := foldElem v (natOfBytes (s.wellBytes p off n)) (natOfBytes (s.wellBytes c (v.coff + i * n) n))
        foldView p c v fuel (i + 1) (s.wellWrite p off (bytesOfNat n x))

/-- Fold the views of a child from its cursor on: where it stopped, and the state. -/
def foldViews (p c : Block) : Nat → Nat → List View → State → Option (Nat × Nat × FaultCode) × State
  | _, _, [], s => (none, s)
  | k, i, v :: vs, s =>
    match foldView p c v (v.len + 1) i s with
    | (some (i, e), s) => (some (k, i, e), s)
    | (none, s) => foldViews p c (k + 1) 0 vs s

/-- The turn of a child ends (R196, R197): its spare wells return. -/
def State.foldEnd (s : State) (parent child : Nat) : State :=
  let s := s.modBlock child fun c => { c with st := .retired, bank := [], views := [] }
  { (s.modBlock parent fun p => { p with folded := p.folded + 1 }).syncWake parent with freed := true }

/-- CHILD_FOLD (R196 to R198): the next child in spawn order. -/
def execChildFold (parent : Nat) (s : State) : Out :=
  happens s <|
    match s.block? parent with
    | none => none
    | some p =>
      match s.blocks.find? fun b => b.parent == some (parent, p.folded) with
      | none => none
      | some c =>
        let m := c.merge.getD {}
        if !(c.st == .merging) || m.stopped then none
        else if !m.merged then some (s.foldEnd parent c.uid)
        else
          match foldViews p c m.view m.elem (c.views.drop m.view) s with
          | (none, s) => some (s.foldEnd parent c.uid)
          | (some (k, i, e), s) =>
            let s := s.modBlock c.uid fun c => { c with merge := some { m with view := k, elem := i, stopped := true } }
            some (s.report m.core
              { code := e.code, src := 1, pc := m.pc, eseq := m.eseq, slot := liveSlot m.core m.slot, wid := m.wid, bid := c.bid,
                ctx := c.ctx, gen := (s.ctx c.ctx).gen })

/-! ### Phases (R189) -/

/-- PHASE_READY (R189 step 4). -/
def execPhaseReady (uid : Nat) (s : State) : Out :=
  happens s <|
    match s.block? uid with
    | none => none
    | some b =>
      let wc := b.phase.any PhaseOp.wc
      if b.st == .phase false && !(s.engines.any fun e => e.uid == uid && !(e.st == .done))
          && !(wc && ((s.grids.any fun g => g.parentBlock == some uid && (g.st == .queued || g.st == .accepted))
            || s.tasks.any fun t => t.parentBlock == uid && (t.state == 1 || t.state == 2))) then
        some (s.modBlock uid fun b =>
          { b with st := .phase true, readySince := s.time, readyCyc := s.homeCycle (s.gridOf b).launch.queue })
      else none

/-- Does work of higher priority wait for a core (R189 step 5)? -/
def State.higherWaits (s : State) (b : Block) : Bool :=
  s.pending.any fun x =>
    (s.gridOf b).launch.prio < s.waitPrio x &&
      match x with
      | .grid g => g.partition.cores.contains b.core
      | .block c => (s.coresFor c (s.stays c)).contains b.core
      | .back c => ((s.restoreWant c []).map Want.cores).any fun l => l.contains b.core

/-- PHASE_START (R189 steps 5 and 6): a ready phase starts on the core it never left, or leaves it, for its queue, to work of higher
priority or where the pool lacks the wells; one that has left is placed by BLOCK_PLACE. -/
def execPhaseStart (uid : Nat) (s : State) : Out :=
  happens s <|
    match s.block? uid with
    | none => none
    | some b =>
      if !(b.st == .phase true && s.holdsCore b) then none
      else if s.higherWaits b then some (s.phaseLeave uid)
      else
        match spillFor { b := b, seat := .phase, cores := [] } (coreCluster b.core) s.blocks.length s with
        | none => some (s.phaseLeave uid)
        | some s => s.phaseBegin uid b.core

/-! ### Gang slices (R369, R370) -/

/-- The first boundary of a table after a time. -/
def Slices.next (t : Slices) (after : Nat) : Nat :=
  let len := 1000 * max 1 t.len
  if after < t.t0 then t.t0 else t.t0 + ((after - t.t0) / len + 1) * len

/-- The owner of the slice that begins at a boundary. -/
def Slices.ownerAt (t : Slices) (at' : Nat) : Option Nat :=
  if t.n = 0 ∨ at' < t.t0 then none
  else
    let o := t.owner.getD ((at' - t.t0) / (1000 * max 1 t.len) % t.n) 0xFFFF
    if o = 0xFFFF then none else some o

/-- When the next boundary falls: of the table in force, or the one that enables slices. -/
def State.nextBoundary (s : State) : Option Nat :=
  if s.plat.slices.n ≠ 0 then some (s.plat.slices.next (s.plat.sliceAt.getD 0))
  else
    match s.plat.nextSlices with
    | some (_, some t) => some t
    | _ => none

/-- Collectives of jobs whose slice ends stop counting time, those of the incoming owner, and of contexts without slots, go
on (R255). -/
def State.gangColls (s : State) (at' : Nat) : State :=
  s.modEngines (fun e => isColl e.op && !(e.st == .done)) fun e =>
    match e.offSince, s.offSlice e.ctx with
    | none, true => { e with offSince := some at' }
    | some t, false => { e with offSince := none, paused := e.paused + (at' - t) }
    | _, _ => e

/-- GANG_BOUNDARY (R369, R370): a written table takes effect, and the slot's owner changes. -/
def execGangBoundary (s : State) : Out :=
  happens s <|
    match s.nextBoundary with
    | none => none
    | some t =>
      if s.time < t then none
      else
        let tab := (s.plat.nextSlices.map Prod.fst).getD s.plat.slices
        let own := tab.ownerAt t
        let s := { s with plat := { s.plat with slices := tab, nextSlices := none, sliceAt := some t, sliceOwner := own } }
        let s := s.gangColls t
        some ((List.range Config.nDies).foldl (fun (s : State) d => s.traceEvent d 9 none none none none (own.getD 0xFFFF)) s)

end Sys2Proof.Machine
end

