-- ==== Sys2Proof/Machine/Sched.lean ====
section
/-! DEFINITION. The schedulers (R56, R179, R180, R351 to R356): forming bundles, fetching lines, choosing the warp that
issues, and ending pauses. -/

namespace Sys2Proof.Machine

/-- FORM_BUNDLE (R352): the ready threads at the smallest PC, or at that of the oldest thread once one is old. -/
def formBundle (w : Warp) : Option Bundle :=
  let rdy := lanes.filter fun l => (w.thread l).st == .ready
  let old := rdy.filter fun l => 64 ≤ (w.thread l).age
  let first := bestBy (fun i j =>
    let x := w.thread i
    let y := w.thread j
    if old.isEmpty then x.pc < y.pc || (x.pc == y.pc && i < j)
    else x.age > y.age || (x.age == y.age && (x.pc < y.pc || (x.pc == y.pc && i < j)))) (if old.isEmpty then rdy else old)
  first.map fun l => ⟨maskOf (rdy.filter fun k => (w.thread k).pc == (w.thread l).pc), (w.thread l).pc, 0⟩

/-- Does a bundle still stand (R353)? -/
def Warp.bundleStands (w : Warp) : Bool :=
  w.bundle.any fun x => (lanesOf x.mask).all fun l => (w.thread l).st == .ready && (w.thread l).pc == x.pc

/-- May a warp form a bundle and issue from it: it is on a core, its block runs, and nothing holds it (R426, R427)? -/
def State.mayIssue (s : State) (w : Warp) : Bool :=
  w.holds && !w.held && w.faultStall.isNone && w.acq.isNone && !(s.gives.any fun g => g.uid == w.uid && g.wid == w.wid)
    && (s.block? w.uid).any fun b => b.st == .resident

/-- The warps of a scheduler (R17). -/
def State.schedWarps (s : State) (core sched : Nat) : List Warp :=
  s.warps.filter fun w => w.core == core && w.slot / 32 == sched && s.mayIssue w

/-- Is the line of the bundle's PC there, or its fault? -/
def Warp.lineReady (w : Warp) : Bool :=
  match w.bundle, w.line with
  | some x, some b =>
    b.line == lineOf x.pc.toNat &&
      match b.st with
      | .wanted => false
      | .refetch => false
      | _ => true
  | _, _ => false

/-- The threads parked by a switch marker wake once the counter reads zero, as it does after a fault too (R47, R64). -/
def Warp.markerWake (w : Warp) : Warp :=
  if w.outstanding ≠ 0 then w
  else { w with threads := w.threads.map fun t => if t.st == .parked .marker then { t with st := .ready, marker := false } else t }

/-- Wake what waits for the counter alone, form the bundle that a warp lacks, and ask for its line (R352). A warp that may be able to
issue ages once a trial has shown that it can (R355). -/
def Warp.prepare (w : Warp) (cycle : Nat) : Warp :=
  let w := w.markerWake
  let w : Warp := if w.bundleStands then w else { w with bundle := formBundle w }
  match w.bundle with
  | none => { w with since := none }
  | some x =>
    let line := lineOf x.pc.toNat
    let there := w.line.any fun b => b.line == line
    let w : Warp := if there then w else { w with line := some { line := line, st := .wanted, data := 0 } }
    if w.lineReady && !w.stall then (if w.since.any fun t => decide (t ≤ cycle) then w else { w with doubt := true }) else { w with since := none }

/-- Effective priority for the choice of warps (R368, R429). -/
def State.warpPrio (s : State) (w : Warp) : Nat := s.effPrio (s.warpCtx w)

/-- The order of choice (R355): starved warps, then priority, then the block's start, then slots after the last one. -/
def State.before? (s : State) (cycle last : Nat) (x y : Warp) : Bool :=
  let old (w : Warp) : Bool := w.since.any fun t => t + 1024 ≤ cycle
  let start (w : Warp) : Nat := ((s.block? w.uid).map Block.start).getD 0
  let turn (w : Warp) : Nat := (w.slot % 32 + 31 - last) % 32
  if old x != old y then old x
  else if old x && x.since != y.since then x.since.getD 0 < y.since.getD 0
  else if s.warpPrio x ≠ s.warpPrio y then s.warpPrio y < s.warpPrio x
  else if start x ≠ start y then start x < start y
  else turn x < turn y

/-- The warp a scheduler issues from now: one that yielded only when no other can (R180). -/
def State.chooseWarp (s : State) (core sched : Nat) : Option Warp :=
  let ready := (s.schedWarps core sched).filter fun w => w.lineReady && !w.stall && !w.doubt
  let fresh := ready.filter fun w => !w.yielded
  bestBy (s.before? (s.die (coreDie core)).cycle ((s.core core).sched sched).last) (if fresh.isEmpty then ready else fresh)

/-- Class and minor of the word a warp is about to issue (R61). -/
def Warp.nextWord (w : Warp) : InstrWord :=
  match w.bundle, w.line with
  | some x, some b => slotWord b.data (slotOf x.pc)
  | _, _ => 0

/-- Lanes that the guard leaves active. -/
def Warp.nextActive (w : Warp) : Nat :=
  match w.bundle with
  | none => 0
  | some x =>
    let cm := readCommon w.nextWord
    let g := w.pget cm.guard.toNat
    popCount (x.mask &&& (if cm.n then ~~~g else g))

/-- May the instruction that a warp is about to issue be one of a pair (R60)? -/
def Warp.mayPair (w : Warp) : Bool :=
  match w.bundle, w.line with
  | some x, some b =>
    let k := slotOf x.pc
    let marked := k != 0 && (readCommon (slotWord b.data (k - 1))).s
    (k < 4 && lwPair (lineWord b.data) k && !(readCommon (slotWord b.data k)).s)
      || (0 < k && x.count != 0 && lwPair (lineWord b.data) (k - 1) && !marked)
  | _, _ => false

/-- The sample that a scheduler tags with this issue, when one is due (R440). Whether the instruction issues as one of a pair where
it may is free (log entry 6). -/
def State.tag (s : State) (w : Warp) (x : Scheduler) : Scheduler × State :=
  let x : Scheduler :=
    { x with prevTags := x.tagAt, samples := x.samples.map fun p => if p.upto.isNone then { p with upto := some s.nextId } else p }
  if x.tagAt.any fun t => decide (t ≤ s.time) then
    let (k, s) := if w.mayPair then s.draw 11 2 else (0, s)
    ({ x with
       tagAt := x.tagAt.filter fun t => decide (s.time < t),
       samples := x.samples ++ [
        { pc := (w.bundle.map Bundle.pc).getD 0, eseq := w.eseq, slot := w.lslot, ctx := s.warpCtx w,
          time := (w.line.map LineBuf.time).getD s.time,
          cls := (w.nextWord.extractLsb' 84 6).toNat, minor := (w.nextWord.extractLsb' 80 4).toNat, nact := w.nextActive,
          fault := false, disc := false, pair := k == 1, name := s.nextId }] }, s)
  else (x, s)

/-- Let a warp issue: its scheduler remembers it, and every yield of the scheduler's warps is over (R180, R355). -/
def State.choose (s : State) (w : Warp) (core sched : Nat) : State :=
  let (x, s) := s.tag w ((s.core core).sched sched)
  let yields := (s.warps.filter fun (x : Warp) => decide (x.core = core ∧ x.slot / 32 = sched) && x.yielded).map Warp.slot
  let s := s.modCore core fun c => c.setSched sched { x with prev := x.last, last := w.slot % 32, prevYields := yields }
  let ws : List Warp := s.warps.map fun (x : Warp) =>
    if x.core = core ∧ x.slot / 32 = sched then { x with yielded := false } else x
  { s with warps := ws, issue := some { uid := w.uid, wid := w.wid } }

/-- Try whether a warp that stalled before can issue now (R355): the scheduler has its turn in this cycle still to come. -/
def State.tryWarp (s : State) (w : Warp) (core sched : Nat) : State :=
  { s with issue := some { uid := w.uid, wid := w.wid, probe := true }, cycled := s.cycled.filter fun n => n != 4 * core + sched }

/-- What a trial leaves (R355): the warp still stalls, with whatever it has started meanwhile, or it can issue and nothing has
happened. -/
def State.tried (s t : State) : State :=
  match s.issue with
  | none => t
  | some n =>
    let sure (s : State) (f : Warp → Option Nat) : State :=
      { (s.modWarp n.uid n.wid fun w => { w with doubt := false, since := f w }) with issue := none }
    if (t.warp? n.uid n.wid).any Warp.stall then sure t fun _ => none
    else sure s fun w => some (w.since.getD (s.die (coreDie w.core)).cycle)

/-- The outcome of an issue, or of a trial of one. -/
def State.outcome (s : State) (o : Out) : Out :=
  match o with
  | .next t => .next (if s.issue.any Issue.probe then s.tried t else t)
  | other => other

/-- SCHEDULER_ISSUE_CYCLE (R352, R355): what a scheduler does in a cycle. It first tries the warps that stalled before. -/
def execSchedulerIssueCycle (core sched : Nat) (s : State) : Out :=
  let cycle := (s.die (coreDie core)).cycle
  let mine := s.schedWarps core sched
  let s : State := mine.foldl (fun (s : State) w => s.setWarp (w.prepare cycle)) s
  if s.plat.stopped || (s.die (coreDie core)).relock.isSome then .next s
  else
    match (s.schedWarps core sched).find? fun w => w.doubt && !w.stall && w.lineReady with
    | some w => .next (s.tryWarp w core sched)
    | none =>
      match s.chooseWarp core sched with
      | none => .next s
      | some w => .next (s.choose w core sched)

/-- A line arrives for a warp that waits for it, or cannot be reached yet. -/
def State.lineIn (s : State) (uid wid : Nat) (st : FetchSt) (flip : BitVec 512) : Option State :=
  match s.warp? uid wid with
  | none => none
  | some w =>
    match w.line with
    | none => none
    | some b =>
      if b.st ≠ st then none
      else
        let (b, s) := s.fetchLine w b.line flip (st == .refetch)
        if b.st == .wanted then (if w.askedAt.any fun x => x.1 == b.line then none else some (s.modWarp uid wid fun w => w.asks b.line s.time))
        else some (s.modWarp uid wid fun w => { w with line := some { b with time := s.time }, askedAt := none })

/-- LINE_FETCH (R55, R56). -/
def execLineFetch (uid wid : Nat) (flip : BitVec 512) (s : State) : Out := happens s (s.lineIn uid wid .wanted flip)

/-- LINE_REFETCH (R56): the second copy. -/
def execLineRefetch (uid wid : Nat) (flip : BitVec 512) (s : State) : Out := happens s (s.lineIn uid wid .refetch flip)

/-- PAUSE_EXPIRY (R179): the count has reached zero; a switch marker is applied now (R64). -/
def execPauseExpiry (uid wid lane : Nat) (s : State) : Out :=
  happens s <|
    match s.warp? uid wid with
    | none => none
    | some w =>
      if (w.thread lane).st == .paused 0 then some (s.wakeWhere uid wid fun l t => l == lane && t.st == .paused 0) else none

end Sys2Proof.Machine
end

