-- ==== Sys2Proof/Machine/Tiles.lean ====
section
/-! DEFINITION. Tile and accumulator instructions (class 0x2A), quantisation (class 0x2B) and weight-store timing (class
0x2C): R260 to R264, R279 to R286. -/

namespace Sys2Proof.Machine

/-- Does an issued and uncompleted matrix operation of the block, on this core or on one that the block has left, write one of these accumulators, or read one of these
tiles (R261)? -/
def State.matBusy (s : State) (c : Ic) (accs tiles : List Nat) : Bool :=
  (s.cores.flatMap Core.matq).any fun id => (s.engine? id).any fun e =>
    e.uid == c.b.uid &&
      match e.op with
      | .mma f => accs.contains (mmaAcc f) || tiles.any (mmaTiles f).contains
      | .mconv f => accs.contains (mmaAcc f)
      | _ => false

/-- An instruction of these classes, once no matrix operation bars it (R261): the accumulators it names and the tiles it
writes. -/
def tileInstr (i : Instr) (s : State) (accs tiles : List Nat) (body : Ic → State → Res) : Out :=
  run i s fun c s => if s.matBusy c accs tiles then .stall s else body c s

/-- The block as the state holds it. -/
def State.blockOf (s : State) (c : Ic) : Block := (s.block? c.b.uid).getD c.b

/-- First cell of an accumulator, and first element of a tile. -/
def fileBase (r : BitVec 8) : Nat := 4096 * r.toNat

/-- Row operand of a lane (R279). -/
def rowOf (c : Ic) (f : RegForm) (l : Nat) : Nat := srcB c f false .n32 l

def rowsBad (c : Ic) (f : RegForm) : Bool := (lanesOf c.active).any fun l => 64 ≤ rowOf c f l

/-- TZERO (R280). -/
def execTzero (f : RegForm) (s : State) : Out :=
  tileInstr (.tzero f) s [] [f.d.toNat] fun c s =>
    .next (s.modBlock c.b.uid fun b => { b with tiles := cclear b.tiles (fileBase f.d) 4096 })

/-- AZERO (R280). -/
def execAzero (f : RegForm) (s : State) : Out :=
  tileInstr (.azero f) s [f.d.toNat] [] fun c s =>
    .next (s.modBlock c.b.uid fun b => { b with accs := cclear b.accs (fileBase f.d) 4096 })

/-- AMOV (R280). -/
def execAmov (f : RegForm) (s : State) : Out :=
  tileInstr (.amov f) s [f.d.toNat, f.a.toNat] [] fun c s =>
    .next (s.modBlock c.b.uid fun b => { b with accs := cput b.accs (fileBase f.d) (cgets b.accs (fileBase f.a) 4096) })

/-- TMOV (R280). -/
def execTmov (f : RegForm) (s : State) : Out :=
  tileInstr (.tmov f) s [] [f.d.toNat] fun c s =>
    .next (s.modBlock c.b.uid fun b => { b with tiles := cput b.tiles (fileBase f.d) (cgets b.tiles (fileBase f.a) 4096) })

/-- Key of the accumulator cell that `ald` and `ast` reach in a lane (R280). -/
def laneCell (acc : BitVec 8) (f : RegForm) (row l : Nat) : Nat := fileBase acc + cellAt row (32 * (f.sub.toNat % 2) + l)

/-- ALD (R280). -/
def execAld (f : RegForm) (s : State) : Out :=
  tileInstr (.ald f) s [f.a.toNat] [] fun c s =>
    if rowsBad c f then c.illegal
    else
      .next (owed c s false false fun l =>
        (destWrite f.dc f.d false l (cget (s.blockOf c).accs (laneCell f.a f (rowOf c f l) l)).toNat, 0))

/-- AST (R280). -/
def execAst (f : RegForm) (s : State) : Out :=
  tileInstr (.ast f) s [f.d.toNat] [] fun c s =>
    if rowsBad c f then c.illegal
    else
      .next (s.modBlock c.b.uid fun b =>
        { b with
          accs := (lanesOf c.active).foldl (fun m l => cset m (laneCell f.d f (rowOf c f l) l) (c.w.vget f.a.toNat l)) b.accs })

/-- Key of the first of a lane's two tile elements (R280). -/
def laneElem (t : BitVec 8) (row l : Nat) : Nat := fileBase t + cellAt row (2 * l)

/-- TMOV_W (R280). -/
def execTmovW (f : RegForm) (s : State) : Out :=
  tileInstr (.tmovW f) s [] [f.d.toNat] fun c s =>
    if rowsBad c f then c.illegal
    else
      .next (s.modBlock c.b.uid fun b =>
        { b with
          tiles := (lanesOf c.active).foldl (fun m l =>
            let v := c.w.vget f.a.toNat l
            cset (cset m (laneElem f.d (rowOf c f l) l) (v.setWidth 16)) (laneElem f.d (rowOf c f l) l + 1)
              (v.extractLsb' 16 16)) b.tiles })

/-- TMOV_R (R280). -/
def execTmovR (f : RegForm) (s : State) : Out :=
  tileInstr (.tmovR f) s [] [] fun c s =>
    if rowsBad c f then c.illegal
    else
      .next (owed c s false false fun l =>
        let k := laneElem f.a (rowOf c f l) l
        let t := (s.blockOf c).tiles
        (destWrite f.dc f.d false l ((cget t k).toNat + 65536 * (cget t (k + 1)).toNat), 0))

/-! ### Quantisation (R281 to R283) -/

/-- Tile, row and block that imm32 names (R281). -/
def hqTile (f : RegForm) : Nat := f.imm.toNat % 8 + fieldOf f.imm.toNat 16 2 / 2
def hqRow (f : RegForm) : Nat := fieldOf f.imm.toNat 8 6
def hqBlk (f : RegForm) : Nat := fieldOf f.imm.toNat 16 2

/-- Index of code `i` among the tile's bytes (R282). -/
def hqByte (f : RegForm) (i : Nat) : Nat := 128 * hqRow f + 64 * (hqBlk f % 2) + i

/-- The seed and the block index. -/
def hqSeed (c : Ic) (f : RegForm) : BitVec 64 := c.w.sget64 f.b.toNat
def hqIndex (c : Ic) (f : RegForm) : BitVec 64 := c.w.sget64 f.e.toNat

/-- Owe results computed once for the warp, and OR its flags in (R282). -/
def owedOnce (c : Ic) (s : State) (fl : Flags) (ws : List (RegSlot × Word)) : State :=
  (s.modWarp c.w.uid c.w.wid fun w => w.raise fl).owe { id := 0, uid := c.w.uid, wid := c.w.wid, fp := true, writes := ws }

/-- What `hqnt` makes of its 64 values, lane i of A and lane i of A + 1 as value 32 + i (R125, R126, R282): the scale, the codes, the
flags. -/
def hqResult (c : Ic) (f : RegForm) : Nat × List Nat × Flags :=
  hqBlock ((List.range 64).map fun i => (c.w.vget (f.a.toNat + i / 32) (i % 32)).toNat) (hqSeed c f) (hqIndex c f)

/-- HQNT (R125, R126, R282). -/
def execHqnt (f : RegForm) (s : State) : Out :=
  tileInstr (.hqnt f) s [] [hqTile f] fun c s =>
    let r := hqResult c f
    .next (owedOnce c (s.modBlock c.b.uid fun b =>
        (r.2.1.zip (List.range 64)).foldl (fun b x => b.tileNibPut (hqTile f) (hqByte f x.2) 2 x.1) b) r.2.2
      [(.vecB (f.d.toNat + hqRow f / 32) (hqRow f % 32) (hqBlk f), BitVec.ofNat 32 r.1)])

/-- The 64 codes of its row and block that `hdeq` reads (R282). -/
def hdCodes (c : Ic) (s : State) (f : RegForm) : List Nat :=
  (List.range 64).map fun i => (s.blockOf c).tileNibs (hqTile f) (hqByte f i) 2

/-- What `hdeq` makes of its codes and their scale (R127, R282): the 64 values, the flags. -/
def hdResult (c : Ic) (s : State) (f : RegForm) : List Nat × Flags :=
  hdBlock (hdCodes c s f) (fieldOf (c.w.vget (f.a.toNat + hqRow f / 32) (hqRow f % 32)).toNat (8 * hqBlk f) 8) (hqSeed c f)
    (hqIndex c f)

/-- HDEQ (R127, R282). -/
def execHdeq (f : RegForm) (s : State) : Out :=
  tileInstr (.hdeq f) s [] [] fun c s =>
    if (hdCodes c s f).contains 0x80 then c.illegal
    else
      let r := hdResult c s f
      .next (owedOnce c s r.2 ((r.1.zip (List.range 64)).map fun x =>
        (.vec (f.d.toNat + x.2 / 32) (x.2 % 32), BitVec.ofNat 32 x.1)))

/-- Convert every cell of an accumulator, with the flags (R283). -/
def convertCells (b : Block) (a : BitVec 8) (op : Nat → Nat × Flags) : List Nat × Flags :=
  let ys := (cgets b.accs (fileBase a) 4096).map fun v => op v.toNat
  (ys.map Prod.fst, orFlags (ys.map Prod.snd))

/-- ACONV (R283). -/
def execAconv (f : RegForm) (s : State) : Out :=
  tileInstr (.aconv f) s [f.a.toNat] [f.d.toNat] fun c s =>
    let (ys, fl) := convertCells (s.blockOf c) f.a fun v => (tyFmt f.ty).round (modeOf f) (fmt32.dec v)
    let s := s.modWarp c.w.uid c.w.wid fun w => w.raise fl
    .next (s.modBlock c.b.uid fun b => { b with tiles := cput b.tiles (fileBase f.d) (ys.map (BitVec.ofNat 16)) })

/-- ACONV_F32 (R283). -/
def execAconvF32 (f : RegForm) (s : State) : Out :=
  tileInstr (.aconvF32 f) s [f.d.toNat, f.a.toNat] [] fun c s =>
    let (ys, fl) := convertCells (s.blockOf c) f.a fun v => fmt32.round (modeOf f) (FVal.ofInt (signed32 v))
    let s := s.modWarp c.w.uid c.w.wid fun w => w.raise fl
    .next (s.modBlock c.b.uid fun b => { b with accs := cput b.accs (fileBase f.d) (ys.map (BitVec.ofNat 32)) })

/-! ### Weight-store refresh timing (R284 to R286) -/

/-- A selector word has no bit outside its two fields (R285). -/
def selectorOk (v : Nat) : Bool := fieldOf v 6 2 == 0 && v < 1024

/-- Refresh origin of the die that a selector names, and its group. -/
def State.selOrigin (s : State) (sel : Nat) : Nat := (s.die (fieldOf sel 8 2)).t0
def selGroup (sel : Nat) : Nat := fieldOf sel 0 6

/-- The opening time that `wsinfo` writes (R286). -/
def State.wsInfo (s : State) (sel : Nat) : Nat :=
  let t0 := s.selOrigin sel
  let g := selGroup sel
  if windowOpenAt t0 g s.time then s.time - windowPhase t0 g s.time else windowAfter t0 g s.time

/-- WSINFO (R285, R286). -/
def execWsinfo (f : RegForm) (s : State) : Out :=
  run (.wsinfo f) s fun c s =>
    let sel (l : Nat) : Nat := srcA c f false .n32 l
    if (workLanes f.c.u c.active).any fun l => !selectorOk (sel l) then c.illegal
    else .next (owed c s f.c.u false fun l => (destWrite f.dc f.d true l (s.wsInfo (sel l)), 0))

/-- No window of the group overlaps [t, t + n); with n = 0, none is open at t (R286). -/
def State.wsClear (s : State) (sel n : Nat) : Bool :=
  let t0 := s.selOrigin sel
  let g := selGroup sel
  !windowOpenAt t0 g s.time && s.time + n ≤ windowAfter t0 g s.time

/-- WSWAIT (R285, R286). -/
def execWswait (f : RegForm) (s : State) : Out :=
  run (.wswait f) s fun c s =>
    let n := fieldOf f.imm.toNat 0 16
    let sel := fieldOf f.imm.toNat 16 10
    if !selectorOk sel || 63750 < n then c.illegal
    else if s.wsClear sel n then .next s
    else .stall s

end Sys2Proof.Machine
end

