-- ==== Sys2Proof/Machine/Stipple.lean ====
section
/-! DEFINITION. Stipple instructions (class 0x30): stream registers, their tags and their arithmetic (R128 to R131, R287 to
R293). -/

namespace Sys2Proof.Machine

/-- Code of a length (R29). -/
def lenCode (n : Nat) : BitVec 2 := if n = 256 then 0 else if n = 512 then 1 else 2

/-- Lane l of a stream register. -/
def Block.stream (b : Block) (q l : Nat) : BitVec 1024 := cget b.streams (32 * q + l)

/-- Address of a class seed of a context (R289, R423). -/
def State.seedAt (s : State) (ctx c : Nat) : Nat := s.plat.ctxbase.toNat + 1024 * ctx + 128 + 8 * c

def State.seed (s : State) (ctx c : Nat) : BitVec 64 := BitVec.ofNat 64 (readNat s.mem (s.seedAt ctx c) 8)

/-- `h(c, l, j)` (R290). -/
def streamHash (seed : BitVec 64) (len l j : Nat) : Nat :=
  (mix64 (seed ^^^ (BitVec.ofNat 64 l <<< 32) ^^^ BitVec.ofNat 64 j)).toNat % len

/-- A stream of `len` bits from a test on each bit. -/
def bitsOf (len : Nat) (p : Nat → Bool) : BitVec 1024 := (List.range len).foldl (fun v j => setBit v j (p j)) 0

/-- Write a stream register with its tag. -/
def State.putStream (s : State) (uid q : Nat) (tag : StreamTag) (f : Nat → BitVec 1024) : State :=
  s.modBlock uid fun b =>
    { b with streams := cput b.streams (32 * q) (lanes.map f), tags := assocSet b.tags q tag }

/-- The bits below the present length. -/
def Block.lenMask (b : Block) : BitVec 1024 := BitVec.ofNat 1024 (2 ^ b.slen - 1)

/-- Does a stream have the present length (R288)? -/
def lenGood (b : Block) (q : BitVec 8) : Bool := lenOf (b.tag q.toNat).len == b.slen

/-- Are two streams correlated (R291)? -/
def correlated (b : Block) (x y : BitVec 8) : Bool :=
  let t := b.tag x.toNat
  let u := b.tag y.toNat
  t.cmask &&& u.cmask != 0 && t.derived == u.derived

/-- Operate on streams of the present length (R288, R291): the operands, and the pairs that must not be correlated. -/
def streamInstr (i : Instr) (s : State) (ops : List (BitVec 8)) (pairs : List (BitVec 8 × BitVec 8)) (illegal : Ic → Bool)
    (body : Ic → State → Block → State) : Out :=
  run i s fun c s =>
    let b := s.blockOf c
    if illegal c then c.illegal
    else if !ops.all (lenGood b) then .fault (c.record .streamLength c.lane0)
    else if pairs.any fun p => correlated b p.1 p.2 then .fault (c.record .streamCorrelated c.lane0)
    else .next (body c s b)

/-- A class operand in the B position (R287). -/
def classOf (c : Ic) (f : RegForm) : Nat := srcB c f false .n32 c.lane0

/-- Tag of a generated stream (R290). -/
def freshTagOf (b : Block) (cls : Nat) : StreamTag := { cmask := (1 : BitVec 64) <<< cls, len := lenCode b.slen, derived := false }

/-- SLEN (R287, R288). -/
def execSlen (f : RegForm) (s : State) : Out :=
  run (.slen f) s fun c s =>
    let n := srcA c f false .n32 c.lane0
    if n = 256 ∨ n = 512 ∨ n = 1024 then .next (s.modBlock c.b.uid fun b => { b with slen := n }) else c.illegal

/-- SSEED (R289). -/
def execSseed (f : RegForm) (s : State) : Out :=
  run (.sseed f) s fun c s =>
    let k := classOf c f
    if 64 ≤ k then c.illegal
    else .next { s with mem := writeNat s.mem (s.seedAt c.b.ctx k) 8 (c.w.sget64 f.a.toNat).toNat }

/-- SGEN (R129, R290). -/
def execSgen (f : RegForm) (s : State) : Out :=
  streamInstr (.sgen f) s [] [] (fun c => 64 ≤ classOf c f) fun c s b =>
    let k := classOf c f
    let seed := s.seed b.ctx k
    s.putStream b.uid f.d.toNat (freshTagOf b k) fun l =>
      let v := if c.active.getLsbD l then min (srcA c f false .n32 l) 1023 else 0
      bitsOf b.slen fun j => 1024 * streamHash seed b.slen l j < v * b.slen

/-- SREGEN (R290). -/
def execSregen (f : RegForm) (s : State) : Out :=
  streamInstr (.sregen f) s [f.a] [] (fun c => 64 ≤ classOf c f) fun c s b =>
    let k := classOf c f
    let seed := s.seed b.ctx k
    s.putStream b.uid f.d.toNat (freshTagOf b k) fun l =>
      let n := popCount (b.stream f.a.toNat l &&& b.lenMask)
      bitsOf b.slen fun j => streamHash seed b.slen l j < n

/-- Tag of a result computed from several operands (R292). -/
def joinTag (b : Block) (ops : List (BitVec 8)) : StreamTag :=
  let ts := ops.map fun q => b.tag q.toNat
  { cmask := ts.foldl (fun m t => m ||| t.cmask) 0, len := lenCode b.slen, derived := ts.all StreamTag.derived }


/-- A bitwise instruction of two streams (R291, R292). -/
def streamBin (i : Instr) (f : RegForm) (s : State) (op : BitVec 1024 → BitVec 1024 → BitVec 1024) : Out :=
  streamInstr i s [f.a, f.b] (if f.sub.getLsbD 0 then [] else [(f.a, f.b)]) (fun _ => false) fun _ s b =>
    s.putStream b.uid f.d.toNat (joinTag b [f.a, f.b]) fun l =>
      op (b.stream f.a.toNat l) (b.stream f.b.toNat l) &&& b.lenMask

/-- SAND (R292). -/
def execSand (f : RegForm) (s : State) : Out := streamBin (.sand f) f s fun x y => x &&& y
/-- SOR (R292). -/
def execSor (f : RegForm) (s : State) : Out := streamBin (.sor f) f s fun x y => x ||| y
/-- SXOR (R292). -/
def execSxor (f : RegForm) (s : State) : Out := streamBin (.sxor f) f s fun x y => x ^^^ y
/-- SXNOR (R292). -/
def execSxnor (f : RegForm) (s : State) : Out := streamBin (.sxnor f) f s fun x y => ~~~(x ^^^ y)

/-- SNOT (R292). -/
def execSnot (f : RegForm) (s : State) : Out :=
  streamInstr (.snot f) s [f.a] [] (fun _ => false) fun _ s b =>
    s.putStream b.uid f.d.toNat (joinTag b [f.a]) fun l => ~~~(b.stream f.a.toNat l) &&& b.lenMask

/-- SMUX (R291, R292): b where c is 1, else a. -/
def execSmux (f : RegForm) (s : State) : Out :=
  streamInstr (.smux f) s [f.a, f.b, f.e] (if f.sub.getLsbD 0 then [] else [(f.e, f.a), (f.e, f.b)]) (fun _ => false) fun _ s b =>
    s.putStream b.uid f.d.toNat (joinTag b [f.a, f.b, f.e]) fun l =>
      let k := b.stream f.e.toNat l
      ((b.stream f.b.toNat l &&& k) ||| (b.stream f.a.toNat l &&& ~~~k)) &&& b.lenMask

/-- SSHIFT (R287, R292). -/
def execSshift (f : RegForm) (s : State) : Out :=
  streamInstr (.sshift f) s [f.a] [] (fun c => let k := srcB c f false .n32 c.lane0; k = 0 || c.b.slen ≤ k) fun c s b =>
    let k := srcB c f false .n32 c.lane0
    s.putStream b.uid f.d.toNat { joinTag b [f.a] with derived := true } fun l =>
      bitsOf b.slen fun j => (b.stream f.a.toNat l).getLsbD ((j + b.slen - k) % b.slen)

/-- SMOV (R288, R292): any length. -/
def execSmov (f : RegForm) (s : State) : Out :=
  streamInstr (.smov f) s [] [] (fun _ => false) fun _ s b =>
    s.putStream b.uid f.d.toNat (b.tag f.a.toNat) fun l => b.stream f.a.toNat l &&& b.lenMask

/-- SCNT (R128, R293). -/
def execScnt (f : RegForm) (s : State) : Out :=
  streamInstr (.scnt f) s [f.a] [] (fun _ => false) fun c s b =>
    owed c s false false fun l =>
      (destWrite f.dc f.d false l (popCount (b.stream f.a.toNat l &&& b.lenMask)), 0)

/-- SCLASS (R293): the class mask, or the tag's length and derived flag. -/
def execSclass (f : RegForm) (s : State) : Out :=
  streamInstr (.sclass f) s [] [] (fun _ => false) fun c s b =>
    let t := b.tag f.a.toNat
    owed c s true false fun l =>
      if f.sub = 1 then (destWrite f.dc f.d false l (t.len.toNat + 4 * t.derived.toNat), 0)
      else (destWrite f.dc f.d true l t.cmask.toNat, 0)

end Sys2Proof.Machine
end

