-- ==== Sys2Proof/Machine/Super.lean ====
section
/-! DEFINITION. Supervisor instructions (class 0x06, R204, R205, R430): TLB invalidation with what it does to migrating
writes (R419), waking, killing, evicting and resuming warps, and reading access counters. -/

namespace Sys2Proof.Machine

/-- A result of one uniform register, written at issue: within the run, a later read finds the new value (R63 leaves it open, log entry
14). -/
def State.putStatus (s : State) (c : Ic) (f : RegForm) (v : Nat) : State :=
  s.modWarp c.w.uid c.w.wid fun w => w.sset f.d.toNat (BitVec.ofNat 32 v)

/-! ### TLB invalidation (R205, R416, R419) -/

/-- What a `sys.tlbinv` names. -/
structure InvSel where
  mode : Nat
  ctx : Nat
  va : Nat
  deriving DecidableEq, Repr

/-- Does it name an address of a context, mapped at a level? The page of an access in flight may be of either size. -/
def InvSel.entry (x : InvSel) (e : TlbEntry) : Bool :=
  match x.mode with
  | 0 => e.ctx == x.ctx && e.va == entryBase x.va e.level
  | 1 => e.ctx == x.ctx
  | _ => true

def InvSel.hits (x : InvSel) (level ctx va : Nat) : Bool :=
  match x.mode with
  | 0 => ctx == x.ctx && pageBase va level == pageBase x.va level
  | 1 => ctx == x.ctx
  | _ => true

/-- Level of the page that the named address is on, as an old entry or the tables give it: 1 for 512 MiB. -/
def State.invLevel (s : State) (x : InvSel) : Nat :=
  if s.tlb.any fun e => e.level == 1 && pteLeaf e.pte && x.entry e then 1
  else
    match s.walk x.ctx x.va with
    | .ok (_, l) => l
    | .error _ => 2

/-- Context and virtual address of an access under way; whether it waits at a migrating page. -/
def Msg.va (m : Msg) : Option (Nat × Nat × Bool) :=
  match m.kind with
  | .wb x => some (x.ctx, x.va, x.mig)
  | .strong r => some (r.acc.party.ctx, r.va, r.mig)
  | .check a _ => some (a.party.ctx, a.va.toNat, false)
  | .fillReq f => some (f.ctx, f.va, false)
  | .fillReply f => some (f.ctx, f.va, false)
  | _ => none

/-- A held or refused write at its new place: a strong write changes its own address, a write-back its line. -/
def Msg.moved (m : Msg) (x : Xlat) : Msg :=
  match m.kind with
  | .wb w => { m with kind := .wb { w with line := x.pa, loc := x.loc, mig := x.mig }, heldAt := none, refused := false }
  | .strong r =>
    { m with kind := .strong { r with addr := x.pa, loc := x.loc, mig := x.mig, acc := { r.acc with addr := x.pa, loc := x.loc } },
             heldAt := none, refused := false }
  | _ => m

/-- Return a held or refused write to its requester, which translates it again (R419); what the walk finds wrong faults it. -/
def State.retranslate (s : State) (m : Msg) : State :=
  match m.va with
  | none => s
  | some (ctx, va, _) =>
    match (s.xlat [] ctx va .write).1 with
    | .ok x => { s with msgs := replaceIf (fun (y : Msg) => y.id == m.id) (fun y => y.moved x) s.msgs }
    | .error x => s.refuseWrite m x

/-- Drop the named entries everywhere, start the write-backs of the lines they translated, and return the writes that
a migration held (R205, R414, R419). `level`: of the page that is named. -/
def State.invalidate (s : State) (x : InvSel) (level : Nat) : State :=
  let s := { s with tlb := s.tlb.filter fun e => !x.entry e }
  let s := s.cores.foldl (fun (s : State) (k : Core) =>
    k.l1.foldl (fun (s : State) (l : L1Line) =>
      if x.hits level l.ctx l.va then s.writeBack k.id l.ctx l.line else s) s) s
  (s.msgs.filter fun m => !m.refused && m.va.any fun v => v.2.2 && x.hits level v.1 v.2.1).foldl (fun (s : State) m => s.retranslate m) s

/-- Is an access translated before message name `id` through a named entry still under way? Writes held for a migration
are not. -/
def State.translatedOut (s : State) (x : InvSel) (level id : Nat) : Bool :=
  s.msgs.any fun m => m.id < id && m.va.any fun v => !v.2.2 && x.hits level v.1 v.2.1

/-- SYS_TLBINV (R205). -/
def execSysTlbinv (f : RegForm) (s : State) : Out :=
  run (.sysTlbinv f) s fun c s =>
    let x : InvSel := { mode := f.sub.toNat, ctx := srcB c f false .b32 c.lane0 % 65536, va := srcA c f true .b64 c.lane0 }
    withWritten s c .device fun s =>
      let level := if c.w.waitId = 0 then s.invLevel x else c.w.waitLevel
      let s := if c.w.waitId = 0 then s.invalidate x level else s
      let id := if c.w.waitId = 0 then s.nextId else c.w.waitId
      let s := s.modWarp c.w.uid c.w.wid fun w => { w with waitId := id, waitLevel := level }
      if s.translatedOut x level id then .stall s
      else .next ((s.releaseNow c.w.uid c.w.wid .device).acquire c.w.uid c.w.wid .device 0)

/-! ### Naming a warp (R204, R430) -/

/-- What a slot number names: a warp, or the last merging warp of a child whose fold is not over (R197). -/
inductive Named where
  | nothing
  | warp (w : Warp)
  | merging (b : Block) (m : Merge)

def State.named (s : State) (slot ctx : Nat) : Named :=
  match s.warpAt slot with
  | some w => if s.warpCtx w = ctx then .warp w else .nothing
  | none =>
    match s.blocks.find? fun b => b.st == .merging && b.ctx == ctx && b.merge.any fun m =>
        m.merged && liveSlot m.core m.slot == slot with
    | some b => .merging b (b.merge.getD {})
    | none => .nothing

/-- Does an answer come too late (R430)? -/
def State.staleGen (s : State) (ctx gen : Nat) : Bool := (s.ctx ctx).dead || (s.ctx ctx).gen != gen

/-- Do refused writes of a warp wait (R419)? -/
def Msg.refusedOf (m : Msg) (uid wid : Nat) : Bool :=
  m.refused &&
    match m.kind with
    | .wb x => x.owners.any fun o => o.1 == uid && o.2.1 == wid
    | _ => false

/-- Is something of the warp parked or suspended for a fault (R205, R239)? -/
def State.faultParked (s : State) (w : Warp) : Bool :=
  (w.threads.any fun t => t.st == .parked .fault)
    || s.engines.any fun e => e.uid == w.uid && e.wid == w.wid && e.st == .suspended

/-- Answer a fault (R205): the warp's threads, its suspended commands and its refused writes go on. -/
def State.answer (s : State) (w : Warp) : State :=
  let s := s.wakeFaulted w
  (s.msgs.filter fun m => m.refusedOf w.uid w.wid).foldl (fun (s : State) m => s.retranslate m) s

/-- SYS_FWAKE (R205, R430). -/
def execSysFwake (f : RegForm) (s : State) : Out :=
  run (.sysFwake f) s fun c s =>
    let slot := srcA c f false .b32 c.lane0
    let b := srcB c f false .b32 c.lane0
    withBoth s c .device fun s => .next <|
      if s.staleGen (b % 65536) (b / 65536) then s.putStatus c f 2
      else
        match s.named slot (b % 65536) with
        | .nothing => s.putStatus c f 2
        | .merging k m =>
          if m.stopped then
            (s.modBlock k.uid fun k => { k with merge := some { m with stopped := false },
                                                views := k.views.map fun v => { v with wells := [] } }).putStatus c f 0
          else s.putStatus c f 1
        | .warp w => if s.faultParked w then (s.answer w).putStatus c f 0 else s.putStatus c f 1

/-- SYS_FKILL (R205, R198, R430, R432). -/
def execSysFkill (f : RegForm) (s : State) : Out :=
  run (.sysFkill f) s fun c s =>
    let slot := srcA c f false .b32 c.lane0
    let b := srcB c f false .b32 c.lane0
    let code := f.imm.setWidth 8
    if !(FaultCode.all.any fun x => x.code == code) then c.illegal
    else withBoth s c .device fun s => .next <|
      let s := s.putStatus c f 0
      let kill (uid core : Nat) : State :=
        match s.block? uid with
        | none => s
        | some k =>
          let (t, rs) := abortGrid 12 s k.gid code
          (s.reportFailed t).reports core rs
      if s.staleGen (b % 65536) (b / 65536) then s.putStatus c f 2
      else
        match s.named slot (b % 65536) with
        | .nothing => s.putStatus c f 2
        | .merging k m =>
          if m.stopped then s.modBlock k.uid fun k => { k with views := [], bank := [], merge := some { m with stopped := false } }
          else kill k.uid m.core
        | .warp w => kill w.uid w.core

/-- The resident block of the warp that a `sys` instruction names (R205); none where its generation is stale or nothing that can
leave is there. -/
def State.evictTarget (s : State) (c : Ic) (f : RegForm) : Option Block :=
  let b := srcB c f false .b32 c.lane0
  if s.staleGen (b % 65536) (b / 65536) then none
  else
    match s.named (srcA c f false .b32 c.lane0) (b % 65536) with
    | .warp w => (s.block? w.uid).filter fun k => k.st == .resident
    | _ => none

/-- SYS_EVICT (R205, R433, R514): everything of the instruction itself comes before the block leaves. A warp whose block stands
between two phases has nothing to evict: status 2, and no effect (DESIGN CHOICE, log entry 83). -/
def execSysEvict (f : RegForm) (s : State) : Out :=
  run (.sysEvict f) s fun c s =>
    match s.evictTarget c f with
    | none => withBoth s c .device fun s => .next (s.putStatus c f 2)
    | some k =>
      match s.saveLines k with
      | .error (x, a) => withBoth s c .device fun s => .next ((s.refuseReport k x a).putStatus c f 3)
      | .ok pas =>
        if !s.blockCanLeave k then .stall s
        else withBoth s c .device fun s =>
          let s := (s.putStatus c f 0).retire c (.sysEvict f) fun _ n => n
          .raw (s.evictBlock ((s.block? k.uid).getD k) pas true none)

/-- SYS_RESUME (R204, R205). -/
def execSysResume (f : RegForm) (s : State) : Out :=
  run (.sysResume f) s fun c s =>
    let a := srcA c f true .b64 c.lane0
    withBoth s c .device fun s =>
      let away (b : Block) : Bool := b.st == .evicted true || (b.st == .resident && (s.warpsOf b.uid).any Warp.barred)
      match s.blocks.find? fun b => away b && s.saveSlot b == a with
      | none => .next (s.putStatus c f 2)
      | some b =>
        let s := if b.st == .resident then s else s.modBlock b.uid fun b => { b with resume := true }
        let s := (s.warpsOf b.uid).foldl (fun (s : State) (w : Warp) => s.setWarp { w with barred := false }) s
        .next (s.putStatus c f 0)

/-- SYS_MCOUNT (R205, R417). -/
def execSysMcount (f : RegForm) (s : State) : Out :=
  run (.sysMcount f) s fun c s =>
    let region := srcA c f true .b64 c.lane0 / 2 ^ 21
    let ctx := srcB c f false .b32 c.lane0 % 65536
    let mine (k : Counter) : Bool := k.ctx == ctx && k.region == region
    let n := (s.counters.filter mine).foldl (fun n k => n + k.count) 0
    let s := if f.sub.toNat = 1 then { s with counters := s.counters.filter fun k => !mine k } else s
    .next (s.putStatus c f n)

end Sys2Proof.Machine
end

