-- ==== Sys2Proof/Machine/Dispatch.lean ====
section
/-! DEFINITION. Which meaning belongs to which instruction or event: one arm for each constructor of `Instr`. -/

namespace Sys2Proof.Machine

/-- The effect of one instruction or event on the machine. -/
def exec (i : Instr) (s : State) : Host.Outcome State Fault Refusal :=
  match i with
  | .nop f => Sys2Proof.Machine.execNop f s
  | .getsr f => Sys2Proof.Machine.execGetsr f s
  | .setsr f => Sys2Proof.Machine.execSetsr f s
  | .bra f => Sys2Proof.Machine.execBra f s
  | .brx f => Sys2Proof.Machine.execBrx f s
  | .call f => Sys2Proof.Machine.execCall f s
  | .calli f => Sys2Proof.Machine.execCalli f s
  | .ret f => Sys2Proof.Machine.execRet f s
  | .exit f => Sys2Proof.Machine.execExit f s
  | .trap f => Sys2Proof.Machine.execTrap f s
  | .brk f => Sys2Proof.Machine.execBrk f s
  | .pause f => Sys2Proof.Machine.execPause f s
  | .yield f => Sys2Proof.Machine.execYield f s
  | .bar f => Sys2Proof.Machine.execBar f s
  | .barPhase f => Sys2Proof.Machine.execBarPhase f s
  | .clbar f => Sys2Proof.Machine.execClbar f s
  | .gbar f => Sys2Proof.Machine.execGbar f s
  | .cvinit f => Sys2Proof.Machine.execCvinit f s
  | .launch f => Sys2Proof.Machine.execLaunch f s
  | .spawn f => Sys2Proof.Machine.execSpawn f s
  | .merge f => Sys2Proof.Machine.execMerge f s
  | .syncSpawn f => Sys2Proof.Machine.execSyncSpawn f s
  | .tsub f => Sys2Proof.Machine.execTsub f s
  | .tsig f => Sys2Proof.Machine.execTsig f s
  | .sysTlbinv f => Sys2Proof.Machine.execSysTlbinv f s
  | .sysFwake f => Sys2Proof.Machine.execSysFwake f s
  | .sysFkill f => Sys2Proof.Machine.execSysFkill f s
  | .sysEvict f => Sys2Proof.Machine.execSysEvict f s
  | .sysResume f => Sys2Proof.Machine.execSysResume f s
  | .sysMcount f => Sys2Proof.Machine.execSysMcount f s
  | .voteAgree f => Sys2Proof.Machine.execVoteAgree f s
  | .barCnt f => Sys2Proof.Machine.execBarCnt f s
  | .sysFlush f => Sys2Proof.Machine.execSysFlush f s
  | .sysHalt f => Sys2Proof.Machine.execSysHalt f s
  | .add f => Sys2Proof.Machine.execAdd f s
  | .sub f => Sys2Proof.Machine.execSub f s
  | .mul f => Sys2Proof.Machine.execMul f s
  | .mulhi f => Sys2Proof.Machine.execMulhi f s
  | .mad f => Sys2Proof.Machine.execMad f s
  | .min f => Sys2Proof.Machine.execMin f s
  | .max f => Sys2Proof.Machine.execMax f s
  | .abs f => Sys2Proof.Machine.execAbs f s
  | .neg f => Sys2Proof.Machine.execNeg f s
  | .addc f => Sys2Proof.Machine.execAddc f s
  | .lea f => Sys2Proof.Machine.execLea f s
  | .mov f => Sys2Proof.Machine.execMov f s
  | .movi f => Sys2Proof.Machine.execMovi f s
  | .sel f => Sys2Proof.Machine.execSel f s
  | .andB f => Sys2Proof.Machine.execAndB f s
  | .orB f => Sys2Proof.Machine.execOrB f s
  | .xorB f => Sys2Proof.Machine.execXorB f s
  | .notB f => Sys2Proof.Machine.execNotB f s
  | .shl f => Sys2Proof.Machine.execShl f s
  | .shr f => Sys2Proof.Machine.execShr f s
  | .sar f => Sys2Proof.Machine.execSar f s
  | .rot f => Sys2Proof.Machine.execRot f s
  | .clz f => Sys2Proof.Machine.execClz f s
  | .popc f => Sys2Proof.Machine.execPopc f s
  | .brev f => Sys2Proof.Machine.execBrev f s
  | .bfe f => Sys2Proof.Machine.execBfe f s
  | .bfi f => Sys2Proof.Machine.execBfi f s
  | .cmp f => Sys2Proof.Machine.execCmp f s
  | .fcmp f => Sys2Proof.Machine.execFcmp f s
  | .pand f => Sys2Proof.Machine.execPand f s
  | .por f => Sys2Proof.Machine.execPor f s
  | .pxor f => Sys2Proof.Machine.execPxor f s
  | .pnot f => Sys2Proof.Machine.execPnot f s
  | .pmov f => Sys2Proof.Machine.execPmov f s
  | .pmovPack f => Sys2Proof.Machine.execPmovPack f s
  | .pmovUnpack f => Sys2Proof.Machine.execPmovUnpack f s
  | .shfl f => Sys2Proof.Machine.execShfl f s
  | .vote f => Sys2Proof.Machine.execVote f s
  | .redux f => Sys2Proof.Machine.execRedux f s
  | .matchL f => Sys2Proof.Machine.execMatchL f s
  | .prefixL f => Sys2Proof.Machine.execPrefixL f s
  | .fadd f => Sys2Proof.Machine.execFadd f s
  | .fsub f => Sys2Proof.Machine.execFsub f s
  | .fmul f => Sys2Proof.Machine.execFmul f s
  | .ffma f => Sys2Proof.Machine.execFfma f s
  | .fmin f => Sys2Proof.Machine.execFmin f s
  | .fmax f => Sys2Proof.Machine.execFmax f s
  | .fabs f => Sys2Proof.Machine.execFabs f s
  | .fneg f => Sys2Proof.Machine.execFneg f s
  | .fclass f => Sys2Proof.Machine.execFclass f s
  | .frnd f => Sys2Proof.Machine.execFrnd f s
  | .frcp f => Sys2Proof.Machine.execFrcp f s
  | .fsqrt f => Sys2Proof.Machine.execFsqrt f s
  | .frsq f => Sys2Proof.Machine.execFrsq f s
  | .fexp2 f => Sys2Proof.Machine.execFexp2 f s
  | .flog2 f => Sys2Proof.Machine.execFlog2 f s
  | .cvt f => Sys2Proof.Machine.execCvt f s
  | .pack f => Sys2Proof.Machine.execPack f s
  | .unpack f => Sys2Proof.Machine.execUnpack f s
  | .rnfwd f => Sys2Proof.Machine.execRnfwd f s
  | .rnadd f => Sys2Proof.Machine.execRnadd f s
  | .rnsub f => Sys2Proof.Machine.execRnsub f s
  | .rnmul f => Sys2Proof.Machine.execRnmul f s
  | .rnrev f => Sys2Proof.Machine.execRnrev f s
  | .ld f => Sys2Proof.Machine.execLd f s
  | .st f => Sys2Proof.Machine.execSt f s
  | .ldc f => Sys2Proof.Machine.execLdc f s
  | .prf f => Sys2Proof.Machine.execPrf f s
  | .lda f => Sys2Proof.Machine.execLda f s
  | .stl f => Sys2Proof.Machine.execStl f s
  | .xar f => Sys2Proof.Machine.execXar f s
  | .car f => Sys2Proof.Machine.execCar f s
  | .atc f => Sys2Proof.Machine.execAtc f s
  | .redc f => Sys2Proof.Machine.execRedc f s
  | .ata f => Sys2Proof.Machine.execAta f s
  | .reda f => Sys2Proof.Machine.execReda f s
  | .ldf f => Sys2Proof.Machine.execLdf f s
  | .stf f => Sys2Proof.Machine.execStf f s
  | .atx f => Sys2Proof.Machine.execAtx f s
  | .cas f => Sys2Proof.Machine.execCas f s
  | .fence f => Sys2Proof.Machine.execFence f s
  | .ldfe f => Sys2Proof.Machine.execLdfe f s
  | .stfe f => Sys2Proof.Machine.execStfe f s
  | .give f => Sys2Proof.Machine.execGive f s
  | .giveDrainComplete give => Sys2Proof.Machine.execGiveDrainComplete give s
  | .take f => Sys2Proof.Machine.execTake f s
  | .wmap f => Sys2Proof.Machine.execWmap f s
  | .wfill f => Sys2Proof.Machine.execWfill f s
  | .acopy f => Sys2Proof.Machine.execAcopy f s
  | .acopyWsl f => Sys2Proof.Machine.execAcopyWsl f s
  | .acopySb f => Sys2Proof.Machine.execAcopySb f s
  | .acopyT f => Sys2Proof.Machine.execAcopyT f s
  | .stageBarrierCount eng => Sys2Proof.Machine.execStageBarrierCount eng s
  | .tld f => Sys2Proof.Machine.execTld f s
  | .tst f => Sys2Proof.Machine.execTst f s
  | .gpool f => Sys2Proof.Machine.execGpool f s
  | .coll f => Sys2Proof.Machine.execColl f s
  | .collPartialReceive eng child fromRoot data => Sys2Proof.Machine.execCollPartialReceive eng child fromRoot data s
  | .collAbortReceive eng code => Sys2Proof.Machine.execCollAbortReceive eng code s
  | .collTimeout eng => Sys2Proof.Machine.execCollTimeout eng s
  | .send f => Sys2Proof.Machine.execSend f s
  | .ringAppend eng => Sys2Proof.Machine.execRingAppend eng s
  | .rwait f => Sys2Proof.Machine.execRwait f s
  | .rwaitOpen f => Sys2Proof.Machine.execRwaitOpen f s
  | .rwaitClose f => Sys2Proof.Machine.execRwaitClose f s
  | .mma f => Sys2Proof.Machine.execMma f s
  | .matrixOpComplete core => Sys2Proof.Machine.execMatrixOpComplete core s
  | .mconv f => Sys2Proof.Machine.execMconv f s
  | .tzero f => Sys2Proof.Machine.execTzero f s
  | .azero f => Sys2Proof.Machine.execAzero f s
  | .amov f => Sys2Proof.Machine.execAmov f s
  | .ald f => Sys2Proof.Machine.execAld f s
  | .ast f => Sys2Proof.Machine.execAst f s
  | .tmov f => Sys2Proof.Machine.execTmov f s
  | .tmovW f => Sys2Proof.Machine.execTmovW f s
  | .tmovR f => Sys2Proof.Machine.execTmovR f s
  | .hqnt f => Sys2Proof.Machine.execHqnt f s
  | .aconv f => Sys2Proof.Machine.execAconv f s
  | .aconvF32 f => Sys2Proof.Machine.execAconvF32 f s
  | .hdeq f => Sys2Proof.Machine.execHdeq f s
  | .wsinfo f => Sys2Proof.Machine.execWsinfo f s
  | .wswait f => Sys2Proof.Machine.execWswait f s
  | .slen f => Sys2Proof.Machine.execSlen f s
  | .sseed f => Sys2Proof.Machine.execSseed f s
  | .sgen f => Sys2Proof.Machine.execSgen f s
  | .sand f => Sys2Proof.Machine.execSand f s
  | .sor f => Sys2Proof.Machine.execSor f s
  | .sxor f => Sys2Proof.Machine.execSxor f s
  | .sxnor f => Sys2Proof.Machine.execSxnor f s
  | .snot f => Sys2Proof.Machine.execSnot f s
  | .smux f => Sys2Proof.Machine.execSmux f s
  | .scnt f => Sys2Proof.Machine.execScnt f s
  | .sregen f => Sys2Proof.Machine.execSregen f s
  | .sshift f => Sys2Proof.Machine.execSshift f s
  | .smov f => Sys2Proof.Machine.execSmov f s
  | .sclass f => Sys2Proof.Machine.execSclass f s
  | .schedulerIssueCycle core sched => Sys2Proof.Machine.execSchedulerIssueCycle core sched s
  | .lineFetch uid wid flip => Sys2Proof.Machine.execLineFetch uid wid flip s
  | .lineRefetch uid wid flip => Sys2Proof.Machine.execLineRefetch uid wid flip s
  | .pauseExpiry uid wid lane => Sys2Proof.Machine.execPauseExpiry uid wid lane s
  | .resultWriteback owed => Sys2Proof.Machine.execResultWriteback owed s
  | .loadSectorReturn owed piece => Sys2Proof.Machine.execLoadSectorReturn owed piece s
  | .markCheckAck msg => Sys2Proof.Machine.execMarkCheckAck msg s
  | .homeMarkCheck msg => Sys2Proof.Machine.execHomeMarkCheck msg s
  | .deferredFaultDelivery uid wid => Sys2Proof.Machine.execDeferredFaultDelivery uid wid s
  | .holdingSlotReread ctx => Sys2Proof.Machine.execHoldingSlotReread ctx s
  | .engineCompletion eng => Sys2Proof.Machine.execEngineCompletion eng s
  | .engineSuspend eng => Sys2Proof.Machine.execEngineSuspend eng s
  | .phaseReady uid => Sys2Proof.Machine.execPhaseReady uid s
  | .phaseStart uid => Sys2Proof.Machine.execPhaseStart uid s
  | .gridAccept => Sys2Proof.Machine.execGridAccept s
  | .gridSkipTimeout gid => Sys2Proof.Machine.execGridSkipTimeout gid s
  | .blockPlace => Sys2Proof.Machine.execBlockPlace s
  | .restore uid => Sys2Proof.Machine.execRestore uid s
  | .warpRelease uid wid => Sys2Proof.Machine.execWarpRelease uid wid s
  | .blockRetire uid => Sys2Proof.Machine.execBlockRetire uid s
  | .gridRetire gid => Sys2Proof.Machine.execGridRetire gid s
  | .childFold parent => Sys2Proof.Machine.execChildFold parent s
  | .l1Fill msg => Sys2Proof.Machine.execL1Fill msg s
  | .lineWriteback msg => Sys2Proof.Machine.execLineWriteback msg s
  | .writebackAck msg => Sys2Proof.Machine.execWritebackAck msg s
  | .l2Evict line => Sys2Proof.Machine.execL2Evict line s
  | .l2Refill line ecc => Sys2Proof.Machine.execL2Refill line ecc s
  | .backInvalidate line => Sys2Proof.Machine.execBackInvalidate line s
  | .peerRequest req => Sys2Proof.Machine.execPeerRequest req s
  | .forwardedLineRequest msg => Sys2Proof.Machine.execForwardedLineRequest msg s
  | .migrationHoldTimeout msg => Sys2Proof.Machine.execMigrationHoldTimeout msg s
  | .acquireFloorRecompute ctx => Sys2Proof.Machine.execAcquireFloorRecompute ctx s
  | .wellSwitchAccess msg => Sys2Proof.Machine.execWellSwitchAccess msg s
  | .queuedWellRelease core => Sys2Proof.Machine.execQueuedWellRelease core s
  | .wsWindowOpen die group => Sys2Proof.Machine.execWsWindowOpen die group s
  | .wsWindowClose die group => Sys2Proof.Machine.execWsWindowClose die group s
  | .gangBoundary => Sys2Proof.Machine.execGangBoundary s
  | .sampleIntervalStart core sched => Sys2Proof.Machine.execSampleIntervalStart core sched s
  | .sampleRecordWrite core sched => Sys2Proof.Machine.execSampleRecordWrite core sched s
  | .trctlWrite die value => Sys2Proof.Machine.execTrctlWrite die value s
  | .trstatWrite die value => Sys2Proof.Machine.execTrstatWrite die value s
  | .doorbellWrite queue => Sys2Proof.Machine.execDoorbellWrite queue s
  | .registerWrite offset value => Sys2Proof.Machine.execRegisterWrite offset value s
  | .cmdLaunch => Sys2Proof.Machine.execCmdLaunch s
  | .cmdCreateContext => Sys2Proof.Machine.execCmdCreateContext s
  | .cmdKillContext => Sys2Proof.Machine.execCmdKillContext s
  | .cmdWritePartitionTable => Sys2Proof.Machine.execCmdWritePartitionTable s
  | .cmdWriteSliceTable => Sys2Proof.Machine.execCmdWriteSliceTable s
  | .cmdWriteCollGroups => Sys2Proof.Machine.execCmdWriteCollGroups s
  | .cmdEnterWeightLoad => Sys2Proof.Machine.execCmdEnterWeightLoad s
  | .cmdLeaveWeightLoad => Sys2Proof.Machine.execCmdLeaveWeightLoad s
  | .cmdSetCtxbase => Sys2Proof.Machine.execCmdSetCtxbase s
  | .cmdWritePowerControl => Sys2Proof.Machine.execCmdWritePowerControl s
  | .cmdWriteStitch => Sys2Proof.Machine.execCmdWriteStitch s
  | .cmdReloadContext => Sys2Proof.Machine.execCmdReloadContext s
  | .hostBar2Access acc => Sys2Proof.Machine.execHostBar2Access acc s
  | .powerCompare die meanMilliwatts => Sys2Proof.Machine.execPowerCompare die meanMilliwatts s
  | .pllRelockDone die => Sys2Proof.Machine.execPllRelockDone die s
  | .thermalThrottle die => Sys2Proof.Machine.execThermalThrottle die s
  | .thermalRecover die => Sys2Proof.Machine.execThermalRecover die s
  | .thermalTrip => Sys2Proof.Machine.execThermalTrip s
  | .ptpSync sync => Sys2Proof.Machine.execPtpSync sync s
  | .ptpHoldover => Sys2Proof.Machine.execPtpHoldover s
  | .linkDown port => Sys2Proof.Machine.execLinkDown port s
  | .routeTimeout msg => Sys2Proof.Machine.execRouteTimeout msg s
  | .deviceReset => Sys2Proof.Machine.execDeviceReset s
  | .wipeComplete image => Sys2Proof.Machine.execWipeComplete image s
  | .recoveryImageLoad image => Sys2Proof.Machine.execRecoveryImageLoad image s
  | .lifecycleChange next => Sys2Proof.Machine.execLifecycleChange next s
  | .spdmRequest request => Sys2Proof.Machine.execSpdmRequest request s
  | .mgmtResetRequest => Sys2Proof.Machine.execMgmtResetRequest s
  | .homeSliceAccess msg => Sys2Proof.Machine.execHomeSliceAccess msg s

end Sys2Proof.Machine
end

