-- ==== Sys2Proof/Machine/Auto.lean ====
section
/-! DEFINITION. What the device does next of itself, when nothing from outside and no order of its own events is
given (log entry 8): one order among those that the spec leaves open. -/

namespace Sys2Proof.Machine

/-- The line of the L2 that a message waits for (R396). -/
def Msg.needsLine (m : Msg) : List Nat :=
  match m.kind with
  | .check a _ => [lineOf a.addr]
  | .fillReq f => [lineOf f.line]
  | .wb x => [lineOf x.line]
  | .strong r => [lineOf r.addr]
  | .prefetch _ _ line _ => [line]
  | _ => []

/-- Events that a message may bring about. -/
def Msg.events (m : Msg) : List Instr :=
  m.needsLine.map (fun l => .l2Refill l .clean)
    ++ match m.kind with
      | .check _ _ => [.homeMarkCheck m.id]
      | .checkAck _ _ _ _ _ _ => [.markCheckAck m.id]
      | .fillReq _ => [.homeSliceAccess ⟨m.id, .clean⟩]
      | .prefetch _ _ _ _ => [.homeSliceAccess ⟨m.id, .clean⟩]
      | .fillReply _ => [.l1Fill m.id]
      | .wb _ => [.lineWriteback m.id, .migrationHoldTimeout m.id]
      | .wbAck _ _ _ _ _ _ => [.writebackAck m.id]
      | .strong _ => [.homeSliceAccess ⟨m.id, .clean⟩, .migrationHoldTimeout m.id]
      | .well _ => [.wellSwitchAccess ⟨m.id, .clean⟩]
      | .fwd _ _ _ _ _ => [.forwardedLineRequest m.id]

/-- Events of a warp of its own. -/
def Warp.events (w : Warp) : List Instr :=
  [.lineFetch w.uid w.wid 0, .lineRefetch w.uid w.wid 0, .deferredFaultDelivery w.uid w.wid, .warpRelease w.uid w.wid]
    ++ ((List.range 32).filter fun l => (w.thread l).st == .paused 0).map fun l => .pauseExpiry w.uid w.wid l

def Engine.events (e : Engine) : List Instr :=
  if e.st == .done then []
  else [.ringAppend e.id, .stageBarrierCount e.id, .engineCompletion ⟨e.id, e.units⟩, .engineSuspend e.id, .collTimeout e.id]

/-- Events that time brings about. -/
def State.timeEvents (s : State) : List Instr :=
  (List.range Config.nDies).flatMap (fun d =>
      .pllRelockDone d :: (List.range 64).flatMap fun g => [.wsWindowOpen d g, .wsWindowClose d g])
    ++ [.gangBoundary, .ptpHoldover, .thermalTrip] ++ s.ctxs.flatMap (fun c => [.acquireFloorRecompute c.id, .holdingSlotReread c.id])
    ++ s.grids.map (fun g => .gridSkipTimeout g.gid)
    ++ s.cores.flatMap fun c => (List.range 4).flatMap fun k => [.sampleIntervalStart c.id k, .sampleRecordWrite c.id k]

/-- Events that begin and end work. -/
def State.workEvents (s : State) : List Instr :=
  [.cmdLaunch, .cmdCreateContext, .cmdKillContext, .cmdWritePartitionTable, .cmdWriteSliceTable, .cmdWriteCollGroups,
      .cmdEnterWeightLoad, .cmdLeaveWeightLoad, .cmdSetCtxbase, .cmdWritePowerControl, .cmdWriteStitch, .cmdReloadContext]
    ++ s.blocks.flatMap (fun b => [.childFold b.uid, .blockRetire b.uid, .phaseReady b.uid, .phaseStart b.uid, .restore b.uid])
    ++ s.grids.map (fun g => .gridRetire g.gid) ++ s.cores.map (fun c => .queuedWellRelease c.id) ++ [.gridAccept, .blockPlace]

/-- Schedulers with warps that have not had their turn at this instant. -/
def State.schedEvents (s : State) : List Instr :=
  let mine := ((s.warps.filter Warp.holds).map fun w => 4 * w.core + w.slot / 32).eraseDups
  (mine.filter fun k => !s.cycled.contains k).map fun k => .schedulerIssueCycle (k / 4) (k % 4)

/-- What may happen next, in the order in which it is tried. -/
def State.eventsNow (s : State) : List Instr :=
  s.timeEvents ++ s.msgs.flatMap Msg.events
    ++ s.owed.flatMap (fun o => .resultWriteback o.id :: (List.range o.pieces.length).map fun k => .loadSectorReturn o.id k)
    ++ s.warps.flatMap Warp.events ++ s.gives.map (fun g => .giveDrainComplete g.id)
    ++ s.cores.map (fun c => .matrixOpComplete ⟨c.id, List.range 128, .clean⟩) ++ s.engines.flatMap Engine.events ++ s.workEvents ++ s.schedEvents

/-- Does an event change anything now? -/
def State.changes (s : State) (i : Instr) : Bool :=
  match exec i s with
  | .next t => t != s
  | _ => true

/-- The event that the device performs next of itself. -/
def autoEvent (s : State) : Option Instr := s.eventsNow.find? s.changes

/-- Remember that a scheduler has had its turn. -/
def State.took (s : State) (i : Instr) : State :=
  match i with
  | .schedulerIssueCycle c k => { s with cycled := (4 * c + k) :: s.cycled }
  | _ => s

/-- Let a nanosecond pass: every scheduler has its turn again. -/
def State.idle (s : State) : State := ({ s with cycled := [] }.offer 1).advance 1

end Sys2Proof.Machine
end

