-- ==== Sys2Proof/Machine/Boot.lean ====
section
/-! DEFINITION. A loaded program of one instruction: the context, block, warp and fetch line that a launch would have
made, so that one instruction word is the next to issue (log entry 9). -/

namespace Sys2Proof.Machine

/-- The line word of a line whose slot 0 holds the word: target and region bits of slot 0, and every parity (R55). -/
def bootLineWord (w : InstrWord) : BitVec 32 :=
  let sp : Nat := if parity w then 2 ^ 9 else 0
  let lw : BitVec 32 := BitVec.ofNat 32 (1 + 2 ^ 16 + sp)
  if parity lw then lw ||| 0x4000 else lw

/-- The line: the word in slot 0, the other slots zero. -/
def bootLine (w : InstrWord) : BitVec 512 := w.setWidth 512 ||| ((bootLineWord w).setWidth 512 <<< 480)

/-- A kernel with every register the part has (R22). -/
def bootKernel : Kernel := { nv := 32, ns := 8, tiles := 8, accs := 16, streams := 32, cvs := 16 }

/-- A warp of 32 ready threads at PC 0, holding its line, its first bundle formed. -/
def bootWarp (w : InstrWord) : Warp :=
  { uid := 0, wid := 0, threads := List.replicate 32 { reenter := true, landed := true }, ftag := 1,
    line := some { line := 0, st := .good, data := bootLine w }, bundle := some ⟨BitVec.allOnes 32, 0, 0⟩ }

def bootBlock : Block := { uid := 0, gid := 0, bid := 0, ntid := 32, st := .resident, cluster := some 0, kernel := bootKernel }

def bootGrid : Grid := { gid := 0, ctx := 0, st := .accepted, kernel := bootKernel, nextBid := 1 }

/-- The machine with that one warp issuing. -/
def bootWord (s : State) (nbits w : Nat) : State :=
  { s with
    ctxs := { id := 0, created := true, priv := true } :: s.ctxs.filter (fun c => c.id != 0),
    grids := bootGrid :: s.grids.filter (fun g => g.gid != 0),
    blocks := bootBlock :: s.blocks.filter (fun b => b.uid != 0),
    warps := bootWarp (BitVec.ofNat 96 (w % 2 ^ nbits)) :: s.warps.filter (fun x => !(x.uid == 0 && x.wid == 0)),
    nextId := s.nextId + 1, issue := some { uid := 0, wid := 0 }, script := [] }

end Sys2Proof.Machine
end

