-- ==== Sys2Proof/Machine/Step.lean ====
section
/-! DEFINITION. One step of the machine: an issuing warp's instruction, or the next event. -/

namespace Sys2Proof.Machine

/-- One step (log entry 8): the instruction that a scheduler has chosen; else the next scripted event, after its
time, before which what has been freed is offered; else an event of the device's own; else a nanosecond passes. -/
def step (s : State) : Host.Outcome State Fault Refusal :=
  if s.issue.isSome then
    match fetchNow s with
    | .out t => s.outcome (.next t)
    | .instr i => s.outcome (exec i s)
  else
    match s.script with
    | x :: rest => exec x.event (({ s with script := rest }.offer x.dt).advance x.dt)
    | [] =>
      match autoEvent s with
      | some i => exec i (s.took i)
      | none => .next s.idle

/-- The state in which a scheduler has just chosen a fresh warp that holds this instruction word (log entry 9). -/
def State.withFetchWord (s : State) (nbits w : Nat) : State := bootWord s nbits w

end Sys2Proof.Machine
end

