-- ==== Sys2Proof/Safety.lean ====
section
/-! DEFINITION. What counts as a safe run, and the words in which statements are made: when an issuing instruction
reaches its own meaning (R59, R62, R66, R81, R82), and in which state that meaning runs. -/

namespace Sys2Proof

open Sys2Proof.Machine

/-- Registers, wells, tiles, accumulators and streams are in their canonical form. -/
def registersWf (s : State) : Bool :=
  cwf s.wells && cwf s.wellFull && cwf s.wellPoison && cwf s.wellBad
    && (s.warps.all fun w => cwf w.vregs && cwf w.sregs && cwf w.preds)
    && s.blocks.all fun b => cwf b.tiles && cwf b.accs && cwf b.streams

/-- Every piece of sparse storage is in its canonical form. -/
def storageWf (s : State) : Bool := Memory.wf s.mem && registersWf s

/-- A step is safe when it gives a next state: architectural faults are next states. -/
def safeStep (s : State) : Bool :=
  match step s with
  | .next _ => true
  | _ => false

/-- The byte that memory holds at an address. -/
def byteAt (s : State) (a : Nat) : Byte := cget (w := 8) s.mem a

/-- Memory, the wells, every block's own registers (tiles, accumulators, streams, maps), the grids, the tasks and the contexts'
registers are the same in two states, and so is every register of every warp; `flags` lets `%fflags` gain bits. -/
def SameData (flags : Bool) (s t : State) : Prop :=
  (t.mem = s.mem ∧ t.wells = s.wells ∧ t.wellFull = s.wellFull ∧ t.wellPoison = s.wellPoison ∧ t.blocks = s.blocks ∧
    t.grids = s.grids ∧ t.tasks = s.tasks ∧ t.ctxs = s.ctxs) ∧
  ∀ u n w, s.warp? u n = some w → ∃ w', t.warp? u n = some w' ∧ w'.vregs = w.vregs ∧ w'.sregs = w.sregs ∧
    w'.preds = w.preds ∧ (if flags then ∃ m, w'.fflags = w.fflags ||| m else w'.fflags = w.fflags)

/-- The issuing instruction took no fault: its warp is still in its slot, not held, and waits for no holding slot (R426, R427). -/
def Unfaulted (t : State) (c : Ic) : Prop :=
  ∃ w, t.warp? c.w.uid c.w.wid = some w ∧ w.held = false ∧ w.faultStall = none ∧ w.released = false

/-- The issuing instruction passes every check and stall that comes before its own meaning: `c` is the issue that the
state holds (warp, block, PC, bundle, active lanes), with the conditions of R59, R62, R66 and R82 steps 4 to 8 and of
R23, R38 to R40. -/
structure Issuable (i : Instr) (s : State) (c : Ic) : Prop where
  /-- The warp, its block, the PC and the lanes: R62. -/
  ctx : s.issueCtx (common i) = some c
  /-- Some lane is active (R62). -/
  active : c.active ≠ 0
  /-- No acquire of the warp is still waiting for its lanes. -/
  noAcq : c.w.acq = none
  /-- A region that begins or ends here has all its mark checks in (R59). -/
  checks : c.beginners ≠ 0 ∨ endsRegion i = true → s.checksIn c.w = true
  /-- R81. -/
  priv : isPrivileged i = true → s.privileged c.b.ctx = true
  /-- The encoding is none of the reserved ones (R80). -/
  wf : wellFormed i = true
  /-- Every register is within the block's counts and aligned (R23, R24). -/
  range : (usesOf i).all (useOk c.b.kernel) = true ∧ (tokenOf i).all (fun r => r < 16 * c.b.kernel.ns) = true
  /-- No hazard in hazard-check mode (R66). -/
  hazard : c.b.hcheck = true → hazard c.begun i = false
  /-- It touches no pending token (R39). -/
  tokens : pendingToken c.w i = false
  /-- A token that it consumes ends the interval: the warp's accesses are in and its ring has room (R40, R324). -/
  consumes : consumed c.w i = []
    ∨ s.accessesPending c.w.uid c.w.wid = false ∧ s.ringBlocked c.begun.w = false
  /-- An engine slot is free (R40). -/
  engines : isEngine i = true → (s.enginesOf c.w.uid c.w.wid).length < 16
  /-- The outstanding counter has room (R38). -/
  counter : owesResult i = true → c.w.outstanding < 63

/-- The issuing warp as the meaning finds it: its regions begun (R59), its interval open at this PC (R307). -/
def enteredWarp (s : State) (c : Ic) : Warp :=
  c.begun.w.opened c.pc (s.ctx c.b.ctx).phase

/-- The state in which the meaning of an issuing instruction runs: the warp entered, completed tokens consumed (R40). -/
def enteredState (i : Instr) (s : State) (c : Ic) : State :=
  let w := enteredWarp s c
  let s := (s.setWarp c.begun.w).setWarp w
  let ts := consumed c.w i
  if ts.isEmpty then s else s.consume w ts (endsInterval i)

/-- The issue with which the meaning runs. -/
def enteredIc (i : Instr) (s : State) (c : Ic) : Ic :=
  let w := enteredWarp s c
  { c with w := ((enteredState i s c).warp? w.uid w.wid).getD w }

/-- What follows an instruction that is performed in sequence (R54, R64, R352, R353). -/
def inSequence (i : Instr) (s : State) (c : Ic) (t : State) : State := t.retire (enteredIc i s c) i fun _ n => n

/-- An instruction that computes on registers only: from every state in which it issues it owes, for every lane it works
in, the register elements and the flags that `f` gives (R38, R135), and goes on in sequence. -/
def Computes (i : Instr) (fp : Bool) (f : Ic → Nat → LaneOut) : Prop :=
  ∀ s c, Issuable i s c → exec i s = .next (inSequence i s c
    (owed (enteredIc i s c) (enteredState i s c) (common i).u fp (f (enteredIc i s c))))

/-- An instruction that is performed in sequence: from every state in which it issues and in which its own conditions `ok`
hold, it leaves what `eff` says and goes on (R54, R64). -/
def Performs (i : Instr) (ok : Ic → State → Bool) (eff : Ic → State → State) : Prop :=
  ∀ s c, Issuable i s c → ok (enteredIc i s c) (enteredState i s c) = true →
    exec i s = .next (inSequence i s c (eff (enteredIc i s c) (enteredState i s c)))

/-- An instruction that issues, and whose own conditions `ok` hold, leaves the whole of `eff`, its warp's PCs included. -/
def Leaves (i : Instr) (ok : Ic → State → Bool) (eff : Ic → State → State) : Prop :=
  ∀ s c, Issuable i s c → ok (enteredIc i s c) (enteredState i s c) = true →
    exec i s = .next (eff (enteredIc i s c) (enteredState i s c))

/-- An instruction performed in sequence whose conditions and effect are given together: `r c s t` says that in the state
`s` in which the meaning runs its conditions hold and that it leaves `t`. -/
def Follows (i : Instr) (r : Ic → State → State → Prop) : Prop :=
  ∀ s c t, Issuable i s c → r (enteredIc i s c) (enteredState i s c) t → exec i s = .next (inSequence i s c t)

/-- As `Follows`, with `t` the whole of what the instruction leaves, its warp's PCs included. -/
def Ends (i : Instr) (r : Ic → State → State → Prop) : Prop :=
  ∀ s c t, Issuable i s c → r (enteredIc i s c) (enteredState i s c) t → exec i s = .next t

/-- An instruction that begins and stays at its PC until an event completes it: `r c s t` says when, and that it leaves `t`;
the warp then waits, its interval opened by no instruction yet (R307). -/
def Begins (i : Instr) (r : Ic → State → State → Prop) : Prop :=
  ∀ s c t, Issuable i s c → r (enteredIc i s c) (enteredState i s c) t →
    exec i s = .next ((t.unopened c.w).stalled (enteredIc i s c))

/-- An instruction that issues and then takes the fault that `r c s x` says, precisely (R82): in the state before it, its
region begun. -/
def Faults (i : Instr) (r : Ic → State → FaultRec → Prop) : Prop :=
  ∀ s c x, Issuable i s c → r (enteredIc i s c) (enteredState i s c) x →
    let w := c.w.modThreads c.bundle fun l _ => (enteredIc i s c).w.thread l
    exec i s = .next ((s.setWarp w).issued.takeFault w x)

/-- An event of the device that can happen now: it leaves `t`, after which whatever waited looks again (R257, R355). -/
def Happens (i : Instr) (s t : State) : Prop := exec i s = .next t.unstall.ringWake

/-- The state in which the write-backs that a release needs are on their way (R302, R330). -/
def released (s : State) (c : Ic) (scope : Scope) : State :=
  match s.warp? c.w.uid c.w.wid with
  | none => s
  | some w =>
    if !Scope.wide scope || w.flushed then s
    else (s.flushWarp w).modWarp w.uid w.wid fun w => { w with flushed := true }

/-- A release at a scope need not wait (R302, R324, R330): the ring has room, the warp's accesses are in, and at cluster
scope or wider no write-back of the block is out. -/
def releaseReady (s : State) (c : Ic) (scope : Scope) : Bool :=
  (s.warp? c.w.uid c.w.wid).any (fun w => !s.ringBlocked w) && !s.accessesPending c.w.uid c.w.wid
    && (!Scope.wide scope || ((released s c scope).warpsOf c.w.uid).all fun x => x.wbs.isEmpty)

/-- The state after the release. -/
def afterRelease (s : State) (c : Ic) (scope : Scope) : State := (released s c scope).releaseNow c.w.uid c.w.wid scope

/-- An acquire-only instruction need not wait (R296, R304, R324). -/
def ringReady (s : State) (c : Ic) : Bool := !s.accessesPending c.w.uid c.w.wid && !s.ringBlocked c.w

end Sys2Proof
end

