-- ==== Sys2Proof/Certificates/Slice0/Obligations.lean ====
section
/-! DEFINITION. The statements about the model, one Prop each, for the provers. `Issuable i s c` (Safety.lean) says, in
conditions on the state alone, that the issuing instruction reaches its own meaning; `enteredState` and `enteredIc` are the
state and the issue with which it runs, `inSequence` what follows an instruction performed in sequence. `Computes`,
`Performs`, `Leaves` and `Happens` each end in `exec i s = .next …`. -/

namespace Sys2Proof.Claims

open Sys2Proof Sys2Proof.Machine

/-- The exact integers an instruction reads in a lane (R71, R91). -/
def intA (f : RegForm) (c : Ic) (l : Nat) : Int := intVal f.ty (srcA c f (Ty.is64 f.ty) f.ty l)
def intB (f : RegForm) (c : Ic) (l : Nat) : Int := intVal f.ty (srcB c f (Ty.is64 f.ty) f.ty l)
def intC (f : RegForm) (c : Ic) (l : Nat) : Int := intVal f.ty (srcE c f (Ty.is64 f.ty) f.ty l)

/-- The bits it reads in a lane, one register or a pair by its type (R24). -/
def bitsA (f : RegForm) (c : Ic) (l : Nat) : Nat := srcA c f (Ty.is64 f.ty) f.ty l
def bitsB (f : RegForm) (c : Ic) (l : Nat) : Nat := srcB c f (Ty.is64 f.ty) f.ty l
def bitsC (f : RegForm) (c : Ic) (l : Nat) : Nat := srcE c f (Ty.is64 f.ty) f.ty l

/-- A 32-bit operand taken whole: shift counts, selectors, control words. -/
def wordA (f : RegForm) (c : Ic) (l : Nat) : Nat := srcA c f false .n32 l
def wordB (f : RegForm) (c : Ic) (l : Nat) : Nat := srcB c f false .n32 l

end Sys2Proof.Claims

open Sys2Proof Sys2Proof.Machine Sys2Proof.Claims

/-! ### Steps, encodings, storage, issue -/

/-- A step of an issuing warp is `exec` of the instruction that the slot at the bundle's PC decodes to; where the scheduler only
tries a warp that stalled before, the step keeps what `exec` leaves if the warp still stalls, and otherwise only that it can
issue now (the trial is the model's, log entry 6); a step with nothing issuing is `exec` of the next scripted event after its
time, else of the event the device chooses of itself, else a nanosecond passes (the order without a script is the model's
choice, log entry 8). -/
def Obligations.StepRunsTheDecodedInstruction : Prop :=
  (∀ (s : State) (n : Issue) (w : Warp) (x : Bundle) (b : LineBuf) (i : Instr),
    s.issue = some n → s.warp? n.uid n.wid = some w → w.bundle = some x → w.line = some b →
    b.line = lineOf x.pc.toNat → b.st = .good → lineWordBad (lineWord b.data) = false → isSlot x.pc.toNat = true →
    (landing w x = true → lwTarget (lineWord b.data) (slotOf x.pc) = true) →
    decodeWord (slotWord b.data (slotOf x.pc)) = .ok i →
    (n.probe = false → step s = exec i s) ∧
    (n.probe = true → ∀ t, exec i s = .next t → step s = .next (s.tried t))) ∧
  (∀ (s : State) (x : Scripted) (rest : List Scripted), s.issue = none → s.script = x :: rest →
    step s = exec x.event (({ s with script := rest }.offer x.dt).advance x.dt)) ∧
  (∀ (s : State) (i : Instr), s.issue = none → s.script = [] → autoEvent s = some i → step s = exec i (s.took i)) ∧
  (∀ s : State, s.issue = none → s.script = [] → autoEvent s = none → step s = .next s.idle)

/-- Words of the manual's own assembled examples decode to the instructions they stand for (R8, R53, R61, R67, R74, R76). -/
def Obligations.ManualWordsDecode : Prop :=
  -- `getsr v4, %dtime` (R141): bytes 10 00 00 00 68 00 00 00 00 04 01 1C
  decodeBytes [0x10, 0, 0, 0, 0x68, 0, 0, 0, 0, 0x04, 0x01, 0x1C] =
    .ok (.getsr { c := ⟨false, false, false, 7⟩, d := 4, a := 0, b := 0, e := 0, dc := .vec, ac := .vec, bc := .vec,
                  ec := .vec, ty := .b64, sub := 0, imm := 0x10 }) ∧
  -- `addc.n32 v4, v0, v2, p1` (R144): bytes 00 00 00 00 10 02 01 02 00 04 89 1C
  decodeBytes [0, 0, 0, 0, 0x10, 0x02, 0x01, 0x02, 0, 0x04, 0x89, 0x1C] =
    .ok (.addc { c := ⟨false, false, false, 7⟩, d := 4, a := 0, b := 2, e := 1, dc := .vec, ac := .vec, bc := .vec,
                 ec := .special, ty := .n32, sub := 0, imm := 0 }) ∧
  -- `movi.b64 v8, 0x0123456789ABCDEF` (R146): bytes EF CD AB 89 68 67 45 23 01 08 8C 1C
  decodeBytes [0xEF, 0xCD, 0xAB, 0x89, 0x68, 0x67, 0x45, 0x23, 0x01, 0x08, 0x8C, 0x1C] =
    .ok (.movi { c := ⟨false, false, false, 7⟩, d := 8, value := 0x0123456789ABCDEF }) ∧
  -- `call v20, helper` with displacement 0xE8 (R175): bytes E8 00 00 00 00 00 00 00 00 14 12 1C
  decodeBytes [0xE8, 0, 0, 0, 0, 0, 0, 0, 0, 0x14, 0x12, 0x1C] =
    .ok (.call { c := ⟨false, false, false, 7⟩, link := 20, index := 0, uni := false, indexUni := false, disp := 0xE8 }) ∧
  -- the padding word, `nop` with guard p7 (R88): eleven bytes 00, then 1C
  decodeBytes [0, 0, 0, 0, 0, 0, 0, 0, 0, 0, 0, 0x1C] =
    .ok (.nop { c := ⟨false, false, false, 7⟩, d := 0, a := 0, b := 0, e := 0, dc := .vec, ac := .vec, bc := .vec,
                ec := .vec, ty := .b32, sub := 0, imm := 0 })

/-- Every well-formed instruction has a word, unless it is an event of the device, and its word decodes to it: every operand
at every value the encoding admits. -/
def Obligations.DecodeOfEncode : Prop :=
  ∀ i : Instr, wellFormed i = true →
    (∃ w, encode i = some w ∧ decodeWord w = .ok i) ∨ (∃ e, form i = e ∧ e = .event ∧ encode i = none)

/-- A word that decodes is the word of the instruction it decodes to: no two words stand for one instruction, and no bit of
a decoded word is ignored. -/
def Obligations.EncodeOfDecode : Prop :=
  ∀ (w : InstrWord) (i : Instr), decodeWord w = .ok i → encode i = some w ∧ wellFormed i = true

/-- A line with a nonzero reserved bit in its line word, or a region bit without its target bit, faults ILLEGAL at the slot
that issues, whatever the guards are (R57). -/
def Obligations.BadLineWordIsIllegal : Prop :=
  ∀ (s : State) (n : Issue) (w : Warp) (x : Bundle) (b : LineBuf),
    s.issue = some n → s.warp? n.uid n.wid = some w → w.bundle = some x → w.line = some b →
    b.line = lineOf x.pc.toNat → b.st = .good →
    ((lineWord b.data).extractLsb' 21 11 ≠ 0 ∨ (lineWord b.data).getLsbD 15 = true ∨
      ∃ k < 5, (lineWord b.data).getLsbD (16 + k) = true ∧ (lineWord b.data).getLsbD k = false) →
    n.probe = false →
    ∃ r : FaultRec, r.code = FaultCode.illegal.code ∧ r.pc = x.pc ∧ r.lanes = x.mask ∧
      step s = .next ((s.issued.modWarp w.uid w.wid fun w => { w with line := none }).takeFault w r)

/-- A reserved encoding (R80): a step at a slot that is a landing where one is asked for and whose word decodes to no instruction
takes ILLEGAL at that PC when a lane of its guard is active, once a region that begins here has its mark checks in; with no
active lane the word performs nothing and its threads go on at the next sequential PC (R62). -/
def Obligations.UndecodableSlotIsIllegal : Prop :=
  ∀ (s : State) (n : Issue) (w : Warp) (x : Bundle) (b : LineBuf) (c : Ic),
    s.issue = some n → n.probe = false → s.warp? n.uid n.wid = some w → w.bundle = some x → w.line = some b →
    b.line = lineOf x.pc.toNat → b.st = .good → lineWordBad (lineWord b.data) = false → isSlot x.pc.toNat = true →
    (landing w x = true → lwTarget (lineWord b.data) (slotOf x.pc) = true) →
    (∀ i, decodeWord (slotWord b.data (slotOf x.pc)) ≠ .ok i) →
    s.issueCtx (readCommon (slotWord b.data (slotOf x.pc))) = some c → (c.beginners ≠ 0 → s.checksIn c.w = true) →
    (c.active ≠ 0 → ∃ r : FaultRec, r.code = FaultCode.illegal.code ∧ r.pc = x.pc ∧
      step s = .next ((s.setWarp c.begun.w).issued.takeFault c.begun.w r)) ∧
    (c.active = 0 → ∃ i : Instr, step s = .next
      (((s.setWarp c.begun.w).setWarp (enteredWarp s c)).retire c.begun i fun _ p => p))

/-- What an instruction word checks before its own meaning, once a lane is active: a privileged instruction in a context that
is not privileged (R81), an encoding that is reserved (R80), or a register outside the block's counts or misaligned (R23,
R24) faults ILLEGAL at the instruction; nothing of the instruction happens. -/
def Obligations.IllegalBeforeTheMeaning : Prop :=
  ∀ (i : Instr) (s : State) (c : Ic), form i ≠ .event → s.issueCtx (common i) = some c → c.active ≠ 0 → c.w.acq = none →
    (c.beginners ≠ 0 → s.checksIn c.w = true) →
    ((isPrivileged i = true ∧ s.privileged c.b.ctx = false) ∨ wellFormed i = false
      ∨ (usesOf i).all (useOk c.b.kernel) = false ∨ (tokenOf i).all (fun r => r < 16 * c.b.kernel.ns) = false) →
    exec i s = .next ((s.setWarp c.begun.w).issued.takeFault c.begun.w (c.begun.record .illegal c.begun.lane0))

/-- A privileged instruction issued by a user context faults ILLEGAL when a lane is active; these are the privileged
instructions (R81, R83, R245). -/
def Obligations.PrivilegedInstructionsFault : Prop :=
  ∀ (i : Instr) (s : State) (c : Ic),
    (match i with
      | .sysTlbinv _ | .sysFwake _ | .sysFkill _ | .sysEvict _ | .sysResume _ | .sysMcount _ | .sysFlush _ | .sysHalt _
      | .acopyWsl _ | .acopySb _ => True
      | _ => False) →
    s.issueCtx (common i) = some c → c.active ≠ 0 → c.w.acq = none → (c.beginners ≠ 0 → s.checksIn c.w = true) →
    s.privileged c.b.ctx = false →
    exec i s = .next ((s.setWarp c.begun.w).issued.takeFault c.begun.w (c.begun.record .illegal c.begun.lane0))

/-- A word with no active lane performs no operation and raises no fault; every thread of the bundle goes on at the next
sequential PC, the switch marker honoured (R62). -/
def Obligations.NoActiveLaneDoesNothing : Prop :=
  ∀ (i : Instr) (s : State) (c : Ic), form i ≠ .event → s.issueCtx (common i) = some c → c.active = 0 → c.w.acq = none →
    (c.beginners ≠ 0 → s.checksIn c.w = true) →
    exec i s = .next (((s.setWarp c.begun.w).setWarp (enteredWarp s c)).retire c.begun i fun _ n => n)

/-- What issuing an instruction leaves alone until its own meaning: memory, wells, blocks, grids, tasks, contexts and every
register (R82); its meaning runs for the issuing warp, as the state then has it, and for the same lanes. -/
def Obligations.EnteringChangesNoStorage : Prop :=
  ∀ (i : Instr) (s : State) (c : Ic), Issuable i s c →
    let t := enteredState i s c
    let e := enteredIc i s c
    SameData false s t ∧ t.warp? c.w.uid c.w.wid = some e.w ∧ e.w.uid = c.w.uid ∧ e.w.wid = c.w.wid ∧
      e.b = c.b ∧ e.pc = c.pc ∧ e.bundle = c.bundle ∧ e.active = c.active

/-- After an instruction performed in sequence every thread of its bundle stands at the next sequential PC with age 0; the
next PC is 12 further, and 16 further after slot 4 (R54, R353). Every register, memory and every well stay as they are. -/
def Obligations.SequenceAdvancesThePc : Prop :=
  (∀ line : Nat, 64 * line + 63 < 2 ^ 55 →
    (∀ k < 4, nextPc (BitVec.ofNat 55 (64 * line + 12 * k)) = BitVec.ofNat 55 (64 * line + 12 * (k + 1))) ∧
    nextPc (BitVec.ofNat 55 (64 * line + 48)) = BitVec.ofNat 55 (64 * (line + 1))) ∧
  (∀ (s : State) (c : Ic) (i : Instr) (w : Warp) (l : Nat), s.warp? c.w.uid c.w.wid = some w → l < w.threads.length →
    c.bundle.getLsbD l = true →
    ∃ w', (s.retire c i fun _ n => n).warp? c.w.uid c.w.wid = some w' ∧ (w'.thread l).pc = nextPc c.pc ∧
      (w'.thread l).age = 0) ∧
  (∀ (s : State) (c : Ic) (i : Instr) (p : Nat → Pc → Pc),
    let t := s.retire c i p
    SameData false s t ∧ t.owed = s.owed ∧ t.issue = none)

/-! ### Faults and rollback -/

/-- Taking a fault (R426, R47, R178, R215): while no strong access of the warp is under way and the record has gone to its
ring or a holding slot, the warp is held, its loads in flight are discarded (the counter is zero), and every thread that was
ready or paused is parked with the fault reason, back at its region entry; the other threads keep their state. -/
def Obligations.TakingAFaultParksAndRollsBack : Prop :=
  ∀ (s s1 : State) (w x : Warp) (r : FaultRec), s.strongBusy w.uid w.wid = false →
    s.putRecord w.core (s.recordOf w r) true = some s1 → s1.warp? w.uid w.wid = some x →
    ∃ y, (s.takeFault w r).warp? w.uid w.wid = some y ∧ y.held = true ∧ y.outstanding = 0 ∧ y.bundle = none ∧
      y.tokens = x.tokens ∧ y.iseq = x.iseq ∧ y.eseq = x.eseq ∧ y.fflags = x.fflags ∧
      y.threads.length = x.threads.length ∧
      ∀ l < x.threads.length,
        (faulting (x.thread l) = true →
          (y.thread l).st = .parked .fault ∧ (y.thread l).age = 0 ∧
          ((x.thread l).newRegion = false ∨ (x.thread l).redo = true → (y.thread l).pc = (x.thread l).rentry ∧
            (y.thread l).rentry = (x.thread l).rentry ∧ (y.thread l).rseq = (x.thread l).rseq)) ∧
        (faulting (x.thread l) = false → y.thread l = x.thread l)

/-- A held warp issues nothing (R426 step 2), and neither does a warp whose fault waits for a holding slot (R427), whose
acquire waits for its lanes, or whose block is not resident: no scheduler chooses it. -/
def Obligations.HeldWarpsAreNotChosen : Prop :=
  ∀ (s : State) (core sched : Nat) (w : Warp), s.chooseWarp core sched = some w →
    w.held = false ∧ w.faultStall = none ∧ w.acq = none ∧ w.released = false ∧ w.resident = true ∧
      (∃ b, s.block? w.uid = some b ∧ b.st = .resident) ∧ w.core = core ∧ w.slot / 32 = sched

/-- Waking a faulted warp, the return that `sys.fwake` performs (R205): its fault-parked threads are ready again where they
stand, or parked by a switch marker that was due while results are out; the others keep their state, the hold ends, and its
suspended engine commands run again (R239). -/
def Obligations.WakingAFaultedWarp : Prop :=
  ∀ (s : State) (w x : Warp) (b : Block), s.warp? w.uid w.wid = some x → s.block? w.uid = some b →
    ∃ y, (s.wakeFaulted w).warp? w.uid w.wid = some y ∧ y.held = false ∧
      (∀ l < x.threads.length, l < 32 → (x.thread l).st = .parked .fault →
        (y.thread l).pc = (x.thread l).pc ∧ (y.thread l).rentry = (x.thread l).rentry ∧
        ((y.thread l).st = .ready ∨ ((x.thread l).marker = true ∧ x.outstanding ≠ 0 ∧ (y.thread l).st = .parked .marker))) ∧
      (∀ l < x.threads.length, (x.thread l).st ≠ .parked .fault → y.thread l = x.thread l) ∧
      (∀ e ∈ (s.wakeFaulted w).engines, e.uid = w.uid → e.wid = w.wid → e.st ≠ .suspended)

/-! ### Registers -/

/-- Predicate p7 reads as 1 in every lane and writes to it are discarded; a predicate write of a uniform instruction sets all
32 lanes to the same bit (R25). -/
def Obligations.PredicateSeven : Prop :=
  (∀ w : Warp, w.pget 7 = BitVec.allOnes 32) ∧
  (∀ (w : Warp) (l : Nat) (v : Word), w.put (.pred 7 l) v = w) ∧
  (∀ (w : Warp) (p l : Nat) (b : Bool), p < 7 → cwf w.preds = true →
    (w.puts (predWrite p l true b)).pget p = if b then BitVec.allOnes 32 else 0)

/-- Writing one register element changes that element and nothing else: not another element of the file, not another file
(R22, R24, R26). -/
def Obligations.RegisterWritesAreLocal : Prop :=
  ∀ w : Warp, cwf w.vregs = true → cwf w.sregs = true → cwf w.preds = true →
    (∀ (r l : Nat) (v : Word), l < 32 → ∀ r' l', l' < 32 →
      (w.put (.vec r l) v).vget r' l' = if r' = r ∧ l' = l then v else w.vget r' l') ∧
    (∀ (r : Nat) (v : Word) (r' : Nat), (w.put (.uni r) v).sget r' = if r' = r then v else w.sget r') ∧
    (∀ (p l : Nat) (v : Word), p < 7 → l < 32 → ∀ p' l', l' < 32 →
      ((w.put (.pred p l) v).pget p').getLsbD l' = if p' = p ∧ l' = l then v.getLsbD 0 else (w.pget p').getLsbD l') ∧
    (∀ (r l : Nat) (v : Word), (w.put (.vec r l) v).sregs = w.sregs ∧ (w.put (.vec r l) v).preds = w.preds) ∧
    (∀ (r : Nat) (v : Word), (w.put (.uni r) v).vregs = w.vregs ∧ (w.put (.uni r) v).preds = w.preds) ∧
    (∀ (p l : Nat) (v : Word), (w.put (.pred p l) v).vregs = w.vregs ∧ (w.put (.pred p l) v).sregs = w.sregs)

/-! ### Special registers, integers, bits, residues (class 0x00, 0x08, 0x09, 0x17) -/

/-- `nop` has no effect of its own; `getsr` owes every active lane the special register (R31, R140), waiting only for `%fflags`
while a floating-point instruction is out; `setsr` writes `%fflags` from the lowest active lane once none is out (R37, R141). -/
def Obligations.SpecialRegisterResults : Prop := ∀ f : RegForm,
  Performs (.nop f) (fun _ _ => true) (fun _ s => s) ∧
  Performs (.getsr f) (fun c s => f.imm.toNat % 256 != 0x1C || !s.fpBusy c.w)
    (fun c s => owed c s f.c.u false fun l => putD f l (s.special c (f.imm.toNat % 256) l)) ∧
  Performs (.setsr f) (fun c s => !s.fpBusy c.w) (fun c s =>
    s.modWarp c.w.uid c.w.wid fun w => { w with fflags := BitVec.ofNat 5 (srcA c f false .b32 c.lane0) })

/-- The integer instructions compute exactly and narrow once, wrapping modulo the width, or saturating with sub 1 (R143). -/
def Sys2Proof.Claims.IntegerResults : Prop := ∀ f : RegForm,
  let r (sat : Bool) (x : Ic → Nat → Int) : Ic → Nat → LaneOut := fun c l =>
    putD f l ((if sat then satInt f.ty (x c l) else x c l) % 2 ^ tyBits f.ty).toNat
  Computes (.add f) false (r (f.sub == 1) fun c l => intA f c l + intB f c l) ∧
  Computes (.sub f) false (r (f.sub == 1) fun c l => intA f c l - intB f c l) ∧
  Computes (.mul f) false (r (f.sub == 1) fun c l => intA f c l * intB f c l) ∧
  Computes (.mulhi f) false (r false fun c l => (intA f c l * intB f c l).fdiv (2 ^ tyBits f.ty)) ∧
  Computes (.mad f) false (r (f.sub == 1) fun c l => intA f c l * intB f c l + intC f c l) ∧
  Computes (.min f) false (r false fun c l => if intA f c l ≤ intB f c l then intA f c l else intB f c l) ∧
  Computes (.max f) false (r false fun c l => if intA f c l ≥ intB f c l then intA f c l else intB f c l) ∧
  Computes (.abs f) false (r (f.sub == 1) fun c l => if intA f c l < 0 then -intA f c l else intA f c l) ∧
  Computes (.neg f) false (r (f.sub == 1) fun c l => -intA f c l)

/-- `addc` adds with the carry of its predicate in and out (R144), `lea` forms base plus shifted index plus offset modulo 2^64
(R145), `mov`, `movi` and `sel` copy (R146). -/
def Sys2Proof.Claims.CarryAddressAndMoveResults : Prop := ∀ (f : RegForm) (m : MoviForm),
  Computes (.addc f) false (fun c l =>
    let x := wordA f c l + wordB f c l + ((c.w.pget f.e.toNat).getLsbD l).toNat
    (destWrite f.dc f.d false l (x % 2 ^ 32) ++ predWrite f.e.toNat l f.c.u (2 ^ 32 ≤ x), 0)) ∧
  Computes (.lea f) false (fun c l =>
    (destWrite f.dc f.d true l
      (((srcA c f true f.ty l : Int) + intB f c l * 2 ^ f.sub.toNat + f.imm.toInt) % 2 ^ 64).toNat, 0)) ∧
  Computes (.mov f) false (fun c l => putD f l (bitsA f c l)) ∧
  Computes (.movi m) false (fun _ l => (destWrite (if m.c.u then .uni else .vec) m.d true l m.value.toNat, 0)) ∧
  Computes (.sel f) false (fun c l => putD f l (if (c.w.pget f.e.toNat).getLsbD l then bitsA f c l else bitsB f c l))

/-- The integer, carry, address and move instructions (class 0x08, R143 to R146): what each owes in a lane, and that it goes on.
-/
def Obligations.IntegerInstructions : Prop := IntegerResults ∧ CarryAddressAndMoveResults

/-- The bit instructions (R148, R149): logic, shifts with the whole unmasked count, rotations, counts and fields. -/
def Sys2Proof.Claims.BitResults : Prop := ∀ f : RegForm,
  let w := tyBits f.ty
  let r (x : Ic → Nat → Nat) : Ic → Nat → LaneOut := fun c l => putD f l (x c l % 2 ^ w)
  let count (x : Ic → Nat → Nat) : Ic → Nat → LaneOut := fun c l => (destWrite f.dc f.d false l (x c l), 0)
  Computes (.andB f) false (r fun c l => (bitsA f c l).land (bitsB f c l)) ∧
  Computes (.orB f) false (r fun c l => (bitsA f c l).lor (bitsB f c l)) ∧
  Computes (.xorB f) false (r fun c l => (bitsA f c l).xor (bitsB f c l)) ∧
  Computes (.notB f) false (r fun c l => 2 ^ w - 1 - bitsA f c l) ∧
  Computes (.shl f) false (r fun c l => if wordB f c l ≥ w then 0 else bitsA f c l * 2 ^ wordB f c l) ∧
  Computes (.shr f) false (r fun c l => if wordB f c l ≥ w then 0 else bitsA f c l / 2 ^ wordB f c l) ∧
  Computes (.sar f) false (r fun c l => sarBits w (bitsA f c l) (wordB f c l)) ∧
  Computes (.rot f) false (r fun c l => let k := wordB f c l % w; let a := bitsA f c l
    if f.sub == 1 then rotLeft w a (w - k) else rotLeft w a (wordB f c l)) ∧
  Computes (.clz f) false (count fun c l => w - bitLen (bitsA f c l)) ∧
  Computes (.popc f) false (count fun c l => popCount (BitVec.ofNat 64 (bitsA f c l))) ∧
  Computes (.brev f) false (r fun c l => revBits w (bitsA f c l)) ∧
  Computes (.bfe f) false (fun c l => putD f l (bfeBits f.ty (bitsA f c l) (wordB f c l))) ∧
  Computes (.bfi f) false (fun c l => putD f l (bfiBits f.ty (bitsA f c l) (bitsB f c l) (srcE c f false .n32 l)))

/-- The residue instructions act on each channel by itself, and convert from and to i32 (R110 to R114, R170). -/
def Sys2Proof.Claims.ResidueResults : Prop := ∀ f : RegForm,
  let a : Ic → Nat → Word := fun c l => BitVec.ofNat 32 (srcA c f false .rt l)
  let b : Ic → Nat → Word := fun c l => BitVec.ofNat 32 (srcB c f false .rt l)
  let r (x : Ic → Nat → Word) : Ic → Nat → LaneOut := fun c l => (destWrite f.dc f.d false l (x c l).toNat, 0)
  Computes (.rnfwd f) false (r fun c l => crtFwd (a c l).toInt) ∧
  Computes (.rnadd f) false (r fun c l => rtMap (fun m x y => (x + y) % m) (a c l) (b c l)) ∧
  Computes (.rnsub f) false (r fun c l => rtMap (fun m x y => (x + m - y) % m) (a c l) (b c l)) ∧
  Computes (.rnmul f) false (r fun c l => rtMap (fun m x y => x * y % m) (a c l) (b c l)) ∧
  Computes (.rnrev f) false (r fun c l => BitVec.ofInt 32 (crtRev (a c l)))

/-- The bit and residue instructions (class 0x09, 0x17, R110 to R114, R148, R149, R170): what each owes in a lane, and that it
goes on. -/
def Obligations.BitAndResidueInstructions : Prop := BitResults ∧ ResidueResults

/-! ### Predicates and lanes (class 0x0E, 0x0F, 0x07) -/

/-- Comparisons and predicate logic (R151 to R153): a predicate bit for each lane, every lane's for a uniform instruction. -/
def Sys2Proof.Claims.PredicateResults : Prop := ∀ f : RegForm,
  let put (x : Ic → Nat → Bool) : Ic → Nat → LaneOut := fun c l => (predWrite f.d.toNat l f.c.u (x c l), 0)
  let a : Ic → Nat → Bool := fun c l => (c.w.pget f.a.toNat).getLsbD l ^^ f.sub.getLsbD 0
  let b : Ic → Nat → Bool := fun c l => (c.w.pget f.b.toNat).getLsbD l ^^ f.sub.getLsbD 1
  Computes (.cmp f) false (put fun c l => condOf f.sub.toNat (decide (intA f c l < intB f c l)) (intA f c l == intB f c l)) ∧
  Computes (.fcmp f) true (fun c l =>
    let x := fcmpBits (tyFmt f.ty) f.sub.toNat (bitsA f c l) (bitsB f c l)
    (predWrite f.d.toNat l f.c.u x.1, x.2)) ∧
  Computes (.pand f) false (put fun c l => (a c l && b c l) ^^ f.sub.getLsbD 2) ∧
  Computes (.por f) false (put fun c l => (a c l || b c l) ^^ f.sub.getLsbD 2) ∧
  Computes (.pxor f) false (put fun c l => (a c l ^^ b c l) ^^ f.sub.getLsbD 2) ∧
  Computes (.pnot f) false (put fun c l => !a c l ^^ f.sub.getLsbD 2) ∧
  Computes (.pmov f) false (put fun c l => a c l ^^ f.sub.getLsbD 2) ∧
  Computes (.pmovPack f) false (fun c l => (destWrite f.dc f.d false l (c.w.pget f.a.toNat).toNat, 0)) ∧
  Computes (.pmovUnpack f) false (fun c l =>
    (predWrite f.d.toNat l false (srcA c f false .b32 l / 2 ^ l % 2 == 1), 0))

/-- Lane operations (R155 to R158, R206): shuffles, votes, reductions, matches and scans over the active lanes; `vote.agree`
counts one use of a legacy form as well (R207). Which of an element as it stands and the results in flight that write it `shfl`
reads for each lane outside the active set is free (log entry 97, DEDUCED; R155). -/
def Sys2Proof.Claims.LaneResults : Prop := ∀ f : RegForm,
  let votes : Ic → LaneMask := fun c => c.w.pget f.a.toNat &&& c.active
  Performs (.shfl f) (fun c s => (workLanes f.c.u c.active).all fun l => (s.inFlight c f (shflLane c f l)).isEmpty)
    (fun c s => owed c { s with freeCtr := s.freeCtr + 1 } f.c.u false fun l =>
      let j := shflSrc f.sub.toNat l (wordB f c l)
      putD f l (bitsA f c (if j < 0 ∨ j > 31 then l else j.toNat))) ∧
  Performs (.shfl f) (fun _ _ => true) (fun c s => owed c { s with freeCtr := s.freeCtr + 1 } f.c.u false (s.shflOut c f)) ∧
  Computes (.vote f) false (fun c l =>
    match f.sub.toNat with
    | 0 => (predWrite f.d.toNat l false (votes c == c.active), 0)
    | 1 => (predWrite f.d.toNat l false (votes c != 0), 0)
    | 2 => (destWrite f.dc f.d false l (votes c).toNat, 0)
    | 3 => (destWrite f.dc f.d false l (popCount (votes c)), 0)
    | _ => (predWrite f.d.toNat l false (votes c == c.active || votes c == 0), 0)) ∧
  Computes (.redux f) false (fun c l =>
    putD f l (foldFirst (reduxOp f.ty f.sub.toNat) ((lanesOf c.active).map fun j => srcA c f false f.ty j))) ∧
  Computes (.matchL f) false (fun c l =>
    let m := maskOf ((lanesOf c.active).filter fun j => bitsA f c j == bitsA f c l)
    (destWrite f.dc f.d false l (if f.sub == 0 then m.toNat else if m = c.active then c.active.toNat else 0), 0)) ∧
  Computes (.prefixL f) false (fun c l =>
    let xs := (lanesOf c.active).filter fun j => if (scanOp f.sub.toNat).2 then j < l else j ≤ l
    putD f l (foldFirst (reduxOp f.ty (scanOp f.sub.toNat).1) (xs.map fun j => srcA c f false f.ty j))) ∧
  Performs (.voteAgree f) (fun _ _ => true) (fun c s => owed c (s.countLegacy c.b.ctx) false false fun l =>
    (predWrite f.d.toNat l false (votes c == c.active || votes c == 0), 0))

/-- The predicate and lane instructions (class 0x0E, 0x0F, 0x07, R151 to R158, R206): what each owes in a lane, and that it goes
on. Which of an element as it stands and the results in flight that write it `shfl` reads for each lane outside the active set
is free (log entry 97, DEDUCED; R155). -/
def Obligations.PredicateAndLaneInstructions : Prop := PredicateResults ∧ LaneResults

/-! ### Floating point (class 0x10, 0x15, 0x16) -/

/-- Floating-point instructions work on every element of their type with one rounding each, and raise their flags (R94 to
R104, R160 to R165). -/
def Sys2Proof.Claims.FloatResults : Prop := ∀ f : RegForm,
  let mode := Mode.ofSub f.sub.toNat
  let r (op : Fmt → Nat → Nat → Nat → Nat × Flags) : Ic → Nat → LaneOut := fun c l =>
    putF f l (perElem f.ty (fun F xs => op F (xs.getD 0 0) (xs.getD 1 0) (xs.getD 2 0)) [bitsA f c l, bitsB f c l, bitsC f c l])
  Computes (.fadd f) true (r fun F a b _ => F.add mode a b) ∧
  Computes (.fsub f) true (r fun F a b _ => F.sub mode a b) ∧
  Computes (.fmul f) true (r fun F a b _ => F.mul mode a b) ∧
  Computes (.ffma f) true (r fun F a b c => F.fma mode a b c) ∧
  Computes (.fmin f) true (r fun F a b _ => F.minmax false a b) ∧
  Computes (.fmax f) true (r fun F a b _ => F.minmax true a b) ∧
  Computes (.fabs f) true (r fun F a _ _ => (a % 2 ^ (F.bits - 1), 0)) ∧
  Computes (.fneg f) true (r fun F a _ _ => (F.flip a, 0)) ∧
  Computes (.fclass f) true (fun c l =>
    (destWrite f.dc f.d false l
      (perElem f.ty (fun F xs => (2 ^ classBit F (xs.getD 0 0), 0)) [bitsA f c l]).1, 0)) ∧
  Computes (.frnd f) true (r fun F a _ _ => frndBits mode F a) ∧
  Computes (.frcp f) true (r fun F a _ _ => F.rcpV (F.dec a)) ∧
  Computes (.fsqrt f) true (r fun F a _ _ => F.sqrtV (F.dec a)) ∧
  Computes (.frsq f) true (r fun F a _ _ => F.rsqV (F.dec a)) ∧
  Computes (.fexp2 f) true (r fun F a _ _ => F.exp2V (F.dec a)) ∧
  Computes (.flog2 f) true (r fun F a _ _ => F.log2V (F.dec a))

/-- Conversions (R103, R104, R166 to R169): between integers and floating-point formats, and packing and splitting lanes. -/
def Sys2Proof.Claims.ConversionResults : Prop := ∀ f : RegForm,
  Computes (.cvt f) true (fun c l =>
    let t := (cvtSrc f).getD .b32
    putF f l (cvtBits f.ty t f.sub.toNat (srcA c f (Ty.is64 t) t l))) ∧
  Computes (.pack f) true (fun c l =>
    let a := srcA c f false .b32 l
    let b := srcB c f false .b32 l
    if Ty.isPacked f.ty then
      let x := (tyFmt f.ty).round (Mode.ofSub f.sub.toNat) (fmt32.dec a)
      let y := (tyFmt f.ty).round (Mode.ofSub f.sub.toNat) (fmt32.dec b)
      (destWrite f.dc f.d false l (x.1 + 65536 * y.1),
        x.2 ||| y.2 ||| if (fmt32.dec a).isSig || (fmt32.dec b).isSig then flagNv else 0)
    else
      let h (v : Nat) : Nat := (satInt f.ty (intVal .i32 v) % 2 ^ tyBits f.ty).toNat
      (destWrite f.dc f.d false l (h a + 65536 * h b), 0)) ∧
  Computes (.unpack f) true (fun c l =>
    let a := srcA c f false f.ty l
    let one (x : Nat) : Nat × Flags :=
      if Ty.isPacked f.ty then
        ((fmt32.round .ne ((tyFmt f.ty).dec x)).1, if ((tyFmt f.ty).dec x).isSig then flagNv else 0)
      else (intBits .i32 (intVal f.ty x), 0)
    (destWrite f.dc f.d true l ((one (a % 65536)).1 + 2 ^ 32 * (one (a / 65536)).1),
      (one (a % 65536)).2 ||| (one (a / 65536)).2))

/-- The floating-point and conversion instructions (class 0x10, 0x15, 0x16, R94 to R104, R160 to R169): what each owes in a
lane, the flags it raises, and that it goes on. -/
def Obligations.FloatInstructions : Prop := FloatResults ∧ ConversionResults

/-! ### Control transfers, traps and waiting (class 0x01, 0x02) -/

/-- Control transfers (R58, R174, R175): with every landing line in, on a slot whose target bit is set (and, for a `.uni` form,
one target for all lanes), every active lane goes to its target; the `call` forms also write the next sequential PC to the link
pair of those lanes. `bra` and `call` are relative to the instruction, `brx` and `calli` add a register pair, `ret` reads the
link pair. That the link pair is written at issue is the model's choice (log entry 14, DESIGN CHOICE: R63 leaves a later read of
the run the old or the new value). -/
def Obligations.ControlTransfers : Prop := ∀ f : BrForm,
  let ok (tgt : Ic → Nat → BitVec 64) : Ic → State → Bool := fun c s =>
    let ts := (lanesOf c.active).map fun l => (l, tgt c l)
    let bs := (s.landings c.w ts).1
    (!f.uni || ts.all fun x => x.2 == tgt c c.lane0) && bs.length == ts.length
      && bs.all fun x => x.2.2.st == .good && landsOn x.2.2 x.2.1.toNat
  let go (i : Instr) (link : Bool) (tgt : Ic → Nat → BitVec 64) : Ic → State → State := fun c s =>
    let ts := (lanesOf c.active).map fun l => (l, tgt c l)
    (((s.landings c.w ts).2).modWarp c.w.uid c.w.wid fun w =>
      if link then w.puts (ts.flatMap fun x => vecWrite f.link.toNat x.1 true (nextPc c.pc).toNat) else w).retire c i
        fun l _ => (tgt c l).setWidth 55
  let rel : Ic → Nat → BitVec 64 := fun c _ => c.pc.setWidth 64 + f.disp.signExtend 64
  let idx : Ic → Nat → BitVec 64 := fun c l =>
    (if f.indexUni then c.w.sget64 f.index.toNat else c.w.vget64 f.index.toNat l) + f.disp.signExtend 64
  let back : Ic → Nat → BitVec 64 := fun c l => c.w.vget64 f.link.toNat l
  Leaves (.bra f) (ok rel) (go (.bra f) false rel) ∧
  Leaves (.brx f) (ok idx) (go (.brx f) false idx) ∧
  Leaves (.call f) (ok rel) (go (.call f) true rel) ∧
  Leaves (.calli f) (ok idx) (go (.calli f) true idx) ∧
  Leaves (.ret f) (ok back) (go (.ret f) false back)

/-- `exit` ends its active threads, and as the last exit of a warp releases at block scope first (R171, R176); `pause` holds
every lane for the number of its cycles, at most 65535, 0 being none (R179); `yield` ends the bundle (R180). -/
def Sys2Proof.Claims.ExitPauseAndYield : Prop := ∀ (f : BrForm) (g : RegForm),
  Performs (.exit f) (fun c s => c.othersLive || releaseReady s c .block)
    (fun c s => if c.othersLive then s.endThreads c else (afterRelease s c .block).endThreads c) ∧
  Performs (.pause g) (fun _ _ => true) (fun c s =>
    s.modWarp c.w.uid c.w.wid fun w => w.modThreads c.active fun l t =>
      let n := min 65535 (srcA c g false .n32 l)
      if n = 0 then t else { t with st := .paused n }) ∧
  Performs (.yield g) (fun _ _ => true) (fun c s => s.modWarp c.w.uid c.w.wid fun w => { w with yielded := true })

/-- `trap` faults TRAP with its immediate; `brk` faults BRK and swaps its block out (R178, R442); `sys.halt` counts its use and
traps with 0xF0 + 1 in every firmware image, unless it is removed (R206, R450). Each needs the warp's strong accesses in. -/
def Sys2Proof.Claims.TrapInstructions : Prop := ∀ f : RegForm,
  Leaves (.trap f) (fun c s => !s.strongBusy c.w.uid c.w.wid) (fun c s => (s.trapNow c .trap f.imm.toNat).issued) ∧
  Leaves (.brk f) (fun c s => !s.strongBusy c.w.uid c.w.wid && s.blockCanLeave c.b)
    (fun c s => ((s.trapNow c .brk f.imm.toNat).swapOut c.w.uid c.w.wid).issued) ∧
  Leaves (.sysHalt f) (fun c s => s.plat.ladderHalt != 3 && !s.strongBusy c.w.uid c.w.wid)
    (fun c s =>
      let t := s.trapNow c .trap 0xF1
      (if (t.warp? c.w.uid c.w.wid).any fun w => w.faultStall.isSome then t else t.countHalt).issued)

/-- What `trap`, `brk` and `sys.halt` leave in their warp when the record has gone to its ring or a holding slot (R178): it is
held, and every active thread that was ready is parked by the fault at the next sequential PC, its new region entry. -/
def Obligations.TrapParksAtTheNextInstruction : Prop :=
  ∀ (s s1 : State) (c : Ic) (x : Warp) (code : FaultCode) (aux : Nat),
    s.strongBusy c.w.uid c.w.wid = false → s.warp? c.w.uid c.w.wid = some x → x.faultStall = none →
    let t0 := c.w.thread c.lane0
    let w : Warp := x.modThreads c.active fun _ t =>
      { t.fresh with pc := nextPc c.pc, rentry := nextPc c.pc, rseq := t.rseq + 1, newRegion := false, reenter := true, landed := true }
    (s.setWarp w).putRecord w.core ((s.setWarp w).recordOf w
      { c.record code c.lane0 with aux := aux, rentry := nextPc c.pc, rseq := t0.rseq + 1 }) true = some s1 →
    s1.warp? c.w.uid c.w.wid = some w →
    ∃ y, (s.trapNow c code aux).warp? c.w.uid c.w.wid = some y ∧ y.held = true ∧
      ∀ l < x.threads.length, c.active.getLsbD l = true → (x.thread l).st = .ready →
        (y.thread l).st = .parked .fault ∧ (y.thread l).pc = nextPc c.pc ∧ (y.thread l).rentry = nextPc c.pc ∧
          (y.thread l).rseq = (x.thread l).rseq + 1

/-! ### Barriers and legacy forms (class 0x03, 0x07) -/

/-- Arriving at a barrier (R182, R185, R186): the active threads park after a release, at block, cluster or device scope, and
are entered as arrived; the barrier completes when every thread of its block, group or grid that has not exited is in. -/
def Sys2Proof.Claims.Barriers : Prop := ∀ f : RegForm,
  Performs (.bar f)
    (fun c s => !(c.b.bars.any fun x => x.id == f.imm.toNat && x.need.isSome) && releaseReady s c .block)
    (fun c s => (((afterRelease s c .block).park c .barrier).modBlock c.b.uid
      fun b => b.arrive f.imm.toNat c.arrivals none).barsCheck c.b.uid) ∧
  Performs (.clbar f)
    (fun c s => c.b.parent.isNone && (s.grid? c.b.gid).any (fun g => g.launch.cgroup != 0) && releaseReady s c .cluster)
    (fun c s => (((afterRelease s c .cluster).park c .barrier).modBlock c.b.uid
      fun b => { b with clArr := b.clArr ++ c.arrivals }).clusterBar c.b.uid) ∧
  Performs (.gbar f)
    (fun c s => c.b.parent.isNone && (s.grid? c.b.gid).any (fun g => g.launch.cores) && releaseReady s c .device)
    (fun c s => (((afterRelease s c .device).park c .barrier).modBlock c.b.uid
      fun b => { b with gArr := b.gArr ++ c.arrivals }).gridBar c.b.gid) ∧
  Performs (.cvinit f)
    (fun c _ =>
      let n := srcA c f false .n32 c.lane0
      decide (0 < n ∧ n ≤ 32 ∧ n ≤ c.b.nwarps) && (c.b.cv f.d.toNat).state != 1 && (c.b.cv f.d.toNat).state != 2)
    (fun c s => s.modBlock c.b.uid fun b =>
      { b with cvs := assocSet b.cvs f.d.toNat { state := 1, n := srcA c f false .n32 c.lane0 } })

/-- `bar.cnt` counts a legacy use, and the barrier completes with the count it was opened with (R206, R207). -/
def Sys2Proof.Claims.CountedBarrier : Prop := ∀ f : RegForm,
  Follows (.barCnt f) fun c s t =>
    let n := srcA c f false .n32 c.lane0
    let u := (((afterRelease s c .block).countLegacy c.b.ctx).park c .barrier).modBlock c.b.uid
      fun b => b.arrive f.sub.toNat c.arrivals (some n)
    0 < n ∧ n ≤ 1024 ∧ (∀ l ∈ lanesOf c.active, srcA c f false .n32 l = n) ∧
    (∀ x, (c.b.bars.find? fun x => x.id == f.sub.toNat) = some x → x.need = some n) ∧ releaseReady s c .block = true ∧
    t = match ((u.block? c.b.uid).bind fun b => b.bars.find? fun x => x.id == f.sub.toNat) with
      | some x => if n ≤ x.arrived.length then u.barComplete c.b.uid x else u
      | none => u

/-- `bar.phase` (R188, R189): with no result out and every line of the tables it names in reach, after a release at device scope
its threads wait at the next instruction, and the block's phase completes when every thread is in. Arrivals at differing
instructions fault, so the statement is about those that agree. That the release is made once for each warp when the phase
completes is the model's reading (log entry 95, DEDUCED). -/
def Sys2Proof.Claims.PhaseBarrier : Prop := ∀ f : RegForm,
  Follows (.barPhase f) fun c s t =>
    let p := phaseOpOf f c.pc
    let u := (((released s c .device).park c .barrier).modWarp c.w.uid c.w.wid
      fun w => w.modThreads c.active fun _ t => { t with pc := nextPc c.pc }).modBlock c.b.uid
      fun b => { b with phArr := b.phArr ++ c.arrivals, phClash := b.phClash || b.phase.any fun q => q != p,
                        phase := b.phase.orElse fun _ => some p, phBack := b.phBack ++ c.goBack }
    c.w.outstanding = 0 ∧ (∃ x, s.phaseLines c.b p = .ok x) ∧ releaseReady s c .device = true ∧
    (∀ b, u.block? c.b.uid = some b → b.phClash = false) ∧ t = u.phaseBar c.b.uid

/-- The barrier instructions (class 0x03 and `bar.cnt`, R182 to R189, R206): when each is performed, and what it leaves. That
the release is made once for each warp when the phase completes is the model's reading (log entry 95, DEDUCED). -/
def Obligations.BarrierInstructions : Prop := Barriers ∧ CountedBarrier ∧ PhaseBarrier

/-- `sys.flush` below step 2 of its ladder writes back the core's dirty lines, waits for them, releases and acquires at device
scope, and counts its use (R206, R385, R450); at step 2 it traps with 0xF0. -/
def Sys2Proof.Claims.LegacyFlush : Prop := ∀ f : RegForm,
  (Follows (.sysFlush f) fun c s t =>
    let u := if c.w.flushed then s
      else (s.flushCore c.w.core).modWarp c.w.uid c.w.wid fun w => { w with flushed := true }
    s.plat.ladderFlush.toNat < 2 ∧ u.wbsOut c.w.core = false ∧ releaseReady u c .device = true ∧
    t = ((afterRelease u c .device).acquire c.w.uid c.w.wid .device 0).countFlush) ∧
  Leaves (.sysFlush f) (fun c s => s.plat.ladderFlush.toNat == 2 && !s.strongBusy c.w.uid c.w.wid)
    (fun c s =>
      let t := s.trapNow c .trap 0xF0
      (if (t.warp? c.w.uid c.w.wid).any fun w => w.faultStall.isSome then t else t.countFlush).issued)

/-- `exit`, `pause`, `yield`, `trap`, `brk`, `sys.halt` and `sys.flush` (R176 to R180, R206, R442, R450): when each is
performed, and what it leaves. -/
def Obligations.WaitingAndTrapInstructions : Prop := ExitPauseAndYield ∧ TrapInstructions ∧ LegacyFlush

/-! ### Work creation (class 0x04) -/

/-- `launch` (R193): after its write-backs, with a record that passes every check, it releases at device scope, takes its token
and queues a grid one level deeper, whose parent is the issuing block. -/
def Sys2Proof.Claims.LaunchQueuesAGrid : Prop := ∀ f : EngForm,
  Follows (.launch f) fun c s t =>
    ∃ v s1 l k p, c.w.wid = 0 ∧ c.active.getLsbD 0 = true ∧ c.b.depth < 10 ∧ releaseReady s c .device = true ∧
      (released s c .device).record c f.record.toNat 2 = (.ok v, s1) ∧ s1.checkLaunch c.b.ctx v (engineUnits c.w.core) = some (l, k, p) ∧
      let r := (s1.forwardLines c.w.core c.b.ctx l.kdesc.toNat 2 .read (engineUnits c.w.core)).releaseNow c.w.uid c.w.wid .device
      let x := r.issueCommand c (.launch f) (some f.token.toNat) []
      t = (x.2.newGrid { gid := 0, ctx := c.b.ctx, depth := c.b.depth + 1, launch := { l with prio := f.aux.toNat },
                         kernel := k, partition := p, parent := some c.b.gid, parentBlock := some c.b.uid, token := some x.1,
                         wait := f.mod.getLsbD 0, stamp := x.2.clockOf c.w.uid c.w.wid }).2

/-- `spawn` (R195): with a record and views that pass every check and wells for every slot of its views, it releases, makes the
child block of the core's own cluster with its views bound and their regions filled, and its token completes at once. -/
def Sys2Proof.Claims.SpawnMakesAChild : Prop := ∀ f : EngForm,
  Follows (.spawn f) fun c s t =>
    ∃ v s1 bs s2 r k vs bank s3, releaseReady s c .device = true ∧
      (released s c .device).record c f.record.toNat 1 = (.ok v, s1) ∧ fieldOf v 128 4 < 9 ∧
      s1.linesAt c (engineUnits c.w.core) (c.w.sget64 f.record.toNat + 64) (ceilDiv (fieldOf v 128 4) 4) = (.ok bs, s2) ∧
      s2.checkSpawn c.b v (natOfBytes bs) = .ok (r, k, vs) ∧
      takeSpares ((vs.flatMap View.childSlots).eraseDups) s2 (coreCluster c.w.core) (s2.wellsTaken (coreCluster c.w.core))
        = some (bank, s3) ∧
      let x := ((s3.forwardLines c.w.core c.b.ctx r.entry.toNat 2 .read (engineUnits c.b.core)).releaseNow c.w.uid c.w.wid
        .device).issueCommand c (.spawn f) (some f.token.toNat) []
      let b : Block :=
        { uid := x.2.nextId, gid := c.b.gid, bid := r.bid, ctx := c.b.ctx, depth := c.b.depth + 1, ntid := r.ntid,
          cluster := some (coreCluster c.w.core), kernel := k, param := r.param, bank := bank, readySince := x.2.time,
          readyCyc := x.2.homeCycle (((x.2.grid? c.b.gid).map fun g => g.launch.queue).getD 0),
          parent := some (c.b.uid, c.b.spawned), views := vs.map (x.2.bindView c.b), prio := r.prio }
      let y : State := { x.2 with nextId := x.2.nextId + 1, blocks := x.2.blocks ++ [b] }
      let z := (vs.foldl (fun (s : State) v => s.fillView b v) y).modBlock c.b.uid
        fun b => { b with spawned := b.spawned + 1 }
      t = z.completeEngine x.1 0 0

/-- `merge` releases at device scope, marks its child block as merging at this warp and ends its threads (R197); `sync.spawn`
goes on at once when every child it waits for is folded, acquiring at device scope, and parks its threads otherwise (R199). -/
def Sys2Proof.Claims.MergeAndSyncSpawn : Prop := ∀ f : EngForm,
  Performs (.merge f) (fun c s => releaseReady s c .device)
    (fun c s => (((afterRelease s c .device).modBlock c.b.uid fun b =>
      if b.parent.isNone then b
      else { b with merge := some { b.merge.getD {} with wid := c.w.wid, slot := c.w.slot, core := c.w.core, pc := c.pc,
                                                           eseq := c.w.eseq, merged := true } }).countCommand c).endThreads c) ∧
  Performs (.syncSpawn f) (fun c s => ringReady s c)
    (fun c s =>
      if c.b.spawned ≤ c.b.folded then
        (s.countCommand c).acquireEnd c.w.uid c.w.wid .device ((s.countCommand c).childStamp c.b.uid)
      else ((s.countCommand c).park c .syncSpawn).modBlock c.b.uid
        fun b => { b with syncs := b.syncs ++ [(c.w.wid, c.active, b.spawned)] })

/-- `launch`, `spawn`, `merge` and `sync.spawn` (R193 to R199): when each is performed, and what it leaves. -/
def Obligations.WorkCreationInstructions : Prop := LaunchQueuesAGrid ∧ SpawnMakesAChild ∧ MergeAndSyncSpawn

/-- `tsub` (R200, R201): from every state in which it issues, with its write-backs in, a task record and a launch record in reach
that pass every check, a block no deeper than 9 and footprint entries free on its queue's home die, it answers a next state: it
has released at device scope, taken its token and entered the task, and without wait the token has completed at once. -/
def Sys2Proof.Claims.TaskSubmission : Prop := ∀ f : EngForm,
  Follows (.tsub f) fun c s t =>
    ∃ v s1 rs bs s2, releaseReady s c .device = true ∧ (released s c .device).record c f.record.toNat 2 = (.ok v, s1) ∧
      footprintOf v = some rs ∧ zeroAt v 768 256 = true ∧ zeroAt v 128 32 = true ∧
      s1.linesAt c (engineUnits c.w.core) (BitVec.ofNat 64 (fieldOf v 0 64)) 2 = (.ok bs, s2) ∧
      let s3 := s2.forwardLines c.w.core c.b.ctx (fieldOf (natOfBytes bs) 0 64) 2 .read (engineUnits c.w.core)
      (s2.checkLaunch c.b.ctx (natOfBytes bs) (engineUnits c.w.core)).isSome = true ∧ c.b.depth < 10 ∧
      s3.footprintsUsed f.aux.toNat + rs.length ≤ 4096 ∧
      let x := (s3.releaseNow c.w.uid c.w.wid .device).issueCommand c (.tsub f) (some f.token.toNat) []
      let y := x.2.submit
        { queue := f.aux.toNat, index := 0, ctx := c.b.ctx, gen := (x.2.ctx c.b.ctx).gen, depth := c.b.depth + 1,
          recordAt := c.w.sget64 f.record.toNat, launchAt := BitVec.ofNat 64 (fieldOf v 0 64),
          param := BitVec.ofNat 64 (fieldOf v 64 64), prio := fieldOf v 168 2, state := 0, pend := fieldOf v 176 16,
          ranges := rs, succs := [], token := some x.1, wait := f.mod.getLsbD 0, predAbort := none, readyAt := x.2.time,
          parentGrid := c.b.gid, parentBlock := c.b.uid, stamp := x.2.clockOf c.w.uid c.w.wid }
      t = if f.mod.getLsbD 0 then y else y.completeEngine x.1 0 0

/-- `tsig` (R203): from every state in which it issues, with its write-backs in and a task record in reach that names a waiting
task with a count above zero, it answers a next state, in which after a release at device scope one has been taken from the
count. Where the record names no such task it faults TASK.UNDERFLOW, with none of that done. The record's address and acc 3 of
the fault are the model's reading (log entry 36, DEDUCED), as is that the task is the one submitted with this record (log entry
92, DEDUCED). -/
def Sys2Proof.Claims.TaskSignal : Prop := ∀ f : EngForm,
  Follows (.tsig f) (fun c s t =>
    ∃ v s1 u, releaseReady s c .device = true ∧ (released s c .device).record c f.record.toNat 2 = (.ok v, s1) ∧
      s1.recordTask c.b.ctx (c.w.sget64 f.record.toNat) (fieldOf v 170 6) (fieldOf v 224 32) = some u ∧ u.state = 1 ∧ 0 < u.pend ∧
      t = ((s1.releaseNow c.w.uid c.w.wid .device).countCommand c).taskDrop u
        (((s1.releaseNow c.w.uid c.w.wid .device).countCommand c).clockOf c.w.uid c.w.wid)) ∧
  Faults (.tsig f) (fun c s r =>
    ∃ v s1, releaseReady s c .device = true ∧ (released s c .device).record c f.record.toNat 2 = (.ok v, s1) ∧
      (∀ u, s1.recordTask c.b.ctx (c.w.sget64 f.record.toNat) (fieldOf v 170 6) (fieldOf v 224 32) = some u → ¬(u.state = 1 ∧ 0 < u.pend)) ∧
      r = { c.record .taskUnderflow c.lane0 (c.w.sget64 f.record.toNat) 3 with
            okind := 5, onum := BitVec.ofNat 32 (fieldOf v 224 32), aux := fieldOf v 170 6 })

/-- `tsub` and `tsig` (R200 to R203): when each is performed, and what it leaves. The record's address and acc 3 of the fault
are the model's reading (log entry 36, DEDUCED), as is that the task is the one submitted with this record (log entry 92,
DEDUCED). -/
def Obligations.TaskInstructions : Prop := TaskSubmission ∧ TaskSignal

/-! ### Supervisor (class 0x06) -/

/-- `sys.tlbinv` drops the entries that it names, starts the write-backs of the lines they translated and waits for every access
translated before; it releases and acquires at device scope (R205, R414, R419). -/
def Sys2Proof.Claims.TlbInvalidation : Prop := ∀ f : RegForm,
  Follows (.sysTlbinv f) fun c s t =>
    let x : InvSel := { mode := f.sub.toNat, ctx := srcB c f false .b32 c.lane0 % 65536, va := srcA c f true .b64 c.lane0 }
    let r := released s c .device
    let level := if c.w.waitId = 0 then r.invLevel x else c.w.waitLevel
    let u := if c.w.waitId = 0 then r.invalidate x level else r
    let id := if c.w.waitId = 0 then u.nextId else c.w.waitId
    let y := u.modWarp c.w.uid c.w.wid fun w => { w with waitId := id, waitLevel := level }
    releaseReady s c .device = true ∧ y.translatedOut x level id = false ∧
    t = (y.releaseNow c.w.uid c.w.wid .device).acquire c.w.uid c.w.wid .device 0

/-- `sys.fwake` answers with its status (R204, R205, R430): 2 when the context's generation has gone or nothing has that slot, 0
when a fault-parked warp or a stopped fold goes on, 1 when nothing waits. The status is written at issue by the model's choice
(log entry 14, DESIGN CHOICE: R63 leaves it open). -/
def Sys2Proof.Claims.SupervisorWake : Prop := ∀ f : RegForm,
  Performs (.sysFwake f) (fun c s => releaseReady s c .device) (fun c s =>
    let slot := srcA c f false .b32 c.lane0
    let b := srcB c f false .b32 c.lane0
    let s := (afterRelease s c .device).acquire c.w.uid c.w.wid .device 0
    if s.staleGen (b % 65536) (b / 65536) then s.putStatus c f 2
    else
      match s.named slot (b % 65536) with
      | .nothing => s.putStatus c f 2
      | .merging k m =>
        if m.stopped then
          (s.modBlock k.uid fun k => { k with merge := some { m with stopped := false },
                                              views := k.views.map fun v => { v with wells := [] } }).putStatus c f 0
        else s.putStatus c f 1
      | .warp w => if s.faultParked w then (s.answer w).putStatus c f 0 else s.putStatus c f 1)

/-- `sys.fkill` with a code of the fault table aborts the whole tree of the grid that the slot's warp belongs to, with that
code, or drops a stopped fold's views; its status is 0, or 2 when the slot names nothing (R198, R205, R430, R432). The status is
written at issue by the model's choice (log entry 14, DESIGN CHOICE: R63 leaves it open). -/
def Sys2Proof.Claims.SupervisorKill : Prop := ∀ f : RegForm,
  Performs (.sysFkill f)
    (fun c s => (FaultCode.all.any fun x => x.code == f.imm.setWidth 8) && releaseReady s c .device)
    (fun c s =>
      let slot := srcA c f false .b32 c.lane0
      let b := srcB c f false .b32 c.lane0
      let s := ((afterRelease s c .device).acquire c.w.uid c.w.wid .device 0).putStatus c f 0
      let kill (uid core : Nat) : State :=
        match s.block? uid with
        | none => s
        | some k =>
          let x := abortGrid 12 s k.gid (f.imm.setWidth 8)
          (s.reportFailed x.1).reports core x.2
      if s.staleGen (b % 65536) (b / 65536) then s.putStatus c f 2
      else
        match s.named slot (b % 65536) with
        | .nothing => s.putStatus c f 2
        | .merging k m =>
          if m.stopped then s.modBlock k.uid fun k => { k with views := [], bank := [], merge := some { m with stopped := false } }
          else kill k.uid m.core
        | .warp w => kill w.uid w.core)

/-- `sys.evict` of a resident block whose save area is in reach and that may leave answers 0 and evicts it, its own effects
first; it answers 2 when it names no resident block (R205, R433, R514). The status is written at issue by the model's choice
(log entry 14, DESIGN CHOICE: R63 leaves it open), and so is status 2 for a block between two phases (log entry 83, DESIGN
CHOICE). -/
def Sys2Proof.Claims.SupervisorEvict : Prop := ∀ f : RegForm,
  Performs (.sysEvict f) (fun c s => (s.evictTarget c f).isNone && releaseReady s c .device)
    (fun c s => ((afterRelease s c .device).acquire c.w.uid c.w.wid .device 0).putStatus c f 2) ∧
  (∀ (s : State) (c : Ic) (k : Block) (pas : List Nat), Issuable (.sysEvict f) s c →
    let c' := enteredIc (.sysEvict f) s c
    let s' := enteredState (.sysEvict f) s c
    s'.evictTarget c' f = some k → s'.saveLines k = .ok pas → s'.blockCanLeave k = true → releaseReady s' c' .device = true →
    let u := (((afterRelease s' c' .device).acquire c'.w.uid c'.w.wid .device 0).putStatus c' f 0).retire c' (.sysEvict f)
      fun _ n => n
    exec (.sysEvict f) s = .next (u.evictBlock ((u.block? k.uid).getD k) pas true none).issued)

/-- `sys.fwake`, `sys.fkill` and `sys.evict` (R204, R205, R430, R432, R433): when each is performed, and what it leaves. The
status is written at issue by the model's choice (log entry 14, DESIGN CHOICE: R63 leaves it open), and so is status 2 for a
block between two phases (log entry 83, DESIGN CHOICE). -/
def Obligations.SupervisorWarpControl : Prop := SupervisorWake ∧ SupervisorKill ∧ SupervisorEvict

/-- `sys.resume` lets the evicted block with that save slot be placed again, or ends a barred resume; 0, or 2 when there is none
(R204, R205). `sys.mcount` reads, and with sub 1 clears, the access counters of a 2 MiB region (R205, R417). The status is
written at issue by the model's choice (log entry 14, DESIGN CHOICE: R63 leaves it open); that a resume ends the bar on a warp
whose saved table was changed is the model's reading (log entry 31, DEDUCED). -/
def Sys2Proof.Claims.SupervisorResumeAndCounts : Prop := ∀ f : RegForm,
  Performs (.sysResume f) (fun c s => releaseReady s c .device) (fun c s =>
    let s := (afterRelease s c .device).acquire c.w.uid c.w.wid .device 0
    match s.blocks.find? fun b =>
        (b.st == .evicted true || (b.st == .resident && (s.warpsOf b.uid).any Warp.barred))
          && s.saveSlot b == srcA c f true .b64 c.lane0 with
    | none => s.putStatus c f 2
    | some b =>
      let u := if b.st == .resident then s else s.modBlock b.uid fun b => { b with resume := true }
      ((u.warpsOf b.uid).foldl (fun (s : State) (w : Warp) => s.setWarp { w with barred := false }) u).putStatus c f 0) ∧
  Performs (.sysMcount f) (fun _ _ => true) (fun c s =>
    let mine (k : Counter) : Bool :=
      k.ctx == srcB c f false .b32 c.lane0 % 65536 && k.region == srcA c f true .b64 c.lane0 / 2 ^ 21
    let n := (s.counters.filter mine).foldl (fun n k => n + k.count) 0
    ((if f.sub.toNat = 1 then { s with counters := s.counters.filter fun k => !mine k } else s) : State).putStatus c f n)

/-- `sys.tlbinv`, `sys.resume` and `sys.mcount` (R204, R205, R417, R419): when each is performed, and what it leaves. The status
is written at issue by the model's choice (log entry 14, DESIGN CHOICE: R63 leaves it open); that a resume ends the bar on a
warp whose saved table was changed is the model's reading (log entry 31, DEDUCED). -/
def Obligations.SupervisorTranslationAndCounts : Prop := TlbInvalidation ∧ SupervisorResumeAndCounts

/-! ### Memory (class 0x18 to 0x1F) -/

namespace Sys2Proof.Claims

/-- The lanes' targets when no lane faults (R213): the targets, and the state with what the TLBs learnt. -/
def reachable (s : State) (c : Ic) (f : MemForm) (lk : Look) (ts : List (Nat × Target)) (t : State) : Prop :=
  s.resolveLanes c f lk (workLanes f.c.u c.active) = (ts, [], t)

/-- A relaxed atomic whose lanes are all in reach sends each lane to its home or the well switch and goes on (R226, R227). -/
def Relaxed (i : Instr) (f : MemForm) (k : Ic → StrongKind) : Prop :=
  Follows i fun c s t => ∃ ts s1, reachable s c f (c.look f (k c).need (k c).writes true) ts s1 ∧
    t = (s1.laneOrder ts).2.strongAll i c f (k c) (s1.laneOrder ts).1

/-- A paired access whose lanes are in reach (R224, R302, R380): at cluster scope or wider it waits for what its release waits
for, sends its lanes, the first of which releases when it is performed at its home (R308), and takes the next place of the
seq-cst order; at warp or block scope, once its checks and its bytes are in the L1, it releases,
is performed there and acquires. -/
def Paired (i : Instr) (f : MemForm) (k : Ic → StrongKind) : Prop :=
  Follows i fun c s t => ∃ ts s1, reachable s c f (c.look f (k c).need (k c).writes true) ts s1 ∧
    (if (k c).release then releaseReady s1 c f.scope else ringReady s1 c) = true ∧
    let u := if (k c).release then released s1 c f.scope else s1
    if Scope.wide f.scope then
      t = { (u.laneOrder ts).2.strongAll i c f (k c) (u.laneOrder ts).1 with
            scOrder := (u.laneOrder ts).2.scOrder + 1 }
    else
      ∃ w w', u.warp? c.w.uid c.w.wid = some w ∧
        (w.flushed = true ∨ ∀ x ∈ ts, (u.pairedAsk c f (k c) false x).isSome = true) ∧
        let y := (u.pairedAskAll c f (k c) (!w.flushed) ts).modWarp c.w.uid c.w.wid fun w => { w with flushed := true }
        y.warp? c.w.uid c.w.wid = some w' ∧ w'.checks = [] ∧ w'.deferred = [] ∧ (∀ x ∈ ts, y.pairedHas c f (k c) x = true) ∧
        y.pairedBad c f (k c) ts = none ∧
        let z := if (k c).release then y.releaseNow c.w.uid c.w.wid f.scope else y
        t = (z.laneOrder ts).2.pairedAll c f (k c) (z.laneOrder ts).1

end Sys2Proof.Claims

/-- Loads (R219 to R222): with every lane in reach, `ld` and `ldc` start their pieces through the L1, or at the well switch,
and owe the result; `prf` brings the lines of the lanes in reach into the L1, or with aop 1 into the L2, and owes nothing. -/
def Sys2Proof.Claims.Loads : Prop := ∀ f : MemForm,
  let loaded (c : Ic) (s1 s2 : State) (ts : List (Nat × Target)) (ps : List Piece) (ls : List Nat) : State :=
    let u := if ps.any Piece.ready then s2.servedBy c.w.core s1.nextId 1 else s2
    (u.noteBytes c f false ts).oweAs { id := s1.nextId, uid := c.w.uid, wid := c.w.wid, pieces := ps, lanes := ls }
  (Follows (.ld f) fun c s t => ∃ ts s1 ps ls s2, reachable s c f (c.look f .read false false) ts s1 ∧
    State.loadLanes { s1 with nextId := s1.nextId + 1 } c f s1.nextId ts 0 = (some (ps, ls), s2) ∧
    t = loaded c s1 s2 ts ps ls) ∧
  (Follows (.ldc f) fun c s t => ∃ ts s1 ps ls s2,
    s.constTargets c f (workLanes f.c.u c.active) = (ts, [], s1) ∧
    State.loadLanes { s1 with nextId := s1.nextId + 1 } c f s1.nextId ts 0 = (some (ps, ls), s2) ∧
    t = loaded c s1 s2 ts ps ls) ∧
  Performs (.prf f) (fun _ _ => true) (fun c s =>
    let x := s.resolveLanes c f { c.look f .read false false with watch := [] } (workLanes f.c.u c.active)
    if f.aop = 1 then x.1.foldl (fun (s : State) t =>
      match t.2 with
      | .mem y va => s.prefetchL2 c y va
      | .well _ => s) x.2.2
    else x.1.foldl (fun (s : State) t =>
      match t.2 with
      | .mem y va => s.prefetch c y (BitVec.ofNat 64 va)
      | .well _ => s) x.2.2)

/-- `st` with every lane in reach, and room in the L1, stores each lane's bytes (R212, R220, R381): lanes that meet on one
element in an order that the rules leave open. What else it leaves is bookkeeping: the places that the region has stored to (R300)
and that the store was served by the L1 (R440). -/
def Sys2Proof.Claims.Stores : Prop := ∀ f : MemForm,
  Follows (.st f) fun c s t => ∃ ts s1, reachable s c f (c.look f .write true false) ts s1 ∧
    ∃ u, (s1.laneOrder ts).2.storeLanes c f (s1.laneOrder ts).1 = (some (), u) ∧
    let v := if (s1.laneOrder ts).1.any fun x => x.2.isMem then u.servedBy c.w.core (s1.laneOrder ts).2.nextId 1 else u
    t = v.noteBytes c f true (s1.laneOrder ts).1

/-- `ld`, `ldc`, `prf` and `st` (class 0x18, R219 to R222): when each is performed, and what it leaves. -/
def Obligations.LoadAndStoreInstructions : Prop := Loads ∧ Stores

/-- What a stored lane leaves (R220, R381, R384): where its core's L1 holds the line, its bytes from the address on are the
register's and every other byte of the line is what it was; memory itself and the wells are unchanged, memory until a write-
back. -/
def Obligations.StoreFrame : Prop :=
  ∀ (s t : State) (c : Ic) (f : MemForm) (l va : Nat) (x : Xlat), x.loc ≠ locIO → x.pa % 64 + widthBytes f.width ≤ 64 →
    s.storeLane c f l (.mem x va) = some t →
    t.mem = s.mem ∧ t.wells = s.wells ∧ t.wellFull = s.wellFull ∧
    (∀ y, t.l1? c.w.core c.b.ctx (lineOf x.pa) = some y → ∃ y0 : L1Line, y0.ctx = c.b.ctx ∧ y0.line = lineOf x.pa ∧
      (∀ y1, s.l1? c.w.core c.b.ctx (lineOf x.pa) = some y1 → y0.data = y1.data) ∧
      ∀ k < 64, lineByte y.data k =
        if x.pa % 64 ≤ k ∧ k < x.pa % 64 + widthBytes f.width then
          (bytesOfNat (widthBytes f.width) (memReg c f f.data l)).getD (k - x.pa % 64) 0
        else lineByte y0.data k)

/-- The relaxed atomics (R226, R227): label, operation, page rights, and whether they return the old value. -/
def Sys2Proof.Claims.RelaxedAtomics : Prop := ∀ f : MemForm,
  Relaxed (.atc f) f (fun _ =>
    { label := 2, op := fun _ => .rmw f.aop.toNat (f.cmp.getLsbD 0), need := .both, writes := true, returns := true }) ∧
  Relaxed (.redc f) f (fun _ =>
    { label := 2, op := fun _ => .rmw f.aop.toNat (f.cmp.getLsbD 0), need := .write, writes := true, returns := false }) ∧
  Relaxed (.ata f) f (fun _ =>
    { label := 3, op := fun _ => .accum f.aop.toNat, need := .both, writes := true, returns := true }) ∧
  Relaxed (.reda f) f (fun _ =>
    { label := 3, op := fun _ => .accum f.aop.toNat, need := .write, writes := true, returns := false }) ∧
  Relaxed (.ldf f) f (fun _ => { label := 4, op := fun _ => .load false, need := .read, writes := false, returns := true }) ∧
  Relaxed (.stf f) f (fun _ => { label := 4, op := fun _ => .store, need := .write, writes := true, returns := false }) ∧
  Relaxed (.atx f) f (fun _ => { label := 5, op := fun _ => .swap, need := .both, writes := true, returns := true }) ∧
  Relaxed (.cas f) f (fun c =>
    { label := 5, op := fun l => .cas (BitVec.ofNat 64 (memReg c f f.cmp l)), need := .both, writes := true, returns := true })

/-- The paired accesses (R224): `lda` acquires, `stl` releases, `xar` and `car` do both. -/
def Sys2Proof.Claims.PairedAccesses : Prop := ∀ f : MemForm,
  Paired (.lda f) f (fun _ =>
    { label := 1, op := fun _ => .load false, need := .read, writes := false, returns := true, acquire := true }) ∧
  Paired (.stl f) f (fun _ =>
    { label := 1, op := fun _ => .store, need := .write, writes := true, returns := false, release := true }) ∧
  Paired (.xar f) f (fun _ =>
    { label := 1, op := fun _ => .swap, need := .both, writes := true, returns := true, release := true, acquire := true }) ∧
  Paired (.car f) f (fun c =>
    { label := 1, op := fun l => .cas (BitVec.ofNat 64 (memReg c f f.cmp l)), need := .both, writes := true, returns := true,
      release := true, acquire := true })

/-- The value that an atomic leaves, for locations of 1, 2, 4 or 8 bytes (R224, R226): it fits its location; a compare and swap
that does not match, and a load, leave the old value; minimum and maximum give one of the two values; the counters stay within
their bound. -/
def Obligations.AtomicValues : Prop :=
  ∀ (n old v : Nat) (signed : Bool), n ∈ [1, 2, 4, 8] → old < 2 ^ (8 * n) → v < 2 ^ (8 * n) →
    (∀ op ∈ [0, 1, 2, 3, 4, 5, 6, 7], strongNew (.rmw op signed) n old v < 2 ^ (8 * n)) ∧
    (∀ x : BitVec 64, old ≠ x.toNat % 2 ^ (8 * n) →
      strongNew (.cas x) n old v = old ∧ strongWrites (.cas x) n old = false) ∧
    (∀ sg, strongNew (.load sg) n old v = old ∧ strongWrites (.load sg) n old = false) ∧
    (∀ op ∈ [3, 4], strongNew (.rmw op signed) n old v = old ∨ strongNew (.rmw op signed) n old v = v) ∧
    (old ≤ v → ∀ op ∈ [1, 2], strongNew (.rmw op signed) n old v ≤ v) ∧
    strongNew (.rmw 0 signed) n old v % 2 ^ (8 * n) = (old + v) % 2 ^ (8 * n)

/-- `fence` (R229, R303): `.acq` acquires from the releases that the warp's strong reads have met, `.rel` releases and is noted
for the strong writes after it, `.acqrel` and `.sc` do both in that order, and `.sc` takes the next place of the seq-cst order. -/
def Sys2Proof.Claims.Fences : Prop := ∀ f : MemForm,
  Performs (.fence f) (fun c s => if f.aop = 0 then ringReady s c else releaseReady s c f.scope) (fun c s =>
    let u := afterRelease s c f.scope
    let r := u.noteFence c f.scope
    match f.aop.toNat with
    | 0 => s.acquireEnd c.w.uid c.w.wid f.scope (s.seenBy c f.scope)
    | 1 => r
    | 2 => r.acquire c.w.uid c.w.wid f.scope (u.seenBy c f.scope)
    | _ => { r.acquire c.w.uid c.w.wid f.scope (u.seenBy c f.scope) with scOrder := u.scOrder + 1 })

/-- The relaxed atomics, the paired accesses and `fence` (R223 to R229, R302): when each is performed, and what it leaves. -/
def Obligations.SynchronisingInstructions : Prop := RelaxedAtomics ∧ PairedAccesses ∧ Fences

/-! ### Wells (class 0x20) -/

/-- `ldfe` and `stfe` (R231): a lane whose word is full is read, or whose word is empty is written, at once; the others wait at
the instruction; `ldfe` acquires for each word that it takes and `stfe` releases at cluster scope first. -/
def Sys2Proof.Claims.FullEmptyAccesses : Prop := ∀ f : MemForm,
  (Ends (.ldfe f) fun c s t => ∃ ts s1, reachable s c f (c.look f .read false false) ts s1 ∧ ringReady s1 c = true ∧
    s1.ldfeBad c ts = none ∧
    let x := State.ldfeLanes { s1 with nextId := s1.nextId + 1 } c f s1.nextId ts
    let u := x.2.2.oweAs { id := s1.nextId, uid := c.w.uid, wid := c.w.wid, writes := x.1, lanes := x.2.1,
                           dst := some (f.duni, f.d.toNat), hit := !x.1.isEmpty }
    let v := if x.2.1.isEmpty then u.endInterval c.w.uid c.w.wid (u.clockOf c.w.uid c.w.wid) false else u
    t = v.retire c (.ldfe f) (v.waitPc c)) ∧
  (Ends (.stfe f) fun c s t => ∃ ts s1, reachable s c f (c.look f .write false false) ts s1 ∧
    releaseReady s1 c .cluster = true ∧
    let r := afterRelease s1 c .cluster
    let u := State.stfeLanes { r with nextId := r.nextId + 1 } c f r.nextId ts
    t = u.retire c (.stfe f) (u.waitPc c))

/-- One lane of `ldfe` on a mapped word (R19, R231): a full word gives its value and, with no lane waiting to store, is left
empty; an empty word gives nothing yet: the lane waits, and no word changes. -/
def Obligations.FullEmptyWords : Prop :=
  ∀ (s : State) (c : Ic) (f : MemForm) (l off key seq : Nat), cwf s.wellFull = true →
    c.b.wellAt off = some key →
    (s.wellIsFull key = true → (s.ldfeTake c.w.uid c.w.wid key).2.waiters key true = [] →
      let x := s.ldfeLanes c f seq [(l, .well off)]
      x.1 = ldfeWrites (f.duni, f.d.toNat) l (s.wellGet key) ∧ x.2.1 = [] ∧ x.2.2.wellIsFull key = false) ∧
    (s.wellIsFull key = false →
      let x := s.ldfeLanes c f seq [(l, .well off)]
      x.1 = [] ∧ x.2.1 = [l] ∧ x.2.2.wells = s.wells ∧ x.2.2.wellFull = s.wellFull)

/-- `wfill` (R236): with the address and the length aligned and the words inside the wells of the block, it releases at cluster
scope and fills the words one after another, each full or empty as its sub field says. -/
def Sys2Proof.Claims.WellFill : Prop := ∀ f : MemForm,
  Performs (.wfill f)
    (fun c s =>
      let a := (memAddr c f c.lane0).toNat
      let n := (c.w.sget f.cmp.toNat).toNat
      decide (a % 4 = 0 ∧ n % 4 = 0 ∧ a + n ≤ 0xC0000) && (n == 0 || c.b.wellMapped a n) && releaseReady s c .cluster)
    (fun c s =>
      let r := afterRelease s c .cluster
      r.fillWords c.b (memAddr c f c.lane0).toNat (c.w.sget f.data.toNat) (f.aop == 1)
        (r.relOf c.w.uid c.w.wid 2) ((c.w.sget f.cmp.toNat).toNat / 4))

/-- `give` steps 1 and 2 (R233): with its write-backs done, a place free at the target and a whole well of the block without an
open ring, it notes the give; the instruction stays at its PC until its drain completes (GIVE_DRAIN_COMPLETE). -/
def Sys2Proof.Claims.GiveBegins : Prop := ∀ f : MemForm,
  Begins (.give f) fun c s t => ∃ e : Bank,
    let slot := f.offset.toNat % 16
    let k := if f.aop = 1 then (c.w.sget f.data.toNat).toNat else f.offset.toNat / 256 % 8
    let target := coreCluster c.w.core * 8 + k
    (∀ g ∈ s.gives, ¬(g.uid = c.w.uid ∧ g.wid = c.w.wid)) ∧ assocGet c.b.bank slot = some e ∧ e.count = 16 ∧ k ≤ 7 ∧
    s.coreHasCtx target c.b.ctx = true ∧ s.ringIn (coreCluster c.w.core) e.well = false ∧ s.queued target < 24 ∧
    releaseReady s c .cluster = true ∧
    let r := released s c .cluster
    t = { r with nextId := r.nextId + 1,
                 gives := r.gives ++ [{ id := r.nextId, uid := c.w.uid, wid := c.w.wid, slot := slot, well := e.well,
                                        target := target, f := f, lanes := c.active }] }

/-- `take` (R234) parks its threads until a well of their context arrives, and maps one that has arrived at once; `wmap` owes the
bank map entry of its slot, with bit 31 set, or 0 (R235, R403). -/
def Sys2Proof.Claims.TakeAndWmap : Prop := ∀ f : MemForm,
  Performs (.take f) (fun c s => (assocGet c.b.bank (f.offset.toNat % 16)).isNone && ringReady s c) (fun c s =>
    (((s.park c .take).modCore c.w.core fun k =>
        { k with takes := k.takes ++ [{ uid := c.w.uid, wid := c.w.wid, slot := f.offset.toNat % 16, reg := f.d.toNat,
                                        pc := c.pc, lanes := c.active }] }).modWarp c.w.uid c.w.wid
      fun w => { w with outstanding := w.outstanding + 1 }).takeWell c.w.core) ∧
  Performs (.wmap f) (fun _ _ => true) (fun c s =>
    s.owe { id := 0, uid := c.w.uid, wid := c.w.wid,
            writes := [(.uni f.d.toNat,
              match assocGet c.b.bank (f.offset.toNat % 16) with
              | some e => BitVec.ofNat 32 (2 ^ 31 + e.well)
              | none => 0)] })

/-- The well instructions (class 0x20, R230 to R236): when each is performed, and what it leaves. -/
def Obligations.WellInstructions : Prop := FullEmptyAccesses ∧ WellFill ∧ GiveBegins ∧ TakeAndWmap

/-! ### Engine commands (class 0x21 to 0x23, 0x28, 0x29) -/

namespace Sys2Proof.Claims

/-- A command is issued (R39, R237, R238): its entry, its pending token and the next sequence number. -/
def begin (s : State) (c : Ic) (i : Instr) (f : EngForm) (args : List Nat) : State :=
  (s.issueCommand c i (some f.token.toNat) args).2

/-- A uniform register pair, and one register, as numbers. -/
def pair64 (c : Ic) (r : BitVec 8) : BitVec 64 := c.w.sget64 r.toNat
def word32 (c : Ic) (r : BitVec 8) (k : Nat) : Nat := (c.w.sget (r.toNat + k)).toNat

/-- A command that walks a box: its walk-ahead begins with it (R415). -/
def beginBox (s : State) (c : Ic) (i : Instr) (f : EngForm) (args : List Nat) : State :=
  let x := s.issueCommand c i (some f.token.toNat) args
  x.2.quillAhead x.1

/-- A command has read the `n` bytes of its record at `a` (R237, R238): it is aligned and in reach, and reads as `v`. -/
def lineRead (s : State) (c : Ic) (i : Instr) (a : BitVec 64) (n v : Nat) (t : State) : Prop :=
  a.toNat % 64 = 0 ∧ ∃ bs, s.engRead (s.newEngine c i) (engineUnits c.w.core) a.toNat n = (.ok bs, t) ∧ v = natOfBytes bs

/-- It has read a tensor record, which keeps its rules (R241, R242). -/
def tensorRead (s : State) (c : Ic) (i : Instr) (f : EngForm) (v : Nat) (x : Tensor) (t : State) : Prop :=
  lineRead s c i (pair64 c f.record) 64 v t ∧ tensorOf v = some x

/-- The operands of a matrix operation are good (R265, R266, R273 to R276): its records are in reach and keep their rules, its
bases are allowed in their windows, its well ranges are mapped and aligned, and its registers hold the extent. -/
def matReady (s : State) (c : Ic) (i : Instr) (conv : Bool) (f : EngForm) (args : List Nat) (t : State) : Prop :=
  let u (k : Nat) : Nat := c.uni (mmaOreg f + k)
  ∃ rec1 brec s0, lineRead s c i (pair64 c f.record) (if conv then 96 else 64) rec1 s0 ∧
    (if conv then lineRead s0 c i (c.w.sget64 (mmaReg f)) 64 brec t else brec = rec1 ∧ t = s0) ∧
    args = (if conv then [brec, u 3, u 4, fieldOf rec1 0 512, fieldOf rec1 512 256, u 0, u 1, u 2]
      else [rec1, u 0, u 1, if mmaWells f then c.uni (mmaReg f) else 0, 0, 0, 0, 0]) ++ c.scales f ∧
    let m := matOf conv f args
    (tensorOf brec).isSome = true ∧ m.bOk = true ∧
    (conv = true → (tensorOf (fieldOf rec1 0 512)).isSome = true ∧ m.convOk = true) ∧
    t.wstoreBase? c (BitVec.ofNat 64 m.b.base) false = none ∧
    (conv = true → t.wstoreBase? c (BitVec.ofNat 64 m.act.base) false = none) ∧
    (mmaWells f = true → m.well % 64 = 0 ∧ c.wellRange m.well (64 * mmaRow m.fmt) 4 = none) ∧
    t.extentOk c.b m = true

/-- A signature of a matrix operation (R261, R273): alone (conv 0x80), with its operands good, it queues the operation on the
core's matrix engine; with a cooperation register it is entered once per warp, all signers naming the same word, and the last
one, with its operands good, queues the operation for all of them. -/
def Signs (i : Instr) (conv : Bool) (f : EngForm) : Prop :=
  Follows i fun c s t =>
    let n := f.conv.toNat
    let cv := c.b.cv n
    let word := ((encode i).getD 0).setWidth 80
    let cv' : ConvReg := { cv with first := word, signers := setBit cv.signers c.w.wid true, count := cv.count + 1 }
    let put (x : ConvReg) (s : State) : State := s.modBlock c.b.uid fun b => { b with cvs := assocSet b.cvs n x }
    let queue (args : List Nat) (s1 : State) (engs : List Nat) : State :=
      let x := s1.issueCommand c i (some f.token.toNat) args
      (x.2.queueMat c.w.core x.1 (engs ++ [x.1])).matAhead x.1
    (f.conv = 0x80 ∧ ∃ args s1, matReady s c i conv f args s1 ∧ t = queue args s1 []) ∨
    (f.conv ≠ 0x80 ∧ cv.state = 1 ∧ cv.signers.getLsbD c.w.wid = false ∧ (cv.count = 0 ∨ word = cv.first) ∧
      ((cv.count + 1 = cv.n ∧ ∃ args s1, matReady s c i conv f args s1 ∧
          t = put { cv' with state := 0, engs := [] } (queue args s1 cv.engs)) ∨
        (cv.count + 1 ≠ cv.n ∧
          let x := s.issueCommand c i (some f.token.toNat) []
          t = put { cv' with engs := cv.engs ++ [x.1] } x.2)))

end Sys2Proof.Claims

/-- The asynchronous copies (R43, R233, R245): with lengths and addresses as the rules ask, well ranges mapped, and bases
allowed in their windows, each command is issued with the register values that it will work with. -/
def Sys2Proof.Claims.AsynchronousCopies : Prop := ∀ f : EngForm,
  let n := f.imm.toNat
  let store := f.mod.getLsbD 0
  let cnt := f.mod.getLsbD 1
  let acc := if store then 5 else 4
  (Follows (.acopy f) fun c s t =>
    let ga := pair64 c f.record
    let wo := word32 c f.aux 0
    let so := word32 c f.aux 1
    16 ≤ n ∧ n ≤ 786432 ∧ n % 16 = 0 ∧ ga.toNat % 16 = 0 ∧ wo % 16 = 0 ∧ (cnt = true → so % 4 = 0) ∧
    c.wellRange wo n acc = none ∧ (cnt = true → c.wellRange so 4 acc = none) ∧ s.wstoreBase? c ga store = none ∧
    t = begin s c (.acopy f) f [ga.toNat, wo, so]) ∧
  (Follows (.acopyWsl f) fun c s t =>
    let ga := pair64 c f.record
    let dst := pair64 c f.aux
    n % 64 = 0 ∧ n < 2 ^ 31 ∧ ga.toNat % 64 = 0 ∧ dst.toNat % 64 = 0 ∧ (∃ o, windowOf dst = .wstore o ∧ o + n ≤ 2 ^ 32) ∧
    (∀ d < 4, rangesMeet (d * 2 ^ 30) (2 ^ 30) (dst.toNat - 0x007FFC0000000000) n = true → (s.die d).weightLoad = true) ∧
    s.wstoreBase? c ga false = none ∧ t = begin s c (.acopyWsl f) f [ga.toNat, dst.toNat - 0x007FFC0000000000]) ∧
  (Follows (.acopySb f) fun c s t =>
    let ga := pair64 c f.record
    let dst := pair64 c f.aux
    n % 64 = 0 ∧ n < 2 ^ 31 ∧ ga.toNat % 64 = 0 ∧ dst.toNat % 64 = 0 ∧ inGlobal ga n = true ∧ inGlobal dst n = true ∧
    t = begin s c (.acopySb f) f [ga.toNat, dst.toNat]) ∧
  (Follows (.acopyT f) fun c s t => ∃ v s1 x,
    let wo := word32 c f.aux 0
    let so := word32 c f.aux 1
    let cs := c.coords f.imm.toNat
    (cnt = true → so % 4 = 0) ∧ tensorRead s c (.acopyT f) f v x s1 ∧ x.originOk cs = true ∧
    c.wellRange wo x.boxBytes acc = none ∧ (cnt = true → c.wellRange so 4 acc = none) ∧
    s1.wstoreBase? c (BitVec.ofNat 64 x.base) store = none ∧ t = beginBox s1 c (.acopyT f) f ([v, wo, so] ++ cs))

/-- Tensor tiles, gather and pool, collectives and messages (R249, R250, R253, R254, R258): with a record in reach that keeps its
rules and bases allowed in their windows, the command is issued; a collective joins its group's next operation. -/
def Sys2Proof.Claims.RecordCommands : Prop := ∀ f : EngForm,
  (Follows (.tld f) fun c s t => ∃ v s1 x, tensorRead s c (.tld f) f v x s1 ∧
    x.tileOk (c.coords f.imm.toNat) = true ∧ s1.wstoreBase? c (BitVec.ofNat 64 x.base) false = none ∧
    t = beginBox s1 c (.tld f) f (v :: c.coords f.imm.toNat)) ∧
  (Follows (.tst f) fun c s t => ∃ v s1 x, tensorRead s c (.tst f) f v x s1 ∧
    x.tileOk (c.coords f.imm.toNat) = true ∧ s1.wstoreBase? c (BitVec.ofNat 64 x.base) true = none ∧
    t = beginBox s1 c (.tst f) f (v :: c.coords f.imm.toNat)) ∧
  (Follows (.gpool f) fun c s t => ∃ v s1,
    let rowb := fieldOf v 64 32
    let nbags := fieldOf v 320 32
    let out := fieldOf v 352 32
    let base (lo : Nat) := s1.wstoreBase? c (BitVec.ofNat 64 (fieldOf v lo 64)) false
    lineRead s c (.gpool f) (pair64 c f.record) 64 v s1 ∧ zeroAt v 416 96 = true ∧ zeroAt v 384 16 = true ∧ fieldOf v 408 8 ≤ 2 ∧
    fieldOf v 400 8 ≤ 2 ∧ 1 ≤ nbags ∧ nbags ≤ 65536 ∧ rowb % 4 = 0 ∧ 4 ≤ rowb ∧ rowb ≤ 65536 ∧ out % 16 = 0 ∧
    c.wellRange out (nbags * poolElems (fieldOf v 400 8) rowb * 4) 5 = none ∧ base 0 = none ∧ base 128 = none ∧
    base 192 = none ∧ (fieldOf v 256 64 = 0 ∨ base 256 = none) ∧ t = begin s1 c (.gpool f) f [v]) ∧
  (Follows (.coll f) fun c s t => ∃ v s1,
    let n := fieldOf v 192 32
    let joined : State :=
      { s1 with groups := replaceIf (fun g => g.num == n) (fun g => { g with issued := g.issued + 1 }) s1.groups }
    lineRead s c (.coll f) (pair64 c f.record) 64 v s1 ∧ zeroAt v 320 192 = true ∧ zeroAt v 176 16 = true ∧ collOp v ≤ 4 ∧
    collRedop v ≤ 4 ∧ (collOp v = 1 ∨ collOp v = 2 → ∀ g, s1.group? n = some g → fieldOf v 288 32 < g.size) ∧
    s1.wstoreBase? c (BitVec.ofNat 64 (fieldOf v 0 64)) false = none ∧
    s1.wstoreBase? c (BitVec.ofNat 64 (fieldOf v 64 64)) true = none ∧
    t = begin joined c (.coll f) f [v, ((s1.group? n).map CollGroup.issued).getD 0]) ∧
  (Follows (.send f) fun c s t =>
    let a := pair64 c f.record
    let d := word32 c f.aux 0
    fieldOf d 0 5 ≤ 24 ∧ zeroAt d 7 1 = true ∧ zeroAt d 12 20 = true ∧ a.toNat % 64 = 0 ∧ s.wstoreBase? c a false = none ∧
    t = begin s c (.send f) f [a.toNat, d])

/-- The ring instructions (R256, R257): `rwait` of an open ring whose header has no uncorrectable error goes on with an acquire
when its ring is not empty and parks its threads otherwise; `rwait.open` opens a ring that lies in a mapped well, its tail word
set to its head; `rwait.close` closes one. -/
def Sys2Proof.Claims.RingInstructions : Prop := ∀ f : EngForm,
  (Follows (.rwait f) fun c s t => ∃ r, s.ring? (coreCluster c.w.core) f.aux.toNat = some r ∧ s.ringBad r = false ∧ ringReady s c = true ∧
    let u := s.countCommand c
    t = if u.ringHead r ≠ u.ringTail r then u.acquireEnd c.w.uid c.w.wid .device r.stamp
      else { u.park c .rwait with
              ringWaits := (u.park c .rwait).ringWaits
                ++ [{ uid := c.w.uid, wid := c.w.wid, cluster := r.cluster, num := r.num, lanes := c.active }] }) ∧
  (Follows (.rwaitOpen f) fun c s t => ∃ e,
    let off := f.imm.toNat
    let r : Ring := { cluster := coreCluster c.w.core, num := f.aux.toNat, uid := c.w.uid, well := e.well,
                      word := e.first * 1024 + off % 65536 / 4 }
    s.accessesPending c.w.uid c.w.wid = false ∧ off % 64 = 0 ∧ c.wellRange off 64 3 = none ∧
    assocGet c.b.bank (off / 65536) = some e ∧ s.ring? (coreCluster c.w.core) f.aux.toNat = none ∧
    (∃ k < 10, s.ringCap r = 2 ^ k) ∧ off % 65536 + 64 + 64 * s.ringCap r ≤ e.count * 4096 ∧
    t = (({ s with rings := s.rings ++ [r] } : State).countCommand c).wellPut (r.key 1)
      ((({ s with rings := s.rings ++ [r] } : State).countCommand c).ringHead r)) ∧
  (Follows (.rwaitClose f) fun c s t => ∃ r, s.ring? (coreCluster c.w.core) f.aux.toNat = some r ∧
    t = ({ s with rings := s.rings.filter fun x => !(x.cluster == r.cluster && x.num == r.num) } : State).countCommand c)

/-- The engine instructions (class 0x21 to 0x23, R237, R245 to R258): when each command is issued, and what its issue leaves. -/
def Obligations.EngineInstructions : Prop := AsynchronousCopies ∧ RecordCommands ∧ RingInstructions

/-- The signatures of `mma` and `mconv` (R261, R265, R273, R276). -/
def Obligations.MatrixSignatures : Prop := ∀ f : EngForm, Signs (.mma f) false f ∧ Signs (.mconv f) true f

/-! ### Tiles, accumulators and the weight store (class 0x2A to 0x2C) -/

/-- Tile and accumulator moves (R261, R264, R279, R280): none while a matrix operation of the block uses what they name; rows
below 64; each writes the cells that its lanes name and no others. -/
def Sys2Proof.Claims.TileMoves : Prop := ∀ f : RegForm,
  let d := 4096 * f.d.toNat
  let a := 4096 * f.a.toNat
  let rows (c : Ic) : Bool := (lanesOf c.active).all fun l => rowOf c f l < 64
  let cell (base : Nat) (c : Ic) (l : Nat) : Nat := base + (64 * rowOf c f l + (32 * (f.sub.toNat % 2) + l))
  let elem (base : Nat) (c : Ic) (l : Nat) : Nat := base + (64 * rowOf c f l + 2 * l)
  Performs (.tzero f) (fun c s => !s.matBusy c [] [f.d.toNat])
    (fun c s => s.modBlock c.b.uid fun b => { b with tiles := cclear b.tiles d 4096 }) ∧
  Performs (.azero f) (fun c s => !s.matBusy c [f.d.toNat] [])
    (fun c s => s.modBlock c.b.uid fun b => { b with accs := cclear b.accs d 4096 }) ∧
  Performs (.amov f) (fun c s => !s.matBusy c [f.d.toNat, f.a.toNat] [])
    (fun c s => s.modBlock c.b.uid fun b => { b with accs := cput b.accs d (cgets b.accs a 4096) }) ∧
  Performs (.tmov f) (fun c s => !s.matBusy c [] [f.d.toNat])
    (fun c s => s.modBlock c.b.uid fun b => { b with tiles := cput b.tiles d (cgets b.tiles a 4096) }) ∧
  Performs (.ald f) (fun c s => !s.matBusy c [f.a.toNat] [] && rows c) (fun c s =>
    owed c s false false fun l => (destWrite f.dc f.d false l (cget (s.blockOf c).accs (cell a c l)).toNat, 0)) ∧
  Performs (.ast f) (fun c s => !s.matBusy c [f.d.toNat] [] && rows c) (fun c s =>
    s.modBlock c.b.uid fun b =>
      { b with accs := (lanesOf c.active).foldl (fun m l => cset m (cell d c l) (c.w.vget f.a.toNat l)) b.accs }) ∧
  Performs (.tmovW f) (fun c s => !s.matBusy c [] [f.d.toNat] && rows c) (fun c s =>
    s.modBlock c.b.uid fun b =>
      { b with tiles := (lanesOf c.active).foldl (fun m l =>
          cset (cset m (elem d c l) ((c.w.vget f.a.toNat l).setWidth 16)) (elem d c l + 1)
            ((c.w.vget f.a.toNat l).extractLsb' 16 16)) b.tiles }) ∧
  Performs (.tmovR f) (fun c s => !s.matBusy c [] [] && rows c) (fun c s =>
    owed c s false false fun l =>
      (destWrite f.dc f.d false l
        ((cget (s.blockOf c).tiles (elem a c l)).toNat + 65536 * (cget (s.blockOf c).tiles (elem a c l + 1)).toNat), 0))

/-- Quantisation and conversion (R125 to R127, R281 to R283): `hqnt` writes the 64 codes of its row and block and owes the
scale; `hdeq` owes the 64 values; `aconv` writes a tile and `aconv.f32` an accumulator, every cell rounded once, and raise their
flags. -/
def Sys2Proof.Claims.Quantisation : Prop := ∀ f : RegForm,
  Performs (.hqnt f) (fun c s => !s.matBusy c [] [hqTile f]) (fun c s =>
    let r := hqResult c f
    owedOnce c (s.modBlock c.b.uid fun b =>
        (r.2.1.zip (List.range 64)).foldl (fun b x => b.tileNibPut (hqTile f) (hqByte f x.2) 2 x.1) b) r.2.2
      [(.vecB (f.d.toNat + hqRow f / 32) (hqRow f % 32) (hqBlk f), BitVec.ofNat 32 r.1)]) ∧
  Performs (.hdeq f) (fun c s => !s.matBusy c [] [] && !(hdCodes c s f).contains 0x80) (fun c s =>
    let r := hdResult c s f
    owedOnce c s r.2 ((r.1.zip (List.range 64)).map fun x =>
      (.vec (f.d.toNat + x.2 / 32) (x.2 % 32), BitVec.ofNat 32 x.1))) ∧
  (Follows (.aconv f) fun c s t => ∃ ys fl, s.matBusy c [f.a.toNat] [f.d.toNat] = false ∧
    convertCells (s.blockOf c) f.a (fun v => (tyFmt f.ty).round (modeOf f) (fmt32.dec v)) = (ys, fl) ∧
    t = (s.modWarp c.w.uid c.w.wid fun w => w.raise fl).modBlock c.b.uid fun b =>
      { b with tiles := cput b.tiles (fileBase f.d) (ys.map (BitVec.ofNat 16)) }) ∧
  (Follows (.aconvF32 f) fun c s t => ∃ ys fl, s.matBusy c [f.d.toNat, f.a.toNat] [] = false ∧
    convertCells (s.blockOf c) f.a (fun v => fmt32.round (modeOf f) (FVal.ofInt (signed32 v))) = (ys, fl) ∧
    t = (s.modWarp c.w.uid c.w.wid fun w => w.raise fl).modBlock c.b.uid fun b =>
      { b with accs := cput b.accs (fileBase f.d) (ys.map (BitVec.ofNat 32)) })

/-- Weight-store timing (R284 to R286): `wsinfo` owes the opening time of the current or the next refresh window of the die and
group that its selector names; `wswait` goes on once no window of its group overlaps the time that it asks for. -/
def Sys2Proof.Claims.WeightStoreTiming : Prop := ∀ f : RegForm,
  Performs (.wsinfo f) (fun c _ => (workLanes f.c.u c.active).all fun l => selectorOk (srcA c f false .n32 l)) (fun c s =>
    owed c s f.c.u false fun l => (destWrite f.dc f.d true l (s.wsInfo (srcA c f false .n32 l)), 0)) ∧
  Performs (.wswait f)
    (fun _ s => selectorOk (fieldOf f.imm.toNat 16 10) && decide (fieldOf f.imm.toNat 0 16 ≤ 63750)
      && s.wsClear (fieldOf f.imm.toNat 16 10) (fieldOf f.imm.toNat 0 16))
    (fun _ s => s)

/-- The tile, accumulator, quantisation and weight-store instructions (class 0x2A to 0x2C, R260 to R264, R279 to R286): when
each is performed, and what it leaves. -/
def Obligations.TileInstructions : Prop := TileMoves ∧ Quantisation ∧ WeightStoreTiming

/-! ### Stipple (class 0x30) -/

/-- Lengths, seeds, generation and logic of streams (R128 to R130, R287 to R292): with operands of the present length that are not
correlated where the instruction asks for that, the destination takes the bits and the tag that the rules give. -/
def Sys2Proof.Claims.StreamResults : Prop := ∀ f : RegForm,
  let one (c : Ic) (s : State) : Bool := lenGood (s.blockOf c) f.a
  let two (c : Ic) (s : State) : Bool := one c s && lenGood (s.blockOf c) f.b && (f.sub.getLsbD 0 || !correlated (s.blockOf c) f.a f.b)
  let put (c : Ic) (s : State) (tag : StreamTag) (x : Nat → BitVec 1024) : State :=
    s.putStream (s.blockOf c).uid f.d.toNat tag x
  let bin (op : BitVec 1024 → BitVec 1024 → BitVec 1024) (c : Ic) (s : State) : State :=
    let b := s.blockOf c
    put c s (joinTag b [f.a, f.b]) fun l => op (b.stream f.a.toNat l) (b.stream f.b.toNat l) &&& b.lenMask
  Performs (.slen f) (fun c _ => [256, 512, 1024].contains (srcA c f false .n32 c.lane0))
    (fun c s => s.modBlock c.b.uid fun b => { b with slen := srcA c f false .n32 c.lane0 }) ∧
  Performs (.sseed f) (fun c _ => classOf c f < 64) (fun c s =>
    { s with mem := writeNat s.mem (s.seedAt c.b.ctx (classOf c f)) 8 (c.w.sget64 f.a.toNat).toNat }) ∧
  Performs (.sgen f) (fun c _ => classOf c f < 64) (fun c s =>
    let b := s.blockOf c
    put c s (freshTagOf b (classOf c f)) fun l =>
      let v := if c.active.getLsbD l then min (srcA c f false .n32 l) 1023 else 0
      bitsOf b.slen fun j => 1024 * streamHash (s.seed b.ctx (classOf c f)) b.slen l j < v * b.slen) ∧
  Performs (.sregen f) (fun c s => one c s && decide (classOf c f < 64)) (fun c s =>
    let b := s.blockOf c
    put c s (freshTagOf b (classOf c f)) fun l =>
      bitsOf b.slen fun j => streamHash (s.seed b.ctx (classOf c f)) b.slen l j < popCount (b.stream f.a.toNat l &&& b.lenMask)) ∧
  Performs (.sand f) two (bin fun x y => x &&& y) ∧
  Performs (.sor f) two (bin fun x y => x ||| y) ∧
  Performs (.sxor f) two (bin fun x y => x ^^^ y) ∧
  Performs (.sxnor f) two (bin fun x y => ~~~(x ^^^ y)) ∧
  Performs (.snot f) one (fun c s =>
    let b := s.blockOf c
    put c s (joinTag b [f.a]) fun l => ~~~(b.stream f.a.toNat l) &&& b.lenMask)

/-- Selecting, shifting, copying, counting and reading tags of streams (R288, R291 to R293). -/
def Sys2Proof.Claims.StreamMoves : Prop := ∀ f : RegForm,
  let good (c : Ic) (s : State) (q : BitVec 8) : Bool := lenGood (s.blockOf c) q
  Performs (.smux f)
    (fun c s => good c s f.a && good c s f.b && good c s f.e &&
      (f.sub.getLsbD 0 || (!correlated (s.blockOf c) f.e f.a && !correlated (s.blockOf c) f.e f.b)))
    (fun c s =>
      let b := s.blockOf c
      s.putStream b.uid f.d.toNat (joinTag b [f.a, f.b, f.e]) fun l =>
        ((b.stream f.b.toNat l &&& b.stream f.e.toNat l) ||| (b.stream f.a.toNat l &&& ~~~(b.stream f.e.toNat l)))
          &&& b.lenMask) ∧
  Performs (.sshift f)
    (fun c s => good c s f.a && decide (0 < srcB c f false .n32 c.lane0 ∧ srcB c f false .n32 c.lane0 < c.b.slen))
    (fun c s =>
      let b := s.blockOf c
      s.putStream b.uid f.d.toNat { joinTag b [f.a] with derived := true } fun l =>
        bitsOf b.slen fun j => (b.stream f.a.toNat l).getLsbD ((j + b.slen - srcB c f false .n32 c.lane0) % b.slen)) ∧
  Performs (.smov f) (fun _ _ => true) (fun c s =>
    s.putStream (s.blockOf c).uid f.d.toNat ((s.blockOf c).tag f.a.toNat) fun l =>
      (s.blockOf c).stream f.a.toNat l &&& (s.blockOf c).lenMask) ∧
  Performs (.scnt f) (fun c s => good c s f.a) (fun c s =>
    owed c s false false fun l =>
      (destWrite f.dc f.d false l (popCount ((s.blockOf c).stream f.a.toNat l &&& (s.blockOf c).lenMask)), 0)) ∧
  Performs (.sclass f) (fun _ _ => true) (fun c s =>
    let t := (s.blockOf c).tag f.a.toNat
    owed c s true false fun l =>
      if f.sub = 1 then (destWrite f.dc f.d false l (t.len.toNat + 4 * t.derived.toNat), 0)
      else (destWrite f.dc f.d true l t.cmask.toNat, 0))

/-- The Stipple instructions (class 0x30, R287 to R293): when each is performed, and what it leaves. -/
def Obligations.StreamInstructions : Prop := StreamResults ∧ StreamMoves

/-! ### Events of the device: issue, results, homes -/

/-- A scheduler's cycle (R352, R355), and what arrives at a warp: with its warps' bundles formed, and none left of which it is
not known whether it can issue, it issues the warp that it chooses, unless the device is stopped or its die's clock relocks; a
line that a warp waits for arrives as its core fetches it, the second copy after a parity error too (R55, R56); a pause that has
counted down ends (R179). The trial of warps of which it is not known whether they can issue is the model's (log entry 6, DESIGN
CHOICE); a line that does not answer is asked for again (log entry 32, DEDUCED). -/
def Sys2Proof.Claims.SchedulerAndFetchEvents : Prop :=
  (∀ (core sched : Nat) (s : State) (w : Warp),
    let cycle := (s.die (coreDie core)).cycle
    let u : State := (s.schedWarps core sched).foldl (fun (s : State) w => s.setWarp (w.prepare cycle)) s
    u.plat.stopped = false → (u.die (coreDie core)).relock = none →
    ((u.schedWarps core sched).find? fun w => w.doubt && !w.stall && w.lineReady) = none → u.chooseWarp core sched = some w →
    exec (.schedulerIssueCycle core sched) s = .next (u.choose w core sched)) ∧
  (∀ (s : State) (uid wid : Nat) (flip : BitVec 512) (w : Warp) (b : LineBuf), s.warp? uid wid = some w → w.line = some b →
    let ask (last : Bool) (i : Instr) : Prop :=
      let x := s.fetchLine w b.line flip last
      (x.1.st ≠ .wanted →
        Happens i s (x.2.modWarp uid wid fun w => { w with line := some { x.1 with time := x.2.time }, askedAt := none })) ∧
      (x.1.st = .wanted → w.askedAt = none → Happens i s (x.2.modWarp uid wid fun w => w.asks x.1.line x.2.time))
    (b.st = .wanted → ask false (.lineFetch uid wid flip)) ∧ (b.st = .refetch → ask true (.lineRefetch uid wid flip))) ∧
  (∀ (s : State) (uid wid lane : Nat) (w : Warp), s.warp? uid wid = some w → (w.thread lane).st = .paused 0 →
    Happens (.pauseExpiry uid wid lane) s (s.wakeWhere uid wid fun l t => l == lane && t.st == .paused 0))

/-- Results (R38, R64, R214): a write-back writes the owed elements and flags, and the bytes of a lane whose load is back are
written, sign-extended where the load asks for it; the counter falls when all of it is in. That one event writes all owed
elements of an arithmetic result together is the model's choice (log entry 14, DESIGN CHOICE: R155 allows a mixture). -/
def Sys2Proof.Claims.ResultEvents : Prop :=
  (∀ (s : State) (n : Nat) (o : Owed), s.owed? n = some o → o.writes ≠ [] → o.after ≤ s.time → s.respNext o = true →
    let t := ((s.modWarp o.uid o.wid fun w => w.puts o.writes).modOwed n fun o => { o with writes := [], resps := [], behind := [] }).settle n
    Happens (.resultWriteback n) s (if o.strong then t.barsCheck o.uid else t)) ∧
  (∀ (s : State) (n k : Nat) (o : Owed) (p : Piece), s.owed? n = some o → o.pieces[k]? = some p → p.ready = true →
    p.done = false →
    let v := natOfBytes (p.got.map fun b => b.getD 0)
    let x := if p.signed then sext v (8 * p.size) 32 else v
    Happens (.loadSectorReturn n k) s
      (((s.modWarp o.uid o.wid fun w => w.puts (p.slots.zip ((List.range p.slots.length).map
          fun j => BitVec.ofNat 32 (x / 2 ^ (32 * j))))).modOwed n
        fun o => { o with pieces := o.pieces.set k { p with done := true } }).settle n))

/-- The events that issue, fetch and write results (R38, R55, R56, R179, R214, R352, R355): when each happens, and what it
leaves. That one event writes all owed elements of an arithmetic result together is the model's choice (log entry 14, DESIGN
CHOICE: R155 allows a mixture). The trial of warps of which it is not known whether they can issue is the model's (log entry 6,
DESIGN CHOICE); a line that does not answer is asked for again (log entry 32, DEDUCED). -/
def Obligations.IssueAndResultEvents : Prop := SchedulerAndFetchEvents ∧ ResultEvents

/-- Accesses at homes and at the well switch (R59, R227, R317, R382, R404, R417): a mark check is looked up and acknowledged,
its fault deferred to the warp's region boundary; a fill takes its home's line; a strong access whose turn has come is
performed; a forwarded request is counted; and a fill that returns fills its line of the L1 and the loads that wait for it. An
error of a well word comes as an argument of the access and is kept in `wellBad` (log entry 59, DESIGN CHOICE); the releases
that a fill carries are log entry 33 (DEDUCED), and that a strong access is performed later than the nanosecond in which it left
is log entry 98 (DEDUCED). -/
def Obligations.HomeEvents : Prop :=
  (∀ (s s1 : State) (n core : Nat) (m : Msg) (a : Access), s.msg? n = some m → m.kind = .check a core → s.lineClear m = true →
    s.reach m = true → s.homeReady a.loc a.addr = some s1 →
    let x := s1.blot a
    let u := x.2.dropMsg n
    let v := match x.1 with
      | some r => (u.unfilter a).defer a.party.uid a.party.wid a.lane r
      | none => u
    Happens (.homeMarkCheck n) s (v.send (.checkAck a.party.uid a.party.wid n core a.loc (lineOf a.addr)))) ∧
  (∀ (s : State) (n uid wid k core loc line : Nat) (m : Msg), s.msg? n = some m → m.kind = .checkAck uid wid k core loc line →
    s.respHere m = true →
    Happens (.markCheckAck n) s ((s.dropMsg n).modWarp uid wid fun w => { w with checks := w.checks.filter fun x => x != k })) ∧
  (∀ (s s1 : State) (n : Nat) (m : Msg) (f : Fill), s.msg? n = some m → m.kind = .fillReq f → s.lineClear m = true →
    s.reach m = true → s.homeReady f.loc f.line = some s1 →
    let u (e : EccOutcome) : State := if f.loc = locWstore ∧ e = .uncorrectable then s1.damageStore f else s1
    let v (e : EccOutcome) : State :=
      let y := f.owed.foldl (fun (s : State) x => s.servedBy f.core x.1 (s.placeLevel f.core f.loc f.line m.sent)) (u e)
      if f.owed.isEmpty then y else y.eccDone f.line
    let g (e : EccOutcome) : Fill :=
      { f with data := (v e).heldBytes f ((v e).lineData f.line), poison := ((v e).band f.line).poison,
               bad := if f.owed.isEmpty && f.loc != locWstore then 0 else (u e).badWords f.line,
               rels := (v e).relsOf none f.line f.bytes }
    ∀ e, Happens (.homeSliceAccess ⟨n, e⟩) s
      { v e with msgs := ((v e).msgs.filter fun y => y.id != m.id) ++ [{ m with kind := .fillReply (g e), sent := (v e).time }] }) ∧
  (∀ (s t : State) (n : Nat) (e : EccOutcome) (m : Msg) (r : Strong), s.msg? n = some m → m.kind = .strong r →
    s.strongServe m r = some t → Happens (.homeSliceAccess ⟨n, e⟩) s t) ∧
  (∀ (s : State) (n : Nat) (e : EccOutcome) (m : Msg) (r : Strong), s.msg? n = some m → m.kind = .well r →
    s.strongClear m r = true → s.reach m = true →
    Happens (.wellSwitchAccess ⟨n, e⟩) s
      (((if e = .uncorrectable ∧ r.op.reads then { s with wellBad := cset s.wellBad (r.addr / 4) 1 } else s : State).dropMsg
        n).wellHere r)) ∧
  (∀ (s : State) (n ctx va loc dev die : Nat) (m : Msg), s.msg? n = some m → m.kind = .fwd ctx va loc dev die →
    Happens (.forwardedLineRequest n) s ((s.dropMsg n).countForward ctx va loc dev die)) ∧
  (∀ (s : State) (n : Nat) (m : Msg) (f : Fill), s.msg? n = some m → m.kind = .fillReply f →
    (∀ x ∈ s.before n, ∀ g : Fill, x.kind = .fillReq g ∨ x.kind = .fillReply g → g.is f.core f.ctx f.line = false) →
    s.respHere m = true →
    let y := f.owed.foldl (fun (s : State) r => s.fillPiece f r) s
    let took := ((y.l1? f.core f.ctx f.line).map fun x => x.takes f).getD 0
    let z := (y.relsDrop (some f.core) f.line took).relsMove (some f.core)
      (f.rels.filter fun r => took.extractLsb' (r.addr % 64) 4 ≠ 0)
    let u := (z.dropMsg n).l1Mod f.core f.ctx f.line fun x => x.fill f
    Happens (.l1Fill n) s
      (if u.stillFilling f then u.l1Mod f.core f.ctx f.line fun x => { x with pending := x.pending ||| f.sectors } else u))

/-- Write-backs (R384, R330, R419): a write-back whose turn has come writes its dirty bytes to memory and is acknowledged; one
to a migrating page is held, and after 20 us refused; an acknowledgement ends the wait of the intervals that own the bytes. The
releases that a write-back carries to its home are the model's reading (log entry 33, DEDUCED). -/
def Obligations.WritebackEvents : Prop :=
  (∀ (s : State) (n : Nat) (m : Msg) (x : Wb), s.msg? n = some m → m.kind = .wb x → s.reach m = true → m.refused = false →
    (x.mig = true → m.heldAt = none → Happens (.lineWriteback n) s (s.holdMsg n)) ∧
    (∀ s1, x.mig = false → s.lineClear m = true → s.homeReady x.loc x.line = some s1 →
      let u := ((s1.dropMsg n).softWrite x.line x.mask x.data).relsMove none x.rels
      Happens (.lineWriteback n) s
        ((u.bindWake x.line 64).send (.wbAck x.owners n u.time x.core x.loc x.line)))) ∧
  (∀ (s : State) (n k t core loc line : Nat) (m : Msg) (owners : List (Nat × Nat × Word)), s.msg? n = some m →
    m.kind = .wbAck owners k t core loc line → s.respHere m = true →
    Happens (.writebackAck n) s (owners.foldl (fun (s : State) o => s.wbDone o.1 o.2.1 k o.2.2 t) (s.dropMsg n))) ∧
  (∀ (s : State) (n t : Nat) (m : Msg), s.msg? n = some m → m.heldAt = some t → t + 20000 ≤ s.time → m.refused = false →
    Happens (.migrationHoldTimeout n) s (s.refuseWrite m { code := .pageAbsent, cause := 3 }))

namespace Sys2Proof.Claims

/-- No byte of a context's DEPUSE, which a write clears (R449). -/
def notDepuse (s : State) (a : Nat) : Prop :=
  ∀ c ∈ s.ctxs, c.created = true →
    let u := s.plat.ctxbase.toNat + 1024 * c.id + 72
    a < u ∨ u + 4 ≤ a

/-- A byte of memory that takes what is written to it: none that holds RO bits (R10), none of a DEPUSE. -/
def plainByte (s : State) (a : Nat) : Prop := (∀ x ∈ s.roBytes, x.1 ≠ a) ∧ notDepuse s a

end Sys2Proof.Claims

/-- What a write leaves in memory at a home (R10, R226, R381, R384, R449). A write-back: each byte of the line whose mask bit is
set is the write-back's, every other byte of memory is what it was; RO bits keep their values, and a write of a DEPUSE clears
it. A strong access performed at its home, with no warp evicted: the bytes of its address take its new value where it writes,
and every other byte of memory is what it was. Which bytes are RO for software is the model's reading (log entry 80, DEDUCED).
-/
def Obligations.WritebackFrame : Prop :=
  (∀ (s : State) (line : Nat) (mask : BitVec 64) (data : BitVec 512), line % 64 = 0 → Memory.wf s.mem = true →
    let t := s.softWrite line mask data
    (∀ k < 64, plainByte s (line + k) → byteAt t (line + k) = if mask.getLsbD k then lineByte data k else byteAt s (line + k)) ∧
    (∀ k < 64, ∀ x ∈ s.roBytes, x.1 = line + k → notDepuse s (line + k) →
      byteAt t (line + k) &&& x.2 = byteAt s (line + k) &&& x.2) ∧
    (s.plat.ctxbase.toNat % 64 = 0 → ∀ c ∈ s.ctxs, c.created = true →
      let u := s.plat.ctxbase.toNat + 1024 * c.id + 72
      lineOf u = line → (∃ k < 4, mask.getLsbD (u % 64 + k) = true) → ∀ k < 4, byteAt t (u + k) = 0) ∧
    (∀ a, a < line ∨ line + 64 ≤ a → byteAt t a = byteAt s a) ∧ t.wells = s.wells ∧ t.warps = s.warps) ∧
  (∀ (s : State) (r : Strong), r.size ∈ [1, 2, 4, 8] → r.addr % 64 + r.size ≤ 64 → Memory.wf s.mem = true →
    (∀ w ∈ s.warps, w.resident = true) →
    let t := s.strongHere r
    let u := s.releaseFirst r
    let old := s.strongOld r
    (∀ a, a < r.addr ∨ r.addr + r.size ≤ a → notDepuse u a → byteAt t a = byteAt s a) ∧
    (∀ k < r.size, plainByte u (r.addr + k) → byteAt t (r.addr + k) =
      if strongWrites r.op r.size old then (bytesOfNat r.size (strongNew r.op r.size old r.value.toNat)).getD k 0
      else byteAt s (r.addr + k)) ∧
    t.wells = s.wells ∧ t.wellFull = s.wellFull)

/-- The L2 and its mark store (R395 to R397, R399): evicting a line writes its live mark to the line's side band, refilling a
line of HBM4 takes it in and records an error of its memory, and a back-invalidation drops a far line. -/
def Sys2Proof.Claims.CacheEvents : Prop :=
  (∀ (s : State) (line : Nat) (x : L2Line), (s.l2.find? fun y => y.line == line) = some x →
    let u : State := { s with l2 := s.l2.filter fun y => y.line != x.line }
    Happens (.l2Evict line) s (if inHbm x.line then u.setBand (s.bandOut x) else u)) ∧
  (∀ (s : State) (line : Nat) (e : EccOutcome), line % 64 = 0 → inHbm line = true →
    (s.l2.any fun x => x.line == line) = false →
    let u := s.takeLine line
    let log (v : State) : Platform := { v.plat with errlog := v.plat.errlog ++ [line] }
    Happens (.l2Refill line e) s
      (match e with
        | .clean => u
        | .correctable => { u with plat := log u }
        | .uncorrectable =>
          let v := (u.setBand { u.band line with poison := 15 }).damaged line
          { v with plat := log v, l2 := replaceIf (fun x => x.line == line) (fun x => { x with ecc := true }) v.l2 })) ∧
  (∀ (s : State) (line : Nat), inFar line = true → (s.l2.any fun x => x.line == line) = true →
    Happens (.backInvalidate line) s { s with l2 := s.l2.filter fun x => x.line != line })

/-- Deferred faults and recomputations (R213, R322, R405, R427): a warp at its region boundary, with every check in, takes its
first deferred fault; a context's rings are read again for the records that wait; its acquire floor rises at most every 512 ns;
a well that nothing will take any more goes back. -/
def Sys2Proof.Claims.FaultAndFloorEvents : Prop :=
  (∀ (s : State) (uid wid : Nat) (w : Warp) (x : Nat × FaultRec), s.warp? uid wid = some w → w.atBoundary = true →
    w.checks = [] → w.faultStall = none → s.strongBusy uid wid = false →
    bestBy (fun x y => deferredOrder x.2 < deferredOrder y.2
      || (deferredOrder x.2 == deferredOrder y.2 && x.1 < y.1)) w.deferred = some x →
    let t := w.thread x.1
    Happens (.deferredFaultDelivery uid wid) s
      (s.takeFault w { x.2 with eseq := w.eseq, rentry := if t.newRegion && !t.redo then t.pc else t.rentry })) ∧
  (∀ (s : State) (ctx : Nat), (s.cores.any fun c => c.waiting.any fun r => r.ctx == ctx) = true →
    Happens (.holdingSlotReread ctx) s (s.cores.foldl (fun (s : State) c =>
      if (s.core c.id).waiting.any fun r => r.ctx == ctx then
        let u := drainCore ((s.core c.id).waiting.length + 1) s c.id ctx
        retake (16 - (u.core c.id).holding.length) u c.id
      else s) s)) ∧
  (∀ (s : State) (ctx : Nat), (s.ctx ctx).floorAt + 512 ≤ s.time →
    let f := (s.floorWarps ctx).foldl (fun n w => min n (if w.syncWait then s.time else w.acqWide)) s.time
    Happens (.acquireFloorRecompute ctx) s (s.modCtx ctx fun c => { c with floor := max (s.ctx ctx).floor f, floorAt := s.time })) ∧
  (∀ (s : State) (core : Nat), (s.core core).arrivals.any (s.wellForgotten core) = true →
    Happens (.queuedWellRelease core) s
      (s.modCore core fun c => { c with arrivals := c.arrivals.filter fun a => !s.wellForgotten core a }))

/-- The events of the L2 and of deferred work (R213, R322, R395 to R397, R399, R405, R427): when each happens, and what it
leaves. -/
def Obligations.CacheAndFaultEvents : Prop := CacheEvents ∧ FaultAndFloorEvents

/-! ### Events of the device: engines -/

/-- Engine commands (R238, R239, R246, R258): a command that can run to its end completes its token with its status, or fails;
one that has moved some of its units and can go on keeps its place; one that finds a page absent is suspended with a record; a
counted copy moves one unit and counts it at its stage barrier; a message whose turn has come is appended to its ring; an
operation of the matrix engine reads its parts, in whatever order, and writes its accumulator once when all of them are in
(R261, R275). That one event moves k units of a command is the model's reading (log entry 60, DEDUCED), as is how long a unit
without a route waits (log entry 55, DEDUCED). -/
def Sys2Proof.Claims.EngineEvents : Prop :=
  (∀ (s : State) (n k : Nat) (e : Engine), s.running n = some e → e.selfEnds = false → e.offSince = none →
    let r := s.runEngine e k
    let u := r.s.modEngine n fun e' => { e' with progress := r.progress, heldAt := none }
    (∀ st, r.stop = .ok st → Happens (.engineCompletion ⟨n, k⟩) s (u.completeEngine n st 0)) ∧
    (∀ f, r.stop = .error (.fatal f) → Happens (.engineCompletion ⟨n, k⟩) s (r.s.failEngine e f)) ∧
    (r.stop = .error .wait → e.progress < r.progress → Happens (.engineCompletion ⟨n, k⟩) s
      ((r.s.modEngine n fun e' => { e' with progress := r.progress, heldAt := none, routeAt := none }).quillAhead n))) ∧
  (∀ (s t : State) (n : Nat) (e : Engine) (f : FaultRec), s.running n = some e → (s.runAny e).stop = .error (.repair f) →
    (s.runAny e).s.putRecord e.core { f with src := 1 } true = some t →
    Happens (.engineSuspend n) s
      (t.modEngine n fun x => if x.st == .running then { x with st := .suspended, progress := (s.runAny e).progress, heldAt := none }
        else x)) ∧
  (∀ (s s1 : State) (n : Nat) (e : Engine) (y : Option Nat), s.running n = some e → e.counts = true → e.progress < e.units →
    s.engUnit e e.progress = (.ok y, s1) → s1.barrierBad e = false →
    let x := (s1.modEngine n fun e' => { e' with progress := e'.progress + 1, heldAt := none, routeAt := none }).countUnit e (e.unitBytes e.progress)
    Happens (.stageBarrierCount n) s (if x.1 then x.2.completeEngine n 2 0 else x.2.quillAhead n)) ∧
  (∀ (s s1 : State) (n : Nat) (e : Engine) (bs : List Byte), s.running n = some e → e.isSend = true → s.sendBefore e = false →
    s.engRead e (engineUnits e.core) (e.arg 0) 64 = (.ok bs, s1) →
    (s1.ring? (sendCluster (e.arg 1)) (sendRing (e.arg 1)) = none → Happens (.ringAppend n) s (s1.completeEngine n 3 0)) ∧
    (∀ r, s1.ring? (sendCluster (e.arg 1)) (sendRing (e.arg 1)) = some r → s1.ringBad r = false →
      s1.ringRoom r = true → Happens (.ringAppend n) s ((s1.ringAppend r bs (s1.engRel e 4)).completeEngine n 0 0))) ∧
  (∀ (s s1 : State) (core n : Nat) (ks : List Nat) (ecc : EccOutcome) (e e1 : Engine) (m : Mat) (cells : List Word),
    s.matHead core = some e → e.mat? = some m → matRead e m ks (s.damagePart e m ks ecc) 0 = (none, n, s1) → s1.engine? e.id = some e1 →
    (m.parts ≤ e1.got.length → s1.matCells e1 m = some cells →
      Happens (.matrixOpComplete ⟨core, ks, ecc⟩) s (e1.signers.foldl (fun (s : State) id => s.completeEngine id 0 0)
        (((s1.modBlock e1.uid fun b => { b with accs := cput b.accs (4096 * m.acc) cells }).accSaved e1.uid m.acc).matPop core))) ∧
    (e1.got.length < m.parts → n ≠ 0 → Happens (.matrixOpComplete ⟨core, ks, ecc⟩) s (s1.matAhead e1.id)))

/-- Collectives between devices (R254, R255): a partial result or the root's result is taken in once, one for another operation
or of another length fails the collective, an abort or a timeout ends the operation with its status (1 with the code, or 2).
That a message holds a whole vector, and that one of another length fails the collective, is the model's reading (log entry 22,
DEDUCED). -/
def Sys2Proof.Claims.CollectiveEvents : Prop :=
  (∀ (s s1 : State) (n child : Nat) (data : List Byte) (e e1 : Engine) (g : CollGroup), s.collective n = some e →
    s.group? (fieldOf (e.arg 0) 192 32) = some g → data.length = collBytes (e.arg 0) g.size →
    s.collWithOwn e g = (.ok e1, s1) →
    let h := collHead (e.arg 0)
    (g.isRoot = false → e1.result = none →
      Happens (.collPartialReceive n child true ⟨h, data⟩) s (s1.modEngine n fun _ => { e1 with result := some data })) ∧
    ((s1.childRanks g).contains child = true → assocGet e1.partials (childKey child) = none →
      Happens (.collPartialReceive n child false ⟨h, data⟩) s
        (s1.modEngine n fun _ => { e1 with partials := e1.partials ++ [(childKey child, data)] }))) ∧
  (∀ (s : State) (n child : Nat) (root : Bool) (h : CollHead) (data : List Byte) (e : Engine) (g : CollGroup),
    s.collective n = some e → s.group? (fieldOf (e.arg 0) 192 32) = some g →
    (h ≠ collHead (e.arg 0) ∨ data.length ≠ collBytes (e.arg 0) g.size) →
    Happens (.collPartialReceive n child root ⟨h, data⟩) s (s.failEngine e (s.engRecord e .illegal 0 0))) ∧
  (∀ (s : State) (n : Nat) (code : Byte) (e : Engine) (f : EngForm), s.engine? n = some e → e.op = .coll f → e.st ≠ .done →
    Happens (.collAbortReceive n code) s
      ((s.completeEngine n 1 code.toNat).report e.core { s.engRecord e .illegal 0 0 with code := code, src := 2 })) ∧
  (∀ (s : State) (n : Nat) (e : Engine), s.engine? n = some e → isColl e.op = true → e.st ≠ .done → e.offSince = none →
    e.issued + e.paused + 1000 * (if fieldOf (e.arg 0) 256 32 = 0 then 1000000 else fieldOf (e.arg 0) 256 32) ≤ s.time →
    Happens (.collTimeout n) s (s.completeEngine n 2 0))

/-- The completion of `give` (R233 steps 3 to 5): once the well has drained, lanes that wait on its words fault WELL.DETACHED, the
giver's slot is free, it releases at cluster scope, the well arrives at its target, and the `give` is performed in sequence. -/
def Sys2Proof.Claims.GiveCompletes : Prop :=
  ∀ (s : State) (n : Nat) (g : Give) (w w' : Warp) (x : Bundle) (b' : Block), (s.gives.find? fun g => g.id == n) = some g →
    s.warp? g.uid g.wid = some w → w.bundle = some x → s.drained (coreCluster w.core) g.well = true →
    let a := (((s.waitersIn (coreCluster w.core) g.well).foldl (fun (s : State) x => s.waitFault x .wellDetached) s).modBlock g.uid
      fun b => { b with bank := assocDel b.bank g.slot }).releaseNow g.uid g.wid .cluster
    let stamp := ((a.warp? g.uid g.wid).map Warp.relStamp).getD 0
    let ctx := ((a.block? g.uid).map Block.ctx).getD 0
    let t := (({ a with gives := a.gives.filter fun y => y.id != n } : State).modCore g.target fun c =>
      { c with arrivals := c.arrivals ++ [{ well := g.well, giver := w.core, ctx := ctx, stamp := stamp }] }).takeWell g.target
    t.warp? g.uid g.wid = some w' → t.block? g.uid = some b' →
    Happens (.giveDrainComplete n) s
      (t.retire { w := w', b := b', pc := x.pc, bundle := x.mask, active := g.lanes } (.give g.f) fun _ n => n)

/-- The events of engine commands, collectives and `give` (R233, R238, R239, R246, R254, R258): when each happens, and what it
leaves. That a message holds a whole vector, and that one of another length fails the collective, is the model's reading (log
entry 22, DEDUCED). That one event moves k units of a command is the model's reading (log entry 60, DEDUCED), as is how long a
unit without a route waits (log entry 55, DEDUCED). -/
def Obligations.EngineAndCollectiveEvents : Prop := EngineEvents ∧ CollectiveEvents ∧ GiveCompletes

/-! ### Events of the device: placement and completion -/

/-- Distribution (R346 to R349, R362, R374): of the entries of the queues the first in order that may be is accepted, of the
blocks that wait to be restored the first in order, when none can be the next of a grid is placed or is noted as skipped, and a
grid skipped for 100 us holds back what follows it. -/
def Sys2Proof.Claims.PlacementEvents : Prop :=
  (∀ (s : State) (x : Entry), s.plat.stopped = false → s.nextEntry = some x → Happens .gridAccept s (s.acceptEntry x)) ∧
  (∀ (s t : State) (x : Waiting), s.plat.stopped = false → s.placeOne = (some x, t) →
    x ∈ s.pending ∧ Happens (match x with
      | .back b => .restore b.uid
      | .grid _ | .block _ => .blockPlace) s t) ∧
  (∀ (s t : State), s.plat.stopped = false → s.placeOne = (none, t) →
    (∃ x ∈ s.pending, ∃ g, s.grid? x.gid = some g ∧ g.skipSince = none) → Happens .blockPlace s t) ∧
  (∀ (s t : State) (x : Waiting) (xs : List Waiting), s.pending = x :: xs → s.tryWaiting x [] = (true, t) →
    s.placeOne = (some x, t.unskip x.gid)) ∧
  (∀ (s : State) (gid t : Nat) (g : Grid), s.grid? gid = some g → g.st = .accepted → g.blocking = false → g.skipSince = some t →
    t + 100000 ≤ s.time → Happens (.gridSkipTimeout gid) s (s.modGrid gid fun g => { g with blocking := true }))

/-- Completion (R176, R189, R196 to R198, R350, R363, R369, R370): a warp whose threads have all exited with nothing outstanding
leaves its slot; a block retires when all its warps have and its children are folded; a grid retires when its blocks and
children are done; the next child in spawn order folds; a phase's waits end, and it starts or makes way for a higher block; a
slice boundary is passed. That what has come free is offered to waiting work before time goes on (`freed`) is the model's
reading (log entry 104, DEDUCED). -/
def Sys2Proof.Claims.CompletionEvents : Prop :=
  (∀ (s : State) (uid wid : Nat) (w : Warp), s.warp? uid wid = some w → w.holds = true → w.allExited = true →
    w.outstanding = 0 → w.acq = none → (∀ e ∈ s.engines, e.uid = uid → e.wid = wid → e.st = .done) →
    Happens (.warpRelease uid wid) s { s.leaveSlot w with freed := true }) ∧
  (∀ (s : State) (uid : Nat) (b : Block), s.block? uid = some b → b.st = .resident → s.allReleased uid = true →
    b.spawned ≤ b.folded →
    let u := (s.closeRings uid).modBlock uid Block.givenBack
    Happens (.blockRetire uid) s
      { (if b.parent.isSome then u else u.modGrid b.gid fun g => { g with retiredBlocks := g.retiredBlocks + 1 }).traceEvent
          (coreDie b.core) 3 none none none none b.ctx with freed := true }) ∧
  (∀ (s : State) (gid : Nat) (g : Grid), s.grid? gid = some g → s.gridDone g = true →
    let u := s.modGrid gid fun g => { g with st := .retired }
    let v := match g.token with
      | some e => u.completeEngine e 0 0
      | none => u
    Happens (.gridRetire gid) s (match g.task with
      | some (q, i) => taskEnd (v.tasks.length + 1) v q i none
      | none => v)) ∧
  (∀ (s s1 : State) (parent : Nat) (p c : Block), s.block? parent = some p →
    (s.blocks.find? fun b => b.parent == some (parent, p.folded)) = some c → c.st = .merging → (c.merge.getD {}).stopped = false →
    ((c.merge.getD {}).merged = false → Happens (.childFold parent) s (s.foldEnd parent c.uid)) ∧
    ((c.merge.getD {}).merged = true →
      foldViews p c (c.merge.getD {}).view (c.merge.getD {}).elem (c.views.drop (c.merge.getD {}).view) s = (none, s1) →
      Happens (.childFold parent) s (s1.foldEnd parent c.uid))) ∧
  (∀ (s : State) (uid : Nat) (b : Block), s.block? uid = some b → b.st = .phase false →
    (s.engines.any fun e => e.uid == uid && !(e.st == .done)) = false →
    (b.phase.any PhaseOp.wc = true →
      (s.grids.any fun g => g.parentBlock == some uid && (g.st == .queued || g.st == .accepted)) = false ∧
      (s.tasks.any fun t => t.parentBlock == uid && (t.state == 1 || t.state == 2)) = false) →
    Happens (.phaseReady uid) s (s.modBlock uid fun b =>
      { b with st := .phase true, readySince := s.time, readyCyc := s.homeCycle (s.gridOf b).launch.queue })) ∧
  (∀ (s s1 t : State) (uid : Nat) (b : Block), s.block? uid = some b → b.st = .phase true → s.holdsCore b = true →
    (s.higherWaits b = true → Happens (.phaseStart uid) s (s.phaseLeave uid)) ∧
    (s.higherWaits b = false →
      spillFor { b := b, seat := .phase, cores := [] } (coreCluster b.core) s.blocks.length s = some s1 →
      s1.phaseBegin uid b.core = some t → Happens (.phaseStart uid) s t) ∧
    (s.higherWaits b = false → spillFor { b := b, seat := .phase, cores := [] } (coreCluster b.core) s.blocks.length s = none →
      Happens (.phaseStart uid) s (s.phaseLeave uid))) ∧
  (∀ (s : State) (t : Nat), s.nextBoundary = some t → t ≤ s.time →
    let tab := (s.plat.nextSlices.map Prod.fst).getD s.plat.slices
    let u : State := { s with plat := { s.plat with slices := tab, nextSlices := none, sliceAt := some t,
                                                    sliceOwner := tab.ownerAt t } }
    Happens .gangBoundary s ((List.range Config.nDies).foldl
      (fun (s : State) d => s.traceEvent d 9 none none none none ((tab.ownerAt t).getD 0xFFFF)) (u.gangColls t)))

/-- The events that place work and end it (R176, R189, R196 to R198, R346 to R350, R363, R369, R370, R374): when each happens,
and what it leaves. That what has come free is offered to waiting work before time goes on (`freed`) is the model's reading (log
entry 104, DEDUCED). -/
def Obligations.DistributionEvents : Prop := PlacementEvents ∧ CompletionEvents

/-! ### The host -/

/-- The host's writes (R438, R441, R473 to R475): a register of a function's BAR0, the trace registers, memory through BAR2
while it is open and the addresses exist (a read answers with what stands there), and a doorbell, which reads its queue's
header. The place of the address-range entries (R377) among the registers is the model's choice (log entry 71). That function
n's registers stand at n times 64 MiB and that its queue q is 16 n + q is the model's choice (log entry 52, DESIGN CHOICE). -/
def Sys2Proof.Claims.HostWrites : Prop :=
  (∀ (s : State) (offset : Nat) (v : BitVec 64), offset / barBytes ≤ 64 → s.plat.recovery = false →
    Happens (.registerWrite offset v) s (s.barWrite (offset / barBytes) (offset % barBytes) v)) ∧
  (∀ (s : State) (d k w : Nat) (v : BitVec 64), d < Config.nDies → k < 64 → w < 3 → s.barOpen = true →
    Happens (.registerWrite (64 * barBytes + 2048 * d + 32 * k + 8 * w) v) s (s.putRange d k w v)) ∧
  (∀ (s : State) (die : Nat) (v : BitVec 64), s.barOpen = true → die < Config.nDies → (s.die die).trace.en = true ∨ v.getLsbD 0 = false →
    Happens (.trctlWrite die v) s (s.modDie die fun d =>
      { d with trace := { (s.die die).trace with ctl := v &&& ~~~(0xC0FC#64), on := (s.die die).trace.on && v.getLsbD 0 } })) ∧
  (∀ (s : State) (die : Nat) (v : BitVec 32), s.barOpen = true → die < Config.nDies → v.getLsbD 31 = true →
    Happens (.trstatWrite die v) s (s.modDie die fun d =>
      { d with trace := { d.trace with lost := false, drop := 0, on := d.trace.en } })) ∧
  (∀ (s : State) (x : HostAccess), s.plat.recovery = false → s.plat.wipe = false →
    let a := s.plat.winbase.toNat + x.offset
    let bytes := x.data.take x.len
    (x.write = true → x.offset + bytes.length ≤ 2 ^ 36 →
      (∀ k < bytes.length, s.hostReach (a + k) = true ∧ s.hostWritable (a + k) = true) →
      Happens (.hostBar2Access x) s (((s.softBytes a bytes).storeMended a bytes.length).bindWake a bytes.length)) ∧
    (x.write = false → x.offset + x.len ≤ 2 ^ 36 → (∀ k < x.len, s.hostReach (a + k) = true) →
      Happens (.hostBar2Access x) s
        { s with freeCtr := s.freeCtr + 1,
                 plat := { s.plat with hostReads := s.plat.hostReads ++ [(List.range x.len).map fun k => s.hostByte (a + k)] } })) ∧
  (∀ (s : State) (q : Nat) (r : QueueRun), s.cmdsRun = true → q < 1024 → s.queueHdr q = some r →
    let qs := sortBy (fun x y => x.queue < y.queue) (r :: s.plat.queues.filter fun r => r.queue != q)
    Happens (.doorbellWrite q) s (({ s with plat := { s.plat with queues := qs } } : State).rejectAll))

/-- Enabling a die's trace (R438 to R440): the pointer and the time start again, recording goes on unless a write was lost, every
scheduler of the die loads its sampling register anew, and a sync record with the reason 0 is written. -/
def Sys2Proof.Claims.TraceEnable : Prop :=
  ∀ (s : State) (die : Nat) (v : BitVec 64), s.barOpen = true → die < Config.nDies → (s.die die).trace.en = false →
    v.getLsbD 0 = true →
    Happens (.trctlWrite die v) s
      (let u := s.modDie die fun d => { d with trace :=
        { (s.die die).trace with ctl := v &&& ~~~(0xC0FC#64), ptr := 0, on := !(s.die die).trace.lost, last := s.time,
                                 enAt := s.time } }
      (u.modCores fun c =>
        if coreDie c.id = die then
          { c with scheds := c.scheds.map fun x => { x with lfsr := 0, nextAt := 0, tagAt := [], prevTags := [] } }
        else c).tracePut die (syncRec u die 0))

/-- The writes of the host (R438, R440, R441, R473 to R475): when each happens, and what it leaves. That function n's registers
stand at n times 64 MiB and that its queue q is 16 n + q is the model's choice (log entry 52, DESIGN CHOICE). -/
def Obligations.HostRegisterEvents : Prop := HostWrites ∧ TraceEnable

namespace Sys2Proof.Claims

/-- A command whose turn it is, malformed heads before it turned away, once its arguments are good (R475): it leaves its queue,
has the effect that `go` gives, and its completion is written with status 0. -/
def Commanded (i : Instr) (mine : Nat → Bool) (go : Nat → State → State → Prop) : Prop :=
  ∀ (s t : State) (r : QueueRun) (v : Nat), s.cmdsRun = true → s.rejectAll.nextCmd = some (r, v) →
    mine v = true → go v (s.rejectAll.queuePop r) t → Happens i s (t.hostDone (cmdDone v) (cmdIrq v) (cmdCtx v) 0 0).rejectAll

end Sys2Proof.Claims

/-- The host's commands (R369, R408, R423, R432, R456, R460, R469, R475): launch a grid, create, reload and kill a context,
write the partition, slice and collective tables, enter and leave weight-load state, set the context base, and write power
control and stitch registers. The split of the collective-groups argument into a first group and a count is the model's choice
(log entry 25, DESIGN CHOICE); a slice table written over a pending one (log entry 51) and the base taken from the address field
(log entry 50) are its reading (DEDUCED). -/
def Obligations.HostCommands : Prop :=
  (∀ (s : State) (r : QueueRun) (v : Nat) (l : Launch) (k : Kernel) (p : Partition), s.cmdsRun = true →
    s.rejectAll.nextCmd = some (r, v) → cmdOp v = 1 →
    let u := s.rejectAll.queuePop r
    (u.ctx (cmdCtx v)).lives = true → cmdAddr v % 64 = 0 → u.checkLaunch (cmdCtx v) (readNat u.mem (cmdAddr v) 128) = some (l, k, p) →
    Happens .cmdLaunch s (u.newGrid { gid := 0, ctx := cmdCtx v, depth := 0, launch := l, kernel := k, partition := p,
                                      host := some (cmdDone v, cmdIrq v) }).2.rejectAll) ∧
  Commanded .cmdCreateContext (isCmd 2) (fun v s t =>
    let u := s.modCtx (cmdCtx v) fun c =>
      { c.load (s.ctxHeader (cmdCtx v)) with created := true, dead := false, fqovf := 0, fn := s.plat.lastQueue / 16 }
    let x := u.homeBytes (u.plat.ctxbase.toNat + 1024 * cmdCtx v + 128) (List.replicate 512 0)
    t = (x.ctxRo (cmdCtx v)).ctxRecord32 (cmdCtx v) 76 0) ∧
  Commanded .cmdKillContext (isCmd 3) (fun v s t => (s.ctx (cmdCtx v)).lives = true ∧
    t = (s.reportFailed (s.killContext (cmdCtx v) 0).1).reports 0 (s.killContext (cmdCtx v) 0).2) ∧
  Commanded .cmdWritePartitionTable (isCmd 4) (fun v s t => ∃ ps,
    allSome ((List.range 16).map fun k => partitionOf (readNat s.mem (cmdAddr v + 64 * k) 64)) = some ps ∧
    t = { s with plat := { s.plat with partitions := ps } }) ∧
  Commanded .cmdWriteSliceTable (isCmd 5) (fun v s t => ∃ x, slicesOf (readNat s.mem (cmdAddr v) 64) = some x ∧
    ((s.plat.slices.n ≠ 0 ∧ t = { s with plat := { s.plat with nextSlices := some (x, none) } }) ∨
      (s.plat.slices.n = 0 ∧ x.n ≠ 0 ∧ t = { s with plat := { s.plat with nextSlices := some (x, some (x.first s.time)) } }) ∨
      (s.plat.slices.n = 0 ∧ x.n = 0 ∧ s.plat.nextSlices = none ∧ t = { s with plat := { s.plat with slices := x } }) ∨
      (s.plat.slices.n = 0 ∧ x.n = 0 ∧ ∃ y at', s.plat.nextSlices = some (y, at') ∧
        t = { s with plat := { s.plat with nextSlices := some (x, at') } }))) ∧
  Commanded .cmdWriteCollGroups (isCmd 6) (fun v s t => ∃ gs,
    let first := fieldOf (cmdArg v) 0 32
    let n := fieldOf (cmdArg v) 32 32
    first + n ≤ 4096 ∧
    allSome ((List.range n).map fun k => groupOf (first + k) (readNat s.mem (cmdAddr v + 32 * k) 32)) = some gs ∧
    t = { s with groups := (s.groups.filter fun g => !(first ≤ g.num && g.num < first + n)) ++ gs }) ∧
  Commanded .cmdEnterWeightLoad (isCmd 7) (fun v s t => ∃ ds, diesOf (cmdArg v) = some ds ∧ ds.any s.dieBusy = false ∧
    t = ds.foldl (fun (s : State) d => s.modDie d fun x => { x with weightLoad := true }) s) ∧
  Commanded .cmdLeaveWeightLoad (isCmd 8) (fun v s t => ∃ ds, diesOf (cmdArg v) = some ds ∧
    t = ds.foldl (fun (s : State) d => s.modDie d fun x => { x with weightLoad := false }) s) ∧
  Commanded .cmdSetCtxbase (isCmd 9) (fun v s t => s.ctxs.any Ctx.lives = false ∧
    t = { s with plat := { s.plat with ctxbase := BitVec.ofNat 64 (cmdAddr v) } }) ∧
  Commanded .cmdWritePowerControl (fun v => isCmd 10 v && cmdReg v == 0) (fun v s t =>
    let fmax := fieldOf (cmdAddr v) 40 8
    let fmin := fieldOf (cmdAddr v) 32 8
    let cap := fieldOf (cmdAddr v) 10 10
    8 ≤ fmax ∧ fmax ≤ 40 ∧ 8 ≤ fmin ∧ fmin ≤ fmax ∧ 150 ≤ cap ∧ cap ≤ 700 ∧
    t = s.modDie (fieldOf (cmdArg v) 0 2) fun d => { d with fmax := fmax, fmin := fmin, cap := cap }) ∧
  Commanded .cmdWriteStitch (fun v => isCmd 10 v && cmdReg v != 0) (fun v s t =>
    let d := fieldOf (cmdArg v) 0 2
    let k := cmdReg v - 1
    let es := (List.range 4).map fun j => ((s.die d).stitch.getD j 0).toNat
    stitchOk (((List.range 4).filter fun j => j != k).map fun j => es.getD j 0) (cmdAddr v) = true ∧
    t = s.modDie d fun x => { x with stitch := (es.set k (cmdAddr v)).map (BitVec.ofNat 64) }) ∧
  Commanded .cmdReloadContext (isCmd 11) (fun v s t => (s.ctx (cmdCtx v)).lives = true ∧
    t = (s.modCtx (cmdCtx v) fun c => c.load (s.ctxHeader (cmdCtx v))).ctxRo (cmdCtx v))

/-! ### The platform -/

/-- Power and heat (R35, R458 to R462): a comparison each 10 us moves the clock by the power loop, a relock ends and the die
goes on at its new frequency, 105 degrees hold it at its lowest until 95 are passed, and 115 stop the device and kill every
context. How thr is kept, and the catch-up of a die after a relock, are the model's reading (log entry 54, DEDUCED). -/
def Sys2Proof.Claims.PowerEvents : Prop :=
  (∀ (s : State) (die mw tc : Nat), die < Config.nDies → (s.die die).lastPower + 10000 ≤ s.time → (s.die die).relock = none →
    s.plat.stopped = false →
    let d := s.die die
    let f := d.compare mw
    let u := (s.sensed die mw tc).modDie die fun x =>
      { x with lastPower := s.time, thr := f < 100 * d.fmax && (d.thr || d.hot || f < d.fMHz) }
    Happens (.powerCompare die ⟨mw, tc⟩) s (if f = d.fMHz then u else u.freqStep die f)) ∧
  (∀ (s : State) (die t : Nat), (s.die die).relock = some t → t ≤ s.time → s.plat.stopped = false →
    let u := s.modDie die fun d =>
      { d with relock := none, fMHz := d.nextMHz, fstept := t % 2 ^ 64, fstepc := d.cycle % 2 ^ 64, frac := 0 }
    Happens (.pllRelockDone die) s ((u.catchUp die (u.time - t)).syncPut die 1)) ∧
  (∀ (s : State) (die tc : Nat), die < Config.nDies → (s.die die).hot = false → 105 ≤ tc → s.plat.stopped = false →
    let d := s.die die
    let u := (s.sensed die d.meanMw tc).modDie die fun x => { x with hot := true, thr := x.fmin < x.fmax }
    Happens (.thermalThrottle ⟨die, tc⟩) s
      (if d.relock.isSome then u.modDie die fun x => { x with nextMHz := 100 * x.fmin }
       else if d.fMHz = 100 * d.fmin then u else u.freqStep die (100 * d.fmin))) ∧
  (∀ (s : State) (die tc : Nat), (s.die die).hot = true → tc < 95 →
    Happens (.thermalRecover ⟨die, tc⟩) s ((s.sensed die (s.die die).meanMw tc).modDie die fun d => { d with hot := false })) ∧
  (∀ (s : State) (die tc : Nat), die < Config.nDies → (s.die die).hot = true → 105 ≤ tc → s.plat.stopped = false →
    Happens (.thermalThrottle ⟨die, tc⟩) s (s.sensed die (s.die die).meanMw tc)) ∧
  (∀ s : State, (s.dies.any fun d => 115 ≤ d.tempC) = true → s.plat.ttrip = false →
    let u : State := { s with plat := { s.plat with stopped := true, ttrip := true } }
    Happens .thermalTrip s
      (((u.ctxs.filter Ctx.lives).foldl (fun (s : State) c =>
        (s.reportFailed (s.killContext c.id 0).1).reports 0 (s.killContext c.id 0).2) u).interrupt 6 none))

/-- Windows, links and other devices (R284, R334, R467, R468): a refresh window opens and closes at its times; an access from
another device is performed at this one's home, checked when it asks for it; a link goes down; what has no route for 100 us
fails. That no route is left only when all 36 ports are down is the model's reading (log entry 55, DEDUCED). -/
def Sys2Proof.Claims.LinkAndWindowEvents : Prop :=
  (∀ (s : State) (die group : Nat), die < Config.nDies → group < 64 → (s.die die).openGroups.contains group = false →
    windowOpenAt (s.die die).t0 group s.time = true →
    Happens (.wsWindowOpen die group) s (s.modDie die fun d => { d with openGroups := group :: d.openGroups })) ∧
  (∀ (s : State) (die group : Nat), (s.die die).openGroups.contains group = true →
    windowOpenAt (s.die die).t0 group s.time = false →
    Happens (.wsWindowClose die group) s
      (s.modDie die fun d => { d with openGroups := d.openGroups.filter fun g => g != group })) ∧
  (∀ (s s1 : State) (r : PeerReq), s.trained = true → s.plat.isPeer r.dev = true → (inHbm r.addr || inWstore r.addr) = true →
    r.addr % 64 + r.len ≤ 64 → r.len ≠ 0 → r.write = (peerStrong r.op).mayWrite → s.peerTurn r = true →
    s.hostReach r.addr = true → s.homeReady (if inHbm r.addr then locLocal else locWstore) r.addr = some s1 →
    let rest := s1.peerLast.filter (fun x => !(x.1 == r.dev && x.2.1 == lineOf r.addr))
    let u : State := { s1 with peerLast := (r.dev, lineOf r.addr, r.seq) :: rest }
    let b := if (peerStrong r.op).reads then u.readFault r.addr r.len else (none, u)
    let stop := b.1.isSome && r.label != 0
    let x := if r.chk && !stop then b.2.blot (peerAccess r (b.2.ctx r.ctx).phase b.2.time) else (none, b.2)
    Happens (.peerRequest r) s
      (if stop || (x.1.isSome && r.label != 0) || !inHbm r.addr then x.2 else x.2.peerWrite r)) ∧
  (∀ (s : State) (port : Nat), s.trained = true → port < 36 → s.plat.linksDown.contains port = false →
    Happens (.linkDown port) s
      (({ s with plat := { s.plat with
          linksDown := port :: s.plat.linksDown,
          noRouteSince := if s.plat.linksDown.length = 35 then some s.time else s.plat.noRouteSince } } : State).interrupt 5 none)) ∧
  (∀ (s t : State) (n : Nat) (m : Msg), s.routeLost = true → s.msg? n = some m → m.sent + 100000 ≤ s.time →
    s.noRoute m = some t → Happens (.routeTimeout n) s t) ∧
  (∀ (s t : State) (n : Nat) (e : Engine), s.routeLost = true → s.msg? n = none → s.running n = some e →
    s.noRouteEngine e = some t → Happens (.routeTimeout n) s t)

/-- The events of power, heat, refresh windows, links and other devices (R284, R334, R458 to R462, R467, R468): when each
happens, and what it leaves. How thr is kept, and the catch-up of a die after a relock, are the model's reading (log entry 54,
DEDUCED). That no route is left only when all 36 ports are down is the model's reading (log entry 55, DEDUCED). -/
def Obligations.PowerAndLinkEvents : Prop := PowerEvents ∧ LinkAndWindowEvents

/-- Sampling (R439, R440): an interval starts when the last one has passed, draws its instant and is due again after its length;
a sample whose results are in is written as a record, with its fetch time and the level that served it. The time field, as the
time at which the line was fetched, and the free latencies are the model's choice (log entry 6, DESIGN CHOICE). -/
def Sys2Proof.Claims.SamplingEvents : Prop :=
  (∀ (s : State) (core sched : Nat), (s.die (coreDie core)).trace.en = true → (s.die (coreDie core)).trace.sint ≠ 0 →
    sched < 4 → core < 800 →
    let t := (s.die (coreDie core)).trace
    let x := (s.core core).sched sched
    let start := max x.nextAt t.enAt
    start ≤ s.time →
    let r := lfsrDraw (if x.lfsr = 0 then lfsrLoad t.enAt core sched else x.lfsr)
    Happens (.sampleIntervalStart core sched) s (s.modCore core fun c => c.setSched sched
      { x with lfsr := r, nextAt := start + 1000 * t.sint, tagAt := x.tagAt ++ [start + r.toNat * t.sint * 1000 / 65536] })) ∧
  (∀ (s : State) (core sched : Nat) (p : Sample), ((s.core core).sched sched).samples.find? s.sampleDone = some p →
    let x := (s.sampleLevel p).2
    let y := (x.core core).sched sched
    let u := x.modCore core fun c => c.setSched sched { y with samples := y.samples.erase p }
    let body := p.record core sched (s.sampleLevel p).1 (Config.sampleLatency x.freeCtr).toNat
    Happens (.sampleRecordWrite core sched) s ({ u with freeCtr := u.freeCtr + 1 }.traceRec (coreDie core) 2 body) ∧
      fieldOf body 448 64 = p.time % 2 ^ 64 ∧ fieldOf body 393 55 = p.pc.toNat ∧ fieldOf body 361 32 = p.eseq.toNat ∧
      fieldOf body 344 17 = p.slot % 2 ^ 17 ∧ fieldOf body 328 16 = p.ctx % 2 ^ 16 ∧
      fieldOf body 245 3 = (s.sampleLevel p).1 % 8 ∧ fieldOf body 239 6 = p.cls % 64 ∧ fieldOf body 229 6 = p.nact % 64 ∧
      fieldOf body 228 1 = p.fault.toNat ∧ fieldOf body 224 2 = sched % 4 ∧ fieldOf body 216 8 = coreInDie core % 256)

/-- Time, firmware and resets (R464, R465, R478 to R482): a PTP exchange of the domain and of a port that counts sets the lock,
its rate and, before any context lives, the time; without one for 2 s the lock is lost; a wipe ends after its time, and an image
is verified; a reset of either kind starts the device again, a change of the life cycle with its new state; an SPDM request is
answered. What a reset and an accepted image leave is the model's reading (log entry 53, DEDUCED), and so is the servo's rate as
an argument (log entry 54, DEDUCED); the answer to an SPDM request is free (log entry 5, DESIGN CHOICE). -/
def Sys2Proof.Claims.TimeAndResetEvents : Prop :=
  (∀ (s : State) (x : PtpSync), s.hearsSync x = true →
    let p := s.plat
    let n := if x.offset.natAbs < 20 then p.syncs + 1 else 0
    let step := if p.ptplock || s.ctxs.any Ctx.lives then 0 else x.stepNs
    Happens (.ptpSync x) s
      (({ s with time := s.time + step,
                 plat := { p with syncs := n, lastSync := s.time + step, slewPpb := max (-200000) (min 200000 x.slewPpb),
                                  holdover := false } } : State).setLock
        (if p.ptplock then decide (x.offset.natAbs ≤ 25) else decide (16 ≤ n)))) ∧
  (∀ s : State, s.trained = true → s.plat.holdover = false → s.plat.lastSync + 2000000000 ≤ s.time →
    Happens .ptpHoldover s
      (({ s with plat := { s.plat with holdover := true, ptplock := false, syncs := 0 } } : State).interrupt 4 none)) ∧
  (∀ (s : State) (x : FirmwareImage), s.plat.wipe = true → s.plat.resetAt + wipeTime ≤ s.time →
    Happens (.wipeComplete x) s
      ((({ s with plat := { s.plat with wipe := false } } : State).interrupt 7 none).verifyImage x)) ∧
  (∀ (s : State) (x : FirmwareImage), s.plat.recovery = true → s.plat.wipe = false →
    Happens (.recoveryImageLoad x) s (s.verifyImage x)) ∧
  (∀ s : State, exec .deviceReset s = .next (s.restart s.plat.lcs) ∧ exec .mgmtResetRequest s = .next (s.restart s.plat.lcs)) ∧
  (∀ (s : State) (x : LifeCycle), LifeCycle.follows s.plat.lcs x = true → Happens (.lifecycleChange x) s (s.restart x)) ∧
  (∀ (s : State) (bs : List Byte),
    Happens (.spdmRequest bs) s { s with plat := { s.plat with spdm := s.plat.spdm ++
      [Config.spdmAnswer bs s.plat.digest s.plat.rollback (lifeCode s.plat.lcs) [s.plat.cxl0, s.plat.cxl1]] } })

/-- The events of sampling, time, firmware and reset (R439, R440, R464, R465, R478 to R482): when each happens, and what it
leaves. The time field, as the time at which the line was fetched, and the free latencies are the model's choice (log entry 6,
DESIGN CHOICE). What a reset and an accepted image leave is the model's reading (log entry 53, DEDUCED), and so is the servo's
rate as an argument (log entry 54, DEDUCED); the answer to an SPDM request is free (log entry 5, DESIGN CHOICE). -/
def Obligations.SamplingTimeAndResetEvents : Prop := SamplingEvents ∧ TimeAndResetEvents

/-! ### Frames -/

/-- What an instruction of `Computes` leaves alone (R38, R135): memory, wells, blocks, and every register of every warp, but
that no flag that was set is cleared; the results that it owes are written later (R63). -/
def Obligations.ComputingFrame : Prop :=
  ∀ (i : Instr) (fp : Bool) (f : Ic → Nat → LaneOut) (s t : State) (c : Ic), (Computes i fp f ∨ ∃ g, i = .shfl g) → Issuable i s c →
    exec i s = .next t → SameData true s t

/-- What a memory instruction that takes no fault leaves alone when it issues (R214, R227, R381): memory itself, which write-backs
and homes change later, the wells, the blocks, and every register of every warp. -/
def Obligations.MemoryIssueFrame : Prop :=
  ∀ (f : MemForm) (i : Instr) (s t : State) (c : Ic),
    i ∈ [.ld f, .ldc f, .prf f, .st f, .lda f, .stl f, .xar f, .car f, .atc f, .redc f, .ata f, .reda f, .ldf f, .stf f, .atx f,
      .cas f, .fence f] →
    Issuable i s c → exec i s = .next t → Unfaulted t c → SameData false s t

/-- What control instructions that take no fault leave alone (R174, R175, R179, R180): memory, wells, blocks and every register,
but that the `call` forms write the link pair of their active lanes. -/
def Obligations.ControlFrame : Prop :=
  ∀ (f : BrForm) (g : RegForm) (i : Instr) (s t : State) (c : Ic), Issuable i s c → exec i s = .next t → Unfaulted t c →
    (i ∈ [.bra f, .brx f, .ret f, .pause g, .yield g, .nop g] → SameData false s t) ∧
    (i ∈ [.call f, .calli f] → t.mem = s.mem ∧ t.wells = s.wells ∧ t.wellFull = s.wellFull ∧ t.blocks = s.blocks ∧
      ∀ u n w, s.warp? u n = some w → ∃ w', t.warp? u n = some w' ∧ w'.sregs = w.sregs ∧ w'.preds = w.preds ∧
        w'.fflags = w.fflags ∧
        (cwf w.vregs = true → ∀ r l, l < 32 →
          ¬(u = c.w.uid ∧ n = c.w.wid ∧ c.active.getLsbD l = true ∧ (r = f.link.toNat ∨ r = f.link.toNat + 1)) →
          w'.vget r l = w.vget r l))

/-- What tile and accumulator instructions that take no fault leave alone (R264, R280 to R283): memory, wells, grids, tasks,
contexts and every register of every warp, but that the converting ones may raise flags; every other block; and in their own
block all but the one tile, or the one accumulator, that they write. -/
def Obligations.TileFrame : Prop :=
  ∀ (f : RegForm) (i : Instr) (s t : State) (c : Ic), Issuable i s c → exec i s = .next t → Unfaulted t c →
    let rest (flags : Bool) (p : Block → Block → Prop) : Prop :=
      SameData flags s { t with blocks := s.blocks } ∧
      ∀ u b, s.block? u = some b → ∃ b', t.block? u = some b' ∧ (u ≠ c.b.uid → b' = b) ∧ p b b'
    let out (q key : Nat) : Prop := key < 4096 * q ∨ 4096 * q + 4096 ≤ key
    let tile (q : Nat) (b b' : Block) : Prop := b' = { b with tiles := b'.tiles } ∧
      (cwf b.tiles = true → ∀ key, out q key → cget b'.tiles key = cget b.tiles key)
    let acc (q : Nat) (b b' : Block) : Prop := b' = { b with accs := b'.accs } ∧
      (cwf b.accs = true → ∀ key, out q key → cget b'.accs key = cget b.accs key)
    (i ∈ [.ald f, .tmovR f] → SameData false s t) ∧ (i = .hdeq f → SameData true s t) ∧
    (i ∈ [.tzero f, .tmov f, .tmovW f] → rest false (tile f.d.toNat)) ∧
    (i = .aconv f → rest true (tile f.d.toNat)) ∧
    (i = .hqnt f → rest true (tile (hqTile f))) ∧
    (i ∈ [.azero f, .amov f, .ast f] → rest false (acc f.d.toNat)) ∧
    (i = .aconvF32 f → rest true (acc f.d.toNat))

/-- What stream instructions that take no fault leave alone (R287 to R293): `scnt` and `sclass` write no storage; `slen` writes
its block's length and nothing else, `sseed` the 8 bytes of its seed in the context record and nothing else; the others leave
every other block, memory, wells and every register of every warp, and in their own block all but the one stream and its tag. -/
def Obligations.StreamFrame : Prop :=
  ∀ (f : RegForm) (i : Instr) (s t : State) (c : Ic), Issuable i s c → exec i s = .next t → Unfaulted t c →
    let rest (p : Block → Block → Prop) : Prop :=
      SameData false s { t with blocks := s.blocks } ∧
      ∀ u b, s.block? u = some b → ∃ b', t.block? u = some b' ∧ (u ≠ c.b.uid → b' = b) ∧ p b b'
    (i ∈ [.scnt f, .sclass f] → SameData false s t) ∧
    (i = .slen f → rest fun b b' => b' = { b with slen := b'.slen }) ∧
    (i = .sseed f → SameData false s { t with mem := s.mem } ∧
      (Memory.wf s.mem = true →
        let at' := (enteredState i s c).seedAt c.b.ctx (classOf (enteredIc i s c) f)
        ∀ a, a < at' ∨ at' + 8 ≤ a → byteAt t a = byteAt s a)) ∧
    (i ∈ [.sgen f, .sregen f, .sand f, .sor f, .sxor f, .sxnor f, .snot f, .smux f, .sshift f, .smov f] →
      rest fun b b' => b' = { b with streams := b'.streams, tags := b'.tags } ∧
        (cwf b.streams = true → ∀ q l, l < 32 → q ≠ f.d.toNat → b'.stream q l = b.stream q l ∧ b'.tag q = b.tag q))

/-- What the issue of an engine command leaves alone (R39, R237): the wells, the blocks and every register of every warp, and
memory while no die traces; its warp has one token more. -/
def Obligations.CommandIssueFrame : Prop :=
  ∀ (s : State) (c : Ic) (i : Instr) (token : Option Nat) (args : List Nat) (w : Warp), s.warp? c.w.uid c.w.wid = some w →
    let t := (s.issueCommand c i token args).2
    t.wells = s.wells ∧ t.wellFull = s.wellFull ∧ t.blocks = s.blocks ∧
    ((∀ d, (s.die d).trace.en = false) → t.mem = s.mem) ∧
    (∀ u n x, s.warp? u n = some x → ∃ x', t.warp? u n = some x' ∧ x'.vregs = x.vregs ∧ x'.sregs = x.sregs ∧
      x'.preds = x.preds ∧ x'.fflags = x.fflags) ∧
    (∃ w', t.warp? c.w.uid c.w.wid = some w' ∧ w'.eseq = w.eseq + 1 ∧
      ∀ r, token = some r → (∃ k ∈ w'.tokens, k.reg = r ∧ k.done = false) ∧ ∀ k ∈ w'.tokens, k.reg = r → k.done = false)

/-! ### Memory and the whole machine -/

/-- Two memories in canonical form that read alike at every address are the same list. -/
def Obligations.MemoryFormUnique : Prop :=
  ∀ a b : Memory, Memory.wf a = true → Memory.wf b = true → (∀ k, cget (w := 8) a k = cget (w := 8) b k) → a = b

/-- After reset the wipe is in progress and the host cannot reach the registers; no context lives, no warp, block, grid, task or
command exists, every register file is zero with them, memory and wells read as zero, and every die runs at R460's reset clock
(fcur 40) with its reset power limits fmax, fmin and cap (R460, R473, R481, R482). That device time is 0 and that memory already
reads as zero while the wipe is in progress are the model's choice (log entry 10, DESIGN CHOICE, unsafe). -/
def Obligations.ResetState : Prop :=
  let s := State.reset
  s.time = 0 ∧ s.plat.wipe = true ∧ s.barOpen = false ∧ s.warps = [] ∧ s.blocks = [] ∧ s.grids = [] ∧ s.tasks = [] ∧
  s.engines = [] ∧ s.ctxs = [] ∧ s.issue = none ∧ (∀ a, byteAt s a = 0) ∧ (∀ k, s.wellGet k = 0 ∧ s.wellIsFull k = false) ∧
  s.dies.length = Config.nDies ∧ (∀ d ∈ s.dies, d.fMHz = 4000 ∧ d.fmax = 40 ∧ d.fmin = 8 ∧ d.cap = 570 ∧ d.relock = none ∧ d.weightLoad = false) ∧
  storageWf s = true

/-- Every piece of memory keeps its canonical form: whatever a step does, a memory in canonical form stays in it. -/
def Obligations.MemoryFormKept : Prop :=
  ∀ s t : State, Memory.wf s.mem = true → step s = .next t → Memory.wf t.mem = true

/-- The registers of every warp and block and the wells keep their canonical form, so that a cell written is the cell read,
whatever a step does. -/
def Obligations.RegisterFormKept : Prop :=
  ∀ s t : State, registersWf s = true → step s = .next t → registersWf t = true
end

