-- ==== Sys2Proof/Laws/Cells.lean ====
section
/-! SUPPORT. Laws of the sparse storage: reading after writing, and that every operation keeps the canonical form. -/

set_option Elab.async false  -- one theorem after another: waiting threads would use up the memory a check is given

namespace Sys2Proof.Machine

variable {w : Nat}

/-! ### Reading -/

@[simp] theorem cget_nil (k : Nat) : cget ([] : Cells w) k = 0 := rfl

theorem cget_cons (a k : Nat) (v : BitVec w) (t : Cells w) :
    cget ((a, v) :: t) k = if k < a then 0 else if k = a then v else cget t k := rfl

theorem cget_cons_self (a : Nat) (v : BitVec w) (t : Cells w) : cget ((a, v) :: t) a = v := by
  simp [cget_cons]

theorem cget_cons_gt {a k : Nat} (v : BitVec w) (t : Cells w) (h : a < k) : cget ((a, v) :: t) k = cget t k := by
  rw [cget_cons, if_neg (by omega), if_neg (by omega)]

theorem cwfFrom_cons (lo a : Nat) (v : BitVec w) (t : Cells w) :
    cwfFrom lo ((a, v) :: t) = true ↔ lo ≤ a ∧ v ≠ 0 ∧ cwfFrom (a + 1) t = true := by
  simp [cwfFrom, and_assoc]

theorem cwfFrom_mono {lo hi : Nat} {c : Cells w} (h : cwfFrom hi c = true) (hl : lo ≤ hi) : cwfFrom lo c = true := by
  cases c with
  | nil => rfl
  | cons x t =>
    obtain ⟨a, v⟩ := x
    rw [cwfFrom_cons] at h ⊢
    exact ⟨by omega, h.2⟩

theorem cwf_of_from {lo : Nat} {c : Cells w} (h : cwfFrom lo c = true) : cwf c = true := cwfFrom_mono h (Nat.zero_le _)

/-- Below the first key everything reads as zero. -/
theorem cget_below {lo : Nat} {c : Cells w} (h : cwfFrom lo c = true) {k : Nat} (hk : k < lo) : cget c k = 0 := by
  cases c with
  | nil => rfl
  | cons x t =>
    obtain ⟨a, v⟩ := x
    rw [cwfFrom_cons] at h
    rw [cget_cons, if_pos (by omega)]

/-! ### Writing one cell -/

theorem cwfFrom_cset {lo : Nat} {c : Cells w} (h : cwfFrom lo c = true) {k : Nat} (hk : lo ≤ k) (v : BitVec w) :
    cwfFrom lo (cset c k v) = true := by
  induction c generalizing lo with
  | nil =>
    simp only [cset]
    split
    · rfl
    · exact (cwfFrom_cons ..).mpr ⟨hk, ‹_›, rfl⟩
  | cons x t ih =>
    obtain ⟨a, y⟩ := x
    rw [cwfFrom_cons] at h
    obtain ⟨h1, h2, h3⟩ := h
    simp only [cset]
    split
    · split
      · exact (cwfFrom_cons ..).mpr ⟨h1, h2, h3⟩
      · rename_i hka hv
        rw [cwfFrom_cons]
        refine ⟨hk, hv, ?_⟩
        rw [cwfFrom_cons]
        exact ⟨by omega, h2, h3⟩
    · split
      · split
        · exact cwfFrom_mono h3 (by omega)
        · rename_i hka hv
          subst hka
          rw [cwfFrom_cons]
          exact ⟨hk, hv, h3⟩
      · rw [cwfFrom_cons]
        exact ⟨h1, h2, ih h3 (by omega)⟩

theorem cwf_cset {c : Cells w} (h : cwf c = true) (k : Nat) (v : BitVec w) : cwf (cset c k v) = true :=
  cwfFrom_cset h (Nat.zero_le k) v

theorem cget_cset_from {lo : Nat} {c : Cells w} (h : cwfFrom lo c = true) (k : Nat) (v : BitVec w) (j : Nat) :
    cget (cset c k v) j = if j = k then v else cget c j := by
  induction c generalizing lo with
  | nil =>
    simp only [cset]
    split
    · split <;> simp_all
    · simp only [cget_cons, cget_nil]
      split
      · rw [if_neg (by omega)]
      · rfl
  | cons x t ih =>
    obtain ⟨a, y⟩ := x
    rw [cwfFrom_cons] at h
    obtain ⟨h1, h2, h3⟩ := h
    simp only [cset]
    split
    · split
      · split
        · subst_vars
          rw [cget_cons, if_pos ‹_›]
        · rfl
      · rw [cget_cons]
        split
        · rw [if_neg (by omega), cget_cons, if_pos (by omega)]
        · rfl
    · split
      · subst_vars
        split
        · split
          · subst_vars
            exact cget_below h3 (by omega)
          · rcases Nat.lt_or_ge j a with hj | hj
            · rw [cget_below h3 (by omega), cget_cons, if_pos hj]
            · rw [cget_cons_gt _ _ (by omega)]
        · simp only [cget_cons]
          split
          · rw [if_neg (by omega)]
          · split <;> rfl
      · rw [cget_cons, ih h3, cget_cons]
        split
        · rw [if_neg (by omega)]
        · split
          · rw [if_neg (by omega)]
          · rfl

/-- Reading after writing one cell: the value written at its key, everything else as before. -/
theorem cget_cset {c : Cells w} (h : cwf c = true) (k : Nat) (v : BitVec w) (j : Nat) :
    cget (cset c k v) j = if j = k then v else cget c j := cget_cset_from h k v j

/-! ### Whole runs of cells -/

theorem cwfFrom_filter {lo : Nat} {c : Cells w} (h : cwfFrom lo c = true) (p : Nat × BitVec w → Bool) :
    cwfFrom lo (c.filter p) = true := by
  induction c generalizing lo with
  | nil => rfl
  | cons x t ih =>
    obtain ⟨a, y⟩ := x
    rw [cwfFrom_cons] at h
    rw [List.filter_cons]
    split
    · rw [cwfFrom_cons]
      exact ⟨h.1, h.2.1, ih h.2.2⟩
    · exact cwfFrom_mono (ih h.2.2) (by omega)

theorem cwf_filter {c : Cells w} (h : cwf c = true) (p : Nat × BitVec w → Bool) : cwf (c.filter p) = true :=
  cwfFrom_filter h p

theorem cwf_cclear {c : Cells w} (h : cwf c = true) (lo n : Nat) : cwf (cclear c lo n) = true := cwf_filter h _

theorem cwfFrom_crun (lo : Nat) (vs : List (BitVec w)) : cwfFrom lo (crun lo vs) = true := by
  induction vs generalizing lo with
  | nil => rfl
  | cons v vs ih =>
    rw [crun]
    split
    · exact cwfFrom_mono (ih _) (by omega)
    · rw [cwfFrom_cons]
      exact ⟨Nat.le_refl _, by assumption, ih _⟩

/-- Every listed key of a run lies below its end. -/
theorem crun_lt (lo : Nat) (vs : List (BitVec w)) : ∀ x ∈ crun lo vs, x.1 < lo + vs.length := by
  induction vs generalizing lo with
  | nil => simp [crun]
  | cons v vs ih =>
    intro x hx
    rw [crun] at hx
    rw [List.length_cons]
    split at hx
    · have := ih _ x hx
      omega
    · rcases List.mem_cons.mp hx with rfl | hx
      · simp
      · have := ih _ x hx
        omega

/-- Two canonical lists, the second above the first, make a canonical list. -/
theorem cwfFrom_append {lo hi : Nat} {a b : Cells w} (ha : cwfFrom lo a = true) (hb : cwfFrom hi b = true)
    (hlt : ∀ x ∈ a, x.1 < hi) (hle : lo ≤ hi) : cwfFrom lo (a ++ b) = true := by
  induction a generalizing lo with
  | nil => exact cwfFrom_mono hb hle
  | cons x t ih =>
    obtain ⟨k, y⟩ := x
    rw [cwfFrom_cons] at ha
    rw [List.cons_append, cwfFrom_cons]
    have hk : k < hi := hlt (k, y) (by simp)
    exact ⟨ha.1, ha.2.1, ih ha.2.2 (fun x hx => hlt x (by simp [hx])) (by omega)⟩

theorem cwfFrom_filter_ge {lo : Nat} {c : Cells w} (h : cwfFrom lo c = true) (n : Nat) :
    cwfFrom n (c.filter fun x => decide (n ≤ x.1)) = true := by
  induction c generalizing lo with
  | nil => rfl
  | cons x t ih =>
    obtain ⟨a, y⟩ := x
    rw [cwfFrom_cons] at h
    rw [List.filter_cons]
    split
    · rename_i hn
      rw [cwfFrom_cons]
      exact ⟨by simpa using hn, h.2.1, cwfFrom_filter h.2.2 _⟩
    · exact ih h.2.2

theorem cwf_cput {c : Cells w} (h : cwf c = true) (lo : Nat) (vs : List (BitVec w)) : cwf (cput c lo vs) = true := by
  rw [cput, List.append_assoc]
  refine cwfFrom_append (hi := lo) (cwf_filter h _) ?_ ?_ (Nat.zero_le _)
  · exact cwfFrom_append (hi := lo + vs.length) (cwfFrom_crun lo vs) (cwfFrom_filter_ge h _) (crun_lt lo vs)
      (by omega)
  · intro x hx
    simpa using (List.mem_filter.mp hx).2

/-! ### Reading after a range -/

theorem cget_filter_from {lo : Nat} {c : Cells w} (h : cwfFrom lo c = true) (p : Nat → Bool) (k : Nat) :
    cget (c.filter fun x => p x.1) k = if p k then cget c k else 0 := by
  induction c generalizing lo with
  | nil => simp
  | cons x t ih =>
    obtain ⟨a, v⟩ := x
    rw [cwfFrom_cons] at h
    have ht := ih h.2.2
    rw [List.filter_cons, cget_cons]
    cases hp : p a
    · simp only [Bool.false_eq_true, if_false]
      rw [ht]
      by_cases h1 : k < a
      · rw [if_pos h1, cget_below h.2.2 (by omega)]
      · by_cases h2 : k = a
        · subst h2; simp [hp]
        · rw [if_neg h1, if_neg h2]
    · simp only [if_true]
      rw [cget_cons, ht]
      by_cases h1 : k < a
      · simp [h1]
      · by_cases h2 : k = a
        · subst h2; simp [hp]
        · simp [h1, h2]

/-- Dropping cells: what stays reads as before, the rest as zero. -/
theorem cget_filter {c : Cells w} (h : cwf c = true) (p : Nat → Bool) (k : Nat) :
    cget (c.filter fun x => p x.1) k = if p k then cget c k else 0 := cget_filter_from h p k

theorem cget_cclear {c : Cells w} (h : cwf c = true) (lo n k : Nat) :
    cget (cclear c lo n) k = if k < lo ∨ lo + n ≤ k then cget c k else 0 := by
  have := cget_filter h (fun k => k < lo || lo + n ≤ k) k
  unfold cclear
  rw [this]
  simp

theorem cget_crun (lo : Nat) (vs : List (BitVec w)) (k : Nat) :
    cget (crun lo vs) k = if lo ≤ k then vs.getD (k - lo) 0 else 0 := by
  induction vs generalizing lo with
  | nil => simp [crun]
  | cons v vs ih =>
    have h1 : ¬lo ≤ k → cget (crun (lo + 1) vs) k = 0 := fun h => by rw [ih, if_neg (by omega)]
    have h2 : cget (crun (lo + 1) vs) lo = 0 := cget_below (cwfFrom_crun (lo + 1) vs) (by omega)
    have h3 : lo < k → cget (crun (lo + 1) vs) k = (v :: vs).getD (k - lo) 0 := fun h => by
      obtain ⟨j, hj⟩ : ∃ j, k - lo = j + 1 := ⟨k - lo - 1, by omega⟩
      rw [ih, if_pos (by omega), hj, List.getD_cons_succ, show k - (lo + 1) = j by omega]
    have h4 : cget (crun lo (v :: vs)) k = if k = lo then v else cget (crun (lo + 1) vs) k := by
      simp only [crun]
      split
      · next hv =>
        by_cases hk : k = lo
        · subst hk; rw [h2, if_pos rfl, hv]
        · rw [if_neg hk]
      · rw [cget_cons]
        by_cases hk : k < lo
        · rw [if_pos hk, if_neg (by omega), h1 (by omega)]
        · rw [if_neg hk]
    rw [h4]
    by_cases hk : k = lo
    · subst hk; simp
    · rw [if_neg hk]
      by_cases hl : lo ≤ k
      · rw [if_pos hl, h3 (by omega)]
      · rw [if_neg hl, h1 hl]

/-- Reading after two ranges have been joined. -/
theorem cget_append {lo hi : Nat} {a b : Cells w} (ha : cwfFrom lo a = true) (hb : cwfFrom hi b = true) (hl : ∀ x ∈ a, x.1 < hi) (k : Nat) :
    cget (a ++ b) k = if k < hi then cget a k else cget b k := by
  induction a generalizing lo with
  | nil =>
    simp only [List.nil_append, cget_nil]
    split
    · exact cget_below hb ‹_›
    · rfl
  | cons x t ih =>
    obtain ⟨c, v⟩ := x
    rw [cwfFrom_cons] at ha
    have hc := hl (c, v) List.mem_cons_self
    rw [List.cons_append, cget_cons, cget_cons, ih ha.2.2 fun x hx => hl x (List.mem_cons_of_mem _ hx)]
    by_cases h1 : k < c
    · have : k < hi := by dsimp only at hc; omega
      simp [h1, this]
    · by_cases h2 : k = c
      · subst h2; simp [hc]
      · simp [h1, h2]

/-- Reading after a range of cells has been written. -/
theorem cget_cput {c : Cells w} (h : cwf c = true) (lo : Nat) (vs : List (BitVec w)) (k : Nat) :
    cget (cput c lo vs) k = if lo ≤ k ∧ k < lo + vs.length then vs.getD (k - lo) 0 else cget c k := by
  have hf (p : Nat → Bool) := cget_filter h p k
  have h1 := cwfFrom_append (hi := lo + vs.length) (cwfFrom_crun lo vs) (cwfFrom_filter_ge h _) (crun_lt lo vs) (by omega)
  unfold cput
  rw [List.append_assoc, cget_append (hi := lo) (cwf_filter h _) h1 (fun x hx => by simpa using (List.mem_filter.mp hx).2),
    cget_append (hi := lo + vs.length) (cwfFrom_crun lo vs) (cwfFrom_filter_ge h _) (crun_lt lo vs)]
  have h2 := hf fun k => decide (k < lo)
  have h3 := hf fun k => decide (lo + vs.length ≤ k)
  rw [h2, h3, cget_crun]
  by_cases a : k < lo
  · rw [if_pos a, if_pos (by simpa using a), if_neg (by omega)]
  · rw [if_neg a]
    by_cases b : k < lo + vs.length
    · rw [if_pos b, if_pos (by omega), if_pos (by omega)]
    · rw [if_neg b, if_pos (by simpa using b), if_neg (by omega)]

/-! ### Bytes of memory -/

theorem wf_cset {m : Memory} (h : Memory.wf m = true) (a : Nat) (b : Byte) :
    Memory.wf (cset (w := 8) m a b) = true := cwf_cset (w := 8) h a b

theorem writeBytes_cons (m : Memory) (a : Nat) (b : Byte) (bs : List Byte) :
    writeBytes m a (b :: bs) = writeBytes (cset (w := 8) m a b) (a + 1) bs := rfl

theorem wf_writeBytes {m : Memory} (h : Memory.wf m = true) (a : Nat) (bs : List Byte) :
    Memory.wf (writeBytes m a bs) = true := by
  induction bs generalizing m a with
  | nil => exact h
  | cons b bs ih => exact ih (wf_cset h a b) (a + 1)

theorem wf_writeNat {m : Memory} (h : Memory.wf m = true) (a n v : Nat) : Memory.wf (writeNat m a n v) = true :=
  wf_writeBytes h a _

theorem wf_foldl {α : Type} (f : Memory → α → Memory) (hf : ∀ m x, Memory.wf m = true → Memory.wf (f m x) = true)
    (l : List α) {m : Memory} (h : Memory.wf m = true) : Memory.wf (l.foldl f m) = true := by
  induction l generalizing m with
  | nil => exact h
  | cons x l ih => exact ih (hf m x h)

theorem wf_writeMasked {m : Memory} (h : Memory.wf m = true) (a : Nat) (mask : BitVec 64) (d : BitVec 512) :
    Memory.wf (writeMasked m a mask d) = true := by
  refine wf_foldl _ (fun m k hm => ?_) _ h
  split
  · exact wf_cset hm _ _
  · exact hm

/-- Reading one byte after writing several: the byte written there, everything else as before. -/
theorem cget_writeBytes {m : Memory} (h : Memory.wf m = true) (a : Nat) (bs : List Byte) (j : Nat) :
    cget (w := 8) (writeBytes m a bs) j
      = if a ≤ j ∧ j < a + bs.length then bs.getD (j - a) 0 else cget (w := 8) m j := by
  induction bs generalizing m a with
  | nil => rw [if_neg (by simp)]; rfl
  | cons b bs ih =>
    rw [writeBytes_cons, ih (wf_cset h a b), cget_cset (w := 8) h, List.length_cons]
    by_cases h1 : a + 1 ≤ j ∧ j < a + 1 + bs.length
    · rw [if_pos h1, if_pos (by omega)]
      obtain ⟨k, hk⟩ : ∃ k, j - a = k + 1 := ⟨j - a - 1, by omega⟩
      rw [hk, List.getD_cons_succ, show j - (a + 1) = k by omega]
    · rw [if_neg h1]
      by_cases h2 : j = a
      · subst h2
        rw [if_pos rfl, if_pos (by omega), Nat.sub_self, List.getD_cons_zero]
      · rw [if_neg h2, if_neg (by omega)]

@[simp] theorem length_bytesOfNat (n v : Nat) : (bytesOfNat n v).length = n := by
  induction n generalizing v with
  | zero => rfl
  | succ n ih => simp [bytesOfNat, ih]

@[simp] theorem length_readBytes (m : Memory) (a n : Nat) : (readBytes m a n).length = n := by
  simp [readBytes, cgets]

/-- The bytes of a number stand for its low bytes. -/
theorem natOfBytes_bytesOfNat (n v : Nat) : natOfBytes (bytesOfNat n v) = v % 256 ^ n := by
  induction n generalizing v with
  | zero => simp [bytesOfNat, natOfBytes, Nat.mod_one]
  | succ n ih =>
    have h : 256 ^ (n + 1) = 256 * 256 ^ n := by rw [Nat.pow_succ, Nat.mul_comm]
    rw [bytesOfNat, natOfBytes, ih, BitVec.toNat_ofNat, h, Nat.mod_mul]

/-- What was just written reads back. -/
theorem readBytes_writeBytes {m : Memory} (h : Memory.wf m = true) (a : Nat) (bs : List Byte) :
    readBytes (writeBytes m a bs) a bs.length = bs := by
  apply List.ext_getElem
  · simp
  · intro k h1 h2
    simp only [readBytes, cgets, List.getElem_map, List.getElem_range, cget_writeBytes h]
    rw [if_pos (by omega), Nat.add_sub_cancel_left, List.getD_eq_getElem?_getD, List.getElem?_eq_getElem h2, Option.getD_some]

theorem readNat_writeNat {m : Memory} (h : Memory.wf m = true) (a n v : Nat) :
    readNat (writeNat m a n v) a n = v % 256 ^ n := by
  have := readBytes_writeBytes h a (bytesOfNat n v)
  rw [length_bytesOfNat] at this
  rw [readNat, writeNat, this, natOfBytes_bytesOfNat]

end Sys2Proof.Machine
end

