-- ==== Sys2Proof/Laws/State.lean ====
section
/-! SUPPORT. What each named update of the state leaves in each field: one lemma for each field of each update. -/

namespace Sys2Proof.Machine

/-! ### setWarp -/

@[simp] theorem State.setWarp_time (s : State) (w : Warp) : (s.setWarp w).time = s.time := rfl
@[simp] theorem State.setWarp_dies (s : State) (w : Warp) : (s.setWarp w).dies = s.dies := rfl
@[simp] theorem State.setWarp_cores (s : State) (w : Warp) : (s.setWarp w).cores = s.cores := rfl
@[simp] theorem State.setWarp_warps (s : State) (w : Warp) : (s.setWarp w).warps = replaceIf (fun x => x.uid == w.uid && x.wid == w.wid) (fun _ => w) s.warps := rfl
@[simp] theorem State.setWarp_blocks (s : State) (w : Warp) : (s.setWarp w).blocks = s.blocks := rfl
@[simp] theorem State.setWarp_grids (s : State) (w : Warp) : (s.setWarp w).grids = s.grids := rfl
@[simp] theorem State.setWarp_tasks (s : State) (w : Warp) : (s.setWarp w).tasks = s.tasks := rfl
@[simp] theorem State.setWarp_engines (s : State) (w : Warp) : (s.setWarp w).engines = s.engines := rfl
@[simp] theorem State.setWarp_owed (s : State) (w : Warp) : (s.setWarp w).owed = s.owed := rfl
@[simp] theorem State.setWarp_msgs (s : State) (w : Warp) : (s.setWarp w).msgs = s.msgs := rfl
@[simp] theorem State.setWarp_mem (s : State) (w : Warp) : (s.setWarp w).mem = s.mem := rfl
@[simp] theorem State.setWarp_wells (s : State) (w : Warp) : (s.setWarp w).wells = s.wells := rfl
@[simp] theorem State.setWarp_wellFull (s : State) (w : Warp) : (s.setWarp w).wellFull = s.wellFull := rfl
@[simp] theorem State.setWarp_wellPoison (s : State) (w : Warp) : (s.setWarp w).wellPoison = s.wellPoison := rfl
@[simp] theorem State.setWarp_wellBad (s : State) (w : Warp) : (s.setWarp w).wellBad = s.wellBad := rfl
@[simp] theorem State.setWarp_wstoreBad (s : State) (w : Warp) : (s.setWarp w).wstoreBad = s.wstoreBad := rfl
@[simp] theorem State.setWarp_bands (s : State) (w : Warp) : (s.setWarp w).bands = s.bands := rfl
@[simp] theorem State.setWarp_l2 (s : State) (w : Warp) : (s.setWarp w).l2 = s.l2 := rfl
@[simp] theorem State.setWarp_overflow (s : State) (w : Warp) : (s.setWarp w).overflow = s.overflow := rfl
@[simp] theorem State.setWarp_farMarks (s : State) (w : Warp) : (s.setWarp w).farMarks = s.farMarks := rfl
@[simp] theorem State.setWarp_peerMarks (s : State) (w : Warp) : (s.setWarp w).peerMarks = s.peerMarks := rfl
@[simp] theorem State.setWarp_peerLast (s : State) (w : Warp) : (s.setWarp w).peerLast = s.peerLast := rfl
@[simp] theorem State.setWarp_owners (s : State) (w : Warp) : (s.setWarp w).owners = s.owners := rfl
@[simp] theorem State.setWarp_uncertain (s : State) (w : Warp) : (s.setWarp w).uncertain = s.uncertain := rfl
@[simp] theorem State.setWarp_formers (s : State) (w : Warp) : (s.setWarp w).formers = s.formers := rfl
@[simp] theorem State.setWarp_freed (s : State) (w : Warp) : (s.setWarp w).freed = s.freed := rfl
@[simp] theorem State.setWarp_tlb (s : State) (w : Warp) : (s.setWarp w).tlb = s.tlb := rfl
@[simp] theorem State.setWarp_counters (s : State) (w : Warp) : (s.setWarp w).counters = s.counters := rfl
@[simp] theorem State.setWarp_stamps (s : State) (w : Warp) : (s.setWarp w).stamps = s.stamps := rfl
@[simp] theorem State.setWarp_gives (s : State) (w : Warp) : (s.setWarp w).gives = s.gives := rfl
@[simp] theorem State.setWarp_rings (s : State) (w : Warp) : (s.setWarp w).rings = s.rings := rfl
@[simp] theorem State.setWarp_ringWaits (s : State) (w : Warp) : (s.setWarp w).ringWaits = s.ringWaits := rfl
@[simp] theorem State.setWarp_groups (s : State) (w : Warp) : (s.setWarp w).groups = s.groups := rfl
@[simp] theorem State.setWarp_spills (s : State) (w : Warp) : (s.setWarp w).spills = s.spills := rfl
@[simp] theorem State.setWarp_ctxs (s : State) (w : Warp) : (s.setWarp w).ctxs = s.ctxs := rfl
@[simp] theorem State.setWarp_plat (s : State) (w : Warp) : (s.setWarp w).plat = s.plat := rfl
@[simp] theorem State.setWarp_ioLog (s : State) (w : Warp) : (s.setWarp w).ioLog = s.ioLog := rfl
@[simp] theorem State.setWarp_scOrder (s : State) (w : Warp) : (s.setWarp w).scOrder = s.scOrder := rfl
@[simp] theorem State.setWarp_nextId (s : State) (w : Warp) : (s.setWarp w).nextId = s.nextId := rfl
@[simp] theorem State.setWarp_freeCtr (s : State) (w : Warp) : (s.setWarp w).freeCtr = s.freeCtr := rfl
@[simp] theorem State.setWarp_issue (s : State) (w : Warp) : (s.setWarp w).issue = s.issue := rfl
@[simp] theorem State.setWarp_script (s : State) (w : Warp) : (s.setWarp w).script = s.script := rfl
@[simp] theorem State.setWarp_cycled (s : State) (w : Warp) : (s.setWarp w).cycled = s.cycled := rfl

/-! ### modWarp -/

@[simp] theorem State.modWarp_time (s : State) (u n : Nat) (f : Warp → Warp) : (s.modWarp u n f).time = s.time := rfl
@[simp] theorem State.modWarp_dies (s : State) (u n : Nat) (f : Warp → Warp) : (s.modWarp u n f).dies = s.dies := rfl
@[simp] theorem State.modWarp_cores (s : State) (u n : Nat) (f : Warp → Warp) : (s.modWarp u n f).cores = s.cores := rfl
@[simp] theorem State.modWarp_warps (s : State) (u n : Nat) (f : Warp → Warp) : (s.modWarp u n f).warps = replaceIf (fun x => x.uid == u && x.wid == n) f s.warps := rfl
@[simp] theorem State.modWarp_blocks (s : State) (u n : Nat) (f : Warp → Warp) : (s.modWarp u n f).blocks = s.blocks := rfl
@[simp] theorem State.modWarp_grids (s : State) (u n : Nat) (f : Warp → Warp) : (s.modWarp u n f).grids = s.grids := rfl
@[simp] theorem State.modWarp_tasks (s : State) (u n : Nat) (f : Warp → Warp) : (s.modWarp u n f).tasks = s.tasks := rfl
@[simp] theorem State.modWarp_engines (s : State) (u n : Nat) (f : Warp → Warp) : (s.modWarp u n f).engines = s.engines := rfl
@[simp] theorem State.modWarp_owed (s : State) (u n : Nat) (f : Warp → Warp) : (s.modWarp u n f).owed = s.owed := rfl
@[simp] theorem State.modWarp_msgs (s : State) (u n : Nat) (f : Warp → Warp) : (s.modWarp u n f).msgs = s.msgs := rfl
@[simp] theorem State.modWarp_mem (s : State) (u n : Nat) (f : Warp → Warp) : (s.modWarp u n f).mem = s.mem := rfl
@[simp] theorem State.modWarp_wells (s : State) (u n : Nat) (f : Warp → Warp) : (s.modWarp u n f).wells = s.wells := rfl
@[simp] theorem State.modWarp_wellFull (s : State) (u n : Nat) (f : Warp → Warp) : (s.modWarp u n f).wellFull = s.wellFull := rfl
@[simp] theorem State.modWarp_wellPoison (s : State) (u n : Nat) (f : Warp → Warp) : (s.modWarp u n f).wellPoison = s.wellPoison := rfl
@[simp] theorem State.modWarp_wellBad (s : State) (u n : Nat) (f : Warp → Warp) : (s.modWarp u n f).wellBad = s.wellBad := rfl
@[simp] theorem State.modWarp_wstoreBad (s : State) (u n : Nat) (f : Warp → Warp) : (s.modWarp u n f).wstoreBad = s.wstoreBad := rfl
@[simp] theorem State.modWarp_bands (s : State) (u n : Nat) (f : Warp → Warp) : (s.modWarp u n f).bands = s.bands := rfl
@[simp] theorem State.modWarp_l2 (s : State) (u n : Nat) (f : Warp → Warp) : (s.modWarp u n f).l2 = s.l2 := rfl
@[simp] theorem State.modWarp_overflow (s : State) (u n : Nat) (f : Warp → Warp) : (s.modWarp u n f).overflow = s.overflow := rfl
@[simp] theorem State.modWarp_farMarks (s : State) (u n : Nat) (f : Warp → Warp) : (s.modWarp u n f).farMarks = s.farMarks := rfl
@[simp] theorem State.modWarp_peerMarks (s : State) (u n : Nat) (f : Warp → Warp) : (s.modWarp u n f).peerMarks = s.peerMarks := rfl
@[simp] theorem State.modWarp_peerLast (s : State) (u n : Nat) (f : Warp → Warp) : (s.modWarp u n f).peerLast = s.peerLast := rfl
@[simp] theorem State.modWarp_owners (s : State) (u n : Nat) (f : Warp → Warp) : (s.modWarp u n f).owners = s.owners := rfl
@[simp] theorem State.modWarp_uncertain (s : State) (u n : Nat) (f : Warp → Warp) : (s.modWarp u n f).uncertain = s.uncertain := rfl
@[simp] theorem State.modWarp_formers (s : State) (u n : Nat) (f : Warp → Warp) : (s.modWarp u n f).formers = s.formers := rfl
@[simp] theorem State.modWarp_freed (s : State) (u n : Nat) (f : Warp → Warp) : (s.modWarp u n f).freed = s.freed := rfl
@[simp] theorem State.modWarp_tlb (s : State) (u n : Nat) (f : Warp → Warp) : (s.modWarp u n f).tlb = s.tlb := rfl
@[simp] theorem State.modWarp_counters (s : State) (u n : Nat) (f : Warp → Warp) : (s.modWarp u n f).counters = s.counters := rfl
@[simp] theorem State.modWarp_stamps (s : State) (u n : Nat) (f : Warp → Warp) : (s.modWarp u n f).stamps = s.stamps := rfl
@[simp] theorem State.modWarp_gives (s : State) (u n : Nat) (f : Warp → Warp) : (s.modWarp u n f).gives = s.gives := rfl
@[simp] theorem State.modWarp_rings (s : State) (u n : Nat) (f : Warp → Warp) : (s.modWarp u n f).rings = s.rings := rfl
@[simp] theorem State.modWarp_ringWaits (s : State) (u n : Nat) (f : Warp → Warp) : (s.modWarp u n f).ringWaits = s.ringWaits := rfl
@[simp] theorem State.modWarp_groups (s : State) (u n : Nat) (f : Warp → Warp) : (s.modWarp u n f).groups = s.groups := rfl
@[simp] theorem State.modWarp_spills (s : State) (u n : Nat) (f : Warp → Warp) : (s.modWarp u n f).spills = s.spills := rfl
@[simp] theorem State.modWarp_ctxs (s : State) (u n : Nat) (f : Warp → Warp) : (s.modWarp u n f).ctxs = s.ctxs := rfl
@[simp] theorem State.modWarp_plat (s : State) (u n : Nat) (f : Warp → Warp) : (s.modWarp u n f).plat = s.plat := rfl
@[simp] theorem State.modWarp_ioLog (s : State) (u n : Nat) (f : Warp → Warp) : (s.modWarp u n f).ioLog = s.ioLog := rfl
@[simp] theorem State.modWarp_scOrder (s : State) (u n : Nat) (f : Warp → Warp) : (s.modWarp u n f).scOrder = s.scOrder := rfl
@[simp] theorem State.modWarp_nextId (s : State) (u n : Nat) (f : Warp → Warp) : (s.modWarp u n f).nextId = s.nextId := rfl
@[simp] theorem State.modWarp_freeCtr (s : State) (u n : Nat) (f : Warp → Warp) : (s.modWarp u n f).freeCtr = s.freeCtr := rfl
@[simp] theorem State.modWarp_issue (s : State) (u n : Nat) (f : Warp → Warp) : (s.modWarp u n f).issue = s.issue := rfl
@[simp] theorem State.modWarp_script (s : State) (u n : Nat) (f : Warp → Warp) : (s.modWarp u n f).script = s.script := rfl
@[simp] theorem State.modWarp_cycled (s : State) (u n : Nat) (f : Warp → Warp) : (s.modWarp u n f).cycled = s.cycled := rfl

/-! ### modBlock -/

@[simp] theorem State.modBlock_time (s : State) (u : Nat) (f : Block → Block) : (s.modBlock u f).time = s.time := rfl
@[simp] theorem State.modBlock_dies (s : State) (u : Nat) (f : Block → Block) : (s.modBlock u f).dies = s.dies := rfl
@[simp] theorem State.modBlock_cores (s : State) (u : Nat) (f : Block → Block) : (s.modBlock u f).cores = s.cores := rfl
@[simp] theorem State.modBlock_warps (s : State) (u : Nat) (f : Block → Block) : (s.modBlock u f).warps = s.warps := rfl
@[simp] theorem State.modBlock_blocks (s : State) (u : Nat) (f : Block → Block) : (s.modBlock u f).blocks = replaceIf (fun x => x.uid == u) f s.blocks := rfl
@[simp] theorem State.modBlock_grids (s : State) (u : Nat) (f : Block → Block) : (s.modBlock u f).grids = s.grids := rfl
@[simp] theorem State.modBlock_tasks (s : State) (u : Nat) (f : Block → Block) : (s.modBlock u f).tasks = s.tasks := rfl
@[simp] theorem State.modBlock_engines (s : State) (u : Nat) (f : Block → Block) : (s.modBlock u f).engines = s.engines := rfl
@[simp] theorem State.modBlock_owed (s : State) (u : Nat) (f : Block → Block) : (s.modBlock u f).owed = s.owed := rfl
@[simp] theorem State.modBlock_msgs (s : State) (u : Nat) (f : Block → Block) : (s.modBlock u f).msgs = s.msgs := rfl
@[simp] theorem State.modBlock_mem (s : State) (u : Nat) (f : Block → Block) : (s.modBlock u f).mem = s.mem := rfl
@[simp] theorem State.modBlock_wells (s : State) (u : Nat) (f : Block → Block) : (s.modBlock u f).wells = s.wells := rfl
@[simp] theorem State.modBlock_wellFull (s : State) (u : Nat) (f : Block → Block) : (s.modBlock u f).wellFull = s.wellFull := rfl
@[simp] theorem State.modBlock_wellPoison (s : State) (u : Nat) (f : Block → Block) : (s.modBlock u f).wellPoison = s.wellPoison := rfl
@[simp] theorem State.modBlock_wellBad (s : State) (u : Nat) (f : Block → Block) : (s.modBlock u f).wellBad = s.wellBad := rfl
@[simp] theorem State.modBlock_wstoreBad (s : State) (u : Nat) (f : Block → Block) : (s.modBlock u f).wstoreBad = s.wstoreBad := rfl
@[simp] theorem State.modBlock_bands (s : State) (u : Nat) (f : Block → Block) : (s.modBlock u f).bands = s.bands := rfl
@[simp] theorem State.modBlock_l2 (s : State) (u : Nat) (f : Block → Block) : (s.modBlock u f).l2 = s.l2 := rfl
@[simp] theorem State.modBlock_overflow (s : State) (u : Nat) (f : Block → Block) : (s.modBlock u f).overflow = s.overflow := rfl
@[simp] theorem State.modBlock_farMarks (s : State) (u : Nat) (f : Block → Block) : (s.modBlock u f).farMarks = s.farMarks := rfl
@[simp] theorem State.modBlock_peerMarks (s : State) (u : Nat) (f : Block → Block) : (s.modBlock u f).peerMarks = s.peerMarks := rfl
@[simp] theorem State.modBlock_peerLast (s : State) (u : Nat) (f : Block → Block) : (s.modBlock u f).peerLast = s.peerLast := rfl
@[simp] theorem State.modBlock_owners (s : State) (u : Nat) (f : Block → Block) : (s.modBlock u f).owners = s.owners := rfl
@[simp] theorem State.modBlock_uncertain (s : State) (u : Nat) (f : Block → Block) : (s.modBlock u f).uncertain = s.uncertain := rfl
@[simp] theorem State.modBlock_formers (s : State) (u : Nat) (f : Block → Block) : (s.modBlock u f).formers = s.formers := rfl
@[simp] theorem State.modBlock_freed (s : State) (u : Nat) (f : Block → Block) : (s.modBlock u f).freed = s.freed := rfl
@[simp] theorem State.modBlock_tlb (s : State) (u : Nat) (f : Block → Block) : (s.modBlock u f).tlb = s.tlb := rfl
@[simp] theorem State.modBlock_counters (s : State) (u : Nat) (f : Block → Block) : (s.modBlock u f).counters = s.counters := rfl
@[simp] theorem State.modBlock_stamps (s : State) (u : Nat) (f : Block → Block) : (s.modBlock u f).stamps = s.stamps := rfl
@[simp] theorem State.modBlock_gives (s : State) (u : Nat) (f : Block → Block) : (s.modBlock u f).gives = s.gives := rfl
@[simp] theorem State.modBlock_rings (s : State) (u : Nat) (f : Block → Block) : (s.modBlock u f).rings = s.rings := rfl
@[simp] theorem State.modBlock_ringWaits (s : State) (u : Nat) (f : Block → Block) : (s.modBlock u f).ringWaits = s.ringWaits := rfl
@[simp] theorem State.modBlock_groups (s : State) (u : Nat) (f : Block → Block) : (s.modBlock u f).groups = s.groups := rfl
@[simp] theorem State.modBlock_spills (s : State) (u : Nat) (f : Block → Block) : (s.modBlock u f).spills = s.spills := rfl
@[simp] theorem State.modBlock_ctxs (s : State) (u : Nat) (f : Block → Block) : (s.modBlock u f).ctxs = s.ctxs := rfl
@[simp] theorem State.modBlock_plat (s : State) (u : Nat) (f : Block → Block) : (s.modBlock u f).plat = s.plat := rfl
@[simp] theorem State.modBlock_ioLog (s : State) (u : Nat) (f : Block → Block) : (s.modBlock u f).ioLog = s.ioLog := rfl
@[simp] theorem State.modBlock_scOrder (s : State) (u : Nat) (f : Block → Block) : (s.modBlock u f).scOrder = s.scOrder := rfl
@[simp] theorem State.modBlock_nextId (s : State) (u : Nat) (f : Block → Block) : (s.modBlock u f).nextId = s.nextId := rfl
@[simp] theorem State.modBlock_freeCtr (s : State) (u : Nat) (f : Block → Block) : (s.modBlock u f).freeCtr = s.freeCtr := rfl
@[simp] theorem State.modBlock_issue (s : State) (u : Nat) (f : Block → Block) : (s.modBlock u f).issue = s.issue := rfl
@[simp] theorem State.modBlock_script (s : State) (u : Nat) (f : Block → Block) : (s.modBlock u f).script = s.script := rfl
@[simp] theorem State.modBlock_cycled (s : State) (u : Nat) (f : Block → Block) : (s.modBlock u f).cycled = s.cycled := rfl

/-! ### setBlock -/

@[simp] theorem State.setBlock_time (s : State) (b : Block) : (s.setBlock b).time = s.time := rfl
@[simp] theorem State.setBlock_dies (s : State) (b : Block) : (s.setBlock b).dies = s.dies := rfl
@[simp] theorem State.setBlock_cores (s : State) (b : Block) : (s.setBlock b).cores = s.cores := rfl
@[simp] theorem State.setBlock_warps (s : State) (b : Block) : (s.setBlock b).warps = s.warps := rfl
@[simp] theorem State.setBlock_blocks (s : State) (b : Block) : (s.setBlock b).blocks = replaceIf (fun x => x.uid == b.uid) (fun _ => b) s.blocks := rfl
@[simp] theorem State.setBlock_grids (s : State) (b : Block) : (s.setBlock b).grids = s.grids := rfl
@[simp] theorem State.setBlock_tasks (s : State) (b : Block) : (s.setBlock b).tasks = s.tasks := rfl
@[simp] theorem State.setBlock_engines (s : State) (b : Block) : (s.setBlock b).engines = s.engines := rfl
@[simp] theorem State.setBlock_owed (s : State) (b : Block) : (s.setBlock b).owed = s.owed := rfl
@[simp] theorem State.setBlock_msgs (s : State) (b : Block) : (s.setBlock b).msgs = s.msgs := rfl
@[simp] theorem State.setBlock_mem (s : State) (b : Block) : (s.setBlock b).mem = s.mem := rfl
@[simp] theorem State.setBlock_wells (s : State) (b : Block) : (s.setBlock b).wells = s.wells := rfl
@[simp] theorem State.setBlock_wellFull (s : State) (b : Block) : (s.setBlock b).wellFull = s.wellFull := rfl
@[simp] theorem State.setBlock_wellPoison (s : State) (b : Block) : (s.setBlock b).wellPoison = s.wellPoison := rfl
@[simp] theorem State.setBlock_wellBad (s : State) (b : Block) : (s.setBlock b).wellBad = s.wellBad := rfl
@[simp] theorem State.setBlock_wstoreBad (s : State) (b : Block) : (s.setBlock b).wstoreBad = s.wstoreBad := rfl
@[simp] theorem State.setBlock_bands (s : State) (b : Block) : (s.setBlock b).bands = s.bands := rfl
@[simp] theorem State.setBlock_l2 (s : State) (b : Block) : (s.setBlock b).l2 = s.l2 := rfl
@[simp] theorem State.setBlock_overflow (s : State) (b : Block) : (s.setBlock b).overflow = s.overflow := rfl
@[simp] theorem State.setBlock_farMarks (s : State) (b : Block) : (s.setBlock b).farMarks = s.farMarks := rfl
@[simp] theorem State.setBlock_peerMarks (s : State) (b : Block) : (s.setBlock b).peerMarks = s.peerMarks := rfl
@[simp] theorem State.setBlock_peerLast (s : State) (b : Block) : (s.setBlock b).peerLast = s.peerLast := rfl
@[simp] theorem State.setBlock_owners (s : State) (b : Block) : (s.setBlock b).owners = s.owners := rfl
@[simp] theorem State.setBlock_uncertain (s : State) (b : Block) : (s.setBlock b).uncertain = s.uncertain := rfl
@[simp] theorem State.setBlock_formers (s : State) (b : Block) : (s.setBlock b).formers = s.formers := rfl
@[simp] theorem State.setBlock_freed (s : State) (b : Block) : (s.setBlock b).freed = s.freed := rfl
@[simp] theorem State.setBlock_tlb (s : State) (b : Block) : (s.setBlock b).tlb = s.tlb := rfl
@[simp] theorem State.setBlock_counters (s : State) (b : Block) : (s.setBlock b).counters = s.counters := rfl
@[simp] theorem State.setBlock_stamps (s : State) (b : Block) : (s.setBlock b).stamps = s.stamps := rfl
@[simp] theorem State.setBlock_gives (s : State) (b : Block) : (s.setBlock b).gives = s.gives := rfl
@[simp] theorem State.setBlock_rings (s : State) (b : Block) : (s.setBlock b).rings = s.rings := rfl
@[simp] theorem State.setBlock_ringWaits (s : State) (b : Block) : (s.setBlock b).ringWaits = s.ringWaits := rfl
@[simp] theorem State.setBlock_groups (s : State) (b : Block) : (s.setBlock b).groups = s.groups := rfl
@[simp] theorem State.setBlock_spills (s : State) (b : Block) : (s.setBlock b).spills = s.spills := rfl
@[simp] theorem State.setBlock_ctxs (s : State) (b : Block) : (s.setBlock b).ctxs = s.ctxs := rfl
@[simp] theorem State.setBlock_plat (s : State) (b : Block) : (s.setBlock b).plat = s.plat := rfl
@[simp] theorem State.setBlock_ioLog (s : State) (b : Block) : (s.setBlock b).ioLog = s.ioLog := rfl
@[simp] theorem State.setBlock_scOrder (s : State) (b : Block) : (s.setBlock b).scOrder = s.scOrder := rfl
@[simp] theorem State.setBlock_nextId (s : State) (b : Block) : (s.setBlock b).nextId = s.nextId := rfl
@[simp] theorem State.setBlock_freeCtr (s : State) (b : Block) : (s.setBlock b).freeCtr = s.freeCtr := rfl
@[simp] theorem State.setBlock_issue (s : State) (b : Block) : (s.setBlock b).issue = s.issue := rfl
@[simp] theorem State.setBlock_script (s : State) (b : Block) : (s.setBlock b).script = s.script := rfl
@[simp] theorem State.setBlock_cycled (s : State) (b : Block) : (s.setBlock b).cycled = s.cycled := rfl

/-! ### modGrid -/

@[simp] theorem State.modGrid_time (s : State) (g : Nat) (f : Grid → Grid) : (s.modGrid g f).time = s.time := rfl
@[simp] theorem State.modGrid_dies (s : State) (g : Nat) (f : Grid → Grid) : (s.modGrid g f).dies = s.dies := rfl
@[simp] theorem State.modGrid_cores (s : State) (g : Nat) (f : Grid → Grid) : (s.modGrid g f).cores = s.cores := rfl
@[simp] theorem State.modGrid_warps (s : State) (g : Nat) (f : Grid → Grid) : (s.modGrid g f).warps = s.warps := rfl
@[simp] theorem State.modGrid_blocks (s : State) (g : Nat) (f : Grid → Grid) : (s.modGrid g f).blocks = s.blocks := rfl
@[simp] theorem State.modGrid_grids (s : State) (g : Nat) (f : Grid → Grid) : (s.modGrid g f).grids = replaceIf (fun x => x.gid == g) f s.grids := rfl
@[simp] theorem State.modGrid_tasks (s : State) (g : Nat) (f : Grid → Grid) : (s.modGrid g f).tasks = s.tasks := rfl
@[simp] theorem State.modGrid_engines (s : State) (g : Nat) (f : Grid → Grid) : (s.modGrid g f).engines = s.engines := rfl
@[simp] theorem State.modGrid_owed (s : State) (g : Nat) (f : Grid → Grid) : (s.modGrid g f).owed = s.owed := rfl
@[simp] theorem State.modGrid_msgs (s : State) (g : Nat) (f : Grid → Grid) : (s.modGrid g f).msgs = s.msgs := rfl
@[simp] theorem State.modGrid_mem (s : State) (g : Nat) (f : Grid → Grid) : (s.modGrid g f).mem = s.mem := rfl
@[simp] theorem State.modGrid_wells (s : State) (g : Nat) (f : Grid → Grid) : (s.modGrid g f).wells = s.wells := rfl
@[simp] theorem State.modGrid_wellFull (s : State) (g : Nat) (f : Grid → Grid) : (s.modGrid g f).wellFull = s.wellFull := rfl
@[simp] theorem State.modGrid_wellPoison (s : State) (g : Nat) (f : Grid → Grid) : (s.modGrid g f).wellPoison = s.wellPoison := rfl
@[simp] theorem State.modGrid_wellBad (s : State) (g : Nat) (f : Grid → Grid) : (s.modGrid g f).wellBad = s.wellBad := rfl
@[simp] theorem State.modGrid_wstoreBad (s : State) (g : Nat) (f : Grid → Grid) : (s.modGrid g f).wstoreBad = s.wstoreBad := rfl
@[simp] theorem State.modGrid_bands (s : State) (g : Nat) (f : Grid → Grid) : (s.modGrid g f).bands = s.bands := rfl
@[simp] theorem State.modGrid_l2 (s : State) (g : Nat) (f : Grid → Grid) : (s.modGrid g f).l2 = s.l2 := rfl
@[simp] theorem State.modGrid_overflow (s : State) (g : Nat) (f : Grid → Grid) : (s.modGrid g f).overflow = s.overflow := rfl
@[simp] theorem State.modGrid_farMarks (s : State) (g : Nat) (f : Grid → Grid) : (s.modGrid g f).farMarks = s.farMarks := rfl
@[simp] theorem State.modGrid_peerMarks (s : State) (g : Nat) (f : Grid → Grid) : (s.modGrid g f).peerMarks = s.peerMarks := rfl
@[simp] theorem State.modGrid_peerLast (s : State) (g : Nat) (f : Grid → Grid) : (s.modGrid g f).peerLast = s.peerLast := rfl
@[simp] theorem State.modGrid_owners (s : State) (g : Nat) (f : Grid → Grid) : (s.modGrid g f).owners = s.owners := rfl
@[simp] theorem State.modGrid_uncertain (s : State) (g : Nat) (f : Grid → Grid) : (s.modGrid g f).uncertain = s.uncertain := rfl
@[simp] theorem State.modGrid_formers (s : State) (g : Nat) (f : Grid → Grid) : (s.modGrid g f).formers = s.formers := rfl
@[simp] theorem State.modGrid_freed (s : State) (g : Nat) (f : Grid → Grid) : (s.modGrid g f).freed = s.freed := rfl
@[simp] theorem State.modGrid_tlb (s : State) (g : Nat) (f : Grid → Grid) : (s.modGrid g f).tlb = s.tlb := rfl
@[simp] theorem State.modGrid_counters (s : State) (g : Nat) (f : Grid → Grid) : (s.modGrid g f).counters = s.counters := rfl
@[simp] theorem State.modGrid_stamps (s : State) (g : Nat) (f : Grid → Grid) : (s.modGrid g f).stamps = s.stamps := rfl
@[simp] theorem State.modGrid_gives (s : State) (g : Nat) (f : Grid → Grid) : (s.modGrid g f).gives = s.gives := rfl
@[simp] theorem State.modGrid_rings (s : State) (g : Nat) (f : Grid → Grid) : (s.modGrid g f).rings = s.rings := rfl
@[simp] theorem State.modGrid_ringWaits (s : State) (g : Nat) (f : Grid → Grid) : (s.modGrid g f).ringWaits = s.ringWaits := rfl
@[simp] theorem State.modGrid_groups (s : State) (g : Nat) (f : Grid → Grid) : (s.modGrid g f).groups = s.groups := rfl
@[simp] theorem State.modGrid_spills (s : State) (g : Nat) (f : Grid → Grid) : (s.modGrid g f).spills = s.spills := rfl
@[simp] theorem State.modGrid_ctxs (s : State) (g : Nat) (f : Grid → Grid) : (s.modGrid g f).ctxs = s.ctxs := rfl
@[simp] theorem State.modGrid_plat (s : State) (g : Nat) (f : Grid → Grid) : (s.modGrid g f).plat = s.plat := rfl
@[simp] theorem State.modGrid_ioLog (s : State) (g : Nat) (f : Grid → Grid) : (s.modGrid g f).ioLog = s.ioLog := rfl
@[simp] theorem State.modGrid_scOrder (s : State) (g : Nat) (f : Grid → Grid) : (s.modGrid g f).scOrder = s.scOrder := rfl
@[simp] theorem State.modGrid_nextId (s : State) (g : Nat) (f : Grid → Grid) : (s.modGrid g f).nextId = s.nextId := rfl
@[simp] theorem State.modGrid_freeCtr (s : State) (g : Nat) (f : Grid → Grid) : (s.modGrid g f).freeCtr = s.freeCtr := rfl
@[simp] theorem State.modGrid_issue (s : State) (g : Nat) (f : Grid → Grid) : (s.modGrid g f).issue = s.issue := rfl
@[simp] theorem State.modGrid_script (s : State) (g : Nat) (f : Grid → Grid) : (s.modGrid g f).script = s.script := rfl
@[simp] theorem State.modGrid_cycled (s : State) (g : Nat) (f : Grid → Grid) : (s.modGrid g f).cycled = s.cycled := rfl

/-! ### modTask -/

@[simp] theorem State.modTask_time (s : State) (q i : Nat) (f : Task → Task) : (s.modTask q i f).time = s.time := rfl
@[simp] theorem State.modTask_dies (s : State) (q i : Nat) (f : Task → Task) : (s.modTask q i f).dies = s.dies := rfl
@[simp] theorem State.modTask_cores (s : State) (q i : Nat) (f : Task → Task) : (s.modTask q i f).cores = s.cores := rfl
@[simp] theorem State.modTask_warps (s : State) (q i : Nat) (f : Task → Task) : (s.modTask q i f).warps = s.warps := rfl
@[simp] theorem State.modTask_blocks (s : State) (q i : Nat) (f : Task → Task) : (s.modTask q i f).blocks = s.blocks := rfl
@[simp] theorem State.modTask_grids (s : State) (q i : Nat) (f : Task → Task) : (s.modTask q i f).grids = s.grids := rfl
@[simp] theorem State.modTask_tasks (s : State) (q i : Nat) (f : Task → Task) : (s.modTask q i f).tasks = replaceIf (fun t => t.queue == q && t.index == i) f s.tasks := rfl
@[simp] theorem State.modTask_engines (s : State) (q i : Nat) (f : Task → Task) : (s.modTask q i f).engines = s.engines := rfl
@[simp] theorem State.modTask_owed (s : State) (q i : Nat) (f : Task → Task) : (s.modTask q i f).owed = s.owed := rfl
@[simp] theorem State.modTask_msgs (s : State) (q i : Nat) (f : Task → Task) : (s.modTask q i f).msgs = s.msgs := rfl
@[simp] theorem State.modTask_mem (s : State) (q i : Nat) (f : Task → Task) : (s.modTask q i f).mem = s.mem := rfl
@[simp] theorem State.modTask_wells (s : State) (q i : Nat) (f : Task → Task) : (s.modTask q i f).wells = s.wells := rfl
@[simp] theorem State.modTask_wellFull (s : State) (q i : Nat) (f : Task → Task) : (s.modTask q i f).wellFull = s.wellFull := rfl
@[simp] theorem State.modTask_wellPoison (s : State) (q i : Nat) (f : Task → Task) : (s.modTask q i f).wellPoison = s.wellPoison := rfl
@[simp] theorem State.modTask_wellBad (s : State) (q i : Nat) (f : Task → Task) : (s.modTask q i f).wellBad = s.wellBad := rfl
@[simp] theorem State.modTask_wstoreBad (s : State) (q i : Nat) (f : Task → Task) : (s.modTask q i f).wstoreBad = s.wstoreBad := rfl
@[simp] theorem State.modTask_bands (s : State) (q i : Nat) (f : Task → Task) : (s.modTask q i f).bands = s.bands := rfl
@[simp] theorem State.modTask_l2 (s : State) (q i : Nat) (f : Task → Task) : (s.modTask q i f).l2 = s.l2 := rfl
@[simp] theorem State.modTask_overflow (s : State) (q i : Nat) (f : Task → Task) : (s.modTask q i f).overflow = s.overflow := rfl
@[simp] theorem State.modTask_farMarks (s : State) (q i : Nat) (f : Task → Task) : (s.modTask q i f).farMarks = s.farMarks := rfl
@[simp] theorem State.modTask_peerMarks (s : State) (q i : Nat) (f : Task → Task) : (s.modTask q i f).peerMarks = s.peerMarks := rfl
@[simp] theorem State.modTask_peerLast (s : State) (q i : Nat) (f : Task → Task) : (s.modTask q i f).peerLast = s.peerLast := rfl
@[simp] theorem State.modTask_owners (s : State) (q i : Nat) (f : Task → Task) : (s.modTask q i f).owners = s.owners := rfl
@[simp] theorem State.modTask_uncertain (s : State) (q i : Nat) (f : Task → Task) : (s.modTask q i f).uncertain = s.uncertain := rfl
@[simp] theorem State.modTask_formers (s : State) (q i : Nat) (f : Task → Task) : (s.modTask q i f).formers = s.formers := rfl
@[simp] theorem State.modTask_freed (s : State) (q i : Nat) (f : Task → Task) : (s.modTask q i f).freed = s.freed := rfl
@[simp] theorem State.modTask_tlb (s : State) (q i : Nat) (f : Task → Task) : (s.modTask q i f).tlb = s.tlb := rfl
@[simp] theorem State.modTask_counters (s : State) (q i : Nat) (f : Task → Task) : (s.modTask q i f).counters = s.counters := rfl
@[simp] theorem State.modTask_stamps (s : State) (q i : Nat) (f : Task → Task) : (s.modTask q i f).stamps = s.stamps := rfl
@[simp] theorem State.modTask_gives (s : State) (q i : Nat) (f : Task → Task) : (s.modTask q i f).gives = s.gives := rfl
@[simp] theorem State.modTask_rings (s : State) (q i : Nat) (f : Task → Task) : (s.modTask q i f).rings = s.rings := rfl
@[simp] theorem State.modTask_ringWaits (s : State) (q i : Nat) (f : Task → Task) : (s.modTask q i f).ringWaits = s.ringWaits := rfl
@[simp] theorem State.modTask_groups (s : State) (q i : Nat) (f : Task → Task) : (s.modTask q i f).groups = s.groups := rfl
@[simp] theorem State.modTask_spills (s : State) (q i : Nat) (f : Task → Task) : (s.modTask q i f).spills = s.spills := rfl
@[simp] theorem State.modTask_ctxs (s : State) (q i : Nat) (f : Task → Task) : (s.modTask q i f).ctxs = s.ctxs := rfl
@[simp] theorem State.modTask_plat (s : State) (q i : Nat) (f : Task → Task) : (s.modTask q i f).plat = s.plat := rfl
@[simp] theorem State.modTask_ioLog (s : State) (q i : Nat) (f : Task → Task) : (s.modTask q i f).ioLog = s.ioLog := rfl
@[simp] theorem State.modTask_scOrder (s : State) (q i : Nat) (f : Task → Task) : (s.modTask q i f).scOrder = s.scOrder := rfl
@[simp] theorem State.modTask_nextId (s : State) (q i : Nat) (f : Task → Task) : (s.modTask q i f).nextId = s.nextId := rfl
@[simp] theorem State.modTask_freeCtr (s : State) (q i : Nat) (f : Task → Task) : (s.modTask q i f).freeCtr = s.freeCtr := rfl
@[simp] theorem State.modTask_issue (s : State) (q i : Nat) (f : Task → Task) : (s.modTask q i f).issue = s.issue := rfl
@[simp] theorem State.modTask_script (s : State) (q i : Nat) (f : Task → Task) : (s.modTask q i f).script = s.script := rfl
@[simp] theorem State.modTask_cycled (s : State) (q i : Nat) (f : Task → Task) : (s.modTask q i f).cycled = s.cycled := rfl

/-! ### modEngine -/

@[simp] theorem State.modEngine_time (s : State) (e : Nat) (f : Engine → Engine) : (s.modEngine e f).time = s.time := rfl
@[simp] theorem State.modEngine_dies (s : State) (e : Nat) (f : Engine → Engine) : (s.modEngine e f).dies = s.dies := rfl
@[simp] theorem State.modEngine_cores (s : State) (e : Nat) (f : Engine → Engine) : (s.modEngine e f).cores = s.cores := rfl
@[simp] theorem State.modEngine_warps (s : State) (e : Nat) (f : Engine → Engine) : (s.modEngine e f).warps = s.warps := rfl
@[simp] theorem State.modEngine_blocks (s : State) (e : Nat) (f : Engine → Engine) : (s.modEngine e f).blocks = s.blocks := rfl
@[simp] theorem State.modEngine_grids (s : State) (e : Nat) (f : Engine → Engine) : (s.modEngine e f).grids = s.grids := rfl
@[simp] theorem State.modEngine_tasks (s : State) (e : Nat) (f : Engine → Engine) : (s.modEngine e f).tasks = s.tasks := rfl
@[simp] theorem State.modEngine_engines (s : State) (e : Nat) (f : Engine → Engine) : (s.modEngine e f).engines = replaceIf (fun x => x.id == e) f s.engines := rfl
@[simp] theorem State.modEngine_owed (s : State) (e : Nat) (f : Engine → Engine) : (s.modEngine e f).owed = s.owed := rfl
@[simp] theorem State.modEngine_msgs (s : State) (e : Nat) (f : Engine → Engine) : (s.modEngine e f).msgs = s.msgs := rfl
@[simp] theorem State.modEngine_mem (s : State) (e : Nat) (f : Engine → Engine) : (s.modEngine e f).mem = s.mem := rfl
@[simp] theorem State.modEngine_wells (s : State) (e : Nat) (f : Engine → Engine) : (s.modEngine e f).wells = s.wells := rfl
@[simp] theorem State.modEngine_wellFull (s : State) (e : Nat) (f : Engine → Engine) : (s.modEngine e f).wellFull = s.wellFull := rfl
@[simp] theorem State.modEngine_wellPoison (s : State) (e : Nat) (f : Engine → Engine) : (s.modEngine e f).wellPoison = s.wellPoison := rfl
@[simp] theorem State.modEngine_wellBad (s : State) (e : Nat) (f : Engine → Engine) : (s.modEngine e f).wellBad = s.wellBad := rfl
@[simp] theorem State.modEngine_wstoreBad (s : State) (e : Nat) (f : Engine → Engine) : (s.modEngine e f).wstoreBad = s.wstoreBad := rfl
@[simp] theorem State.modEngine_bands (s : State) (e : Nat) (f : Engine → Engine) : (s.modEngine e f).bands = s.bands := rfl
@[simp] theorem State.modEngine_l2 (s : State) (e : Nat) (f : Engine → Engine) : (s.modEngine e f).l2 = s.l2 := rfl
@[simp] theorem State.modEngine_overflow (s : State) (e : Nat) (f : Engine → Engine) : (s.modEngine e f).overflow = s.overflow := rfl
@[simp] theorem State.modEngine_farMarks (s : State) (e : Nat) (f : Engine → Engine) : (s.modEngine e f).farMarks = s.farMarks := rfl
@[simp] theorem State.modEngine_peerMarks (s : State) (e : Nat) (f : Engine → Engine) : (s.modEngine e f).peerMarks = s.peerMarks := rfl
@[simp] theorem State.modEngine_peerLast (s : State) (e : Nat) (f : Engine → Engine) : (s.modEngine e f).peerLast = s.peerLast := rfl
@[simp] theorem State.modEngine_owners (s : State) (e : Nat) (f : Engine → Engine) : (s.modEngine e f).owners = s.owners := rfl
@[simp] theorem State.modEngine_uncertain (s : State) (e : Nat) (f : Engine → Engine) : (s.modEngine e f).uncertain = s.uncertain := rfl
@[simp] theorem State.modEngine_formers (s : State) (e : Nat) (f : Engine → Engine) : (s.modEngine e f).formers = s.formers := rfl
@[simp] theorem State.modEngine_freed (s : State) (e : Nat) (f : Engine → Engine) : (s.modEngine e f).freed = s.freed := rfl
@[simp] theorem State.modEngine_tlb (s : State) (e : Nat) (f : Engine → Engine) : (s.modEngine e f).tlb = s.tlb := rfl
@[simp] theorem State.modEngine_counters (s : State) (e : Nat) (f : Engine → Engine) : (s.modEngine e f).counters = s.counters := rfl
@[simp] theorem State.modEngine_stamps (s : State) (e : Nat) (f : Engine → Engine) : (s.modEngine e f).stamps = s.stamps := rfl
@[simp] theorem State.modEngine_gives (s : State) (e : Nat) (f : Engine → Engine) : (s.modEngine e f).gives = s.gives := rfl
@[simp] theorem State.modEngine_rings (s : State) (e : Nat) (f : Engine → Engine) : (s.modEngine e f).rings = s.rings := rfl
@[simp] theorem State.modEngine_ringWaits (s : State) (e : Nat) (f : Engine → Engine) : (s.modEngine e f).ringWaits = s.ringWaits := rfl
@[simp] theorem State.modEngine_groups (s : State) (e : Nat) (f : Engine → Engine) : (s.modEngine e f).groups = s.groups := rfl
@[simp] theorem State.modEngine_spills (s : State) (e : Nat) (f : Engine → Engine) : (s.modEngine e f).spills = s.spills := rfl
@[simp] theorem State.modEngine_ctxs (s : State) (e : Nat) (f : Engine → Engine) : (s.modEngine e f).ctxs = s.ctxs := rfl
@[simp] theorem State.modEngine_plat (s : State) (e : Nat) (f : Engine → Engine) : (s.modEngine e f).plat = s.plat := rfl
@[simp] theorem State.modEngine_ioLog (s : State) (e : Nat) (f : Engine → Engine) : (s.modEngine e f).ioLog = s.ioLog := rfl
@[simp] theorem State.modEngine_scOrder (s : State) (e : Nat) (f : Engine → Engine) : (s.modEngine e f).scOrder = s.scOrder := rfl
@[simp] theorem State.modEngine_nextId (s : State) (e : Nat) (f : Engine → Engine) : (s.modEngine e f).nextId = s.nextId := rfl
@[simp] theorem State.modEngine_freeCtr (s : State) (e : Nat) (f : Engine → Engine) : (s.modEngine e f).freeCtr = s.freeCtr := rfl
@[simp] theorem State.modEngine_issue (s : State) (e : Nat) (f : Engine → Engine) : (s.modEngine e f).issue = s.issue := rfl
@[simp] theorem State.modEngine_script (s : State) (e : Nat) (f : Engine → Engine) : (s.modEngine e f).script = s.script := rfl
@[simp] theorem State.modEngine_cycled (s : State) (e : Nat) (f : Engine → Engine) : (s.modEngine e f).cycled = s.cycled := rfl

/-! ### modEngines -/

@[simp] theorem State.modEngines_time (s : State) (p : Engine → Bool) (f : Engine → Engine) : (s.modEngines p f).time = s.time := rfl
@[simp] theorem State.modEngines_dies (s : State) (p : Engine → Bool) (f : Engine → Engine) : (s.modEngines p f).dies = s.dies := rfl
@[simp] theorem State.modEngines_cores (s : State) (p : Engine → Bool) (f : Engine → Engine) : (s.modEngines p f).cores = s.cores := rfl
@[simp] theorem State.modEngines_warps (s : State) (p : Engine → Bool) (f : Engine → Engine) : (s.modEngines p f).warps = s.warps := rfl
@[simp] theorem State.modEngines_blocks (s : State) (p : Engine → Bool) (f : Engine → Engine) : (s.modEngines p f).blocks = s.blocks := rfl
@[simp] theorem State.modEngines_grids (s : State) (p : Engine → Bool) (f : Engine → Engine) : (s.modEngines p f).grids = s.grids := rfl
@[simp] theorem State.modEngines_tasks (s : State) (p : Engine → Bool) (f : Engine → Engine) : (s.modEngines p f).tasks = s.tasks := rfl
@[simp] theorem State.modEngines_engines (s : State) (p : Engine → Bool) (f : Engine → Engine) : (s.modEngines p f).engines = replaceIf p f s.engines := rfl
@[simp] theorem State.modEngines_owed (s : State) (p : Engine → Bool) (f : Engine → Engine) : (s.modEngines p f).owed = s.owed := rfl
@[simp] theorem State.modEngines_msgs (s : State) (p : Engine → Bool) (f : Engine → Engine) : (s.modEngines p f).msgs = s.msgs := rfl
@[simp] theorem State.modEngines_mem (s : State) (p : Engine → Bool) (f : Engine → Engine) : (s.modEngines p f).mem = s.mem := rfl
@[simp] theorem State.modEngines_wells (s : State) (p : Engine → Bool) (f : Engine → Engine) : (s.modEngines p f).wells = s.wells := rfl
@[simp] theorem State.modEngines_wellFull (s : State) (p : Engine → Bool) (f : Engine → Engine) : (s.modEngines p f).wellFull = s.wellFull := rfl
@[simp] theorem State.modEngines_wellPoison (s : State) (p : Engine → Bool) (f : Engine → Engine) : (s.modEngines p f).wellPoison = s.wellPoison := rfl
@[simp] theorem State.modEngines_wellBad (s : State) (p : Engine → Bool) (f : Engine → Engine) : (s.modEngines p f).wellBad = s.wellBad := rfl
@[simp] theorem State.modEngines_wstoreBad (s : State) (p : Engine → Bool) (f : Engine → Engine) : (s.modEngines p f).wstoreBad = s.wstoreBad := rfl
@[simp] theorem State.modEngines_bands (s : State) (p : Engine → Bool) (f : Engine → Engine) : (s.modEngines p f).bands = s.bands := rfl
@[simp] theorem State.modEngines_l2 (s : State) (p : Engine → Bool) (f : Engine → Engine) : (s.modEngines p f).l2 = s.l2 := rfl
@[simp] theorem State.modEngines_overflow (s : State) (p : Engine → Bool) (f : Engine → Engine) : (s.modEngines p f).overflow = s.overflow := rfl
@[simp] theorem State.modEngines_farMarks (s : State) (p : Engine → Bool) (f : Engine → Engine) : (s.modEngines p f).farMarks = s.farMarks := rfl
@[simp] theorem State.modEngines_peerMarks (s : State) (p : Engine → Bool) (f : Engine → Engine) : (s.modEngines p f).peerMarks = s.peerMarks := rfl
@[simp] theorem State.modEngines_peerLast (s : State) (p : Engine → Bool) (f : Engine → Engine) : (s.modEngines p f).peerLast = s.peerLast := rfl
@[simp] theorem State.modEngines_owners (s : State) (p : Engine → Bool) (f : Engine → Engine) : (s.modEngines p f).owners = s.owners := rfl
@[simp] theorem State.modEngines_uncertain (s : State) (p : Engine → Bool) (f : Engine → Engine) : (s.modEngines p f).uncertain = s.uncertain := rfl
@[simp] theorem State.modEngines_formers (s : State) (p : Engine → Bool) (f : Engine → Engine) : (s.modEngines p f).formers = s.formers := rfl
@[simp] theorem State.modEngines_freed (s : State) (p : Engine → Bool) (f : Engine → Engine) : (s.modEngines p f).freed = s.freed := rfl
@[simp] theorem State.modEngines_tlb (s : State) (p : Engine → Bool) (f : Engine → Engine) : (s.modEngines p f).tlb = s.tlb := rfl
@[simp] theorem State.modEngines_counters (s : State) (p : Engine → Bool) (f : Engine → Engine) : (s.modEngines p f).counters = s.counters := rfl
@[simp] theorem State.modEngines_stamps (s : State) (p : Engine → Bool) (f : Engine → Engine) : (s.modEngines p f).stamps = s.stamps := rfl
@[simp] theorem State.modEngines_gives (s : State) (p : Engine → Bool) (f : Engine → Engine) : (s.modEngines p f).gives = s.gives := rfl
@[simp] theorem State.modEngines_rings (s : State) (p : Engine → Bool) (f : Engine → Engine) : (s.modEngines p f).rings = s.rings := rfl
@[simp] theorem State.modEngines_ringWaits (s : State) (p : Engine → Bool) (f : Engine → Engine) : (s.modEngines p f).ringWaits = s.ringWaits := rfl
@[simp] theorem State.modEngines_groups (s : State) (p : Engine → Bool) (f : Engine → Engine) : (s.modEngines p f).groups = s.groups := rfl
@[simp] theorem State.modEngines_spills (s : State) (p : Engine → Bool) (f : Engine → Engine) : (s.modEngines p f).spills = s.spills := rfl
@[simp] theorem State.modEngines_ctxs (s : State) (p : Engine → Bool) (f : Engine → Engine) : (s.modEngines p f).ctxs = s.ctxs := rfl
@[simp] theorem State.modEngines_plat (s : State) (p : Engine → Bool) (f : Engine → Engine) : (s.modEngines p f).plat = s.plat := rfl
@[simp] theorem State.modEngines_ioLog (s : State) (p : Engine → Bool) (f : Engine → Engine) : (s.modEngines p f).ioLog = s.ioLog := rfl
@[simp] theorem State.modEngines_scOrder (s : State) (p : Engine → Bool) (f : Engine → Engine) : (s.modEngines p f).scOrder = s.scOrder := rfl
@[simp] theorem State.modEngines_nextId (s : State) (p : Engine → Bool) (f : Engine → Engine) : (s.modEngines p f).nextId = s.nextId := rfl
@[simp] theorem State.modEngines_freeCtr (s : State) (p : Engine → Bool) (f : Engine → Engine) : (s.modEngines p f).freeCtr = s.freeCtr := rfl
@[simp] theorem State.modEngines_issue (s : State) (p : Engine → Bool) (f : Engine → Engine) : (s.modEngines p f).issue = s.issue := rfl
@[simp] theorem State.modEngines_script (s : State) (p : Engine → Bool) (f : Engine → Engine) : (s.modEngines p f).script = s.script := rfl
@[simp] theorem State.modEngines_cycled (s : State) (p : Engine → Bool) (f : Engine → Engine) : (s.modEngines p f).cycled = s.cycled := rfl

/-! ### modCores -/

@[simp] theorem State.modCores_time (s : State) (f : Core → Core) : (s.modCores f).time = s.time := rfl
@[simp] theorem State.modCores_dies (s : State) (f : Core → Core) : (s.modCores f).dies = s.dies := rfl
@[simp] theorem State.modCores_cores (s : State) (f : Core → Core) : (s.modCores f).cores = s.cores.map f := rfl
@[simp] theorem State.modCores_warps (s : State) (f : Core → Core) : (s.modCores f).warps = s.warps := rfl
@[simp] theorem State.modCores_blocks (s : State) (f : Core → Core) : (s.modCores f).blocks = s.blocks := rfl
@[simp] theorem State.modCores_grids (s : State) (f : Core → Core) : (s.modCores f).grids = s.grids := rfl
@[simp] theorem State.modCores_tasks (s : State) (f : Core → Core) : (s.modCores f).tasks = s.tasks := rfl
@[simp] theorem State.modCores_engines (s : State) (f : Core → Core) : (s.modCores f).engines = s.engines := rfl
@[simp] theorem State.modCores_owed (s : State) (f : Core → Core) : (s.modCores f).owed = s.owed := rfl
@[simp] theorem State.modCores_msgs (s : State) (f : Core → Core) : (s.modCores f).msgs = s.msgs := rfl
@[simp] theorem State.modCores_mem (s : State) (f : Core → Core) : (s.modCores f).mem = s.mem := rfl
@[simp] theorem State.modCores_wells (s : State) (f : Core → Core) : (s.modCores f).wells = s.wells := rfl
@[simp] theorem State.modCores_wellFull (s : State) (f : Core → Core) : (s.modCores f).wellFull = s.wellFull := rfl
@[simp] theorem State.modCores_wellPoison (s : State) (f : Core → Core) : (s.modCores f).wellPoison = s.wellPoison := rfl
@[simp] theorem State.modCores_wellBad (s : State) (f : Core → Core) : (s.modCores f).wellBad = s.wellBad := rfl
@[simp] theorem State.modCores_wstoreBad (s : State) (f : Core → Core) : (s.modCores f).wstoreBad = s.wstoreBad := rfl
@[simp] theorem State.modCores_bands (s : State) (f : Core → Core) : (s.modCores f).bands = s.bands := rfl
@[simp] theorem State.modCores_l2 (s : State) (f : Core → Core) : (s.modCores f).l2 = s.l2 := rfl
@[simp] theorem State.modCores_overflow (s : State) (f : Core → Core) : (s.modCores f).overflow = s.overflow := rfl
@[simp] theorem State.modCores_farMarks (s : State) (f : Core → Core) : (s.modCores f).farMarks = s.farMarks := rfl
@[simp] theorem State.modCores_peerMarks (s : State) (f : Core → Core) : (s.modCores f).peerMarks = s.peerMarks := rfl
@[simp] theorem State.modCores_peerLast (s : State) (f : Core → Core) : (s.modCores f).peerLast = s.peerLast := rfl
@[simp] theorem State.modCores_owners (s : State) (f : Core → Core) : (s.modCores f).owners = s.owners := rfl
@[simp] theorem State.modCores_uncertain (s : State) (f : Core → Core) : (s.modCores f).uncertain = s.uncertain := rfl
@[simp] theorem State.modCores_formers (s : State) (f : Core → Core) : (s.modCores f).formers = s.formers := rfl
@[simp] theorem State.modCores_freed (s : State) (f : Core → Core) : (s.modCores f).freed = s.freed := rfl
@[simp] theorem State.modCores_tlb (s : State) (f : Core → Core) : (s.modCores f).tlb = s.tlb := rfl
@[simp] theorem State.modCores_counters (s : State) (f : Core → Core) : (s.modCores f).counters = s.counters := rfl
@[simp] theorem State.modCores_stamps (s : State) (f : Core → Core) : (s.modCores f).stamps = s.stamps := rfl
@[simp] theorem State.modCores_gives (s : State) (f : Core → Core) : (s.modCores f).gives = s.gives := rfl
@[simp] theorem State.modCores_rings (s : State) (f : Core → Core) : (s.modCores f).rings = s.rings := rfl
@[simp] theorem State.modCores_ringWaits (s : State) (f : Core → Core) : (s.modCores f).ringWaits = s.ringWaits := rfl
@[simp] theorem State.modCores_groups (s : State) (f : Core → Core) : (s.modCores f).groups = s.groups := rfl
@[simp] theorem State.modCores_spills (s : State) (f : Core → Core) : (s.modCores f).spills = s.spills := rfl
@[simp] theorem State.modCores_ctxs (s : State) (f : Core → Core) : (s.modCores f).ctxs = s.ctxs := rfl
@[simp] theorem State.modCores_plat (s : State) (f : Core → Core) : (s.modCores f).plat = s.plat := rfl
@[simp] theorem State.modCores_ioLog (s : State) (f : Core → Core) : (s.modCores f).ioLog = s.ioLog := rfl
@[simp] theorem State.modCores_scOrder (s : State) (f : Core → Core) : (s.modCores f).scOrder = s.scOrder := rfl
@[simp] theorem State.modCores_nextId (s : State) (f : Core → Core) : (s.modCores f).nextId = s.nextId := rfl
@[simp] theorem State.modCores_freeCtr (s : State) (f : Core → Core) : (s.modCores f).freeCtr = s.freeCtr := rfl
@[simp] theorem State.modCores_issue (s : State) (f : Core → Core) : (s.modCores f).issue = s.issue := rfl
@[simp] theorem State.modCores_script (s : State) (f : Core → Core) : (s.modCores f).script = s.script := rfl
@[simp] theorem State.modCores_cycled (s : State) (f : Core → Core) : (s.modCores f).cycled = s.cycled := rfl

/-! ### modOwed -/

@[simp] theorem State.modOwed_time (s : State) (o : Nat) (f : Owed → Owed) : (s.modOwed o f).time = s.time := rfl
@[simp] theorem State.modOwed_dies (s : State) (o : Nat) (f : Owed → Owed) : (s.modOwed o f).dies = s.dies := rfl
@[simp] theorem State.modOwed_cores (s : State) (o : Nat) (f : Owed → Owed) : (s.modOwed o f).cores = s.cores := rfl
@[simp] theorem State.modOwed_warps (s : State) (o : Nat) (f : Owed → Owed) : (s.modOwed o f).warps = s.warps := rfl
@[simp] theorem State.modOwed_blocks (s : State) (o : Nat) (f : Owed → Owed) : (s.modOwed o f).blocks = s.blocks := rfl
@[simp] theorem State.modOwed_grids (s : State) (o : Nat) (f : Owed → Owed) : (s.modOwed o f).grids = s.grids := rfl
@[simp] theorem State.modOwed_tasks (s : State) (o : Nat) (f : Owed → Owed) : (s.modOwed o f).tasks = s.tasks := rfl
@[simp] theorem State.modOwed_engines (s : State) (o : Nat) (f : Owed → Owed) : (s.modOwed o f).engines = s.engines := rfl
@[simp] theorem State.modOwed_owed (s : State) (o : Nat) (f : Owed → Owed) : (s.modOwed o f).owed = replaceIf (fun x => x.id == o) f s.owed := rfl
@[simp] theorem State.modOwed_msgs (s : State) (o : Nat) (f : Owed → Owed) : (s.modOwed o f).msgs = s.msgs := rfl
@[simp] theorem State.modOwed_mem (s : State) (o : Nat) (f : Owed → Owed) : (s.modOwed o f).mem = s.mem := rfl
@[simp] theorem State.modOwed_wells (s : State) (o : Nat) (f : Owed → Owed) : (s.modOwed o f).wells = s.wells := rfl
@[simp] theorem State.modOwed_wellFull (s : State) (o : Nat) (f : Owed → Owed) : (s.modOwed o f).wellFull = s.wellFull := rfl
@[simp] theorem State.modOwed_wellPoison (s : State) (o : Nat) (f : Owed → Owed) : (s.modOwed o f).wellPoison = s.wellPoison := rfl
@[simp] theorem State.modOwed_wellBad (s : State) (o : Nat) (f : Owed → Owed) : (s.modOwed o f).wellBad = s.wellBad := rfl
@[simp] theorem State.modOwed_wstoreBad (s : State) (o : Nat) (f : Owed → Owed) : (s.modOwed o f).wstoreBad = s.wstoreBad := rfl
@[simp] theorem State.modOwed_bands (s : State) (o : Nat) (f : Owed → Owed) : (s.modOwed o f).bands = s.bands := rfl
@[simp] theorem State.modOwed_l2 (s : State) (o : Nat) (f : Owed → Owed) : (s.modOwed o f).l2 = s.l2 := rfl
@[simp] theorem State.modOwed_overflow (s : State) (o : Nat) (f : Owed → Owed) : (s.modOwed o f).overflow = s.overflow := rfl
@[simp] theorem State.modOwed_farMarks (s : State) (o : Nat) (f : Owed → Owed) : (s.modOwed o f).farMarks = s.farMarks := rfl
@[simp] theorem State.modOwed_peerMarks (s : State) (o : Nat) (f : Owed → Owed) : (s.modOwed o f).peerMarks = s.peerMarks := rfl
@[simp] theorem State.modOwed_peerLast (s : State) (o : Nat) (f : Owed → Owed) : (s.modOwed o f).peerLast = s.peerLast := rfl
@[simp] theorem State.modOwed_owners (s : State) (o : Nat) (f : Owed → Owed) : (s.modOwed o f).owners = s.owners := rfl
@[simp] theorem State.modOwed_uncertain (s : State) (o : Nat) (f : Owed → Owed) : (s.modOwed o f).uncertain = s.uncertain := rfl
@[simp] theorem State.modOwed_formers (s : State) (o : Nat) (f : Owed → Owed) : (s.modOwed o f).formers = s.formers := rfl
@[simp] theorem State.modOwed_freed (s : State) (o : Nat) (f : Owed → Owed) : (s.modOwed o f).freed = s.freed := rfl
@[simp] theorem State.modOwed_tlb (s : State) (o : Nat) (f : Owed → Owed) : (s.modOwed o f).tlb = s.tlb := rfl
@[simp] theorem State.modOwed_counters (s : State) (o : Nat) (f : Owed → Owed) : (s.modOwed o f).counters = s.counters := rfl
@[simp] theorem State.modOwed_stamps (s : State) (o : Nat) (f : Owed → Owed) : (s.modOwed o f).stamps = s.stamps := rfl
@[simp] theorem State.modOwed_gives (s : State) (o : Nat) (f : Owed → Owed) : (s.modOwed o f).gives = s.gives := rfl
@[simp] theorem State.modOwed_rings (s : State) (o : Nat) (f : Owed → Owed) : (s.modOwed o f).rings = s.rings := rfl
@[simp] theorem State.modOwed_ringWaits (s : State) (o : Nat) (f : Owed → Owed) : (s.modOwed o f).ringWaits = s.ringWaits := rfl
@[simp] theorem State.modOwed_groups (s : State) (o : Nat) (f : Owed → Owed) : (s.modOwed o f).groups = s.groups := rfl
@[simp] theorem State.modOwed_spills (s : State) (o : Nat) (f : Owed → Owed) : (s.modOwed o f).spills = s.spills := rfl
@[simp] theorem State.modOwed_ctxs (s : State) (o : Nat) (f : Owed → Owed) : (s.modOwed o f).ctxs = s.ctxs := rfl
@[simp] theorem State.modOwed_plat (s : State) (o : Nat) (f : Owed → Owed) : (s.modOwed o f).plat = s.plat := rfl
@[simp] theorem State.modOwed_ioLog (s : State) (o : Nat) (f : Owed → Owed) : (s.modOwed o f).ioLog = s.ioLog := rfl
@[simp] theorem State.modOwed_scOrder (s : State) (o : Nat) (f : Owed → Owed) : (s.modOwed o f).scOrder = s.scOrder := rfl
@[simp] theorem State.modOwed_nextId (s : State) (o : Nat) (f : Owed → Owed) : (s.modOwed o f).nextId = s.nextId := rfl
@[simp] theorem State.modOwed_freeCtr (s : State) (o : Nat) (f : Owed → Owed) : (s.modOwed o f).freeCtr = s.freeCtr := rfl
@[simp] theorem State.modOwed_issue (s : State) (o : Nat) (f : Owed → Owed) : (s.modOwed o f).issue = s.issue := rfl
@[simp] theorem State.modOwed_script (s : State) (o : Nat) (f : Owed → Owed) : (s.modOwed o f).script = s.script := rfl
@[simp] theorem State.modOwed_cycled (s : State) (o : Nat) (f : Owed → Owed) : (s.modOwed o f).cycled = s.cycled := rfl

/-! ### dropOwed -/

@[simp] theorem State.dropOwed_time (s : State) (o : Nat) : (s.dropOwed o).time = s.time := rfl
@[simp] theorem State.dropOwed_dies (s : State) (o : Nat) : (s.dropOwed o).dies = s.dies := rfl
@[simp] theorem State.dropOwed_cores (s : State) (o : Nat) : (s.dropOwed o).cores = s.cores := rfl
@[simp] theorem State.dropOwed_warps (s : State) (o : Nat) : (s.dropOwed o).warps = s.warps := rfl
@[simp] theorem State.dropOwed_blocks (s : State) (o : Nat) : (s.dropOwed o).blocks = s.blocks := rfl
@[simp] theorem State.dropOwed_grids (s : State) (o : Nat) : (s.dropOwed o).grids = s.grids := rfl
@[simp] theorem State.dropOwed_tasks (s : State) (o : Nat) : (s.dropOwed o).tasks = s.tasks := rfl
@[simp] theorem State.dropOwed_engines (s : State) (o : Nat) : (s.dropOwed o).engines = s.engines := rfl
@[simp] theorem State.dropOwed_owed (s : State) (o : Nat) : (s.dropOwed o).owed = s.owed.filter fun x => x.id != o := rfl
@[simp] theorem State.dropOwed_msgs (s : State) (o : Nat) : (s.dropOwed o).msgs = s.msgs := rfl
@[simp] theorem State.dropOwed_mem (s : State) (o : Nat) : (s.dropOwed o).mem = s.mem := rfl
@[simp] theorem State.dropOwed_wells (s : State) (o : Nat) : (s.dropOwed o).wells = s.wells := rfl
@[simp] theorem State.dropOwed_wellFull (s : State) (o : Nat) : (s.dropOwed o).wellFull = s.wellFull := rfl
@[simp] theorem State.dropOwed_wellPoison (s : State) (o : Nat) : (s.dropOwed o).wellPoison = s.wellPoison := rfl
@[simp] theorem State.dropOwed_wellBad (s : State) (o : Nat) : (s.dropOwed o).wellBad = s.wellBad := rfl
@[simp] theorem State.dropOwed_wstoreBad (s : State) (o : Nat) : (s.dropOwed o).wstoreBad = s.wstoreBad := rfl
@[simp] theorem State.dropOwed_bands (s : State) (o : Nat) : (s.dropOwed o).bands = s.bands := rfl
@[simp] theorem State.dropOwed_l2 (s : State) (o : Nat) : (s.dropOwed o).l2 = s.l2 := rfl
@[simp] theorem State.dropOwed_overflow (s : State) (o : Nat) : (s.dropOwed o).overflow = s.overflow := rfl
@[simp] theorem State.dropOwed_farMarks (s : State) (o : Nat) : (s.dropOwed o).farMarks = s.farMarks := rfl
@[simp] theorem State.dropOwed_peerMarks (s : State) (o : Nat) : (s.dropOwed o).peerMarks = s.peerMarks := rfl
@[simp] theorem State.dropOwed_peerLast (s : State) (o : Nat) : (s.dropOwed o).peerLast = s.peerLast := rfl
@[simp] theorem State.dropOwed_owners (s : State) (o : Nat) : (s.dropOwed o).owners = s.owners := rfl
@[simp] theorem State.dropOwed_uncertain (s : State) (o : Nat) : (s.dropOwed o).uncertain = s.uncertain := rfl
@[simp] theorem State.dropOwed_formers (s : State) (o : Nat) : (s.dropOwed o).formers = s.formers := rfl
@[simp] theorem State.dropOwed_freed (s : State) (o : Nat) : (s.dropOwed o).freed = s.freed := rfl
@[simp] theorem State.dropOwed_tlb (s : State) (o : Nat) : (s.dropOwed o).tlb = s.tlb := rfl
@[simp] theorem State.dropOwed_counters (s : State) (o : Nat) : (s.dropOwed o).counters = s.counters := rfl
@[simp] theorem State.dropOwed_stamps (s : State) (o : Nat) : (s.dropOwed o).stamps = s.stamps := rfl
@[simp] theorem State.dropOwed_gives (s : State) (o : Nat) : (s.dropOwed o).gives = s.gives := rfl
@[simp] theorem State.dropOwed_rings (s : State) (o : Nat) : (s.dropOwed o).rings = s.rings := rfl
@[simp] theorem State.dropOwed_ringWaits (s : State) (o : Nat) : (s.dropOwed o).ringWaits = s.ringWaits := rfl
@[simp] theorem State.dropOwed_groups (s : State) (o : Nat) : (s.dropOwed o).groups = s.groups := rfl
@[simp] theorem State.dropOwed_spills (s : State) (o : Nat) : (s.dropOwed o).spills = s.spills := rfl
@[simp] theorem State.dropOwed_ctxs (s : State) (o : Nat) : (s.dropOwed o).ctxs = s.ctxs := rfl
@[simp] theorem State.dropOwed_plat (s : State) (o : Nat) : (s.dropOwed o).plat = s.plat := rfl
@[simp] theorem State.dropOwed_ioLog (s : State) (o : Nat) : (s.dropOwed o).ioLog = s.ioLog := rfl
@[simp] theorem State.dropOwed_scOrder (s : State) (o : Nat) : (s.dropOwed o).scOrder = s.scOrder := rfl
@[simp] theorem State.dropOwed_nextId (s : State) (o : Nat) : (s.dropOwed o).nextId = s.nextId := rfl
@[simp] theorem State.dropOwed_freeCtr (s : State) (o : Nat) : (s.dropOwed o).freeCtr = s.freeCtr := rfl
@[simp] theorem State.dropOwed_issue (s : State) (o : Nat) : (s.dropOwed o).issue = s.issue := rfl
@[simp] theorem State.dropOwed_script (s : State) (o : Nat) : (s.dropOwed o).script = s.script := rfl
@[simp] theorem State.dropOwed_cycled (s : State) (o : Nat) : (s.dropOwed o).cycled = s.cycled := rfl

/-! ### dropMsg -/

@[simp] theorem State.dropMsg_time (s : State) (m : Nat) : (s.dropMsg m).time = s.time := rfl
@[simp] theorem State.dropMsg_dies (s : State) (m : Nat) : (s.dropMsg m).dies = s.dies := rfl
@[simp] theorem State.dropMsg_cores (s : State) (m : Nat) : (s.dropMsg m).cores = s.cores := rfl
@[simp] theorem State.dropMsg_warps (s : State) (m : Nat) : (s.dropMsg m).warps = s.warps := rfl
@[simp] theorem State.dropMsg_blocks (s : State) (m : Nat) : (s.dropMsg m).blocks = s.blocks := rfl
@[simp] theorem State.dropMsg_grids (s : State) (m : Nat) : (s.dropMsg m).grids = s.grids := rfl
@[simp] theorem State.dropMsg_tasks (s : State) (m : Nat) : (s.dropMsg m).tasks = s.tasks := rfl
@[simp] theorem State.dropMsg_engines (s : State) (m : Nat) : (s.dropMsg m).engines = s.engines := rfl
@[simp] theorem State.dropMsg_owed (s : State) (m : Nat) : (s.dropMsg m).owed = s.owed := rfl
@[simp] theorem State.dropMsg_msgs (s : State) (m : Nat) : (s.dropMsg m).msgs = s.msgs.filter fun x => x.id != m := rfl
@[simp] theorem State.dropMsg_mem (s : State) (m : Nat) : (s.dropMsg m).mem = s.mem := rfl
@[simp] theorem State.dropMsg_wells (s : State) (m : Nat) : (s.dropMsg m).wells = s.wells := rfl
@[simp] theorem State.dropMsg_wellFull (s : State) (m : Nat) : (s.dropMsg m).wellFull = s.wellFull := rfl
@[simp] theorem State.dropMsg_wellPoison (s : State) (m : Nat) : (s.dropMsg m).wellPoison = s.wellPoison := rfl
@[simp] theorem State.dropMsg_wellBad (s : State) (m : Nat) : (s.dropMsg m).wellBad = s.wellBad := rfl
@[simp] theorem State.dropMsg_wstoreBad (s : State) (m : Nat) : (s.dropMsg m).wstoreBad = s.wstoreBad := rfl
@[simp] theorem State.dropMsg_bands (s : State) (m : Nat) : (s.dropMsg m).bands = s.bands := rfl
@[simp] theorem State.dropMsg_l2 (s : State) (m : Nat) : (s.dropMsg m).l2 = s.l2 := rfl
@[simp] theorem State.dropMsg_overflow (s : State) (m : Nat) : (s.dropMsg m).overflow = s.overflow := rfl
@[simp] theorem State.dropMsg_farMarks (s : State) (m : Nat) : (s.dropMsg m).farMarks = s.farMarks := rfl
@[simp] theorem State.dropMsg_peerMarks (s : State) (m : Nat) : (s.dropMsg m).peerMarks = s.peerMarks := rfl
@[simp] theorem State.dropMsg_peerLast (s : State) (m : Nat) : (s.dropMsg m).peerLast = s.peerLast := rfl
@[simp] theorem State.dropMsg_owners (s : State) (m : Nat) : (s.dropMsg m).owners = s.owners := rfl
@[simp] theorem State.dropMsg_uncertain (s : State) (m : Nat) : (s.dropMsg m).uncertain = s.uncertain := rfl
@[simp] theorem State.dropMsg_formers (s : State) (m : Nat) : (s.dropMsg m).formers = s.formers := rfl
@[simp] theorem State.dropMsg_freed (s : State) (m : Nat) : (s.dropMsg m).freed = s.freed := rfl
@[simp] theorem State.dropMsg_tlb (s : State) (m : Nat) : (s.dropMsg m).tlb = s.tlb := rfl
@[simp] theorem State.dropMsg_counters (s : State) (m : Nat) : (s.dropMsg m).counters = s.counters := rfl
@[simp] theorem State.dropMsg_stamps (s : State) (m : Nat) : (s.dropMsg m).stamps = s.stamps := rfl
@[simp] theorem State.dropMsg_gives (s : State) (m : Nat) : (s.dropMsg m).gives = s.gives := rfl
@[simp] theorem State.dropMsg_rings (s : State) (m : Nat) : (s.dropMsg m).rings = s.rings := rfl
@[simp] theorem State.dropMsg_ringWaits (s : State) (m : Nat) : (s.dropMsg m).ringWaits = s.ringWaits := rfl
@[simp] theorem State.dropMsg_groups (s : State) (m : Nat) : (s.dropMsg m).groups = s.groups := rfl
@[simp] theorem State.dropMsg_spills (s : State) (m : Nat) : (s.dropMsg m).spills = s.spills := rfl
@[simp] theorem State.dropMsg_ctxs (s : State) (m : Nat) : (s.dropMsg m).ctxs = s.ctxs := rfl
@[simp] theorem State.dropMsg_plat (s : State) (m : Nat) : (s.dropMsg m).plat = s.plat := rfl
@[simp] theorem State.dropMsg_ioLog (s : State) (m : Nat) : (s.dropMsg m).ioLog = s.ioLog := rfl
@[simp] theorem State.dropMsg_scOrder (s : State) (m : Nat) : (s.dropMsg m).scOrder = s.scOrder := rfl
@[simp] theorem State.dropMsg_nextId (s : State) (m : Nat) : (s.dropMsg m).nextId = s.nextId := rfl
@[simp] theorem State.dropMsg_freeCtr (s : State) (m : Nat) : (s.dropMsg m).freeCtr = s.freeCtr := rfl
@[simp] theorem State.dropMsg_issue (s : State) (m : Nat) : (s.dropMsg m).issue = s.issue := rfl
@[simp] theorem State.dropMsg_script (s : State) (m : Nat) : (s.dropMsg m).script = s.script := rfl
@[simp] theorem State.dropMsg_cycled (s : State) (m : Nat) : (s.dropMsg m).cycled = s.cycled := rfl

/-! ### send -/

@[simp] theorem State.send_time (s : State) (k : MsgKind) : (s.send k).time = s.time := rfl
@[simp] theorem State.send_dies (s : State) (k : MsgKind) : (s.send k).dies = s.dies := rfl
@[simp] theorem State.send_cores (s : State) (k : MsgKind) : (s.send k).cores = s.cores := rfl
@[simp] theorem State.send_warps (s : State) (k : MsgKind) : (s.send k).warps = s.warps := rfl
@[simp] theorem State.send_blocks (s : State) (k : MsgKind) : (s.send k).blocks = s.blocks := rfl
@[simp] theorem State.send_grids (s : State) (k : MsgKind) : (s.send k).grids = s.grids := rfl
@[simp] theorem State.send_tasks (s : State) (k : MsgKind) : (s.send k).tasks = s.tasks := rfl
@[simp] theorem State.send_engines (s : State) (k : MsgKind) : (s.send k).engines = s.engines := rfl
@[simp] theorem State.send_owed (s : State) (k : MsgKind) : (s.send k).owed = s.owed := rfl
@[simp] theorem State.send_msgs (s : State) (k : MsgKind) : (s.send k).msgs = s.msgs ++ [{ id := s.nextId, sent := s.time, kind := k }] := rfl
@[simp] theorem State.send_mem (s : State) (k : MsgKind) : (s.send k).mem = s.mem := rfl
@[simp] theorem State.send_wells (s : State) (k : MsgKind) : (s.send k).wells = s.wells := rfl
@[simp] theorem State.send_wellFull (s : State) (k : MsgKind) : (s.send k).wellFull = s.wellFull := rfl
@[simp] theorem State.send_wellPoison (s : State) (k : MsgKind) : (s.send k).wellPoison = s.wellPoison := rfl
@[simp] theorem State.send_wellBad (s : State) (k : MsgKind) : (s.send k).wellBad = s.wellBad := rfl
@[simp] theorem State.send_wstoreBad (s : State) (k : MsgKind) : (s.send k).wstoreBad = s.wstoreBad := rfl
@[simp] theorem State.send_bands (s : State) (k : MsgKind) : (s.send k).bands = s.bands := rfl
@[simp] theorem State.send_l2 (s : State) (k : MsgKind) : (s.send k).l2 = s.l2 := rfl
@[simp] theorem State.send_overflow (s : State) (k : MsgKind) : (s.send k).overflow = s.overflow := rfl
@[simp] theorem State.send_farMarks (s : State) (k : MsgKind) : (s.send k).farMarks = s.farMarks := rfl
@[simp] theorem State.send_peerMarks (s : State) (k : MsgKind) : (s.send k).peerMarks = s.peerMarks := rfl
@[simp] theorem State.send_peerLast (s : State) (k : MsgKind) : (s.send k).peerLast = s.peerLast := rfl
@[simp] theorem State.send_owners (s : State) (k : MsgKind) : (s.send k).owners = s.owners := rfl
@[simp] theorem State.send_uncertain (s : State) (k : MsgKind) : (s.send k).uncertain = s.uncertain := rfl
@[simp] theorem State.send_formers (s : State) (k : MsgKind) : (s.send k).formers = s.formers := rfl
@[simp] theorem State.send_freed (s : State) (k : MsgKind) : (s.send k).freed = s.freed := rfl
@[simp] theorem State.send_tlb (s : State) (k : MsgKind) : (s.send k).tlb = s.tlb := rfl
@[simp] theorem State.send_counters (s : State) (k : MsgKind) : (s.send k).counters = s.counters := rfl
@[simp] theorem State.send_stamps (s : State) (k : MsgKind) : (s.send k).stamps = s.stamps := rfl
@[simp] theorem State.send_gives (s : State) (k : MsgKind) : (s.send k).gives = s.gives := rfl
@[simp] theorem State.send_rings (s : State) (k : MsgKind) : (s.send k).rings = s.rings := rfl
@[simp] theorem State.send_ringWaits (s : State) (k : MsgKind) : (s.send k).ringWaits = s.ringWaits := rfl
@[simp] theorem State.send_groups (s : State) (k : MsgKind) : (s.send k).groups = s.groups := rfl
@[simp] theorem State.send_spills (s : State) (k : MsgKind) : (s.send k).spills = s.spills := rfl
@[simp] theorem State.send_ctxs (s : State) (k : MsgKind) : (s.send k).ctxs = s.ctxs := rfl
@[simp] theorem State.send_plat (s : State) (k : MsgKind) : (s.send k).plat = s.plat := rfl
@[simp] theorem State.send_ioLog (s : State) (k : MsgKind) : (s.send k).ioLog = s.ioLog := rfl
@[simp] theorem State.send_scOrder (s : State) (k : MsgKind) : (s.send k).scOrder = s.scOrder := rfl
@[simp] theorem State.send_nextId (s : State) (k : MsgKind) : (s.send k).nextId = s.nextId + 1 := rfl
@[simp] theorem State.send_freeCtr (s : State) (k : MsgKind) : (s.send k).freeCtr = s.freeCtr := rfl
@[simp] theorem State.send_issue (s : State) (k : MsgKind) : (s.send k).issue = s.issue := rfl
@[simp] theorem State.send_script (s : State) (k : MsgKind) : (s.send k).script = s.script := rfl
@[simp] theorem State.send_cycled (s : State) (k : MsgKind) : (s.send k).cycled = s.cycled := rfl

/-! ### setDie -/

@[simp] theorem State.setDie_time (s : State) (d : Nat) (x : Die) : (s.setDie d x).time = s.time := rfl
@[simp] theorem State.setDie_dies (s : State) (d : Nat) (x : Die) : (s.setDie d x).dies = s.dies.set d x := rfl
@[simp] theorem State.setDie_cores (s : State) (d : Nat) (x : Die) : (s.setDie d x).cores = s.cores := rfl
@[simp] theorem State.setDie_warps (s : State) (d : Nat) (x : Die) : (s.setDie d x).warps = s.warps := rfl
@[simp] theorem State.setDie_blocks (s : State) (d : Nat) (x : Die) : (s.setDie d x).blocks = s.blocks := rfl
@[simp] theorem State.setDie_grids (s : State) (d : Nat) (x : Die) : (s.setDie d x).grids = s.grids := rfl
@[simp] theorem State.setDie_tasks (s : State) (d : Nat) (x : Die) : (s.setDie d x).tasks = s.tasks := rfl
@[simp] theorem State.setDie_engines (s : State) (d : Nat) (x : Die) : (s.setDie d x).engines = s.engines := rfl
@[simp] theorem State.setDie_owed (s : State) (d : Nat) (x : Die) : (s.setDie d x).owed = s.owed := rfl
@[simp] theorem State.setDie_msgs (s : State) (d : Nat) (x : Die) : (s.setDie d x).msgs = s.msgs := rfl
@[simp] theorem State.setDie_mem (s : State) (d : Nat) (x : Die) : (s.setDie d x).mem = s.mem := rfl
@[simp] theorem State.setDie_wells (s : State) (d : Nat) (x : Die) : (s.setDie d x).wells = s.wells := rfl
@[simp] theorem State.setDie_wellFull (s : State) (d : Nat) (x : Die) : (s.setDie d x).wellFull = s.wellFull := rfl
@[simp] theorem State.setDie_wellPoison (s : State) (d : Nat) (x : Die) : (s.setDie d x).wellPoison = s.wellPoison := rfl
@[simp] theorem State.setDie_wellBad (s : State) (d : Nat) (x : Die) : (s.setDie d x).wellBad = s.wellBad := rfl
@[simp] theorem State.setDie_wstoreBad (s : State) (d : Nat) (x : Die) : (s.setDie d x).wstoreBad = s.wstoreBad := rfl
@[simp] theorem State.setDie_bands (s : State) (d : Nat) (x : Die) : (s.setDie d x).bands = s.bands := rfl
@[simp] theorem State.setDie_l2 (s : State) (d : Nat) (x : Die) : (s.setDie d x).l2 = s.l2 := rfl
@[simp] theorem State.setDie_overflow (s : State) (d : Nat) (x : Die) : (s.setDie d x).overflow = s.overflow := rfl
@[simp] theorem State.setDie_farMarks (s : State) (d : Nat) (x : Die) : (s.setDie d x).farMarks = s.farMarks := rfl
@[simp] theorem State.setDie_peerMarks (s : State) (d : Nat) (x : Die) : (s.setDie d x).peerMarks = s.peerMarks := rfl
@[simp] theorem State.setDie_peerLast (s : State) (d : Nat) (x : Die) : (s.setDie d x).peerLast = s.peerLast := rfl
@[simp] theorem State.setDie_owners (s : State) (d : Nat) (x : Die) : (s.setDie d x).owners = s.owners := rfl
@[simp] theorem State.setDie_uncertain (s : State) (d : Nat) (x : Die) : (s.setDie d x).uncertain = s.uncertain := rfl
@[simp] theorem State.setDie_formers (s : State) (d : Nat) (x : Die) : (s.setDie d x).formers = s.formers := rfl
@[simp] theorem State.setDie_freed (s : State) (d : Nat) (x : Die) : (s.setDie d x).freed = s.freed := rfl
@[simp] theorem State.setDie_tlb (s : State) (d : Nat) (x : Die) : (s.setDie d x).tlb = s.tlb := rfl
@[simp] theorem State.setDie_counters (s : State) (d : Nat) (x : Die) : (s.setDie d x).counters = s.counters := rfl
@[simp] theorem State.setDie_stamps (s : State) (d : Nat) (x : Die) : (s.setDie d x).stamps = s.stamps := rfl
@[simp] theorem State.setDie_gives (s : State) (d : Nat) (x : Die) : (s.setDie d x).gives = s.gives := rfl
@[simp] theorem State.setDie_rings (s : State) (d : Nat) (x : Die) : (s.setDie d x).rings = s.rings := rfl
@[simp] theorem State.setDie_ringWaits (s : State) (d : Nat) (x : Die) : (s.setDie d x).ringWaits = s.ringWaits := rfl
@[simp] theorem State.setDie_groups (s : State) (d : Nat) (x : Die) : (s.setDie d x).groups = s.groups := rfl
@[simp] theorem State.setDie_spills (s : State) (d : Nat) (x : Die) : (s.setDie d x).spills = s.spills := rfl
@[simp] theorem State.setDie_ctxs (s : State) (d : Nat) (x : Die) : (s.setDie d x).ctxs = s.ctxs := rfl
@[simp] theorem State.setDie_plat (s : State) (d : Nat) (x : Die) : (s.setDie d x).plat = s.plat := rfl
@[simp] theorem State.setDie_ioLog (s : State) (d : Nat) (x : Die) : (s.setDie d x).ioLog = s.ioLog := rfl
@[simp] theorem State.setDie_scOrder (s : State) (d : Nat) (x : Die) : (s.setDie d x).scOrder = s.scOrder := rfl
@[simp] theorem State.setDie_nextId (s : State) (d : Nat) (x : Die) : (s.setDie d x).nextId = s.nextId := rfl
@[simp] theorem State.setDie_freeCtr (s : State) (d : Nat) (x : Die) : (s.setDie d x).freeCtr = s.freeCtr := rfl
@[simp] theorem State.setDie_issue (s : State) (d : Nat) (x : Die) : (s.setDie d x).issue = s.issue := rfl
@[simp] theorem State.setDie_script (s : State) (d : Nat) (x : Die) : (s.setDie d x).script = s.script := rfl
@[simp] theorem State.setDie_cycled (s : State) (d : Nat) (x : Die) : (s.setDie d x).cycled = s.cycled := rfl

/-! ### modDie -/

@[simp] theorem State.modDie_time (s : State) (d : Nat) (f : Die → Die) : (s.modDie d f).time = s.time := rfl
@[simp] theorem State.modDie_dies (s : State) (d : Nat) (f : Die → Die) : (s.modDie d f).dies = s.dies.set d (f (s.die d)) := rfl
@[simp] theorem State.modDie_cores (s : State) (d : Nat) (f : Die → Die) : (s.modDie d f).cores = s.cores := rfl
@[simp] theorem State.modDie_warps (s : State) (d : Nat) (f : Die → Die) : (s.modDie d f).warps = s.warps := rfl
@[simp] theorem State.modDie_blocks (s : State) (d : Nat) (f : Die → Die) : (s.modDie d f).blocks = s.blocks := rfl
@[simp] theorem State.modDie_grids (s : State) (d : Nat) (f : Die → Die) : (s.modDie d f).grids = s.grids := rfl
@[simp] theorem State.modDie_tasks (s : State) (d : Nat) (f : Die → Die) : (s.modDie d f).tasks = s.tasks := rfl
@[simp] theorem State.modDie_engines (s : State) (d : Nat) (f : Die → Die) : (s.modDie d f).engines = s.engines := rfl
@[simp] theorem State.modDie_owed (s : State) (d : Nat) (f : Die → Die) : (s.modDie d f).owed = s.owed := rfl
@[simp] theorem State.modDie_msgs (s : State) (d : Nat) (f : Die → Die) : (s.modDie d f).msgs = s.msgs := rfl
@[simp] theorem State.modDie_mem (s : State) (d : Nat) (f : Die → Die) : (s.modDie d f).mem = s.mem := rfl
@[simp] theorem State.modDie_wells (s : State) (d : Nat) (f : Die → Die) : (s.modDie d f).wells = s.wells := rfl
@[simp] theorem State.modDie_wellFull (s : State) (d : Nat) (f : Die → Die) : (s.modDie d f).wellFull = s.wellFull := rfl
@[simp] theorem State.modDie_wellPoison (s : State) (d : Nat) (f : Die → Die) : (s.modDie d f).wellPoison = s.wellPoison := rfl
@[simp] theorem State.modDie_wellBad (s : State) (d : Nat) (f : Die → Die) : (s.modDie d f).wellBad = s.wellBad := rfl
@[simp] theorem State.modDie_wstoreBad (s : State) (d : Nat) (f : Die → Die) : (s.modDie d f).wstoreBad = s.wstoreBad := rfl
@[simp] theorem State.modDie_bands (s : State) (d : Nat) (f : Die → Die) : (s.modDie d f).bands = s.bands := rfl
@[simp] theorem State.modDie_l2 (s : State) (d : Nat) (f : Die → Die) : (s.modDie d f).l2 = s.l2 := rfl
@[simp] theorem State.modDie_overflow (s : State) (d : Nat) (f : Die → Die) : (s.modDie d f).overflow = s.overflow := rfl
@[simp] theorem State.modDie_farMarks (s : State) (d : Nat) (f : Die → Die) : (s.modDie d f).farMarks = s.farMarks := rfl
@[simp] theorem State.modDie_peerMarks (s : State) (d : Nat) (f : Die → Die) : (s.modDie d f).peerMarks = s.peerMarks := rfl
@[simp] theorem State.modDie_peerLast (s : State) (d : Nat) (f : Die → Die) : (s.modDie d f).peerLast = s.peerLast := rfl
@[simp] theorem State.modDie_owners (s : State) (d : Nat) (f : Die → Die) : (s.modDie d f).owners = s.owners := rfl
@[simp] theorem State.modDie_uncertain (s : State) (d : Nat) (f : Die → Die) : (s.modDie d f).uncertain = s.uncertain := rfl
@[simp] theorem State.modDie_formers (s : State) (d : Nat) (f : Die → Die) : (s.modDie d f).formers = s.formers := rfl
@[simp] theorem State.modDie_freed (s : State) (d : Nat) (f : Die → Die) : (s.modDie d f).freed = s.freed := rfl
@[simp] theorem State.modDie_tlb (s : State) (d : Nat) (f : Die → Die) : (s.modDie d f).tlb = s.tlb := rfl
@[simp] theorem State.modDie_counters (s : State) (d : Nat) (f : Die → Die) : (s.modDie d f).counters = s.counters := rfl
@[simp] theorem State.modDie_stamps (s : State) (d : Nat) (f : Die → Die) : (s.modDie d f).stamps = s.stamps := rfl
@[simp] theorem State.modDie_gives (s : State) (d : Nat) (f : Die → Die) : (s.modDie d f).gives = s.gives := rfl
@[simp] theorem State.modDie_rings (s : State) (d : Nat) (f : Die → Die) : (s.modDie d f).rings = s.rings := rfl
@[simp] theorem State.modDie_ringWaits (s : State) (d : Nat) (f : Die → Die) : (s.modDie d f).ringWaits = s.ringWaits := rfl
@[simp] theorem State.modDie_groups (s : State) (d : Nat) (f : Die → Die) : (s.modDie d f).groups = s.groups := rfl
@[simp] theorem State.modDie_spills (s : State) (d : Nat) (f : Die → Die) : (s.modDie d f).spills = s.spills := rfl
@[simp] theorem State.modDie_ctxs (s : State) (d : Nat) (f : Die → Die) : (s.modDie d f).ctxs = s.ctxs := rfl
@[simp] theorem State.modDie_plat (s : State) (d : Nat) (f : Die → Die) : (s.modDie d f).plat = s.plat := rfl
@[simp] theorem State.modDie_ioLog (s : State) (d : Nat) (f : Die → Die) : (s.modDie d f).ioLog = s.ioLog := rfl
@[simp] theorem State.modDie_scOrder (s : State) (d : Nat) (f : Die → Die) : (s.modDie d f).scOrder = s.scOrder := rfl
@[simp] theorem State.modDie_nextId (s : State) (d : Nat) (f : Die → Die) : (s.modDie d f).nextId = s.nextId := rfl
@[simp] theorem State.modDie_freeCtr (s : State) (d : Nat) (f : Die → Die) : (s.modDie d f).freeCtr = s.freeCtr := rfl
@[simp] theorem State.modDie_issue (s : State) (d : Nat) (f : Die → Die) : (s.modDie d f).issue = s.issue := rfl
@[simp] theorem State.modDie_script (s : State) (d : Nat) (f : Die → Die) : (s.modDie d f).script = s.script := rfl
@[simp] theorem State.modDie_cycled (s : State) (d : Nat) (f : Die → Die) : (s.modDie d f).cycled = s.cycled := rfl

/-! ### unstall -/

@[simp] theorem State.unstall_time (s : State) : (s.unstall).time = s.time := rfl
@[simp] theorem State.unstall_dies (s : State) : (s.unstall).dies = s.dies := rfl
@[simp] theorem State.unstall_cores (s : State) : (s.unstall).cores = s.cores := rfl
@[simp] theorem State.unstall_warps (s : State) : (s.unstall).warps = s.warps.map fun w => { w with stall := false, doubt := w.stall || w.doubt } := rfl
@[simp] theorem State.unstall_blocks (s : State) : (s.unstall).blocks = s.blocks := rfl
@[simp] theorem State.unstall_grids (s : State) : (s.unstall).grids = s.grids := rfl
@[simp] theorem State.unstall_tasks (s : State) : (s.unstall).tasks = s.tasks := rfl
@[simp] theorem State.unstall_engines (s : State) : (s.unstall).engines = s.engines := rfl
@[simp] theorem State.unstall_owed (s : State) : (s.unstall).owed = s.owed := rfl
@[simp] theorem State.unstall_msgs (s : State) : (s.unstall).msgs = s.msgs := rfl
@[simp] theorem State.unstall_mem (s : State) : (s.unstall).mem = s.mem := rfl
@[simp] theorem State.unstall_wells (s : State) : (s.unstall).wells = s.wells := rfl
@[simp] theorem State.unstall_wellFull (s : State) : (s.unstall).wellFull = s.wellFull := rfl
@[simp] theorem State.unstall_wellPoison (s : State) : (s.unstall).wellPoison = s.wellPoison := rfl
@[simp] theorem State.unstall_wellBad (s : State) : (s.unstall).wellBad = s.wellBad := rfl
@[simp] theorem State.unstall_wstoreBad (s : State) : (s.unstall).wstoreBad = s.wstoreBad := rfl
@[simp] theorem State.unstall_bands (s : State) : (s.unstall).bands = s.bands := rfl
@[simp] theorem State.unstall_l2 (s : State) : (s.unstall).l2 = s.l2 := rfl
@[simp] theorem State.unstall_overflow (s : State) : (s.unstall).overflow = s.overflow := rfl
@[simp] theorem State.unstall_farMarks (s : State) : (s.unstall).farMarks = s.farMarks := rfl
@[simp] theorem State.unstall_peerMarks (s : State) : (s.unstall).peerMarks = s.peerMarks := rfl
@[simp] theorem State.unstall_peerLast (s : State) : (s.unstall).peerLast = s.peerLast := rfl
@[simp] theorem State.unstall_owners (s : State) : (s.unstall).owners = s.owners := rfl
@[simp] theorem State.unstall_uncertain (s : State) : (s.unstall).uncertain = s.uncertain := rfl
@[simp] theorem State.unstall_formers (s : State) : (s.unstall).formers = s.formers := rfl
@[simp] theorem State.unstall_freed (s : State) : (s.unstall).freed = s.freed := rfl
@[simp] theorem State.unstall_tlb (s : State) : (s.unstall).tlb = s.tlb := rfl
@[simp] theorem State.unstall_counters (s : State) : (s.unstall).counters = s.counters := rfl
@[simp] theorem State.unstall_stamps (s : State) : (s.unstall).stamps = s.stamps := rfl
@[simp] theorem State.unstall_gives (s : State) : (s.unstall).gives = s.gives := rfl
@[simp] theorem State.unstall_rings (s : State) : (s.unstall).rings = s.rings := rfl
@[simp] theorem State.unstall_ringWaits (s : State) : (s.unstall).ringWaits = s.ringWaits := rfl
@[simp] theorem State.unstall_groups (s : State) : (s.unstall).groups = s.groups := rfl
@[simp] theorem State.unstall_spills (s : State) : (s.unstall).spills = s.spills := rfl
@[simp] theorem State.unstall_ctxs (s : State) : (s.unstall).ctxs = s.ctxs := rfl
@[simp] theorem State.unstall_plat (s : State) : (s.unstall).plat = s.plat := rfl
@[simp] theorem State.unstall_ioLog (s : State) : (s.unstall).ioLog = s.ioLog := rfl
@[simp] theorem State.unstall_scOrder (s : State) : (s.unstall).scOrder = s.scOrder := rfl
@[simp] theorem State.unstall_nextId (s : State) : (s.unstall).nextId = s.nextId := rfl
@[simp] theorem State.unstall_freeCtr (s : State) : (s.unstall).freeCtr = s.freeCtr := rfl
@[simp] theorem State.unstall_issue (s : State) : (s.unstall).issue = s.issue := rfl
@[simp] theorem State.unstall_script (s : State) : (s.unstall).script = s.script := rfl
@[simp] theorem State.unstall_cycled (s : State) : (s.unstall).cycled = s.cycled := rfl

/-! ### issued -/

@[simp] theorem State.issued_time (s : State) : (s.issued).time = s.time := rfl
@[simp] theorem State.issued_dies (s : State) : (s.issued).dies = s.dies := rfl
@[simp] theorem State.issued_cores (s : State) : (s.issued).cores = s.cores := rfl
@[simp] theorem State.issued_warps (s : State) : (s.issued).warps = s.warps.map fun w => { w with stall := false, doubt := w.stall || w.doubt } := rfl
@[simp] theorem State.issued_blocks (s : State) : (s.issued).blocks = s.blocks := rfl
@[simp] theorem State.issued_grids (s : State) : (s.issued).grids = s.grids := rfl
@[simp] theorem State.issued_tasks (s : State) : (s.issued).tasks = s.tasks := rfl
@[simp] theorem State.issued_engines (s : State) : (s.issued).engines = s.engines := rfl
@[simp] theorem State.issued_owed (s : State) : (s.issued).owed = s.owed := rfl
@[simp] theorem State.issued_msgs (s : State) : (s.issued).msgs = s.msgs := rfl
@[simp] theorem State.issued_mem (s : State) : (s.issued).mem = s.mem := rfl
@[simp] theorem State.issued_wells (s : State) : (s.issued).wells = s.wells := rfl
@[simp] theorem State.issued_wellFull (s : State) : (s.issued).wellFull = s.wellFull := rfl
@[simp] theorem State.issued_wellPoison (s : State) : (s.issued).wellPoison = s.wellPoison := rfl
@[simp] theorem State.issued_wellBad (s : State) : (s.issued).wellBad = s.wellBad := rfl
@[simp] theorem State.issued_wstoreBad (s : State) : (s.issued).wstoreBad = s.wstoreBad := rfl
@[simp] theorem State.issued_bands (s : State) : (s.issued).bands = s.bands := rfl
@[simp] theorem State.issued_l2 (s : State) : (s.issued).l2 = s.l2 := rfl
@[simp] theorem State.issued_overflow (s : State) : (s.issued).overflow = s.overflow := rfl
@[simp] theorem State.issued_farMarks (s : State) : (s.issued).farMarks = s.farMarks := rfl
@[simp] theorem State.issued_peerMarks (s : State) : (s.issued).peerMarks = s.peerMarks := rfl
@[simp] theorem State.issued_peerLast (s : State) : (s.issued).peerLast = s.peerLast := rfl
@[simp] theorem State.issued_owners (s : State) : (s.issued).owners = s.owners := rfl
@[simp] theorem State.issued_uncertain (s : State) : (s.issued).uncertain = s.uncertain := rfl
@[simp] theorem State.issued_formers (s : State) : (s.issued).formers = s.formers := rfl
@[simp] theorem State.issued_freed (s : State) : (s.issued).freed = s.freed := rfl
@[simp] theorem State.issued_tlb (s : State) : (s.issued).tlb = s.tlb := rfl
@[simp] theorem State.issued_counters (s : State) : (s.issued).counters = s.counters := rfl
@[simp] theorem State.issued_stamps (s : State) : (s.issued).stamps = s.stamps := rfl
@[simp] theorem State.issued_gives (s : State) : (s.issued).gives = s.gives := rfl
@[simp] theorem State.issued_rings (s : State) : (s.issued).rings = s.rings := rfl
@[simp] theorem State.issued_ringWaits (s : State) : (s.issued).ringWaits = s.ringWaits := rfl
@[simp] theorem State.issued_groups (s : State) : (s.issued).groups = s.groups := rfl
@[simp] theorem State.issued_spills (s : State) : (s.issued).spills = s.spills := rfl
@[simp] theorem State.issued_ctxs (s : State) : (s.issued).ctxs = s.ctxs := rfl
@[simp] theorem State.issued_plat (s : State) : (s.issued).plat = s.plat := rfl
@[simp] theorem State.issued_ioLog (s : State) : (s.issued).ioLog = s.ioLog := rfl
@[simp] theorem State.issued_scOrder (s : State) : (s.issued).scOrder = s.scOrder := rfl
@[simp] theorem State.issued_nextId (s : State) : (s.issued).nextId = s.nextId := rfl
@[simp] theorem State.issued_freeCtr (s : State) : (s.issued).freeCtr = s.freeCtr := rfl
@[simp] theorem State.issued_issue (s : State) : (s.issued).issue = none := rfl
@[simp] theorem State.issued_script (s : State) : (s.issued).script = s.script := rfl
@[simp] theorem State.issued_cycled (s : State) : (s.issued).cycled = s.cycled := rfl

/-! ### wellPut -/

@[simp] theorem State.wellPut_time (s : State) (k : Nat) (v : Word) : (s.wellPut k v).time = s.time := rfl
@[simp] theorem State.wellPut_dies (s : State) (k : Nat) (v : Word) : (s.wellPut k v).dies = s.dies := rfl
@[simp] theorem State.wellPut_cores (s : State) (k : Nat) (v : Word) : (s.wellPut k v).cores = s.cores := rfl
@[simp] theorem State.wellPut_warps (s : State) (k : Nat) (v : Word) : (s.wellPut k v).warps = s.warps := rfl
@[simp] theorem State.wellPut_blocks (s : State) (k : Nat) (v : Word) : (s.wellPut k v).blocks = s.blocks := rfl
@[simp] theorem State.wellPut_grids (s : State) (k : Nat) (v : Word) : (s.wellPut k v).grids = s.grids := rfl
@[simp] theorem State.wellPut_tasks (s : State) (k : Nat) (v : Word) : (s.wellPut k v).tasks = s.tasks := rfl
@[simp] theorem State.wellPut_engines (s : State) (k : Nat) (v : Word) : (s.wellPut k v).engines = s.engines := rfl
@[simp] theorem State.wellPut_owed (s : State) (k : Nat) (v : Word) : (s.wellPut k v).owed = s.owed := rfl
@[simp] theorem State.wellPut_msgs (s : State) (k : Nat) (v : Word) : (s.wellPut k v).msgs = s.msgs := rfl
@[simp] theorem State.wellPut_mem (s : State) (k : Nat) (v : Word) : (s.wellPut k v).mem = s.mem := rfl
@[simp] theorem State.wellPut_wells (s : State) (k : Nat) (v : Word) : (s.wellPut k v).wells = cset s.wells k v := rfl
@[simp] theorem State.wellPut_wellFull (s : State) (k : Nat) (v : Word) : (s.wellPut k v).wellFull = s.wellFull := rfl
@[simp] theorem State.wellPut_wellPoison (s : State) (k : Nat) (v : Word) : (s.wellPut k v).wellPoison = cset s.wellPoison k 0 := rfl
@[simp] theorem State.wellPut_wellBad (s : State) (k : Nat) (v : Word) : (s.wellPut k v).wellBad = cset s.wellBad k 0 := rfl
@[simp] theorem State.wellPut_wstoreBad (s : State) (k : Nat) (v : Word) : (s.wellPut k v).wstoreBad = s.wstoreBad := rfl
@[simp] theorem State.wellPut_bands (s : State) (k : Nat) (v : Word) : (s.wellPut k v).bands = s.bands := rfl
@[simp] theorem State.wellPut_l2 (s : State) (k : Nat) (v : Word) : (s.wellPut k v).l2 = s.l2 := rfl
@[simp] theorem State.wellPut_overflow (s : State) (k : Nat) (v : Word) : (s.wellPut k v).overflow = s.overflow := rfl
@[simp] theorem State.wellPut_farMarks (s : State) (k : Nat) (v : Word) : (s.wellPut k v).farMarks = s.farMarks := rfl
@[simp] theorem State.wellPut_peerMarks (s : State) (k : Nat) (v : Word) : (s.wellPut k v).peerMarks = s.peerMarks := rfl
@[simp] theorem State.wellPut_peerLast (s : State) (k : Nat) (v : Word) : (s.wellPut k v).peerLast = s.peerLast := rfl
@[simp] theorem State.wellPut_owners (s : State) (k : Nat) (v : Word) : (s.wellPut k v).owners = s.owners := rfl
@[simp] theorem State.wellPut_uncertain (s : State) (k : Nat) (v : Word) : (s.wellPut k v).uncertain = s.uncertain := rfl
@[simp] theorem State.wellPut_formers (s : State) (k : Nat) (v : Word) : (s.wellPut k v).formers = s.formers := rfl
@[simp] theorem State.wellPut_freed (s : State) (k : Nat) (v : Word) : (s.wellPut k v).freed = s.freed := rfl
@[simp] theorem State.wellPut_tlb (s : State) (k : Nat) (v : Word) : (s.wellPut k v).tlb = s.tlb := rfl
@[simp] theorem State.wellPut_counters (s : State) (k : Nat) (v : Word) : (s.wellPut k v).counters = s.counters := rfl
@[simp] theorem State.wellPut_stamps (s : State) (k : Nat) (v : Word) : (s.wellPut k v).stamps = s.stamps := rfl
@[simp] theorem State.wellPut_gives (s : State) (k : Nat) (v : Word) : (s.wellPut k v).gives = s.gives := rfl
@[simp] theorem State.wellPut_rings (s : State) (k : Nat) (v : Word) : (s.wellPut k v).rings = s.rings := rfl
@[simp] theorem State.wellPut_ringWaits (s : State) (k : Nat) (v : Word) : (s.wellPut k v).ringWaits = s.ringWaits := rfl
@[simp] theorem State.wellPut_groups (s : State) (k : Nat) (v : Word) : (s.wellPut k v).groups = s.groups := rfl
@[simp] theorem State.wellPut_spills (s : State) (k : Nat) (v : Word) : (s.wellPut k v).spills = s.spills := rfl
@[simp] theorem State.wellPut_ctxs (s : State) (k : Nat) (v : Word) : (s.wellPut k v).ctxs = s.ctxs := rfl
@[simp] theorem State.wellPut_plat (s : State) (k : Nat) (v : Word) : (s.wellPut k v).plat = s.plat := rfl
@[simp] theorem State.wellPut_ioLog (s : State) (k : Nat) (v : Word) : (s.wellPut k v).ioLog = s.ioLog := rfl
@[simp] theorem State.wellPut_scOrder (s : State) (k : Nat) (v : Word) : (s.wellPut k v).scOrder = s.scOrder := rfl
@[simp] theorem State.wellPut_nextId (s : State) (k : Nat) (v : Word) : (s.wellPut k v).nextId = s.nextId := rfl
@[simp] theorem State.wellPut_freeCtr (s : State) (k : Nat) (v : Word) : (s.wellPut k v).freeCtr = s.freeCtr := rfl
@[simp] theorem State.wellPut_issue (s : State) (k : Nat) (v : Word) : (s.wellPut k v).issue = s.issue := rfl
@[simp] theorem State.wellPut_script (s : State) (k : Nat) (v : Word) : (s.wellPut k v).script = s.script := rfl
@[simp] theorem State.wellPut_cycled (s : State) (k : Nat) (v : Word) : (s.wellPut k v).cycled = s.cycled := rfl

/-! ### wellSetFull -/

@[simp] theorem State.wellSetFull_time (s : State) (k : Nat) (b : Bool) : (s.wellSetFull k b).time = s.time := rfl
@[simp] theorem State.wellSetFull_dies (s : State) (k : Nat) (b : Bool) : (s.wellSetFull k b).dies = s.dies := rfl
@[simp] theorem State.wellSetFull_cores (s : State) (k : Nat) (b : Bool) : (s.wellSetFull k b).cores = s.cores := rfl
@[simp] theorem State.wellSetFull_warps (s : State) (k : Nat) (b : Bool) : (s.wellSetFull k b).warps = s.warps := rfl
@[simp] theorem State.wellSetFull_blocks (s : State) (k : Nat) (b : Bool) : (s.wellSetFull k b).blocks = s.blocks := rfl
@[simp] theorem State.wellSetFull_grids (s : State) (k : Nat) (b : Bool) : (s.wellSetFull k b).grids = s.grids := rfl
@[simp] theorem State.wellSetFull_tasks (s : State) (k : Nat) (b : Bool) : (s.wellSetFull k b).tasks = s.tasks := rfl
@[simp] theorem State.wellSetFull_engines (s : State) (k : Nat) (b : Bool) : (s.wellSetFull k b).engines = s.engines := rfl
@[simp] theorem State.wellSetFull_owed (s : State) (k : Nat) (b : Bool) : (s.wellSetFull k b).owed = s.owed := rfl
@[simp] theorem State.wellSetFull_msgs (s : State) (k : Nat) (b : Bool) : (s.wellSetFull k b).msgs = s.msgs := rfl
@[simp] theorem State.wellSetFull_mem (s : State) (k : Nat) (b : Bool) : (s.wellSetFull k b).mem = s.mem := rfl
@[simp] theorem State.wellSetFull_wells (s : State) (k : Nat) (b : Bool) : (s.wellSetFull k b).wells = s.wells := rfl
@[simp] theorem State.wellSetFull_wellFull (s : State) (k : Nat) (b : Bool) : (s.wellSetFull k b).wellFull = cset s.wellFull k (if b then 1 else 0) := rfl
@[simp] theorem State.wellSetFull_wellPoison (s : State) (k : Nat) (b : Bool) : (s.wellSetFull k b).wellPoison = s.wellPoison := rfl
@[simp] theorem State.wellSetFull_wellBad (s : State) (k : Nat) (b : Bool) : (s.wellSetFull k b).wellBad = s.wellBad := rfl
@[simp] theorem State.wellSetFull_wstoreBad (s : State) (k : Nat) (b : Bool) : (s.wellSetFull k b).wstoreBad = s.wstoreBad := rfl
@[simp] theorem State.wellSetFull_bands (s : State) (k : Nat) (b : Bool) : (s.wellSetFull k b).bands = s.bands := rfl
@[simp] theorem State.wellSetFull_l2 (s : State) (k : Nat) (b : Bool) : (s.wellSetFull k b).l2 = s.l2 := rfl
@[simp] theorem State.wellSetFull_overflow (s : State) (k : Nat) (b : Bool) : (s.wellSetFull k b).overflow = s.overflow := rfl
@[simp] theorem State.wellSetFull_farMarks (s : State) (k : Nat) (b : Bool) : (s.wellSetFull k b).farMarks = s.farMarks := rfl
@[simp] theorem State.wellSetFull_peerMarks (s : State) (k : Nat) (b : Bool) : (s.wellSetFull k b).peerMarks = s.peerMarks := rfl
@[simp] theorem State.wellSetFull_peerLast (s : State) (k : Nat) (b : Bool) : (s.wellSetFull k b).peerLast = s.peerLast := rfl
@[simp] theorem State.wellSetFull_owners (s : State) (k : Nat) (b : Bool) : (s.wellSetFull k b).owners = s.owners := rfl
@[simp] theorem State.wellSetFull_uncertain (s : State) (k : Nat) (b : Bool) : (s.wellSetFull k b).uncertain = s.uncertain := rfl
@[simp] theorem State.wellSetFull_formers (s : State) (k : Nat) (b : Bool) : (s.wellSetFull k b).formers = s.formers := rfl
@[simp] theorem State.wellSetFull_freed (s : State) (k : Nat) (b : Bool) : (s.wellSetFull k b).freed = s.freed := rfl
@[simp] theorem State.wellSetFull_tlb (s : State) (k : Nat) (b : Bool) : (s.wellSetFull k b).tlb = s.tlb := rfl
@[simp] theorem State.wellSetFull_counters (s : State) (k : Nat) (b : Bool) : (s.wellSetFull k b).counters = s.counters := rfl
@[simp] theorem State.wellSetFull_stamps (s : State) (k : Nat) (b : Bool) : (s.wellSetFull k b).stamps = s.stamps := rfl
@[simp] theorem State.wellSetFull_gives (s : State) (k : Nat) (b : Bool) : (s.wellSetFull k b).gives = s.gives := rfl
@[simp] theorem State.wellSetFull_rings (s : State) (k : Nat) (b : Bool) : (s.wellSetFull k b).rings = s.rings := rfl
@[simp] theorem State.wellSetFull_ringWaits (s : State) (k : Nat) (b : Bool) : (s.wellSetFull k b).ringWaits = s.ringWaits := rfl
@[simp] theorem State.wellSetFull_groups (s : State) (k : Nat) (b : Bool) : (s.wellSetFull k b).groups = s.groups := rfl
@[simp] theorem State.wellSetFull_spills (s : State) (k : Nat) (b : Bool) : (s.wellSetFull k b).spills = s.spills := rfl
@[simp] theorem State.wellSetFull_ctxs (s : State) (k : Nat) (b : Bool) : (s.wellSetFull k b).ctxs = s.ctxs := rfl
@[simp] theorem State.wellSetFull_plat (s : State) (k : Nat) (b : Bool) : (s.wellSetFull k b).plat = s.plat := rfl
@[simp] theorem State.wellSetFull_ioLog (s : State) (k : Nat) (b : Bool) : (s.wellSetFull k b).ioLog = s.ioLog := rfl
@[simp] theorem State.wellSetFull_scOrder (s : State) (k : Nat) (b : Bool) : (s.wellSetFull k b).scOrder = s.scOrder := rfl
@[simp] theorem State.wellSetFull_nextId (s : State) (k : Nat) (b : Bool) : (s.wellSetFull k b).nextId = s.nextId := rfl
@[simp] theorem State.wellSetFull_freeCtr (s : State) (k : Nat) (b : Bool) : (s.wellSetFull k b).freeCtr = s.freeCtr := rfl
@[simp] theorem State.wellSetFull_issue (s : State) (k : Nat) (b : Bool) : (s.wellSetFull k b).issue = s.issue := rfl
@[simp] theorem State.wellSetFull_script (s : State) (k : Nat) (b : Bool) : (s.wellSetFull k b).script = s.script := rfl
@[simp] theorem State.wellSetFull_cycled (s : State) (k : Nat) (b : Bool) : (s.wellSetFull k b).cycled = s.cycled := rfl

/-! ### setCtx -/

@[simp] theorem State.setCtx_time (s : State) (c : Ctx) : (s.setCtx c).time = s.time := by
  unfold State.setCtx; split <;> rfl
@[simp] theorem State.setCtx_dies (s : State) (c : Ctx) : (s.setCtx c).dies = s.dies := by
  unfold State.setCtx; split <;> rfl
@[simp] theorem State.setCtx_cores (s : State) (c : Ctx) : (s.setCtx c).cores = s.cores := by
  unfold State.setCtx; split <;> rfl
@[simp] theorem State.setCtx_warps (s : State) (c : Ctx) : (s.setCtx c).warps = s.warps := by
  unfold State.setCtx; split <;> rfl
@[simp] theorem State.setCtx_blocks (s : State) (c : Ctx) : (s.setCtx c).blocks = s.blocks := by
  unfold State.setCtx; split <;> rfl
@[simp] theorem State.setCtx_grids (s : State) (c : Ctx) : (s.setCtx c).grids = s.grids := by
  unfold State.setCtx; split <;> rfl
@[simp] theorem State.setCtx_tasks (s : State) (c : Ctx) : (s.setCtx c).tasks = s.tasks := by
  unfold State.setCtx; split <;> rfl
@[simp] theorem State.setCtx_engines (s : State) (c : Ctx) : (s.setCtx c).engines = s.engines := by
  unfold State.setCtx; split <;> rfl
@[simp] theorem State.setCtx_owed (s : State) (c : Ctx) : (s.setCtx c).owed = s.owed := by
  unfold State.setCtx; split <;> rfl
@[simp] theorem State.setCtx_msgs (s : State) (c : Ctx) : (s.setCtx c).msgs = s.msgs := by
  unfold State.setCtx; split <;> rfl
@[simp] theorem State.setCtx_mem (s : State) (c : Ctx) : (s.setCtx c).mem = s.mem := by
  unfold State.setCtx; split <;> rfl
@[simp] theorem State.setCtx_wells (s : State) (c : Ctx) : (s.setCtx c).wells = s.wells := by
  unfold State.setCtx; split <;> rfl
@[simp] theorem State.setCtx_wellFull (s : State) (c : Ctx) : (s.setCtx c).wellFull = s.wellFull := by
  unfold State.setCtx; split <;> rfl
@[simp] theorem State.setCtx_wellPoison (s : State) (c : Ctx) : (s.setCtx c).wellPoison = s.wellPoison := by
  unfold State.setCtx; split <;> rfl
@[simp] theorem State.setCtx_wellBad (s : State) (c : Ctx) : (s.setCtx c).wellBad = s.wellBad := by
  unfold State.setCtx; split <;> rfl
@[simp] theorem State.setCtx_wstoreBad (s : State) (c : Ctx) : (s.setCtx c).wstoreBad = s.wstoreBad := by
  unfold State.setCtx; split <;> rfl
@[simp] theorem State.setCtx_bands (s : State) (c : Ctx) : (s.setCtx c).bands = s.bands := by
  unfold State.setCtx; split <;> rfl
@[simp] theorem State.setCtx_l2 (s : State) (c : Ctx) : (s.setCtx c).l2 = s.l2 := by
  unfold State.setCtx; split <;> rfl
@[simp] theorem State.setCtx_overflow (s : State) (c : Ctx) : (s.setCtx c).overflow = s.overflow := by
  unfold State.setCtx; split <;> rfl
@[simp] theorem State.setCtx_farMarks (s : State) (c : Ctx) : (s.setCtx c).farMarks = s.farMarks := by
  unfold State.setCtx; split <;> rfl
@[simp] theorem State.setCtx_peerMarks (s : State) (c : Ctx) : (s.setCtx c).peerMarks = s.peerMarks := by
  unfold State.setCtx; split <;> rfl
@[simp] theorem State.setCtx_peerLast (s : State) (c : Ctx) : (s.setCtx c).peerLast = s.peerLast := by
  unfold State.setCtx; split <;> rfl
@[simp] theorem State.setCtx_owners (s : State) (c : Ctx) : (s.setCtx c).owners = s.owners := by
  unfold State.setCtx; split <;> rfl
@[simp] theorem State.setCtx_uncertain (s : State) (c : Ctx) : (s.setCtx c).uncertain = s.uncertain := by
  unfold State.setCtx; split <;> rfl
@[simp] theorem State.setCtx_formers (s : State) (c : Ctx) : (s.setCtx c).formers = s.formers := by
  unfold State.setCtx; split <;> rfl
@[simp] theorem State.setCtx_freed (s : State) (c : Ctx) : (s.setCtx c).freed = s.freed := by
  unfold State.setCtx; split <;> rfl
@[simp] theorem State.setCtx_tlb (s : State) (c : Ctx) : (s.setCtx c).tlb = s.tlb := by
  unfold State.setCtx; split <;> rfl
@[simp] theorem State.setCtx_counters (s : State) (c : Ctx) : (s.setCtx c).counters = s.counters := by
  unfold State.setCtx; split <;> rfl
@[simp] theorem State.setCtx_stamps (s : State) (c : Ctx) : (s.setCtx c).stamps = s.stamps := by
  unfold State.setCtx; split <;> rfl
@[simp] theorem State.setCtx_gives (s : State) (c : Ctx) : (s.setCtx c).gives = s.gives := by
  unfold State.setCtx; split <;> rfl
@[simp] theorem State.setCtx_rings (s : State) (c : Ctx) : (s.setCtx c).rings = s.rings := by
  unfold State.setCtx; split <;> rfl
@[simp] theorem State.setCtx_ringWaits (s : State) (c : Ctx) : (s.setCtx c).ringWaits = s.ringWaits := by
  unfold State.setCtx; split <;> rfl
@[simp] theorem State.setCtx_groups (s : State) (c : Ctx) : (s.setCtx c).groups = s.groups := by
  unfold State.setCtx; split <;> rfl
@[simp] theorem State.setCtx_spills (s : State) (c : Ctx) : (s.setCtx c).spills = s.spills := by
  unfold State.setCtx; split <;> rfl
@[simp] theorem State.setCtx_plat (s : State) (c : Ctx) : (s.setCtx c).plat = s.plat := by
  unfold State.setCtx; split <;> rfl
@[simp] theorem State.setCtx_ioLog (s : State) (c : Ctx) : (s.setCtx c).ioLog = s.ioLog := by
  unfold State.setCtx; split <;> rfl
@[simp] theorem State.setCtx_scOrder (s : State) (c : Ctx) : (s.setCtx c).scOrder = s.scOrder := by
  unfold State.setCtx; split <;> rfl
@[simp] theorem State.setCtx_nextId (s : State) (c : Ctx) : (s.setCtx c).nextId = s.nextId := by
  unfold State.setCtx; split <;> rfl
@[simp] theorem State.setCtx_freeCtr (s : State) (c : Ctx) : (s.setCtx c).freeCtr = s.freeCtr := by
  unfold State.setCtx; split <;> rfl
@[simp] theorem State.setCtx_issue (s : State) (c : Ctx) : (s.setCtx c).issue = s.issue := by
  unfold State.setCtx; split <;> rfl
@[simp] theorem State.setCtx_script (s : State) (c : Ctx) : (s.setCtx c).script = s.script := by
  unfold State.setCtx; split <;> rfl
@[simp] theorem State.setCtx_cycled (s : State) (c : Ctx) : (s.setCtx c).cycled = s.cycled := by
  unfold State.setCtx; split <;> rfl

/-! ### modCtx -/

@[simp] theorem State.modCtx_time (s : State) (n : Nat) (f : Ctx → Ctx) : (s.modCtx n f).time = s.time := by
  unfold State.modCtx  State.setCtx; split <;> rfl
@[simp] theorem State.modCtx_dies (s : State) (n : Nat) (f : Ctx → Ctx) : (s.modCtx n f).dies = s.dies := by
  unfold State.modCtx  State.setCtx; split <;> rfl
@[simp] theorem State.modCtx_cores (s : State) (n : Nat) (f : Ctx → Ctx) : (s.modCtx n f).cores = s.cores := by
  unfold State.modCtx  State.setCtx; split <;> rfl
@[simp] theorem State.modCtx_warps (s : State) (n : Nat) (f : Ctx → Ctx) : (s.modCtx n f).warps = s.warps := by
  unfold State.modCtx  State.setCtx; split <;> rfl
@[simp] theorem State.modCtx_blocks (s : State) (n : Nat) (f : Ctx → Ctx) : (s.modCtx n f).blocks = s.blocks := by
  unfold State.modCtx  State.setCtx; split <;> rfl
@[simp] theorem State.modCtx_grids (s : State) (n : Nat) (f : Ctx → Ctx) : (s.modCtx n f).grids = s.grids := by
  unfold State.modCtx  State.setCtx; split <;> rfl
@[simp] theorem State.modCtx_tasks (s : State) (n : Nat) (f : Ctx → Ctx) : (s.modCtx n f).tasks = s.tasks := by
  unfold State.modCtx  State.setCtx; split <;> rfl
@[simp] theorem State.modCtx_engines (s : State) (n : Nat) (f : Ctx → Ctx) : (s.modCtx n f).engines = s.engines := by
  unfold State.modCtx  State.setCtx; split <;> rfl
@[simp] theorem State.modCtx_owed (s : State) (n : Nat) (f : Ctx → Ctx) : (s.modCtx n f).owed = s.owed := by
  unfold State.modCtx  State.setCtx; split <;> rfl
@[simp] theorem State.modCtx_msgs (s : State) (n : Nat) (f : Ctx → Ctx) : (s.modCtx n f).msgs = s.msgs := by
  unfold State.modCtx  State.setCtx; split <;> rfl
@[simp] theorem State.modCtx_mem (s : State) (n : Nat) (f : Ctx → Ctx) : (s.modCtx n f).mem = s.mem := by
  unfold State.modCtx  State.setCtx; split <;> rfl
@[simp] theorem State.modCtx_wells (s : State) (n : Nat) (f : Ctx → Ctx) : (s.modCtx n f).wells = s.wells := by
  unfold State.modCtx  State.setCtx; split <;> rfl
@[simp] theorem State.modCtx_wellFull (s : State) (n : Nat) (f : Ctx → Ctx) : (s.modCtx n f).wellFull = s.wellFull := by
  unfold State.modCtx  State.setCtx; split <;> rfl
@[simp] theorem State.modCtx_wellPoison (s : State) (n : Nat) (f : Ctx → Ctx) : (s.modCtx n f).wellPoison = s.wellPoison := by
  unfold State.modCtx  State.setCtx; split <;> rfl
@[simp] theorem State.modCtx_wellBad (s : State) (n : Nat) (f : Ctx → Ctx) : (s.modCtx n f).wellBad = s.wellBad := by
  unfold State.modCtx  State.setCtx; split <;> rfl
@[simp] theorem State.modCtx_wstoreBad (s : State) (n : Nat) (f : Ctx → Ctx) : (s.modCtx n f).wstoreBad = s.wstoreBad := by
  unfold State.modCtx  State.setCtx; split <;> rfl
@[simp] theorem State.modCtx_bands (s : State) (n : Nat) (f : Ctx → Ctx) : (s.modCtx n f).bands = s.bands := by
  unfold State.modCtx  State.setCtx; split <;> rfl
@[simp] theorem State.modCtx_l2 (s : State) (n : Nat) (f : Ctx → Ctx) : (s.modCtx n f).l2 = s.l2 := by
  unfold State.modCtx  State.setCtx; split <;> rfl
@[simp] theorem State.modCtx_overflow (s : State) (n : Nat) (f : Ctx → Ctx) : (s.modCtx n f).overflow = s.overflow := by
  unfold State.modCtx  State.setCtx; split <;> rfl
@[simp] theorem State.modCtx_farMarks (s : State) (n : Nat) (f : Ctx → Ctx) : (s.modCtx n f).farMarks = s.farMarks := by
  unfold State.modCtx  State.setCtx; split <;> rfl
@[simp] theorem State.modCtx_peerMarks (s : State) (n : Nat) (f : Ctx → Ctx) : (s.modCtx n f).peerMarks = s.peerMarks := by
  unfold State.modCtx  State.setCtx; split <;> rfl
@[simp] theorem State.modCtx_peerLast (s : State) (n : Nat) (f : Ctx → Ctx) : (s.modCtx n f).peerLast = s.peerLast := by
  unfold State.modCtx  State.setCtx; split <;> rfl
@[simp] theorem State.modCtx_owners (s : State) (n : Nat) (f : Ctx → Ctx) : (s.modCtx n f).owners = s.owners := by
  unfold State.modCtx  State.setCtx; split <;> rfl
@[simp] theorem State.modCtx_uncertain (s : State) (n : Nat) (f : Ctx → Ctx) : (s.modCtx n f).uncertain = s.uncertain := by
  unfold State.modCtx  State.setCtx; split <;> rfl
@[simp] theorem State.modCtx_formers (s : State) (n : Nat) (f : Ctx → Ctx) : (s.modCtx n f).formers = s.formers := by
  unfold State.modCtx  State.setCtx; split <;> rfl
@[simp] theorem State.modCtx_freed (s : State) (n : Nat) (f : Ctx → Ctx) : (s.modCtx n f).freed = s.freed := by
  unfold State.modCtx  State.setCtx; split <;> rfl
@[simp] theorem State.modCtx_tlb (s : State) (n : Nat) (f : Ctx → Ctx) : (s.modCtx n f).tlb = s.tlb := by
  unfold State.modCtx  State.setCtx; split <;> rfl
@[simp] theorem State.modCtx_counters (s : State) (n : Nat) (f : Ctx → Ctx) : (s.modCtx n f).counters = s.counters := by
  unfold State.modCtx  State.setCtx; split <;> rfl
@[simp] theorem State.modCtx_stamps (s : State) (n : Nat) (f : Ctx → Ctx) : (s.modCtx n f).stamps = s.stamps := by
  unfold State.modCtx  State.setCtx; split <;> rfl
@[simp] theorem State.modCtx_gives (s : State) (n : Nat) (f : Ctx → Ctx) : (s.modCtx n f).gives = s.gives := by
  unfold State.modCtx  State.setCtx; split <;> rfl
@[simp] theorem State.modCtx_rings (s : State) (n : Nat) (f : Ctx → Ctx) : (s.modCtx n f).rings = s.rings := by
  unfold State.modCtx  State.setCtx; split <;> rfl
@[simp] theorem State.modCtx_ringWaits (s : State) (n : Nat) (f : Ctx → Ctx) : (s.modCtx n f).ringWaits = s.ringWaits := by
  unfold State.modCtx  State.setCtx; split <;> rfl
@[simp] theorem State.modCtx_groups (s : State) (n : Nat) (f : Ctx → Ctx) : (s.modCtx n f).groups = s.groups := by
  unfold State.modCtx  State.setCtx; split <;> rfl
@[simp] theorem State.modCtx_spills (s : State) (n : Nat) (f : Ctx → Ctx) : (s.modCtx n f).spills = s.spills := by
  unfold State.modCtx  State.setCtx; split <;> rfl
@[simp] theorem State.modCtx_plat (s : State) (n : Nat) (f : Ctx → Ctx) : (s.modCtx n f).plat = s.plat := by
  unfold State.modCtx  State.setCtx; split <;> rfl
@[simp] theorem State.modCtx_ioLog (s : State) (n : Nat) (f : Ctx → Ctx) : (s.modCtx n f).ioLog = s.ioLog := by
  unfold State.modCtx  State.setCtx; split <;> rfl
@[simp] theorem State.modCtx_scOrder (s : State) (n : Nat) (f : Ctx → Ctx) : (s.modCtx n f).scOrder = s.scOrder := by
  unfold State.modCtx  State.setCtx; split <;> rfl
@[simp] theorem State.modCtx_nextId (s : State) (n : Nat) (f : Ctx → Ctx) : (s.modCtx n f).nextId = s.nextId := by
  unfold State.modCtx  State.setCtx; split <;> rfl
@[simp] theorem State.modCtx_freeCtr (s : State) (n : Nat) (f : Ctx → Ctx) : (s.modCtx n f).freeCtr = s.freeCtr := by
  unfold State.modCtx  State.setCtx; split <;> rfl
@[simp] theorem State.modCtx_issue (s : State) (n : Nat) (f : Ctx → Ctx) : (s.modCtx n f).issue = s.issue := by
  unfold State.modCtx  State.setCtx; split <;> rfl
@[simp] theorem State.modCtx_script (s : State) (n : Nat) (f : Ctx → Ctx) : (s.modCtx n f).script = s.script := by
  unfold State.modCtx  State.setCtx; split <;> rfl
@[simp] theorem State.modCtx_cycled (s : State) (n : Nat) (f : Ctx → Ctx) : (s.modCtx n f).cycled = s.cycled := by
  unfold State.modCtx  State.setCtx; split <;> rfl

/-! ### setCore -/

@[simp] theorem State.setCore_time (s : State) (c : Core) : (s.setCore c).time = s.time := by
  unfold State.setCore; split <;> rfl
@[simp] theorem State.setCore_dies (s : State) (c : Core) : (s.setCore c).dies = s.dies := by
  unfold State.setCore; split <;> rfl
@[simp] theorem State.setCore_warps (s : State) (c : Core) : (s.setCore c).warps = s.warps := by
  unfold State.setCore; split <;> rfl
@[simp] theorem State.setCore_blocks (s : State) (c : Core) : (s.setCore c).blocks = s.blocks := by
  unfold State.setCore; split <;> rfl
@[simp] theorem State.setCore_grids (s : State) (c : Core) : (s.setCore c).grids = s.grids := by
  unfold State.setCore; split <;> rfl
@[simp] theorem State.setCore_tasks (s : State) (c : Core) : (s.setCore c).tasks = s.tasks := by
  unfold State.setCore; split <;> rfl
@[simp] theorem State.setCore_engines (s : State) (c : Core) : (s.setCore c).engines = s.engines := by
  unfold State.setCore; split <;> rfl
@[simp] theorem State.setCore_owed (s : State) (c : Core) : (s.setCore c).owed = s.owed := by
  unfold State.setCore; split <;> rfl
@[simp] theorem State.setCore_msgs (s : State) (c : Core) : (s.setCore c).msgs = s.msgs := by
  unfold State.setCore; split <;> rfl
@[simp] theorem State.setCore_mem (s : State) (c : Core) : (s.setCore c).mem = s.mem := by
  unfold State.setCore; split <;> rfl
@[simp] theorem State.setCore_wells (s : State) (c : Core) : (s.setCore c).wells = s.wells := by
  unfold State.setCore; split <;> rfl
@[simp] theorem State.setCore_wellFull (s : State) (c : Core) : (s.setCore c).wellFull = s.wellFull := by
  unfold State.setCore; split <;> rfl
@[simp] theorem State.setCore_wellPoison (s : State) (c : Core) : (s.setCore c).wellPoison = s.wellPoison := by
  unfold State.setCore; split <;> rfl
@[simp] theorem State.setCore_wellBad (s : State) (c : Core) : (s.setCore c).wellBad = s.wellBad := by
  unfold State.setCore; split <;> rfl
@[simp] theorem State.setCore_wstoreBad (s : State) (c : Core) : (s.setCore c).wstoreBad = s.wstoreBad := by
  unfold State.setCore; split <;> rfl
@[simp] theorem State.setCore_bands (s : State) (c : Core) : (s.setCore c).bands = s.bands := by
  unfold State.setCore; split <;> rfl
@[simp] theorem State.setCore_l2 (s : State) (c : Core) : (s.setCore c).l2 = s.l2 := by
  unfold State.setCore; split <;> rfl
@[simp] theorem State.setCore_overflow (s : State) (c : Core) : (s.setCore c).overflow = s.overflow := by
  unfold State.setCore; split <;> rfl
@[simp] theorem State.setCore_farMarks (s : State) (c : Core) : (s.setCore c).farMarks = s.farMarks := by
  unfold State.setCore; split <;> rfl
@[simp] theorem State.setCore_peerMarks (s : State) (c : Core) : (s.setCore c).peerMarks = s.peerMarks := by
  unfold State.setCore; split <;> rfl
@[simp] theorem State.setCore_peerLast (s : State) (c : Core) : (s.setCore c).peerLast = s.peerLast := by
  unfold State.setCore; split <;> rfl
@[simp] theorem State.setCore_owners (s : State) (c : Core) : (s.setCore c).owners = s.owners := by
  unfold State.setCore; split <;> rfl
@[simp] theorem State.setCore_uncertain (s : State) (c : Core) : (s.setCore c).uncertain = s.uncertain := by
  unfold State.setCore; split <;> rfl
@[simp] theorem State.setCore_formers (s : State) (c : Core) : (s.setCore c).formers = s.formers := by
  unfold State.setCore; split <;> rfl
@[simp] theorem State.setCore_freed (s : State) (c : Core) : (s.setCore c).freed = s.freed := by
  unfold State.setCore; split <;> rfl
@[simp] theorem State.setCore_tlb (s : State) (c : Core) : (s.setCore c).tlb = s.tlb := by
  unfold State.setCore; split <;> rfl
@[simp] theorem State.setCore_counters (s : State) (c : Core) : (s.setCore c).counters = s.counters := by
  unfold State.setCore; split <;> rfl
@[simp] theorem State.setCore_stamps (s : State) (c : Core) : (s.setCore c).stamps = s.stamps := by
  unfold State.setCore; split <;> rfl
@[simp] theorem State.setCore_gives (s : State) (c : Core) : (s.setCore c).gives = s.gives := by
  unfold State.setCore; split <;> rfl
@[simp] theorem State.setCore_rings (s : State) (c : Core) : (s.setCore c).rings = s.rings := by
  unfold State.setCore; split <;> rfl
@[simp] theorem State.setCore_ringWaits (s : State) (c : Core) : (s.setCore c).ringWaits = s.ringWaits := by
  unfold State.setCore; split <;> rfl
@[simp] theorem State.setCore_groups (s : State) (c : Core) : (s.setCore c).groups = s.groups := by
  unfold State.setCore; split <;> rfl
@[simp] theorem State.setCore_spills (s : State) (c : Core) : (s.setCore c).spills = s.spills := by
  unfold State.setCore; split <;> rfl
@[simp] theorem State.setCore_ctxs (s : State) (c : Core) : (s.setCore c).ctxs = s.ctxs := by
  unfold State.setCore; split <;> rfl
@[simp] theorem State.setCore_plat (s : State) (c : Core) : (s.setCore c).plat = s.plat := by
  unfold State.setCore; split <;> rfl
@[simp] theorem State.setCore_ioLog (s : State) (c : Core) : (s.setCore c).ioLog = s.ioLog := by
  unfold State.setCore; split <;> rfl
@[simp] theorem State.setCore_scOrder (s : State) (c : Core) : (s.setCore c).scOrder = s.scOrder := by
  unfold State.setCore; split <;> rfl
@[simp] theorem State.setCore_nextId (s : State) (c : Core) : (s.setCore c).nextId = s.nextId := by
  unfold State.setCore; split <;> rfl
@[simp] theorem State.setCore_freeCtr (s : State) (c : Core) : (s.setCore c).freeCtr = s.freeCtr := by
  unfold State.setCore; split <;> rfl
@[simp] theorem State.setCore_issue (s : State) (c : Core) : (s.setCore c).issue = s.issue := by
  unfold State.setCore; split <;> rfl
@[simp] theorem State.setCore_script (s : State) (c : Core) : (s.setCore c).script = s.script := by
  unfold State.setCore; split <;> rfl
@[simp] theorem State.setCore_cycled (s : State) (c : Core) : (s.setCore c).cycled = s.cycled := by
  unfold State.setCore; split <;> rfl

/-! ### modCore -/

@[simp] theorem State.modCore_time (s : State) (n : Nat) (f : Core → Core) : (s.modCore n f).time = s.time := by
  unfold State.modCore  State.setCore; split <;> rfl
@[simp] theorem State.modCore_dies (s : State) (n : Nat) (f : Core → Core) : (s.modCore n f).dies = s.dies := by
  unfold State.modCore  State.setCore; split <;> rfl
@[simp] theorem State.modCore_warps (s : State) (n : Nat) (f : Core → Core) : (s.modCore n f).warps = s.warps := by
  unfold State.modCore  State.setCore; split <;> rfl
@[simp] theorem State.modCore_blocks (s : State) (n : Nat) (f : Core → Core) : (s.modCore n f).blocks = s.blocks := by
  unfold State.modCore  State.setCore; split <;> rfl
@[simp] theorem State.modCore_grids (s : State) (n : Nat) (f : Core → Core) : (s.modCore n f).grids = s.grids := by
  unfold State.modCore  State.setCore; split <;> rfl
@[simp] theorem State.modCore_tasks (s : State) (n : Nat) (f : Core → Core) : (s.modCore n f).tasks = s.tasks := by
  unfold State.modCore  State.setCore; split <;> rfl
@[simp] theorem State.modCore_engines (s : State) (n : Nat) (f : Core → Core) : (s.modCore n f).engines = s.engines := by
  unfold State.modCore  State.setCore; split <;> rfl
@[simp] theorem State.modCore_owed (s : State) (n : Nat) (f : Core → Core) : (s.modCore n f).owed = s.owed := by
  unfold State.modCore  State.setCore; split <;> rfl
@[simp] theorem State.modCore_msgs (s : State) (n : Nat) (f : Core → Core) : (s.modCore n f).msgs = s.msgs := by
  unfold State.modCore  State.setCore; split <;> rfl
@[simp] theorem State.modCore_mem (s : State) (n : Nat) (f : Core → Core) : (s.modCore n f).mem = s.mem := by
  unfold State.modCore  State.setCore; split <;> rfl
@[simp] theorem State.modCore_wells (s : State) (n : Nat) (f : Core → Core) : (s.modCore n f).wells = s.wells := by
  unfold State.modCore  State.setCore; split <;> rfl
@[simp] theorem State.modCore_wellFull (s : State) (n : Nat) (f : Core → Core) : (s.modCore n f).wellFull = s.wellFull := by
  unfold State.modCore  State.setCore; split <;> rfl
@[simp] theorem State.modCore_wellPoison (s : State) (n : Nat) (f : Core → Core) : (s.modCore n f).wellPoison = s.wellPoison := by
  unfold State.modCore  State.setCore; split <;> rfl
@[simp] theorem State.modCore_wellBad (s : State) (n : Nat) (f : Core → Core) : (s.modCore n f).wellBad = s.wellBad := by
  unfold State.modCore  State.setCore; split <;> rfl
@[simp] theorem State.modCore_wstoreBad (s : State) (n : Nat) (f : Core → Core) : (s.modCore n f).wstoreBad = s.wstoreBad := by
  unfold State.modCore  State.setCore; split <;> rfl
@[simp] theorem State.modCore_bands (s : State) (n : Nat) (f : Core → Core) : (s.modCore n f).bands = s.bands := by
  unfold State.modCore  State.setCore; split <;> rfl
@[simp] theorem State.modCore_l2 (s : State) (n : Nat) (f : Core → Core) : (s.modCore n f).l2 = s.l2 := by
  unfold State.modCore  State.setCore; split <;> rfl
@[simp] theorem State.modCore_overflow (s : State) (n : Nat) (f : Core → Core) : (s.modCore n f).overflow = s.overflow := by
  unfold State.modCore  State.setCore; split <;> rfl
@[simp] theorem State.modCore_farMarks (s : State) (n : Nat) (f : Core → Core) : (s.modCore n f).farMarks = s.farMarks := by
  unfold State.modCore  State.setCore; split <;> rfl
@[simp] theorem State.modCore_peerMarks (s : State) (n : Nat) (f : Core → Core) : (s.modCore n f).peerMarks = s.peerMarks := by
  unfold State.modCore  State.setCore; split <;> rfl
@[simp] theorem State.modCore_peerLast (s : State) (n : Nat) (f : Core → Core) : (s.modCore n f).peerLast = s.peerLast := by
  unfold State.modCore  State.setCore; split <;> rfl
@[simp] theorem State.modCore_owners (s : State) (n : Nat) (f : Core → Core) : (s.modCore n f).owners = s.owners := by
  unfold State.modCore  State.setCore; split <;> rfl
@[simp] theorem State.modCore_uncertain (s : State) (n : Nat) (f : Core → Core) : (s.modCore n f).uncertain = s.uncertain := by
  unfold State.modCore  State.setCore; split <;> rfl
@[simp] theorem State.modCore_formers (s : State) (n : Nat) (f : Core → Core) : (s.modCore n f).formers = s.formers := by
  unfold State.modCore  State.setCore; split <;> rfl
@[simp] theorem State.modCore_freed (s : State) (n : Nat) (f : Core → Core) : (s.modCore n f).freed = s.freed := by
  unfold State.modCore  State.setCore; split <;> rfl
@[simp] theorem State.modCore_tlb (s : State) (n : Nat) (f : Core → Core) : (s.modCore n f).tlb = s.tlb := by
  unfold State.modCore  State.setCore; split <;> rfl
@[simp] theorem State.modCore_counters (s : State) (n : Nat) (f : Core → Core) : (s.modCore n f).counters = s.counters := by
  unfold State.modCore  State.setCore; split <;> rfl
@[simp] theorem State.modCore_stamps (s : State) (n : Nat) (f : Core → Core) : (s.modCore n f).stamps = s.stamps := by
  unfold State.modCore  State.setCore; split <;> rfl
@[simp] theorem State.modCore_gives (s : State) (n : Nat) (f : Core → Core) : (s.modCore n f).gives = s.gives := by
  unfold State.modCore  State.setCore; split <;> rfl
@[simp] theorem State.modCore_rings (s : State) (n : Nat) (f : Core → Core) : (s.modCore n f).rings = s.rings := by
  unfold State.modCore  State.setCore; split <;> rfl
@[simp] theorem State.modCore_ringWaits (s : State) (n : Nat) (f : Core → Core) : (s.modCore n f).ringWaits = s.ringWaits := by
  unfold State.modCore  State.setCore; split <;> rfl
@[simp] theorem State.modCore_groups (s : State) (n : Nat) (f : Core → Core) : (s.modCore n f).groups = s.groups := by
  unfold State.modCore  State.setCore; split <;> rfl
@[simp] theorem State.modCore_spills (s : State) (n : Nat) (f : Core → Core) : (s.modCore n f).spills = s.spills := by
  unfold State.modCore  State.setCore; split <;> rfl
@[simp] theorem State.modCore_ctxs (s : State) (n : Nat) (f : Core → Core) : (s.modCore n f).ctxs = s.ctxs := by
  unfold State.modCore  State.setCore; split <;> rfl
@[simp] theorem State.modCore_plat (s : State) (n : Nat) (f : Core → Core) : (s.modCore n f).plat = s.plat := by
  unfold State.modCore  State.setCore; split <;> rfl
@[simp] theorem State.modCore_ioLog (s : State) (n : Nat) (f : Core → Core) : (s.modCore n f).ioLog = s.ioLog := by
  unfold State.modCore  State.setCore; split <;> rfl
@[simp] theorem State.modCore_scOrder (s : State) (n : Nat) (f : Core → Core) : (s.modCore n f).scOrder = s.scOrder := by
  unfold State.modCore  State.setCore; split <;> rfl
@[simp] theorem State.modCore_nextId (s : State) (n : Nat) (f : Core → Core) : (s.modCore n f).nextId = s.nextId := by
  unfold State.modCore  State.setCore; split <;> rfl
@[simp] theorem State.modCore_freeCtr (s : State) (n : Nat) (f : Core → Core) : (s.modCore n f).freeCtr = s.freeCtr := by
  unfold State.modCore  State.setCore; split <;> rfl
@[simp] theorem State.modCore_issue (s : State) (n : Nat) (f : Core → Core) : (s.modCore n f).issue = s.issue := by
  unfold State.modCore  State.setCore; split <;> rfl
@[simp] theorem State.modCore_script (s : State) (n : Nat) (f : Core → Core) : (s.modCore n f).script = s.script := by
  unfold State.modCore  State.setCore; split <;> rfl
@[simp] theorem State.modCore_cycled (s : State) (n : Nat) (f : Core → Core) : (s.modCore n f).cycled = s.cycled := by
  unfold State.modCore  State.setCore; split <;> rfl

/-! ### vset -/

@[simp] theorem Warp.vset_uid (w : Warp) (r l : Nat) (v : Word) : (w.vset r l v).uid = w.uid := rfl
@[simp] theorem Warp.vset_wid (w : Warp) (r l : Nat) (v : Word) : (w.vset r l v).wid = w.wid := rfl
@[simp] theorem Warp.vset_slot (w : Warp) (r l : Nat) (v : Word) : (w.vset r l v).slot = w.slot := rfl
@[simp] theorem Warp.vset_core (w : Warp) (r l : Nat) (v : Word) : (w.vset r l v).core = w.core := rfl
@[simp] theorem Warp.vset_resident (w : Warp) (r l : Nat) (v : Word) : (w.vset r l v).resident = w.resident := rfl
@[simp] theorem Warp.vset_threads (w : Warp) (r l : Nat) (v : Word) : (w.vset r l v).threads = w.threads := rfl
@[simp] theorem Warp.vset_vregs (w : Warp) (r l : Nat) (v : Word) : (w.vset r l v).vregs = cset w.vregs (32 * r + l) v := rfl
@[simp] theorem Warp.vset_sregs (w : Warp) (r l : Nat) (v : Word) : (w.vset r l v).sregs = w.sregs := rfl
@[simp] theorem Warp.vset_preds (w : Warp) (r l : Nat) (v : Word) : (w.vset r l v).preds = w.preds := rfl
@[simp] theorem Warp.vset_outstanding (w : Warp) (r l : Nat) (v : Word) : (w.vset r l v).outstanding = w.outstanding := rfl
@[simp] theorem Warp.vset_tokens (w : Warp) (r l : Nat) (v : Word) : (w.vset r l v).tokens = w.tokens := rfl
@[simp] theorem Warp.vset_fflags (w : Warp) (r l : Nat) (v : Word) : (w.vset r l v).fflags = w.fflags := rfl
@[simp] theorem Warp.vset_iseq (w : Warp) (r l : Nat) (v : Word) : (w.vset r l v).iseq = w.iseq := rfl
@[simp] theorem Warp.vset_eseq (w : Warp) (r l : Nat) (v : Word) : (w.vset r l v).eseq = w.eseq := rfl
@[simp] theorem Warp.vset_clock (w : Warp) (r l : Nat) (v : Word) : (w.vset r l v).clock = w.clock := rfl
@[simp] theorem Warp.vset_relStamp (w : Warp) (r l : Nat) (v : Word) : (w.vset r l v).relStamp = w.relStamp := rfl
@[simp] theorem Warp.vset_fences (w : Warp) (r l : Nat) (v : Word) : (w.vset r l v).fences = w.fences := rfl
@[simp] theorem Warp.vset_seen (w : Warp) (r l : Nat) (v : Word) : (w.vset r l v).seen = w.seen := rfl
@[simp] theorem Warp.vset_askedAt (w : Warp) (r l : Nat) (v : Word) : (w.vset r l v).askedAt = w.askedAt := rfl
@[simp] theorem Warp.vset_atomTime (w : Warp) (r l : Nat) (v : Word) : (w.vset r l v).atomTime = w.atomTime := rfl
@[simp] theorem Warp.vset_acqNear (w : Warp) (r l : Nat) (v : Word) : (w.vset r l v).acqNear = w.acqNear := rfl
@[simp] theorem Warp.vset_acqWide (w : Warp) (r l : Nat) (v : Word) : (w.vset r l v).acqWide = w.acqWide := rfl
@[simp] theorem Warp.vset_acqEpoch (w : Warp) (r l : Nat) (v : Word) : (w.vset r l v).acqEpoch = w.acqEpoch := rfl
@[simp] theorem Warp.vset_ftag (w : Warp) (r l : Nat) (v : Word) : (w.vset r l v).ftag = w.ftag := rfl
@[simp] theorem Warp.vset_dirty (w : Warp) (r l : Nat) (v : Word) : (w.vset r l v).dirty = w.dirty := rfl
@[simp] theorem Warp.vset_dirtyOv (w : Warp) (r l : Nat) (v : Word) : (w.vset r l v).dirtyOv = w.dirtyOv := rfl
@[simp] theorem Warp.vset_opc (w : Warp) (r l : Nat) (v : Word) : (w.vset r l v).opc = w.opc := rfl
@[simp] theorem Warp.vset_openPhase (w : Warp) (r l : Nat) (v : Word) : (w.vset r l v).openPhase = w.openPhase := rfl
@[simp] theorem Warp.vset_ring (w : Warp) (r l : Nat) (v : Word) : (w.vset r l v).ring = w.ring := rfl
@[simp] theorem Warp.vset_held (w : Warp) (r l : Nat) (v : Word) : (w.vset r l v).held = w.held := rfl
@[simp] theorem Warp.vset_faultStall (w : Warp) (r l : Nat) (v : Word) : (w.vset r l v).faultStall = w.faultStall := rfl
@[simp] theorem Warp.vset_deferred (w : Warp) (r l : Nat) (v : Word) : (w.vset r l v).deferred = w.deferred := rfl
@[simp] theorem Warp.vset_checks (w : Warp) (r l : Nat) (v : Word) : (w.vset r l v).checks = w.checks := rfl
@[simp] theorem Warp.vset_wbs (w : Warp) (r l : Nat) (v : Word) : (w.vset r l v).wbs = w.wbs := rfl
@[simp] theorem Warp.vset_flushed (w : Warp) (r l : Nat) (v : Word) : (w.vset r l v).flushed = w.flushed := rfl
@[simp] theorem Warp.vset_waitId (w : Warp) (r l : Nat) (v : Word) : (w.vset r l v).waitId = w.waitId := rfl
@[simp] theorem Warp.vset_waitLevel (w : Warp) (r l : Nat) (v : Word) : (w.vset r l v).waitLevel = w.waitLevel := rfl
@[simp] theorem Warp.vset_atBoundary (w : Warp) (r l : Nat) (v : Word) : (w.vset r l v).atBoundary = w.atBoundary := rfl
@[simp] theorem Warp.vset_acq (w : Warp) (r l : Nat) (v : Word) : (w.vset r l v).acq = w.acq := rfl
@[simp] theorem Warp.vset_bundle (w : Warp) (r l : Nat) (v : Word) : (w.vset r l v).bundle = w.bundle := rfl
@[simp] theorem Warp.vset_stall (w : Warp) (r l : Nat) (v : Word) : (w.vset r l v).stall = w.stall := rfl
@[simp] theorem Warp.vset_doubt (w : Warp) (r l : Nat) (v : Word) : (w.vset r l v).doubt = w.doubt := rfl
@[simp] theorem Warp.vset_ringStall (w : Warp) (r l : Nat) (v : Word) : (w.vset r l v).ringStall = w.ringStall := rfl
@[simp] theorem Warp.vset_tokenStall (w : Warp) (r l : Nat) (v : Word) : (w.vset r l v).tokenStall = w.tokenStall := rfl
@[simp] theorem Warp.vset_since (w : Warp) (r l : Nat) (v : Word) : (w.vset r l v).since = w.since := rfl
@[simp] theorem Warp.vset_yielded (w : Warp) (r l : Nat) (v : Word) : (w.vset r l v).yielded = w.yielded := rfl
@[simp] theorem Warp.vset_line (w : Warp) (r l : Nat) (v : Word) : (w.vset r l v).line = w.line := rfl
@[simp] theorem Warp.vset_takes (w : Warp) (r l : Nat) (v : Word) : (w.vset r l v).takes = w.takes := rfl
@[simp] theorem Warp.vset_released (w : Warp) (r l : Nat) (v : Word) : (w.vset r l v).released = w.released := rfl
@[simp] theorem Warp.vset_barred (w : Warp) (r l : Nat) (v : Word) : (w.vset r l v).barred = w.barred := rfl

/-! ### sset -/

@[simp] theorem Warp.sset_uid (w : Warp) (r : Nat) (v : Word) : (w.sset r v).uid = w.uid := rfl
@[simp] theorem Warp.sset_wid (w : Warp) (r : Nat) (v : Word) : (w.sset r v).wid = w.wid := rfl
@[simp] theorem Warp.sset_slot (w : Warp) (r : Nat) (v : Word) : (w.sset r v).slot = w.slot := rfl
@[simp] theorem Warp.sset_core (w : Warp) (r : Nat) (v : Word) : (w.sset r v).core = w.core := rfl
@[simp] theorem Warp.sset_resident (w : Warp) (r : Nat) (v : Word) : (w.sset r v).resident = w.resident := rfl
@[simp] theorem Warp.sset_threads (w : Warp) (r : Nat) (v : Word) : (w.sset r v).threads = w.threads := rfl
@[simp] theorem Warp.sset_vregs (w : Warp) (r : Nat) (v : Word) : (w.sset r v).vregs = w.vregs := rfl
@[simp] theorem Warp.sset_sregs (w : Warp) (r : Nat) (v : Word) : (w.sset r v).sregs = cset w.sregs r v := rfl
@[simp] theorem Warp.sset_preds (w : Warp) (r : Nat) (v : Word) : (w.sset r v).preds = w.preds := rfl
@[simp] theorem Warp.sset_outstanding (w : Warp) (r : Nat) (v : Word) : (w.sset r v).outstanding = w.outstanding := rfl
@[simp] theorem Warp.sset_tokens (w : Warp) (r : Nat) (v : Word) : (w.sset r v).tokens = w.tokens := rfl
@[simp] theorem Warp.sset_fflags (w : Warp) (r : Nat) (v : Word) : (w.sset r v).fflags = w.fflags := rfl
@[simp] theorem Warp.sset_iseq (w : Warp) (r : Nat) (v : Word) : (w.sset r v).iseq = w.iseq := rfl
@[simp] theorem Warp.sset_eseq (w : Warp) (r : Nat) (v : Word) : (w.sset r v).eseq = w.eseq := rfl
@[simp] theorem Warp.sset_clock (w : Warp) (r : Nat) (v : Word) : (w.sset r v).clock = w.clock := rfl
@[simp] theorem Warp.sset_relStamp (w : Warp) (r : Nat) (v : Word) : (w.sset r v).relStamp = w.relStamp := rfl
@[simp] theorem Warp.sset_fences (w : Warp) (r : Nat) (v : Word) : (w.sset r v).fences = w.fences := rfl
@[simp] theorem Warp.sset_seen (w : Warp) (r : Nat) (v : Word) : (w.sset r v).seen = w.seen := rfl
@[simp] theorem Warp.sset_askedAt (w : Warp) (r : Nat) (v : Word) : (w.sset r v).askedAt = w.askedAt := rfl
@[simp] theorem Warp.sset_atomTime (w : Warp) (r : Nat) (v : Word) : (w.sset r v).atomTime = w.atomTime := rfl
@[simp] theorem Warp.sset_acqNear (w : Warp) (r : Nat) (v : Word) : (w.sset r v).acqNear = w.acqNear := rfl
@[simp] theorem Warp.sset_acqWide (w : Warp) (r : Nat) (v : Word) : (w.sset r v).acqWide = w.acqWide := rfl
@[simp] theorem Warp.sset_acqEpoch (w : Warp) (r : Nat) (v : Word) : (w.sset r v).acqEpoch = w.acqEpoch := rfl
@[simp] theorem Warp.sset_ftag (w : Warp) (r : Nat) (v : Word) : (w.sset r v).ftag = w.ftag := rfl
@[simp] theorem Warp.sset_dirty (w : Warp) (r : Nat) (v : Word) : (w.sset r v).dirty = w.dirty := rfl
@[simp] theorem Warp.sset_dirtyOv (w : Warp) (r : Nat) (v : Word) : (w.sset r v).dirtyOv = w.dirtyOv := rfl
@[simp] theorem Warp.sset_opc (w : Warp) (r : Nat) (v : Word) : (w.sset r v).opc = w.opc := rfl
@[simp] theorem Warp.sset_openPhase (w : Warp) (r : Nat) (v : Word) : (w.sset r v).openPhase = w.openPhase := rfl
@[simp] theorem Warp.sset_ring (w : Warp) (r : Nat) (v : Word) : (w.sset r v).ring = w.ring := rfl
@[simp] theorem Warp.sset_held (w : Warp) (r : Nat) (v : Word) : (w.sset r v).held = w.held := rfl
@[simp] theorem Warp.sset_faultStall (w : Warp) (r : Nat) (v : Word) : (w.sset r v).faultStall = w.faultStall := rfl
@[simp] theorem Warp.sset_deferred (w : Warp) (r : Nat) (v : Word) : (w.sset r v).deferred = w.deferred := rfl
@[simp] theorem Warp.sset_checks (w : Warp) (r : Nat) (v : Word) : (w.sset r v).checks = w.checks := rfl
@[simp] theorem Warp.sset_wbs (w : Warp) (r : Nat) (v : Word) : (w.sset r v).wbs = w.wbs := rfl
@[simp] theorem Warp.sset_flushed (w : Warp) (r : Nat) (v : Word) : (w.sset r v).flushed = w.flushed := rfl
@[simp] theorem Warp.sset_waitId (w : Warp) (r : Nat) (v : Word) : (w.sset r v).waitId = w.waitId := rfl
@[simp] theorem Warp.sset_waitLevel (w : Warp) (r : Nat) (v : Word) : (w.sset r v).waitLevel = w.waitLevel := rfl
@[simp] theorem Warp.sset_atBoundary (w : Warp) (r : Nat) (v : Word) : (w.sset r v).atBoundary = w.atBoundary := rfl
@[simp] theorem Warp.sset_acq (w : Warp) (r : Nat) (v : Word) : (w.sset r v).acq = w.acq := rfl
@[simp] theorem Warp.sset_bundle (w : Warp) (r : Nat) (v : Word) : (w.sset r v).bundle = w.bundle := rfl
@[simp] theorem Warp.sset_stall (w : Warp) (r : Nat) (v : Word) : (w.sset r v).stall = w.stall := rfl
@[simp] theorem Warp.sset_doubt (w : Warp) (r : Nat) (v : Word) : (w.sset r v).doubt = w.doubt := rfl
@[simp] theorem Warp.sset_ringStall (w : Warp) (r : Nat) (v : Word) : (w.sset r v).ringStall = w.ringStall := rfl
@[simp] theorem Warp.sset_tokenStall (w : Warp) (r : Nat) (v : Word) : (w.sset r v).tokenStall = w.tokenStall := rfl
@[simp] theorem Warp.sset_since (w : Warp) (r : Nat) (v : Word) : (w.sset r v).since = w.since := rfl
@[simp] theorem Warp.sset_yielded (w : Warp) (r : Nat) (v : Word) : (w.sset r v).yielded = w.yielded := rfl
@[simp] theorem Warp.sset_line (w : Warp) (r : Nat) (v : Word) : (w.sset r v).line = w.line := rfl
@[simp] theorem Warp.sset_takes (w : Warp) (r : Nat) (v : Word) : (w.sset r v).takes = w.takes := rfl
@[simp] theorem Warp.sset_released (w : Warp) (r : Nat) (v : Word) : (w.sset r v).released = w.released := rfl
@[simp] theorem Warp.sset_barred (w : Warp) (r : Nat) (v : Word) : (w.sset r v).barred = w.barred := rfl

/-! ### modThread -/

@[simp] theorem Warp.modThread_uid (w : Warp) (l : Nat) (f : Thread → Thread) : (w.modThread l f).uid = w.uid := rfl
@[simp] theorem Warp.modThread_wid (w : Warp) (l : Nat) (f : Thread → Thread) : (w.modThread l f).wid = w.wid := rfl
@[simp] theorem Warp.modThread_slot (w : Warp) (l : Nat) (f : Thread → Thread) : (w.modThread l f).slot = w.slot := rfl
@[simp] theorem Warp.modThread_core (w : Warp) (l : Nat) (f : Thread → Thread) : (w.modThread l f).core = w.core := rfl
@[simp] theorem Warp.modThread_resident (w : Warp) (l : Nat) (f : Thread → Thread) : (w.modThread l f).resident = w.resident := rfl
@[simp] theorem Warp.modThread_threads (w : Warp) (l : Nat) (f : Thread → Thread) : (w.modThread l f).threads = w.threads.set l (f (w.thread l)) := rfl
@[simp] theorem Warp.modThread_vregs (w : Warp) (l : Nat) (f : Thread → Thread) : (w.modThread l f).vregs = w.vregs := rfl
@[simp] theorem Warp.modThread_sregs (w : Warp) (l : Nat) (f : Thread → Thread) : (w.modThread l f).sregs = w.sregs := rfl
@[simp] theorem Warp.modThread_preds (w : Warp) (l : Nat) (f : Thread → Thread) : (w.modThread l f).preds = w.preds := rfl
@[simp] theorem Warp.modThread_outstanding (w : Warp) (l : Nat) (f : Thread → Thread) : (w.modThread l f).outstanding = w.outstanding := rfl
@[simp] theorem Warp.modThread_tokens (w : Warp) (l : Nat) (f : Thread → Thread) : (w.modThread l f).tokens = w.tokens := rfl
@[simp] theorem Warp.modThread_fflags (w : Warp) (l : Nat) (f : Thread → Thread) : (w.modThread l f).fflags = w.fflags := rfl
@[simp] theorem Warp.modThread_iseq (w : Warp) (l : Nat) (f : Thread → Thread) : (w.modThread l f).iseq = w.iseq := rfl
@[simp] theorem Warp.modThread_eseq (w : Warp) (l : Nat) (f : Thread → Thread) : (w.modThread l f).eseq = w.eseq := rfl
@[simp] theorem Warp.modThread_clock (w : Warp) (l : Nat) (f : Thread → Thread) : (w.modThread l f).clock = w.clock := rfl
@[simp] theorem Warp.modThread_relStamp (w : Warp) (l : Nat) (f : Thread → Thread) : (w.modThread l f).relStamp = w.relStamp := rfl
@[simp] theorem Warp.modThread_fences (w : Warp) (l : Nat) (f : Thread → Thread) : (w.modThread l f).fences = w.fences := rfl
@[simp] theorem Warp.modThread_seen (w : Warp) (l : Nat) (f : Thread → Thread) : (w.modThread l f).seen = w.seen := rfl
@[simp] theorem Warp.modThread_askedAt (w : Warp) (l : Nat) (f : Thread → Thread) : (w.modThread l f).askedAt = w.askedAt := rfl
@[simp] theorem Warp.modThread_atomTime (w : Warp) (l : Nat) (f : Thread → Thread) : (w.modThread l f).atomTime = w.atomTime := rfl
@[simp] theorem Warp.modThread_acqNear (w : Warp) (l : Nat) (f : Thread → Thread) : (w.modThread l f).acqNear = w.acqNear := rfl
@[simp] theorem Warp.modThread_acqWide (w : Warp) (l : Nat) (f : Thread → Thread) : (w.modThread l f).acqWide = w.acqWide := rfl
@[simp] theorem Warp.modThread_acqEpoch (w : Warp) (l : Nat) (f : Thread → Thread) : (w.modThread l f).acqEpoch = w.acqEpoch := rfl
@[simp] theorem Warp.modThread_ftag (w : Warp) (l : Nat) (f : Thread → Thread) : (w.modThread l f).ftag = w.ftag := rfl
@[simp] theorem Warp.modThread_dirty (w : Warp) (l : Nat) (f : Thread → Thread) : (w.modThread l f).dirty = w.dirty := rfl
@[simp] theorem Warp.modThread_dirtyOv (w : Warp) (l : Nat) (f : Thread → Thread) : (w.modThread l f).dirtyOv = w.dirtyOv := rfl
@[simp] theorem Warp.modThread_opc (w : Warp) (l : Nat) (f : Thread → Thread) : (w.modThread l f).opc = w.opc := rfl
@[simp] theorem Warp.modThread_openPhase (w : Warp) (l : Nat) (f : Thread → Thread) : (w.modThread l f).openPhase = w.openPhase := rfl
@[simp] theorem Warp.modThread_ring (w : Warp) (l : Nat) (f : Thread → Thread) : (w.modThread l f).ring = w.ring := rfl
@[simp] theorem Warp.modThread_held (w : Warp) (l : Nat) (f : Thread → Thread) : (w.modThread l f).held = w.held := rfl
@[simp] theorem Warp.modThread_faultStall (w : Warp) (l : Nat) (f : Thread → Thread) : (w.modThread l f).faultStall = w.faultStall := rfl
@[simp] theorem Warp.modThread_deferred (w : Warp) (l : Nat) (f : Thread → Thread) : (w.modThread l f).deferred = w.deferred := rfl
@[simp] theorem Warp.modThread_checks (w : Warp) (l : Nat) (f : Thread → Thread) : (w.modThread l f).checks = w.checks := rfl
@[simp] theorem Warp.modThread_wbs (w : Warp) (l : Nat) (f : Thread → Thread) : (w.modThread l f).wbs = w.wbs := rfl
@[simp] theorem Warp.modThread_flushed (w : Warp) (l : Nat) (f : Thread → Thread) : (w.modThread l f).flushed = w.flushed := rfl
@[simp] theorem Warp.modThread_waitId (w : Warp) (l : Nat) (f : Thread → Thread) : (w.modThread l f).waitId = w.waitId := rfl
@[simp] theorem Warp.modThread_waitLevel (w : Warp) (l : Nat) (f : Thread → Thread) : (w.modThread l f).waitLevel = w.waitLevel := rfl
@[simp] theorem Warp.modThread_atBoundary (w : Warp) (l : Nat) (f : Thread → Thread) : (w.modThread l f).atBoundary = w.atBoundary := rfl
@[simp] theorem Warp.modThread_acq (w : Warp) (l : Nat) (f : Thread → Thread) : (w.modThread l f).acq = w.acq := rfl
@[simp] theorem Warp.modThread_bundle (w : Warp) (l : Nat) (f : Thread → Thread) : (w.modThread l f).bundle = w.bundle := rfl
@[simp] theorem Warp.modThread_stall (w : Warp) (l : Nat) (f : Thread → Thread) : (w.modThread l f).stall = w.stall := rfl
@[simp] theorem Warp.modThread_doubt (w : Warp) (l : Nat) (f : Thread → Thread) : (w.modThread l f).doubt = w.doubt := rfl
@[simp] theorem Warp.modThread_ringStall (w : Warp) (l : Nat) (f : Thread → Thread) : (w.modThread l f).ringStall = w.ringStall := rfl
@[simp] theorem Warp.modThread_tokenStall (w : Warp) (l : Nat) (f : Thread → Thread) : (w.modThread l f).tokenStall = w.tokenStall := rfl
@[simp] theorem Warp.modThread_since (w : Warp) (l : Nat) (f : Thread → Thread) : (w.modThread l f).since = w.since := rfl
@[simp] theorem Warp.modThread_yielded (w : Warp) (l : Nat) (f : Thread → Thread) : (w.modThread l f).yielded = w.yielded := rfl
@[simp] theorem Warp.modThread_line (w : Warp) (l : Nat) (f : Thread → Thread) : (w.modThread l f).line = w.line := rfl
@[simp] theorem Warp.modThread_takes (w : Warp) (l : Nat) (f : Thread → Thread) : (w.modThread l f).takes = w.takes := rfl
@[simp] theorem Warp.modThread_released (w : Warp) (l : Nat) (f : Thread → Thread) : (w.modThread l f).released = w.released := rfl
@[simp] theorem Warp.modThread_barred (w : Warp) (l : Nat) (f : Thread → Thread) : (w.modThread l f).barred = w.barred := rfl

/-! ### modThreads -/

@[simp] theorem Warp.modThreads_uid (w : Warp) (m : LaneMask) (f : Nat → Thread → Thread) : (w.modThreads m f).uid = w.uid := rfl
@[simp] theorem Warp.modThreads_wid (w : Warp) (m : LaneMask) (f : Nat → Thread → Thread) : (w.modThreads m f).wid = w.wid := rfl
@[simp] theorem Warp.modThreads_slot (w : Warp) (m : LaneMask) (f : Nat → Thread → Thread) : (w.modThreads m f).slot = w.slot := rfl
@[simp] theorem Warp.modThreads_core (w : Warp) (m : LaneMask) (f : Nat → Thread → Thread) : (w.modThreads m f).core = w.core := rfl
@[simp] theorem Warp.modThreads_resident (w : Warp) (m : LaneMask) (f : Nat → Thread → Thread) : (w.modThreads m f).resident = w.resident := rfl
@[simp] theorem Warp.modThreads_threads (w : Warp) (m : LaneMask) (f : Nat → Thread → Thread) : (w.modThreads m f).threads = w.threads.mapIdx fun l t => if m.getLsbD l then f l t else t := rfl
@[simp] theorem Warp.modThreads_vregs (w : Warp) (m : LaneMask) (f : Nat → Thread → Thread) : (w.modThreads m f).vregs = w.vregs := rfl
@[simp] theorem Warp.modThreads_sregs (w : Warp) (m : LaneMask) (f : Nat → Thread → Thread) : (w.modThreads m f).sregs = w.sregs := rfl
@[simp] theorem Warp.modThreads_preds (w : Warp) (m : LaneMask) (f : Nat → Thread → Thread) : (w.modThreads m f).preds = w.preds := rfl
@[simp] theorem Warp.modThreads_outstanding (w : Warp) (m : LaneMask) (f : Nat → Thread → Thread) : (w.modThreads m f).outstanding = w.outstanding := rfl
@[simp] theorem Warp.modThreads_tokens (w : Warp) (m : LaneMask) (f : Nat → Thread → Thread) : (w.modThreads m f).tokens = w.tokens := rfl
@[simp] theorem Warp.modThreads_fflags (w : Warp) (m : LaneMask) (f : Nat → Thread → Thread) : (w.modThreads m f).fflags = w.fflags := rfl
@[simp] theorem Warp.modThreads_iseq (w : Warp) (m : LaneMask) (f : Nat → Thread → Thread) : (w.modThreads m f).iseq = w.iseq := rfl
@[simp] theorem Warp.modThreads_eseq (w : Warp) (m : LaneMask) (f : Nat → Thread → Thread) : (w.modThreads m f).eseq = w.eseq := rfl
@[simp] theorem Warp.modThreads_clock (w : Warp) (m : LaneMask) (f : Nat → Thread → Thread) : (w.modThreads m f).clock = w.clock := rfl
@[simp] theorem Warp.modThreads_relStamp (w : Warp) (m : LaneMask) (f : Nat → Thread → Thread) : (w.modThreads m f).relStamp = w.relStamp := rfl
@[simp] theorem Warp.modThreads_fences (w : Warp) (m : LaneMask) (f : Nat → Thread → Thread) : (w.modThreads m f).fences = w.fences := rfl
@[simp] theorem Warp.modThreads_seen (w : Warp) (m : LaneMask) (f : Nat → Thread → Thread) : (w.modThreads m f).seen = w.seen := rfl
@[simp] theorem Warp.modThreads_askedAt (w : Warp) (m : LaneMask) (f : Nat → Thread → Thread) : (w.modThreads m f).askedAt = w.askedAt := rfl
@[simp] theorem Warp.modThreads_atomTime (w : Warp) (m : LaneMask) (f : Nat → Thread → Thread) : (w.modThreads m f).atomTime = w.atomTime := rfl
@[simp] theorem Warp.modThreads_acqNear (w : Warp) (m : LaneMask) (f : Nat → Thread → Thread) : (w.modThreads m f).acqNear = w.acqNear := rfl
@[simp] theorem Warp.modThreads_acqWide (w : Warp) (m : LaneMask) (f : Nat → Thread → Thread) : (w.modThreads m f).acqWide = w.acqWide := rfl
@[simp] theorem Warp.modThreads_acqEpoch (w : Warp) (m : LaneMask) (f : Nat → Thread → Thread) : (w.modThreads m f).acqEpoch = w.acqEpoch := rfl
@[simp] theorem Warp.modThreads_ftag (w : Warp) (m : LaneMask) (f : Nat → Thread → Thread) : (w.modThreads m f).ftag = w.ftag := rfl
@[simp] theorem Warp.modThreads_dirty (w : Warp) (m : LaneMask) (f : Nat → Thread → Thread) : (w.modThreads m f).dirty = w.dirty := rfl
@[simp] theorem Warp.modThreads_dirtyOv (w : Warp) (m : LaneMask) (f : Nat → Thread → Thread) : (w.modThreads m f).dirtyOv = w.dirtyOv := rfl
@[simp] theorem Warp.modThreads_opc (w : Warp) (m : LaneMask) (f : Nat → Thread → Thread) : (w.modThreads m f).opc = w.opc := rfl
@[simp] theorem Warp.modThreads_openPhase (w : Warp) (m : LaneMask) (f : Nat → Thread → Thread) : (w.modThreads m f).openPhase = w.openPhase := rfl
@[simp] theorem Warp.modThreads_ring (w : Warp) (m : LaneMask) (f : Nat → Thread → Thread) : (w.modThreads m f).ring = w.ring := rfl
@[simp] theorem Warp.modThreads_held (w : Warp) (m : LaneMask) (f : Nat → Thread → Thread) : (w.modThreads m f).held = w.held := rfl
@[simp] theorem Warp.modThreads_faultStall (w : Warp) (m : LaneMask) (f : Nat → Thread → Thread) : (w.modThreads m f).faultStall = w.faultStall := rfl
@[simp] theorem Warp.modThreads_deferred (w : Warp) (m : LaneMask) (f : Nat → Thread → Thread) : (w.modThreads m f).deferred = w.deferred := rfl
@[simp] theorem Warp.modThreads_checks (w : Warp) (m : LaneMask) (f : Nat → Thread → Thread) : (w.modThreads m f).checks = w.checks := rfl
@[simp] theorem Warp.modThreads_wbs (w : Warp) (m : LaneMask) (f : Nat → Thread → Thread) : (w.modThreads m f).wbs = w.wbs := rfl
@[simp] theorem Warp.modThreads_flushed (w : Warp) (m : LaneMask) (f : Nat → Thread → Thread) : (w.modThreads m f).flushed = w.flushed := rfl
@[simp] theorem Warp.modThreads_waitId (w : Warp) (m : LaneMask) (f : Nat → Thread → Thread) : (w.modThreads m f).waitId = w.waitId := rfl
@[simp] theorem Warp.modThreads_waitLevel (w : Warp) (m : LaneMask) (f : Nat → Thread → Thread) : (w.modThreads m f).waitLevel = w.waitLevel := rfl
@[simp] theorem Warp.modThreads_atBoundary (w : Warp) (m : LaneMask) (f : Nat → Thread → Thread) : (w.modThreads m f).atBoundary = w.atBoundary := rfl
@[simp] theorem Warp.modThreads_acq (w : Warp) (m : LaneMask) (f : Nat → Thread → Thread) : (w.modThreads m f).acq = w.acq := rfl
@[simp] theorem Warp.modThreads_bundle (w : Warp) (m : LaneMask) (f : Nat → Thread → Thread) : (w.modThreads m f).bundle = w.bundle := rfl
@[simp] theorem Warp.modThreads_stall (w : Warp) (m : LaneMask) (f : Nat → Thread → Thread) : (w.modThreads m f).stall = w.stall := rfl
@[simp] theorem Warp.modThreads_doubt (w : Warp) (m : LaneMask) (f : Nat → Thread → Thread) : (w.modThreads m f).doubt = w.doubt := rfl
@[simp] theorem Warp.modThreads_ringStall (w : Warp) (m : LaneMask) (f : Nat → Thread → Thread) : (w.modThreads m f).ringStall = w.ringStall := rfl
@[simp] theorem Warp.modThreads_tokenStall (w : Warp) (m : LaneMask) (f : Nat → Thread → Thread) : (w.modThreads m f).tokenStall = w.tokenStall := rfl
@[simp] theorem Warp.modThreads_since (w : Warp) (m : LaneMask) (f : Nat → Thread → Thread) : (w.modThreads m f).since = w.since := rfl
@[simp] theorem Warp.modThreads_yielded (w : Warp) (m : LaneMask) (f : Nat → Thread → Thread) : (w.modThreads m f).yielded = w.yielded := rfl
@[simp] theorem Warp.modThreads_line (w : Warp) (m : LaneMask) (f : Nat → Thread → Thread) : (w.modThreads m f).line = w.line := rfl
@[simp] theorem Warp.modThreads_takes (w : Warp) (m : LaneMask) (f : Nat → Thread → Thread) : (w.modThreads m f).takes = w.takes := rfl
@[simp] theorem Warp.modThreads_released (w : Warp) (m : LaneMask) (f : Nat → Thread → Thread) : (w.modThreads m f).released = w.released := rfl
@[simp] theorem Warp.modThreads_barred (w : Warp) (m : LaneMask) (f : Nat → Thread → Thread) : (w.modThreads m f).barred = w.barred := rfl

/-! ### pset -/

@[simp] theorem Warp.pset_uid (w : Warp) (p : Nat) (v : LaneMask) : (w.pset p v).uid = w.uid := by
  unfold Warp.pset; split <;> rfl
@[simp] theorem Warp.pset_wid (w : Warp) (p : Nat) (v : LaneMask) : (w.pset p v).wid = w.wid := by
  unfold Warp.pset; split <;> rfl
@[simp] theorem Warp.pset_slot (w : Warp) (p : Nat) (v : LaneMask) : (w.pset p v).slot = w.slot := by
  unfold Warp.pset; split <;> rfl
@[simp] theorem Warp.pset_core (w : Warp) (p : Nat) (v : LaneMask) : (w.pset p v).core = w.core := by
  unfold Warp.pset; split <;> rfl
@[simp] theorem Warp.pset_resident (w : Warp) (p : Nat) (v : LaneMask) : (w.pset p v).resident = w.resident := by
  unfold Warp.pset; split <;> rfl
@[simp] theorem Warp.pset_threads (w : Warp) (p : Nat) (v : LaneMask) : (w.pset p v).threads = w.threads := by
  unfold Warp.pset; split <;> rfl
@[simp] theorem Warp.pset_vregs (w : Warp) (p : Nat) (v : LaneMask) : (w.pset p v).vregs = w.vregs := by
  unfold Warp.pset; split <;> rfl
@[simp] theorem Warp.pset_sregs (w : Warp) (p : Nat) (v : LaneMask) : (w.pset p v).sregs = w.sregs := by
  unfold Warp.pset; split <;> rfl
@[simp] theorem Warp.pset_outstanding (w : Warp) (p : Nat) (v : LaneMask) : (w.pset p v).outstanding = w.outstanding := by
  unfold Warp.pset; split <;> rfl
@[simp] theorem Warp.pset_tokens (w : Warp) (p : Nat) (v : LaneMask) : (w.pset p v).tokens = w.tokens := by
  unfold Warp.pset; split <;> rfl
@[simp] theorem Warp.pset_fflags (w : Warp) (p : Nat) (v : LaneMask) : (w.pset p v).fflags = w.fflags := by
  unfold Warp.pset; split <;> rfl
@[simp] theorem Warp.pset_iseq (w : Warp) (p : Nat) (v : LaneMask) : (w.pset p v).iseq = w.iseq := by
  unfold Warp.pset; split <;> rfl
@[simp] theorem Warp.pset_eseq (w : Warp) (p : Nat) (v : LaneMask) : (w.pset p v).eseq = w.eseq := by
  unfold Warp.pset; split <;> rfl
@[simp] theorem Warp.pset_clock (w : Warp) (p : Nat) (v : LaneMask) : (w.pset p v).clock = w.clock := by
  unfold Warp.pset; split <;> rfl
@[simp] theorem Warp.pset_relStamp (w : Warp) (p : Nat) (v : LaneMask) : (w.pset p v).relStamp = w.relStamp := by
  unfold Warp.pset; split <;> rfl
@[simp] theorem Warp.pset_fences (w : Warp) (p : Nat) (v : LaneMask) : (w.pset p v).fences = w.fences := by
  unfold Warp.pset; split <;> rfl
@[simp] theorem Warp.pset_seen (w : Warp) (p : Nat) (v : LaneMask) : (w.pset p v).seen = w.seen := by
  unfold Warp.pset; split <;> rfl
@[simp] theorem Warp.pset_askedAt (w : Warp) (p : Nat) (v : LaneMask) : (w.pset p v).askedAt = w.askedAt := by
  unfold Warp.pset; split <;> rfl
@[simp] theorem Warp.pset_atomTime (w : Warp) (p : Nat) (v : LaneMask) : (w.pset p v).atomTime = w.atomTime := by
  unfold Warp.pset; split <;> rfl
@[simp] theorem Warp.pset_acqNear (w : Warp) (p : Nat) (v : LaneMask) : (w.pset p v).acqNear = w.acqNear := by
  unfold Warp.pset; split <;> rfl
@[simp] theorem Warp.pset_acqWide (w : Warp) (p : Nat) (v : LaneMask) : (w.pset p v).acqWide = w.acqWide := by
  unfold Warp.pset; split <;> rfl
@[simp] theorem Warp.pset_acqEpoch (w : Warp) (p : Nat) (v : LaneMask) : (w.pset p v).acqEpoch = w.acqEpoch := by
  unfold Warp.pset; split <;> rfl
@[simp] theorem Warp.pset_ftag (w : Warp) (p : Nat) (v : LaneMask) : (w.pset p v).ftag = w.ftag := by
  unfold Warp.pset; split <;> rfl
@[simp] theorem Warp.pset_dirty (w : Warp) (p : Nat) (v : LaneMask) : (w.pset p v).dirty = w.dirty := by
  unfold Warp.pset; split <;> rfl
@[simp] theorem Warp.pset_dirtyOv (w : Warp) (p : Nat) (v : LaneMask) : (w.pset p v).dirtyOv = w.dirtyOv := by
  unfold Warp.pset; split <;> rfl
@[simp] theorem Warp.pset_opc (w : Warp) (p : Nat) (v : LaneMask) : (w.pset p v).opc = w.opc := by
  unfold Warp.pset; split <;> rfl
@[simp] theorem Warp.pset_openPhase (w : Warp) (p : Nat) (v : LaneMask) : (w.pset p v).openPhase = w.openPhase := by
  unfold Warp.pset; split <;> rfl
@[simp] theorem Warp.pset_ring (w : Warp) (p : Nat) (v : LaneMask) : (w.pset p v).ring = w.ring := by
  unfold Warp.pset; split <;> rfl
@[simp] theorem Warp.pset_held (w : Warp) (p : Nat) (v : LaneMask) : (w.pset p v).held = w.held := by
  unfold Warp.pset; split <;> rfl
@[simp] theorem Warp.pset_faultStall (w : Warp) (p : Nat) (v : LaneMask) : (w.pset p v).faultStall = w.faultStall := by
  unfold Warp.pset; split <;> rfl
@[simp] theorem Warp.pset_deferred (w : Warp) (p : Nat) (v : LaneMask) : (w.pset p v).deferred = w.deferred := by
  unfold Warp.pset; split <;> rfl
@[simp] theorem Warp.pset_checks (w : Warp) (p : Nat) (v : LaneMask) : (w.pset p v).checks = w.checks := by
  unfold Warp.pset; split <;> rfl
@[simp] theorem Warp.pset_wbs (w : Warp) (p : Nat) (v : LaneMask) : (w.pset p v).wbs = w.wbs := by
  unfold Warp.pset; split <;> rfl
@[simp] theorem Warp.pset_flushed (w : Warp) (p : Nat) (v : LaneMask) : (w.pset p v).flushed = w.flushed := by
  unfold Warp.pset; split <;> rfl
@[simp] theorem Warp.pset_waitId (w : Warp) (p : Nat) (v : LaneMask) : (w.pset p v).waitId = w.waitId := by
  unfold Warp.pset; split <;> rfl
@[simp] theorem Warp.pset_waitLevel (w : Warp) (p : Nat) (v : LaneMask) : (w.pset p v).waitLevel = w.waitLevel := by
  unfold Warp.pset; split <;> rfl
@[simp] theorem Warp.pset_atBoundary (w : Warp) (p : Nat) (v : LaneMask) : (w.pset p v).atBoundary = w.atBoundary := by
  unfold Warp.pset; split <;> rfl
@[simp] theorem Warp.pset_acq (w : Warp) (p : Nat) (v : LaneMask) : (w.pset p v).acq = w.acq := by
  unfold Warp.pset; split <;> rfl
@[simp] theorem Warp.pset_bundle (w : Warp) (p : Nat) (v : LaneMask) : (w.pset p v).bundle = w.bundle := by
  unfold Warp.pset; split <;> rfl
@[simp] theorem Warp.pset_stall (w : Warp) (p : Nat) (v : LaneMask) : (w.pset p v).stall = w.stall := by
  unfold Warp.pset; split <;> rfl
@[simp] theorem Warp.pset_doubt (w : Warp) (p : Nat) (v : LaneMask) : (w.pset p v).doubt = w.doubt := by
  unfold Warp.pset; split <;> rfl
@[simp] theorem Warp.pset_ringStall (w : Warp) (p : Nat) (v : LaneMask) : (w.pset p v).ringStall = w.ringStall := by
  unfold Warp.pset; split <;> rfl
@[simp] theorem Warp.pset_tokenStall (w : Warp) (p : Nat) (v : LaneMask) : (w.pset p v).tokenStall = w.tokenStall := by
  unfold Warp.pset; split <;> rfl
@[simp] theorem Warp.pset_since (w : Warp) (p : Nat) (v : LaneMask) : (w.pset p v).since = w.since := by
  unfold Warp.pset; split <;> rfl
@[simp] theorem Warp.pset_yielded (w : Warp) (p : Nat) (v : LaneMask) : (w.pset p v).yielded = w.yielded := by
  unfold Warp.pset; split <;> rfl
@[simp] theorem Warp.pset_line (w : Warp) (p : Nat) (v : LaneMask) : (w.pset p v).line = w.line := by
  unfold Warp.pset; split <;> rfl
@[simp] theorem Warp.pset_takes (w : Warp) (p : Nat) (v : LaneMask) : (w.pset p v).takes = w.takes := by
  unfold Warp.pset; split <;> rfl
@[simp] theorem Warp.pset_released (w : Warp) (p : Nat) (v : LaneMask) : (w.pset p v).released = w.released := by
  unfold Warp.pset; split <;> rfl
@[simp] theorem Warp.pset_barred (w : Warp) (p : Nat) (v : LaneMask) : (w.pset p v).barred = w.barred := by
  unfold Warp.pset; split <;> rfl

end Sys2Proof.Machine
end

