-- ==== Sys2Proof/Laws/Issue.lean ====
section
/-! SUPPORT. What the operations that every instruction goes through can do: the gate, `run`, `compute`, `happens`. -/

set_option Elab.async false  -- one theorem after another: waiting threads would use up the memory a check is given

namespace Sys2Proof

open Sys2Proof.Machine

/-! ### The threads that a region's beginning leaves alone -/

@[simp] theorem begun_uid (c : Ic) : c.begun.w.uid = c.w.uid := rfl
@[simp] theorem begun_wid (c : Ic) : c.begun.w.wid = c.w.wid := rfl
@[simp] theorem begun_b (c : Ic) : c.begun.b = c.b := rfl
@[simp] theorem begun_outstanding (c : Ic) : c.begun.w.outstanding = c.w.outstanding := rfl

@[simp] theorem consumed_begun (c : Ic) (i : Instr) : consumed c.begun.w i = consumed c.w i := rfl
@[simp] theorem pendingToken_begun (c : Ic) (i : Instr) : pendingToken c.begun.w i = pendingToken c.w i := rfl
@[simp] theorem checksIn_setWarp (s : State) (x : Warp) (c : Ic) :
    (s.setWarp x).checksIn c.begun.w = s.checksIn c.w := rfl
@[simp] theorem enginesOf_setWarp (s : State) (x : Warp) (u n : Nat) : (s.setWarp x).enginesOf u n = s.enginesOf u n := rfl
@[simp] theorem privileged_setWarp (s : State) (x : Warp) (n : Nat) : (s.setWarp x).privileged n = s.privileged n := rfl
@[simp] theorem accessesPending_setWarp (s : State) (x : Warp) (u n : Nat) :
    (s.setWarp x).accessesPending u n = s.accessesPending u n := rfl

@[simp] theorem ringBlocked_setWarp (s : State) (x y : Warp) : (s.setWarp x).ringBlocked y = s.ringBlocked y := rfl

/-- The gate lets an instruction through under `Issuable`. -/
theorem gate_of_issuable {i : Instr} {s : State} {c : Ic} (h : Issuable i s c) :
    gate i s = some (.go (enteredIc i s c) (enteredState i s c)) := by
  obtain ⟨hctx, hact, hacq, hchk, hpriv, hwf, ⟨hr1, hr2⟩, hhaz, htok, hcons, heng, hcnt⟩ := h
  have hb : (c.beginners != 0 && !s.checksIn c.w) = false := by
    by_cases h : c.beginners = 0
    · simp [h]
    · simp [hchk (.inl h)]
  have hp : (isPrivileged i && !(s.setWarp c.begun.w).privileged c.begun.b.ctx) = false := by
    cases h : isPrivileged i
    · rfl
    · simpa [h] using hpriv h
  have hz : (c.begun.b.hcheck && hazard c.begun i) = false := by
    cases h : c.begun.b.hcheck
    · rfl
    · simpa [h] using hhaz h
  have he : (isEngine i && decide (16 ≤ ((s.setWarp c.begun.w).enginesOf c.begun.w.uid c.begun.w.wid).length)) = false := by
    cases h : isEngine i
    · rfl
    · have := heng h
      exact decide_eq_false (Nat.not_le.mpr this)
  have ho : (owesResult i && decide (63 ≤ c.begun.w.outstanding)) = false := by
    cases h : owesResult i
    · rfl
    · have := hcnt h
      exact decide_eq_false (Nat.not_le.mpr this)
  have hx : (endsRegion i && !(s.setWarp c.begun.w).checksIn c.begun.w) = false := by
    cases h : endsRegion i
    · rfl
    · simpa [h] using hchk (.inr h)
  have hu : ((usesOf i).all (useOk c.begun.b.kernel) && (tokenOf i).all fun r => decide (r < 16 * c.begun.b.kernel.ns)) = true := by
    rw [show c.begun.b = c.b from rfl, hr1, hr2]; rfl
  have ha : c.begun.active ≠ 0 := hact
  have hc1 : (!(consumed c.begun.w i).isEmpty && (s.setWarp c.begun.w).accessesPending c.begun.w.uid c.begun.w.wid) = false := by
    rcases hcons with h | h
    · simp [h]
    · simp [begun_uid, begun_wid, h.1]
  have hc2 : (!(consumed c.begun.w i).isEmpty && (s.setWarp c.begun.w).ringBlocked c.begun.w) = false := by
    rcases hcons with h | h
    · simp [h]
    · simp [h.2]
  unfold gate
  rw [hctx]
  simp only [hacq, hb, hp, hz, he, ho, hx, hu, hwf, hc1, hc2, ha, Option.isSome_none, Bool.not_true, if_neg,
    Bool.false_eq_true, pendingToken_begun, htok, not_false_eq_true]
  rfl

/-- An instruction that passes the gate and is performed. -/
theorem run_done {i : Instr} {s : State} {c : Ic} (h : Issuable i s c) {body : Ic → State → Res} {t : State}
    {pcOf : Nat → Pc → Pc} (hb : body (enteredIc i s c) (enteredState i s c) = .done t pcOf) :
    run i s body = .next (t.retire (enteredIc i s c) i pcOf) := by
  simp only [run, gate_of_issuable h, hb]

/-- An instruction that passes the gate and is performed in sequence. -/
theorem run_next {i : Instr} {s : State} {c : Ic} (h : Issuable i s c) {body : Ic → State → Res} {t : State}
    (hb : body (enteredIc i s c) (enteredState i s c) = .next t) : run i s body = .next (inSequence i s c t) :=
  run_done h hb

/-- An instruction that only computes on registers owes its results and goes on. -/
theorem compute_next {i : Instr} {s : State} {c : Ic} (h : Issuable i s c) (fp : Bool) (f : Ic → Nat → LaneOut) :
    compute i s fp f
      = .next (inSequence i s c (owed (enteredIc i s c) (enteredState i s c) (common i).u fp (f (enteredIc i s c)))) :=
  run_next h rfl

/-! ### The three shapes of a statement about an instruction -/

theorem computes_of {i : Instr} {fp : Bool} {f : Ic → Nat → LaneOut} (he : ∀ s, exec i s = compute i s fp f) :
    Computes i fp f := fun s c h => (he s).trans (compute_next h fp f)

theorem performs_of {i : Instr} {ok : Ic → State → Bool} {eff : Ic → State → State} (body : Ic → State → Res)
    (he : ∀ s, exec i s = run i s body) (hb : ∀ c s, ok c s = true → body c s = .next (eff c s)) : Performs i ok eff :=
  fun s _ h hok => (he s).trans (run_next h (hb _ _ hok))

/-- An instruction that sets its lanes' PCs itself. -/
theorem leaves_of_done {i : Instr} {ok : Ic → State → Bool} {eff : Ic → State → State} (pcOf : Ic → State → Nat → Pc → Pc)
    (body : Ic → State → Res) (he : ∀ s, exec i s = run i s body)
    (hb : ∀ c s, ok c s = true → body c s = .done (eff c s) (pcOf c s)) :
    Leaves i ok fun c s => (eff c s).retire c i (pcOf c s) :=
  fun s _ h hok => (he s).trans (run_done h (hb _ _ hok))

/-- An instruction whose meaning gives the whole next state. -/
theorem leaves_of_raw {i : Instr} {ok : Ic → State → Bool} {eff : Ic → State → State} (body : Ic → State → Res)
    (he : ∀ s, exec i s = run i s body) (hb : ∀ c s, ok c s = true → body c s = .raw (eff c s)) :
    Leaves i ok fun c s => (eff c s).issued := by
  intro s c h hok
  rw [he s]
  simp only [run, gate_of_issuable h, hb _ _ hok]

/-! ### Every instruction with a word is issued by `run` -/

theorem exec_is_run (i : Instr) (h : form i ≠ .event) : ∃ body, ∀ s, exec i s = run i s body := by
  cases i with
  | nop f => exact ⟨_, fun s => by rw [show exec (.nop f) s = execNop f s from rfl, execNop]⟩
  | getsr f => exact ⟨_, fun s => by rw [show exec (.getsr f) s = execGetsr f s from rfl, execGetsr]⟩
  | setsr f => exact ⟨_, fun s => by rw [show exec (.setsr f) s = execSetsr f s from rfl, execSetsr]⟩
  | bra f => exact ⟨_, fun s => by rw [show exec (.bra f) s = execBra f s from rfl, execBra, transfer]⟩
  | brx f => exact ⟨_, fun s => by rw [show exec (.brx f) s = execBrx f s from rfl, execBrx, transfer]⟩
  | call f => exact ⟨_, fun s => by rw [show exec (.call f) s = execCall f s from rfl, execCall, transfer]⟩
  | calli f => exact ⟨_, fun s => by rw [show exec (.calli f) s = execCalli f s from rfl, execCalli, transfer]⟩
  | ret f => exact ⟨_, fun s => by rw [show exec (.ret f) s = execRet f s from rfl, execRet, transfer]⟩
  | exit f => exact ⟨_, fun s => by rw [show exec (.exit f) s = execExit f s from rfl, execExit]⟩
  | trap f => exact ⟨_, fun s => by rw [show exec (.trap f) s = execTrap f s from rfl, execTrap]⟩
  | brk f => exact ⟨_, fun s => by rw [show exec (.brk f) s = execBrk f s from rfl, execBrk]⟩
  | pause f => exact ⟨_, fun s => by rw [show exec (.pause f) s = execPause f s from rfl, execPause]⟩
  | yield f => exact ⟨_, fun s => by rw [show exec (.yield f) s = execYield f s from rfl, execYield]⟩
  | bar f => exact ⟨_, fun s => by rw [show exec (.bar f) s = execBar f s from rfl, execBar]⟩
  | barPhase f => exact ⟨_, fun s => by rw [show exec (.barPhase f) s = execBarPhase f s from rfl, execBarPhase]⟩
  | clbar f => exact ⟨_, fun s => by rw [show exec (.clbar f) s = execClbar f s from rfl, execClbar]⟩
  | gbar f => exact ⟨_, fun s => by rw [show exec (.gbar f) s = execGbar f s from rfl, execGbar]⟩
  | cvinit f => exact ⟨_, fun s => by rw [show exec (.cvinit f) s = execCvinit f s from rfl, execCvinit]⟩
  | launch f => exact ⟨_, fun s => by rw [show exec (.launch f) s = execLaunch f s from rfl, execLaunch]⟩
  | spawn f => exact ⟨_, fun s => by rw [show exec (.spawn f) s = execSpawn f s from rfl, execSpawn]⟩
  | merge f => exact ⟨_, fun s => by rw [show exec (.merge f) s = execMerge f s from rfl, execMerge]⟩
  | syncSpawn f => exact ⟨_, fun s => by rw [show exec (.syncSpawn f) s = execSyncSpawn f s from rfl, execSyncSpawn]⟩
  | tsub f => exact ⟨_, fun s => by rw [show exec (.tsub f) s = execTsub f s from rfl, execTsub]⟩
  | tsig f => exact ⟨_, fun s => by rw [show exec (.tsig f) s = execTsig f s from rfl, execTsig]⟩
  | sysTlbinv f => exact ⟨_, fun s => by rw [show exec (.sysTlbinv f) s = execSysTlbinv f s from rfl, execSysTlbinv]⟩
  | sysFwake f => exact ⟨_, fun s => by rw [show exec (.sysFwake f) s = execSysFwake f s from rfl, execSysFwake]⟩
  | sysFkill f => exact ⟨_, fun s => by rw [show exec (.sysFkill f) s = execSysFkill f s from rfl, execSysFkill]⟩
  | sysEvict f => exact ⟨_, fun s => by rw [show exec (.sysEvict f) s = execSysEvict f s from rfl, execSysEvict]⟩
  | sysResume f => exact ⟨_, fun s => by rw [show exec (.sysResume f) s = execSysResume f s from rfl, execSysResume]⟩
  | sysMcount f => exact ⟨_, fun s => by rw [show exec (.sysMcount f) s = execSysMcount f s from rfl, execSysMcount]⟩
  | voteAgree f => exact ⟨_, fun s => by rw [show exec (.voteAgree f) s = execVoteAgree f s from rfl, execVoteAgree]⟩
  | barCnt f => exact ⟨_, fun s => by rw [show exec (.barCnt f) s = execBarCnt f s from rfl, execBarCnt]⟩
  | sysFlush f => exact ⟨_, fun s => by rw [show exec (.sysFlush f) s = execSysFlush f s from rfl, execSysFlush]⟩
  | sysHalt f => exact ⟨_, fun s => by rw [show exec (.sysHalt f) s = execSysHalt f s from rfl, execSysHalt]⟩
  | add f => exact ⟨_, fun s => by rw [show exec (.add f) s = execAdd f s from rfl, execAdd, intInstr, compute]⟩
  | sub f => exact ⟨_, fun s => by rw [show exec (.sub f) s = execSub f s from rfl, execSub, intInstr, compute]⟩
  | mul f => exact ⟨_, fun s => by rw [show exec (.mul f) s = execMul f s from rfl, execMul, intInstr, compute]⟩
  | mulhi f => exact ⟨_, fun s => by rw [show exec (.mulhi f) s = execMulhi f s from rfl, execMulhi, intInstr, compute]⟩
  | mad f => exact ⟨_, fun s => by rw [show exec (.mad f) s = execMad f s from rfl, execMad, intInstr, compute]⟩
  | min f => exact ⟨_, fun s => by rw [show exec (.min f) s = execMin f s from rfl, execMin, intInstr, compute]⟩
  | max f => exact ⟨_, fun s => by rw [show exec (.max f) s = execMax f s from rfl, execMax, intInstr, compute]⟩
  | abs f => exact ⟨_, fun s => by rw [show exec (.abs f) s = execAbs f s from rfl, execAbs, intInstr, compute]⟩
  | neg f => exact ⟨_, fun s => by rw [show exec (.neg f) s = execNeg f s from rfl, execNeg, intInstr, compute]⟩
  | addc f => exact ⟨_, fun s => by rw [show exec (.addc f) s = execAddc f s from rfl, execAddc, compute]⟩
  | lea f => exact ⟨_, fun s => by rw [show exec (.lea f) s = execLea f s from rfl, execLea, compute]⟩
  | mov f => exact ⟨_, fun s => by rw [show exec (.mov f) s = execMov f s from rfl, execMov, compute]⟩
  | movi f => exact ⟨_, fun s => by rw [show exec (.movi f) s = execMovi f s from rfl, execMovi, compute]⟩
  | sel f => exact ⟨_, fun s => by rw [show exec (.sel f) s = execSel f s from rfl, execSel, compute]⟩
  | andB f => exact ⟨_, fun s => by rw [show exec (.andB f) s = execAndB f s from rfl, execAndB, bitInstr, compute]⟩
  | orB f => exact ⟨_, fun s => by rw [show exec (.orB f) s = execOrB f s from rfl, execOrB, bitInstr, compute]⟩
  | xorB f => exact ⟨_, fun s => by rw [show exec (.xorB f) s = execXorB f s from rfl, execXorB, bitInstr, compute]⟩
  | notB f => exact ⟨_, fun s => by rw [show exec (.notB f) s = execNotB f s from rfl, execNotB, bitInstr, compute]⟩
  | shl f => exact ⟨_, fun s => by rw [show exec (.shl f) s = execShl f s from rfl, execShl, shiftInstr, compute]⟩
  | shr f => exact ⟨_, fun s => by rw [show exec (.shr f) s = execShr f s from rfl, execShr, shiftInstr, compute]⟩
  | sar f => exact ⟨_, fun s => by rw [show exec (.sar f) s = execSar f s from rfl, execSar, shiftInstr, compute]⟩
  | rot f => exact ⟨_, fun s => by rw [show exec (.rot f) s = execRot f s from rfl, execRot, shiftInstr, compute]⟩
  | clz f => exact ⟨_, fun s => by rw [show exec (.clz f) s = execClz f s from rfl, execClz, compute]⟩
  | popc f => exact ⟨_, fun s => by rw [show exec (.popc f) s = execPopc f s from rfl, execPopc, compute]⟩
  | brev f => exact ⟨_, fun s => by rw [show exec (.brev f) s = execBrev f s from rfl, execBrev, bitInstr, compute]⟩
  | bfe f => exact ⟨_, fun s => by rw [show exec (.bfe f) s = execBfe f s from rfl, execBfe, compute]⟩
  | bfi f => exact ⟨_, fun s => by rw [show exec (.bfi f) s = execBfi f s from rfl, execBfi, compute]⟩
  | cmp f => exact ⟨_, fun s => by rw [show exec (.cmp f) s = execCmp f s from rfl, execCmp, compute]⟩
  | fcmp f => exact ⟨_, fun s => by rw [show exec (.fcmp f) s = execFcmp f s from rfl, execFcmp, compute]⟩
  | pand f => exact ⟨_, fun s => by rw [show exec (.pand f) s = execPand f s from rfl, execPand, predInstr, compute]⟩
  | por f => exact ⟨_, fun s => by rw [show exec (.por f) s = execPor f s from rfl, execPor, predInstr, compute]⟩
  | pxor f => exact ⟨_, fun s => by rw [show exec (.pxor f) s = execPxor f s from rfl, execPxor, predInstr, compute]⟩
  | pnot f => exact ⟨_, fun s => by rw [show exec (.pnot f) s = execPnot f s from rfl, execPnot, predInstr, compute]⟩
  | pmov f => exact ⟨_, fun s => by rw [show exec (.pmov f) s = execPmov f s from rfl, execPmov, predInstr, compute]⟩
  | pmovPack f => exact ⟨_, fun s => by rw [show exec (.pmovPack f) s = execPmovPack f s from rfl, execPmovPack, compute]⟩
  | pmovUnpack f => exact ⟨_, fun s => by rw [show exec (.pmovUnpack f) s = execPmovUnpack f s from rfl, execPmovUnpack, compute]⟩
  | shfl f => exact ⟨_, fun s => by rw [show exec (.shfl f) s = execShfl f s from rfl, execShfl]⟩
  | vote f => exact ⟨_, fun s => by rw [show exec (.vote f) s = execVote f s from rfl, execVote, compute]⟩
  | redux f => exact ⟨_, fun s => by rw [show exec (.redux f) s = execRedux f s from rfl, execRedux, compute]⟩
  | matchL f => exact ⟨_, fun s => by rw [show exec (.matchL f) s = execMatchL f s from rfl, execMatchL, compute]⟩
  | prefixL f => exact ⟨_, fun s => by rw [show exec (.prefixL f) s = execPrefixL f s from rfl, execPrefixL, compute]⟩
  | fadd f => exact ⟨_, fun s => by rw [show exec (.fadd f) s = execFadd f s from rfl, execFadd, fpInstr, compute]⟩
  | fsub f => exact ⟨_, fun s => by rw [show exec (.fsub f) s = execFsub f s from rfl, execFsub, fpInstr, compute]⟩
  | fmul f => exact ⟨_, fun s => by rw [show exec (.fmul f) s = execFmul f s from rfl, execFmul, fpInstr, compute]⟩
  | ffma f => exact ⟨_, fun s => by rw [show exec (.ffma f) s = execFfma f s from rfl, execFfma, fpInstr, compute]⟩
  | fmin f => exact ⟨_, fun s => by rw [show exec (.fmin f) s = execFmin f s from rfl, execFmin, fpInstr, compute]⟩
  | fmax f => exact ⟨_, fun s => by rw [show exec (.fmax f) s = execFmax f s from rfl, execFmax, fpInstr, compute]⟩
  | fabs f => exact ⟨_, fun s => by rw [show exec (.fabs f) s = execFabs f s from rfl, execFabs, fpInstr, compute]⟩
  | fneg f => exact ⟨_, fun s => by rw [show exec (.fneg f) s = execFneg f s from rfl, execFneg, fpInstr, compute]⟩
  | fclass f => exact ⟨_, fun s => by rw [show exec (.fclass f) s = execFclass f s from rfl, execFclass, compute]⟩
  | frnd f => exact ⟨_, fun s => by rw [show exec (.frnd f) s = execFrnd f s from rfl, execFrnd, fpInstr, compute]⟩
  | frcp f => exact ⟨_, fun s => by rw [show exec (.frcp f) s = execFrcp f s from rfl, execFrcp, fpInstr, compute]⟩
  | fsqrt f => exact ⟨_, fun s => by rw [show exec (.fsqrt f) s = execFsqrt f s from rfl, execFsqrt, fpInstr, compute]⟩
  | frsq f => exact ⟨_, fun s => by rw [show exec (.frsq f) s = execFrsq f s from rfl, execFrsq, fpInstr, compute]⟩
  | fexp2 f => exact ⟨_, fun s => by rw [show exec (.fexp2 f) s = execFexp2 f s from rfl, execFexp2, fpInstr, compute]⟩
  | flog2 f => exact ⟨_, fun s => by rw [show exec (.flog2 f) s = execFlog2 f s from rfl, execFlog2, fpInstr, compute]⟩
  | cvt f => exact ⟨_, fun s => by rw [show exec (.cvt f) s = execCvt f s from rfl, execCvt, compute]⟩
  | pack f => exact ⟨_, fun s => by rw [show exec (.pack f) s = execPack f s from rfl, execPack, compute]⟩
  | unpack f => exact ⟨_, fun s => by rw [show exec (.unpack f) s = execUnpack f s from rfl, execUnpack, compute]⟩
  | rnfwd f => exact ⟨_, fun s => by rw [show exec (.rnfwd f) s = execRnfwd f s from rfl, execRnfwd, rnInstr, compute]⟩
  | rnadd f => exact ⟨_, fun s => by rw [show exec (.rnadd f) s = execRnadd f s from rfl, execRnadd, rnInstr, compute]⟩
  | rnsub f => exact ⟨_, fun s => by rw [show exec (.rnsub f) s = execRnsub f s from rfl, execRnsub, rnInstr, compute]⟩
  | rnmul f => exact ⟨_, fun s => by rw [show exec (.rnmul f) s = execRnmul f s from rfl, execRnmul, rnInstr, compute]⟩
  | rnrev f => exact ⟨_, fun s => by rw [show exec (.rnrev f) s = execRnrev f s from rfl, execRnrev, rnInstr, compute]⟩
  | ld f => exact ⟨_, fun s => by rw [show exec (.ld f) s = execLd f s from rfl, execLd]⟩
  | st f => exact ⟨_, fun s => by rw [show exec (.st f) s = execSt f s from rfl, execSt]⟩
  | ldc f => exact ⟨_, fun s => by rw [show exec (.ldc f) s = execLdc f s from rfl, execLdc]⟩
  | prf f => exact ⟨_, fun s => by rw [show exec (.prf f) s = execPrf f s from rfl, execPrf]⟩
  | lda f => exact ⟨_, fun s => by rw [show exec (.lda f) s = execLda f s from rfl, execLda, paired]⟩
  | stl f => exact ⟨_, fun s => by rw [show exec (.stl f) s = execStl f s from rfl, execStl, paired]⟩
  | xar f => exact ⟨_, fun s => by rw [show exec (.xar f) s = execXar f s from rfl, execXar, paired]⟩
  | car f => exact ⟨_, fun s => by rw [show exec (.car f) s = execCar f s from rfl, execCar, paired]⟩
  | atc f => exact ⟨_, fun s => by rw [show exec (.atc f) s = execAtc f s from rfl, execAtc, relaxed]⟩
  | redc f => exact ⟨_, fun s => by rw [show exec (.redc f) s = execRedc f s from rfl, execRedc, relaxed]⟩
  | ata f => exact ⟨_, fun s => by rw [show exec (.ata f) s = execAta f s from rfl, execAta, relaxed]⟩
  | reda f => exact ⟨_, fun s => by rw [show exec (.reda f) s = execReda f s from rfl, execReda, relaxed]⟩
  | ldf f => exact ⟨_, fun s => by rw [show exec (.ldf f) s = execLdf f s from rfl, execLdf, relaxed]⟩
  | stf f => exact ⟨_, fun s => by rw [show exec (.stf f) s = execStf f s from rfl, execStf, relaxed]⟩
  | atx f => exact ⟨_, fun s => by rw [show exec (.atx f) s = execAtx f s from rfl, execAtx, relaxed]⟩
  | cas f => exact ⟨_, fun s => by rw [show exec (.cas f) s = execCas f s from rfl, execCas, relaxed]⟩
  | fence f => exact ⟨_, fun s => by rw [show exec (.fence f) s = execFence f s from rfl, execFence]⟩
  | ldfe f => exact ⟨_, fun s => by rw [show exec (.ldfe f) s = execLdfe f s from rfl, execLdfe]⟩
  | stfe f => exact ⟨_, fun s => by rw [show exec (.stfe f) s = execStfe f s from rfl, execStfe]⟩
  | give f => exact ⟨_, fun s => by rw [show exec (.give f) s = execGive f s from rfl, execGive]⟩
  | take f => exact ⟨_, fun s => by rw [show exec (.take f) s = execTake f s from rfl, execTake]⟩
  | wmap f => exact ⟨_, fun s => by rw [show exec (.wmap f) s = execWmap f s from rfl, execWmap]⟩
  | wfill f => exact ⟨_, fun s => by rw [show exec (.wfill f) s = execWfill f s from rfl, execWfill]⟩
  | acopy f => exact ⟨_, fun s => by rw [show exec (.acopy f) s = execAcopy f s from rfl, execAcopy]⟩
  | acopyWsl f => exact ⟨_, fun s => by rw [show exec (.acopyWsl f) s = execAcopyWsl f s from rfl, execAcopyWsl]⟩
  | acopySb f => exact ⟨_, fun s => by rw [show exec (.acopySb f) s = execAcopySb f s from rfl, execAcopySb]⟩
  | acopyT f => exact ⟨_, fun s => by rw [show exec (.acopyT f) s = execAcopyT f s from rfl, execAcopyT]⟩
  | tld f => exact ⟨_, fun s => by rw [show exec (.tld f) s = execTld f s from rfl, execTld]⟩
  | tst f => exact ⟨_, fun s => by rw [show exec (.tst f) s = execTst f s from rfl, execTst]⟩
  | gpool f => exact ⟨_, fun s => by rw [show exec (.gpool f) s = execGpool f s from rfl, execGpool]⟩
  | coll f => exact ⟨_, fun s => by rw [show exec (.coll f) s = execColl f s from rfl, execColl]⟩
  | send f => exact ⟨_, fun s => by rw [show exec (.send f) s = execSend f s from rfl, execSend]⟩
  | rwait f => exact ⟨_, fun s => by rw [show exec (.rwait f) s = execRwait f s from rfl, execRwait]⟩
  | rwaitOpen f => exact ⟨_, fun s => by rw [show exec (.rwaitOpen f) s = execRwaitOpen f s from rfl, execRwaitOpen]⟩
  | rwaitClose f => exact ⟨_, fun s => by rw [show exec (.rwaitClose f) s = execRwaitClose f s from rfl, execRwaitClose]⟩
  | mma f => exact ⟨_, fun s => by rw [show exec (.mma f) s = execMma f s from rfl, execMma]⟩
  | mconv f => exact ⟨_, fun s => by rw [show exec (.mconv f) s = execMconv f s from rfl, execMconv]⟩
  | tzero f => exact ⟨_, fun s => by rw [show exec (.tzero f) s = execTzero f s from rfl, execTzero, tileInstr]⟩
  | azero f => exact ⟨_, fun s => by rw [show exec (.azero f) s = execAzero f s from rfl, execAzero, tileInstr]⟩
  | amov f => exact ⟨_, fun s => by rw [show exec (.amov f) s = execAmov f s from rfl, execAmov, tileInstr]⟩
  | ald f => exact ⟨_, fun s => by rw [show exec (.ald f) s = execAld f s from rfl, execAld, tileInstr]⟩
  | ast f => exact ⟨_, fun s => by rw [show exec (.ast f) s = execAst f s from rfl, execAst, tileInstr]⟩
  | tmov f => exact ⟨_, fun s => by rw [show exec (.tmov f) s = execTmov f s from rfl, execTmov, tileInstr]⟩
  | tmovW f => exact ⟨_, fun s => by rw [show exec (.tmovW f) s = execTmovW f s from rfl, execTmovW, tileInstr]⟩
  | tmovR f => exact ⟨_, fun s => by rw [show exec (.tmovR f) s = execTmovR f s from rfl, execTmovR, tileInstr]⟩
  | hqnt f => exact ⟨_, fun s => by rw [show exec (.hqnt f) s = execHqnt f s from rfl, execHqnt, tileInstr]⟩
  | aconv f => exact ⟨_, fun s => by rw [show exec (.aconv f) s = execAconv f s from rfl, execAconv, tileInstr]⟩
  | aconvF32 f => exact ⟨_, fun s => by rw [show exec (.aconvF32 f) s = execAconvF32 f s from rfl, execAconvF32, tileInstr]⟩
  | hdeq f => exact ⟨_, fun s => by rw [show exec (.hdeq f) s = execHdeq f s from rfl, execHdeq, tileInstr]⟩
  | wsinfo f => exact ⟨_, fun s => by rw [show exec (.wsinfo f) s = execWsinfo f s from rfl, execWsinfo]⟩
  | wswait f => exact ⟨_, fun s => by rw [show exec (.wswait f) s = execWswait f s from rfl, execWswait]⟩
  | slen f => exact ⟨_, fun s => by rw [show exec (.slen f) s = execSlen f s from rfl, execSlen]⟩
  | sseed f => exact ⟨_, fun s => by rw [show exec (.sseed f) s = execSseed f s from rfl, execSseed]⟩
  | sgen f => exact ⟨_, fun s => by rw [show exec (.sgen f) s = execSgen f s from rfl, execSgen, streamInstr]⟩
  | sand f => exact ⟨_, fun s => by rw [show exec (.sand f) s = execSand f s from rfl, execSand, streamBin, streamInstr]⟩
  | sor f => exact ⟨_, fun s => by rw [show exec (.sor f) s = execSor f s from rfl, execSor, streamBin, streamInstr]⟩
  | sxor f => exact ⟨_, fun s => by rw [show exec (.sxor f) s = execSxor f s from rfl, execSxor, streamBin, streamInstr]⟩
  | sxnor f => exact ⟨_, fun s => by rw [show exec (.sxnor f) s = execSxnor f s from rfl, execSxnor, streamBin, streamInstr]⟩
  | snot f => exact ⟨_, fun s => by rw [show exec (.snot f) s = execSnot f s from rfl, execSnot, streamInstr]⟩
  | smux f => exact ⟨_, fun s => by rw [show exec (.smux f) s = execSmux f s from rfl, execSmux, streamInstr]⟩
  | scnt f => exact ⟨_, fun s => by rw [show exec (.scnt f) s = execScnt f s from rfl, execScnt, streamInstr]⟩
  | sregen f => exact ⟨_, fun s => by rw [show exec (.sregen f) s = execSregen f s from rfl, execSregen, streamInstr]⟩
  | sshift f => exact ⟨_, fun s => by rw [show exec (.sshift f) s = execSshift f s from rfl, execSshift, streamInstr]⟩
  | smov f => exact ⟨_, fun s => by rw [show exec (.smov f) s = execSmov f s from rfl, execSmov, streamInstr]⟩
  | sclass f => exact ⟨_, fun s => by rw [show exec (.sclass f) s = execSclass f s from rfl, execSclass, streamInstr]⟩
  | _ => exact absurd rfl h

/-! ### Releases and acquires -/

theorem warp?_ids {s : State} {u n : Nat} {w : Warp} (h : s.warp? u n = some w) : w.uid = u ∧ w.wid = n := by
  have := List.find?_some h
  simpa using this

theorem releaseReady_iff {s : State} {c : Ic} {scope : Scope} : releaseReady s c scope = true ↔
    (∃ w, s.warp? c.w.uid c.w.wid = some w ∧ s.ringBlocked w = false) ∧ s.accessesPending c.w.uid c.w.wid = false
      ∧ (Scope.wide scope = true → ((released s c scope).warpsOf c.w.uid).all (fun x => x.wbs.isEmpty) = true) := by
  unfold releaseReady
  cases s.warp? c.w.uid c.w.wid <;> cases Scope.wide scope <;> simp [and_assoc]

/-- What `withWritten` waits for is in: it goes on with the write-backs out. -/
theorem withWritten_ready {s : State} {c : Ic} {scope : Scope} (h : releaseReady s c scope = true) (k : State → Res) :
    withWritten s c scope k = k (released s c scope) := by
  obtain ⟨⟨w, hw, hr⟩, ha, hk⟩ := releaseReady_iff.mp h
  obtain ⟨hu, hn⟩ := warp?_ids hw
  unfold withWritten
  have e : released s c scope = if !Scope.wide scope || w.flushed then s
      else (s.flushWarp w).modWarp w.uid w.wid fun w => { w with flushed := true } := by
    unfold released; rw [hw]
  simp only [hw, hr, hu, hn, ha, Bool.false_eq_true, if_false]
  cases hs : Scope.wide scope
  · simp [e, hs]
  · have hk := hk hs
    rw [e] at hk ⊢
    simp only [hs, Bool.not_true, Bool.false_or, hu, hn] at hk ⊢
    rw [if_neg (by simp)]
    rw [if_neg]
    simpa using hk

/-- A release that need not wait goes on after it. -/
theorem withRelease_ready {s : State} {c : Ic} {scope : Scope} (h : releaseReady s c scope = true) (k : State → Res) :
    withRelease s c scope k = k (afterRelease s c scope) := withWritten_ready h _

theorem withRing_ready {s : State} {c : Ic} (h : ringReady s c = true) (k : Unit → Res) : withRing s c k = k () := by
  unfold ringReady at h
  unfold withRing
  simp only [Bool.and_eq_true, Bool.not_eq_true'] at h
  simp [h.1, h.2]

/-- A release and an acquire that need not wait go on after both. -/
theorem withBoth_ready {s : State} {c : Ic} {scope : Scope} (h : releaseReady s c scope = true) (k : State → Res) :
    withBoth s c scope k = k ((afterRelease s c scope).acquire c.w.uid c.w.wid scope 0) :=
  withRelease_ready h _

end Sys2Proof
end

