-- ==== Sys2Proof/Laws/Translate.lean ====
section
/-! SUPPORT. Everything a translation can do to the state: it changes what the units hold and advances the counter of free values. -/

set_option Elab.async false  -- one theorem after another: waiting threads would use up the memory a check is given

namespace Sys2Proof

open Sys2Proof.Machine

/-- Two states differ at most in what the translation units hold and in the counter of free values. -/
def LookedUp (s t : State) : Prop := ∃ l n, t = { s with tlb := l, freeCtr := n }

theorem LookedUp.refl (s : State) : LookedUp s s := ⟨_, _, rfl⟩

theorem LookedUp.trans {a b c : State} (h : LookedUp a b) (k : LookedUp b c) : LookedUp a c := by
  obtain ⟨l, n, rfl⟩ := h
  obtain ⟨m, p, rfl⟩ := k
  exact ⟨m, p, rfl⟩

theorem LookedUp.foldl {α : Type} (f : State → α → State) (hf : ∀ s x, LookedUp s (f s x)) (l : List α) (s : State) :
    LookedUp s (l.foldl f s) := by
  induction l generalizing s with
  | nil => exact LookedUp.refl s
  | cons a t ih => exact (hf s a).trans (ih _)

theorem LookedUp.draw (s : State) (a b : Nat) : LookedUp s (s.draw a b).2 := ⟨_, _, rfl⟩

theorem LookedUp.tlbPut (s : State) (e : TlbEntry) : LookedUp s (s.tlbPut e) := by
  unfold State.tlbPut
  dsimp only
  split
  · exact LookedUp.refl s
  split
  · exact ⟨_, _, rfl⟩
  · exact ⟨_, _, rfl⟩

theorem LookedUp.tlbFill (s : State) (u : List TlbUnit) (k va l : Nat) (p : BitVec 64) : LookedUp s (s.tlbFill u k va l p) := by
  unfold State.tlbFill
  refine LookedUp.foldl _ (fun s u => ?_) _ _
  split
  · exact LookedUp.refl s
  · exact LookedUp.tlbPut _ _

theorem LookedUp.walkFill (s : State) (u : List TlbUnit) (k va l : Nat) (p : BitVec 64) : LookedUp s (s.walkFill u k va l p) := by
  unfold State.walkFill
  exact LookedUp.trans (LookedUp.foldl _ (fun s x => LookedUp.tlbFill _ _ _ _ _ _) _ _) (LookedUp.tlbFill _ _ _ _ _ _)

theorem LookedUp.pickPte (s : State) (u : List TlbUnit) (k va : Nat) : LookedUp s (s.pickPte u k va).2 := by
  have h (old : List (Except XFault (BitVec 64 × Nat))) :
      LookedUp s (if old.isEmpty then (0, s) else s.draw 1 (old.length + 1)).2 := by
    split
    · exact LookedUp.refl s
    · exact LookedUp.draw _ _ _
  unfold State.pickPte
  dsimp only
  have h := h (List.filter (fun x => !sameWalk x (s.walk k va)) (List.map (s.throughEntry va) (s.tlbHits u k va)))
  revert h
  generalize (if (List.filter (fun x => !sameWalk x (s.walk k va)) (List.map (s.throughEntry va) (s.tlbHits u k va))).isEmpty = true
    then (0, s) else _) = x
  intro h
  split
  · split
    · split
      · exact h.trans (LookedUp.tlbFill _ _ _ _ _ _)
      · exact h.trans (LookedUp.walkFill _ _ _ _ _ _)
    · exact h
  · split
    · exact h.trans (LookedUp.tlbFill _ _ _ _ _ _)
    · exact h

theorem LookedUp.xlatIn (s : State) (u : List TlbUnit) (k va : Nat) (n : Need) : LookedUp s (s.xlatIn u k va n).2 := by
  have h := LookedUp.pickPte s u k va
  unfold State.xlatIn
  split
  · next e => rw [e] at h; exact h
  · next e =>
    rw [e] at h
    dsimp only
    repeat' split
    all_goals exact h

/-- All that a translation can do. -/
theorem LookedUp.xlat (s : State) (u : List TlbUnit) (k va : Nat) (n : Need) : LookedUp s (s.xlat u k va n).2 := by
  unfold State.xlat
  split
  · exact LookedUp.xlatIn _ _ _ _ _
  · exact LookedUp.refl s

theorem LookedUp.of_xlat {s t : State} {u : List TlbUnit} {k va : Nat} {n : Need} {r : Except XFault Xlat}
    (e : s.xlat u k va n = (r, t)) : LookedUp s t := by
  have h := LookedUp.xlat s u k va n
  rw [e] at h
  exact h

end Sys2Proof
end

