-- ==== Sys2Proof/Laws/Frames.lean ====
section
/-! SUPPORT. What the shared operations leave alone: `SameData` through the changes of warps, caches, intervals, releases
and acquires, and what the end of an issue leaves. -/

set_option Elab.async false  -- one theorem after another: waiting threads would use up the memory a check is given

namespace Sys2Proof

open Sys2Proof.Machine

/-! ### Looking a warp up after a change -/

theorem find?_replaceIf {α : Type} (q : α → Bool) (p : α → Bool) (f : α → α) (h : ∀ x, q (f x) = q x) (l : List α) :
    (replaceIf p f l).find? q = (l.find? q).map fun x => if p x then f x else x := by
  induction l with
  | nil => rfl
  | cons a t ih =>
    have e : q (if p a then f a else a) = q a := by split <;> simp [h]
    simp only [replaceIf, List.map_cons, List.find?_cons, e] at ih ⊢
    cases q a <;> simp [ih]

theorem warp?_modWarp {s : State} {u n : Nat} {f : Warp → Warp} (h : ∀ w, (f w).uid = w.uid ∧ (f w).wid = w.wid)
    (u' n' : Nat) : (s.modWarp u n f).warp? u' n' =
      (s.warp? u' n').map fun w => if w.uid == u && w.wid == n then f w else w :=
  find?_replaceIf _ _ _ (fun w => by rw [(h w).1, (h w).2]) _

theorem warp?_setWarp (s : State) (x : Warp) (u n : Nat) :
    (s.setWarp x).warp? u n = (s.warp? u n).map fun w => if w.uid == x.uid && w.wid == x.wid then x else w := by
  unfold State.warp? State.setWarp
  dsimp only
  induction s.warps with
  | nil => rfl
  | cons a t ih =>
    simp only [replaceIf, List.map_cons, List.find?_cons] at ih ⊢
    cases hp : (a.uid == x.uid && a.wid == x.wid)
    · simp only [Bool.false_eq_true, if_false]
      cases hq : (a.uid == u && a.wid == n)
      · exact ih
      · simp only [Option.map_some, hp, Bool.false_eq_true, if_false]
    · simp only [Bool.and_eq_true, beq_iff_eq] at hp
      simp only [if_true, ← hp.1, ← hp.2]
      cases hq : (a.uid == u && a.wid == n)
      · simpa [hp.1, hp.2] using ih
      · simp [hp.1, hp.2]

theorem warp?_unstall (s : State) (u n : Nat) :
    s.unstall.warp? u n = (s.warp? u n).map fun w => { w with stall := false, doubt := w.stall || w.doubt } := by
  unfold State.warp? State.unstall
  dsimp only
  induction s.warps with
  | nil => rfl
  | cons a t ih =>
    simp only [List.map_cons, List.find?_cons]
    cases (a.uid == u && a.wid == n) <;> simp [ih]

theorem warp?_issued (s : State) (u n : Nat) :
    s.issued.warp? u n = (s.warp? u n).map fun w => { w with stall := false, doubt := w.stall || w.doubt } := warp?_unstall s u n

/-! ### `SameData` -/

/-- The registers of two warps agree, but that flags may have been raised. -/
def SameRegs (flags : Bool) (w w' : Warp) : Prop :=
  w'.vregs = w.vregs ∧ w'.sregs = w.sregs ∧ w'.preds = w.preds ∧
    (if flags then ∃ m, w'.fflags = w.fflags ||| m else w'.fflags = w.fflags)

theorem SameRegs.refl (fl : Bool) (w : Warp) : SameRegs fl w w := by
  refine ⟨rfl, rfl, rfl, ?_⟩
  cases fl
  · rfl
  · exact ⟨0, by simp⟩

theorem SameRegs.trans {fl : Bool} {a b c : Warp} (h : SameRegs fl a b) (k : SameRegs fl b c) : SameRegs fl a c := by
  obtain ⟨h1, h2, h3, h4⟩ := h
  obtain ⟨k1, k2, k3, k4⟩ := k
  refine ⟨k1.trans h1, k2.trans h2, k3.trans h3, ?_⟩
  cases fl
  · exact k4.trans h4
  · obtain ⟨m, h4⟩ := h4
    obtain ⟨n, k4⟩ := k4
    exact ⟨m ||| n, by rw [k4, h4, BitVec.or_assoc]⟩

theorem SameData.refl (fl : Bool) (s : State) : SameData fl s s :=
  ⟨⟨rfl, rfl, rfl, rfl, rfl, rfl, rfl, rfl⟩, fun _ _ w h => ⟨w, h, SameRegs.refl fl w⟩⟩

theorem SameData.trans {fl : Bool} {a b c : State} (h : SameData fl a b) (k : SameData fl b c) : SameData fl a c := by
  obtain ⟨⟨h1, h2, h3, h4, h5, h7, h8, h9⟩, h6⟩ := h
  obtain ⟨⟨k1, k2, k3, k4, k5, k7, k8, k9⟩, k6⟩ := k
  refine ⟨⟨k1.trans h1, k2.trans h2, k3.trans h3, k4.trans h4, k5.trans h5, k7.trans h7, k8.trans h8, k9.trans h9⟩,
    fun u n w hw => ?_⟩
  obtain ⟨x, hx, hr⟩ := h6 u n w hw
  obtain ⟨y, hy, kr⟩ := k6 u n x hx
  exact ⟨y, hy, SameRegs.trans hr kr⟩

theorem SameData.trans' {fl : Bool} {a b c : State} (k : SameData fl b c) (h : SameData fl a b) : SameData fl a c := h.trans k

/-- A change of anything but memory, wells, blocks, grids, tasks, contexts and warps. -/
theorem SameData.of_eq {fl : Bool} {s t : State} (h1 : t.mem = s.mem := by rfl) (h2 : t.wells = s.wells := by rfl)
    (h3 : t.wellFull = s.wellFull := by rfl) (h4 : t.wellPoison = s.wellPoison := by rfl)
    (h5 : t.blocks = s.blocks := by rfl) (h6 : t.warps = s.warps := by rfl) (h7 : t.grids = s.grids := by rfl)
    (h8 : t.tasks = s.tasks := by rfl) (h9 : t.ctxs = s.ctxs := by rfl) : SameData fl s t :=
  ⟨⟨h1, h2, h3, h4, h5, h7, h8, h9⟩, fun u n w hw => ⟨w, by unfold State.warp? at *; rw [h6]; exact hw, SameRegs.refl fl w⟩⟩

/-- A change of warps that keeps their names and registers. -/
theorem SameData.modWarp {fl : Bool} (s : State) (u n : Nat) (f : Warp → Warp)
    (h : ∀ w, (f w).uid = w.uid ∧ (f w).wid = w.wid) (hr : ∀ w, SameRegs fl w (f w)) : SameData fl s (s.modWarp u n f) := by
  refine ⟨⟨rfl, rfl, rfl, rfl, rfl, rfl, rfl, rfl⟩, fun u' n' w hw => ?_⟩
  refine ⟨if w.uid == u && w.wid == n then f w else w, by rw [warp?_modWarp h, hw]; rfl, ?_⟩
  show SameRegs fl w _
  split
  · exact hr w
  · exact SameRegs.refl fl w

/-- The same where the change is of bookkeeping only. -/
theorem SameData.touch {fl : Bool} (s : State) (u n : Nat) (f : Warp → Warp)
    (h : ∀ w, (f w).uid = w.uid ∧ (f w).wid = w.wid ∧ (f w).vregs = w.vregs ∧ (f w).sregs = w.sregs ∧ (f w).preds = w.preds ∧
      (f w).fflags = w.fflags) : SameData fl s (s.modWarp u n f) :=
  SameData.modWarp s u n f (fun w => ⟨(h w).1, (h w).2.1⟩) fun w => by
    obtain ⟨-, -, a, b, c, d⟩ := h w
    refine ⟨a, b, c, ?_⟩
    cases fl
    · exact d
    · exact ⟨0, by simpa using d⟩

/-- Putting back a warp with the registers that the state's own warp has. -/
theorem SameData.setWarp {fl : Bool} {s : State} (x : Warp)
    (h : ∀ w, s.warp? x.uid x.wid = some w → SameRegs fl w x) : SameData fl s (s.setWarp x) := by
  refine ⟨⟨rfl, rfl, rfl, rfl, rfl, rfl, rfl, rfl⟩, fun u n w hw => ?_⟩
  refine ⟨if w.uid == x.uid && w.wid == x.wid then x else w, by rw [warp?_setWarp, hw]; rfl, ?_⟩
  show SameRegs fl w _
  split
  · next hc =>
    simp only [Bool.and_eq_true, beq_iff_eq] at hc
    have := warp?_ids hw
    exact h w (by rw [← hc.1, ← hc.2, this.1, this.2]; exact hw)
  · exact SameRegs.refl fl w

theorem SameData.foldl {α : Type} {fl : Bool} (f : State → α → State) (hf : ∀ s x, SameData fl s (f s x)) (l : List α) (s : State) :
    SameData fl s (l.foldl f s) := by
  induction l generalizing s with
  | nil => exact SameData.refl fl s
  | cons a t ih => exact (hf s a).trans (ih _)

theorem SameData.unstall {fl : Bool} (s : State) : SameData fl s s.unstall := by
  refine ⟨⟨rfl, rfl, rfl, rfl, rfl, rfl, rfl, rfl⟩, fun u n w hw => ?_⟩
  exact ⟨{ w with stall := false, doubt := w.stall || w.doubt }, by rw [warp?_unstall, hw]; rfl, SameRegs.refl fl w⟩

theorem SameData.issued {fl : Bool} (s : State) : SameData fl s s.issued := SameData.unstall s

/-- Changing every warp's bookkeeping. -/
theorem SameData.mapWarps {fl : Bool} {s t : State} (f : Warp → Warp)
    (h : ∀ w, (f w).uid = w.uid ∧ (f w).wid = w.wid ∧ (f w).vregs = w.vregs ∧ (f w).sregs = w.sregs ∧ (f w).preds = w.preds ∧
      (f w).fflags = w.fflags)
    (h1 : t.mem = s.mem := by rfl) (h2 : t.wells = s.wells := by rfl)
    (h3 : t.wellFull = s.wellFull := by rfl) (h4 : t.wellPoison = s.wellPoison := by rfl)
    (h5 : t.blocks = s.blocks := by rfl) (h6 : t.warps = s.warps.map f := by rfl) (h7 : t.grids = s.grids := by rfl)
    (h8 : t.tasks = s.tasks := by rfl) (h9 : t.ctxs = s.ctxs := by rfl) : SameData fl s t := by
  refine ⟨⟨h1, h2, h3, h4, h5, h7, h8, h9⟩, fun u n w hw => ⟨f w, ?_, ?_⟩⟩
  · unfold State.warp? at *
    rw [h6]
    have := find?_replaceIf (fun w : Warp => w.uid == u && w.wid == n) (fun _ => true) f
      (fun w => by rw [(h w).1, (h w).2.1]) s.warps
    simp only [replaceIf, if_true, hw, Option.map] at this
    exact this
  · obtain ⟨-, -, a, b, c, d⟩ := h w
    refine ⟨a, b, c, ?_⟩
    cases fl
    · exact d
    · exact ⟨0, by simpa using d⟩

theorem SameData.setCore {fl : Bool} (s : State) (c : Core) : SameData fl s (s.setCore c) := by
  unfold State.setCore
  split
  · exact SameData.of_eq
  · exact SameData.of_eq

theorem SameData.modCore {fl : Bool} (s : State) (n : Nat) (f : Core → Core) : SameData fl s (s.modCore n f) :=
  SameData.setCore s _

theorem SameData.send {fl : Bool} (s : State) (k : MsgKind) : SameData fl s (s.send k) := SameData.of_eq

theorem SameData.unchoose {fl : Bool} (s : State) (w : Warp) : SameData fl s (s.unchoose w) := by
  unfold State.unchoose
  dsimp only
  refine SameData.trans (SameData.modCore s w.core _) (SameData.mapWarps _ ?_ (h6 := by rw [s.modCore_warps]))
  intro x
  split <;> exact ⟨rfl, rfl, rfl, rfl, rfl, rfl⟩

theorem SameData.stalled {fl : Bool} (s : State) (c : Ic) : SameData fl s (s.stalled c) := by
  unfold State.stalled
  dsimp only
  refine SameData.trans' (SameData.touch _ _ _ _ fun _ => ⟨rfl, rfl, rfl, rfl, rfl, rfl⟩) ?_
  split
  · exact SameData.of_eq
  · exact SameData.trans (SameData.unchoose s c.w) SameData.of_eq

/-! ### Translation and forwarding -/

theorem LookedUp.sameData {fl : Bool} {s t : State} (h : LookedUp s t) : SameData fl s t := by
  obtain ⟨l, n, rfl⟩ := h
  exact SameData.of_eq

theorem SameData.draw {fl : Bool} (s : State) (a b : Nat) : SameData fl s (s.draw a b).2 := SameData.of_eq

theorem SameData.xlat {fl : Bool} (s : State) (u : List TlbUnit) (k va : Nat) (n : Need) : SameData fl s (s.xlat u k va n).2 :=
  (LookedUp.xlat s u k va n).sameData

theorem SameData.of_xlat {fl : Bool} {s t : State} {u : List TlbUnit} {k va : Nat} {n : Need} {r : Except XFault Xlat}
    (e : s.xlat u k va n = (r, t)) : SameData fl s t := (LookedUp.of_xlat e).sameData

/-! ### The L1, write-backs, intervals -/

theorem SameData.modEngines {fl : Bool} (s : State) (p : Engine → Bool) (f : Engine → Engine) :
    SameData fl s (s.modEngines p f) := SameData.of_eq

theorem SameData.forward {fl : Bool} (s : State) (core ctx va loc pa : Nat) (t : Bool) :
    SameData fl s (s.forward core ctx va loc pa t) := by
  unfold State.forward
  split
  · exact SameData.of_eq
  · exact SameData.refl fl s

theorem SameData.l1Mod {fl : Bool} (s : State) (core ctx line : Nat) (f : L1Line → L1Line) :
    SameData fl s (s.l1Mod core ctx line f) := SameData.modCore s _ _

theorem SameData.keepBytes {fl : Bool} (s : State) (core ctx line : Nat) (m : BitVec 64) :
    SameData fl s (s.keepBytes core ctx line m) := SameData.of_eq

theorem SameData.writeBack {fl : Bool} (s : State) (core ctx line : Nat) : SameData fl s (s.writeBack core ctx line) := by
  unfold State.writeBack
  split
  · exact SameData.refl fl s
  · split
    · exact SameData.refl fl s
    · dsimp only
      refine SameData.trans' (SameData.l1Mod _ _ _ _ _) (SameData.trans' (SameData.forward _ _ _ _ _ _ _) ?_)
      refine SameData.trans' (SameData.foldl _ ?_ _ _) ?_
      · exact fun s w => SameData.touch _ _ _ _ fun _ => ⟨rfl, rfl, rfl, rfl, rfl, rfl⟩
      exact SameData.trans' (SameData.send _ _) (SameData.keepBytes s core ctx line _)

theorem SameData.flushWarp {fl : Bool} (s : State) (w : Warp) : SameData fl s (s.flushWarp w) := by
  unfold State.flushWarp State.flushCore
  split <;> exact SameData.foldl _ (fun s x => SameData.writeBack _ _ _ _) _ _

theorem SameData.flushCore {fl : Bool} (s : State) (core : Nat) : SameData fl s (s.flushCore core) :=
  SameData.foldl _ (fun _ _ => SameData.writeBack _ _ _ _) _ _

theorem SameData.retag {fl : Bool} (s : State) (core : Nat) : SameData fl s (s.retag core) := by
  unfold State.retag
  dsimp only
  refine SameData.trans (SameData.trans (SameData.modCore _ _ _) (SameData.foldl _ (fun s w => ?_) _ _)) (SameData.modCore _ _ _)
  exact SameData.trans' (SameData.modCore _ _ _) (SameData.touch _ _ _ _ fun _ => ⟨rfl, rfl, rfl, rfl, rfl, rfl⟩)

theorem SameData.freshTag {fl : Bool} (s : State) (u n : Nat) : SameData fl s (s.freshTag u n) := by
  unfold State.freshTag
  split
  · exact SameData.refl fl s
  · dsimp only
    split
    · exact SameData.retag _ _
    · exact SameData.trans' (SameData.modCore _ _ _) (SameData.touch _ _ _ _ fun _ => ⟨rfl, rfl, rfl, rfl, rfl, rfl⟩)

theorem SameData.wrapEpoch {fl : Bool} (s : State) (core : Nat) : SameData fl s (s.wrapEpoch core) := by
  unfold State.wrapEpoch
  dsimp only
  refine SameData.trans (SameData.modCore _ _ _) (SameData.mapWarps _ ?_)
  intro w
  split <;> exact ⟨rfl, rfl, rfl, rfl, rfl, rfl⟩

theorem SameData.bumpEpoch {fl : Bool} (s : State) (u n : Nat) : SameData fl s (s.bumpEpoch u n) := by
  unfold State.bumpEpoch
  split
  · exact SameData.refl fl s
  · dsimp only
    split
    · exact SameData.wrapEpoch _ _
    · exact (SameData.modCore _ _ _).trans (SameData.touch _ _ _ _ fun _ => ⟨rfl, rfl, rfl, rfl, rfl, rfl⟩)

theorem SameData.acquire {fl : Bool} (s : State) (u n : Nat) (x : Scope) (k : Nat) : SameData fl s (s.acquire u n x k) := by
  unfold State.acquire
  split
  · exact SameData.refl fl s
  · dsimp only
    split
    · exact SameData.trans' (SameData.bumpEpoch _ _ _) (SameData.touch _ _ _ _ fun _ => ⟨rfl, rfl, rfl, rfl, rfl, rfl⟩)
    · exact SameData.touch _ _ _ _ fun _ => ⟨rfl, rfl, rfl, rfl, rfl, rfl⟩

theorem SameData.endInterval {fl : Bool} (s : State) (u n near : Nat) (wide : Bool) :
    SameData fl s (s.endInterval u n near wide) := by
  unfold State.endInterval
  split
  · exact SameData.refl fl s
  · next w0 h0 =>
    dsimp only
    refine (SameData.flushWarp s w0).trans ?_
    split
    · exact SameData.refl fl _
    · next w hw =>
      refine SameData.trans' (SameData.freshTag _ _ _) ?_
      generalize hx : Warp.pushInterval _ _ _ _ = p
      have hp : p.uid = w.uid ∧ p.wid = w.wid ∧ p.vregs = w.vregs ∧ p.sregs = w.sregs ∧ p.preds = w.preds ∧
          p.fflags = w.fflags := by subst hx; exact ⟨rfl, rfl, rfl, rfl, rfl, rfl⟩
      clear hx
      refine SameData.trans (b := (State.flushWarp s _).setWarp { p with dirty := [], dirtyOv := false }) ?_ SameData.of_eq
      · refine SameData.setWarp _ fun x hx => ?_
        have := warp?_ids hw
        have e : x = w := by
          have hx : (State.flushWarp s _).warp? p.uid p.wid = some x := hx
          rw [hp.1, hp.2.1, this.1, this.2, hw] at hx
          exact (Option.some.inj hx).symm
        subst e
        obtain ⟨-, -, a, b, c, d⟩ := hp
        exact ⟨a, b, c, by simpa only [d] using (SameRegs.refl fl x).2.2.2⟩

theorem SameData.acquireEnd {fl : Bool} (s : State) (u n : Nat) (x : Scope) (k : Nat) :
    SameData fl s (s.acquireEnd u n x k) := (SameData.acquire s u n x k).trans (SameData.endInterval _ _ _ _ _)

theorem SameData.releaseNow {fl : Bool} (s : State) (u n : Nat) (x : Scope) : SameData fl s (s.releaseNow u n x) := by
  unfold State.releaseNow
  split
  · exact SameData.refl fl s
  · exact SameData.trans' (SameData.endInterval _ _ _ _ _) (SameData.touch _ _ _ _ fun _ => ⟨rfl, rfl, rfl, rfl, rfl, rfl⟩)

theorem SameData.finishAcq {fl : Bool} (s : State) (u n : Nat) (a : AcqWait) : SameData fl s (s.finishAcq u n a) := by
  unfold State.finishAcq
  dsimp only
  split
  · exact SameData.touch _ _ _ _ fun _ => ⟨rfl, rfl, rfl, rfl, rfl, rfl⟩
  split
  · exact SameData.trans' (SameData.acquire _ _ _ _ _) (SameData.touch _ _ _ _ fun _ => ⟨rfl, rfl, rfl, rfl, rfl, rfl⟩)
  · exact SameData.trans' (SameData.acquireEnd _ _ _ _ _) (SameData.touch _ _ _ _ fun _ => ⟨rfl, rfl, rfl, rfl, rfl, rfl⟩)

theorem SameData.ringImplicit {fl : Bool} (s : State) (w : Warp) : SameData fl s (s.ringImplicit w) := by
  unfold State.ringImplicit
  split
  · exact SameData.refl fl s
  · exact SameData.trans (SameData.acquire _ _ _ _ _) (SameData.touch _ _ _ _ fun _ => ⟨rfl, rfl, rfl, rfl, rfl, rfl⟩)

theorem SameData.consume {fl : Bool} (s : State) (w : Warp) (ts : List Token) (e : Bool) : SameData fl s (s.consume w ts e) := by
  unfold State.consume
  dsimp only
  split
  · exact SameData.trans' (SameData.acquire _ _ _ _ _) (SameData.trans' (SameData.touch _ _ _ _ fun _ => ⟨rfl, rfl, rfl, rfl, rfl, rfl⟩)
      (SameData.modEngines _ _ _))
  · exact SameData.trans' (SameData.acquireEnd _ _ _ _ _) (SameData.trans' (SameData.touch _ _ _ _ fun _ => ⟨rfl, rfl, rfl, rfl, rfl, rfl⟩)
      (SameData.modEngines _ _ _))

/-! ### Issuing -/

theorem issueCtx_warp {s : State} {k : Common} {c : Ic} (h : s.issueCtx k = some c) :
    s.warp? c.w.uid c.w.wid = some c.w ∧ s.block? c.w.uid = some c.b := by
  unfold State.issueCtx at h
  split at h
  · contradiction
  · next n hn =>
    split at h
    · next w b hw hb =>
      split at h
      · contradiction
      · next x hx =>
        have hc := Option.some.inj h
        subst hc
        obtain ⟨hu, hn⟩ := warp?_ids hw
        dsimp only
        rw [hu, hn]
        exact ⟨hw, hb⟩
    · contradiction

/-- Up to an instruction's own meaning memory, wells, blocks and registers stay as they are. -/
theorem SameData.entered {fl : Bool} {i : Instr} {s : State} {c : Ic} (h : s.issueCtx (common i) = some c) :
    SameData fl s (enteredState i s c) := by
  have hw := (issueCtx_warp h).1
  have h1 : SameData fl s (s.setWarp c.begun.w) := SameData.setWarp _ fun w hx => by
    have hx : s.warp? c.w.uid c.w.wid = some w := hx
    rw [hw] at hx
    cases hx
    exact ⟨rfl, rfl, rfl, (SameRegs.refl fl c.w).2.2.2⟩
  have hb : (s.setWarp c.begun.w).warp? c.w.uid c.w.wid = some c.begun.w := by
    rw [warp?_setWarp, hw]
    simp
  have e : (enteredWarp s c).uid = c.w.uid ∧ (enteredWarp s c).wid = c.w.wid ∧ SameRegs fl c.begun.w (enteredWarp s c) := by
    unfold enteredWarp Warp.opened
    split
    · exact ⟨rfl, rfl, SameRegs.refl fl _⟩
    · exact ⟨rfl, rfl, rfl, rfl, rfl, (SameRegs.refl fl c.begun.w).2.2.2⟩
  have h2 : SameData fl (s.setWarp c.begun.w) ((s.setWarp c.begun.w).setWarp (enteredWarp s c)) :=
    SameData.setWarp _ fun w hx => by
      rw [e.1, e.2.1, hb] at hx
      cases hx
      exact e.2.2
  unfold enteredState
  dsimp only
  refine h1.trans (h2.trans ?_)
  split
  · exact SameData.refl fl _
  · exact SameData.consume _ _ _ _

/-- What follows an instruction changes threads and bookkeeping only. -/
theorem SameData.retire {fl : Bool} (s : State) (c : Ic) (i : Instr) (p : Nat → Pc → Pc) : SameData fl s (s.retire c i p) := by
  unfold State.retire
  split
  · exact SameData.issued s
  · next w hw =>
    dsimp only
    refine SameData.trans (SameData.setWarp _ fun x hx => ?_) (SameData.issued _)
    obtain ⟨hu, hn⟩ := warp?_ids hw
    have hx : s.warp? w.uid w.wid = some x := hx
    rw [hu, hn, hw] at hx
    cases hx
    exact ⟨rfl, rfl, rfl, (SameRegs.refl fl w).2.2.2⟩

theorem SameData.oweMore {fl : Bool} (s : State) (o : Owed) : SameData fl s (s.oweMore o) := SameData.of_eq

theorem SameData.owe {fl : Bool} (s : State) (o : Owed) : SameData fl s (s.owe o) := by
  unfold State.owe
  refine SameData.trans' ?_ (SameData.oweMore s o)
  exact SameData.touch _ _ _ _ fun _ => ⟨rfl, rfl, rfl, rfl, rfl, rfl⟩

/-- What an instruction that computes on registers owes: one result, its flags raised. -/
theorem SameData.owed (c : Ic) (s : State) (u fp : Bool) (f : Nat → LaneOut) : SameData true s (owed c s u fp f) := by
  unfold Machine.owed
  dsimp only
  refine SameData.trans' (SameData.owe _ _) ?_
  refine SameData.modWarp _ _ _ _ ?_ ?_
  · exact fun _ => ⟨rfl, rfl⟩
  · exact fun w => ⟨rfl, rfl, rfl, _, rfl⟩

end Sys2Proof
end

