-- ==== Sys2Proof/Laws/Marked.lean ====
section
/-! SUPPORT. A warp that a fault has parked stays marked whatever its record does (R426, R427, R514): `Marked` through records, rings,
kills and evictions. -/

set_option Elab.async false  -- one theorem after another: waiting threads would use up the memory a check is given

namespace Sys2Proof

open Sys2Proof.Machine

/-- The warp is held by a fault, or has left its slot for good. -/
def Marked (u n : Nat) (s : State) : Prop := ∀ w, s.warp? u n = some w → w.held = true ∨ w.released = true

theorem Marked.of_warps {u n : Nat} {s t : State} (h : Marked u n s) (e : t.warps = s.warps := by rfl) : Marked u n t := by
  intro w hw
  unfold State.warp? at hw
  rw [e] at hw
  exact h w hw

theorem Marked.modWarp {u n : Nat} {s : State} (h : Marked u n s) (a b : Nat) (f : Warp → Warp)
    (hf : ∀ w, (f w).uid = w.uid ∧ (f w).wid = w.wid)
    (hk : ∀ w, w.held = true ∨ w.released = true → (f w).held = true ∨ (f w).released = true) : Marked u n (s.modWarp a b f) := by
  intro w hw
  rw [warp?_modWarp hf] at hw
  cases hs : s.warp? u n with
  | none => rw [hs] at hw; contradiction
  | some x =>
    rw [hs] at hw
    have hw := Option.some.inj hw
    subst hw
    have := h x hs
    dsimp only
    split
    · exact hk x this
    · exact this

theorem Marked.setWarp {u n : Nat} {s : State} (h : Marked u n s) (x : Warp)
    (hx : x.uid = u → x.wid = n → (∃ w, s.warp? u n = some w) → x.held = true ∨ x.released = true) : Marked u n (s.setWarp x) := by
  intro w hw
  rw [warp?_setWarp] at hw
  cases hs : s.warp? u n with
  | none => rw [hs] at hw; contradiction
  | some y =>
    rw [hs] at hw
    have hw := Option.some.inj hw
    subst hw
    have hy := h y hs
    dsimp only
    split
    · next hc =>
      simp only [Bool.and_eq_true, beq_iff_eq] at hc
      have := warp?_ids hs
      exact hx (by omega) (by omega) ⟨y, hs⟩
    · exact hy

theorem Marked.foldl {α : Type} {u n : Nat} (f : State → α → State) (hf : ∀ s x, Marked u n s → Marked u n (f s x)) (l : List α)
    {s : State} (h : Marked u n s) : Marked u n (l.foldl f s) := by
  induction l generalizing s with
  | nil => exact h
  | cons a t ih => exact ih (hf _ _ h)

theorem Marked.foldl_mem {α : Type} {u n : Nat} (f : State → α → State) (l : List α)
    (hf : ∀ s x, x ∈ l → Marked u n s → Marked u n (f s x)) 
    {s : State} (h : Marked u n s) : Marked u n (l.foldl f s) := by
  induction l generalizing s with
  | nil => exact h
  | cons a t ih => exact ih (fun s x hx => hf s x (List.mem_cons_of_mem _ hx)) (hf _ _ List.mem_cons_self h)

/-! ### Operations that leave every warp alone -/

@[simp] theorem warps_setCore (s : State) (c : Core) : (s.setCore c).warps = s.warps := by
  unfold State.setCore; split <;> rfl
@[simp] theorem warps_modCore (s : State) (k : Nat) (f : Core → Core) : (s.modCore k f).warps = s.warps := warps_setCore _ _
@[simp] theorem warps_modCores (s : State) (f : Core → Core) : (s.modCores f).warps = s.warps := rfl
@[simp] theorem warps_setCtx (s : State) (c : Ctx) : (s.setCtx c).warps = s.warps := by
  unfold State.setCtx; split <;> rfl
@[simp] theorem warps_modCtx (s : State) (k : Nat) (f : Ctx → Ctx) : (s.modCtx k f).warps = s.warps := warps_setCtx _ _
@[simp] theorem warps_setBand (s : State) (b : Band) : (s.setBand b).warps = s.warps := by
  unfold State.setBand; split <;> rfl
@[simp] theorem warps_interrupt (s : State) (v : Nat) (k : Option Nat) : (s.interrupt v k).warps = s.warps := by
  unfold State.interrupt; dsimp only; split
  · split <;> rfl
  · rfl

theorem warps_foldl {α : Type} (f : State → α → State) (hf : ∀ s x, (f s x).warps = s.warps) (l : List α) (s : State) :
    (l.foldl f s).warps = s.warps := by
  induction l generalizing s with
  | nil => rfl
  | cons a t ih => rw [List.foldl_cons, ih, hf]

@[simp] theorem warps_homeBytes (s : State) (a : Nat) (bs : List Byte) : (s.homeBytes a bs).warps = s.warps := by
  unfold State.homeBytes
  dsimp only
  refine (warps_foldl _ (fun s x => ?_) _ _).trans rfl
  split
  · rfl
  · rw [warps_setBand]
    rfl

@[simp] theorem warps_tracePut (s : State) (d b : Nat) : (s.tracePut d b).warps = s.warps := by
  unfold State.tracePut
  dsimp only
  repeat' split
  all_goals simp only [warps_interrupt, State.modDie, State.setDie]

@[simp] theorem warps_syncDue (s : State) (d : Nat) : (s.syncDue d).warps = s.warps := by
  unfold State.syncDue
  dsimp only
  repeat' split
  all_goals simp only [warps_tracePut]

@[simp] theorem warps_traceRec (s : State) (d a b : Nat) : (s.traceRec d a b).warps = s.warps := by
  unfold State.traceRec
  dsimp only
  split
  · rfl
  · rw [warps_tracePut, warps_syncDue]

@[simp] theorem warps_orFree (s : State) (v : Option Nat) : (s.orFree v).2.warps = s.warps := by
  unfold State.orFree; split <;> rfl

@[simp] theorem warps_traceEvent (s : State) (d k : Nat) (a : Option Nat) (p : Option Pc) (e : Option Word) (l : Option Nat)
    (x : Nat) : (s.traceEvent d k a p e l x).warps = s.warps := by
  unfold State.traceEvent
  dsimp only
  split
  · simp only [warps_traceRec, warps_orFree]
  · rfl

@[simp] theorem warps_relSet (s : State) (a : Nat) (l : List Rel) : (s.relSet a l).warps = s.warps := rfl
@[simp] theorem warps_relPut (s : State) (a : Nat) (l : List Rel) : (s.relPut a l).warps = s.warps := rfl
@[simp] theorem warps_flagStore (s : State) (a : Nat) (bs : List Byte) : (s.flagStore a bs).warps = s.warps := by
  unfold State.flagStore
  rw [warps_relSet, warps_homeBytes]
@[simp] theorem warps_ctxRecord32 (s : State) (k o : Nat) (v : Word) : (s.ctxRecord32 k o v).warps = s.warps :=
  warps_flagStore _ _ _
@[simp] theorem warps_wellPut (s : State) (k : Nat) (v : Word) : (s.wellPut k v).warps = s.warps := rfl

@[simp] theorem warps_ringAppend (s : State) (r : Ring) (m : List Byte) (x : Rel) : (s.ringAppend r m x).warps = s.warps := by
  have (s : State) (f : Nat → Nat) (g : Nat → Word) (l : List Nat) :
      (l.foldl (fun (s : State) k => s.wellPut (f k) (g k)) s).warps = s.warps :=
    warps_foldl _ (fun s x => warps_wellPut s (f x) (g x)) _ _
  unfold State.ringAppend
  dsimp only
  rw [warps_relPut, warps_wellPut, this]

@[simp] theorem warps_flushNotices (s : State) (k : Nat) : (s.flushNotices k).warps = s.warps := by
  unfold State.flushNotices
  refine warps_foldl _ (fun s x => ?_) _ _
  split
  · split <;> simp
  · simp

@[simp] theorem warps_notice (s : State) (k : Nat) (a : NoticeKind) (v : Word) : (s.notice k a v).warps = s.warps := by
  unfold State.notice; simp

@[simp] theorem warps_forward (s : State) (a b c d e : Nat) (f : Bool) : (s.forward a b c d e f).warps = s.warps := by
  unfold State.forward
  split <;> rfl

theorem LookedUp.warps {s t : State} (h : LookedUp s t) : t.warps = s.warps := by
  obtain ⟨l, n, rfl⟩ := h
  rfl

@[simp] theorem warps_forwardLines (s : State) (a b c d : Nat) (k : Need) (us : List TlbUnit) :
    (s.forwardLines a b c d k us).warps = s.warps := by
  unfold State.forwardLines
  refine warps_foldl _ (fun s x => ?_) _ _
  split
  · next e => rw [warps_forward]; exact (LookedUp.of_xlat e).warps
  · next e => exact (LookedUp.of_xlat e).warps

@[simp] theorem warps_ringWrite (s : State) (c k : Nat) (r : RingHdr) (b : Nat) : (s.ringWrite c k r b).1.warps = s.warps := by
  unfold State.ringWrite
  dsimp only
  split <;> simp only [warps_relSet, warps_forwardLines, warps_homeBytes]

@[simp] theorem warps_setFqovf (s : State) (k : Nat) (v : Word) : (s.setFqovf k v).warps = s.warps := by
  unfold State.setFqovf
  dsimp only
  split <;> simp

@[simp] theorem warps_ctxRo (s : State) (k : Nat) : (s.ctxRo k).warps = s.warps := by
  unfold State.ctxRo
  dsimp only
  refine warps_foldl _ (fun s x => ?_) _ _
  rfl

/-! ### Operations that end warps, and the eviction of a held one -/

theorem Marked.same {u n : Nat} {s t : State} (h : Marked u n s) (e : t.warps = s.warps) : Marked u n t := h.of_warps e

theorem Marked.touch {u n : Nat} {s : State} (h : Marked u n s) (a b : Nat) (f : Warp → Warp)
    (hf : ∀ w, (f w).uid = w.uid ∧ (f w).wid = w.wid ∧ (f w).held = w.held ∧ (f w).released = w.released) :
    Marked u n (s.modWarp a b f) :=
  h.modWarp a b f (fun w => ⟨(hf w).1, (hf w).2.1⟩) fun w hw => by rw [(hf w).2.2.1, (hf w).2.2.2]; exact hw

theorem Marked.saveToken {u n : Nat} {s : State} (h : Marked u n s) (b : Block) (k r : Nat) (v : Word) :
    Marked u n (s.saveToken b k r v) := by
  unfold State.saveToken State.saveMod
  dsimp only
  repeat' split
  all_goals exact h.of_warps

theorem Marked.putToken {u n : Nat} {s : State} (h : Marked u n s) (a b r : Nat) (v : Word) (e : Nat) :
    Marked u n (s.putToken a b r v e) := by
  have h1 := h.touch a b (fun w => { (w.sset r v) with tokens := w.tokens.map fun t => if t.eng = e then { t with done := true } else t })
    fun _ => ⟨rfl, rfl, rfl, rfl⟩
  unfold State.putToken
  dsimp only
  generalize State.modWarp s a b _ = s1 at h1 ⊢
  split
  · split
    · split
      · exact h1.of_warps
      · exact h1
    · split
      · exact h1
      · exact h1.saveToken _ _ _ _
  · exact h1

theorem Marked.completeEngine {u n : Nat} {s : State} (h : Marked u n s) (a b c : Nat) : Marked u n (s.completeEngine a b c) := by
  unfold State.completeEngine
  split
  · exact h
  · split
    · exact h
    · dsimp only
      split
      · refine Marked.putToken (h.same ?_) _ _ _ _ _
        rw [warps_traceEvent]; rfl
      · refine h.same ?_
        rw [warps_traceEvent]; rfl

@[simp] theorem warps_taskWrite (s : State) (t : Task) : (s.taskWrite t).warps = s.warps := by
  unfold State.taskWrite
  dsimp only
  split
  · rfl
  · simp only [warps_flagStore, warps_forward]

theorem Marked.taskEnd {u n : Nat} (k : Nat) {s : State} (h : Marked u n s) (q i : Nat) (x : Option Byte) :
    Marked u n (taskEnd k s q i x) := by
  induction k generalizing s q i x with
  | zero => exact h
  | succ k ih =>
    unfold Machine.taskEnd
    split
    · exact h
    · split
      · exact h
      · dsimp only
        refine Marked.foldl _ (fun s j h => ?_) _ ?_
        · split
          · exact h
          · split
            · exact h
            · split
              · exact h.same (warps_taskWrite _ _)
              · split
                · apply ih
                  exact h.same (warps_taskWrite _ _)
                · exact h.same (warps_taskWrite _ _)
        · split
          · apply Marked.completeEngine
            exact h.same (warps_taskWrite _ _)
          · exact h.same (warps_taskWrite _ _)

theorem Marked.unqueue {u n : Nat} {s : State} (h : Marked u n s) (w : Warp) (k : Nat) : Marked u n (s.unqueue w k) := by
  unfold State.unqueue
  split
  · exact Marked.touch (h.same (warps_setFqovf _ _ _)) _ _ _ fun _ => ⟨rfl, rfl, rfl, rfl⟩
  · exact h

theorem Marked.leaveSlot {u n : Nat} {s : State} (h : Marked u n s) (w : Warp) : Marked u n (s.leaveSlot w) := by
  unfold State.leaveSlot
  dsimp only
  exact Marked.setWarp ((h.unqueue w _).of_warps) _ fun _ _ _ => .inr rfl

theorem Marked.endBlock {u n : Nat} {s : State} (h : Marked u n s) (b : Nat) (c : Byte) : Marked u n (s.endBlock b c) := by
  unfold State.endBlock
  split
  · exact h
  · split
    · exact h
    · dsimp only
      refine Marked.of_warps (Marked.foldl _ (fun s w h => ?_) _ ?_)
      · split
        · exact h
        · exact h.leaveSlot _
      · refine Marked.of_warps (Marked.foldl _ (fun s e h => ?_) _ ?_)
        · exact h.completeEngine _ _ _
        · exact h.of_warps

theorem Marked.foldl_pair {α β : Type} {u n : Nat} (f : State × β → α → State × β)
    (hf : ∀ x y, Marked u n x.1 → Marked u n (f x y).1) (l : List α) {x : State × β} (h : Marked u n x.1) :
    Marked u n (l.foldl f x).1 := by
  induction l generalizing x with
  | nil => exact h
  | cons a t ih => exact ih (hf _ _ h)

@[simp] theorem warps_hostDone (s : State) (a : Nat) (b : Bool) (c d e : Nat) : (s.hostDone a b c d e).warps = s.warps := by
  unfold State.hostDone
  dsimp only
  split <;> simp

theorem Marked.abortGrid {u n : Nat} (k : Nat) {s : State} (h : Marked u n s) (g : Nat) (c : Byte) :
    Marked u n (abortGrid k s g c).1 := by
  induction k generalizing s g with
  | zero => exact h
  | succ k ih =>
    unfold Machine.abortGrid
    split
    · exact h
    · split
      · exact h
      · dsimp only
        have h1 (s : State) (h : Marked u n s) : Marked u n
            ((s.grids.filter fun (d : Grid) => d.parent == some g).foldl (fun (x : State × List FaultRec) (d : Grid) =>
              ((Machine.abortGrid k x.1 d.gid c).1, x.2 ++ (Machine.abortGrid k x.1 d.gid c).2)) (s, [])).1 := by
          apply Marked.foldl_pair
          · intro x d h
            exact ih h _
          · exact h
        refine Marked.same (s := ?a) ?_ (?_ : _ = (?a : State).warps)
        rotate_left 2
        · split
          · exact warps_interrupt _ _ _
          · rfl
        refine Marked.same (s := ?b) ?_ (?_ : _ = (?b : State).warps)
        rotate_left 2
        · split
          · exact warps_hostDone _ _ _ _ _ _
          · rfl
        have h2 : Marked u n (List.foldl (fun (s : State) (b : Block) => s.endBlock b.uid c)
            (s.modGrid g fun g => { g with st := .aborted, abortCode := c })
            (List.filter (fun b => b.gid == g) (s.modGrid g fun g => { g with st := .aborted, abortCode := c }).blocks)) := by
          apply Marked.foldl
          · intro s b h
            exact h.endBlock _ _
          · exact h.of_warps
        have h3 := h1 _ h2
        split
        · apply Marked.completeEngine
          split
          · exact Marked.taskEnd _ h3 _ _ _
          · exact h3
        · split
          · exact Marked.taskEnd _ h3 _ _ _
          · exact h3

theorem Marked.retake {u n : Nat} (k : Nat) {s : State} (h : Marked u n s) (c : Nat) : Marked u n (retake k s c) := by
  induction k generalizing s with
  | zero => exact h
  | succ k ih =>
    unfold Machine.retake
    split
    · exact h
    · exact ih (h.unqueue _ _)

theorem Marked.discardHeld {u n : Nat} {s : State} (h : Marked u n s) (c k : Nat) : Marked u n (s.discardHeld c k) := by
  unfold State.discardHeld
  split
  · exact Marked.retake _ (h.same (warps_modCore _ _ _)) _
  · exact h

theorem Marked.killContext {u n : Nat} {s : State} (h : Marked u n s) (k : Nat) (c : Byte) : Marked u n (s.killContext k c).1 := by
  unfold State.killContext
  dsimp only
  refine Marked.same ?_ (warps_notice _ _ _ _)
  refine Marked.foldl _ (fun s c h => h.discardHeld _ _) _ ?_
  refine Marked.same ?_ (warps_ctxRo _ _)
  refine Marked.same ?_ (warps_modCtx _ _ _)
  apply Marked.foldl
  · intro s t h
    exact h.taskEnd _ _ _ _
  · apply Marked.foldl_pair
    · intro x g h
      exact h.abortGrid _ _ _
    · exact h

theorem Marked.undeliverable {u n : Nat} {s : State} (h : Marked u n s) (r : FaultRec) : Marked u n (s.undeliverable r) := by
  unfold State.undeliverable
  split
  · exact h
  · exact h.killContext _ _

theorem Marked.drainCore {u n : Nat} (k : Nat) {s : State} (h : Marked u n s) (c x : Nat) : Marked u n (drainCore k s c x) := by
  induction k generalizing s with
  | zero => exact h
  | succ k ih =>
    unfold Machine.drainCore
    split
    · exact h
    · dsimp only
      split
      · exact h.undeliverable _
      · split
        · exact h.same (warps_forwardLines _ _ _ _ _ _ _)
        · apply ih
          refine h.same ?_
          rw [warps_notice, warps_modCore, warps_ringWrite]

theorem Marked.reread {u n : Nat} {s : State} (h : Marked u n s) (k : Nat) : Marked u n (s.reread k) := by
  unfold State.reread
  apply Marked.foldl _ _ _ h
  intro s c h
  dsimp only
  split
  · exact (h.drainCore _ _ _).retake _ _
  · exact h

theorem Marked.putRecord {u n : Nat} {s t : State} (h : Marked u n s) {k : Nat} {r : FaultRec} {m : Bool}
    (e : s.putRecord k r m = some t) : Marked u n t := by
  unfold State.putRecord at e
  dsimp only at e
  have hd := h.reread r.ctx
  split at e
  · cases e
    exact hd.undeliverable r
  · split at e
    · cases e
      exact hd.same (by rw [warps_notice, warps_ringWrite])
    · split at e
      · cases e
        exact hd.same ((warps_modCore _ _ _).trans (warps_forwardLines _ _ _ _ _ _ _))
      · split at e
        · contradiction
        · cases e
          exact hd.same ((warps_modCore _ _ _).trans (warps_forwardLines _ _ _ _ _ _ _))

theorem Marked.report {u n : Nat} {s : State} (h : Marked u n s) (k : Nat) (r : FaultRec) : Marked u n (s.report k r) := by
  unfold State.report
  cases e : s.putRecord k r false with
  | none => exact h
  | some t => exact h.putRecord e

theorem Marked.fold_writeBack {u n : Nat} {s : State} (h : Marked u n s) (c k l : Nat) : Marked u n (s.writeBack c k l) := by
  unfold State.writeBack
  dsimp only
  split
  · exact h
  · split
    · exact h
    · refine Marked.same ?_ (warps_modCore _ _ _)
      refine Marked.same ?_ (warps_forward _ _ _ _ _ _ _)
      apply Marked.foldl
      · intro s w h
        exact h.touch _ _ _ fun _ => ⟨rfl, rfl, rfl, rfl⟩
      · exact h.of_warps

theorem Marked.flushWarp {u n : Nat} {s : State} (h : Marked u n s) (w : Warp) : Marked u n (s.flushWarp w) := by
  unfold State.flushWarp State.flushCore
  split
  all_goals
    apply Marked.foldl
    · intro s x h
      exact h.fold_writeBack _ _ _
    · exact h

theorem Warp.puts_ids (w : Warp) (l : List (RegSlot × Word)) : (w.puts l).uid = w.uid ∧ (w.puts l).wid = w.wid ∧
    (w.puts l).held = w.held ∧ (w.puts l).released = w.released := by
  unfold Warp.puts
  induction l generalizing w with
  | nil => exact ⟨rfl, rfl, rfl, rfl⟩
  | cons a t ih =>
    rw [List.foldl_cons]
    obtain ⟨a1, a2, a3, a4⟩ := ih (w.put a.1 a.2)
    have : (w.put a.1 a.2).uid = w.uid ∧ (w.put a.1 a.2).wid = w.wid ∧
        (w.put a.1 a.2).held = w.held ∧ (w.put a.1 a.2).released = w.released := by
      unfold Warp.put
      split
      all_goals first | exact ⟨rfl, rfl, rfl, rfl⟩ | skip
      unfold Warp.pset
      split <;> exact ⟨rfl, rfl, rfl, rfl⟩
    exact ⟨a1.trans this.1, a2.trans this.2.1, a3.trans this.2.2.1, a4.trans this.2.2.2⟩

theorem Marked.discardLoads {u n : Nat} {s : State} (h : Marked u n s) (a b : Nat) : Marked u n (s.discardLoads a b) := by
  unfold State.discardLoads
  dsimp only
  refine Marked.touch (h.of_warps) _ _ _ fun w => ?_
  have (l : List Owed) : let x := l.foldl (fun (w : Warp) (o : Owed) => w.puts o.writes) w
      x.uid = w.uid ∧ x.wid = w.wid ∧ x.held = w.held ∧ x.released = w.released := by
    induction l generalizing w with
    | nil => exact ⟨rfl, rfl, rfl, rfl⟩
    | cons a t ih =>
      dsimp only [List.foldl_cons]
      obtain ⟨a1, a2, a3, a4⟩ := ih (w.puts a.writes)
      obtain ⟨b1, b2, b3, b4⟩ := Warp.puts_ids w a.writes
      exact ⟨a1.trans b1, a2.trans b2, a3.trans b3, a4.trans b4⟩
  exact this _

@[simp] theorem warps_wellByte (s : State) (k j : Nat) (v : Byte) : (s.wellByte k j v).warps = s.warps := by
  unfold State.wellByte State.wellPutSoft
  dsimp only
  split <;> rfl

@[simp] theorem warps_freeAt (s : State) (d p : Nat) : (s.freeAt d p).warps = s.warps := by
  unfold State.freeAt
  dsimp only
  split
  · exact warps_wellByte _ _ _ _
  · rfl

theorem Warp.pset_ids (w : Warp) (r : Nat) (m : LaneMask) : (w.pset r m).uid = w.uid ∧ (w.pset r m).wid = w.wid ∧
    (w.pset r m).held = w.held ∧ (w.pset r m).released = w.released := by
  unfold Warp.pset
  split <;> exact ⟨rfl, rfl, rfl, rfl⟩

theorem Marked.freeReg {u n : Nat} {s : State} (h : Marked u n s) (a b l d : Nat) (x : Nat × Nat) :
    Marked u n (s.freeReg a b l d x) := by
  unfold State.freeReg
  dsimp only
  split
  · exact h.touch _ _ _ fun _ => ⟨rfl, rfl, rfl, rfl⟩
  · exact h.touch _ _ _ fun _ => ⟨rfl, rfl, rfl, rfl⟩
  · exact h.touch _ _ _ fun w => Warp.pset_ids w _ _
  · exact h.of_warps
  · exact h.of_warps
  · exact h.of_warps
  · exact h

theorem Marked.unspecify {u n : Nat} {s : State} (h : Marked u n s) (a b : Nat) (f : Thread → Bool) :
    Marked u n (s.unspecify a b f) := by
  unfold State.unspecify
  split
  · exact h
  · dsimp only
    split
    · exact h
    · refine Marked.of_warps (s := List.foldl _ _ _) ?_ rfl
      apply Marked.foldl _ _ _ h
      intro s l h
      refine Marked.foldl _ (fun s a h => h.same (warps_freeAt _ _ _)) _ ?_
      exact Marked.foldl _ (fun s x h => h.freeReg _ _ _ _ _) _ h

theorem Marked.evictWarp {u n : Nat} {s : State} (h : Marked u n s) (b : Block) (p : List Nat) (k : Nat) (d : Bool) :
    Marked u n (s.evictWarp b p k d) := by
  unfold State.evictWarp
  split
  · exact h
  · split
    · exact h
    · next w0 _ _ =>
      dsimp only
      have h2 := ((h.unqueue w0 b.ctx).flushWarp w0).discardLoads b.uid k
      generalize State.discardLoads _ b.uid k = s0 at h2 ⊢
      have h3 : Marked u n (State.unspecify { s0 with owed := s0.owed.filter fun o => !(o.uid == b.uid && o.wid == k) } b.uid k
        fun t => t.st != .exited) := Marked.unspecify h2.of_warps _ _ _
      generalize State.unspecify _ b.uid k _ = s1 at h3 ⊢
      split
      · exact h3
      · next w hw =>
        refine Marked.same (s := ?a) ?_ (?_ : _ = (?a : State).warps)
        rotate_left 2
        · rw [warps_traceEvent]
        · refine Marked.setWarp (h3.same ?_) _ fun a b _ => ?_
          · rw [warps_forwardLines]
            exact warps_setCore _ _
          · have hi := warp?_ids hw
            exact h3 w (by rw [← a, ← b, hi.1, hi.2]; exact hw)

theorem Marked.swapOut {u n : Nat} {s : State} (h : Marked u n s) (a b : Nat) : Marked u n (s.swapOut a b) := by
  unfold State.swapOut
  split
  · split
    · exact h
    · split
      · unfold State.evictBlock
        dsimp only
        next x w _ _ _ _ p _ =>
        have := Marked.foldl (u := u) (n := n) (fun (s : State) (k : Nat) => s.evictWarp x p k (some b == some k))
          (fun s k h => h.evictWarp _ _ _ _) (List.range x.nwarps) h
        refine Marked.of_warps (s := State.saveBlock _ x p) (this.same ?_)
        unfold State.saveBlock
        dsimp only
        rw [warps_forwardLines, warps_forwardLines]
      · unfold State.refuseReport
        split
        · exact h
        · exact h.report _ _
  · exact h

end Sys2Proof
end

