-- ==== Sys2Proof/Laws/StepFrame.lean ====
section
/-! SUPPORT. The frame of an issuing instruction that takes no fault: what its own meaning keeps, the whole step keeps. -/

set_option Elab.async false  -- one theorem after another: waiting threads would use up the memory a check is given

namespace Sys2Proof

open Sys2Proof.Machine

/-- Once a warp is marked the instruction has not gone unfaulted. -/
theorem Marked.faulted {c : Ic} {t : State} (h : Marked c.w.uid c.w.wid t) (hu : Unfaulted t c) : False := by
  obtain ⟨w, hw, h1, -, h2⟩ := hu
  rcases h w hw with h | h <;> simp_all

/-- The warp that a change has been made to. -/
theorem modWarp_at {s : State} {u n : Nat} {f : Warp → Warp} {x : Warp} (h : (s.modWarp u n f).warp? u n = some x)
    (hf : ∀ w, (f w).uid = w.uid ∧ (f w).wid = w.wid) : ∃ y, x = f y := by
  rw [warp?_modWarp hf] at h
  obtain ⟨y, hy, e⟩ := Option.map_eq_some_iff.mp h
  have hi := warp?_ids hy
  subst e
  exact ⟨y, by simp [hi.1, hi.2]⟩

/-- What taking a fault leaves (R215, R426, R427): while strong accesses are under way the warp only waits; else it is held, or
waits for a holding slot. -/
theorem takeFault_cases (s : State) (w : Warp) (r : FaultRec) (k : LaneMask) :
    s.strongBusy w.uid w.wid = true ∧ s.takeFault w r k = s.modWarp w.uid w.wid (fun w => { w with stall := true }) ∨
      Marked w.uid w.wid (s.takeFault w r k) ∨
      (∀ x, (s.takeFault w r k).warp? w.uid w.wid = some x → x.faultStall ≠ none) := by
  unfold State.takeFault
  split
  · next h => exact .inl ⟨h, rfl⟩
  · dsimp only
    split
    · refine .inr (.inr fun x hx => ?_)
      obtain ⟨y, rfl⟩ := modWarp_at hx fun _ => ⟨rfl, rfl⟩
      simp
    · refine .inr (.inl fun x hx => .inl ?_)
      obtain ⟨y, rfl⟩ := modWarp_at hx fun _ => ⟨rfl, rfl⟩
      rfl

theorem takeFault_unfaulted {fl : Bool} {s : State} {c : Ic} {w : Warp} {r : FaultRec} {k : LaneMask} (hi : w.uid = c.w.uid ∧ w.wid = c.w.wid)
    (hu : Unfaulted (s.takeFault w r k) c) : SameData fl s (s.takeFault w r k) := by
  rcases takeFault_cases s w r k with h | h | h
  · rw [h.2]
    exact SameData.touch _ _ _ _ fun _ => ⟨rfl, rfl, rfl, rfl, rfl, rfl⟩
  · rw [hi.1, hi.2] at h
    exact (h.faulted hu).elim
  · obtain ⟨x, hx, -, h2, -⟩ := hu
    rw [hi.1, hi.2] at h
    exact absurd h2 (h x hx)

theorem SameData.begun {fl : Bool} {i : Instr} {s : State} {c : Ic} (h : s.issueCtx (common i) = some c) :
    SameData fl s (s.setWarp c.begun.w) := SameData.setWarp _ fun w hx => by
  have hw := (issueCtx_warp h).1
  have hx : s.warp? c.w.uid c.w.wid = some w := hx
  rw [hw] at hx
  cases hx
  exact ⟨rfl, rfl, rfl, (SameRegs.refl fl c.w).2.2.2⟩

/-- Opening the interval keeps the data. -/
theorem SameData.opened {fl : Bool} {i : Instr} {s : State} {c : Ic} (h : s.issueCtx (common i) = some c) :
    SameData fl (s.setWarp c.begun.w) ((s.setWarp c.begun.w).setWarp (enteredWarp s c)) := SameData.setWarp _ fun w hx => by
  have hw := (issueCtx_warp h).1
  have e : (enteredWarp s c).uid = c.w.uid ∧ (enteredWarp s c).wid = c.w.wid ∧ SameRegs fl c.begun.w (enteredWarp s c) := by
    unfold enteredWarp Warp.opened
    split
    · exact ⟨rfl, rfl, SameRegs.refl fl _⟩
    · exact ⟨rfl, rfl, rfl, rfl, rfl, (SameRegs.refl fl c.begun.w).2.2.2⟩
  rw [e.1, e.2.1, warp?_setWarp, hw] at hx
  have hx : (if c.w.uid == c.begun.w.uid && c.w.wid == c.begun.w.wid then c.begun.w else c.w) = w := Option.some.inj hx
  rw [if_pos (by simp [Ic.begun, Warp.modThreads])] at hx
  rw [← hx]
  exact e.2.2

theorem SameData.unopened {fl : Bool} (s : State) (w : Warp) : SameData fl s (s.unopened w) := by
  unfold State.unopened
  split
  · exact SameData.refl fl s
  · exact SameData.touch _ _ _ _ fun _ => ⟨rfl, rfl, rfl, rfl, rfl, rfl⟩

/-- The fault that an instruction takes before its own meaning (R82 steps 4 to 8, R66). -/
def badIssue (i : Instr) (s : State) (c : Ic) : Option FaultRec :=
  if isPrivileged i && !s.privileged c.b.ctx then some (c.record .illegal c.lane0)
  else if !wellFormed i then some (c.record .illegal c.lane0)
  else if !((usesOf i).all (useOk c.b.kernel) && (tokenOf i).all fun r => r < 16 * c.b.kernel.ns) then
    some (c.record .illegal c.lane0)
  else if c.b.hcheck && hazard c i then some (c.record .runHazard c.lane0)
  else none

/-- A warp that waits, noted as waiting at a region boundary, or for a token. -/
def atEdge (s : State) (c : Ic) : State :=
  (s.modWarp c.w.uid c.w.wid fun w => { w with atBoundary := true }).stalled c
def atToken (s : State) (c : Ic) : State :=
  (s.modWarp c.w.uid c.w.wid fun w => { w with tokenStall := true }).stalled c

/-- The gate of an issue, case by case. -/
theorem gate_eq {i : Instr} {s : State} {c : Ic} (hc : s.issueCtx (common i) = some c) : gate i s =
    if c.w.acq.isSome then some (.out (s.stalled c))
    else if c.beginners != 0 && !s.checksIn c.w then some (.out (atEdge s c))
    else if c.begun.active = 0 then some (.out (((s.setWarp c.begun.w).setWarp (enteredWarp s c)).retire c.begun i fun _ n => n))
    else
      match badIssue i (s.setWarp c.begun.w) c.begun with
      | some r => some (.out ((s.setWarp c.begun.w).issued.takeFault c.begun.w r))
      | none =>
        if pendingToken c.begun.w i then some (.out (atToken (s.setWarp c.begun.w) c.begun))
        else if isEngine i && 16 ≤ ((s.setWarp c.begun.w).enginesOf c.begun.w.uid c.begun.w.wid).length then
          some (.out ((s.setWarp c.begun.w).stalled c.begun))
        else if owesResult i && 63 ≤ c.begun.w.outstanding then some (.out ((s.setWarp c.begun.w).stalled c.begun))
        else if endsRegion i && !(s.setWarp c.begun.w).checksIn c.begun.w then some (.out (atEdge (s.setWarp c.begun.w) c.begun))
        else if !(consumed c.begun.w i).isEmpty && (s.setWarp c.begun.w).accessesPending c.begun.w.uid c.begun.w.wid then
          some (.out ((s.setWarp c.begun.w).stalled c.begun))
        else if !(consumed c.begun.w i).isEmpty && (s.setWarp c.begun.w).ringBlocked c.begun.w then
          some (.out (((s.setWarp c.begun.w).ringImplicit c.begun.w).stalled c.begun))
        else some (.go (enteredIc i s c) (enteredState i s c)) := by
  unfold gate
  rw [hc]
  rfl

theorem SameData.atEdge {fl : Bool} (s : State) (c : Ic) : SameData fl s (atEdge s c) := by
  unfold Sys2Proof.atEdge
  refine SameData.trans' (SameData.stalled _ _) ?_
  exact SameData.touch _ _ _ _ fun _ => ⟨rfl, rfl, rfl, rfl, rfl, rfl⟩

theorem SameData.atToken {fl : Bool} (s : State) (c : Ic) : SameData fl s (atToken s c) := by
  unfold Sys2Proof.atToken
  refine SameData.trans' (SameData.stalled _ _) ?_
  exact SameData.touch _ _ _ _ fun _ => ⟨rfl, rfl, rfl, rfl, rfl, rfl⟩

/-- What the gate answers keeps the data, but for a fault that it takes; a meaning runs as `enteredIc` and `enteredState` say. -/
theorem gate_cases {fl : Bool} {i : Instr} {s : State} {c : Ic} (hc : s.issueCtx (common i) = some c) :
    gate i s = some (.go (enteredIc i s c) (enteredState i s c)) ∨
    ∃ t, gate i s = some (.out t) ∧ (Unfaulted t c → SameData fl s t) := by
  have hb := SameData.begun (fl := fl) hc
  rw [gate_eq hc]
  split
  · exact .inr ⟨_, rfl, fun _ => SameData.stalled _ _⟩
  split
  · exact .inr ⟨_, rfl, fun _ => SameData.atEdge _ _⟩
  split
  · exact .inr ⟨_, rfl, fun _ => (hb.trans (SameData.opened hc)).trans (SameData.retire _ _ _ _)⟩
  split
  · exact .inr ⟨_, rfl, fun hu => hb.trans (SameData.trans (SameData.issued _) (takeFault_unfaulted ⟨rfl, rfl⟩ hu))⟩
  split
  · exact .inr ⟨_, rfl, fun _ => hb.trans (SameData.atToken _ _)⟩
  split
  · exact .inr ⟨_, rfl, fun _ => hb.trans (SameData.stalled _ _)⟩
  split
  · exact .inr ⟨_, rfl, fun _ => hb.trans (SameData.stalled _ _)⟩
  split
  · exact .inr ⟨_, rfl, fun _ => hb.trans (SameData.atEdge _ _)⟩
  split
  · exact .inr ⟨_, rfl, fun _ => hb.trans (SameData.stalled _ _)⟩
  split
  · exact .inr ⟨_, rfl, fun _ => hb.trans ((SameData.ringImplicit _ _).trans (SameData.stalled _ _))⟩
  · exact .inl rfl

/-- The entered warp is the issuing one, as the state in which the meaning runs has it. -/
theorem entered_warp {i : Instr} {s : State} {c : Ic} (hc : s.issueCtx (common i) = some c) :
    (enteredIc i s c).w.uid = c.w.uid ∧ (enteredIc i s c).w.wid = c.w.wid ∧
      (enteredState i s c).warp? c.w.uid c.w.wid = some (enteredIc i s c).w := by
  have h := SameData.entered (fl := false) hc
  obtain ⟨w, hw, -⟩ := h.2 _ _ _ (issueCtx_warp hc).1
  have hi := warp?_ids hw
  have e : (enteredIc i s c).w = w := by
    unfold enteredIc
    dsimp only
    have hu : (enteredWarp s c).uid = c.w.uid ∧ (enteredWarp s c).wid = c.w.wid := by
      unfold enteredWarp Warp.opened
      split <;> exact ⟨rfl, rfl⟩
    rw [hu.1, hu.2, hw]
    rfl
  rw [e]
  exact ⟨hi.1, hi.2, hw⟩

/-- A warp that waits for a holding slot is not swapped out unless a fault holds it already. -/
theorem swapOut_waiting {s : State} {c : Ic} (h : ∀ x, s.warp? c.w.uid c.w.wid = some x → x.faultStall ≠ none)
    (hu : Unfaulted (s.swapOut c.w.uid c.w.wid) c) : False := by
  cases hw : s.warp? c.w.uid c.w.wid with
  | none =>
    have e : s.swapOut c.w.uid c.w.wid = s := by
      unfold State.swapOut
      rw [hw]
      split <;> simp_all
    rw [e] at hu
    obtain ⟨w, hx, -⟩ := hu
    rw [hw] at hx
    contradiction
  | some w =>
    cases hh : w.held with
    | false =>
      have e : s.swapOut c.w.uid c.w.wid = s := by
        unfold State.swapOut
        rw [hw]
        split
        · next hb hx =>
          cases hx
          simp [hh]
        · rfl
      rw [e] at hu
      obtain ⟨x, hx, -, hs, -⟩ := hu
      exact h x hx hs
    | true =>
      have hm : Marked c.w.uid c.w.wid s := by
        intro x hx
        rw [hw] at hx
        cases hx
        exact .inl hh
      exact (hm.swapOut _ _).faulted hu

/-- What a meaning answers keeps the data of the state it runs in. -/
def Res.Keeps (fl : Bool) (s : State) : Res → Prop
  | .done t _ => SameData fl s t
  | .stall t => SameData fl s t
  | .raw t => SameData fl s t
  | .fault _ => True
  | .brk _ => True

/-- What a step of an instruction leaves that takes no fault: its data, or what its meaning has answered, retired. -/
theorem run_cases {fl : Bool} {i : Instr} {s t : State} {c : Ic} {body : Ic → State → Res} (hc : s.issueCtx (common i) = some c)
    (h : run i s body = .next t) (hu : Unfaulted t c) : SameData fl s t ∨
      (∃ y p, body (enteredIc i s c) (enteredState i s c) = .done y p ∧ t = y.retire (enteredIc i s c) i p) ∨
      (∃ y w, body (enteredIc i s c) (enteredState i s c) = .stall y ∧ t = (y.unopened w).stalled (enteredIc i s c)) ∨
      (∃ y, body (enteredIc i s c) (enteredState i s c) = .raw y ∧ t = y.issued) := by
  unfold run at h
  rcases gate_cases (fl := fl) hc with hg | ⟨x, hg, hx⟩
  · rw [hg] at h
    obtain ⟨hw1, hw2, hw⟩ := entered_warp (i := i) hc
    generalize enteredIc i s c = c' at *
    generalize enteredState i s c = s' at *
    have hw' : (s.warp? c'.w.uid c'.w.wid) = some c.w := by rw [hw1, hw2]; exact (issueCtx_warp hc).1
    dsimp only at h
    rw [hw'] at h
    have h0 (m : LaneMask) (f : Nat → Thread → Thread) : SameData fl s (s.setWarp (c.w.modThreads m f)) :=
      SameData.setWarp _ fun w hx => by
        have hx : s.warp? c.w.uid c.w.wid = some w := hx
        rw [(issueCtx_warp hc).1] at hx
        cases hx
        exact ⟨rfl, rfl, rfl, (SameRegs.refl fl c.w).2.2.2⟩
    generalize body c' s' = r at h ⊢
    cases r with
    | done y p => cases h; exact .inr (.inl ⟨y, p, rfl, rfl⟩)
    | stall y => cases h; exact .inr (.inr (.inl ⟨y, _, rfl, rfl⟩))
    | raw y => cases h; exact .inr (.inr (.inr ⟨y, rfl, rfl⟩))
    | fault r =>
      cases h
      exact .inl ((h0 _ _).trans ((SameData.issued _).trans (takeFault_unfaulted ⟨rfl, rfl⟩ hu)))
    | brk r =>
      dsimp only at h
      split at h
      · cases h; exact .inl ((h0 _ _).trans (SameData.stalled _ _))
      · next hn =>
        cases h
        rcases takeFault_cases (s.setWarp (c.w.modThreads c'.bundle fun l x => c'.w.thread l)).issued
            (c.w.modThreads c'.bundle fun l x => c'.w.thread l) r 0 with k | k | k
        · exact absurd (show s.strongBusy _ _ = true from k.1) (by simp only [Bool.or_eq_true, not_or] at hn; exact hn.1)
        · exact (Marked.faulted (k.swapOut _ _) hu).elim
        · exact (swapOut_waiting k hu).elim
  · rw [hg] at h
    cases h
    exact .inl (hx hu)

/-- THE FRAME OF A STEP: where the meaning keeps the data, and no fault is taken, the whole instruction keeps it. -/
theorem run_frame {fl : Bool} {i : Instr} {s t : State} {c : Ic} {body : Ic → State → Res} (hc : s.issueCtx (common i) = some c)
    (hb : Res.Keeps fl (enteredState i s c) (body (enteredIc i s c) (enteredState i s c))) (h : run i s body = .next t)
    (hu : Unfaulted t c) : SameData fl s t := by
  have he := SameData.entered (fl := fl) (i := i) hc
  rcases run_cases (fl := fl) hc h hu with k | ⟨y, p, e, rfl⟩ | ⟨y, w, e, rfl⟩ | ⟨y, e, rfl⟩
  · exact k
  all_goals rw [e] at hb
  · exact he.trans (SameData.trans hb (SameData.retire _ _ _ _))
  · exact he.trans (SameData.trans hb ((SameData.unopened _ _).trans (SameData.stalled _ _)))
  · exact he.trans (SameData.trans hb (SameData.issued _))

end Sys2Proof
end

