-- ==== Sys2Proof/Laws/MemoryFrames.lean ====
section
/-! SUPPORT. What issuing a memory instruction leaves alone: `SameData` through address resolution, loads, stores, strong accesses and
fences. -/

set_option Elab.async false  -- one theorem after another: waiting threads would use up the memory a check is given

namespace Sys2Proof

open Sys2Proof.Machine

theorem SameData.resolve {fl : Bool} (s : State) (b : Block) (l : Look) (a : BitVec 64) : SameData fl s (s.resolve b l a).2 := by
  unfold State.resolve
  dsimp only
  repeat' split
  all_goals first | exact SameData.refl fl s | exact SameData.of_xlat ‹State.xlat _ _ _ _ _ = _›

theorem SameData.resolveLanes {fl : Bool} (s : State) (c : Ic) (f : MemForm) (lk : Look) (ls : List Nat) :
    SameData fl s (s.resolveLanes c f lk ls).2.2 := by
  induction ls generalizing s with
  | nil => exact SameData.refl fl s
  | cons l ls ih =>
    unfold State.resolveLanes
    dsimp only
    have h (r : Except Ordered Target) (y : State) (hy : SameData fl s y) :
        SameData fl s (match r with
          | .ok t => ((l, t) :: (y.resolveLanes c f lk ls).1, (y.resolveLanes c f lk ls).2.1, (y.resolveLanes c f lk ls).2.2)
          | .error e => ((y.resolveLanes c f lk ls).1, (l, e) :: (y.resolveLanes c f lk ls).2.1, (y.resolveLanes c f lk ls).2.2)).2.2 := by
      cases r <;> exact hy.trans (ih y)
    apply h
    split
    · exact SameData.refl fl s
    · exact SameData.resolve _ _ _ _

theorem SameData.constTargets {fl : Bool} (s : State) (c : Ic) (f : MemForm) (ls : List Nat) :
    SameData fl s (s.constTargets c f ls).2.2 := by
  induction ls generalizing s with
  | nil => exact SameData.refl fl s
  | cons l ls ih =>
    unfold State.constTargets
    dsimp only
    have h (r : Except Ordered Target) (y : State) (hy : SameData fl s y) :
        SameData fl s (match r with
          | .ok (.mem x va) => ((l, Target.mem { x with chk := false } va) :: (y.constTargets c f ls).1, (y.constTargets c f ls).2.1, (y.constTargets c f ls).2.2)
          | .ok t => ((l, t) :: (y.constTargets c f ls).1, (y.constTargets c f ls).2.1, (y.constTargets c f ls).2.2)
          | .error e => ((y.constTargets c f ls).1, (l, e) :: (y.constTargets c f ls).2.1, (y.constTargets c f ls).2.2)).2.2 := by
      cases r with
      | error => exact hy.trans (ih y)
      | ok t => cases t <;> exact hy.trans (ih y)
    apply h
    repeat' split
    · exact SameData.refl fl s
    · exact SameData.refl fl s
    · exact SameData.resolve _ _ _ _

/-! ### The L1 -/

theorem SameData.l1Put {fl : Bool} (s : State) (k : Nat) (x : L1Line) : SameData fl s (s.l1Put k x) := SameData.modCore s _ _
theorem SameData.l1Drop {fl : Bool} (s : State) (k c l : Nat) : SameData fl s (s.l1Drop k c l) := SameData.modCore s _ _

theorem SameData.l1Room {fl : Bool} {s t : State} {k c l : Nat} (e : s.l1Room k c l = some t) : SameData fl s t := by
  unfold State.l1Room at e
  split at e
  · cases e; exact SameData.l1Put _ _ _
  · dsimp only at e
    split at e
    · cases e; exact SameData.l1Put _ _ _
    · split at e
      · cases e
      · cases e
        exact ((SameData.writeBack _ _ _ _).trans (SameData.l1Drop _ _ _ _)).trans (SameData.l1Put _ _ _)

theorem SameData.sendCheck {fl : Bool} (s : State) (w : Warp) (a : Access) : SameData fl s (s.sendCheck w a) := by
  unfold State.sendCheck
  refine SameData.trans' ?_ (SameData.send s (.check a w.core))
  exact SameData.touch _ _ _ _ fun _ => ⟨rfl, rfl, rfl, rfl, rfl, rfl⟩

theorem SameData.checkData {fl : Bool} (s : State) (c : Ic) (a : Access) : SameData fl s (s.checkData c a) := by
  unfold State.checkData
  split
  · split
    · exact SameData.refl fl s
    · exact (SameData.sendCheck _ _ _).trans (SameData.l1Mod _ _ _ _ _)
  · exact SameData.refl fl s

theorem SameData.linePage {fl : Bool} (s : State) (c : Ic) (x : Xlat) (va : BitVec 64) (b : Bool := false) :
    SameData fl s (s.linePage c x va b) := by
  unfold State.linePage
  dsimp only
  refine SameData.trans' (SameData.l1Mod _ _ _ _ _) ?_
  split
  · exact SameData.writeBack _ _ _ _
  · exact SameData.refl fl s

theorem SameData.askFill {fl : Bool} (s : State) (a b c d : Nat) (o : List (Nat × Nat)) (x y : Nat) (t : Bool) :
    SameData fl s (s.askFill a b c d o x y t) := by
  unfold State.askFill
  exact ((SameData.send _ _).trans (SameData.forward _ _ _ _ _ _ _)).trans (SameData.l1Mod _ _ _ _ _)

/-! ### Loads -/

theorem SameData.defer {fl : Bool} (s : State) (a b l : Nat) (r : FaultRec) : SameData fl s (s.defer a b l r) := by
  unfold State.defer
  exact SameData.touch _ _ _ _ fun _ => ⟨rfl, rfl, rfl, rfl, rfl, rfl⟩

theorem SameData.pieceReady {fl : Bool} (s : State) (a b : Nat) (p : Piece) (bs : List (Option Byte)) (x : Bool) :
    SameData fl s (s.pieceReady a b p bs x).2 := by
  unfold State.pieceReady
  split
  · exact SameData.defer _ _ _ _ _
  · exact SameData.refl fl s

theorem SameData.joinFill {fl : Bool} (s : State) (i : Nat) (r : List (Nat × Nat)) : SameData fl s (s.joinFill i r) := SameData.of_eq

theorem SameData.loadPiece {fl : Bool} {s t : State} {c : Ic} {x : Xlat} {va : BitVec 64} {p q : Piece} {ref : Nat × Nat}
    (e : s.loadPiece c x va p ref = some (q, t)) : SameData fl s t := by
  unfold State.loadPiece at e
  dsimp only at e
  split at e
  · cases e; exact SameData.of_eq
  · obtain ⟨y, hy, e⟩ := Option.bind_eq_some_iff.mp e
    have h1 := (SameData.l1Room (fl := fl) hy).trans (SameData.linePage y c x va)
    have h2 : SameData fl s (if x.chk = true then (y.linePage c x va).checkData c
        ((y.linePage c x va).accessOf c 0 false p.lane x va p.size) else y.linePage c x va) := by
      split
      · exact h1.trans (SameData.checkData _ _ _)
      · exact h1
    clear h1
    revert e
    generalize (if x.chk = true then (y.linePage c x va).checkData c
        ((y.linePage c x va).accessOf c 0 false p.lane x va p.size) else y.linePage c x va) = z at h2 ⊢
    intro e
    split at e
    · split at e
      · have := Option.some.inj e
        exact h2.trans (by rw [show t = (State.pieceReady ..).2 from (congrArg Prod.snd this).symm]; exact SameData.pieceReady _ _ _ _ _ _)
      · split at e
        · split at e
          · have := Option.some.inj e
            exact h2.trans (by rw [show t = (State.pieceReady ..).2 from (congrArg Prod.snd this).symm]; exact SameData.pieceReady _ _ _ _ _ _)
          · cases e
            exact h2.trans (SameData.joinFill _ _ _)
        · cases e
          exact h2.trans (SameData.askFill _ _ _ _ _ _ _ _ _)
    · cases e

theorem SameData.foldl_pair {fl : Bool} {α β : Type} (f : β × State → α → β × State) (hf : ∀ x y, SameData fl x.2 (f x y).2)
    (l : List α) (x : β × State) : SameData fl x.2 (l.foldl f x).2 := by
  induction l generalizing x with
  | nil => exact SameData.refl fl _
  | cons a t ih => exact (hf x a).trans (ih _)

theorem SameData.wellLoad {fl : Bool} (s : State) (c : Ic) (f : MemForm) (i l o : Nat) : SameData fl s (s.wellLoad c f i l o).2 := by
  unfold State.wellLoad
  apply SameData.foldl_pair (x := ([], s))
  intro x k
  split
  · exact SameData.refl fl _
  · exact SameData.send _ _

theorem SameData.loadLanes {fl : Bool} (s : State) (c : Ic) (f : MemForm) (i : Nat) (ts : List (Nat × Target)) (k : Nat) :
    SameData fl s (s.loadLanes c f i ts k).2 := by
  induction ts generalizing s k with
  | nil => exact SameData.refl fl s
  | cons t ts ih =>
    obtain ⟨l, t⟩ := t
    unfold State.loadLanes
    dsimp only
    split
    · split
      · exact SameData.refl fl s
      · next e => exact (SameData.loadPiece e).trans (ih _ _)
    · exact (SameData.wellLoad _ _ _ _ _ _).trans (ih _ _)

theorem SameData.oweAs {fl : Bool} (s : State) (o : Owed) : SameData fl s (s.oweAs o) := by
  unfold State.oweAs
  refine SameData.trans (b := { s with owed := s.owed ++ [o] }) SameData.of_eq ?_
  exact SameData.touch _ _ _ _ fun _ => ⟨rfl, rfl, rfl, rfl, rfl, rfl⟩

theorem Res.Keeps.mono {fl : Bool} {a b : State} {r : Res} (h : SameData fl a b) (k : Res.Keeps fl b r) : Res.Keeps fl a r := by
  cases r <;> first | trivial | exact SameData.trans h k

theorem keeps_laneFault {fl : Bool} (s : State) (c : Ic) (l : Nat) (a : BitVec 64) (k : Nat) (x : XFault) :
    Res.Keeps fl s (c.laneFault l a k x) := by
  unfold Ic.laneFault
  dsimp only
  split <;> trivial

theorem SameData.servedBy {fl : Bool} (s : State) (a b c : Nat) : SameData fl s (s.servedBy a b c) := by
  unfold State.servedBy
  split
  · exact SameData.modCore _ _ _
  · exact SameData.refl fl s

/-- Threads of a warp are bookkeeping. -/
theorem foldl_modThreads {α : Type} (m : α → LaneMask) (g : α → Nat → Thread → Thread) (l : List α) (w : Warp) :
    ∃ ts, l.foldl (fun (w : Warp) x => w.modThreads (m x) (g x)) w = { w with threads := ts } := by
  induction l generalizing w with
  | nil => exact ⟨w.threads, rfl⟩
  | cons a t ih =>
    obtain ⟨ts, e⟩ := ih (w.modThreads (m a) (g a))
    exact ⟨ts, by rw [List.foldl_cons, e]; rfl⟩

theorem SameData.noteBytes {fl : Bool} (s : State) (c : Ic) (f : MemForm) (b : Bool) (ts : List (Nat × Target)) :
    SameData fl s (s.noteBytes c f b ts) := by
  unfold State.noteBytes
  refine SameData.touch _ _ _ _ fun w => ?_
  dsimp only
  obtain ⟨x, e⟩ := foldl_modThreads (fun x : Nat × Target => c.group f x.1) (fun x _ t =>
    if b then { t with rgStore := t.rgStore ++ (x.2.places c.b (widthBytes f.width)).filter fun a => t.rgLoad.contains a && !t.rgStore.contains a }
    else { t with rgLoad := t.rgLoad ++ (x.2.places c.b (widthBytes f.width)).filter fun a => !t.rgLoad.contains a }) ts w
  rw [e]
  exact ⟨rfl, rfl, rfl, rfl, rfl, rfl⟩

theorem keeps_loadAll {fl : Bool} (s : State) (c : Ic) (f : MemForm) (ts : List (Nat × Target)) :
    Res.Keeps fl s (s.loadAll c f ts) := by
  unfold State.loadAll
  dsimp only
  have h := SameData.loadLanes (fl := fl) { s with nextId := s.nextId + 1 } c f s.nextId ts 0
  have h0 : SameData fl s { s with nextId := s.nextId + 1 } := SameData.of_eq
  split
  · next e => rw [e] at h; exact h0.trans h
  · next e =>
    rw [e] at h
    refine SameData.trans' (SameData.oweAs _ _) (SameData.trans' (SameData.noteBytes _ _ _ _ _) ?_)
    split
    · exact (h0.trans h).trans (SameData.servedBy _ _ _ _)
    · exact h0.trans h

theorem keeps_withTargets {fl : Bool} {s : State} {c : Ic} {f : MemForm} {lk : Look} {acc : Nat}
    {k : List (Nat × Target) → State → Res} (h : ∀ ts s, Res.Keeps fl s (k ts s)) : Res.Keeps fl s (withTargets s c f lk acc k) := by
  unfold withTargets
  dsimp only
  split
  · exact (h _ _).mono (SameData.resolveLanes _ _ _ _ _)
  · exact keeps_laneFault _ _ _ _ _ _

theorem SameData.prefetch {fl : Bool} (s : State) (c : Ic) (x : Xlat) (va : BitVec 64) : SameData fl s (s.prefetch c x va) := by
  unfold State.prefetch
  split
  · exact SameData.refl fl s
  · dsimp only
    split
    · exact SameData.refl fl s
    · next e =>
      refine (SameData.l1Room e).trans ((SameData.linePage _ c x va).trans ?_)
      apply SameData.foldl
      intro s k
      split
      · exact SameData.refl fl s
      · exact SameData.askFill _ _ _ _ _ _ _ _ _

/-! ### Stores -/

theorem SameData.laneOrder {fl : Bool} (s : State) (ts : List (Nat × Target)) : SameData fl s (s.laneOrder ts).2 := by
  unfold State.laneOrder
  dsimp only
  split
  · exact SameData.refl fl s
  · exact SameData.of_eq

theorem SameData.wellStore {fl : Bool} (s : State) (c : Ic) (f : MemForm) (l o v : Nat) : SameData fl s (s.wellStore c f l o v) := by
  unfold State.wellStore
  apply SameData.foldl
  intro s k
  split
  · exact SameData.refl fl s
  · exact SameData.send _ _

theorem Warp.noteDirty_keeps (w : Warp) (l : Nat) : (w.noteDirty l).uid = w.uid ∧ (w.noteDirty l).wid = w.wid ∧
    (w.noteDirty l).vregs = w.vregs ∧ (w.noteDirty l).sregs = w.sregs ∧ (w.noteDirty l).preds = w.preds ∧
      (w.noteDirty l).fflags = w.fflags := by
  unfold Warp.noteDirty
  repeat' split
  all_goals exact ⟨rfl, rfl, rfl, rfl, rfl, rfl⟩

theorem SameData.relsDrop {fl : Bool} (s : State) (p : Option Nat) (k : Nat) (m : BitVec 64) : SameData fl s (s.relsDrop p k m) :=
  SameData.of_eq

theorem SameData.storeLane {fl : Bool} {s t : State} {c : Ic} {f : MemForm} {l : Nat} {x : Target}
    (e : s.storeLane c f l x = some t) : SameData fl s t := by
  unfold State.storeLane at e
  dsimp only at e
  split at e
  · cases e; exact SameData.wellStore _ _ _ _ _ _
  · split at e
    · cases e; exact SameData.of_eq
    · obtain ⟨y, hy, e⟩ := Option.map_eq_some_iff.mp e
      subst e
      refine (SameData.l1Room hy).trans ?_
      have h1 (g : L1Line → L1Line) (x : Xlat) (va : BitVec 64) (n l k : Nat) (p : Option Nat) (m : BitVec 64) : SameData fl y
          ((((y.linePage c x va true).l1Mod c.w.core c.b.ctx n g).relsDrop p k m).modWarp c.w.uid c.w.wid fun w => w.noteDirty l) :=
        (((SameData.linePage y c x va true).trans (SameData.l1Mod _ c.w.core c.b.ctx n g)).trans (SameData.relsDrop _ _ _ _)).trans
          (SameData.touch _ _ _ _ fun w => Warp.noteDirty_keeps w _)
      split
      · exact (h1 _ _ _ _ _ _ _ _).trans (SameData.checkData _ _ _)
      · exact h1 _ _ _ _ _ _ _ _

theorem SameData.storeLanes {fl : Bool} (s : State) (c : Ic) (f : MemForm) (ts : List (Nat × Target)) :
    SameData fl s (s.storeLanes c f ts).2 := by
  induction ts generalizing s with
  | nil => exact SameData.refl fl s
  | cons t ts ih =>
    obtain ⟨l, t⟩ := t
    unfold State.storeLanes
    split
    · exact SameData.refl fl s
    · next e => exact (SameData.storeLane e).trans (ih _)

/-! ### Strong accesses -/

theorem SameData.l1Yield {fl : Bool} (s : State) (a b c : Nat) : SameData fl s (s.l1Yield a b c) := by
  unfold State.l1Yield
  exact SameData.trans ((SameData.writeBack _ _ _ _).trans (SameData.l1Drop _ _ _ _)) SameData.of_eq

theorem SameData.sendStrong {fl : Bool} (s : State) (c : Ic) (f : MemForm) (k : StrongKind) (q : Nat) (o : Option Nat)
    (x : Nat × Target) : SameData fl s (s.sendStrong c f k q o x) := by
  unfold State.sendStrong
  split
  · exact SameData.send _ _
  · exact ((SameData.l1Yield _ _ _ _).trans (SameData.forward _ _ _ _ _ _ _)).trans (SameData.send _ _)

theorem SameData.strongAll {fl : Bool} (s : State) (i : Instr) (c : Ic) (f : MemForm) (k : StrongKind) (ts : List (Nat × Target)) :
    SameData fl s (s.strongAll i c f k ts) := by
  unfold State.strongAll
  dsimp only
  have h1 : SameData fl s (ts.foldl (fun (y : State) t => y.sendStrong c f k s.nextId (if k.returns then some s.nextId else none) t)
      { s with nextId := s.nextId + 1 }) :=
    SameData.trans (b := { s with nextId := s.nextId + 1 }) SameData.of_eq (SameData.foldl _ (fun y t => SameData.sendStrong _ _ _ _ _ _ _) _ _)
  generalize List.foldl _ _ ts = y at h1 ⊢
  have h2 : SameData fl s (if k.returns = true then y.oweAs { id := s.nextId, uid := c.w.uid, wid := c.w.wid, strong := true, lanes := ts.map Prod.fst } else y) := by
    split
    · exact h1.trans (SameData.oweAs _ _)
    · exact h1
  generalize (if k.returns = true then y.oweAs _ else y) = z at h2 ⊢
  have h3 (m : LaneMask) : SameData fl s (z.modWarp c.w.uid c.w.wid fun w => w.modThreads m fun _ t => { t with st := .parked .binding }) :=
    h2.trans (SameData.touch _ _ _ _ fun _ => ⟨rfl, rfl, rfl, rfl, rfl, rfl⟩)
  split
  · exact (h3 _).trans (SameData.touch _ _ _ _ fun _ => ⟨rfl, rfl, rfl, rfl, rfl, rfl⟩)
  · exact h3 _

/-! ### Releases and acquires -/

theorem keeps_withWritten {fl : Bool} {s : State} {c : Ic} {x : Scope} {k : State → Res} (h : ∀ s, Res.Keeps fl s (k s)) :
    Res.Keeps fl s (withWritten s c x k) := by
  unfold withWritten
  split
  · exact SameData.refl fl s
  · split
    · exact SameData.ringImplicit _ _
    · split
      · exact SameData.refl fl s
      · split
        · exact h s
        · next w _ _ _ _ =>
          dsimp only
          have h1 : SameData fl s (if w.flushed = true then s else (s.flushWarp w).modWarp w.uid w.wid fun w => { w with flushed := true }) := by
            split
            · exact SameData.refl fl s
            · exact SameData.trans (SameData.flushWarp _ _) (SameData.touch _ _ _ _ fun _ => ⟨rfl, rfl, rfl, rfl, rfl, rfl⟩)
          generalize (if w.flushed = true then s else _) = y at h1 ⊢
          split
          · exact h1
          · exact (h _).mono h1

theorem keeps_withRelease {fl : Bool} {s : State} {c : Ic} {x : Scope} {k : State → Res} (h : ∀ s, Res.Keeps fl s (k s)) :
    Res.Keeps fl s (withRelease s c x k) := keeps_withWritten fun s => (h _).mono (SameData.releaseNow s _ _ _)

theorem keeps_withRing {fl : Bool} {s : State} {c : Ic} {k : Unit → Res} (h : Res.Keeps fl s (k ())) :
    Res.Keeps fl s (withRing s c k) := by
  unfold withRing
  split
  · exact SameData.refl fl s
  · split
    · exact SameData.ringImplicit _ _
    · exact h

theorem keeps_withBoth {fl : Bool} {s : State} {c : Ic} {x : Scope} {k : State → Res} (h : ∀ s, Res.Keeps fl s (k s)) :
    Res.Keeps fl s (withBoth s c x k) := keeps_withRelease fun s => (h _).mono (SameData.acquire s _ _ _ _)

/-! ### Paired accesses in the L1 -/

theorem SameData.pairedAsk {fl : Bool} (s : State) (c : Ic) (f : MemForm) (k : StrongKind) (b : Bool) (x : Nat × Target) :
    SameData fl s ((s.pairedAsk c f k b x).getD s) := by
  cases e : s.pairedAsk c f k b x with
  | none => exact SameData.refl fl s
  | some t =>
    unfold State.pairedAsk at e
    split at e
    · cases e; exact SameData.refl fl s
    · rename_i z va hz
      dsimp only at e
      obtain ⟨y, hy, e⟩ := Option.map_eq_some_iff.mp e
      subst e
      have h1 := (SameData.l1Room (fl := fl) hy).trans (SameData.linePage y c z (BitVec.ofNat 64 va) k.writes)
      rw [Option.getD_some]
      generalize State.linePage y c z (BitVec.ofNat 64 va) k.writes = v at h1 ⊢
      refine h1.trans ?_
      have h2 (u : State) (hu : SameData fl v u) (p : Prop) [Decidable p] (n : Nat) : SameData fl v (if p then u else
          u.askFill c.w.core c.b.ctx (lineOf z.pa) n [] z.loc va z.tpin) := by
        split
        · exact hu
        · exact hu.trans (SameData.askFill _ _ _ _ _ _ _ _ _)
      cases v.warp? c.w.uid c.w.wid with
      | none => exact h2 _ (SameData.refl fl v) _ _
      | some w =>
        refine h2 _ ?_ _ _
        dsimp only
        split
        · exact SameData.sendCheck _ _ _
        · exact SameData.refl fl v

theorem SameData.pairedAskAll {fl : Bool} (s : State) (c : Ic) (f : MemForm) (k : StrongKind) (b : Bool) (ts : List (Nat × Target)) :
    SameData fl s (s.pairedAskAll c f k b ts) := SameData.foldl _ (fun _ _ => SameData.pairedAsk _ _ _ _ _ _) _ _

theorem SameData.pairedLane {fl : Bool} (s : State) (c : Ic) (f : MemForm) (k : StrongKind) (l : Nat) (y : Xlat) :
    SameData fl s (s.pairedLane c f k l y).2.2 := by
  unfold State.pairedLane
  dsimp only
  split
  · exact SameData.refl fl s
  · dsimp only
    exact (((SameData.l1Mod s c.w.core c.b.ctx (lineOf y.pa) _).trans (SameData.relsDrop _ _ _ _)).trans
      (SameData.touch _ _ _ _ fun w => Warp.noteDirty_keeps w _)).trans SameData.of_eq

theorem SameData.pairedAll {fl : Bool} (s : State) (c : Ic) (f : MemForm) (k : StrongKind) (ts : List (Nat × Target)) :
    SameData fl s (s.pairedAll c f k ts) := by
  unfold State.pairedAll
  dsimp only
  have hf (l : List (Nat × Target)) (x : List (RegSlot × Word) × Nat × State) : SameData fl x.2.2 (l.foldl
      (fun (x : List (RegSlot × Word) × Nat × State) (t : Nat × Target) =>
        match t.2 with
        | .well _ => (x.1, x.2.1, x.2.2.sendStrong c f k s.nextId (if k.returns then some s.nextId else none) t)
        | .mem y _ => (x.1 ++ (x.2.2.pairedLane c f k t.1 y).1, max x.2.1 (x.2.2.pairedLane c f k t.1 y).2.1, (x.2.2.pairedLane c f k t.1 y).2.2)) x).2.2 := by
    induction l generalizing x with
    | nil => exact SameData.refl fl _
    | cons t l ih =>
      obtain ⟨n, t⟩ := t
      cases t
      · exact SameData.trans (SameData.pairedLane _ _ _ _ _ _) (ih _)
      · exact SameData.trans (SameData.sendStrong _ _ _ _ _ _ _) (ih _)
  have h1 := SameData.trans (a := s) (b := { s with nextId := s.nextId + 1 }) SameData.of_eq (hf ts ([], 0, { s with nextId := s.nextId + 1 }))
  clear hf
  generalize List.foldl _ ([], 0, { s with nextId := s.nextId + 1 }) ts = x at h1 ⊢
  generalize (List.filter _ ts).map Prod.fst = away
  have h2 : SameData fl s (if k.returns = true then x.2.2.oweAs { id := s.nextId, uid := c.w.uid, wid := c.w.wid, strong := true, writes := x.1, lanes := away } else x.2.2) := by
    split
    · exact h1.trans (SameData.oweAs _ _)
    · exact h1
  generalize (if k.returns = true then x.2.2.oweAs _ else x.2.2) = z at h2 ⊢
  split
  · exact h2
  · split
    · exact h2.trans (SameData.finishAcq _ _ _ _)
    · exact h2.trans (SameData.touch _ _ _ _ fun _ => ⟨rfl, rfl, rfl, rfl, rfl, rfl⟩)

theorem keeps_pairedNear {fl : Bool} (s : State) (c : Ic) (f : MemForm) (k : StrongKind) (ts : List (Nat × Target)) :
    Res.Keeps fl s (s.pairedNear c f k ts) := by
  unfold State.pairedNear
  split
  · exact SameData.refl fl s
  · next w0 _ =>
    split
    · exact SameData.refl fl s
    · dsimp only
      have h1 : SameData fl s ((s.pairedAskAll c f k (!w0.flushed) ts).modWarp w0.uid w0.wid fun w => { w with flushed := true }) :=
        SameData.trans (SameData.pairedAskAll _ _ _ _ _ _) (SameData.touch _ _ _ _ fun _ => ⟨rfl, rfl, rfl, rfl, rfl, rfl⟩)
      generalize State.modWarp _ w0.uid w0.wid _ = y at h1 ⊢
      split
      · exact h1
      · split
        · exact h1.trans (SameData.touch _ _ _ _ fun _ => ⟨rfl, rfl, rfl, rfl, rfl, rfl⟩)
        · split
          · exact h1
          · split
            · trivial
            · next w _ _ _ _ _ =>
              split
              · exact h1.trans (SameData.touch _ _ _ _ fun _ => ⟨rfl, rfl, rfl, rfl, rfl, rfl⟩)
              have h2 : SameData fl s (if k.release = true then y.releaseNow w.uid w.wid f.scope else y) := by
                split
                · exact h1.trans (SameData.releaseNow _ _ _ _)
                · exact h1
              exact h2.trans ((SameData.laneOrder _ _).trans (SameData.pairedAll _ _ _ _ _))

theorem keeps_paired {fl : Bool} {i : Instr} {f : MemForm} {s t : State} {c : Ic} {k : Ic → StrongKind} (hc : s.issueCtx (common i) = some c)
    (h : paired i f s k = .next t) (hu : Unfaulted t c) : SameData fl s t := by
  refine run_frame hc ?_ h hu
  refine keeps_withTargets fun ts s => ?_
  dsimp only
  generalize enteredIc i _ c = c
  split
  · refine keeps_withWritten fun s => ?_
    split
    · show SameData fl s _
      exact (SameData.laneOrder _ ts).trans (SameData.trans (SameData.strongAll _ i c f (k c) _) SameData.of_eq)
    · exact keeps_pairedNear _ _ _ _ _
  · refine keeps_withRing ?_
    split
    · show SameData fl _ _
      exact (SameData.laneOrder _ ts).trans (SameData.trans (SameData.strongAll _ i c f (k c) _) SameData.of_eq)
    · exact keeps_pairedNear _ _ _ _ _

theorem relaxed_frame {fl : Bool} {i : Instr} {f : MemForm} {s t : State} {c : Ic} {k : Ic → StrongKind} (hc : s.issueCtx (common i) = some c)
    (h : relaxed i f s k = .next t) (hu : Unfaulted t c) : SameData fl s t := by
  refine run_frame hc ?_ h hu
  refine keeps_withTargets fun ts s => ?_
  exact (SameData.laneOrder _ _).trans (SameData.strongAll _ _ _ _ _ _)

end Sys2Proof
end

