-- ==== Sys2Proof/Laws/Bodies.lean ====
section
/-! SUPPORT. The bodies that families of meanings share, each with one lemma that says when it is performed and with what
effect, and the forms in which statements of completion follow from them. -/

set_option Elab.async false  -- one theorem after another: waiting threads would use up the memory a check is given

namespace Sys2Proof

open Sys2Proof.Machine

/-- From a body that answers a next state under a relation, the statement that the instruction follows it. -/
theorem follows_of {i : Instr} {r : Ic → State → State → Prop} (body : Ic → State → Res)
    (he : ∀ s, exec i s = run i s body) (hb : ∀ c s t, r c s t → body c s = .next t) : Follows i r :=
  fun s _ _ h hok => (he s).trans (run_next h (hb _ _ _ hok))

/-- As `follows_of` for instructions that end with PCs of their own, or have left the warp already. -/
theorem ends_of {i : Instr} {r : Ic → State → State → Prop} (body : Ic → State → Res)
    (he : ∀ s, exec i s = run i s body)
    (hb : ∀ c s t, r c s t → (∃ u p, body c s = .done u p ∧ t = u.retire c i p)
      ∨ (∃ u, body c s = .raw u ∧ t = u.issued)) : Ends i r := by
  intro s c t h hok
  rw [he s]
  rcases hb _ _ _ hok with ⟨u, p, h1, h2⟩ | ⟨u, h1, h2⟩ <;> simp [run, gate_of_issuable h, h1, h2]

/-- As `follows_of` for an instruction that begins and waits. -/
theorem begins_of {i : Instr} {r : Ic → State → State → Prop} (body : Ic → State → Res)
    (he : ∀ s, exec i s = run i s body) (hb : ∀ c s t, r c s t → body c s = .stall t) : Begins i r := by
  intro s c t h hok
  have hw := (issueCtx_warp h.ctx).1
  have hc : (enteredIc i s c).w.uid = c.w.uid ∧ (enteredIc i s c).w.wid = c.w.wid :=
    ⟨(entered_warp h.ctx).1, (entered_warp h.ctx).2.1⟩
  have e : run i s body = .next ((t.unopened (((s.warp? (enteredIc i s c).w.uid (enteredIc i s c).w.wid).getD
      (enteredIc i s c).w).modThreads (enteredIc i s c).bundle fun l _ => (enteredIc i s c).w.thread l)).stalled
      (enteredIc i s c)) := by
    simp only [run, gate_of_issuable h, hb _ _ _ hok]
  rw [he s, e, hc.1, hc.2, hw]
  rfl

/-- As `follows_of` for an instruction that takes a fault. -/
theorem faults_of {i : Instr} {r : Ic → State → FaultRec → Prop} (body : Ic → State → Res)
    (he : ∀ s, exec i s = run i s body) (hb : ∀ c s x, r c s x → body c s = .fault x) : Faults i r := by
  intro s c x h hok
  have hw := (issueCtx_warp h.ctx).1
  have hc : (enteredIc i s c).w.uid = c.w.uid ∧ (enteredIc i s c).w.wid = c.w.wid :=
    ⟨(entered_warp h.ctx).1, (entered_warp h.ctx).2.1⟩
  have hm : (enteredIc i s c).bundle = c.bundle := rfl
  dsimp only
  rw [he s]
  simp only [run, gate_of_issuable h, hb _ _ _ hok, hc.1, hc.2, hw, hm, Option.getD_some]

/-- An event that is enabled happens. -/
theorem happens_of {i : Instr} {s t : State} {r : Option State} (he : exec i s = happens s r) (h : r = some t) :
    Happens i s t := by
  unfold Happens
  rw [he, h]
  rfl

/-- A memory instruction whose lanes are all in reach goes on with their targets (R213). -/
theorem withTargets_ok {s t : State} {c : Ic} {f : MemForm} {lk : Look} {acc : Nat} {k : List (Nat × Target) → State → Res}
    {ts : List (Nat × Target)} (h : s.resolveLanes c f lk (workLanes f.c.u c.active) = (ts, [], t)) :
    withTargets s c f lk acc k = k ts t := by
  unfold withTargets
  rw [h]
  rfl

/-- Every row of a tile instruction is a row (R280). -/
theorem rows_ok {c : Ic} {f : RegForm} (h : ((lanesOf c.active).all fun l => decide (rowOf c f l < 64)) = true) :
    rowsBad c f = false := by
  unfold rowsBad
  simp at h ⊢
  exact h

/-- A tile instruction is performed once no matrix operation uses its registers (R261). -/
theorem tile_of {i : Instr} {accs tiles : List Nat} {body : Ic → State → Res} {ok : Ic → State → Bool}
    {eff : Ic → State → State} (he : ∀ s, exec i s = tileInstr i s accs tiles body)
    (hb : ∀ c s, ok c s = true → s.matBusy c accs tiles = false ∧ body c s = .next (eff c s)) : Performs i ok eff := by
  refine performs_of _ (fun s => (he s).trans rfl) fun c s h => ?_
  obtain ⟨h1, h2⟩ := hb c s h
  simp [h1, h2]

/-- A stream instruction is performed on streams of the present length that are not correlated (R287, R291). -/
theorem stream_of {i : Instr} {ops : List (BitVec 8)} {pairs : List (BitVec 8 × BitVec 8)} {ill : Ic → Bool}
    {body : Ic → State → Block → State} {ok : Ic → State → Bool} {eff : Ic → State → State}
    (he : ∀ s, exec i s = streamInstr i s ops pairs ill body)
    (hb : ∀ c s, ok c s = true → ill c = false ∧ ops.all (lenGood (s.blockOf c)) = true ∧
      (pairs.any fun p => correlated (s.blockOf c) p.1 p.2) = false ∧ body c s (s.blockOf c) = eff c s) : Performs i ok eff := by
  refine performs_of _ (fun s => (he s).trans rfl) fun c s h => ?_
  obtain ⟨h1, h2, h3, h4⟩ := hb c s h
  simp [h1, h2, h3, h4]

/-- A command whose checks all pass is issued (R237). -/
theorem startCommand_of {s : State} {c : Ic} {i : Instr} {token : Nat} {args : List Nat} {checks : List (Option FaultRec)}
    (h : ∀ x ∈ checks, x = none) : s.startCommand c i token args checks = .next (s.issueCommand c i (some token) args).2 := by
  have hn : checks.findSome? id = none := List.findSome?_eq_none_iff.mpr fun x hx => h x hx
  unfold State.startCommand firstBad
  rw [hn]

/-- As `startCommand_of` for a command that walks a box (R415). -/
theorem startBox_of {s : State} {c : Ic} {i : Instr} {token : Nat} {args : List Nat} {checks : List (Option FaultRec)}
    (h : ∀ x ∈ checks, x = none) :
    s.startBox c i token args checks =
      .next ((s.issueCommand c i (some token) args).2.quillAhead (s.issueCommand c i (some token) args).1) := by
  have hn : checks.findSome? id = none := List.findSome?_eq_none_iff.mpr fun x hx => h x hx
  unfold State.startBox firstBad
  rw [hn]

/-- A command whose record is aligned and in reach goes on with what stands in it (R237, R238). -/
theorem withRecord_ok {s t : State} {c : Ic} {i : Instr} {a : BitVec 64} {n : Nat} {bs : List Byte} {k : Nat → State → Res}
    (h : a.toNat % 64 = 0) (hr : s.engRead (s.newEngine c i) (engineUnits c.w.core) a.toNat n = (.ok bs, t)) :
    withRecord s c i a n k = k (natOfBytes bs) t := by
  unfold withRecord
  rw [if_neg (by omega), hr]

/-! ### Frames of shared operations -/

/-- Fetching a line changes what the core knows of translations and lines, and no storage (R56). -/
theorem SameData.fetchLine {fl : Bool} (s : State) (w : Warp) (line : Nat) (flip : BitVec 512) (b : Bool) :
    SameData fl s (s.fetchLine w line flip b).2 := by
  unfold State.fetchLine
  dsimp only
  split
  · split
    · exact SameData.of_xlat ‹State.xlat _ _ _ _ _ = _›
    · have h := SameData.of_xlat (fl := fl) ‹State.xlat _ _ _ _ _ = _›
      split
      · exact h
      · split
        · exact h
        · refine SameData.trans' (SameData.forward _ _ _ _ _ _ _) (h.trans ?_)
          split
          · exact SameData.of_eq
          · exact SameData.refl fl _
  · exact SameData.refl fl s
  · exact SameData.refl fl s

/-- The landing lines of a control transfer are fetched; no storage changes (R58, R174). -/
theorem SameData.landings {fl : Bool} (s : State) (w : Warp) (ts : List (Nat × BitVec 64)) :
    SameData fl s (s.landings w ts).2 := by
  induction ts generalizing s with
  | nil => exact SameData.refl fl s
  | cons t ts ih =>
    obtain ⟨l, t⟩ := t
    unfold State.landings
    dsimp only
    split
    · exact ih _
    · exact (SameData.fetchLine _ _ _ _ _).trans (ih _)

/-- Blocks after a change of one block. -/
theorem block?_modBlock {s : State} {u : Nat} {f : Block → Block} (h : ∀ b, (f b).uid = b.uid) (v : Nat) :
    (s.modBlock u f).block? v = (s.block? v).map fun b => if b.uid == u then f b else b :=
  find?_replaceIf _ _ _ (fun b => by rw [h b]) _

/-- Writing other vector elements leaves an element as it was (R26). -/
theorem vget_puts (w : Warp) (hw : cwf w.vregs = true) (ws : List (RegSlot × Word)) (r l : Nat) (hl : l < 32)
    (h : ∀ x ∈ ws, ∃ a b, x.1 = .vec a b ∧ b < 32 ∧ ¬ (a = r ∧ b = l)) :
    (w.puts ws).vget r l = w.vget r l ∧ cwf (w.puts ws).vregs = true := by
  unfold Warp.puts
  induction ws generalizing w with
  | nil => exact ⟨rfl, hw⟩
  | cons x t ih =>
    obtain ⟨a, b, e, hb, hne⟩ := h x List.mem_cons_self
    rw [List.foldl_cons]
    have hput : w.put x.1 x.2 = w.vset a b x.2 := by rw [e]; rfl
    rw [hput]
    have h1 : cwf (w.vset a b x.2).vregs = true := cwf_cset hw _ _
    have := ih (w.vset a b x.2) h1 fun x hx => h x (List.mem_cons_of_mem _ hx)
    refine ⟨this.1.trans ?_, this.2⟩
    unfold Warp.vget Warp.vset
    dsimp only
    rw [cget_cset hw, if_neg]
    omega

/-- Writing vector elements changes no other register and no flag. -/
theorem puts_vec_other (w : Warp) (ws : List (RegSlot × Word)) (hv : ∀ x ∈ ws, ∃ a b, x.1 = .vec a b) :
    (w.puts ws).sregs = w.sregs ∧ (w.puts ws).preds = w.preds ∧ (w.puts ws).fflags = w.fflags ∧
      (w.puts ws).uid = w.uid ∧ (w.puts ws).wid = w.wid := by
  unfold Warp.puts
  induction ws generalizing w with
  | nil => exact ⟨rfl, rfl, rfl, rfl, rfl⟩
  | cons x t ih =>
    obtain ⟨a, b, ex⟩ := hv x List.mem_cons_self
    have := ih (w.put x.1 x.2) fun x hx => hv x (List.mem_cons_of_mem _ hx)
    rw [ex] at this
    rw [List.foldl_cons, ex]
    exact this

/-- A lane of a mask is one of its lanes. -/
theorem mem_lanesOf {m : LaneMask} {l : Nat} : l ∈ lanesOf m ↔ l < 32 ∧ m.getLsbD l = true := by
  unfold lanesOf lanes
  simp [List.mem_filter]

end Sys2Proof
end

