-- ==== Sys2Proof/Laws/Encoding.lean ====
section
/-! SUPPORT. Laws of the encoding: every field of an encoded word reads back, each form decodes to what was encoded, and a word is
made of its fields. -/

set_option Elab.async false  -- one theorem after another: waiting threads would use up the memory a check is given

namespace Sys2Proof
open BitVec

theorem field_reg_common (op : Nat × Nat) (f : RegForm) : (encodeReg op f).extractLsb' 80 16 = commonBits f.c op := by
  change BitVec.extractLsb' (n := 16+8+8+8+8+2+2+2+2+5+3+32) 80 16 (commonBits f.c op ++ f.d ++ f.a ++ f.b ++ f.e ++ f.dc.code ++ f.ac.code ++ f.bc.code ++ f.ec.code ++ f.ty.code ++ f.sub ++ f.imm) = _
  rw [extractLsb'_append_eq_of_le (by decide), extractLsb'_append_eq_of_le (by decide), extractLsb'_append_eq_of_le (by decide), extractLsb'_append_eq_of_le (by decide), extractLsb'_append_eq_of_le (by decide), extractLsb'_append_eq_of_le (by decide), extractLsb'_append_eq_of_le (by decide), extractLsb'_append_eq_of_le (by decide), extractLsb'_append_eq_of_le (by decide), extractLsb'_append_eq_of_le (by decide), extractLsb'_append_eq_of_le (by decide)]
  exact extractLsb'_eq_self

theorem field_reg_d (op : Nat × Nat) (f : RegForm) : (encodeReg op f).extractLsb' 72 8 = f.d := by
  change BitVec.extractLsb' (n := 16+8+8+8+8+2+2+2+2+5+3+32) 72 8 (commonBits f.c op ++ f.d ++ f.a ++ f.b ++ f.e ++ f.dc.code ++ f.ac.code ++ f.bc.code ++ f.ec.code ++ f.ty.code ++ f.sub ++ f.imm) = _
  rw [extractLsb'_append_eq_of_le (by decide), extractLsb'_append_eq_of_le (by decide), extractLsb'_append_eq_of_le (by decide), extractLsb'_append_eq_of_le (by decide), extractLsb'_append_eq_of_le (by decide), extractLsb'_append_eq_of_le (by decide), extractLsb'_append_eq_of_le (by decide), extractLsb'_append_eq_of_le (by decide), extractLsb'_append_eq_of_le (by decide), extractLsb'_append_eq_of_le (by decide)]
  exact extractLsb'_append_eq_right

theorem field_reg_a (op : Nat × Nat) (f : RegForm) : (encodeReg op f).extractLsb' 64 8 = f.a := by
  change BitVec.extractLsb' (n := 16+8+8+8+8+2+2+2+2+5+3+32) 64 8 (commonBits f.c op ++ f.d ++ f.a ++ f.b ++ f.e ++ f.dc.code ++ f.ac.code ++ f.bc.code ++ f.ec.code ++ f.ty.code ++ f.sub ++ f.imm) = _
  rw [extractLsb'_append_eq_of_le (by decide), extractLsb'_append_eq_of_le (by decide), extractLsb'_append_eq_of_le (by decide), extractLsb'_append_eq_of_le (by decide), extractLsb'_append_eq_of_le (by decide), extractLsb'_append_eq_of_le (by decide), extractLsb'_append_eq_of_le (by decide), extractLsb'_append_eq_of_le (by decide), extractLsb'_append_eq_of_le (by decide)]
  exact extractLsb'_append_eq_right

theorem field_reg_b (op : Nat × Nat) (f : RegForm) : (encodeReg op f).extractLsb' 56 8 = f.b := by
  change BitVec.extractLsb' (n := 16+8+8+8+8+2+2+2+2+5+3+32) 56 8 (commonBits f.c op ++ f.d ++ f.a ++ f.b ++ f.e ++ f.dc.code ++ f.ac.code ++ f.bc.code ++ f.ec.code ++ f.ty.code ++ f.sub ++ f.imm) = _
  rw [extractLsb'_append_eq_of_le (by decide), extractLsb'_append_eq_of_le (by decide), extractLsb'_append_eq_of_le (by decide), extractLsb'_append_eq_of_le (by decide), extractLsb'_append_eq_of_le (by decide), extractLsb'_append_eq_of_le (by decide), extractLsb'_append_eq_of_le (by decide), extractLsb'_append_eq_of_le (by decide)]
  exact extractLsb'_append_eq_right

theorem field_reg_e (op : Nat × Nat) (f : RegForm) : (encodeReg op f).extractLsb' 48 8 = f.e := by
  change BitVec.extractLsb' (n := 16+8+8+8+8+2+2+2+2+5+3+32) 48 8 (commonBits f.c op ++ f.d ++ f.a ++ f.b ++ f.e ++ f.dc.code ++ f.ac.code ++ f.bc.code ++ f.ec.code ++ f.ty.code ++ f.sub ++ f.imm) = _
  rw [extractLsb'_append_eq_of_le (by decide), extractLsb'_append_eq_of_le (by decide), extractLsb'_append_eq_of_le (by decide), extractLsb'_append_eq_of_le (by decide), extractLsb'_append_eq_of_le (by decide), extractLsb'_append_eq_of_le (by decide), extractLsb'_append_eq_of_le (by decide)]
  exact extractLsb'_append_eq_right

theorem field_reg_dc (op : Nat × Nat) (f : RegForm) : (encodeReg op f).extractLsb' 46 2 = f.dc.code := by
  change BitVec.extractLsb' (n := 16+8+8+8+8+2+2+2+2+5+3+32) 46 2 (commonBits f.c op ++ f.d ++ f.a ++ f.b ++ f.e ++ f.dc.code ++ f.ac.code ++ f.bc.code ++ f.ec.code ++ f.ty.code ++ f.sub ++ f.imm) = _
  rw [extractLsb'_append_eq_of_le (by decide), extractLsb'_append_eq_of_le (by decide), extractLsb'_append_eq_of_le (by decide), extractLsb'_append_eq_of_le (by decide), extractLsb'_append_eq_of_le (by decide), extractLsb'_append_eq_of_le (by decide)]
  exact extractLsb'_append_eq_right

theorem field_reg_ac (op : Nat × Nat) (f : RegForm) : (encodeReg op f).extractLsb' 44 2 = f.ac.code := by
  change BitVec.extractLsb' (n := 16+8+8+8+8+2+2+2+2+5+3+32) 44 2 (commonBits f.c op ++ f.d ++ f.a ++ f.b ++ f.e ++ f.dc.code ++ f.ac.code ++ f.bc.code ++ f.ec.code ++ f.ty.code ++ f.sub ++ f.imm) = _
  rw [extractLsb'_append_eq_of_le (by decide), extractLsb'_append_eq_of_le (by decide), extractLsb'_append_eq_of_le (by decide), extractLsb'_append_eq_of_le (by decide), extractLsb'_append_eq_of_le (by decide)]
  exact extractLsb'_append_eq_right

theorem field_reg_bc (op : Nat × Nat) (f : RegForm) : (encodeReg op f).extractLsb' 42 2 = f.bc.code := by
  change BitVec.extractLsb' (n := 16+8+8+8+8+2+2+2+2+5+3+32) 42 2 (commonBits f.c op ++ f.d ++ f.a ++ f.b ++ f.e ++ f.dc.code ++ f.ac.code ++ f.bc.code ++ f.ec.code ++ f.ty.code ++ f.sub ++ f.imm) = _
  rw [extractLsb'_append_eq_of_le (by decide), extractLsb'_append_eq_of_le (by decide), extractLsb'_append_eq_of_le (by decide), extractLsb'_append_eq_of_le (by decide)]
  exact extractLsb'_append_eq_right

theorem field_reg_ec (op : Nat × Nat) (f : RegForm) : (encodeReg op f).extractLsb' 40 2 = f.ec.code := by
  change BitVec.extractLsb' (n := 16+8+8+8+8+2+2+2+2+5+3+32) 40 2 (commonBits f.c op ++ f.d ++ f.a ++ f.b ++ f.e ++ f.dc.code ++ f.ac.code ++ f.bc.code ++ f.ec.code ++ f.ty.code ++ f.sub ++ f.imm) = _
  rw [extractLsb'_append_eq_of_le (by decide), extractLsb'_append_eq_of_le (by decide), extractLsb'_append_eq_of_le (by decide)]
  exact extractLsb'_append_eq_right

theorem field_reg_ty (op : Nat × Nat) (f : RegForm) : (encodeReg op f).extractLsb' 35 5 = f.ty.code := by
  change BitVec.extractLsb' (n := 16+8+8+8+8+2+2+2+2+5+3+32) 35 5 (commonBits f.c op ++ f.d ++ f.a ++ f.b ++ f.e ++ f.dc.code ++ f.ac.code ++ f.bc.code ++ f.ec.code ++ f.ty.code ++ f.sub ++ f.imm) = _
  rw [extractLsb'_append_eq_of_le (by decide), extractLsb'_append_eq_of_le (by decide)]
  exact extractLsb'_append_eq_right

theorem field_reg_sub (op : Nat × Nat) (f : RegForm) : (encodeReg op f).extractLsb' 32 3 = f.sub := by
  change BitVec.extractLsb' (n := 16+8+8+8+8+2+2+2+2+5+3+32) 32 3 (commonBits f.c op ++ f.d ++ f.a ++ f.b ++ f.e ++ f.dc.code ++ f.ac.code ++ f.bc.code ++ f.ec.code ++ f.ty.code ++ f.sub ++ f.imm) = _
  rw [extractLsb'_append_eq_of_le (by decide)]
  exact extractLsb'_append_eq_right

theorem field_reg_imm (op : Nat × Nat) (f : RegForm) : (encodeReg op f).extractLsb' 0 32 = f.imm := by
  change BitVec.extractLsb' (n := 16+8+8+8+8+2+2+2+2+5+3+32) 0 32 (commonBits f.c op ++ f.d ++ f.a ++ f.b ++ f.e ++ f.dc.code ++ f.ac.code ++ f.bc.code ++ f.ec.code ++ f.ty.code ++ f.sub ++ f.imm) = _
  exact extractLsb'_append_eq_right

theorem field_mem_common (op : Nat × Nat) (f : MemForm) : (encodeMem op f).extractLsb' 80 16 = commonBits f.c op := by
  change BitVec.extractLsb' (n := 16+8+8+8+8+1+1+1+1+4+3+2+3+32) 80 16 (commonBits f.c op ++ f.d ++ f.base ++ f.data ++ f.cmp ++ BitVec.ofBool false ++ BitVec.ofBool f.duni ++ BitVec.ofBool false ++ BitVec.ofBool f.buni ++ f.width.code ++ f.scope.code ++ f.space.code ++ f.aop ++ f.offset) = _
  rw [extractLsb'_append_eq_of_le (by decide), extractLsb'_append_eq_of_le (by decide), extractLsb'_append_eq_of_le (by decide), extractLsb'_append_eq_of_le (by decide), extractLsb'_append_eq_of_le (by decide), extractLsb'_append_eq_of_le (by decide), extractLsb'_append_eq_of_le (by decide), extractLsb'_append_eq_of_le (by decide), extractLsb'_append_eq_of_le (by decide), extractLsb'_append_eq_of_le (by decide), extractLsb'_append_eq_of_le (by decide), extractLsb'_append_eq_of_le (by decide), extractLsb'_append_eq_of_le (by decide)]
  exact extractLsb'_eq_self

theorem field_mem_d (op : Nat × Nat) (f : MemForm) : (encodeMem op f).extractLsb' 72 8 = f.d := by
  change BitVec.extractLsb' (n := 16+8+8+8+8+1+1+1+1+4+3+2+3+32) 72 8 (commonBits f.c op ++ f.d ++ f.base ++ f.data ++ f.cmp ++ BitVec.ofBool false ++ BitVec.ofBool f.duni ++ BitVec.ofBool false ++ BitVec.ofBool f.buni ++ f.width.code ++ f.scope.code ++ f.space.code ++ f.aop ++ f.offset) = _
  rw [extractLsb'_append_eq_of_le (by decide), extractLsb'_append_eq_of_le (by decide), extractLsb'_append_eq_of_le (by decide), extractLsb'_append_eq_of_le (by decide), extractLsb'_append_eq_of_le (by decide), extractLsb'_append_eq_of_le (by decide), extractLsb'_append_eq_of_le (by decide), extractLsb'_append_eq_of_le (by decide), extractLsb'_append_eq_of_le (by decide), extractLsb'_append_eq_of_le (by decide), extractLsb'_append_eq_of_le (by decide), extractLsb'_append_eq_of_le (by decide)]
  exact extractLsb'_append_eq_right

theorem field_mem_base (op : Nat × Nat) (f : MemForm) : (encodeMem op f).extractLsb' 64 8 = f.base := by
  change BitVec.extractLsb' (n := 16+8+8+8+8+1+1+1+1+4+3+2+3+32) 64 8 (commonBits f.c op ++ f.d ++ f.base ++ f.data ++ f.cmp ++ BitVec.ofBool false ++ BitVec.ofBool f.duni ++ BitVec.ofBool false ++ BitVec.ofBool f.buni ++ f.width.code ++ f.scope.code ++ f.space.code ++ f.aop ++ f.offset) = _
  rw [extractLsb'_append_eq_of_le (by decide), extractLsb'_append_eq_of_le (by decide), extractLsb'_append_eq_of_le (by decide), extractLsb'_append_eq_of_le (by decide), extractLsb'_append_eq_of_le (by decide), extractLsb'_append_eq_of_le (by decide), extractLsb'_append_eq_of_le (by decide), extractLsb'_append_eq_of_le (by decide), extractLsb'_append_eq_of_le (by decide), extractLsb'_append_eq_of_le (by decide), extractLsb'_append_eq_of_le (by decide)]
  exact extractLsb'_append_eq_right

theorem field_mem_data (op : Nat × Nat) (f : MemForm) : (encodeMem op f).extractLsb' 56 8 = f.data := by
  change BitVec.extractLsb' (n := 16+8+8+8+8+1+1+1+1+4+3+2+3+32) 56 8 (commonBits f.c op ++ f.d ++ f.base ++ f.data ++ f.cmp ++ BitVec.ofBool false ++ BitVec.ofBool f.duni ++ BitVec.ofBool false ++ BitVec.ofBool f.buni ++ f.width.code ++ f.scope.code ++ f.space.code ++ f.aop ++ f.offset) = _
  rw [extractLsb'_append_eq_of_le (by decide), extractLsb'_append_eq_of_le (by decide), extractLsb'_append_eq_of_le (by decide), extractLsb'_append_eq_of_le (by decide), extractLsb'_append_eq_of_le (by decide), extractLsb'_append_eq_of_le (by decide), extractLsb'_append_eq_of_le (by decide), extractLsb'_append_eq_of_le (by decide), extractLsb'_append_eq_of_le (by decide), extractLsb'_append_eq_of_le (by decide)]
  exact extractLsb'_append_eq_right

theorem field_mem_cmp (op : Nat × Nat) (f : MemForm) : (encodeMem op f).extractLsb' 48 8 = f.cmp := by
  change BitVec.extractLsb' (n := 16+8+8+8+8+1+1+1+1+4+3+2+3+32) 48 8 (commonBits f.c op ++ f.d ++ f.base ++ f.data ++ f.cmp ++ BitVec.ofBool false ++ BitVec.ofBool f.duni ++ BitVec.ofBool false ++ BitVec.ofBool f.buni ++ f.width.code ++ f.scope.code ++ f.space.code ++ f.aop ++ f.offset) = _
  rw [extractLsb'_append_eq_of_le (by decide), extractLsb'_append_eq_of_le (by decide), extractLsb'_append_eq_of_le (by decide), extractLsb'_append_eq_of_le (by decide), extractLsb'_append_eq_of_le (by decide), extractLsb'_append_eq_of_le (by decide), extractLsb'_append_eq_of_le (by decide), extractLsb'_append_eq_of_le (by decide), extractLsb'_append_eq_of_le (by decide)]
  exact extractLsb'_append_eq_right

theorem field_mem_bit47 (op : Nat × Nat) (f : MemForm) : (encodeMem op f).extractLsb' 47 1 = BitVec.ofBool false := by
  change BitVec.extractLsb' (n := 16+8+8+8+8+1+1+1+1+4+3+2+3+32) 47 1 (commonBits f.c op ++ f.d ++ f.base ++ f.data ++ f.cmp ++ BitVec.ofBool false ++ BitVec.ofBool f.duni ++ BitVec.ofBool false ++ BitVec.ofBool f.buni ++ f.width.code ++ f.scope.code ++ f.space.code ++ f.aop ++ f.offset) = _
  rw [extractLsb'_append_eq_of_le (by decide), extractLsb'_append_eq_of_le (by decide), extractLsb'_append_eq_of_le (by decide), extractLsb'_append_eq_of_le (by decide), extractLsb'_append_eq_of_le (by decide), extractLsb'_append_eq_of_le (by decide), extractLsb'_append_eq_of_le (by decide), extractLsb'_append_eq_of_le (by decide)]
  exact extractLsb'_append_eq_right

theorem field_mem_duni (op : Nat × Nat) (f : MemForm) : (encodeMem op f).extractLsb' 46 1 = BitVec.ofBool f.duni := by
  change BitVec.extractLsb' (n := 16+8+8+8+8+1+1+1+1+4+3+2+3+32) 46 1 (commonBits f.c op ++ f.d ++ f.base ++ f.data ++ f.cmp ++ BitVec.ofBool false ++ BitVec.ofBool f.duni ++ BitVec.ofBool false ++ BitVec.ofBool f.buni ++ f.width.code ++ f.scope.code ++ f.space.code ++ f.aop ++ f.offset) = _
  rw [extractLsb'_append_eq_of_le (by decide), extractLsb'_append_eq_of_le (by decide), extractLsb'_append_eq_of_le (by decide), extractLsb'_append_eq_of_le (by decide), extractLsb'_append_eq_of_le (by decide), extractLsb'_append_eq_of_le (by decide), extractLsb'_append_eq_of_le (by decide)]
  exact extractLsb'_append_eq_right

theorem field_mem_bit45 (op : Nat × Nat) (f : MemForm) : (encodeMem op f).extractLsb' 45 1 = BitVec.ofBool false := by
  change BitVec.extractLsb' (n := 16+8+8+8+8+1+1+1+1+4+3+2+3+32) 45 1 (commonBits f.c op ++ f.d ++ f.base ++ f.data ++ f.cmp ++ BitVec.ofBool false ++ BitVec.ofBool f.duni ++ BitVec.ofBool false ++ BitVec.ofBool f.buni ++ f.width.code ++ f.scope.code ++ f.space.code ++ f.aop ++ f.offset) = _
  rw [extractLsb'_append_eq_of_le (by decide), extractLsb'_append_eq_of_le (by decide), extractLsb'_append_eq_of_le (by decide), extractLsb'_append_eq_of_le (by decide), extractLsb'_append_eq_of_le (by decide), extractLsb'_append_eq_of_le (by decide)]
  exact extractLsb'_append_eq_right

theorem field_mem_buni (op : Nat × Nat) (f : MemForm) : (encodeMem op f).extractLsb' 44 1 = BitVec.ofBool f.buni := by
  change BitVec.extractLsb' (n := 16+8+8+8+8+1+1+1+1+4+3+2+3+32) 44 1 (commonBits f.c op ++ f.d ++ f.base ++ f.data ++ f.cmp ++ BitVec.ofBool false ++ BitVec.ofBool f.duni ++ BitVec.ofBool false ++ BitVec.ofBool f.buni ++ f.width.code ++ f.scope.code ++ f.space.code ++ f.aop ++ f.offset) = _
  rw [extractLsb'_append_eq_of_le (by decide), extractLsb'_append_eq_of_le (by decide), extractLsb'_append_eq_of_le (by decide), extractLsb'_append_eq_of_le (by decide), extractLsb'_append_eq_of_le (by decide)]
  exact extractLsb'_append_eq_right

theorem field_mem_width (op : Nat × Nat) (f : MemForm) : (encodeMem op f).extractLsb' 40 4 = f.width.code := by
  change BitVec.extractLsb' (n := 16+8+8+8+8+1+1+1+1+4+3+2+3+32) 40 4 (commonBits f.c op ++ f.d ++ f.base ++ f.data ++ f.cmp ++ BitVec.ofBool false ++ BitVec.ofBool f.duni ++ BitVec.ofBool false ++ BitVec.ofBool f.buni ++ f.width.code ++ f.scope.code ++ f.space.code ++ f.aop ++ f.offset) = _
  rw [extractLsb'_append_eq_of_le (by decide), extractLsb'_append_eq_of_le (by decide), extractLsb'_append_eq_of_le (by decide), extractLsb'_append_eq_of_le (by decide)]
  exact extractLsb'_append_eq_right

theorem field_mem_scope (op : Nat × Nat) (f : MemForm) : (encodeMem op f).extractLsb' 37 3 = f.scope.code := by
  change BitVec.extractLsb' (n := 16+8+8+8+8+1+1+1+1+4+3+2+3+32) 37 3 (commonBits f.c op ++ f.d ++ f.base ++ f.data ++ f.cmp ++ BitVec.ofBool false ++ BitVec.ofBool f.duni ++ BitVec.ofBool false ++ BitVec.ofBool f.buni ++ f.width.code ++ f.scope.code ++ f.space.code ++ f.aop ++ f.offset) = _
  rw [extractLsb'_append_eq_of_le (by decide), extractLsb'_append_eq_of_le (by decide), extractLsb'_append_eq_of_le (by decide)]
  exact extractLsb'_append_eq_right

theorem field_mem_space (op : Nat × Nat) (f : MemForm) : (encodeMem op f).extractLsb' 35 2 = f.space.code := by
  change BitVec.extractLsb' (n := 16+8+8+8+8+1+1+1+1+4+3+2+3+32) 35 2 (commonBits f.c op ++ f.d ++ f.base ++ f.data ++ f.cmp ++ BitVec.ofBool false ++ BitVec.ofBool f.duni ++ BitVec.ofBool false ++ BitVec.ofBool f.buni ++ f.width.code ++ f.scope.code ++ f.space.code ++ f.aop ++ f.offset) = _
  rw [extractLsb'_append_eq_of_le (by decide), extractLsb'_append_eq_of_le (by decide)]
  exact extractLsb'_append_eq_right

theorem field_mem_aop (op : Nat × Nat) (f : MemForm) : (encodeMem op f).extractLsb' 32 3 = f.aop := by
  change BitVec.extractLsb' (n := 16+8+8+8+8+1+1+1+1+4+3+2+3+32) 32 3 (commonBits f.c op ++ f.d ++ f.base ++ f.data ++ f.cmp ++ BitVec.ofBool false ++ BitVec.ofBool f.duni ++ BitVec.ofBool false ++ BitVec.ofBool f.buni ++ f.width.code ++ f.scope.code ++ f.space.code ++ f.aop ++ f.offset) = _
  rw [extractLsb'_append_eq_of_le (by decide)]
  exact extractLsb'_append_eq_right

theorem field_mem_offset (op : Nat × Nat) (f : MemForm) : (encodeMem op f).extractLsb' 0 32 = f.offset := by
  change BitVec.extractLsb' (n := 16+8+8+8+8+1+1+1+1+4+3+2+3+32) 0 32 (commonBits f.c op ++ f.d ++ f.base ++ f.data ++ f.cmp ++ BitVec.ofBool false ++ BitVec.ofBool f.duni ++ BitVec.ofBool false ++ BitVec.ofBool f.buni ++ f.width.code ++ f.scope.code ++ f.space.code ++ f.aop ++ f.offset) = _
  exact extractLsb'_append_eq_right

theorem field_br_common (op : Nat × Nat) (f : BrForm) : (encodeBr op f).extractLsb' 80 16 = commonBits f.c op := by
  change BitVec.extractLsb' (n := 16+8+8+16+1+1+14+32) 80 16 (commonBits f.c op ++ f.link ++ f.index ++ (0 : BitVec 16) ++ BitVec.ofBool f.uni ++ BitVec.ofBool f.indexUni ++ (0 : BitVec 14) ++ f.disp) = _
  rw [extractLsb'_append_eq_of_le (by decide), extractLsb'_append_eq_of_le (by decide), extractLsb'_append_eq_of_le (by decide), extractLsb'_append_eq_of_le (by decide), extractLsb'_append_eq_of_le (by decide), extractLsb'_append_eq_of_le (by decide), extractLsb'_append_eq_of_le (by decide)]
  exact extractLsb'_eq_self

theorem field_br_link (op : Nat × Nat) (f : BrForm) : (encodeBr op f).extractLsb' 72 8 = f.link := by
  change BitVec.extractLsb' (n := 16+8+8+16+1+1+14+32) 72 8 (commonBits f.c op ++ f.link ++ f.index ++ (0 : BitVec 16) ++ BitVec.ofBool f.uni ++ BitVec.ofBool f.indexUni ++ (0 : BitVec 14) ++ f.disp) = _
  rw [extractLsb'_append_eq_of_le (by decide), extractLsb'_append_eq_of_le (by decide), extractLsb'_append_eq_of_le (by decide), extractLsb'_append_eq_of_le (by decide), extractLsb'_append_eq_of_le (by decide), extractLsb'_append_eq_of_le (by decide)]
  exact extractLsb'_append_eq_right

theorem field_br_index (op : Nat × Nat) (f : BrForm) : (encodeBr op f).extractLsb' 64 8 = f.index := by
  change BitVec.extractLsb' (n := 16+8+8+16+1+1+14+32) 64 8 (commonBits f.c op ++ f.link ++ f.index ++ (0 : BitVec 16) ++ BitVec.ofBool f.uni ++ BitVec.ofBool f.indexUni ++ (0 : BitVec 14) ++ f.disp) = _
  rw [extractLsb'_append_eq_of_le (by decide), extractLsb'_append_eq_of_le (by decide), extractLsb'_append_eq_of_le (by decide), extractLsb'_append_eq_of_le (by decide), extractLsb'_append_eq_of_le (by decide)]
  exact extractLsb'_append_eq_right

theorem field_br_zeroHigh (op : Nat × Nat) (f : BrForm) : (encodeBr op f).extractLsb' 48 16 = (0 : BitVec 16) := by
  change BitVec.extractLsb' (n := 16+8+8+16+1+1+14+32) 48 16 (commonBits f.c op ++ f.link ++ f.index ++ (0 : BitVec 16) ++ BitVec.ofBool f.uni ++ BitVec.ofBool f.indexUni ++ (0 : BitVec 14) ++ f.disp) = _
  rw [extractLsb'_append_eq_of_le (by decide), extractLsb'_append_eq_of_le (by decide), extractLsb'_append_eq_of_le (by decide), extractLsb'_append_eq_of_le (by decide)]
  exact extractLsb'_append_eq_right

theorem field_br_uni (op : Nat × Nat) (f : BrForm) : (encodeBr op f).extractLsb' 47 1 = BitVec.ofBool f.uni := by
  change BitVec.extractLsb' (n := 16+8+8+16+1+1+14+32) 47 1 (commonBits f.c op ++ f.link ++ f.index ++ (0 : BitVec 16) ++ BitVec.ofBool f.uni ++ BitVec.ofBool f.indexUni ++ (0 : BitVec 14) ++ f.disp) = _
  rw [extractLsb'_append_eq_of_le (by decide), extractLsb'_append_eq_of_le (by decide), extractLsb'_append_eq_of_le (by decide)]
  exact extractLsb'_append_eq_right

theorem field_br_indexUni (op : Nat × Nat) (f : BrForm) : (encodeBr op f).extractLsb' 46 1 = BitVec.ofBool f.indexUni := by
  change BitVec.extractLsb' (n := 16+8+8+16+1+1+14+32) 46 1 (commonBits f.c op ++ f.link ++ f.index ++ (0 : BitVec 16) ++ BitVec.ofBool f.uni ++ BitVec.ofBool f.indexUni ++ (0 : BitVec 14) ++ f.disp) = _
  rw [extractLsb'_append_eq_of_le (by decide), extractLsb'_append_eq_of_le (by decide)]
  exact extractLsb'_append_eq_right

theorem field_br_zeroLow (op : Nat × Nat) (f : BrForm) : (encodeBr op f).extractLsb' 32 14 = (0 : BitVec 14) := by
  change BitVec.extractLsb' (n := 16+8+8+16+1+1+14+32) 32 14 (commonBits f.c op ++ f.link ++ f.index ++ (0 : BitVec 16) ++ BitVec.ofBool f.uni ++ BitVec.ofBool f.indexUni ++ (0 : BitVec 14) ++ f.disp) = _
  rw [extractLsb'_append_eq_of_le (by decide)]
  exact extractLsb'_append_eq_right

theorem field_br_disp (op : Nat × Nat) (f : BrForm) : (encodeBr op f).extractLsb' 0 32 = f.disp := by
  change BitVec.extractLsb' (n := 16+8+8+16+1+1+14+32) 0 32 (commonBits f.c op ++ f.link ++ f.index ++ (0 : BitVec 16) ++ BitVec.ofBool f.uni ++ BitVec.ofBool f.indexUni ++ (0 : BitVec 14) ++ f.disp) = _
  exact extractLsb'_append_eq_right

theorem field_eng_common (op : Nat × Nat) (f : EngForm) : (encodeEng op f).extractLsb' 80 16 = commonBits f.c op := by
  change BitVec.extractLsb' (n := 16+8+8+8+8+16+32) 80 16 (commonBits f.c op ++ f.token ++ f.record ++ f.conv ++ f.aux ++ f.mod ++ f.imm) = _
  rw [extractLsb'_append_eq_of_le (by decide), extractLsb'_append_eq_of_le (by decide), extractLsb'_append_eq_of_le (by decide), extractLsb'_append_eq_of_le (by decide), extractLsb'_append_eq_of_le (by decide), extractLsb'_append_eq_of_le (by decide)]
  exact extractLsb'_eq_self

theorem field_eng_token (op : Nat × Nat) (f : EngForm) : (encodeEng op f).extractLsb' 72 8 = f.token := by
  change BitVec.extractLsb' (n := 16+8+8+8+8+16+32) 72 8 (commonBits f.c op ++ f.token ++ f.record ++ f.conv ++ f.aux ++ f.mod ++ f.imm) = _
  rw [extractLsb'_append_eq_of_le (by decide), extractLsb'_append_eq_of_le (by decide), extractLsb'_append_eq_of_le (by decide), extractLsb'_append_eq_of_le (by decide), extractLsb'_append_eq_of_le (by decide)]
  exact extractLsb'_append_eq_right

theorem field_eng_record (op : Nat × Nat) (f : EngForm) : (encodeEng op f).extractLsb' 64 8 = f.record := by
  change BitVec.extractLsb' (n := 16+8+8+8+8+16+32) 64 8 (commonBits f.c op ++ f.token ++ f.record ++ f.conv ++ f.aux ++ f.mod ++ f.imm) = _
  rw [extractLsb'_append_eq_of_le (by decide), extractLsb'_append_eq_of_le (by decide), extractLsb'_append_eq_of_le (by decide), extractLsb'_append_eq_of_le (by decide)]
  exact extractLsb'_append_eq_right

theorem field_eng_conv (op : Nat × Nat) (f : EngForm) : (encodeEng op f).extractLsb' 56 8 = f.conv := by
  change BitVec.extractLsb' (n := 16+8+8+8+8+16+32) 56 8 (commonBits f.c op ++ f.token ++ f.record ++ f.conv ++ f.aux ++ f.mod ++ f.imm) = _
  rw [extractLsb'_append_eq_of_le (by decide), extractLsb'_append_eq_of_le (by decide), extractLsb'_append_eq_of_le (by decide)]
  exact extractLsb'_append_eq_right

theorem field_eng_aux (op : Nat × Nat) (f : EngForm) : (encodeEng op f).extractLsb' 48 8 = f.aux := by
  change BitVec.extractLsb' (n := 16+8+8+8+8+16+32) 48 8 (commonBits f.c op ++ f.token ++ f.record ++ f.conv ++ f.aux ++ f.mod ++ f.imm) = _
  rw [extractLsb'_append_eq_of_le (by decide), extractLsb'_append_eq_of_le (by decide)]
  exact extractLsb'_append_eq_right

theorem field_eng_mod (op : Nat × Nat) (f : EngForm) : (encodeEng op f).extractLsb' 32 16 = f.mod := by
  change BitVec.extractLsb' (n := 16+8+8+8+8+16+32) 32 16 (commonBits f.c op ++ f.token ++ f.record ++ f.conv ++ f.aux ++ f.mod ++ f.imm) = _
  rw [extractLsb'_append_eq_of_le (by decide)]
  exact extractLsb'_append_eq_right

theorem field_eng_imm (op : Nat × Nat) (f : EngForm) : (encodeEng op f).extractLsb' 0 32 = f.imm := by
  change BitVec.extractLsb' (n := 16+8+8+8+8+16+32) 0 32 (commonBits f.c op ++ f.token ++ f.record ++ f.conv ++ f.aux ++ f.mod ++ f.imm) = _
  exact extractLsb'_append_eq_right

theorem field_movi_common (op : Nat × Nat) (f : MoviForm) : (encodeMovi op f).extractLsb' 80 16 = commonBits f.c op := by
  change BitVec.extractLsb' (n := 16+8+32+5+3+32) 80 16 (commonBits f.c op ++ f.d ++ (f.value.extractLsb' 32 32) ++ (Ty.code .b64) ++ (0 : BitVec 3) ++ (f.value.extractLsb' 0 32)) = _
  rw [extractLsb'_append_eq_of_le (by decide), extractLsb'_append_eq_of_le (by decide), extractLsb'_append_eq_of_le (by decide), extractLsb'_append_eq_of_le (by decide), extractLsb'_append_eq_of_le (by decide)]
  exact extractLsb'_eq_self

theorem field_movi_d (op : Nat × Nat) (f : MoviForm) : (encodeMovi op f).extractLsb' 72 8 = f.d := by
  change BitVec.extractLsb' (n := 16+8+32+5+3+32) 72 8 (commonBits f.c op ++ f.d ++ (f.value.extractLsb' 32 32) ++ (Ty.code .b64) ++ (0 : BitVec 3) ++ (f.value.extractLsb' 0 32)) = _
  rw [extractLsb'_append_eq_of_le (by decide), extractLsb'_append_eq_of_le (by decide), extractLsb'_append_eq_of_le (by decide), extractLsb'_append_eq_of_le (by decide)]
  exact extractLsb'_append_eq_right

theorem field_movi_high (op : Nat × Nat) (f : MoviForm) : (encodeMovi op f).extractLsb' 40 32 = (f.value.extractLsb' 32 32) := by
  change BitVec.extractLsb' (n := 16+8+32+5+3+32) 40 32 (commonBits f.c op ++ f.d ++ (f.value.extractLsb' 32 32) ++ (Ty.code .b64) ++ (0 : BitVec 3) ++ (f.value.extractLsb' 0 32)) = _
  rw [extractLsb'_append_eq_of_le (by decide), extractLsb'_append_eq_of_le (by decide), extractLsb'_append_eq_of_le (by decide)]
  exact extractLsb'_append_eq_right

theorem field_movi_ty (op : Nat × Nat) (f : MoviForm) : (encodeMovi op f).extractLsb' 35 5 = (Ty.code .b64) := by
  change BitVec.extractLsb' (n := 16+8+32+5+3+32) 35 5 (commonBits f.c op ++ f.d ++ (f.value.extractLsb' 32 32) ++ (Ty.code .b64) ++ (0 : BitVec 3) ++ (f.value.extractLsb' 0 32)) = _
  rw [extractLsb'_append_eq_of_le (by decide), extractLsb'_append_eq_of_le (by decide)]
  exact extractLsb'_append_eq_right

theorem field_movi_sub (op : Nat × Nat) (f : MoviForm) : (encodeMovi op f).extractLsb' 32 3 = (0 : BitVec 3) := by
  change BitVec.extractLsb' (n := 16+8+32+5+3+32) 32 3 (commonBits f.c op ++ f.d ++ (f.value.extractLsb' 32 32) ++ (Ty.code .b64) ++ (0 : BitVec 3) ++ (f.value.extractLsb' 0 32)) = _
  rw [extractLsb'_append_eq_of_le (by decide)]
  exact extractLsb'_append_eq_right

theorem field_movi_low (op : Nat × Nat) (f : MoviForm) : (encodeMovi op f).extractLsb' 0 32 = (f.value.extractLsb' 0 32) := by
  change BitVec.extractLsb' (n := 16+8+32+5+3+32) 0 32 (commonBits f.c op ++ f.d ++ (f.value.extractLsb' 32 32) ++ (Ty.code .b64) ++ (0 : BitVec 3) ++ (f.value.extractLsb' 0 32)) = _
  exact extractLsb'_append_eq_right


theorem extract_common (w : InstrWord) (lo len : Nat) (h : lo + len ≤ 16) :
    w.extractLsb' (80 + lo) len = (w.extractLsb' 80 16).extractLsb' lo len := by
  ext i hi
  simp [BitVec.getElem_extractLsb', BitVec.getLsbD_extractLsb', Nat.add_assoc]
  omega

theorem bit_common (w : InstrWord) (n : Nat) (h : n < 16) : wordBit w (80 + n) = (w.extractLsb' 80 16).getLsbD n := by
  simp [wordBit, h]

theorem commonBits_guard (c : Common) (op : Nat × Nat) : (commonBits c op).extractLsb' 10 3 = c.guard := by
  change BitVec.extractLsb' (n := 1+1+1+3+6+4) 10 3 (BitVec.ofBool c.s ++ BitVec.ofBool c.u ++ BitVec.ofBool c.n ++ c.guard ++ BitVec.ofNat 6 op.1 ++ BitVec.ofNat 4 op.2) = _
  rw [extractLsb'_append_eq_of_le (by decide), extractLsb'_append_eq_of_le (by decide)]
  exact extractLsb'_append_eq_right

theorem commonBits_class (c : Common) (op : Nat × Nat) : (commonBits c op).extractLsb' 4 6 = BitVec.ofNat 6 op.1 := by
  change BitVec.extractLsb' (n := 1+1+1+3+6+4) 4 6 (BitVec.ofBool c.s ++ BitVec.ofBool c.u ++ BitVec.ofBool c.n ++ c.guard ++ BitVec.ofNat 6 op.1 ++ BitVec.ofNat 4 op.2) = _
  rw [extractLsb'_append_eq_of_le (by decide)]
  exact extractLsb'_append_eq_right

theorem commonBits_minor (c : Common) (op : Nat × Nat) : (commonBits c op).extractLsb' 0 4 = BitVec.ofNat 4 op.2 := by
  change BitVec.extractLsb' (n := 1+1+1+3+6+4) 0 4 (BitVec.ofBool c.s ++ BitVec.ofBool c.u ++ BitVec.ofBool c.n ++ c.guard ++ BitVec.ofNat 6 op.1 ++ BitVec.ofNat 4 op.2) = _
  exact extractLsb'_append_eq_right

theorem commonBits_flags (c : Common) (op : Nat × Nat) : (commonBits c op).getLsbD 15 = c.s ∧ (commonBits c op).getLsbD 14 = c.u ∧
    (commonBits c op).getLsbD 13 = c.n := by
  have h (i : Nat) : (commonBits c op).getLsbD i = BitVec.getLsbD (w := 1+1+1+3+6+4) (BitVec.ofBool c.s ++ BitVec.ofBool c.u ++ BitVec.ofBool c.n ++ c.guard ++ BitVec.ofNat 6 op.1 ++ BitVec.ofNat 4 op.2) i := rfl
  refine ⟨?_, ?_, ?_⟩ <;> rw [h] <;> simp only [BitVec.getLsbD_append] <;> simp

theorem readCommon_of (w : InstrWord) (c : Common) (op : Nat × Nat) (h : w.extractLsb' 80 16 = commonBits c op) :
    readCommon w = c := by
  have h1 := bit_common w 15 (by decide)
  have h2 := bit_common w 14 (by decide)
  have h3 := bit_common w 13 (by decide)
  have h4 := extract_common w 10 3 (by decide)
  obtain ⟨a, b, d⟩ := commonBits_flags c op
  rw [h] at h1 h2 h3 h4
  unfold readCommon
  rw [h1, h2, h3, h4, a, b, d, commonBits_guard]

theorem class_of (w : InstrWord) (c : Common) (op : Nat × Nat) (h : w.extractLsb' 80 16 = commonBits c op) (h1 : op.1 < 64)
    (h2 : op.2 < 16) : (w.extractLsb' 84 6).toNat = op.1 ∧ (w.extractLsb' 80 4).toNat = op.2 := by
  have h4 := extract_common w 4 6 (by decide)
  have h5 := extract_common w 0 4 (by decide)
  rw [h] at h4 h5
  rw [h4, show w.extractLsb' 80 4 = w.extractLsb' (80 + 0) 4 from rfl, h5, commonBits_class, commonBits_minor]
  simp only [BitVec.toNat_ofNat]
  omega

@[simp] theorem Cls.ofCode_code (x : Cls) : Cls.ofCode x.code = x := by cases x <;> rfl
@[simp] theorem Width.ofCode_code (x : Width) : Width.ofCode x.code = some x := by cases x <;> rfl
@[simp] theorem Scope.ofCode_code (x : Scope) : Scope.ofCode x.code = some x := by cases x <;> rfl
@[simp] theorem Space.ofCode_code (x : Space) : Space.ofCode x.code = some x := by cases x <;> rfl
@[simp] theorem Ty.ofCode_code (x : Ty) : Ty.ofCode x.code = some x := by cases x <;> rfl

theorem readReg_encodeReg (op : Nat × Nat) (f : RegForm) : readReg (encodeReg op f) = .ok f := by
  unfold readReg
  rw [field_reg_ty, Ty.ofCode_code]
  dsimp only
  rw [readCommon_of _ f.c op (field_reg_common op f), field_reg_d, field_reg_a, field_reg_b, field_reg_e, field_reg_dc, field_reg_ac,
    field_reg_bc, field_reg_ec, field_reg_sub, field_reg_imm]
  simp only [Cls.ofCode_code]

theorem ofBool_bit (w : InstrWord) (n : Nat) (b : Bool) (h : w.extractLsb' n 1 = BitVec.ofBool b) : wordBit w n = b := by
  have := congrArg (fun x => BitVec.getLsbD x 0) h
  simpa [wordBit] using this

theorem readMem_encodeMem (op : Nat × Nat) (f : MemForm) : readMem (encodeMem op f) = .ok f := by
  unfold readMem
  rw [ofBool_bit _ 47 _ (field_mem_bit47 op f), ofBool_bit _ 45 _ (field_mem_bit45 op f), field_mem_width, field_mem_scope, field_mem_space,
    Width.ofCode_code, Scope.ofCode_code, Space.ofCode_code]
  simp only [Bool.or_self, Bool.false_eq_true, if_false]
  rw [readCommon_of _ f.c op (field_mem_common op f), field_mem_d, field_mem_base, field_mem_data, field_mem_cmp,
    ofBool_bit _ 46 _ (field_mem_duni op f), ofBool_bit _ 44 _ (field_mem_buni op f), field_mem_aop, field_mem_offset]

theorem readBr_encodeBr (op : Nat × Nat) (f : BrForm) : readBr (encodeBr op f) = .ok f := by
  unfold readBr
  rw [field_br_zeroHigh, field_br_zeroLow, if_pos rfl, if_pos rfl, readCommon_of _ f.c op (field_br_common op f), field_br_link, field_br_index,
    ofBool_bit _ 47 _ (field_br_uni op f), ofBool_bit _ 46 _ (field_br_indexUni op f), field_br_disp]

theorem readEng_encodeEng (op : Nat × Nat) (f : EngForm) : readEng (encodeEng op f) = f := by
  unfold readEng
  rw [readCommon_of _ f.c op (field_eng_common op f), field_eng_token, field_eng_record, field_eng_conv, field_eng_aux, field_eng_mod, field_eng_imm]

theorem readMovi_encodeMovi (op : Nat × Nat) (f : MoviForm) : readMovi (encodeMovi op f) = .ok f := by
  unfold readMovi
  rw [field_movi_ty, field_movi_sub, if_pos rfl, if_pos rfl, readCommon_of _ f.c op (field_movi_common op f), field_movi_d, field_movi_high,
    field_movi_low]
  have h : f.value.extractLsb' 32 32 ++ f.value.extractLsb' 0 32 = f.value :=
    (extractLsb'_append_extractLsb'_eq_extractLsb' (start₂ := 32) (start₁ := 0) (len₁ := 32) (len₂ := 32) rfl).trans extractLsb'_eq_self
  rw [h]

/-! ### Decoding an encoded instruction, form by form -/

theorem decode_build {op : Nat × Nat} {w : InstrWord} {c : Common} {m : Maker} {i : Instr} (hc : w.extractLsb' 80 16 = commonBits c op)
    (h1 : op.1 < 64) (h2 : op.2 < 16) (hm : opcodeMap op.1 op.2 = .ok m) (hb : m.build w = .ok i) (hw : wellFormed i = true) :
    decodeWord w = .ok i := by
  obtain ⟨a, b⟩ := class_of w c op hc h1 h2
  unfold decodeWord
  rw [a, b, hm]
  dsimp only
  rw [hb]
  simp [accept, hw]

theorem decode_reg {op : Nat × Nat} {f : RegForm} {mk : RegForm → Instr} {i : Instr} (hm : opcodeMap op.1 op.2 = .ok (.reg mk))
    (h1 : op.1 < 64) (h2 : op.2 < 16) (e : mk f = i) (hw : wellFormed i = true) : decodeWord (encodeReg op f) = .ok i := by
  subst e
  refine decode_build (field_reg_common op f) h1 h2 hm ?_ hw
  simp only [Maker.build, readReg_encodeReg]
  rfl

theorem decode_mem {op : Nat × Nat} {f : MemForm} {mk : MemForm → Instr} {i : Instr} (hm : opcodeMap op.1 op.2 = .ok (.mem mk))
    (h1 : op.1 < 64) (h2 : op.2 < 16) (e : mk f = i) (hw : wellFormed i = true) : decodeWord (encodeMem op f) = .ok i := by
  subst e
  refine decode_build (field_mem_common op f) h1 h2 hm ?_ hw
  simp only [Maker.build, readMem_encodeMem]
  rfl

theorem decode_br {op : Nat × Nat} {f : BrForm} {mk : BrForm → Instr} {i : Instr} (hm : opcodeMap op.1 op.2 = .ok (.br mk))
    (h1 : op.1 < 64) (h2 : op.2 < 16) (e : mk f = i) (hw : wellFormed i = true) : decodeWord (encodeBr op f) = .ok i := by
  subst e
  refine decode_build (field_br_common op f) h1 h2 hm ?_ hw
  simp only [Maker.build, readBr_encodeBr]
  rfl

theorem decode_eng {op : Nat × Nat} {f : EngForm} {mk : EngForm → Instr} {i : Instr} (hm : opcodeMap op.1 op.2 = .ok (.eng mk))
    (h1 : op.1 < 64) (h2 : op.2 < 16) (e : mk f = i) (hw : wellFormed i = true) : decodeWord (encodeEng op f) = .ok i := by
  subst e
  refine decode_build (field_eng_common op f) h1 h2 hm ?_ hw
  simp only [Maker.build, readEng_encodeEng]

theorem decode_movi {op : Nat × Nat} {f : MoviForm} {mk : MoviForm → Instr} {i : Instr} (hm : opcodeMap op.1 op.2 = .ok (.movi mk))
    (h1 : op.1 < 64) (h2 : op.2 < 16) (e : mk f = i) (hw : wellFormed i = true) : decodeWord (encodeMovi op f) = .ok i := by
  subst e
  refine decode_build (field_movi_common op f) h1 h2 hm ?_ hw
  simp only [Maker.build, readMovi_encodeMovi]
  rfl

/-! ### A word is made of its fields -/

theorem word_reg (w : InstrWord) :
    w.extractLsb' 80 16 ++ w.extractLsb' 72 8 ++ w.extractLsb' 64 8 ++ w.extractLsb' 56 8 ++ w.extractLsb' 48 8 ++ w.extractLsb' 46 2 ++ w.extractLsb' 44 2 ++ w.extractLsb' 42 2 ++ w.extractLsb' 40 2 ++ w.extractLsb' 35 5 ++ w.extractLsb' 32 3 ++ w.extractLsb' 0 32 = w := by
  change @Eq (BitVec (16+8+8+8+8+2+2+2+2+5+3+32)) (w.extractLsb' 80 16 ++ w.extractLsb' 72 8 ++ w.extractLsb' 64 8 ++ w.extractLsb' 56 8 ++ w.extractLsb' 48 8 ++ w.extractLsb' 46 2 ++ w.extractLsb' 44 2 ++ w.extractLsb' 42 2 ++ w.extractLsb' 40 2 ++ w.extractLsb' 35 5 ++ w.extractLsb' 32 3 ++ w.extractLsb' 0 32) w
  rw [extractLsb'_append_extractLsb'_eq_extractLsb' (x := w) (start₂ := 80) (start₁ := 72) (len₁ := 8) rfl, extractLsb'_append_extractLsb'_eq_extractLsb' (x := w) (start₂ := 72) (start₁ := 64) (len₁ := 8) rfl, extractLsb'_append_extractLsb'_eq_extractLsb' (x := w) (start₂ := 64) (start₁ := 56) (len₁ := 8) rfl, extractLsb'_append_extractLsb'_eq_extractLsb' (x := w) (start₂ := 56) (start₁ := 48) (len₁ := 8) rfl, extractLsb'_append_extractLsb'_eq_extractLsb' (x := w) (start₂ := 48) (start₁ := 46) (len₁ := 2) rfl, extractLsb'_append_extractLsb'_eq_extractLsb' (x := w) (start₂ := 46) (start₁ := 44) (len₁ := 2) rfl, extractLsb'_append_extractLsb'_eq_extractLsb' (x := w) (start₂ := 44) (start₁ := 42) (len₁ := 2) rfl, extractLsb'_append_extractLsb'_eq_extractLsb' (x := w) (start₂ := 42) (start₁ := 40) (len₁ := 2) rfl, extractLsb'_append_extractLsb'_eq_extractLsb' (x := w) (start₂ := 40) (start₁ := 35) (len₁ := 5) rfl, extractLsb'_append_extractLsb'_eq_extractLsb' (x := w) (start₂ := 35) (start₁ := 32) (len₁ := 3) rfl, extractLsb'_append_extractLsb'_eq_extractLsb' (x := w) (start₂ := 32) (start₁ := 0) (len₁ := 32) rfl]
  exact extractLsb'_eq_self

theorem word_mem (w : InstrWord) :
    w.extractLsb' 80 16 ++ w.extractLsb' 72 8 ++ w.extractLsb' 64 8 ++ w.extractLsb' 56 8 ++ w.extractLsb' 48 8 ++ w.extractLsb' 47 1 ++ w.extractLsb' 46 1 ++ w.extractLsb' 45 1 ++ w.extractLsb' 44 1 ++ w.extractLsb' 40 4 ++ w.extractLsb' 37 3 ++ w.extractLsb' 35 2 ++ w.extractLsb' 32 3 ++ w.extractLsb' 0 32 = w := by
  change @Eq (BitVec (16+8+8+8+8+1+1+1+1+4+3+2+3+32)) (w.extractLsb' 80 16 ++ w.extractLsb' 72 8 ++ w.extractLsb' 64 8 ++ w.extractLsb' 56 8 ++ w.extractLsb' 48 8 ++ w.extractLsb' 47 1 ++ w.extractLsb' 46 1 ++ w.extractLsb' 45 1 ++ w.extractLsb' 44 1 ++ w.extractLsb' 40 4 ++ w.extractLsb' 37 3 ++ w.extractLsb' 35 2 ++ w.extractLsb' 32 3 ++ w.extractLsb' 0 32) w
  rw [extractLsb'_append_extractLsb'_eq_extractLsb' (x := w) (start₂ := 80) (start₁ := 72) (len₁ := 8) rfl, extractLsb'_append_extractLsb'_eq_extractLsb' (x := w) (start₂ := 72) (start₁ := 64) (len₁ := 8) rfl, extractLsb'_append_extractLsb'_eq_extractLsb' (x := w) (start₂ := 64) (start₁ := 56) (len₁ := 8) rfl, extractLsb'_append_extractLsb'_eq_extractLsb' (x := w) (start₂ := 56) (start₁ := 48) (len₁ := 8) rfl, extractLsb'_append_extractLsb'_eq_extractLsb' (x := w) (start₂ := 48) (start₁ := 47) (len₁ := 1) rfl, extractLsb'_append_extractLsb'_eq_extractLsb' (x := w) (start₂ := 47) (start₁ := 46) (len₁ := 1) rfl, extractLsb'_append_extractLsb'_eq_extractLsb' (x := w) (start₂ := 46) (start₁ := 45) (len₁ := 1) rfl, extractLsb'_append_extractLsb'_eq_extractLsb' (x := w) (start₂ := 45) (start₁ := 44) (len₁ := 1) rfl, extractLsb'_append_extractLsb'_eq_extractLsb' (x := w) (start₂ := 44) (start₁ := 40) (len₁ := 4) rfl, extractLsb'_append_extractLsb'_eq_extractLsb' (x := w) (start₂ := 40) (start₁ := 37) (len₁ := 3) rfl, extractLsb'_append_extractLsb'_eq_extractLsb' (x := w) (start₂ := 37) (start₁ := 35) (len₁ := 2) rfl, extractLsb'_append_extractLsb'_eq_extractLsb' (x := w) (start₂ := 35) (start₁ := 32) (len₁ := 3) rfl, extractLsb'_append_extractLsb'_eq_extractLsb' (x := w) (start₂ := 32) (start₁ := 0) (len₁ := 32) rfl]
  exact extractLsb'_eq_self

theorem word_br (w : InstrWord) :
    w.extractLsb' 80 16 ++ w.extractLsb' 72 8 ++ w.extractLsb' 64 8 ++ w.extractLsb' 48 16 ++ w.extractLsb' 47 1 ++ w.extractLsb' 46 1 ++ w.extractLsb' 32 14 ++ w.extractLsb' 0 32 = w := by
  change @Eq (BitVec (16+8+8+16+1+1+14+32)) (w.extractLsb' 80 16 ++ w.extractLsb' 72 8 ++ w.extractLsb' 64 8 ++ w.extractLsb' 48 16 ++ w.extractLsb' 47 1 ++ w.extractLsb' 46 1 ++ w.extractLsb' 32 14 ++ w.extractLsb' 0 32) w
  rw [extractLsb'_append_extractLsb'_eq_extractLsb' (x := w) (start₂ := 80) (start₁ := 72) (len₁ := 8) rfl, extractLsb'_append_extractLsb'_eq_extractLsb' (x := w) (start₂ := 72) (start₁ := 64) (len₁ := 8) rfl, extractLsb'_append_extractLsb'_eq_extractLsb' (x := w) (start₂ := 64) (start₁ := 48) (len₁ := 16) rfl, extractLsb'_append_extractLsb'_eq_extractLsb' (x := w) (start₂ := 48) (start₁ := 47) (len₁ := 1) rfl, extractLsb'_append_extractLsb'_eq_extractLsb' (x := w) (start₂ := 47) (start₁ := 46) (len₁ := 1) rfl, extractLsb'_append_extractLsb'_eq_extractLsb' (x := w) (start₂ := 46) (start₁ := 32) (len₁ := 14) rfl, extractLsb'_append_extractLsb'_eq_extractLsb' (x := w) (start₂ := 32) (start₁ := 0) (len₁ := 32) rfl]
  exact extractLsb'_eq_self

theorem word_eng (w : InstrWord) :
    w.extractLsb' 80 16 ++ w.extractLsb' 72 8 ++ w.extractLsb' 64 8 ++ w.extractLsb' 56 8 ++ w.extractLsb' 48 8 ++ w.extractLsb' 32 16 ++ w.extractLsb' 0 32 = w := by
  change @Eq (BitVec (16+8+8+8+8+16+32)) (w.extractLsb' 80 16 ++ w.extractLsb' 72 8 ++ w.extractLsb' 64 8 ++ w.extractLsb' 56 8 ++ w.extractLsb' 48 8 ++ w.extractLsb' 32 16 ++ w.extractLsb' 0 32) w
  rw [extractLsb'_append_extractLsb'_eq_extractLsb' (x := w) (start₂ := 80) (start₁ := 72) (len₁ := 8) rfl, extractLsb'_append_extractLsb'_eq_extractLsb' (x := w) (start₂ := 72) (start₁ := 64) (len₁ := 8) rfl, extractLsb'_append_extractLsb'_eq_extractLsb' (x := w) (start₂ := 64) (start₁ := 56) (len₁ := 8) rfl, extractLsb'_append_extractLsb'_eq_extractLsb' (x := w) (start₂ := 56) (start₁ := 48) (len₁ := 8) rfl, extractLsb'_append_extractLsb'_eq_extractLsb' (x := w) (start₂ := 48) (start₁ := 32) (len₁ := 16) rfl, extractLsb'_append_extractLsb'_eq_extractLsb' (x := w) (start₂ := 32) (start₁ := 0) (len₁ := 32) rfl]
  exact extractLsb'_eq_self

theorem word_movi (w : InstrWord) :
    w.extractLsb' 80 16 ++ w.extractLsb' 72 8 ++ w.extractLsb' 40 32 ++ w.extractLsb' 35 5 ++ w.extractLsb' 32 3 ++ w.extractLsb' 0 32 = w := by
  change @Eq (BitVec (16+8+32+5+3+32)) (w.extractLsb' 80 16 ++ w.extractLsb' 72 8 ++ w.extractLsb' 40 32 ++ w.extractLsb' 35 5 ++ w.extractLsb' 32 3 ++ w.extractLsb' 0 32) w
  rw [extractLsb'_append_extractLsb'_eq_extractLsb' (x := w) (start₂ := 80) (start₁ := 72) (len₁ := 8) rfl, extractLsb'_append_extractLsb'_eq_extractLsb' (x := w) (start₂ := 72) (start₁ := 40) (len₁ := 32) rfl, extractLsb'_append_extractLsb'_eq_extractLsb' (x := w) (start₂ := 40) (start₁ := 35) (len₁ := 5) rfl, extractLsb'_append_extractLsb'_eq_extractLsb' (x := w) (start₂ := 35) (start₁ := 32) (len₁ := 3) rfl, extractLsb'_append_extractLsb'_eq_extractLsb' (x := w) (start₂ := 32) (start₁ := 0) (len₁ := 32) rfl]
  exact extractLsb'_eq_self


theorem ofBool_wordBit (w : InstrWord) (n : Nat) : BitVec.ofBool (wordBit w n) = w.extractLsb' n 1 := by
  apply BitVec.eq_of_getLsbD_eq
  intro i hi
  have : i = 0 := by omega
  subst this
  simp [wordBit, BitVec.getLsbD_extractLsb']

theorem commonBits_read (w : InstrWord) :
    commonBits (readCommon w) ((w.extractLsb' 84 6).toNat, (w.extractLsb' 80 4).toNat) = w.extractLsb' 80 16 := by
  unfold commonBits readCommon
  dsimp only
  rw [ofBool_wordBit, ofBool_wordBit, ofBool_wordBit, BitVec.ofNat_toNat, BitVec.ofNat_toNat, BitVec.setWidth_eq, BitVec.setWidth_eq]
  change @Eq (BitVec (1+1+1+3+6+4)) (w.extractLsb' 95 1 ++ w.extractLsb' 94 1 ++ w.extractLsb' 93 1 ++ w.extractLsb' 90 3 ++ w.extractLsb' 84 6 ++ w.extractLsb' 80 4) _
  rw [extractLsb'_append_extractLsb'_eq_extractLsb' (x := w) (start₂ := 95) (start₁ := 94) (len₁ := 1) rfl,
    extractLsb'_append_extractLsb'_eq_extractLsb' (x := w) (start₂ := 94) (start₁ := 93) (len₁ := 1) rfl,
    extractLsb'_append_extractLsb'_eq_extractLsb' (x := w) (start₂ := 93) (start₁ := 90) (len₁ := 3) rfl,
    extractLsb'_append_extractLsb'_eq_extractLsb' (x := w) (start₂ := 90) (start₁ := 84) (len₁ := 6) rfl,
    extractLsb'_append_extractLsb'_eq_extractLsb' (x := w) (start₂ := 84) (start₁ := 80) (len₁ := 4) rfl]

end Sys2Proof
end

