-- ==== Sys2Proof/Laws/PerInstr.lean ====
section
/-! SUPPORT. One statement per instruction, as syntax: an instruction's word carries its common bits (S, U, N and guard) in
bits 95:80, where decoding reads them back (R61). -/

namespace Sys2Proof

open Sys2Proof.Machine

/-- The common bits of a word are read back, whatever its form is. -/
theorem readCommon_encode (i : Instr) (w : InstrWord) (h : encode i = some w) : readCommon w = common i := by
  unfold encode at h
  unfold common
  split at h
  · cases h
  · split at h <;> first | cases h; rename_i hf; rw [hf] | cases h
    · exact readCommon_of _ _ _ (field_reg_common _ _)
    · exact readCommon_of _ _ _ (field_movi_common _ _)
    · exact readCommon_of _ _ _ (field_mem_common _ _)
    · exact readCommon_of _ _ _ (field_br_common _ _)
    · exact readCommon_of _ _ _ (field_eng_common _ _)

end Sys2Proof

namespace Sys2Proof.Laws.CommonBits

open Sys2Proof Sys2Proof.Machine

/-- An instruction's word, when it has one, holds the instruction's common bits (R61). -/
def Statement (i : Instr) : Prop := ∀ w : InstrWord, encode i = some w → readCommon w = common i

theorem nop (f : RegForm) : Statement (.nop f) := readCommon_encode _
theorem getsr (f : RegForm) : Statement (.getsr f) := readCommon_encode _
theorem setsr (f : RegForm) : Statement (.setsr f) := readCommon_encode _
theorem bra (f : BrForm) : Statement (.bra f) := readCommon_encode _
theorem brx (f : BrForm) : Statement (.brx f) := readCommon_encode _
theorem call (f : BrForm) : Statement (.call f) := readCommon_encode _
theorem calli (f : BrForm) : Statement (.calli f) := readCommon_encode _
theorem ret (f : BrForm) : Statement (.ret f) := readCommon_encode _
theorem exit (f : BrForm) : Statement (.exit f) := readCommon_encode _
theorem trap (f : RegForm) : Statement (.trap f) := readCommon_encode _
theorem brk (f : RegForm) : Statement (.brk f) := readCommon_encode _
theorem pause (f : RegForm) : Statement (.pause f) := readCommon_encode _
theorem yield (f : RegForm) : Statement (.yield f) := readCommon_encode _
theorem bar (f : RegForm) : Statement (.bar f) := readCommon_encode _
theorem barPhase (f : RegForm) : Statement (.barPhase f) := readCommon_encode _
theorem clbar (f : RegForm) : Statement (.clbar f) := readCommon_encode _
theorem gbar (f : RegForm) : Statement (.gbar f) := readCommon_encode _
theorem cvinit (f : RegForm) : Statement (.cvinit f) := readCommon_encode _
theorem launch (f : EngForm) : Statement (.launch f) := readCommon_encode _
theorem spawn (f : EngForm) : Statement (.spawn f) := readCommon_encode _
theorem merge (f : EngForm) : Statement (.merge f) := readCommon_encode _
theorem syncSpawn (f : EngForm) : Statement (.syncSpawn f) := readCommon_encode _
theorem tsub (f : EngForm) : Statement (.tsub f) := readCommon_encode _
theorem tsig (f : EngForm) : Statement (.tsig f) := readCommon_encode _
theorem sysTlbinv (f : RegForm) : Statement (.sysTlbinv f) := readCommon_encode _
theorem sysFwake (f : RegForm) : Statement (.sysFwake f) := readCommon_encode _
theorem sysFkill (f : RegForm) : Statement (.sysFkill f) := readCommon_encode _
theorem sysEvict (f : RegForm) : Statement (.sysEvict f) := readCommon_encode _
theorem sysResume (f : RegForm) : Statement (.sysResume f) := readCommon_encode _
theorem sysMcount (f : RegForm) : Statement (.sysMcount f) := readCommon_encode _
theorem voteAgree (f : RegForm) : Statement (.voteAgree f) := readCommon_encode _
theorem barCnt (f : RegForm) : Statement (.barCnt f) := readCommon_encode _
theorem sysFlush (f : RegForm) : Statement (.sysFlush f) := readCommon_encode _
theorem sysHalt (f : RegForm) : Statement (.sysHalt f) := readCommon_encode _
theorem add (f : RegForm) : Statement (.add f) := readCommon_encode _
theorem sub (f : RegForm) : Statement (.sub f) := readCommon_encode _
theorem mul (f : RegForm) : Statement (.mul f) := readCommon_encode _
theorem mulhi (f : RegForm) : Statement (.mulhi f) := readCommon_encode _
theorem mad (f : RegForm) : Statement (.mad f) := readCommon_encode _
theorem min (f : RegForm) : Statement (.min f) := readCommon_encode _
theorem max (f : RegForm) : Statement (.max f) := readCommon_encode _
theorem abs (f : RegForm) : Statement (.abs f) := readCommon_encode _
theorem neg (f : RegForm) : Statement (.neg f) := readCommon_encode _
theorem addc (f : RegForm) : Statement (.addc f) := readCommon_encode _
theorem lea (f : RegForm) : Statement (.lea f) := readCommon_encode _
theorem mov (f : RegForm) : Statement (.mov f) := readCommon_encode _
theorem movi (f : MoviForm) : Statement (.movi f) := readCommon_encode _
theorem sel (f : RegForm) : Statement (.sel f) := readCommon_encode _
theorem andB (f : RegForm) : Statement (.andB f) := readCommon_encode _
theorem orB (f : RegForm) : Statement (.orB f) := readCommon_encode _
theorem xorB (f : RegForm) : Statement (.xorB f) := readCommon_encode _
theorem notB (f : RegForm) : Statement (.notB f) := readCommon_encode _
theorem shl (f : RegForm) : Statement (.shl f) := readCommon_encode _
theorem shr (f : RegForm) : Statement (.shr f) := readCommon_encode _
theorem sar (f : RegForm) : Statement (.sar f) := readCommon_encode _
theorem rot (f : RegForm) : Statement (.rot f) := readCommon_encode _
theorem clz (f : RegForm) : Statement (.clz f) := readCommon_encode _
theorem popc (f : RegForm) : Statement (.popc f) := readCommon_encode _
theorem brev (f : RegForm) : Statement (.brev f) := readCommon_encode _
theorem bfe (f : RegForm) : Statement (.bfe f) := readCommon_encode _
theorem bfi (f : RegForm) : Statement (.bfi f) := readCommon_encode _
theorem cmp (f : RegForm) : Statement (.cmp f) := readCommon_encode _
theorem fcmp (f : RegForm) : Statement (.fcmp f) := readCommon_encode _
theorem pand (f : RegForm) : Statement (.pand f) := readCommon_encode _
theorem por (f : RegForm) : Statement (.por f) := readCommon_encode _
theorem pxor (f : RegForm) : Statement (.pxor f) := readCommon_encode _
theorem pnot (f : RegForm) : Statement (.pnot f) := readCommon_encode _
theorem pmov (f : RegForm) : Statement (.pmov f) := readCommon_encode _
theorem pmovPack (f : RegForm) : Statement (.pmovPack f) := readCommon_encode _
theorem pmovUnpack (f : RegForm) : Statement (.pmovUnpack f) := readCommon_encode _
theorem shfl (f : RegForm) : Statement (.shfl f) := readCommon_encode _
theorem vote (f : RegForm) : Statement (.vote f) := readCommon_encode _
theorem redux (f : RegForm) : Statement (.redux f) := readCommon_encode _
theorem matchL (f : RegForm) : Statement (.matchL f) := readCommon_encode _
theorem prefixL (f : RegForm) : Statement (.prefixL f) := readCommon_encode _
theorem fadd (f : RegForm) : Statement (.fadd f) := readCommon_encode _
theorem fsub (f : RegForm) : Statement (.fsub f) := readCommon_encode _
theorem fmul (f : RegForm) : Statement (.fmul f) := readCommon_encode _
theorem ffma (f : RegForm) : Statement (.ffma f) := readCommon_encode _
theorem fmin (f : RegForm) : Statement (.fmin f) := readCommon_encode _
theorem fmax (f : RegForm) : Statement (.fmax f) := readCommon_encode _
theorem fabs (f : RegForm) : Statement (.fabs f) := readCommon_encode _
theorem fneg (f : RegForm) : Statement (.fneg f) := readCommon_encode _
theorem fclass (f : RegForm) : Statement (.fclass f) := readCommon_encode _
theorem frnd (f : RegForm) : Statement (.frnd f) := readCommon_encode _
theorem frcp (f : RegForm) : Statement (.frcp f) := readCommon_encode _
theorem fsqrt (f : RegForm) : Statement (.fsqrt f) := readCommon_encode _
theorem frsq (f : RegForm) : Statement (.frsq f) := readCommon_encode _
theorem fexp2 (f : RegForm) : Statement (.fexp2 f) := readCommon_encode _
theorem flog2 (f : RegForm) : Statement (.flog2 f) := readCommon_encode _
theorem cvt (f : RegForm) : Statement (.cvt f) := readCommon_encode _
theorem pack (f : RegForm) : Statement (.pack f) := readCommon_encode _
theorem unpack (f : RegForm) : Statement (.unpack f) := readCommon_encode _
theorem rnfwd (f : RegForm) : Statement (.rnfwd f) := readCommon_encode _
theorem rnadd (f : RegForm) : Statement (.rnadd f) := readCommon_encode _
theorem rnsub (f : RegForm) : Statement (.rnsub f) := readCommon_encode _
theorem rnmul (f : RegForm) : Statement (.rnmul f) := readCommon_encode _
theorem rnrev (f : RegForm) : Statement (.rnrev f) := readCommon_encode _
theorem ld (f : MemForm) : Statement (.ld f) := readCommon_encode _
theorem st (f : MemForm) : Statement (.st f) := readCommon_encode _
theorem ldc (f : MemForm) : Statement (.ldc f) := readCommon_encode _
theorem prf (f : MemForm) : Statement (.prf f) := readCommon_encode _
theorem lda (f : MemForm) : Statement (.lda f) := readCommon_encode _
theorem stl (f : MemForm) : Statement (.stl f) := readCommon_encode _
theorem xar (f : MemForm) : Statement (.xar f) := readCommon_encode _
theorem car (f : MemForm) : Statement (.car f) := readCommon_encode _
theorem atc (f : MemForm) : Statement (.atc f) := readCommon_encode _
theorem redc (f : MemForm) : Statement (.redc f) := readCommon_encode _
theorem ata (f : MemForm) : Statement (.ata f) := readCommon_encode _
theorem reda (f : MemForm) : Statement (.reda f) := readCommon_encode _
theorem ldf (f : MemForm) : Statement (.ldf f) := readCommon_encode _
theorem stf (f : MemForm) : Statement (.stf f) := readCommon_encode _
theorem atx (f : MemForm) : Statement (.atx f) := readCommon_encode _
theorem cas (f : MemForm) : Statement (.cas f) := readCommon_encode _
theorem fence (f : MemForm) : Statement (.fence f) := readCommon_encode _
theorem ldfe (f : MemForm) : Statement (.ldfe f) := readCommon_encode _
theorem stfe (f : MemForm) : Statement (.stfe f) := readCommon_encode _
theorem give (f : MemForm) : Statement (.give f) := readCommon_encode _
theorem giveDrainComplete (give : Nat) : Statement (.giveDrainComplete give) := readCommon_encode _
theorem take (f : MemForm) : Statement (.take f) := readCommon_encode _
theorem wmap (f : MemForm) : Statement (.wmap f) := readCommon_encode _
theorem wfill (f : MemForm) : Statement (.wfill f) := readCommon_encode _
theorem acopy (f : EngForm) : Statement (.acopy f) := readCommon_encode _
theorem acopyWsl (f : EngForm) : Statement (.acopyWsl f) := readCommon_encode _
theorem acopySb (f : EngForm) : Statement (.acopySb f) := readCommon_encode _
theorem acopyT (f : EngForm) : Statement (.acopyT f) := readCommon_encode _
theorem stageBarrierCount (eng : Nat) : Statement (.stageBarrierCount eng) := readCommon_encode _
theorem tld (f : EngForm) : Statement (.tld f) := readCommon_encode _
theorem tst (f : EngForm) : Statement (.tst f) := readCommon_encode _
theorem gpool (f : EngForm) : Statement (.gpool f) := readCommon_encode _
theorem coll (f : EngForm) : Statement (.coll f) := readCommon_encode _
theorem collPartialReceive (eng child : Nat) (fromRoot : Bool) (data : CollPartial) : Statement (.collPartialReceive eng child fromRoot data) := readCommon_encode _
theorem collAbortReceive (eng : Nat) (code : Byte) : Statement (.collAbortReceive eng code) := readCommon_encode _
theorem collTimeout (eng : Nat) : Statement (.collTimeout eng) := readCommon_encode _
theorem send (f : EngForm) : Statement (.send f) := readCommon_encode _
theorem ringAppend (eng : Nat) : Statement (.ringAppend eng) := readCommon_encode _
theorem rwait (f : EngForm) : Statement (.rwait f) := readCommon_encode _
theorem rwaitOpen (f : EngForm) : Statement (.rwaitOpen f) := readCommon_encode _
theorem rwaitClose (f : EngForm) : Statement (.rwaitClose f) := readCommon_encode _
theorem mma (f : EngForm) : Statement (.mma f) := readCommon_encode _
theorem matrixOpComplete (core : MatrixRun) : Statement (.matrixOpComplete core) := readCommon_encode _
theorem mconv (f : EngForm) : Statement (.mconv f) := readCommon_encode _
theorem tzero (f : RegForm) : Statement (.tzero f) := readCommon_encode _
theorem azero (f : RegForm) : Statement (.azero f) := readCommon_encode _
theorem amov (f : RegForm) : Statement (.amov f) := readCommon_encode _
theorem ald (f : RegForm) : Statement (.ald f) := readCommon_encode _
theorem ast (f : RegForm) : Statement (.ast f) := readCommon_encode _
theorem tmov (f : RegForm) : Statement (.tmov f) := readCommon_encode _
theorem tmovW (f : RegForm) : Statement (.tmovW f) := readCommon_encode _
theorem tmovR (f : RegForm) : Statement (.tmovR f) := readCommon_encode _
theorem hqnt (f : RegForm) : Statement (.hqnt f) := readCommon_encode _
theorem aconv (f : RegForm) : Statement (.aconv f) := readCommon_encode _
theorem aconvF32 (f : RegForm) : Statement (.aconvF32 f) := readCommon_encode _
theorem hdeq (f : RegForm) : Statement (.hdeq f) := readCommon_encode _
theorem wsinfo (f : RegForm) : Statement (.wsinfo f) := readCommon_encode _
theorem wswait (f : RegForm) : Statement (.wswait f) := readCommon_encode _
theorem slen (f : RegForm) : Statement (.slen f) := readCommon_encode _
theorem sseed (f : RegForm) : Statement (.sseed f) := readCommon_encode _
theorem sgen (f : RegForm) : Statement (.sgen f) := readCommon_encode _
theorem sand (f : RegForm) : Statement (.sand f) := readCommon_encode _
theorem sor (f : RegForm) : Statement (.sor f) := readCommon_encode _
theorem sxor (f : RegForm) : Statement (.sxor f) := readCommon_encode _
theorem sxnor (f : RegForm) : Statement (.sxnor f) := readCommon_encode _
theorem snot (f : RegForm) : Statement (.snot f) := readCommon_encode _
theorem smux (f : RegForm) : Statement (.smux f) := readCommon_encode _
theorem scnt (f : RegForm) : Statement (.scnt f) := readCommon_encode _
theorem sregen (f : RegForm) : Statement (.sregen f) := readCommon_encode _
theorem sshift (f : RegForm) : Statement (.sshift f) := readCommon_encode _
theorem smov (f : RegForm) : Statement (.smov f) := readCommon_encode _
theorem sclass (f : RegForm) : Statement (.sclass f) := readCommon_encode _
theorem schedulerIssueCycle (core sched : Nat) : Statement (.schedulerIssueCycle core sched) := readCommon_encode _
theorem lineFetch (uid wid : Nat) (flip : BitVec 512) : Statement (.lineFetch uid wid flip) := readCommon_encode _
theorem lineRefetch (uid wid : Nat) (flip : BitVec 512) : Statement (.lineRefetch uid wid flip) := readCommon_encode _
theorem pauseExpiry (uid wid lane : Nat) : Statement (.pauseExpiry uid wid lane) := readCommon_encode _
theorem resultWriteback (owed : Nat) : Statement (.resultWriteback owed) := readCommon_encode _
theorem loadSectorReturn (owed piece : Nat) : Statement (.loadSectorReturn owed piece) := readCommon_encode _
theorem markCheckAck (msg : Nat) : Statement (.markCheckAck msg) := readCommon_encode _
theorem homeMarkCheck (msg : Nat) : Statement (.homeMarkCheck msg) := readCommon_encode _
theorem deferredFaultDelivery (uid wid : Nat) : Statement (.deferredFaultDelivery uid wid) := readCommon_encode _
theorem holdingSlotReread (ctx : Nat) : Statement (.holdingSlotReread ctx) := readCommon_encode _
theorem engineCompletion (eng : EngineRun) : Statement (.engineCompletion eng) := readCommon_encode _
theorem engineSuspend (eng : Nat) : Statement (.engineSuspend eng) := readCommon_encode _
theorem phaseReady (uid : Nat) : Statement (.phaseReady uid) := readCommon_encode _
theorem phaseStart (uid : Nat) : Statement (.phaseStart uid) := readCommon_encode _
theorem gridAccept : Statement (.gridAccept) := readCommon_encode _
theorem gridSkipTimeout (gid : Nat) : Statement (.gridSkipTimeout gid) := readCommon_encode _
theorem blockPlace : Statement (.blockPlace) := readCommon_encode _
theorem restore (uid : Nat) : Statement (.restore uid) := readCommon_encode _
theorem warpRelease (uid wid : Nat) : Statement (.warpRelease uid wid) := readCommon_encode _
theorem blockRetire (uid : Nat) : Statement (.blockRetire uid) := readCommon_encode _
theorem gridRetire (gid : Nat) : Statement (.gridRetire gid) := readCommon_encode _
theorem childFold (parent : Nat) : Statement (.childFold parent) := readCommon_encode _
theorem l1Fill (msg : Nat) : Statement (.l1Fill msg) := readCommon_encode _
theorem lineWriteback (msg : Nat) : Statement (.lineWriteback msg) := readCommon_encode _
theorem writebackAck (msg : Nat) : Statement (.writebackAck msg) := readCommon_encode _
theorem l2Evict (line : Nat) : Statement (.l2Evict line) := readCommon_encode _
theorem l2Refill (line : Nat) (ecc : EccOutcome) : Statement (.l2Refill line ecc) := readCommon_encode _
theorem backInvalidate (line : Nat) : Statement (.backInvalidate line) := readCommon_encode _
theorem peerRequest (req : PeerReq) : Statement (.peerRequest req) := readCommon_encode _
theorem forwardedLineRequest (msg : Nat) : Statement (.forwardedLineRequest msg) := readCommon_encode _
theorem migrationHoldTimeout (msg : Nat) : Statement (.migrationHoldTimeout msg) := readCommon_encode _
theorem acquireFloorRecompute (ctx : Nat) : Statement (.acquireFloorRecompute ctx) := readCommon_encode _
theorem wellSwitchAccess (msg : Service) : Statement (.wellSwitchAccess msg) := readCommon_encode _
theorem queuedWellRelease (core : Nat) : Statement (.queuedWellRelease core) := readCommon_encode _
theorem wsWindowOpen (die group : Nat) : Statement (.wsWindowOpen die group) := readCommon_encode _
theorem wsWindowClose (die group : Nat) : Statement (.wsWindowClose die group) := readCommon_encode _
theorem gangBoundary : Statement (.gangBoundary) := readCommon_encode _
theorem sampleIntervalStart (core sched : Nat) : Statement (.sampleIntervalStart core sched) := readCommon_encode _
theorem sampleRecordWrite (core sched : Nat) : Statement (.sampleRecordWrite core sched) := readCommon_encode _
theorem trctlWrite (die : Nat) (value : BitVec 64) : Statement (.trctlWrite die value) := readCommon_encode _
theorem trstatWrite (die : Nat) (value : BitVec 32) : Statement (.trstatWrite die value) := readCommon_encode _
theorem doorbellWrite (queue : Nat) : Statement (.doorbellWrite queue) := readCommon_encode _
theorem registerWrite (offset : Nat) (value : BitVec 64) : Statement (.registerWrite offset value) := readCommon_encode _
theorem cmdLaunch : Statement (.cmdLaunch) := readCommon_encode _
theorem cmdCreateContext : Statement (.cmdCreateContext) := readCommon_encode _
theorem cmdKillContext : Statement (.cmdKillContext) := readCommon_encode _
theorem cmdWritePartitionTable : Statement (.cmdWritePartitionTable) := readCommon_encode _
theorem cmdWriteSliceTable : Statement (.cmdWriteSliceTable) := readCommon_encode _
theorem cmdWriteCollGroups : Statement (.cmdWriteCollGroups) := readCommon_encode _
theorem cmdEnterWeightLoad : Statement (.cmdEnterWeightLoad) := readCommon_encode _
theorem cmdLeaveWeightLoad : Statement (.cmdLeaveWeightLoad) := readCommon_encode _
theorem cmdSetCtxbase : Statement (.cmdSetCtxbase) := readCommon_encode _
theorem cmdWritePowerControl : Statement (.cmdWritePowerControl) := readCommon_encode _
theorem cmdWriteStitch : Statement (.cmdWriteStitch) := readCommon_encode _
theorem cmdReloadContext : Statement (.cmdReloadContext) := readCommon_encode _
theorem hostBar2Access (acc : HostAccess) : Statement (.hostBar2Access acc) := readCommon_encode _
theorem powerCompare (die : Nat) (meanMilliwatts : PowerReading) : Statement (.powerCompare die meanMilliwatts) := readCommon_encode _
theorem pllRelockDone (die : Nat) : Statement (.pllRelockDone die) := readCommon_encode _
theorem thermalThrottle (die : HeatReading) : Statement (.thermalThrottle die) := readCommon_encode _
theorem thermalRecover (die : HeatReading) : Statement (.thermalRecover die) := readCommon_encode _
theorem thermalTrip : Statement (.thermalTrip) := readCommon_encode _
theorem ptpSync (sync : PtpSync) : Statement (.ptpSync sync) := readCommon_encode _
theorem ptpHoldover : Statement (.ptpHoldover) := readCommon_encode _
theorem linkDown (port : Nat) : Statement (.linkDown port) := readCommon_encode _
theorem routeTimeout (msg : Nat) : Statement (.routeTimeout msg) := readCommon_encode _
theorem deviceReset : Statement (.deviceReset) := readCommon_encode _
theorem wipeComplete (image : FirmwareImage) : Statement (.wipeComplete image) := readCommon_encode _
theorem recoveryImageLoad (image : FirmwareImage) : Statement (.recoveryImageLoad image) := readCommon_encode _
theorem lifecycleChange (next : LifeCycle) : Statement (.lifecycleChange next) := readCommon_encode _
theorem spdmRequest (request : List Byte) : Statement (.spdmRequest request) := readCommon_encode _
theorem mgmtResetRequest : Statement (.mgmtResetRequest) := readCommon_encode _
theorem homeSliceAccess (msg : Service) : Statement (.homeSliceAccess msg) := readCommon_encode _

end Sys2Proof.Laws.CommonBits
end

