-- ==== Sys2Proof/Tests/Slice0.lean ====
section
/-! SUPPORT. Tests: words of every instruction written out from the encoding tables and from the manual's own assembled examples,
an ill-formed term for every check, and concrete states that meet the premises of the statements. -/

set_option Elab.async false  -- one theorem after another: each waits for the kernel

namespace Sys2Proof.Tests

open Sys2Proof Sys2Proof.Machine

/-! ### Decoding: every word is written from the field tables (R61, R67 to R79) and each class's table -/

/-- Guard p7, no switch marker. -/
def c7 (u : Bool) : Common := ⟨false, u, false, 7⟩

def R (u : Bool) (d a b e : BitVec 8) (dc ac bc ec : Cls) (ty : Ty) (sub : BitVec 3) (imm : BitVec 32) : RegForm :=
  { c := c7 u, d := d, a := a, b := b, e := e, dc := dc, ac := ac, bc := bc, ec := ec, ty := ty, sub := sub, imm := imm }

def M (u : Bool) (d base data cmp : BitVec 8) (duni buni : Bool) (w : Width) (sc : Scope) (sp : Space) (aop : BitVec 3)
    (off : BitVec 32) : MemForm :=
  { c := c7 u, d := d, base := base, data := data, cmp := cmp, duni := duni, buni := buni, width := w, scope := sc,
    space := sp, aop := aop, offset := off }

def B (link index : BitVec 8) (uni indexUni : Bool) (disp : BitVec 32) : BrForm :=
  { c := c7 false, link := link, index := index, uni := uni, indexUni := indexUni, disp := disp }

def E (token record conv aux : BitVec 8) (mod : BitVec 16) (imm : BitVec 32) : EngForm :=
  { c := c7 true, token := token, record := record, conv := conv, aux := aux, mod := mod, imm := imm }

/-- Every word decodes to the instruction beside it. -/
def reads (ws : List (Nat × Instr)) : Bool :=
  ws.all fun x =>
    match decodeWord (BitVec.ofNat 96 x.1) with
    | .ok i => i == x.2
    | .error _ => false

/-- A word is refused. -/
def refused (w : Nat) : Bool :=
  match decodeWord (BitVec.ofNat 96 w) with
  | .ok _ => false
  | .error _ => true

def wordsMisc : List (Nat × Instr) :=
    [(0x1C0000000000000000000000, .nop (R false 0 0 0 0 .vec .vec .vec .vec .b32 0 0x0)),
     (0x1C0104000000006800000010, .getsr (R false 4 0 0 0 .vec .vec .vec .vec .b64 0 0x10)),
     (0x1C020009000010000000001C, .setsr (R false 0 9 0 0 .vec .uni .vec .vec .b32 0 0x1c))]

theorem test_decodeMisc : reads wordsMisc = true := by decide +kernel

def wordsControl : List (Nat × Instr) :=
    [(0x1C10000000008000FFFFFFA8, .bra (B 0 0 true false 0xffffffa8)),
     (0x1C110006000040000000000C, .brx (B 0 6 false true 0xc)),
     (0x1C12140000000000000000E8, .call (B 20 0 false false 0xe8)),
     (0x1C1316080000000000000000, .calli (B 22 8 false false 0x0)),
     (0x1C1414000000000000000000, .ret (B 20 0 false false 0x0)),
     (0x1C1500000000000000000000, .exit (B 0 0 false false 0x0))]

theorem test_decodeControl : reads wordsControl = true := by decide +kernel

def wordsTrap : List (Nat × Instr) :=
    [(0x1C2000000000000000000021, .trap (R false 0 0 0 0 .vec .vec .vec .vec .b32 0 0x21)),
     (0x1C2100000000000000001234, .brk (R false 0 0 0 0 .vec .vec .vec .vec .b32 0 0x1234)),
     (0x1C22000000003010000000C8, .pause (R false 0 0 0 0 .vec .imm .vec .vec .n32 0 0xc8)),
     (0x1C2300000000000000000000, .yield (R false 0 0 0 0 .vec .vec .vec .vec .b32 0 0x0))]

theorem test_decodeTrap : reads wordsTrap = true := by decide +kernel

def wordsSync : List (Nat × Instr) :=
    [(0x1C3000000000000000000005, .bar (R false 0 0 0 0 .vec .vec .vec .vec .b32 0 0x5)),
     (0x1C31040800030000000000FF, .barPhase (R false 4 8 0 3 .vec .vec .vec .vec .b32 0 0xff)),
     (0x1C3200000000000000000000, .clbar (R false 0 0 0 0 .vec .vec .vec .vec .b32 0 0x0)),
     (0x1C3300000000000000000000, .gbar (R false 0 0 0 0 .vec .vec .vec .vec .b32 0 0x0)),
     (0x5C3403000000B01000000004, .cvinit (R true 3 0 0 0 .special .imm .vec .vec .n32 0 0x4))]

theorem test_decodeSync : reads wordsSync = true := by decide +kernel

def wordsWork : List (Nat × Instr) :=
    [(0x5C4002088003000100000000, .launch (E 0x2 8 0x80 3 0x1 0x0)),
     (0x5C41030A8000000000000000, .spawn (E 0x3 10 0x80 0 0x0 0x0)),
     (0x5C4280008000000000000000, .merge (E 0x80 0 0x80 0 0x0 0x0)),
     (0x5C4380008000000000000000, .syncSpawn (E 0x80 0 0x80 0 0x0 0x0)),
     (0x5C4402088005000000000000, .tsub (E 0x2 8 0x80 5 0x0 0x0)),
     (0x5C4580088000000000000000, .tsig (E 0x80 8 0x80 0 0x0 0x0))]

theorem test_decodeWork : reads wordsWork = true := by decide +kernel

def wordsSupervisor : List (Nat × Instr) :=
    [(0x5C6000040600140100000000, .sysTlbinv (R true 0 4 6 0 .vec .uni .uni .vec .b32 1 0x0)),
     (0x5C61020400005C0000000020, .sysFwake (R true 2 4 0 0 .uni .uni .imm .vec .b32 0 0x20)),
     (0x5C6202040500540000000010, .sysFkill (R true 2 4 5 0 .uni .uni .uni .vec .b32 0 0x10)),
     (0x5C6302040500540000000000, .sysEvict (R true 2 4 5 0 .uni .uni .uni .vec .b32 0 0x0)),
     (0x5C6402040000500000000000, .sysResume (R true 2 4 0 0 .uni .uni .vec .vec .b32 0 0x0)),
     (0x5C6502040600540100000000, .sysMcount (R true 2 4 6 0 .uni .uni .uni .vec .b32 1 0x0))]

theorem test_decodeSupervisor : reads wordsSupervisor = true := by decide +kernel

def wordsLegacy : List (Nat × Instr) :=
    [(0x1C7002010000A00000000000, .voteAgree (R false 2 1 0 0 .special .special .vec .vec .b32 0 0x0)),
     (0x1C7100000000301600000040, .barCnt (R false 0 0 0 0 .vec .imm .vec .vec .n32 6 0x40)),
     (0x1C7200000000000000000000, .sysFlush (R false 0 0 0 0 .vec .vec .vec .vec .b32 0 0x0)),
     (0x1C7300000000000000000000, .sysHalt (R false 0 0 0 0 .vec .vec .vec .vec .b32 0 0x0))]

theorem test_decodeLegacy : reads wordsLegacy = true := by decide +kernel

def wordsInteger : List (Nat × Instr) :=
    [(0x1C8003010200000800000000, .add (R false 3 1 2 0 .vec .vec .vec .vec .i32 0 0x0)),
     (0x1C8103010200041100000000, .sub (R false 3 1 2 0 .vec .vec .uni .vec .n32 1 0x0)),
     (0x1C82040200000C18FFFFFFFF, .mul (R false 4 2 0 0 .vec .vec .imm .vec .i64 0 0xffffffff)),
     (0x5C8304020600542000000000, .mulhi (R true 4 2 6 0 .uni .uni .uni .vec .n64 0 0x0)),
     (0x1C8403010200030800000007, .mad (R false 3 1 2 0 .vec .vec .vec .imm .i32 0 0x7)),
     (0x1C8503010200001000000000, .min (R false 3 1 2 0 .vec .vec .vec .vec .n32 0 0x0)),
     (0x1C8603010200000800000000, .max (R false 3 1 2 0 .vec .vec .vec .vec .i32 0 0x0)),
     (0x1C8703010000000900000000, .abs (R false 3 1 0 0 .vec .vec .vec .vec .i32 1 0x0)),
     (0x1C8804020000001800000000, .neg (R false 4 2 0 0 .vec .vec .vec .vec .i64 0 0x0)),
     (0x1C8904000201021000000000, .addc (R false 4 0 2 1 .vec .vec .vec .special .n32 0 0x0)),
     (0x1C8A04020700000BFFFFFFF0, .lea (R false 4 2 7 0 .vec .vec .vec .vec .i32 3 0xfffffff0)),
     (0x1C8B04020000100000000000, .mov (R false 4 2 0 0 .vec .uni .vec .vec .b32 0 0x0)),
     (0x1C8C08012345676889ABCDEF, .movi { c := c7 false, d := 8, value := 0x0123456789ABCDEF }),
     (0x1C8D040200050E0000000009, .sel (R false 4 2 0 5 .vec .vec .imm .special .b32 0 0x9))]

theorem test_decodeInteger : reads wordsInteger = true := by decide +kernel

def wordsBits : List (Nat × Instr) :=
    [(0x1C9004080200000000000000, .andB (R false 4 8 2 0 .vec .vec .vec .vec .b32 0 0x0)),
     (0x1C91040800000C0000000003, .orB (R false 4 8 0 0 .vec .vec .imm .vec .b32 0 0x3)),
     (0x1C9204080200040000000000, .xorB (R false 4 8 2 0 .vec .vec .uni .vec .b32 0 0x0)),
     (0x1C9304080000000000000000, .notB (R false 4 8 0 0 .vec .vec .vec .vec .b32 0 0x0)),
     (0x1C9404080200000000000000, .shl (R false 4 8 2 0 .vec .vec .vec .vec .b32 0 0x0)),
     (0x1C9504080200006800000000, .shr (R false 4 8 2 0 .vec .vec .vec .vec .b64 0 0x0)),
     (0x1C96040800000C0000000003, .sar (R false 4 8 0 0 .vec .vec .imm .vec .b32 0 0x3)),
     (0x1C9704080200000100000000, .rot (R false 4 8 2 0 .vec .vec .vec .vec .b32 1 0x0)),
     (0x1C9804080000000000000000, .clz (R false 4 8 0 0 .vec .vec .vec .vec .b32 0 0x0)),
     (0x1C9904080000006800000000, .popc (R false 4 8 0 0 .vec .vec .vec .vec .b64 0 0x0)),
     (0x1C9A04080000000000000000, .brev (R false 4 8 0 0 .vec .vec .vec .vec .b32 0 0x0)),
     (0x1C9B04080200001000000000, .bfe (R false 4 8 2 0 .vec .vec .vec .vec .n32 0 0x0)),
     (0x1C9C04080206000000000000, .bfi (R false 4 8 2 6 .vec .vec .vec .vec .b32 0 0x0))]

theorem test_decodeBits : reads wordsBits = true := by decide +kernel

def wordsPredicates : List (Nat × Instr) :=
    [(0x1CE0020100008C0D00000004, .cmp (R false 2 1 0 0 .special .vec .imm .vec .i32 5 0x4)),
     (0x1CE1020600008C2A3F000000, .fcmp (R false 2 6 0 0 .special .vec .imm .vec .f32 2 0x3f000000)),
     (0x1CE201020300A80500000000, .pand (R false 1 2 3 0 .special .special .special .vec .b32 5 0x0)),
     (0x5CE301020300A80000000000, .por (R true 1 2 3 0 .special .special .special .vec .b32 0 0x0)),
     (0x1CE401020300A80200000000, .pxor (R false 1 2 3 0 .special .special .special .vec .b32 2 0x0)),
     (0x1CE501020000A00000000000, .pnot (R false 1 2 0 0 .special .special .vec .vec .b32 0 0x0)),
     (0x1CE601070000A00000000000, .pmov (R false 1 7 0 0 .special .special .vec .vec .b32 0 0x0)),
     (0x1CE603020000200100000000, .pmovPack (R false 3 2 0 0 .vec .special .vec .vec .b32 1 0x0)),
     (0x1CE601020000800200000000, .pmovUnpack (R false 1 2 0 0 .special .vec .vec .vec .b32 2 0x0))]

theorem test_decodePredicates : reads wordsPredicates = true := by decide +kernel

def wordsLanes : List (Nat × Instr) :=
    [(0x1CF0040100000C0300000010, .shfl (R false 4 1 0 0 .vec .vec .imm .vec .b32 3 0x10)),
     (0x1CF104010000200200000000, .vote (R false 4 1 0 0 .vec .special .vec .vec .b32 2 0x0)),
     (0x1CF204010000001100000000, .redux (R false 4 1 0 0 .vec .vec .vec .vec .n32 1 0x0)),
     (0x1CF304020000006900000000, .matchL (R false 4 2 0 0 .vec .vec .vec .vec .b64 1 0x0)),
     (0x1CF404010000000700000000, .prefixL (R false 4 1 0 0 .vec .vec .vec .vec .b32 7 0x0))]

theorem test_decodeLanes : reads wordsLanes = true := by decide +kernel

def wordsFloat : List (Nat × Instr) :=
    [(0x1D0004080200002900000000, .fadd (R false 4 8 2 0 .vec .vec .vec .vec .f32 1 0x0)),
     (0x1D0104080200043000000000, .fsub (R false 4 8 2 0 .vec .vec .uni .vec .f16x2 0 0x0)),
     (0x1D02040800000C3A00003F80, .fmul (R false 4 8 0 0 .vec .vec .imm .vec .bf16x2 2 0x3f80)),
     (0x1D0304080206004300000000, .ffma (R false 4 8 2 6 .vec .vec .vec .vec .f64 3 0x0)),
     (0x1D0404080200002800000000, .fmin (R false 4 8 2 0 .vec .vec .vec .vec .f32 0 0x0)),
     (0x1D0504080200003000000000, .fmax (R false 4 8 2 0 .vec .vec .vec .vec .f16x2 0 0x0)),
     (0x1D0604080000003800000000, .fabs (R false 4 8 0 0 .vec .vec .vec .vec .bf16x2 0 0x0)),
     (0x1D0704080000004000000000, .fneg (R false 4 8 0 0 .vec .vec .vec .vec .f64 0 0x0)),
     (0x1D0804080000002800000000, .fclass (R false 4 8 0 0 .vec .vec .vec .vec .f32 0 0x0)),
     (0x1D0904080000003300000000, .frnd (R false 4 8 0 0 .vec .vec .vec .vec .f16x2 3 0x0))]

theorem test_decodeFloat : reads wordsFloat = true := by decide +kernel

def wordsTranscendental : List (Nat × Instr) :=
    [(0x1D5004080000002800000000, .frcp (R false 4 8 0 0 .vec .vec .vec .vec .f32 0 0x0)),
     (0x1D5104080000004000000000, .fsqrt (R false 4 8 0 0 .vec .vec .vec .vec .f64 0 0x0)),
     (0x1D5204080000003000000000, .frsq (R false 4 8 0 0 .vec .vec .vec .vec .f16x2 0 0x0)),
     (0x1D5304080000002800000000, .fexp2 (R false 4 8 0 0 .vec .vec .vec .vec .f32 0 0x0)),
     (0x1D5404080000003000000000, .flog2 (R false 4 8 0 0 .vec .vec .vec .vec .f16x2 0 0x0))]

theorem test_decodeTranscendental : reads wordsTranscendental = true := by decide +kernel

def wordsConversion : List (Nat × Instr) :=
    [(0x1D6001020005000900000000, .cvt (R false 1 2 0 5 .vec .vec .vec .vec .i32 1 0x0)),
     (0x1D6104010200003900000000, .pack (R false 4 1 2 0 .vec .vec .vec .vec .bf16x2 1 0x0)),
     (0x1D6204010000006000000000, .unpack (R false 4 1 0 0 .vec .vec .vec .vec .n16 0 0x0))]

theorem test_decodeConversion : reads wordsConversion = true := by decide +kernel

def wordsResidue : List (Nat × Instr) :=
    [(0x1D700100000030700000012C, .rnfwd (R false 1 0 0 0 .vec .imm .vec .vec .rt 0 0x12c)),
     (0x1D7103010200007000000000, .rnadd (R false 3 1 2 0 .vec .vec .vec .vec .rt 0 0x0)),
     (0x1D7203010200007000000000, .rnsub (R false 3 1 2 0 .vec .vec .vec .vec .rt 0 0x0)),
     (0x1D7303010200007000000000, .rnmul (R false 3 1 2 0 .vec .vec .vec .vec .rt 0 0x0)),
     (0x1D7404030000007000000000, .rnrev (R false 4 3 0 0 .vec .vec .vec .vec .rt 0 0x0))]

theorem test_decodeResidue : reads wordsResidue = true := by decide +kernel

def wordsData : List (Nat × Instr) :=
    [(0x1D80040600000101FFFFFFFE, .ld (M false 4 6 0 0 false false .b16 .warp .generic 1 0xfffffffe)),
     (0x1D8100121100020000000000, .st (M false 0 18 17 0 false false .b32 .warp .generic 0 0x0)),
     (0x5D8204060000531000000008, .ldc (M true 4 6 0 0 true true .b64 .warp .const 0 0x8)),
     (0x1D8300060000000100000000, .prf (M false 0 6 0 0 false false .b8 .warp .generic 1 0x0))]

theorem test_decodeData : reads wordsData = true := by decide +kernel

def wordsPaired : List (Nat × Instr) :=
    [(0x5DA00A060000528000000000, .lda (M true 10 6 0 0 true true .b32 .device .generic 0 0x0)),
     (0x1DA100060100028000000000, .stl (M false 0 6 1 0 false false .b32 .device .generic 0 0x0)),
     (0x1DA204060200032000000000, .xar (M false 4 6 2 0 false false .b64 .block .generic 0 0x0)),
     (0x1DA304060208024800000000, .car (M false 4 6 2 8 false false .b32 .cluster .well 0 0x0))]

theorem test_decodePaired : reads wordsPaired = true := by decide +kernel

def wordsCounter : List (Nat × Instr) :=
    [(0x1DB006020900028000000008, .atc (M false 6 2 9 0 false false .b32 .device .generic 0 0x8)),
     (0x1DB10002090102C300000000, .redc (M false 0 2 9 1 false false .b32 .system .generic 3 0x0))]

theorem test_decodeCounter : reads wordsCounter = true := by decide +kernel

def wordsAccumulate : List (Nat × Instr) :=
    [(0x1DC006020800036200000000, .ata (M false 6 2 8 0 false false .b64 .die .generic 2 0x0)),
     (0x1DC100020400028000000000, .reda (M false 0 2 4 0 false false .b32 .device .generic 0 0x0))]

theorem test_decodeAccumulate : reads wordsAccumulate = true := by decide +kernel

def wordsFlag : List (Nat × Instr) :=
    [(0x5DD00A060000528000000000, .ldf (M true 10 6 0 0 true true .b32 .device .generic 0 0x0)),
     (0x1DD100060100028000000000, .stf (M false 0 6 1 0 false false .b32 .device .generic 0 0x0))]

theorem test_decodeFlag : reads wordsFlag = true := by decide +kernel

def wordsExchange : List (Nat × Instr) :=
    [(0x1DE00602090002A000000000, .atx (M false 6 2 9 0 false false .b32 .domain .generic 0 0x0)),
     (0x1DE10A040C0E138000000000, .cas (M false 10 4 12 14 false true .b64 .device .generic 0 0x0))]

theorem test_decodeExchange : reads wordsExchange = true := by decide +kernel

def wordsFence : List (Nat × Instr) :=
    [(0x1DF000000000008300000000, .fence (M false 0 0 0 0 false false .b8 .device .generic 3 0x0))]

theorem test_decodeFence : reads wordsFence = true := by decide +kernel

def wordsWells : List (Nat × Instr) :=
    [(0x1E0003040000020800000010, .ldfe (M false 3 4 0 0 false false .b32 .warp .well 0 0x10)),
     (0x1E0100040300020800000000, .stfe (M false 0 4 3 0 false false .b32 .warp .well 0 0x0)),
     (0x5E0200000000000000000503, .give (M true 0 0 0 0 false false .b8 .warp .generic 0 0x503)),
     (0x5E0314000000400000000001, .take (M true 20 0 0 0 true false .b8 .warp .generic 0 0x1)),
     (0x5E0409000000400000000002, .wmap (M true 9 0 0 0 true false .b8 .warp .generic 0 0x2)),
     (0x5E0500040607120900000000, .wfill (M true 0 4 6 7 false true .b32 .warp .well 1 0x0))]

theorem test_decodeWells : reads wordsWells = true := by decide +kernel

def wordsCopies : List (Nat × Instr) :=
    [(0x5E10020A8014000200001000, .acopy (E 0x2 10 0x80 20 0x2 0x1000)),
     (0x5E10020A8014000400000040, .acopyWsl (E 0x2 10 0x80 20 0x4 0x40)),
     (0x5E10020A8014000800000040, .acopySb (E 0x2 10 0x80 20 0x8 0x40)),
     (0x5E11020A801400030000001E, .acopyT (E 0x2 10 0x80 20 0x3 0x1e))]

theorem test_decodeCopies : reads wordsCopies = true := by decide +kernel

def wordsTensor : List (Nat × Instr) :=
    [(0x5E20020A800300000000001E, .tld (E 0x2 10 0x80 3 0x0 0x1e)),
     (0x5E21020A800700000000001E, .tst (E 0x2 10 0x80 7 0x0 0x1e))]

theorem test_decodeTensor : reads wordsTensor = true := by decide +kernel

def wordsEngines : List (Nat × Instr) :=
    [(0x5E3010028000000000000000, .gpool (E 0x10 2 0x80 0 0x0 0x0)),
     (0x5E3110028000000000000000, .coll (E 0x10 2 0x80 0 0x0 0x0)),
     (0x5E3210028009000000000000, .send (E 0x10 2 0x80 9 0x0 0x0)),
     (0x5E338000800B000000000000, .rwait (E 0x80 0 0x80 11 0x0 0x0)),
     (0x5E338000800B000100000040, .rwaitOpen (E 0x80 0 0x80 11 0x1 0x40)),
     (0x5E338000800B000200000000, .rwaitClose (E 0x80 0 0x80 11 0x2 0x0))]

theorem test_decodeEngines : reads wordsEngines = true := by decide +kernel

def wordsMatrix : List (Nat × Instr) :=
    [(0x5E80010A000800220000000C, .mma (E 0x1 10 0x0 8 0x22 0xc))]

theorem test_decodeMatrix : reads wordsMatrix = true := by decide +kernel

def wordsConvolution : List (Nat × Instr) :=
    [(0x5E90010A8000001000000C10, .mconv (E 0x1 10 0x80 0 0x10 0xc10))]

theorem test_decodeConvolution : reads wordsConvolution = true := by decide +kernel

def wordsTiles : List (Nat × Instr) :=
    [(0x5EA001000000800000000000, .tzero (R true 1 0 0 0 .special .vec .vec .vec .b32 0 0x0)),
     (0x5EA10F000000800000000000, .azero (R true 15 0 0 0 .special .vec .vec .vec .b32 0 0x0)),
     (0x5EA202030000A00000000000, .amov (R true 2 3 0 0 .special .special .vec .vec .b32 0 0x0)),
     (0x1EA3040100002C010000003F, .ald (R false 4 1 0 0 .vec .special .imm .vec .b32 1 0x3f)),
     (0x1EA401040500800000000000, .ast (R false 1 4 5 0 .special .vec .vec .vec .b32 0 0x0)),
     (0x5EA501020000A00000000000, .tmov (R true 1 2 0 0 .special .special .vec .vec .b32 0 0x0)),
     (0x1EA5010900008C0100000011, .tmovW (R false 1 9 0 0 .special .vec .imm .vec .b32 1 0x11)),
     (0x1EA509010300200200000000, .tmovR (R false 9 1 3 0 .vec .special .vec .vec .b32 2 0x0))]

theorem test_decodeTiles : reads wordsTiles = true := by decide +kernel

def wordsQuantise : List (Nat × Instr) :=
    [(0x1EB008021404052800000000, .hqnt (R false 8 2 20 4 .vec .vec .uni .uni .f32 0 0x0)),
     (0x5EB101020000A03100000000, .aconv (R true 1 2 0 0 .special .special .vec .vec .f16x2 1 0x0)),
     (0x5EB101020000A02800000000, .aconvF32 (R true 1 2 0 0 .special .special .vec .vec .f32 0 0x0)),
     (0x1EB208021404052800010203, .hdeq (R false 8 2 20 4 .vec .vec .uni .uni .f32 0 0x10203))]

theorem test_decodeQuantise : reads wordsQuantise = true := by decide +kernel

def wordsWeightStore : List (Nat × Instr) :=
    [(0x5EC008000000706800000005, .wsinfo (R true 8 0 0 0 .uni .imm .vec .vec .b64 0 0x5)),
     (0x5EC1000000000000000500C8, .wswait (R true 0 0 0 0 .vec .vec .vec .vec .b32 0 0x500c8))]

theorem test_decodeWeightStore : reads wordsWeightStore = true := by decide +kernel

def wordsStipple : List (Nat × Instr) :=
    [(0x5F0000000000301000000100, .slen (R true 0 0 0 0 .vec .imm .vec .vec .n32 0 0x100)),
     (0x5F01000400001C680000003F, .sseed (R true 0 4 0 0 .vec .uni .imm .vec .b64 0 0x3f)),
     (0x1F02010200008C1000000002, .sgen (R false 1 2 0 0 .special .vec .imm .vec .n32 0 0x2)),
     (0x5F0303010200A80100000000, .sand (R true 3 1 2 0 .special .special .special .vec .b32 1 0x0)),
     (0x5F0403010200A80000000000, .sor (R true 3 1 2 0 .special .special .special .vec .b32 0 0x0)),
     (0x5F051F010200A80000000000, .sxor (R true 31 1 2 0 .special .special .special .vec .b32 0 0x0)),
     (0x5F0603010200A80000000000, .sxnor (R true 3 1 2 0 .special .special .special .vec .b32 0 0x0)),
     (0x5F0703010000A00000000000, .snot (R true 3 1 0 0 .special .special .vec .vec .b32 0 0x0)),
     (0x5F0803010200AA0100000000, .smux (R true 3 1 2 0 .special .special .special .special .b32 1 0x0)),
     (0x1F0903010000201000000000, .scnt (R false 3 1 0 0 .vec .special .vec .vec .n32 0 0x0)),
     (0x5F0A03010000AC0000000007, .sregen (R true 3 1 0 0 .special .special .imm .vec .b32 0 0x7)),
     (0x5F0B03010200A40000000000, .sshift (R true 3 1 2 0 .special .special .uni .vec .b32 0 0x0)),
     (0x5F0C03010000A00000000000, .smov (R true 3 1 0 0 .special .special .vec .vec .b32 0 0x0)),
     (0x5F0D04010000606800000000, .sclass (R true 4 1 0 0 .uni .special .vec .vec .b64 0 0x0))]

theorem test_decodeStipple : reads wordsStipple = true := by decide +kernel

end Sys2Proof.Tests

namespace Sys2Proof.Tests

open Sys2Proof Sys2Proof.Machine

/-! ### Reserved encodings: one term for each check (R80), and the same of words that no field code reads (R72, R74) -/

def ill (xs : List Instr) : Bool := xs.all fun i => !wellFormed i

theorem test_illRegister : ill
    [.trap (R true 0 0 0 0 .vec .vec .vec .vec .b32 0 1),          -- U = 1 where it is reserved (R177)
     .add (R false 3 1 2 0 .imm .vec .vec .vec .i32 0 0),          -- D from imm32 (R68)
     .add (R false 3 1 2 0 .vec .special .vec .vec .i32 0 0),      -- no special file at A (R68)
     .add (R false 3 1 2 0 .vec .vec .imm .vec .i32 0 5),          -- a register field with class imm32 (R68)
     .mov (R false 3 200 0 0 .vec .uni .vec .vec .b32 0 0),        -- s200 (R69)
     .sel (R false 3 1 2 8 .vec .vec .vec .special .b32 0 0),      -- p8 (R69)
     .add (R true 3 1 2 0 .vec .uni .uni .vec .i32 0 0),           -- U = 1 and a vector D (R70)
     .add (R false 3 1 2 0 .uni .vec .vec .vec .i32 0 0),          -- U = 0 and a uniform D (R70)
     .add (R true 3 1 2 0 .uni .vec .uni .vec .i32 0 0),           -- U = 1 and a vector source (R70)
     .abs (R false 3 1 2 0 .vec .vec .vec .vec .i32 0 0),          -- an unused field (R73)
     .add (R false 3 1 2 0 .vec .vec .vec .vec .f32 0 0),          -- a type not accepted (R72)
     .min (R false 3 1 2 0 .vec .vec .vec .vec .i32 1 0),          -- a sub not accepted (R142)
     .frnd (R false 4 8 0 0 .vec .vec .vec .vec .f32 4 0),         -- a rounding mode that is reserved (R96)
     .add (R false 3 1 2 0 .vec .vec .vec .vec .i32 0 7),          -- an immediate that nothing reads (R73)
     .cmp (R false 2 1 3 0 .special .vec .vec .vec .b32 2 0),      -- `.lt` of a b type (R151)
     .getsr (R false 4 0 0 0 .vec .vec .vec .vec .b64 0 0x110),    -- bits 31:8 (R140)
     .vote (R false 4 1 0 0 .vec .special .vec .vec .b32 0 0),     -- `vote.every` into a vector (R154)
     .pmovUnpack (R true 1 2 0 0 .special .uni .vec .vec .b32 2 0) -- uniform `pmov.unpack` (R153)
    ] = true := by decide +kernel

theorem test_illMemory : ill
    [.fence (M true 0 0 0 0 false false .b8 .device .generic 3 0),      -- U = 1 (R229)
     .st (M false 4 6 2 0 false false .b32 .warp .generic 0 0),         -- an unused D (R75)
     .ld (M false 4 6 0 0 true false .b32 .warp .generic 0 0),          -- a uniform D with U = 0 (R75)
     .ld (M true 4 6 0 0 true false .b32 .warp .generic 0 0),           -- a vector base with U = 1 (R75)
     .ld (M false 4 200 0 0 false true .b32 .warp .generic 0 0),        -- s200 as base (R69)
     .ld (M false 4 6 1 0 false false .b32 .warp .generic 0 0),         -- an unused data field (R75)
     .ld (M false 4 6 0 1 false false .b32 .warp .generic 0 0),         -- an unused cmp field (R75)
     .atc (M false 6 2 9 0 false false .b128 .device .generic 0 0),     -- a width not accepted (R225)
     .ld (M false 4 6 0 0 false false .b32 .device .generic 0 0),       -- a scope where there is none (R219)
     .ldc (M false 4 6 0 0 false false .b32 .warp .generic 0 0),        -- `ldc` outside const space (R219)
     .ata (M false 6 2 9 0 false false .b32 .device .generic 3 0),      -- an operation that is reserved (R225)
     .fence (M false 0 0 0 0 false false .b8 .device .generic 3 8),     -- an offset that nothing reads (R229)
     .ld (M false 4 6 0 0 false false .b32 .warp .generic 1 0),         -- sign extension of a word (R219)
     .ata (M false 6 2 9 0 false false .b64 .device .generic 0 0),      -- the width that `.f32` fixes (R225)
     .atc (M false 6 2 9 1 false false .b32 .device .generic 0 0),      -- the signed bit of `add` (R225)
     .give (M true 0 0 0 0 false false .b8 .warp .generic 0 12)         -- slot 12 (R230)
    ] = true := by decide +kernel

theorem test_illBranch : ill
    [.bra { B 0 0 false false 0 with c := c7 true }, .bra (B 2 0 false false 0), .bra (B 0 2 false false 0),
     .bra (B 0 0 false true 0), .brx (B 0 200 false true 0), .exit (B 0 0 true false 0), .ret (B 4 0 false false 8)] = true := by
  decide +kernel

theorem test_illEngine : ill
    [.acopy { E 2 10 0x80 20 0 4096 with c := c7 false },   -- U = 0 (R79)
     .acopy (E 0x80 10 0x80 20 0 4096),                     -- a token is required (R245)
     .merge (E 2 0 0x80 0 0 0),                             -- none may be named (R192)
     .rwait (E 0x80 2 0x80 1 0 0),                          -- rec has to be zero (R257)
     .acopy (E 2 200 0x80 20 0 4096),                       -- s200 (R69)
     .acopy (E 2 10 0 20 0 4096),                           -- no convergence register (R245)
     .mma (E 1 10 16 8 0x22 12),                            -- cv16 (R69)
     .acopy (E 2 10 0x80 20 0x10 4096),                     -- mod bits 15:4 (R245)
     .mma (E 1 10 0 8 0x28 12),                             -- format 8 (R265)
     .tld (E 2 10 0x80 8 0 30)                              -- tile 8 (R249)
    ] = true := by decide +kernel

theorem test_illMove : ill [.movi { c := c7 true, d := 128, value := 1 }] = true := by decide +kernel

theorem test_refusedWords :
    [0x1C8003010200007800000000,  -- type 0x0F (R72)
     0x1D80030500000F0000000040,  -- width 15 (R74)
     0x1D8003050000020000000040 + 7 * 2 ^ 37,  -- scope 7 (R74)
     0x1D8003050000020000000040 + 3 * 2 ^ 35,  -- space 3 (R74)
     0x1C1000000000200000000000,  -- a reserved bit of the branch form (R76)
     0x1C5000000000000000000000,  -- class 0x05 (R83)
     0x1C8E00000000000000000000].all refused = true := by decide +kernel

end Sys2Proof.Tests

/-! ### Witnesses: states that meet the premises of the statements -/

namespace Sys2Proof.Tests

open Sys2Proof Sys2Proof.Machine

/-- The conditions of `Issuable`, computed. -/
def issuableB (i : Instr) (s : State) (c : Ic) : Bool :=
  decide (s.issueCtx (common i) = some c) && c.active != 0 && c.w.acq.isNone
    && ((c.beginners == 0 && !endsRegion i) || s.checksIn c.w)
    && (!isPrivileged i || s.privileged c.b.ctx) && wellFormed i
    && ((usesOf i).all (useOk c.b.kernel) && (tokenOf i).all fun r => r < 16 * c.b.kernel.ns)
    && (!c.b.hcheck || !hazard c.begun i) && !pendingToken c.w i
    && ((consumed c.w i).isEmpty || (!s.accessesPending c.w.uid c.w.wid && !s.ringBlocked c.begun.w))
    && (!isEngine i || decide ((s.enginesOf c.w.uid c.w.wid).length < 16)) && (!owesResult i || decide (c.w.outstanding < 63))

theorem issuable_of {i : Instr} {s : State} {c : Ic} (h : issuableB i s c = true) : Issuable i s c := by
  unfold issuableB at h
  simp only [Bool.and_eq_true, Bool.or_eq_true, Bool.not_eq_true', decide_eq_true_eq, bne_iff_ne, ne_eq, beq_iff_eq,
    Option.isNone_iff_eq_none, List.isEmpty_iff] at h
  obtain ⟨⟨⟨⟨⟨⟨⟨⟨⟨⟨⟨h1, h2⟩, h3⟩, h4⟩, h5⟩, h6⟩, h7⟩, h8⟩, h9⟩, h10⟩, h11⟩, h12⟩ := h
  refine ⟨h1, h2, h3, fun hc => ?_, fun hp => ?_, h6, by simpa using h7, fun hh => ?_, h9, h10, fun he => ?_, fun ho => ?_⟩
  · rcases h4 with ⟨a, b⟩ | h4
    · rcases hc with hc | hc
      · exact absurd a hc
      · rw [b] at hc; cases hc
    · exact h4
  · simpa [hp] using h5
  · simpa [hh] using h8
  · simpa [he] using h11
  · simpa [ho] using h12

/-- In this state the instruction issues, and the conditions `ok` hold in the state in which its meaning runs. -/
def meets (s : State) (i : Instr) (ok : Ic → State → Bool) : Bool :=
  match s.issueCtx (common i) with
  | some c => issuableB i s c && ok (enteredIc i s c) (enteredState i s c)
  | none => false

theorem meets_witness {s : State} {i : Instr} {ok : Ic → State → Bool} (h : meets s i ok = true) :
    ∃ c, Issuable i s c ∧ ok (enteredIc i s c) (enteredState i s c) = true := by
  unfold meets at h
  split at h
  · rw [Bool.and_eq_true] at h
    exact ⟨_, issuable_of h.1, h.2⟩
  · cases h

/-- A word as the first instruction after reset (log entry 9). -/
def boot (w : Nat) : State := State.reset.withFetchWord 96 w

/-- Every word issues as the first instruction. -/
def issues (ws : List (Nat × Instr)) : Bool := ws.all fun x => meets (boot x.1) x.2 fun _ _ => true


theorem wit_issuesMisc : issues wordsMisc = true := by decide +kernel

theorem wit_issuesControl : issues wordsControl = true := by decide +kernel

theorem wit_issuesTrap : issues wordsTrap = true := by decide +kernel

theorem wit_issuesSync : issues wordsSync = true := by decide +kernel

theorem wit_issuesWork : issues wordsWork = true := by decide +kernel

theorem wit_issuesSupervisor : issues wordsSupervisor = true := by decide +kernel

theorem wit_issuesLegacy : issues wordsLegacy = true := by decide +kernel

theorem wit_issuesInteger : issues wordsInteger = true := by decide +kernel

theorem wit_issuesBits : issues wordsBits = true := by decide +kernel

theorem wit_issuesPredicates : issues wordsPredicates = true := by decide +kernel

theorem wit_issuesLanes : issues wordsLanes = true := by decide +kernel

theorem wit_issuesFloat : issues wordsFloat = true := by decide +kernel

theorem wit_issuesTranscendental : issues wordsTranscendental = true := by decide +kernel

theorem wit_issuesConversion : issues wordsConversion = true := by decide +kernel

theorem wit_issuesResidue : issues wordsResidue = true := by decide +kernel

theorem wit_issuesData : issues wordsData = true := by decide +kernel

theorem wit_issuesPaired : issues wordsPaired = true := by decide +kernel

theorem wit_issuesCounter : issues wordsCounter = true := by decide +kernel

theorem wit_issuesAccumulate : issues wordsAccumulate = true := by decide +kernel

theorem wit_issuesFlag : issues wordsFlag = true := by decide +kernel

theorem wit_issuesExchange : issues wordsExchange = true := by decide +kernel

theorem wit_issuesFence : issues wordsFence = true := by decide +kernel

theorem wit_issuesWells : issues wordsWells = true := by decide +kernel

theorem wit_issuesCopies : issues wordsCopies = true := by decide +kernel

theorem wit_issuesTensor : issues wordsTensor = true := by decide +kernel

theorem wit_issuesEngines : issues wordsEngines = true := by decide +kernel

theorem wit_issuesMatrix : issues wordsMatrix = true := by decide +kernel

theorem wit_issuesConvolution : issues wordsConvolution = true := by decide +kernel

theorem wit_issuesTiles : issues wordsTiles = true := by decide +kernel

theorem wit_issuesQuantise : issues wordsQuantise = true := by decide +kernel

theorem wit_issuesWeightStore : issues wordsWeightStore = true := by decide +kernel

theorem wit_issuesStipple : issues wordsStipple = true := by decide +kernel
/-- One context whose table maps the first 512 MiB of addresses to the same physical addresses (R409 to R412). -/
def pageTables : Memory := [(0x10000, 1), (0x10002, 2), (0x20000, 0xB9)]

/-- The boot state of an instruction with page tables, one mapped well, uniform registers and bytes in memory; lane 0 is the bundle; line 0 is in the L2. -/
def world (i : Instr) (regs : List (Nat × Word)) (bytes : List (Nat × Nat × Nat)) : State :=
  let w := (encode i).getD 0
  let s := boot w.toNat
  { s with
    mem := bytes.foldl (fun (m : Memory) x => writeNat m x.1 x.2.1 x.2.2) (writeNat pageTables 0 64 (bootLine w).toNat),
    ctxs := [{ id := 0, created := true, priv := true, ptroot := 0x10000 }],
    blocks := [{ bootBlock with bank := [(0, { well := 0, first := 0, count := 16 })] }],
    warps := [{ bootWarp w with sregs := regs, bundle := some ⟨1, 0, 0⟩ }], l2 := [{ line := 0 }] }

/-- As `meets` in a world. -/
def meetsIn (i : Instr) (regs : List (Nat × Word)) (bytes : List (Nat × Nat × Nat)) (ok : Ic → State → Bool) : Bool :=
  meets (world i regs bytes) i ok

/-! Control -/

def lands (f : BrForm) (tgt : Ic → Nat → BitVec 64) : Ic → State → Bool := fun c s =>
  let ts := (lanesOf c.active).map fun l => (l, tgt c l)
  let bs := (s.landings c.w ts).1
  (!f.uni || ts.all fun x => x.2 == tgt c c.lane0) && bs.length == ts.length
    && bs.all fun x => x.2.2.st == .good && landsOn x.2.2 x.2.1.toNat

theorem wit_controlTransfers :
    ((let rel (f : BrForm) : Ic → Nat → BitVec 64 := fun c _ => c.pc.setWidth 64 + f.disp.signExtend 64
     let idx (f : BrForm) : Ic → Nat → BitVec 64 := fun c l =>
       (if f.indexUni then c.w.sget64 f.index.toNat else c.w.vget64 f.index.toNat l) + f.disp.signExtend 64
     let back (f : BrForm) : Ic → Nat → BitVec 64 := fun c l => c.w.vget64 f.link.toNat l
     let x := B 0 6 true true 0
     let y := B 254 6 false false 0
     meetsIn (.bra (B 0 0 true false 0)) [] [] (lands (B 0 0 true false 0) (rel (B 0 0 true false 0))) &&
     meetsIn (.brx x) [] [] (lands x (idx x)) && meetsIn (.call (B 20 0 false false 0)) [] [] (lands (B 20 0 false false 0) (rel (B 20 0 false false 0)))
     && meetsIn (.calli y) [] [] (lands y (idx y)) && meetsIn (.ret (B 20 0 false false 0)) [] [] (lands (B 20 0 false false 0) (back (B 20 0 false false 0))))) = true := by
  decide +kernel

theorem wit_trapsAndExit :
    ((meetsIn (.exit (B 0 0 false false 0)) [] [] fun c s => c.othersLive || releaseReady s c .block) &&
    (meetsIn (.trap (R false 0 0 0 0 .vec .vec .vec .vec .b32 0 0xEF)) [] [] fun c s => !s.strongBusy c.w.uid c.w.wid) &&
    (meetsIn (.brk (R false 0 0 0 0 .vec .vec .vec .vec .b32 0 0xFFFF)) [] []
      fun c s => !s.strongBusy c.w.uid c.w.wid && s.blockCanLeave c.b) &&
    (meetsIn (.sysHalt (R false 0 0 0 0 .vec .vec .vec .vec .b32 0 0)) [] []
      fun c s => s.plat.ladderHalt != 3 && !s.strongBusy c.w.uid c.w.wid) &&
    (meetsIn (.sysFlush (R false 0 0 0 0 .vec .vec .vec .vec .b32 0 0)) [] [] fun c s =>
      let u := if c.w.flushed then s
        else (s.flushCore c.w.core).modWarp c.w.uid c.w.wid fun w => { w with flushed := true }
      decide (s.plat.ladderFlush.toNat < 2) && !u.wbsOut c.w.core && releaseReady u c .device) &&
    (meets (let s := world (.sysFlush (R false 0 0 0 0 .vec .vec .vec .vec .b32 0 0)) [] []
            { s with plat := { s.plat with ladderFlush := 2 } }) (.sysFlush (R false 0 0 0 0 .vec .vec .vec .vec .b32 0 0))
      fun c s => s.plat.ladderFlush.toNat == 2 && !s.strongBusy c.w.uid c.w.wid)) = true := by decide +kernel

/-- As `meetsIn`, in a world changed by `g`. -/
def meetsAt (g : State → State) (i : Instr) (regs : List (Nat × Word)) (bytes : List (Nat × Nat × Nat))
    (ok : Ic → State → Bool) : Bool := meets (g (world i regs bytes)) i ok

def blockOf0 (g : Block → Block) (s : State) : State := s.modBlock 0 g

theorem wit_barriers :
    ((meetsIn (.bar (R false 0 0 0 0 .vec .vec .vec .vec .b32 0 15)) [] []
      fun c s => !(c.b.bars.any fun x => x.id == 15 && x.need.isSome) && releaseReady s c .block) &&
    (meetsAt (fun s => { s with grids := s.grids.map fun (g : Grid) => { g with launch := { g.launch with cgroup := 8, cores := true } } })
      (.clbar (R false 0 0 0 0 .vec .vec .vec .vec .b32 0 0)) [] [] fun c s =>
        c.b.parent.isNone && (s.grid? c.b.gid).any (fun g => g.launch.cgroup != 0) && releaseReady s c .cluster) &&
    (meetsAt (fun s => { s with grids := s.grids.map fun (g : Grid) => { g with launch := { g.launch with cgroup := 8, cores := true } } })
      (.gbar (R false 0 0 0 0 .vec .vec .vec .vec .b32 0 0)) [] [] fun c s =>
        c.b.parent.isNone && (s.grid? c.b.gid).any (fun g => g.launch.cores) && releaseReady s c .device) &&
    (let f := R true 15 0 0 0 .special .imm .vec .vec .n32 0 1
     meetsIn (.cvinit f) [] [] fun c _ =>
      let n := srcA c f false .n32 c.lane0
      decide (0 < n ∧ n ≤ 32 ∧ n ≤ c.b.nwarps) && (c.b.cv f.d.toNat).state != 1 && (c.b.cv f.d.toNat).state != 2) &&
    (let f := R false 0 0 0 0 .vec .imm .vec .vec .n32 7 1024
     meetsIn (.barCnt f) [] [] fun c s =>
      let n := srcA c f false .n32 c.lane0
      decide (0 < n ∧ n ≤ 1024) && ((lanesOf c.active).all fun l => srcA c f false .n32 l == n)
        && ((c.b.bars.find? fun x => x.id == f.sub.toNat).all fun x => x.need == some n) && releaseReady s c .block) &&
    (let f := R false 4 8 0 0 .vec .vec .vec .vec .b32 0 0
     meetsIn (.barPhase f) [] [] fun c s =>
      let p := phaseOpOf f c.pc
      let u := (((afterRelease s c .device).park c .barrier).modWarp c.w.uid c.w.wid
        fun w => w.modThreads c.active fun _ t => { t with pc := nextPc c.pc }).modBlock c.b.uid
        fun b => { b with phArr := b.phArr ++ c.arrivals, phClash := b.phClash || b.phase.any fun q => q != p,
                          phase := b.phase.orElse fun _ => some p }
      c.w.outstanding == 0 && (s.phaseLines c.b p).isOk && releaseReady s c .device
        && (u.block? c.b.uid).all fun b => !b.phClash)) = true := by decide +kernel

/-- A kernel descriptor at 0x2000 (R447), a launch record that names it at 0x1000 (R339), both read through s8. -/
def kernelBytes : Nat × Nat × Nat := (0x2000, 128, 2 ^ 64 + 2 ^ 72 + 4 * 2 ^ 240)
def launchBytes : Nat × Nat × Nat := (0x1000, 128, 0x2000 + 2 ^ 256 + 2 ^ 20 * 2 ^ 288 + 32 * 2 ^ 320)

/-- Partition 0 is the first core (R337). -/
def partitioned (s : State) : State :=
  { s with plat := { s.plat with partitions := [{ valid := true, wgran := 96, cmask := 1, clus := [1] }] } }

theorem wit_launch : (let f := E 2 8 0x80 3 1 0
    meetsAt partitioned (.launch f) [(8, 0x1000)] [kernelBytes, launchBytes] fun c s =>
      c.w.wid == 0 && c.active.getLsbD 0 && decide (c.b.depth < 10) && releaseReady s c .device
        && match (released s c .device).record c f.record.toNat 2 with
          | (.ok v, s1) => (s1.checkLaunch c.b.ctx v).isSome
          | _ => false) = true := by decide +kernel

/-- A spawn record with one view of 4 bytes at offset 0 of the parent, in slot 1 of the child (R194). -/
theorem wit_spawn : (let f := E 3 8 0x80 0 0 0
    meetsIn (.spawn f) [(8, 0x1000)]
      [kernelBytes, (0x1000, 64, 0x2000 + 2 ^ 128 + 32 * 2 ^ 168), (0x1040, 16, 4 * 2 ^ 52 + 2 ^ 72)] fun c s =>
      releaseReady s c .device && match (released s c .device).record c f.record.toNat 1 with
        | (.ok v, s1) =>
          decide (fieldOf v 128 4 < 9) && match s1.linesAt c (engineUnits c.w.core) (c.w.sget64 f.record.toNat + 64) (ceilDiv (fieldOf v 128 4) 4) with
            | (.ok bs, s2) => match s2.checkSpawn c.b v (natOfBytes bs) with
              | .ok (_, _, vs) =>
                vs.length == 1 && (takeSpares ((vs.flatMap View.childSlots).eraseDups) s2 (coreCluster c.w.core)
                  (s2.wellsTaken (coreCluster c.w.core))).isSome
              | _ => false
            | _ => false
        | _ => false) = true := by decide +kernel

theorem wit_mergeAndSync :
    ((meetsIn (.merge (E 0x80 0 0x80 0 0 0)) [] [] fun c s => releaseReady s c .device) &&
    (meetsIn (.syncSpawn (E 0x80 0 0x80 0 0 0)) [] [] fun c s => ringReady s c)) = true := by decide +kernel

/-- A task record at 0x1000 that names the launch record at 0x1080 (R200). -/
theorem wit_tasks :
    ((let f := E 2 8 0x80 63 0 0
     meetsAt partitioned (.tsub f) [(8, 0x1000)]
       [kernelBytes, (0x1000, 128, 0x1080 + 2 ^ 256 + 4096 * 2 ^ 320 + 2 ^ 376), (0x1080, 128, launchBytes.2.2)] fun c s =>
      releaseReady s c .device && decide (c.b.depth < 10)
        && match (released s c .device).record c f.record.toNat 2 with
          | (.ok v, s1) => match footprintOf v, s1.linesAt c (engineUnits c.w.core) (BitVec.ofNat 64 (fieldOf v 0 64)) 2 with
            | some rs, (.ok bs, s2) =>
              let s3 := s2.forwardLines c.w.core c.b.ctx (fieldOf (natOfBytes bs) 0 64) 2
              zeroAt v 768 256 && zeroAt v 128 32 && (s3.checkLaunch c.b.ctx (natOfBytes bs)).isSome
                && decide (s3.footprintsUsed f.aux.toNat + rs.length ≤ 4096)
            | _, _ => false
          | _ => false) &&
    (let f := E 0x80 8 0x80 0 0 0
     let u : Task := { queue := 5, index := 0, ctx := 0, gen := 0, depth := 1, recordAt := 0x1000, launchAt := 0x1080, param := 0,
                       prio := 0, state := 1, pend := 1, ranges := [], succs := [], token := none, wait := false,
                       predAbort := none, readyAt := 0, parentGrid := 0, parentBlock := 0, stamp := 0 }
     meetsAt (fun s => { s with tasks := [u] }) (.tsig f) [(8, 0x1000)] [(0x1000, 128, 5 * 2 ^ 170)] fun c s =>
      releaseReady s c .device && match (released s c .device).record c f.record.toNat 2 with
        | (.ok v, s1) => (s1.task? (fieldOf v 170 6) (fieldOf v 224 32)).any fun u => u.state == 1 && decide (0 < u.pend)
        | _ => false) &&
    (let f := E 0x80 8 0x80 0 0 0
     meetsIn (.tsig f) [(8, 0x1000)] [(0x1000, 128, 5 * 2 ^ 170)] fun c s =>
      releaseReady s c .device && match (released s c .device).record c f.record.toNat 2 with
        | (.ok v, s1) => (s1.task? (fieldOf v 170 6) (fieldOf v 224 32)).isNone
        | _ => false)) = true := by decide +kernel

theorem wit_supervisor :
    ((let f := R true 0 4 6 0 .vec .uni .uni .vec .b32 1 0
     meetsIn (.sysTlbinv f) [] [] fun c s =>
      let x : InvSel := { mode := f.sub.toNat, ctx := srcB c f false .b32 c.lane0 % 65536, va := srcA c f true .b64 c.lane0 }
      let r := released s c .device
      let level := if c.w.waitId = 0 then r.invLevel x else c.w.waitLevel
      let u := if c.w.waitId = 0 then r.invalidate x level else r
      let id := if c.w.waitId = 0 then u.nextId else c.w.waitId
      releaseReady s c .device &&
        !(u.modWarp c.w.uid c.w.wid fun w => { w with waitId := id, waitLevel := level }).translatedOut x level id) &&
    (meetsIn (.sysFwake (R true 2 4 0 0 .uni .uni .imm .vec .b32 0 0)) [] [] fun c s => releaseReady s c .device) &&
    (let f := R true 2 4 5 0 .uni .uni .uni .vec .b32 0 0x71
     meetsIn (.sysFkill f) [] [] fun c s =>
      (FaultCode.all.any fun x => x.code == f.imm.setWidth 8) && releaseReady s c .device) &&
    (meetsIn (.sysResume (R true 2 4 0 0 .uni .uni .vec .vec .b32 0 0)) [] [] fun c s => releaseReady s c .device)) = true := by
  decide +kernel

/-- `sys.evict` of slot 500, which names nothing, and of its own block, whose save area is at 0x100000. -/
theorem wit_evict :
    ((let f := R true 2 4 5 0 .uni .uni .uni .vec .b32 0 0
     (meetsIn (.sysEvict f) [(4, 500)] [] fun c s => (s.evictTarget c f).isNone && releaseReady s c .device) &&
     (meetsAt (fun s => { s.modBlock 0 (fun b => { b with kernel := {} }) with
         grids := s.grids.map fun (g : Grid) => { g with launch := { g.launch with sabase := 0x100000 } } })
       (.sysEvict f) [] [] fun c s => match s.evictTarget c f with
        | some k => (s.saveLines k).isOk && s.blockCanLeave k && releaseReady s c .device
        | none => false))) = true := by decide +kernel

/-- The targets of the lanes when every lane is in reach. -/
def inReach (s : State) (c : Ic) (f : MemForm) (lk : Look) : Option (List (Nat × Target) × State) :=
  match s.resolveLanes c f lk (workLanes f.c.u c.active) with
  | (ts, [], t) => some (ts, t)
  | _ => none

theorem wit_loadsAndStores :
    ((let f := M false 4 6 0 0 false false .b128 .warp .generic 0 16
      meetsIn (.ld f) [] [] fun c s => (inReach s c f (c.look f .read false false)).any fun x =>
        (State.loadLanes { x.2 with nextId := x.2.nextId + 1 } c f x.2.nextId x.1 0).1.isSome) &&
     (let f := M true 4 6 0 0 true true .b64 .warp .const 0 8
      meetsIn (.ldc f) [] [] fun c s => match s.constTargets c f (workLanes f.c.u c.active) with
        | (ts, [], s1) => (State.loadLanes { s1 with nextId := s1.nextId + 1 } c f s1.nextId ts 0).1.isSome
        | _ => false) &&
     (let f := M false 0 6 8 0 false false .b64 .warp .generic 0 0xFFF8
      meetsIn (.st f) [] [] fun c s => (inReach s c f (c.look f .write true false)).any fun x =>
        ((x.2.laneOrder x.1).2.storeLanes c f (x.2.laneOrder x.1).1).1.isSome) &&
     (let f := M false 0 6 8 0 false false .b32 .warp .well 0 0xFFFC
      meetsIn (.st f) [] [] fun c s => (inReach s c f (c.look f .write true false)).any fun x =>
        ((x.2.laneOrder x.1).2.storeLanes c f (x.2.laneOrder x.1).1).1.isSome)) = true := by decide +kernel

def relaxedMeets (i : Instr) (f : MemForm) (need : Need) (writes : Bool) : Bool :=
  meetsIn i [] [] fun c s => (inReach s c f (c.look f need writes true)).isSome

theorem wit_relaxedAtomics :
    (let g (d cmp : BitVec 8) (w : Width) (aop : BitVec 3) := M false d 2 8 cmp false false w .system .generic aop 0
     let x := g 4 1 .b64 4
     let y := g 0 0 .b32 2
     relaxedMeets (.atc x) x .both true && relaxedMeets (.redc y) y .write true
     && relaxedMeets (.ata (g 4 0 .b64 2)) (g 4 0 .b64 2) .both true && relaxedMeets (.reda (g 0 0 .b32 1)) (g 0 0 .b32 1) .write true
     && (let z := M false 4 2 0 0 false false .b32 .warp .well 0 0; relaxedMeets (.ldf z) z .read false)
     && relaxedMeets (.stf (g 0 0 .b32 0)) (g 0 0 .b32 0) .write true && relaxedMeets (.atx (g 4 0 .b64 0)) (g 4 0 .b64 0) .both true
     && relaxedMeets (.cas (g 4 10 .b64 0)) (g 4 10 .b64 0) .both true) = true := by decide +kernel

/-- The premises of a paired access: at cluster scope or wider its release is ready; within a block, its line's bytes are there
and its checks are in, which a first issue asks for (`flushed`). -/
def pairedMeets (i : Instr) (f : MemForm) (k : StrongKind) (g : State → State) : Bool :=
  meetsAt g i [] [] fun c s => (inReach s c f (c.look f k.need k.writes true)).any fun x =>
    (if k.release then releaseReady x.2 c f.scope else ringReady x.2 c) &&
      (Scope.wide f.scope ||
        let u := if k.release then released x.2 c f.scope else x.2
        (u.warp? c.w.uid c.w.wid).any fun w =>
          (w.flushed || x.1.all fun x => (u.pairedAsk c f k false x).isSome) &&
          let y := (u.pairedAskAll c f k (!w.flushed) x.1).modWarp c.w.uid c.w.wid fun w => { w with flushed := true }
          (y.warp? c.w.uid c.w.wid).any fun w' =>
            w'.checks.isEmpty && w'.deferred.isEmpty && x.1.all (y.pairedHas c f k) && (y.pairedBad c f k x.1).isNone)

def ldaKind : StrongKind := { label := 1, op := fun _ => .load false, need := .read, writes := false, returns := true, acquire := true }
def stlKind : StrongKind := { label := 1, op := fun _ => .store, need := .write, writes := true, returns := false, release := true }
def xarKind : StrongKind :=
  { label := 1, op := fun _ => .swap, need := .both, writes := true, returns := true, release := true, acquire := true }
def carKind : StrongKind :=
  { label := 1, op := fun _ => .cas 0, need := .both, writes := true, returns := true, release := true, acquire := true }

/-- Line 0 of memory is in the L1, all of its bytes valid. -/
def lineHeld (s : State) : State := s.l1Put 0 { ctx := 0, line := 0, svalid := 3, fepoch0 := 1, fepoch1 := 1 }

theorem wit_pairedAccesses :
    (let g (d data cmp : BitVec 8) (sc : Scope) := M false d 2 data cmp false false .b32 sc .generic 0 0
     pairedMeets (.lda (g 4 0 0 .system)) (g 4 0 0 .system) ldaKind id && pairedMeets (.lda (g 4 0 0 .block)) (g 4 0 0 .block) ldaKind lineHeld
     && pairedMeets (.stl (g 0 8 0 .cluster)) (g 0 8 0 .cluster) stlKind id && pairedMeets (.stl (g 0 8 0 .block)) (g 0 8 0 .block) stlKind id
     && pairedMeets (.xar (g 4 8 0 .device)) (g 4 8 0 .device) xarKind id && pairedMeets (.xar (g 4 8 0 .warp)) (g 4 8 0 .warp) xarKind lineHeld
     && pairedMeets (.car (g 4 8 10 .die)) (g 4 8 10 .die) carKind id && pairedMeets (.car (g 4 8 10 .warp)) (g 4 8 10 .warp) carKind lineHeld)
      = true := by decide +kernel

theorem wit_fences :
    (([0, 1, 2, 3] : List (BitVec 3)).all fun o =>
      let f := M false 0 0 0 0 false false .b8 .system .generic o 0
      meetsIn (.fence f) [] [] fun c s => if f.aop = 0 then ringReady s c else releaseReady s c f.scope) = true := by
  decide +kernel

theorem wit_wells :
    ((let f := M false 4 6 0 0 false false .b32 .warp .well 0 0xFFFC
      meetsIn (.ldfe f) [] [] fun c s => (inReach s c f (c.look f .read false false)).any fun x =>
        ringReady x.2 c && (x.2.ldfeBad c x.1).isNone) &&
     (let f := M false 0 6 8 0 false false .b32 .warp .well 0 0
      meetsIn (.stfe f) [] [] fun c s => (inReach s c f (c.look f .write false false)).any fun x => releaseReady x.2 c .cluster) &&
     (let f := M true 0 4 6 8 false true .b32 .warp .well 1 0xFFF8
      meetsIn (.wfill f) [(8, 8)] [] fun c s =>
        let a := (memAddr c f c.lane0).toNat
        let n := (c.w.sget f.cmp.toNat).toNat
        decide (a % 4 = 0 ∧ n % 4 = 0 ∧ a + n ≤ 0xC0000) && (n == 0 || c.b.wellMapped a n) && releaseReady s c .cluster) &&
     (let f := M true 0 0 0 0 false false .b8 .warp .generic 0 0x000
      meetsIn (.give f) [] [] fun c s =>
        let k := if f.aop = 1 then (c.w.sget f.data.toNat).toNat else f.offset.toNat / 256 % 8
        (s.gives.all fun g => !(g.uid == c.w.uid && g.wid == c.w.wid)) && decide (k ≤ 7)
          && s.coreHasCtx (coreCluster c.w.core * 8 + k) c.b.ctx
          && decide (s.queued (coreCluster c.w.core * 8 + k) < 24) && releaseReady s c .cluster
          && (assocGet c.b.bank (f.offset.toNat % 16)).any fun e => e.count == 16 && !s.ringIn (coreCluster c.w.core) e.well) &&
     (let f := M true 20 0 0 0 true false .b8 .warp .generic 0 11
      meetsIn (.take f) [] [] fun c s => (assocGet c.b.bank (f.offset.toNat % 16)).isNone && ringReady s c)) = true := by
  decide +kernel

/-- A collective group of four members, this device its root. -/
def group3 : CollGroup := { num := 3, valid := true, nchild := 0, parent := 0, rank := 0, size := 4, chlist := 0 }

/-- A bf16 tensor record of 64 rows of 64 elements (R241). -/
def tensorBytes (at' : Nat) : Nat × Nat × Nat :=
  (at', 64, 0x200000 + 0x11 * 2 ^ 64 + 2 * 2 ^ 72 + 64 * 2 ^ 96 + 64 * 2 ^ 128 + 2 ^ 256 + 64 * 2 ^ 288 + 64 * 2 ^ 416
    + 64 * 2 ^ 424 + 2 ^ 432 + 2 ^ 440)

/-- The lines of a record that a command has read, and the state after. -/
def recordRead (s : State) (c : Ic) (i : Instr) (a : BitVec 64) (n : Nat) : Option (Nat × State) :=
  if a.toNat % 64 = 0 then
    match s.engRead (s.newEngine c i) (engineUnits c.w.core) a.toNat (64 * n) with
    | (.ok bs, t) => some (natOfBytes bs, t)
    | _ => none
  else none

theorem wit_asynchronousCopies :
    (([(0, 16), (3, 786432)] : List (Nat × Nat)).all (fun x =>
      let f := E 2 10 0x80 20 (BitVec.ofNat 16 x.1) (BitVec.ofNat 32 x.2)
      let n := f.imm.toNat
      let store := f.mod.getLsbD 0
      let cnt := f.mod.getLsbD 1
      let acc := if store then 5 else 4
      meetsAt (blockOf0 fun b => { b with bank := (List.range 12).map fun k => (k, { well := k, first := 0, count := 16 }) })
        (.acopy f) [(10, 0x100000)] [] fun c s =>
        let ga := c.w.sget64 f.record.toNat
        let wo := (c.w.sget f.aux.toNat).toNat
        let so := (c.w.sget (f.aux.toNat + 1)).toNat
        decide (16 ≤ n ∧ n ≤ 786432 ∧ n % 16 = 0 ∧ ga.toNat % 16 = 0 ∧ wo % 16 = 0 ∧ (cnt = true → so % 4 = 0))
          && [c.wellRange wo n acc, if cnt then c.wellRange so 4 acc else none, s.wstoreBase? c ga store].all Option.isNone) &&
     (let f := E 2 10 0x80 20 4 64
      meetsAt (fun s => s.modDie 0 fun d => { d with weightLoad := true }) (.acopyWsl f)
        [(10, 0x100000), (21, 0x007FFC00)] [] fun c s =>
        let ga := c.w.sget64 f.record.toNat
        let dst := c.w.sget64 f.aux.toNat
        let n := f.imm.toNat
        decide (n % 64 = 0 ∧ n < 2 ^ 31 ∧ ga.toNat % 64 = 0 ∧ dst.toNat % 64 = 0)
          && (match windowOf dst with | .wstore o => decide (o + n ≤ 2 ^ 32) | _ => false)
          && ((List.range 4).all fun d => !rangesMeet (d * 2 ^ 30) (2 ^ 30) (dst.toNat - 0x007FFC0000000000) n || (s.die d).weightLoad)
          && (s.wstoreBase? c ga false).isNone) &&
     (let f := E 2 10 0x80 20 8 64
      meetsIn (.acopySb f) [(10, 0x100000), (20, 0x200000)] [] fun c _ =>
        let ga := c.w.sget64 f.record.toNat
        let dst := c.w.sget64 f.aux.toNat
        let n := f.imm.toNat
        decide (n % 64 = 0 ∧ n < 2 ^ 31 ∧ ga.toNat % 64 = 0 ∧ dst.toNat % 64 = 0) && inGlobal ga n && inGlobal dst n) &&
     (let f := E 2 10 0x80 20 2 30
      meetsIn (.acopyT f) [(10, 0x1000), (21, 0x8000)] [tensorBytes 0x1000] fun c s =>
        match recordRead s c (.acopyT f) (c.w.sget64 f.record.toNat) 1 with
        | some (v, s1) => (tensorOf v).any fun x =>
          decide ((c.w.sget (f.aux.toNat + 1)).toNat % 4 = 0) && x.originOk (c.coords f.imm.toNat)
            && (c.wellRange (c.w.sget f.aux.toNat).toNat x.boxBytes 4).isNone
            && (c.wellRange (c.w.sget (f.aux.toNat + 1)).toNat 4 4).isNone
            && (s1.wstoreBase? c (BitVec.ofNat 64 x.base) false).isNone
        | _ => false)) = true := by decide +kernel

theorem wit_recordCommands :
    (([false, true] : List Bool).all (fun st =>
      let f := E 2 10 0x80 7 0 30
      meetsIn (if st then .tst f else .tld f) [(10, 0x1000)] [tensorBytes 0x1000] fun c s =>
        match recordRead s c (if st then .tst f else .tld f) (c.w.sget64 f.record.toNat) 1 with
        | some (v, s1) => (tensorOf v).any fun x =>
          x.tileOk (c.coords f.imm.toNat) && (s1.wstoreBase? c (BitVec.ofNat 64 x.base) st).isNone
        | _ => false) &&
     (let f := E 2 10 0x80 0 0 0
      meetsIn (.gpool f) [(10, 0x1000)] [(0x1000, 64, 0x200000 + 4 * 2 ^ 64 + 2 ^ 320 + 0xFFF0 * 2 ^ 352)] fun c s =>
        match recordRead s c (.gpool f) (c.w.sget64 f.record.toNat) 1 with
        | some (v, s1) =>
          let rowb := fieldOf v 64 32
          let nbags := fieldOf v 320 32
          let out := fieldOf v 352 32
          let base (lo : Nat) := (s1.wstoreBase? c (BitVec.ofNat 64 (fieldOf v lo 64)) false).isNone
          zeroAt v 416 96 && zeroAt v 384 16 && decide (fieldOf v 408 8 ≤ 2 ∧ fieldOf v 400 8 ≤ 2 ∧ 1 ≤ nbags ∧ nbags ≤ 65536 ∧
            rowb % 4 = 0 ∧ 4 ≤ rowb ∧ rowb ≤ 65536 ∧ out % 16 = 0)
            && (c.wellRange out (nbags * poolElems (fieldOf v 400 8) rowb * 4) 5).isNone && base 0 && base 128 && base 192
            && (fieldOf v 256 64 == 0 || base 256)
        | _ => false) &&
     (let f := E 2 10 0x80 0 0 0
      meetsAt (fun s => { s with groups := [group3] }) (.coll f) [(10, 0x1000)]
        [(0x1000, 64, 0x200000 + 0x300000 * 2 ^ 64 + 16 * 2 ^ 128 + 2 ^ 160 + 3 * 2 ^ 192 + 3 * 2 ^ 288)] fun c s =>
        match recordRead s c (.coll f) (c.w.sget64 f.record.toNat) 1 with
        | some (v, s1) =>
          zeroAt v 320 192 && zeroAt v 176 16 && decide (collOp v ≤ 4 ∧ collRedop v ≤ 4)
            && (s1.group? (fieldOf v 192 32)).any (fun g => decide (fieldOf v 288 32 < g.size))
            && (s1.wstoreBase? c (BitVec.ofNat 64 (fieldOf v 0 64)) false).isNone
            && (s1.wstoreBase? c (BitVec.ofNat 64 (fieldOf v 64 64)) true).isNone
        | _ => false) &&
     (let f := E 2 10 0x80 12 0 0
      meetsIn (.send f) [(10, 0x1000), (12, 24 + 3 * 32 + 15 * 256)] [] fun c s =>
        let a := c.w.sget64 f.record.toNat
        let d := (c.w.sget f.aux.toNat).toNat
        decide (fieldOf d 0 5 ≤ 24 ∧ a.toNat % 64 = 0) && zeroAt d 7 1 && zeroAt d 12 20 && (s.wstoreBase? c a false).isNone)) = true := by
  decide +kernel

def ring0 : Ring := { cluster := 0, num := 11, uid := 0, well := 0, word := 0 }

theorem wit_rings :
    ((let f := E 0x80 0 0x80 11 0 0
      meetsAt (fun s => { s with rings := [ring0] }) (.rwait f) [] [] fun c s =>
        (s.ring? (coreCluster c.w.core) f.aux.toNat).any (fun r => !s.ringBad r) && ringReady s c) &&
     (let f := E 0x80 0 0x80 11 1 0
      meetsAt (fun s => { s with wells := cset s.wells (ring0.key 2) 512 }) (.rwaitOpen f) [] [] fun c s =>
        let off := f.imm.toNat
        !s.accessesPending c.w.uid c.w.wid && off % 64 == 0 && (c.wellRange off 64 3).isNone
          && (s.ring? (coreCluster c.w.core) f.aux.toNat).isNone
          && (assocGet c.b.bank (off / 65536)).any fun e =>
            let r : Ring := { cluster := coreCluster c.w.core, num := f.aux.toNat, uid := c.w.uid, well := e.well,
                              word := e.first * 1024 + off % 65536 / 4 }
            ((List.range 10).any fun k => s.ringCap r == 2 ^ k) && decide (off % 65536 + 64 + 64 * s.ringCap r ≤ e.count * 4096)) &&
     (let f := E 0x80 0 0x80 11 2 0
      meetsAt (fun s => { s with rings := [ring0] }) (.rwaitClose f) [] [] fun c s =>
        (s.ring? (coreCluster c.w.core) f.aux.toNat).isSome)) = true := by decide +kernel

/-- A dense bf16 record of B in the well window: 32 along K, 64 columns (R268). -/
def bBytes (at' : Nat) : Nat × Nat × Nat :=
  (at', 64, 0x007FFF0000000000 + 0x11 * 2 ^ 64 + 2 * 2 ^ 72 + 32 * 2 ^ 96 + 64 * 2 ^ 128 + 2 ^ 256 + 32 * 2 ^ 288 + 2 ^ 432 + 2 ^ 440)

/-- A convolution record: an activation of one bf16 channel, one by one, and a window of one (R277). -/
def convBytes : Nat × Nat × Nat :=
  (0x1000, 96, 0x200000 + 0x11 * 2 ^ 64 + 4 * 2 ^ 72 + (2 ^ 96 + 2 ^ 128 + 2 ^ 160 + 2 ^ 192) + (2 ^ 256 + 2 ^ 288 + 2 ^ 320 + 2 ^ 352)
    + 0x010101010101 * 2 ^ 512)

/-- `matReady`, computed. -/
def matGood (s : State) (c : Ic) (i : Instr) (conv : Bool) (f : EngForm) : Bool :=
  let u (k : Nat) : Nat := c.uni (mmaOreg f + k)
  (recordRead s c i (c.w.sget64 f.record.toNat) (if conv then 2 else 1)).any fun r =>
    (if conv then recordRead r.2 c i (c.w.sget64 (mmaReg f)) 1 else some r).any fun b =>
      let t := b.2
      let m := matOf conv f ((if conv then [b.1, u 3, u 4, fieldOf r.1 0 512, fieldOf r.1 512 256, u 0, u 1, u 2]
        else [r.1, u 0, u 1, if mmaWells f then c.uni (mmaReg f) else 0, 0, 0, 0, 0]) ++ c.scales f)
      (tensorOf b.1).isSome && m.bOk && (!conv || ((tensorOf (fieldOf r.1 0 512)).isSome && m.convOk))
        && (t.wstoreBase? c (BitVec.ofNat 64 m.b.base) false).isNone
        && (!conv || (t.wstoreBase? c (BitVec.ofNat 64 m.act.base) false).isNone)
        && (!mmaWells f || (m.well % 64 == 0 && (c.wellRange m.well (64 * mmaRow m.fmt) 4).isNone)) && t.extentOk c.b m

theorem wit_matrixOperands :
    ((let f := E 2 10 0x80 0 0x10 12
      meetsIn (.mma f) [(10, 0x1000)] [bBytes 0x1000] fun c s => matGood s c (.mma f) false f) &&
     (let f := E 2 10 0x80 0 0x10 (0x0C00 + 16)
      meetsIn (.mconv f) [(10, 0x1000), (12, 0x1080)] [convBytes, bBytes 0x1080] fun c s => matGood s c (.mconv f) true f)) = true := by
  decide +kernel

/-- The last signer of two, and the first. -/
theorem wit_signers :
    (([0, 1] : List Nat).all fun k =>
      let f := E 2 10 15 0 0x10 12
      let word := ((encode (.mma f)).getD 0).setWidth 80
      meetsAt (blockOf0 fun b => { b with cvs := [(15, { state := 1, n := 2, count := k, first := word, signers := if k = 1 then 2 else 0 })] })
        (.mma f) [(10, 0x1000)] [bBytes 0x1000] fun c s =>
        let cv := c.b.cv 15
        cv.state == 1 && !cv.signers.getLsbD c.w.wid && (cv.count == 0 || word == cv.first)
          && (if cv.count + 1 = cv.n then matGood s c (.mma f) false f else true) && cv.count == k) = true := by decide +kernel

def rowsIn (c : Ic) (f : RegForm) : Bool := (lanesOf c.active).all fun l => decide (rowOf c f l < 64)

theorem wit_tileMoves :
    (let u (d a : BitVec 8) := R true d a 0 0 .special (if a = 0 then .vec else .special) .vec .vec .b32 0 0
     let at' (i : Instr) (accs tiles : List Nat) (ok : Ic → Bool) : Bool :=
       meetsIn i [] [] fun c s => !s.matBusy c accs tiles && ok c
     let x := R false 4 15 0 0 .vec .special .imm .vec .b32 1 63
     let y := R false 15 4 0 0 .special .vec .imm .vec .b32 0 63
     let z := R false 7 4 0 0 .special .vec .imm .vec .b32 1 0
     let r := R false 4 7 0 0 .vec .special .imm .vec .b32 2 63
     at' (.tzero (u 7 0)) [] [7] (fun _ => true) && at' (.azero (u 15 0)) [15] [] (fun _ => true)
     && at' (.amov (u 2 3)) [2, 3] [] (fun _ => true) && at' (.tmov (u 2 3)) [] [2] (fun _ => true)
     && at' (.ald x) [15] [] (rowsIn · x) && at' (.ast y) [15] [] (rowsIn · y) && at' (.tmovW z) [] [7] (rowsIn · z)
     && at' (.tmovR r) [] [] (rowsIn · r)) = true := by decide +kernel

theorem wit_quantisation :
    (let f := R false 8 2 20 4 .vec .vec .uni .uni .f32 0 0x33F06
     (meetsIn (.hqnt f) [] [] fun c s => !s.matBusy c [] [hqTile f]) &&
     (meetsIn (.hdeq f) [] [] fun c s => !s.matBusy c [] [] &&
       !(hdCodes c s f).contains 0x80) &&
     (meetsIn (.aconv (R true 1 2 0 0 .special .special .vec .vec .f16x2 1 0)) [] [] fun c s => !s.matBusy c [2] [1]) &&
     (meetsIn (.aconvF32 (R true 1 2 0 0 .special .special .vec .vec .f32 3 0)) [] [] fun c s => !s.matBusy c [1, 2] [])) = true := by
  decide +kernel

theorem wit_weightStore :
    ((let f := R true 8 0 0 0 .uni .imm .vec .vec .b64 0 0x33F
      meetsIn (.wsinfo f) [] [] fun c _ => (workLanes f.c.u c.active).all fun l => selectorOk (srcA c f false .n32 l)) &&
     (let f := R true 0 0 0 0 .vec .vec .vec .vec .b32 0 0x33F0000
      meetsAt (fun s => { s with time := 5000 }) (.wswait f) [] [] fun _ s => selectorOk (fieldOf f.imm.toNat 16 10)
        && decide (fieldOf f.imm.toNat 0 16 ≤ 63750) && s.wsClear (fieldOf f.imm.toNat 16 10) (fieldOf f.imm.toNat 0 16))) = true := by
  decide +kernel

theorem wit_streams :
    (let q (e : BitVec 8) (sub : BitVec 3) := R true 3 1 2 e .special .special .special (if e = 0 then .vec else .special) .b32 sub 0
     let b1 (sub : BitVec 3) (imm : BitVec 32) (b : Cls) := R true 3 1 0 0 .special .special b .vec .b32 sub imm
     let two (f : RegForm) (c : Ic) (s : State) : Bool :=
       lenGood (s.blockOf c) f.a && lenGood (s.blockOf c) f.b && (f.sub.getLsbD 0 || !correlated (s.blockOf c) f.a f.b)
     let good (c : Ic) (s : State) (x : BitVec 8) : Bool := lenGood (s.blockOf c) x
     (let f := R true 0 0 0 0 .vec .imm .vec .vec .n32 0 1024
      meetsIn (.slen f) [] [] fun c _ => [256, 512, 1024].contains (srcA c f false .n32 c.lane0)) &&
     (let f := R true 0 4 0 0 .vec .uni .imm .vec .b64 0 63
      meetsIn (.sseed f) [] [] fun c _ => decide (classOf c f < 64)) &&
     (let f := R false 1 2 0 0 .special .vec .imm .vec .n32 0 63
      meetsIn (.sgen f) [] [] fun c _ => decide (classOf c f < 64)) &&
     (meetsIn (.sregen (b1 0 63 .imm)) [] [] fun c s => good c s 1 && decide (classOf c (b1 0 63 .imm) < 64)) &&
     (meetsIn (.sand (q 0 1)) [] [] fun c s => two (q 0 1) c s) && (meetsIn (.sor (q 0 0)) [] [] fun c s => two (q 0 0) c s) &&
     (meetsIn (.sxor (q 0 0)) [] [] fun c s => two (q 0 0) c s) && (meetsIn (.sxnor (q 0 0)) [] [] fun c s => two (q 0 0) c s) &&
     (meetsIn (.snot (b1 0 0 .vec)) [] [] fun c s => good c s 1) &&
     (meetsIn (.smux (q 5 1)) [] [] fun c s => good c s 1 && good c s 2 && good c s 5 &&
        ((q 5 1).sub.getLsbD 0 || (!correlated (s.blockOf c) 5 1 && !correlated (s.blockOf c) 5 2))) &&
     (meetsIn (.sshift (b1 0 1023 .imm)) [] [] fun c s => good c s 1 &&
        decide (0 < srcB c (b1 0 1023 .imm) false .n32 c.lane0 ∧ srcB c (b1 0 1023 .imm) false .n32 c.lane0 < c.b.slen)) &&
     (let f := R false 3 1 0 0 .vec .special .vec .vec .n32 0 0
      meetsIn (.scnt f) [] [] fun c s => good c s f.a)) = true := by decide +kernel

/-! Events. `run1` gives the state after an instruction or an event. -/

def run1 (s : State) (i : Instr) : State :=
  match exec i s with
  | .next t => t
  | _ => s

/-- Nothing issues. -/
def calm (s : State) : State := { s with issue := none }

/-- Nothing issues, and every warp could issue a cycle ago. -/
def ready (s : State) : State := { calm s with warps := s.warps.map fun (w : Warp) => { w with since := some 0 } }

/-- A nanosecond later. -/
def later (s : State) : State := { s with time := s.time + 1 }

/-- The name of the first message in flight. -/
def firstMsg (s : State) : Nat := ((s.msgs.head?).map Msg.id).getD 0

def addI : Instr := .add (R false 3 1 2 0 .vec .vec .vec .vec .i32 0 0)
def ldI : Instr := .ld (M false 4 6 0 0 false false .b32 .warp .generic 0 16)
def stI : Instr := .st (M false 0 6 4 0 false false .b32 .warp .generic 0 16)
def atxI : Instr := .atx (M false 4 2 8 0 false false .b32 .device .generic 0 0)
def atxW : Instr := .atx (M false 4 2 8 0 false false .b32 .device .well 0 0)

def added : State := run1 (world addI [] []) addI
def loading : State := run1 (world ldI [] []) ldI
def filling : State := run1 loading (.homeSliceAccess ⟨firstMsg loading, .clean⟩)
def filled : State := run1 filling (.l1Fill (firstMsg filling))

theorem wit_scheduler :
    (let s := ready (world addI [] [])
     let cycle := (s.die (coreDie 0)).cycle
     let u : State := (s.schedWarps 0 0).foldl (fun (s : State) w => s.setWarp (w.prepare cycle)) s
     !u.plat.stopped && (u.die (coreDie 0)).relock.isNone && ((u.schedWarps 0 0).all fun w => !(w.doubt && !w.stall && w.lineReady)) && (u.chooseWarp 0 0).isSome) = true := by decide +kernel

theorem wit_linesAndPauses :
    (let s := calm (world addI [] [])
     let line (st : FetchSt) : State := s.modWarp 0 0 fun w => { w with line := w.line.map fun b => { b with st := st } }
     let p := s.modWarp 0 0 fun w => { w with threads := w.threads.set 31 { w.thread 31 with st := .paused 0 } }
     ((line .wanted).warp? 0 0).any (fun w => w.line.any fun b => b.st == .wanted) &&
     ((line .refetch).warp? 0 0).any (fun w => w.line.any fun b => b.st == .refetch) &&
     (p.warp? 0 0).any fun w => (w.thread 31).st == .paused 0) = true := by decide +kernel

theorem wit_results :
    ((added.owed.any fun o => !o.writes.isEmpty && decide (o.after ≤ added.time) && added.respNext o) && filled.owed.any fun o =>
      (o.pieces.head?).any fun p => p.ready && !p.done) = true := by decide +kernel

theorem wit_homesAndFills :
    ((loading.msgs.head?).any (fun m => match m.kind with
        | .fillReq f => loading.lineClear m && loading.reach m && (loading.homeReady f.loc f.line).isSome
        | _ => false) &&
     (filling.msgs.head?).any (fun m => match m.kind with
        | .fillReply f => (filling.before m.id).isEmpty && filling.respHere m && f.core == 0
        | _ => false) &&
     (let s := later (run1 (world atxI [] []) atxI)
      (s.msgs.head?).any fun m => match m.kind with
        | .strong r => (s.strongServe m r).isSome
        | _ => false) &&
     (let s := run1 (world atxW [] []) atxW
      (s.msgs.head?).any fun m => match m.kind with
        | .well r => s.strongClear m r && s.reach m
        | _ => false)) = true := by decide +kernel

/-- The same context with its pages checked (R410), and a far page at 512 MiB. -/
def checkedWorld (i : Instr) : State := { world i [] [] with mem := writeNat (world i [] []).mem 0x20000 8 0x4B9 }
def storing : State := run1 (checkedWorld stI) stI

theorem wit_checks :
    (let n := firstMsg storing
     let u := run1 storing (.homeMarkCheck n)
     (storing.msgs.head?).any (fun m => match m.kind with
        | .check a _ => storing.lineClear m && storing.reach m && (storing.homeReady a.loc a.addr).isSome
        | _ => false) &&
     (u.msgs.head?).any fun m => match m.kind with
        | .checkAck _ _ _ _ _ _ => u.respHere m
        | _ => false) = true := by decide +kernel

def farWorld : State :=
  let s := world ldI [(6, 0), (7, 0)] [(0x20008, 8, 0x200000000 * 65536 + 2 * 2 ^ 13 + 0xB9)]
  { s.modWarp 0 0 fun w => { w with vregs := [(32 * 6, 0x20000000)] } with plat := { s.plat with cxl0 := true, cxl1 := true } }

theorem wit_forwards :
    ((run1 farWorld ldI).msgs.any fun m => match m.kind with
      | .fwd _ _ _ _ _ => true
      | _ => false) = true := by decide +kernel

def flushed : State := (run1 (world stI [] []) stI).flushCore 0

theorem wit_writebacks :
    (let m := flushed.msgs.find? fun m => match m.kind with | .wb _ => true | _ => false
     m.any (fun m => match m.kind with
        | .wb x => flushed.lineClear m && flushed.reach m && !m.refused && !x.mig && m.heldAt.isNone && (flushed.homeReady x.loc x.line).isSome
        | _ => false) &&
     (let u := run1 flushed (.lineWriteback ((m.map Msg.id).getD 0))
      u.msgs.any fun m => match m.kind with | .wbAck _ _ _ _ _ _ => u.respHere m | _ => false) &&
     (let held : State := { flushed with time := 20000, msgs := flushed.msgs.map fun (m : Msg) => { m with heldAt := some 0 } }
      held.msgs.any fun m => m.heldAt == some 0 && !m.refused && decide (0 + 20000 ≤ held.time)) &&
     (let mig : State := { flushed with msgs := flushed.msgs.map fun (m : Msg) =>
        match m.kind with
        | .wb x => { m with kind := .wb { x with mig := true } }
        | _ => m }
      mig.msgs.any fun m => match m.kind with
        | .wb x => x.mig && mig.lineClear m && mig.reach m && m.heldAt.isNone && !m.refused
        | _ => false)) = true := by decide +kernel

theorem wit_cacheEvents :
    (let far := 0x2000000000000
     let s : State := { calm (world addI [] []) with l2 := [{ line := 0 }, { line := far }] }
     (s.l2.find? fun y => y.line == 0).isSome && inHbm 64 && 64 % 64 == 0 && !(s.l2.any fun x => x.line == 64)
       && inFar far && (s.l2.any fun x => x.line == far)) = true := by decide +kernel

theorem wit_deferredWork :
    (let r : FaultRec := {}
     let s := (calm (world addI [] [])).modWarp 0 0 fun w => { w with atBoundary := true, deferred := [(31, r)] }
     let h : State := s.modCore 0 fun c => { c with holding := [r] }
     let q : State := s.modCore 0 fun c => { c with arrivals := [{ well := 3, giver := 0, ctx := 63, stamp := 0 }] }
     (s.warp? 0 0).any (fun w => w.atBoundary && w.checks.isEmpty && w.faultStall.isNone && !s.strongBusy 0 0
       && (bestBy (fun (x y : Nat × FaultRec) => deferredOrder x.2 < deferredOrder y.2
            || (deferredOrder x.2 == deferredOrder y.2 && x.1 < y.1)) w.deferred).isSome) &&
     (h.cores.any fun c => c.waiting.any fun x => x.ctx == 0) &&
     decide ((s.ctx 0).floorAt + 512 ≤ ({ s with time := 512 } : State).time) &&
     (q.core 0).arrivals.any (q.wellForgotten 0)) = true := by decide +kernel

/-! Engines: the engine is the state's first, and the event names it. -/

def firstEng (s : State) : Engine :=
  s.engines.headD { id := 0, uid := 0, wid := 0, lslot := 0, eseq := 0, ctx := 0, gen := 0, core := 0, pc := 0, lanes := 0, op := addI, args := [], token := none }

/-- The state's first engine runs, is the engine `e` that the events name, and meets `ok`. -/
def engineMeets (s : State) (ok : Engine → Bool) : Bool := (s.running (firstEng s).id).any ok

def sbI : Instr := .acopySb (E 2 10 0x80 20 8 64)
def copying : State := run1 (world sbI [(10, 0x100000), (20, 0x200000)] []) sbI
def sb2I : Instr := .acopySb (E 2 10 0x80 20 8 128)
def copying2 : State := run1 (world sb2I [(10, 0x100000), (20, 0x200000)] []) sb2I
def sendI : Instr := .send (E 2 10 0x80 12 0 0)
def sending : State := run1 (world sendI [(10, 0x1000), (12, 11 * 256)] []) sendI
def cntI : Instr := .acopy (E 2 10 0x80 20 2 64)
def counted : State := run1 (world cntI [(10, 0x100000), (21, 0x8000)] []) cntI

/-- The copy when its page is gone, and the message when the line it reads is poisoned (R239, R397). -/
def unmapped : State := { copying with mem := writeNat copying.mem 0x20000 8 0, tlb := [] }
def poisonedSend : State := { sending with bands := [{ line := 0x1000, poison := 15 }] }

theorem wit_engineEnds :
    (engineMeets copying (fun e => !e.selfEnds && e.offSince.isNone && match (copying.runEngine e e.units).stop with | .ok _ => true | _ => false) &&
     engineMeets copying2 (fun e => !e.selfEnds && e.offSince.isNone && decide (e.progress < (copying2.runEngine e 1).progress) &&
        match (copying2.runEngine e 1).stop with | .error .wait => true | _ => false) &&
     engineMeets poisonedSend (fun e => !e.selfEnds && e.offSince.isNone &&
        match (poisonedSend.runEngine e 1).stop with | .error (.fatal _) => true | _ => false) &&
     engineMeets unmapped (fun e => match (unmapped.runAny e).stop with
        | .error (.repair f) => ((unmapped.runAny e).s.putRecord e.core { f with src := 1 } true).isSome
        | _ => false)) = true := by decide +kernel

theorem wit_counts :
    (engineMeets counted fun e => e.counts && decide (e.progress < e.units) && (counted.engUnit e e.progress).1.isOk && !(counted.engUnit e e.progress).2.barrierBad e) = true := by
  decide +kernel

theorem wit_ringAppends :
    (let go (s : State) (ok : State → Bool) : Bool := engineMeets s fun e => e.isSend && !s.sendBefore e &&
        match s.engRead e (engineUnits e.core) (e.arg 0) 64 with
        | (.ok _, s1) => ok s1
        | _ => false
     let open' : State := { sending with rings := [ring0], wells := cset sending.wells (ring0.key 2) 512 }
     go sending (fun s1 => (s1.ring? 0 11).isNone) &&
     go open' (fun s1 => (s1.ring? 0 11).any fun r => !s1.ringBad r && s1.ringRoom r) && (sending.engines.head?).any fun e => sendCluster (e.arg 1) == 0 && sendRing (e.arg 1) == 11)
      = true := by decide +kernel

def mmaI : Instr := .mma (E 2 10 0x80 0 0x10 12)
def multiplying : State := run1 (world mmaI [(10, 0x1000)] [bBytes 0x1000]) mmaI

theorem wit_matrixOp :
    ((multiplying.matHead 0).any fun e => e.mat?.any fun m =>
      let all := matRead e m (List.range m.parts) multiplying 0
      let one := matRead e m [127] multiplying 0
      all.1.isNone && (all.2.2.engine? e.id).any (fun e1 => decide (m.parts ≤ e1.got.length) && (all.2.2.matCells e1 m).isSome)
        && one.1.isNone && one.2.1 == 1 && (one.2.2.engine? e.id).any fun e1 => decide (e1.got.length < m.parts)) = true := by decide +kernel

def collI : Instr := .coll (E 2 10 0x80 0 0 0)
def collect (g : CollGroup) : State :=
  run1 { world collI [(10, 0x1000)] [(0x3004, 4, 2), (0x1000, 64, 0x200000 + 0x300000 * 2 ^ 64 + 16 * 2 ^ 128 + 2 ^ 160 + 3 * 2 ^ 192)]
         with groups := [g] } collI

theorem wit_collectives :
    (let g : CollGroup := { group3 with rank := 1, size := 4 }
     let h : CollGroup := { group3 with nchild := 1, chlist := 0x3000 }
     let good (s : State) (ok : State → CollGroup → Engine → Bool) : Bool := (s.collective (firstEng s).id).any fun e =>
        match s.group? (fieldOf (e.arg 0) 192 32) with
        | some g => match s.collWithOwn e g with
          | (.ok e1, s1) => ok s1 g e1
          | _ => false
        | none => false
     good (collect g) (fun _ g e => !g.isRoot && e.result.isNone && (List.replicate (collBytes (e.arg 0) g.size) (0 : Byte)).length == collBytes (e.arg 0) g.size) &&
     good (collect h) (fun s1 g e => (s1.childRanks g).contains 2 && (assocGet e.partials (childKey 2)).isNone) &&
     (let s := collect g
      (s.collective (firstEng s).id).any fun e => (s.group? (fieldOf (e.arg 0) 192 32)).isSome
        && { collHead (e.arg 0) with root := 9 } != collHead (e.arg 0)) &&
     (let s := { collect g with time := 1000000000 }
      (s.engine? (firstEng s).id).any fun e => isColl e.op && !(e.st == .done) && e.offSince.isNone && decide
        (e.issued + e.paused + 1000 * (if fieldOf (e.arg 0) 256 32 = 0 then 1000000 else fieldOf (e.arg 0) 256 32) ≤ s.time))) = true := by
  decide +kernel

/-- A given well that no access uses any more. -/
theorem wit_giveCompletes :
    (let f : MemForm := { M true 3 0 0 0 true true .b32 .warp .generic 0 0 with }
     let s : State := { calm (world addI [] []) with gives := [{ id := 9, uid := 0, wid := 0, slot := 0, well := 0, target := 1, f := f, lanes := 1 }] }
     (s.gives.find? fun g => g.id == 9).any fun g => (s.warp? g.uid g.wid).any fun w => w.bundle.isSome && s.drained (coreCluster w.core) g.well &&
       let a := (((s.waitersIn (coreCluster w.core) g.well).foldl (fun (s : State) x => s.waitFault x .wellDetached) s).modBlock g.uid
         fun b => { b with bank := assocDel b.bank g.slot }).releaseNow g.uid g.wid .cluster
       let stamp := ((a.warp? g.uid g.wid).map Warp.relStamp).getD 0
       let t := (({ a with gives := a.gives.filter fun y => y.id != 9 } : State).modCore g.target fun c =>
         { c with arrivals := c.arrivals ++ [{ well := g.well, giver := w.core, ctx := 0, stamp := stamp }] }).takeWell g.target
       (t.warp? g.uid g.wid).isSome && (t.block? g.uid).isSome) = true := by decide +kernel

/-! Placement and completion. -/

def quiet : State := calm (world addI [] [])
def gridOf (g : Grid) (s : State) : State := { partitioned s with grids := [{ g with partition := (partitioned s).plat.partitions.getD 0 {} }] }
def holding (g : Block → Block) (s : State) : State := { s with blocks := s.blocks.map g }

theorem wit_placement :
    (let fresh : State := { quiet with blocks := [], warps := [] }
     let queued := gridOf { gid := 1, ctx := 0, kernel := { tiles := 1 } } fresh
     let placing := gridOf { gid := 1, ctx := 0, st := .accepted, kernel := { tiles := 1 } } fresh
     let away := gridOf { bootGrid with launch := { sabase := 0x100000 } }
       { quiet with blocks := [{ bootBlock with st := .evicted false, kernel := {} }],
                    warps := quiet.warps.map fun (w : Warp) => { w with resident := false } }
     let skipped : State := { gridOf { gid := 1, ctx := 0, st := .accepted, skipSince := some 5 } fresh with time := 100005 }
     !queued.plat.stopped && queued.nextEntry.isSome && (away.placeOne.1.any fun x => match x with
        | .back b => b.uid == 0
        | _ => false) && (placing.placeOne.1.any fun x => match x with
        | .grid _ => true
        | _ => false) && (placing.pending.head?).any (fun x => (placing.tryWaiting x []).1) &&
     (let full : State := { placing with grids := placing.grids.map fun (g : Grid) => { g with partition := {} } }
      full.placeOne.1.isNone && full.pending.any fun x => (full.grid? x.gid).any fun g => g.skipSince.isNone) &&
     (skipped.grid? 1).any fun g => g.st == .accepted && !g.blocking && g.skipSince == some 5 && decide (5 + 100000 ≤ skipped.time)) = true := by
  decide +kernel

def gone : State := { quiet with warps := quiet.warps.map fun (w : Warp) => { w with threads := List.replicate 32 { st := .exited } } }

theorem wit_retiring :
    ((gone.warp? 0 0).any (fun w => w.holds && w.allExited && w.outstanding == 0 && w.acq.isNone && gone.engines.isEmpty) &&
     (let s : State := { gone with warps := gone.warps.map fun (w : Warp) => { w with released := true } }
      (s.block? 0).any fun b => b.st == .resident && s.allReleased 0 && decide (b.spawned ≤ b.folded)) &&
     (let s := holding (fun b => { b with st := .retired }) quiet
      (s.grid? 0).any s.gridDone) &&
     (let s : State := { quiet with blocks := quiet.blocks ++ [{ bootBlock with uid := 1, parent := some (0, 0), st := .merging, merge := some { merged := true } }] }
      (s.block? 0).any fun p => (s.blocks.find? fun b => b.parent == some (0, p.folded)).any fun c =>
        c.st == .merging && !(c.merge.getD {}).stopped && (c.merge.getD {}).merged &&
          (foldViews p c (c.merge.getD {}).view (c.merge.getD {}).elem (c.views.drop (c.merge.getD {}).view) s).1.isNone)) = true := by
  decide +kernel

def barPhaseI : Instr := .barPhase (R false 4 8 0 0 .vec .vec .vec .vec .b32 0 0)

/-- One block waits for its phase on its core: it is ready, then it starts. -/
theorem wit_phases :
    (let w := (world barPhaseI [] []).modWarp 0 0 fun w => { w with bundle := some ⟨BitVec.allOnes 32, 0, 0⟩ }
     let s := run1 { w with grids := [{ bootGrid with launch := { sabase := 0x100000 } }] } barPhaseI
     let u := run1 s (.phaseReady 0)
     (s.block? 0).any (fun b => b.st == .phase false && !(s.engines.any fun e => e.uid == 0 && !(e.st == .done))
        && (!b.phase.any PhaseOp.wc || !(s.grids.any fun g => g.parentBlock == some 0 && (g.st == .queued || g.st == .accepted)) &&
          !(s.tasks.any fun t => t.parentBlock == 0 && (t.state == 1 || t.state == 2)))) &&
     (u.block? 0).any fun b => b.st == .phase true && u.holdsCore b && !u.higherWaits b &&
        (match spillFor { b := b, seat := .phase, cores := [] } (coreCluster b.core) u.blocks.length u with
        | some s1 => (s1.phaseBegin 0 b.core).isSome
        | none => false) &&
        -- every well of its cluster is another's
        let full : State := holding (fun b => { b with kernel := { b.kernel with wellbytes := 1 } })
          (u.modCore 0 fun c => { c with arrivals := (List.range 200).map fun k => { well := k, giver := 0, ctx := 0, stamp := 0 } })
        (full.block? 0).any fun b => full.holdsCore b && !full.higherWaits b &&
          (spillFor { b := b, seat := .phase, cores := [] } (coreCluster b.core) full.blocks.length full).isNone) = true := by decide +kernel

theorem wit_gangBoundary :
    (let s : State := { quiet with time := 5000000, plat := { quiet.plat with slices := { owner := [0], n := 1, len := 1000 } } }
     s.nextBoundary.any fun t => decide (t ≤ s.time)) = true := by decide +kernel

/-! The host. -/

/-- The device has booted. -/
def up (s : State) : State := { s with plat := { s.plat with wipe := false, ready := true } }

theorem wit_hostWrites :
    (let s := up State.reset
     let q : State := { s with mem := writeNat s.mem 0x4000 64 (0x5000 + 4 * 2 ^ 64 + 2 ^ 128), plat := { s.plat with qbase := cset s.plat.qbase 1023 0x4000 } }
     let x : HostAccess := { write := true, offset := 68719476732, len := 4, data := [1, 2, 3, 4] }
     let b : State := { s with plat := { s.plat with winbase := 0x2000000000000 } }
     let traced := s.modDie 3 fun d => { d with trace := { d.trace with ctl := 1 } }
     decide (3 < Config.nDies ∧ 63 < 64 ∧ 2 < 3) && !s.plat.recovery && decide (4294967296 / barBytes ≤ 64) && s.barOpen && (traced.die 3).trace.en && !(s.die 3).trace.en && traced.barOpen
       && q.cmdsRun && (q.queueHdr 1023).isSome
       && !b.plat.recovery && !b.plat.wipe && decide (x.offset + (x.data.take x.len).length ≤ 2 ^ 36)
       && (List.range 4).all fun k => inFar (b.plat.winbase.toNat + x.offset + k) && b.hostReach (b.plat.winbase.toNat + x.offset + k)
            && b.hostWritable (b.plat.winbase.toNat + x.offset + k)) = true := by decide +kernel

/-- A command is the next of queue 5: its operation, address and argument. -/
def asked (s : State) (op addr arg : Nat) : State :=
  { up s with mem := writeNat s.mem 0x5000 64 (op + addr * 2 ^ 64 + arg * 2 ^ 128),
              plat := { (up s).plat with queues := [{ queue := 5, hdr := 0x4000, base := 0x5000, lg := 4, head := 0, tail := 1 }] } }

/-- The state in which the command takes effect meets `ok`. -/
def commands (s : State) (mine : Nat → Bool) (ok : Nat → State → Bool) : Bool :=
  s.cmdsRun && s.rejectAll.nextCmd.any fun x => mine x.2 && ok x.2 (s.rejectAll.queuePop x.1)

/-- A gang slice table of 16 slots of 10 us at 0x8000 (R369). -/
def sliced (s : State) : State := { s with mem := writeNat s.mem 0x8000 64 (10 * 2 ^ 64 + 16 * 2 ^ 96) }

theorem wit_commands :
    (let reset := State.reset
     let free : State := { reset with ctxs := [] }
     commands (asked (partitioned (world addI [] [kernelBytes, launchBytes])) 1 0x1000 0) (fun v => cmdOp v == 1) (fun v u =>
        (u.ctx (cmdCtx v)).lives && cmdAddr v % 64 == 0 && (u.checkLaunch (cmdCtx v) (readNat u.mem (cmdAddr v) 128)).isSome) &&
     commands (asked free 2 0 0) (isCmd 2) (fun _ _ => true) &&
     commands (asked quiet 3 0 0) (isCmd 3) (fun v u => (u.ctx (cmdCtx v)).lives) &&
     !(reset.dieBusy 3) && decide (3 < Config.nDies) && commands (asked reset 4 0x8000 0) (isCmd 4) (fun v u =>
        (allSome ((List.range 16).map fun k => partitionOf (readNat u.mem (cmdAddr v + 64 * k) 64))).isSome) &&
     commands (asked reset 5 0x8000 0) (isCmd 5) (fun v u => (slicesOf (readNat u.mem (cmdAddr v) 64)).any fun x =>
        u.plat.slices.n == 0 && x.n == 0 && u.plat.nextSlices.isNone) &&
     commands (sliced (asked reset 5 0x8000 0)) (isCmd 5) (fun v u => (slicesOf (readNat u.mem (cmdAddr v) 64)).any fun x =>
        u.plat.slices.n == 0 && x.n == 16) &&
     commands (asked { reset with plat := { reset.plat with nextSlices := some ({ n := 1 }, none) } } 5 0x8000 0) (isCmd 5) (fun v u =>
        (slicesOf (readNat u.mem (cmdAddr v) 64)).any fun x => u.plat.slices.n == 0 && x.n == 0 && u.plat.nextSlices.isSome) &&
     commands (sliced (asked { reset with plat := { reset.plat with slices := { n := 1 } } } 5 0x8000 0)) (isCmd 5) (fun v u =>
        (slicesOf (readNat u.mem (cmdAddr v) 64)).isSome && u.plat.slices.n == 1) &&
     commands (asked reset 6 0x8000 (4094 + 2 * 2 ^ 32)) (isCmd 6) (fun v u =>
        (allSome ((List.range 2).map fun k => groupOf (4094 + k) (readNat u.mem (cmdAddr v + 32 * k) 32))).isSome) &&
     commands (asked reset 7 0 15) (isCmd 7) (fun v u => (diesOf (cmdArg v)).any fun ds => !ds.any u.dieBusy) &&
     commands (asked reset 8 0 15) (isCmd 8) (fun v _ => (diesOf (cmdArg v)).isSome) &&
     commands (asked free 9 0x10000 0) (isCmd 9) (fun _ u => !u.ctxs.any Ctx.lives) &&
     commands (asked reset 10 (40 * 2 ^ 40 + 8 * 2 ^ 32 + 700 * 2 ^ 10) 3) (fun v => isCmd 10 v && cmdReg v == 0) (fun v _ => decide
        (fieldOf (cmdAddr v) 40 8 = 40 ∧ fieldOf (cmdAddr v) 32 8 = 8 ∧ fieldOf (cmdAddr v) 10 10 = 700)) &&
     commands (asked reset 10 0 (4 * 2 ^ 4)) (fun v => isCmd 10 v && cmdReg v != 0) (fun v u =>
        let es := (List.range 4).map fun j => ((u.die 0).stitch.getD j 0).toNat
        stitchOk (((List.range 4).filter fun j => j != cmdReg v - 1).map fun j => es.getD j 0) (cmdAddr v)) &&
     commands (asked quiet 11 0 0) (isCmd 11) (fun v u => (u.ctx (cmdCtx v)).lives)) = true := by decide +kernel

/-! The platform. -/

theorem wit_powerEvents :
    (let s : State := { up State.reset with time := 10000 }
     let d : State := s.modDie 3 fun d => { d with relock := some 9000 }
     let h : State := s.modDie 3 fun d => { d with hot := true, tempC := 115 }
     decide (3 < Config.nDies ∧ (s.die 3).lastPower + 10000 ≤ s.time) && (s.die 3).relock.isNone && !s.plat.stopped && !(s.die 3).hot && !s.plat.ttrip
       && (d.die 3).relock == some 9000 && decide (9000 ≤ d.time) && (h.die 3).hot && !h.plat.stopped && (h.dies.any fun d => 115 ≤ d.tempC) && !h.plat.ttrip) = true :=
  by decide +kernel

def peerRead : PeerReq :=
  { dev := 1, seq := 0, eng := false, ctx := 0, label := 0, write := false, chk := false, op := .load, addr := 60, len := 4, data := [],
    slot := 0, num := 0, who := 0, acqWide := 0, rels := [] }

/-- An atomic of another device on the last bytes of a die's weight store, and on memory (R467). -/
def peerAtomic (at' : Nat) : PeerReq :=
  { peerRead with label := 2, write := true, op := .rmw 0 false, addr := at', data := [1, 0, 0, 0], chk := true }

/-- Every route has been gone since the start. -/
def cut (s : State) : State := { up s with time := 1000000, plat := { (up s).plat with noRouteSince := some 0, linksDown := List.range 36 } }
def down : State := cut loading

/-- Another device's page (location 6) for the source of a copy. -/
def peerCopy : State :=
  let s := run1 (world sbI [(10, 0x20000000), (20, 0x200000)] [(0x20008, 8, 4 * 2 ^ 13 + 0xB9)]) sbI
  { cut s with msgs := [], engines := s.engines.map fun (e : Engine) => { e with routeAt := some 0 } }

theorem wit_windowsAndLinks :
    (let s : State := { State.reset with time := 850 }
     let o : State := { s with time := 100000, dies := s.dies.map fun (d : Die) => { d with openGroups := [0] } }
     let far : State := { down with msgs := down.msgs.map fun (m : Msg) => match m.kind with
        | .fillReq f => { m with kind := .fillReq { f with loc := locPeer } }
        | _ => m }
     ((List.range 64).any fun g => windowOpenAt (s.die 3).t0 g s.time && !(s.die 3).openGroups.contains g) &&
     (windowOpenAt (o.die 3).t0 0 o.time == false) && (o.die 3).openGroups.contains 0 &&
     (let q := up quiet
      [peerRead, peerAtomic 0x3C].all fun r =>
       q.trained && q.plat.isPeer r.dev && inHbm r.addr && decide (r.addr % 64 + r.len ≤ 64 ∧ r.len ≠ 0) &&
       r.write == (peerStrong r.op).mayWrite && q.peerTurn r && q.hostReach r.addr && (q.homeReady locLocal r.addr).isSome) &&
     (up s).trained && !((up s).plat.linksDown.contains 35) && down.routeLost &&
     (far.msgs.head?).any (fun m => decide (m.sent + 100000 ≤ far.time) && (far.noRoute m).isSome) && peerCopy.routeLost &&
     engineMeets peerCopy fun e => (peerCopy.msg? e.id).isNone && (peerCopy.noRouteEngine e).isSome) = true := by decide +kernel

theorem wit_sampling :
    (let s : State := { quiet.modDie 0 (fun d => { d with trace := { d.trace with ctl := 1 + 2 ^ 16 } }) with time := 70000 }
     let u : State := s.modCore 0 fun c => c.setSched 3
       { samples := [{ pc := 0, eseq := 0, slot := 0, ctx := 0, time := 5, cls := 0, minor := 0, nact := 1, fault := false, disc := false, pair := false }] }
     (s.die (coreDie 0)).trace.en && (s.die (coreDie 0)).trace.sint != 0 && decide (max ((s.core 0).sched 3).nextAt (s.die 0).trace.enAt ≤ s.time)
       && (((u.core 0).sched 3).samples.find? u.sampleDone).isSome) = true := by decide +kernel

theorem wit_timeAndResets :
    (let s : State := { State.reset with time := 2000000000 }
     let w : State := { State.reset with time := wipeTime }
     let r : State := { State.reset with plat := { State.reset.plat with wipe := false, recovery := true } }
     let x : PtpSync := { domain := s.plat.ptpdom.toNat, port := 43, offset := -19, slewPpb := 300000, stepNs := 7 }
     let h : State := { up s with plat := { (up s).plat with ptpports := (2 : BitVec 64) ^ 43 } }
     h.hearsSync x && (up s).trained && !s.plat.holdover && decide (s.plat.lastSync + 2000000000 ≤ s.time) && w.plat.wipe && decide (w.plat.resetAt + wipeTime ≤ w.time)
       && r.plat.recovery && !r.plat.wipe && LifeCycle.follows State.reset.plat.lcs .provisioned) = true := by decide +kernel

/-! The whole machine, and what goes for every instruction. -/

/-- The premises of a step of an issuing warp. -/
def stepping (s : State) (i : Instr) : Bool :=
  s.issue.any fun n => (s.warp? n.uid n.wid).any fun w => w.bundle.any fun x => w.line.any fun b =>
    b.line == lineOf x.pc.toNat && b.st == .good && !lineWordBad (lineWord b.data) && isSlot x.pc.toNat
      && (!landing w x || lwTarget (lineWord b.data) (slotOf x.pc)) && !n.probe && match decodeWord (slotWord b.data (slotOf x.pc)) with
        | .ok j => j == i
        | .error _ => false

/-- A trial of a warp that stalled before (R355). -/
def tried (s : State) : State := { s with issue := s.issue.map fun n => { n with probe := true } }

/-- The premises at a slot whose word decodes to nothing: class 0x05 is reserved (R83); with a lane active, and with none. -/
def undecodable (w : BitVec 96) (act : Bool) : Bool :=
  let s := boot w.toNat
  s.issue.any fun n => !n.probe && (s.warp? n.uid n.wid).any fun w => w.bundle.any fun x => w.line.any fun b =>
    b.line == lineOf x.pc.toNat && b.st == .good && !lineWordBad (lineWord b.data) && isSlot x.pc.toNat
      && (!landing w x || lwTarget (lineWord b.data) (slotOf x.pc))
      && (match decodeWord (slotWord b.data (slotOf x.pc)) with | .ok _ => false | .error _ => true)
      && (s.issueCtx (readCommon (slotWord b.data (slotOf x.pc)))).any fun c => (c.beginners == 0 || s.checksIn c.w) && (c.active != 0) == act

theorem wit_undecodable : (undecodable 0x1C5000000000000000000000 true && undecodable 0x005000000000000000000000 false) = true := by
  decide +kernel

/-- Such a step reports ILLEGAL: the record in the context's ring has code 1 and the bundle's lane (R80, R424). -/
theorem test_undecodableIllegal :
    (let base := world addI [] [(0x300000, 64, 0x310000 + 4 * 2 ^ 64)]
     let s : State := { base with
       ctxs := base.ctxs.map fun (c : Ctx) => { c with fring := 0x300000, hctx := 0 },
       warps := [{ bootWarp 0x1C5000000000000000000000 with bundle := some ⟨1, 0, 0⟩ }] }
     match step s with
      | .next t => (t.warp? 0 0).any (fun w => w.held) && fieldOf (readNat t.mem 0x310000 64) 0 16 == 0x0001
          && fieldOf (readNat t.mem 0x310000 64) 184 32 == 1
      | _ => false) = true := by decide +kernel

theorem wit_steps :
    (stepping (world addI [] []) addI && (tried (world addI [] [])).issue.any (fun n => n.probe) &&
      (match exec addI (tried (world addI [] [])) with | .next _ => true | _ => false) && (State.reset.modDie 0 fun d => { d with openGroups := [0] }).issue.isNone
      && (autoEvent (State.reset.modDie 0 fun d => { d with openGroups := [0] })).isNone && quiet.issue.isNone && quiet.script.isEmpty
      && (autoEvent quiet).isSome) = true := by decide +kernel

/-- A line whose line word is `lw`, at the PC of the warp that issues. -/
def lineWordIs (lw : Nat) : Bool :=
  let s := (world addI [] []).modWarp 0 0 fun w => { w with line := some { line := 0, st := .good, data := BitVec.ofNat 512 (lw * 2 ^ 480) } }
  (s.warp? 0 0).any fun w => w.bundle.any fun x => w.line.any fun b => b.line == lineOf x.pc.toNat && b.st == .good
    && ((lineWord b.data).extractLsb' 21 11 != 0 || (lineWord b.data).getLsbD 15
      || (List.range 5).any fun k => (lineWord b.data).getLsbD (16 + k) && !(lineWord b.data).getLsbD k)

theorem wit_badLineWord : (lineWordIs (2 ^ 31) && lineWordIs (2 ^ 21) && lineWordIs (2 ^ 15) && lineWordIs (2 ^ 20)) = true := by decide +kernel

/-- What every instruction word checks first is met; `ok` of the issue. -/
def first (s : State) (i : Instr) (ok : Ic → Bool) : Bool :=
  (match form i with | .event => false | _ => true) && (s.issueCtx (common i)).any fun c => c.w.acq.isNone && (c.beginners == 0 || s.checksIn c.w) && ok c

def user (s : State) : State := { s with ctxs := s.ctxs.map fun (c : Ctx) => { c with priv := false } }
def R7 (imm : BitVec 32) : RegForm := R false 0 0 0 0 .vec .vec .vec .vec .b32 0 imm

theorem wit_firstChecks :
    (let wide : Instr := .add (R false 40 1 2 0 .vec .vec .vec .vec .i32 0 0)
     let reserved : Instr := .add (R false 3 1 2 0 .vec .vec .vec .vec .i32 7 0)
     let small (s : State) : State := holding (fun b => { b with kernel := { b.kernel with nv := 2, ns := 1 } }) s
     first (user (world (.sysHalt (R7 0)) [] [])) (.sysHalt (R7 0)) (fun c => c.active != 0 && !(user quiet).privileged c.b.ctx) &&
     first (world addI [] []) reserved (fun c => c.active != 0 && !wellFormed reserved) &&
     first (small (world wide [] [])) wide (fun c => c.active != 0 && !(usesOf wide).all (useOk c.b.kernel)) &&
     first (small (world sendI [] [])) (.send (E 40 10 0x80 12 0 0))
       (fun c => c.active != 0 && !(tokenOf (.send (E 40 10 0x80 12 0 0))).all fun r => r < 16 * c.b.kernel.ns) &&
     first (world addI [] []) (.add { R false 3 1 2 0 .vec .vec .vec .vec .i32 0 0 with c := ⟨false, false, false, 0⟩ }) (fun c => c.active == 0)
       && (user quiet).ctxs.length == 1) = true := by decide +kernel

/-- A warp whose fault has gone to its ring, the warps that a scheduler chooses, and the waking of that warp. -/
theorem wit_faults :
    (let s := ready quiet
     let r : FaultRec := { code := FaultCode.align.code }
     let f : State := (s.warp? 0 0).elim s fun w => s.takeFault w r
     ((s.warp? 0 0).any fun w => !s.strongBusy w.uid w.wid && (s.putRecord w.core (s.recordOf w r) true).any fun t => (t.warp? 0 0).isSome) &&
     (let u := (s.schedWarps 0 0).foldl (fun (s : State) (w : Warp) => s.setWarp (w.prepare 0)) s
      (u.chooseWarp 0 0).isSome) && (f.warp? 0 0).isSome && (f.block? 0).isSome) = true := by decide +kernel

/-- A trap's record has gone to the ring of its context, which has four entries and is empty. -/
theorem wit_trapParks :
    (let i : Instr := .trap (R7 0xEF)
     let base := world i [] [(0x300000, 64, 0x310000 + 4 * 2 ^ 64)]
     let s : State := { base with ctxs := base.ctxs.map fun (c : Ctx) => { c with fring := 0x300000, hctx := 0 } }
     meets s i fun c s => (s.warp? c.w.uid c.w.wid).any fun x =>
       let w : Warp := x.modThreads c.active fun _ t =>
         { t.fresh with pc := nextPc c.pc, rentry := nextPc c.pc, rseq := t.rseq + 1, newRegion := false, reenter := true, landed := true }
       !s.strongBusy c.w.uid c.w.wid && x.faultStall.isNone
         && ((s.setWarp w).putRecord w.core ((s.setWarp w).recordOf w
              { c.record .trap c.lane0 with aux := 0xEF, rentry := nextPc c.pc, rseq := (c.w.thread c.lane0).rseq + 1 }) true).any fun s1 =>
            s1.warp? c.w.uid c.w.wid == some w && !(s1.ctx 0).dead) = true := by decide +kernel

theorem wit_storesAndWords :
    (let g : MemForm := M false 4 6 0 0 false false .b32 .warp .well 0 0xFFFC
     let b : Block := { bootBlock with bank := [(0, { well := 0, first := 0, count := 16 })] }
     (meetsIn stI [] [] fun c s =>
        match stI with
        | .st f => (s.storeLane c f 0 (.mem { pa := 60 } 60)).isSome
        | _ => false) &&
     (meetsIn (.ldfe g) [] [] fun c s =>
        let key := (b.wellAt 65532).getD 0
        let full := s.wellSetFull key true
        (c.b.wellAt 65532) == some key && !s.wellIsFull key && full.wellIsFull key && cwf full.wellFull && cwf s.wellFull
          && ((full.ldfeTake c.w.uid c.w.wid key).2.waiters key true).isEmpty) &&
     quiet.warps.all Warp.resident && quiet.plat.ctxbase.toNat % 64 == 0 && (quiet.ctxs.any fun c => c.created && c.id == 0)
       && (quiet.roBytes.any fun x => x.1 == 64) && !(quiet.roBytes.any fun x => x.1 == 127) &&
     cwf (w := 8) quiet.mem && registersWf quiet && registersWf added && Memory.wf filled.mem) = true := by decide +kernel

/-- An instruction of each frame that takes no fault in its world. -/
theorem wit_unfaulted :
    (let good (i : Instr) : Bool := meetsIn i [] [] fun c s => match exec i (world i [] []) with
        | .next t => !(t.warp? c.w.uid c.w.wid).any (fun w => w.held || w.faultStall.isSome) && s.issue.isSome
        | _ => false
     good addI && good ldI && good stI && good (.call (B 20 0 false false 0)) && good (.tzero (R true 7 0 0 0 .special .vec .vec .vec .b32 0 0))
       && good (.slen (R true 0 0 0 0 .vec .imm .vec .vec .n32 0 0x100)) && good (.sseed (R true 0 4 0 0 .vec .uni .imm .vec .b64 0 0x3F))
       && meetsIn (.shfl (R false 4 1 0 0 .vec .vec .imm .vec .b32 3 0x10)) [] [] (fun c s =>
         (workLanes false c.active).all fun l => (s.inFlight c (R false 4 1 0 0 .vec .vec .imm .vec .b32 3 0x10) l).isEmpty)
       && good (.smov (R true 3 1 0 0 .special .special .vec .vec .b32 0 0)) && good (.scnt (R false 3 1 0 0 .vec .special .vec .vec .n32 0 0))) = true := by
  decide +kernel

theorem wit_commandIssue : (((world sendI [] []).warp? 0 0).isSome && !((world sendI [] []).die 0).trace.en) = true := by
  decide +kernel

/-! Marks (R386, R387, R395, R493) and block scales (R269): the expected values are the manual's. -/

/-- The record of the accumulator T that R493 gives: phase 2, class 3, word 0, time 3,072. -/
def markT : Mark := compactMark 2 { atomics := [{ aclass := 3, amask := 1, atime := 3072 }] }

theorem test_markRecord : markT.bits = 0x130000000100000000000F := by decide +kernel

/-- Bytes 4 to 15 of its side band: 40, then the record. -/
theorem test_sideBand : ({ line := 0, mark := markT, mvalid := true } : Band).bits / 2 ^ 32 = 0x130000000100000000000F40 := by decide +kernel

/-- Bits 191:128 of entry 3 of die 1 are its slice set (R377). -/
theorem test_addressRange :
    (run1 { up State.reset with l2 := [] } (.registerWrite (64 * 2 ^ 26 + 2048 + 96 + 16) 0xF0)).rangeAt 1 3 = { smask := 0xF0 } := by decide +kernel

/-- The scales of B begin at its base plus its elements' bytes, the sum rounded up to 64: 16 + 2 * 64 * 64 = 8208 gives 8256. -/
theorem test_scaleBase :
    ((matOf false { token := 0, record := 0, conv := 0, aux := 0, mod := 0, imm := 0, c := c7 true } [
      16 + 0x11 * 2 ^ 64 + 2 * 2 ^ 72 + 64 * 2 ^ 96 + 64 * 2 ^ 128 + 2 ^ 432 + 2 ^ 440]).scaleAt 0 0) = 8256 := by decide +kernel

end Sys2Proof.Tests
end

/-! PROOFS. What a write leaves in memory at a home (O43): the guard of RO bits and DEPUSEs byte by byte, then the frame of a
strong access. The manual's example words (O2). -/

namespace Sys2Proof

open Sys2Proof.Machine Sys2Proof.Claims

/-! ### Bytes and bits of a line -/

theorem getLsbD_setBit_true {w : Nat} (v : BitVec w) (k : Nat) {j : Nat} (hj : j < w) :
    (setBit v k true).getLsbD j = (decide (j = k) || v.getLsbD j) := by
  have h : ((1 : BitVec w) <<< k).getLsbD j = (decide (k < w) && decide (k = j)) := BitVec.getLsbD_twoPow k j
  rw [setBit, if_pos rfl, BitVec.getLsbD_or, h, Bool.or_comm, ← Bool.decide_and]
  exact congrArg (· || _) (decide_eq_decide.mpr (by omega))

theorem getLsbD_lineByte (d : BitVec 512) (k i : Nat) : (lineByte d k).getLsbD i = (decide (i < 8) && d.getLsbD (8 * k + i)) := by
  simp [lineByte, BitVec.getLsbD_extractLsb']

theorem lineByte_setLineByte (d : BitVec 512) (k : Nat) (b : Byte) {j : Nat} (hj : j < 64) :
    lineByte (setLineByte d k b) j = if j = k then b else lineByte d j := by
  apply BitVec.eq_of_getLsbD_eq
  intro i hi
  have hff : ∀ n, (0xFF#512).getLsbD n = decide (n < 8) := fun n => by
    rw [BitVec.getLsbD_ofNat, show 0xFF = 2 ^ 8 - 1 from rfl, Nat.testBit_two_pow_sub_one, ← Bool.decide_and]
    exact decide_eq_decide.mpr (by omega)
  rw [getLsbD_lineByte]
  simp only [setLineByte, BitVec.getLsbD_or, BitVec.getLsbD_and, BitVec.getLsbD_not, BitVec.getLsbD_shiftLeft, hff,
    BitVec.getLsbD_setWidth]
  have h1 : 8 * j + i < 512 := by omega
  rcases Nat.lt_trichotomy j k with h | h | h
  · have : 8 * j + i < 8 * k := by omega
    rw [if_neg (Nat.ne_of_lt h), getLsbD_lineByte]
    simp only [h1, hi, this, decide_true, Bool.not_true, Bool.and_false, Bool.false_and, Bool.not_false, Bool.and_true,
      Bool.true_and, Bool.or_false]
  · subst h
    rw [if_pos rfl, Nat.add_sub_cancel_left]
    have h2 : ¬ 8 * j + i < 8 * j := by omega
    have h3 : i < 512 := by omega
    simp only [h1, h2, h3, hi, decide_true, decide_false, Bool.not_false, Bool.and_self, Bool.not_true, Bool.and_false,
      Bool.true_and, Bool.false_or]
  · have h2 : ¬ 8 * j + i < 8 * k := by omega
    have h3 : ¬ 8 * j + i - 8 * k < 8 := by omega
    have h4 : b.getLsbD (8 * j + i - 8 * k) = false := BitVec.getLsbD_of_ge _ _ (by omega)
    rw [if_neg (Nat.ne_of_gt h), getLsbD_lineByte]
    simp only [h1, hi, h2, h3, h4, decide_true, decide_false, Bool.not_false, Bool.and_true, Bool.and_false, Bool.true_and,
      Bool.or_false]

/-- The bytes of a number, one by one. -/
theorem natOfBytes_byte (bs : List Byte) (j : Nat) : natOfBytes bs / 2 ^ (8 * j) % 2 ^ 8 = (bs.getD j 0).toNat := by
  induction bs generalizing j with
  | nil => simp [natOfBytes]
  | cons b bs ih =>
    have hb := b.isLt
    cases j with
    | zero =>
      rw [Nat.mul_zero, Nat.pow_zero, Nat.div_one, natOfBytes, List.getD_cons_zero]
      omega
    | succ j =>
      rw [List.getD_cons_succ, ← ih j, natOfBytes, show 8 * (j + 1) = 8 + 8 * j by omega, Nat.pow_add, ← Nat.div_div_eq_div_mul,
        show (b.toNat + 256 * natOfBytes bs) / 2 ^ 8 = natOfBytes bs by omega]

theorem lineByte_lineOfBytes (bs : List Byte) {j : Nat} (hj : j < 64) : lineByte (lineOfBytes bs) j = bs.getD j 0 := by
  apply BitVec.eq_of_toNat_eq
  rw [← natOfBytes_byte, lineByte, lineOfBytes, BitVec.extractLsb'_toNat, BitVec.toNat_ofNat]
  apply Nat.eq_of_testBit_eq
  intro i
  simp only [← Nat.shiftRight_eq_div_pow, Nat.testBit_mod_two_pow, Nat.testBit_shiftRight]
  by_cases hi : i < 8
  · simp [hi, show 8 * j + i < 512 by omega]
  · simp [hi]

theorem getLsbD_byteMask (k n : Nat) {j : Nat} (hj : j < 64) : (byteMask k n).getLsbD j = decide (k ≤ j ∧ j < k + n) := by
  induction n with
  | zero => simp [byteMask]
  | succ n ih =>
    have h : byteMask k (n + 1) = setBit (byteMask k n) (k + n) true := by
      rw [byteMask, List.range_succ, List.foldl_append]
      rfl
    rw [h, getLsbD_setBit_true _ _ hj, ih, Bool.eq_iff_iff]
    simp only [Bool.or_eq_true, decide_eq_true_eq]
    omega

/-! ### What a write of a line leaves in memory -/

/-- Reading after the marked ones of `n` consecutive bytes have been written. -/
theorem cget_foldl_cset {m : Memory} (h : Memory.wf m = true) (a : Nat) (p : Nat → Bool) (v : Nat → Byte) (n j : Nat) :
    cget (w := 8) ((List.range n).foldl (fun m k => if p k then cset (w := 8) m (a + k) (v k) else m) m) j =
      if a ≤ j ∧ j < a + n ∧ p (j - a) = true then v (j - a) else cget (w := 8) m j := by
  induction n with
  | zero => rw [if_neg (by omega)]; rfl
  | succ n ih =>
    have hw := wf_foldl (fun m k => if p k then cset (w := 8) m (a + k) (v k) else m) (fun m k hm => by
      split
      · exact wf_cset hm _ _
      · exact hm) (List.range n) h
    rw [List.range_succ, List.foldl_append, List.foldl_cons, List.foldl_nil]
    generalize (List.range n).foldl _ m = x at ih hw ⊢
    by_cases hj : j = a + n
    · subst hj
      rw [Nat.add_sub_cancel_left]
      split
      · next hp => rw [cget_cset (w := 8) hw, if_pos rfl, if_pos ⟨by omega, by omega, hp⟩]
      · next hp => rw [ih, if_neg (by omega), if_neg (fun h => hp h.2.2)]
    · have e : cget (w := 8) (if p n then cset (w := 8) x (a + n) (v n) else x) j = cget (w := 8) x j := by
        split
        · rw [cget_cset (w := 8) hw, if_neg hj]
        · rfl
      rw [e, ih]
      exact ite_congr (propext ⟨fun h => ⟨h.1, by omega, h.2.2⟩, fun h => ⟨h.1, by omega, h.2.2⟩⟩) (fun _ => rfl) fun _ => rfl

theorem cget_writeMasked {m : Memory} (h : Memory.wf m = true) (a : Nat) (mask : BitVec 64) (d : BitVec 512) (j : Nat) :
    cget (w := 8) (writeMasked m a mask d) j =
      if a ≤ j ∧ j < a + 64 ∧ mask.getLsbD (j - a) = true then lineByte d (j - a) else cget (w := 8) m j :=
  cget_foldl_cset h a mask.getLsbD (lineByte d) 64 j

/-- All that a write of software at a home changes: memory, where the guard lets it through, and what is kept beside it. -/
theorem softWrite_only (s : State) (line : Nat) (mask : BitVec 64) (data : BitVec 512) :
    ∃ b l r, s.softWrite line mask data =
      { s with mem := writeMasked s.mem line (s.guard line mask data).1 (s.guard line mask data).2, bands := b, l2 := l, stamps := r } := by
  unfold State.softWrite State.homeWrite
  dsimp only
  split
  · unfold State.setBand
    split <;> exact ⟨_, _, _, rfl⟩
  · exact ⟨_, _, _, rfl⟩

theorem byteAt_softWrite {s : State} (h : Memory.wf s.mem = true) (line : Nat) (mask : BitVec 64) (data : BitVec 512) (a : Nat) :
    byteAt (s.softWrite line mask data) a =
      if line ≤ a ∧ a < line + 64 ∧ (s.guard line mask data).1.getLsbD (a - line) = true then
        lineByte (s.guard line mask data).2 (a - line)
      else byteAt s a := by
  obtain ⟨b, l, r, e⟩ := softWrite_only s line mask data
  rw [e]
  exact cget_writeMasked h _ _ _ _

/-- The same, of a byte of the line itself. -/
theorem byteAt_softWrite_line {s : State} (h : Memory.wf s.mem = true) (line : Nat) (mask : BitVec 64) (data : BitVec 512) {k : Nat}
    (hk : k < 64) : byteAt (s.softWrite line mask data) (line + k) =
      if (s.guard line mask data).1.getLsbD k then lineByte (s.guard line mask data).2 k else byteAt s (line + k) := by
  rw [byteAt_softWrite h, Nat.add_sub_cancel_left]
  exact ite_congr (propext ⟨fun h => h.2.2, fun h => ⟨by omega, by omega, h⟩⟩) (fun _ => rfl) fun _ => rfl

theorem byteAt_softWrite_other {s : State} (h : Memory.wf s.mem = true) (line : Nat) (mask : BitVec 64) (data : BitVec 512) {a : Nat}
    (ha : a < line ∨ line + 64 ≤ a) : byteAt (s.softWrite line mask data) a = byteAt s a := by
  rw [byteAt_softWrite h, if_neg (by omega)]

/-! ### What the guard lets through (R10, R449) -/

/-- What is reached from some element of a list, and then kept, holds at the end. -/
theorem foldl_reaches {α β : Type} {P Q : β → Prop} {f : β → α → β} {l : List α} {x : α} (hx : x ∈ l) (keepQ : ∀ b y, Q b → Q (f b y))
    (reach : ∀ b, Q b → P (f b x)) (keepP : ∀ b, ∀ y ∈ l, P b → P (f b y)) {b : β} (hb : Q b) : P (l.foldl f b) := by
  obtain ⟨l₁, l₂, rfl⟩ := List.append_of_mem hx
  rw [List.foldl_append, List.foldl_cons]
  refine List.foldlRecOn l₂ f (reach _ ?_) fun b h y hy => keepP b y (by simp [hy]) h
  exact List.foldlRecOn l₁ f hb fun b h y _ => keepQ b y h

/-- Where the DEPUSE of a context is. -/
def depuseAt (s : State) (c : Ctx) : Nat := s.plat.ctxbase.toNat + 1024 * c.id + 72

/-- The guard at one byte that holds RO bits: they take their old values. -/
def keepRo (s : State) (x : BitVec 64 × BitVec 512) (r : Nat × Byte) : BitVec 64 × BitVec 512 :=
  (x.1, setLineByte x.2 (r.1 % 64) ((byteAt s r.1 &&& r.2) ||| (lineByte x.2 (r.1 % 64) &&& ~~~r.2)))

/-- Bytes of a line written with zero. -/
def clearBytes (n : Nat) (x : BitVec 64 × BitVec 512) (p : Nat) : BitVec 64 × BitVec 512 :=
  (List.range n).foldl (fun (x : BitVec 64 × BitVec 512) k => (setBit x.1 (p + k) true, setLineByte x.2 (p + k) 0)) x

/-- The guard at the DEPUSE of one context: written, it is cleared. -/
def clearDepuse (s : State) (line : Nat) (x : BitVec 64 × BitVec 512) (c : Ctx) : BitVec 64 × BitVec 512 :=
  if lineOf (depuseAt s c) == line && (List.range 4).any fun k => x.1.getLsbD (depuseAt s c % 64 + k) then
    clearBytes 4 x (depuseAt s c % 64)
  else x

/-- The RO bits that a line holds. -/
def roOf (s : State) (line : Nat) : List (Nat × Byte) := s.roBytes.filter fun x => lineOf x.1 == line

theorem guard_eq (s : State) (line : Nat) (mask : BitVec 64) (data : BitVec 512) :
    s.guard line mask data =
      (s.ctxs.filter Ctx.created).foldl (clearDepuse s line) ((roOf s line).foldl (keepRo s) (mask, data)) := rfl

theorem mem_roOf {s : State} {line : Nat} (hl : line % 64 = 0) {r : Nat × Byte} :
    r ∈ roOf s line ↔ r ∈ s.roBytes ∧ r.1 = line + r.1 % 64 := by
  simp only [roOf, List.mem_filter, beq_iff_eq, lineOf]
  exact and_congr_right fun _ => by omega

theorem lineByte_keepRo (s : State) (x : BitVec 64 × BitVec 512) (r : Nat × Byte) {k : Nat} (hk : k < 64) :
    lineByte (keepRo s x r).2 k =
      if k = r.1 % 64 then (byteAt s r.1 &&& r.2) ||| (lineByte x.2 k &&& ~~~r.2) else lineByte x.2 k := by
  rw [keepRo, lineByte_setLineByte _ _ _ hk]
  split
  · next h => rw [h]
  · rfl

theorem keepRo_mask (s : State) (l : List (Nat × Byte)) (x : BitVec 64 × BitVec 512) : (l.foldl (keepRo s) x).1 = x.1 :=
  List.foldlRecOn (motive := fun y : BitVec 64 × BitVec 512 => y.1 = x.1) l (keepRo s) rfl fun _ h _ _ => h

theorem keepRo_plain (s : State) (l : List (Nat × Byte)) (x : BitVec 64 × BitVec 512) {k : Nat} (hk : k < 64)
    (h : ∀ r ∈ l, r.1 % 64 ≠ k) : lineByte (l.foldl (keepRo s) x).2 k = lineByte x.2 k :=
  List.foldlRecOn (motive := fun y : BitVec 64 × BitVec 512 => lineByte y.2 k = lineByte x.2 k) l (keepRo s) rfl fun y hy r hr => by
    rw [lineByte_keepRo s y r hk, if_neg (h r hr).symm, hy]

/-- The bits that a guard keeps have their old values. -/
theorem old_or_new_and_kept (old new a : Byte) : ((old &&& a) ||| (new &&& ~~~a)) &&& a = old &&& a := by
  apply BitVec.eq_of_getLsbD_eq
  intro i hi
  simp only [BitVec.getLsbD_and, BitVec.getLsbD_or, BitVec.getLsbD_not, hi, decide_true, Bool.true_and]
  cases a.getLsbD i <;> simp

/-- Bits that have their old values keep them through another guard of the byte. -/
theorem old_or_new_and {old new a : Byte} (b : Byte) (h : new &&& a = old &&& a) :
    ((old &&& b) ||| (new &&& ~~~b)) &&& a = old &&& a := by
  apply BitVec.eq_of_getLsbD_eq
  intro i hi
  have := congrArg (fun v => v.getLsbD i) h
  simp only [BitVec.getLsbD_and, BitVec.getLsbD_or, BitVec.getLsbD_not, hi, decide_true, Bool.true_and] at this ⊢
  cases b.getLsbD i <;> simp [this]

/-- A byte with RO bits has them as memory holds them (R10). -/
theorem keepRo_ro {s : State} {l : List (Nat × Byte)} {r : Nat × Byte} (hr : r ∈ l) {k : Nat} (hk : k < 64) (hrk : r.1 % 64 = k)
    (hl : ∀ q ∈ l, q.1 % 64 = k → q.1 = r.1) (x : BitVec 64 × BitVec 512) :
    lineByte (l.foldl (keepRo s) x).2 k &&& r.2 = byteAt s r.1 &&& r.2 := by
  refine foldl_reaches (Q := fun _ => True) (P := fun y : BitVec 64 × BitVec 512 => lineByte y.2 k &&& r.2 = byteAt s r.1 &&& r.2)
    hr (fun _ _ _ => trivial) ?_ ?_ trivial
  · intro y _
    rw [lineByte_keepRo s y r hk, if_pos hrk.symm]
    exact old_or_new_and_kept _ _ _
  · intro y q hq hy
    rw [lineByte_keepRo s y q hk]
    split
    · next h =>
      rw [hl q hq h.symm]
      exact old_or_new_and _ hy
    · exact hy

theorem clearBytes_succ (n : Nat) (x : BitVec 64 × BitVec 512) (p : Nat) : clearBytes (n + 1) x p =
    (setBit (clearBytes n x p).1 (p + n) true, setLineByte (clearBytes n x p).2 (p + n) 0) := by
  rw [clearBytes, List.range_succ, List.foldl_append]
  rfl

theorem getLsbD_clearBytes (n : Nat) (x : BitVec 64 × BitVec 512) (p : Nat) {k : Nat} (hk : k < 64) :
    (clearBytes n x p).1.getLsbD k = (decide (p ≤ k ∧ k < p + n) || x.1.getLsbD k) := by
  induction n with
  | zero => rw [decide_eq_false (by omega)]; rfl
  | succ n ih =>
    rw [clearBytes_succ, getLsbD_setBit_true _ _ hk, ih, ← Bool.or_assoc, ← Bool.decide_or]
    exact congrArg (· || _) (decide_eq_decide.mpr (by omega))

theorem lineByte_clearBytes (n : Nat) (x : BitVec 64 × BitVec 512) (p : Nat) {k : Nat} (hk : k < 64) :
    lineByte (clearBytes n x p).2 k = if p ≤ k ∧ k < p + n then 0 else lineByte x.2 k := by
  induction n with
  | zero => rw [if_neg (by omega)]; rfl
  | succ n ih =>
    rw [clearBytes_succ, lineByte_setLineByte _ _ _ hk, ih]
    by_cases h : k = p + n
    · rw [if_pos h, if_pos (by omega)]
    · rw [if_neg h]
      exact ite_congr (propext (by omega)) (fun _ => rfl) fun _ => rfl

/-- What the guard at a DEPUSE does to a byte of the line: nothing, or it is cleared with its mask bit set. -/
theorem clearDepuse_byte (s : State) (line : Nat) (x : BitVec 64 × BitVec 512) (c : Ctx) {k : Nat} (hk : k < 64) :
    (clearDepuse s line x c).1.getLsbD k = x.1.getLsbD k ∧ lineByte (clearDepuse s line x c).2 k = lineByte x.2 k ∨
    (clearDepuse s line x c).1.getLsbD k = true ∧ lineByte (clearDepuse s line x c).2 k = 0 ∧
      depuseAt s c ≤ line + k ∧ line + k < depuseAt s c + 4 := by
  unfold clearDepuse
  split
  · next h =>
    simp only [Bool.and_eq_true, beq_iff_eq, lineOf] at h
    rw [getLsbD_clearBytes 4 x _ hk, lineByte_clearBytes 4 x _ hk]
    by_cases hp : depuseAt s c % 64 ≤ k ∧ k < depuseAt s c % 64 + 4
    · exact .inr ⟨by simp [hp], by simp [hp], by omega, by omega⟩
    · exact .inl ⟨by simp [hp], by simp [hp]⟩
  · exact .inl ⟨rfl, rfl⟩

theorem clearDepuse_plain {s : State} {line k : Nat} (hk : k < 64) (h : notDepuse s (line + k)) (x : BitVec 64 × BitVec 512) :
    ((s.ctxs.filter Ctx.created).foldl (clearDepuse s line) x).1.getLsbD k = x.1.getLsbD k ∧
      lineByte ((s.ctxs.filter Ctx.created).foldl (clearDepuse s line) x).2 k = lineByte x.2 k := by
  refine List.foldlRecOn
    (motive := fun y : BitVec 64 × BitVec 512 => y.1.getLsbD k = x.1.getLsbD k ∧ lineByte y.2 k = lineByte x.2 k) _
    (clearDepuse s line) ⟨rfl, rfl⟩ fun y hy c hc => ?_
  obtain ⟨hc, hcr⟩ := List.mem_filter.mp hc
  rcases clearDepuse_byte s line y c hk with e | ⟨-, -, h1, h2⟩
  · exact ⟨e.1.trans hy.1, e.2.trans hy.2⟩
  · have : line + k < depuseAt s c ∨ depuseAt s c + 4 ≤ line + k := h c hc hcr
    omega

/-- A DEPUSE of which a byte is written is cleared (R449). -/
theorem clearDepuse_clears {s : State} {line : Nat} {c : Ctx} (hc : c ∈ s.ctxs) (hcr : c.created = true)
    (hl : lineOf (depuseAt s c) = line) {p : Nat} (hp : depuseAt s c % 64 = p) (hp4 : p + 4 ≤ 64) {x : BitVec 64 × BitVec 512}
    {i : Nat} (hi : i < 4) (hx : x.1.getLsbD (p + i) = true) {k : Nat} (hk : k < 4) :
    ((s.ctxs.filter Ctx.created).foldl (clearDepuse s line) x).1.getLsbD (p + k) = true ∧
      lineByte ((s.ctxs.filter Ctx.created).foldl (clearDepuse s line) x).2 (p + k) = 0 := by
  refine foldl_reaches (Q := fun y : BitVec 64 × BitVec 512 => y.1.getLsbD (p + i) = true)
    (P := fun y : BitVec 64 × BitVec 512 => y.1.getLsbD (p + k) = true ∧ lineByte y.2 (p + k) = 0)
    (List.mem_filter.mpr ⟨hc, hcr⟩) ?_ ?_ ?_ hx
  · intro y d hy
    rcases clearDepuse_byte s line y d (k := p + i) (by omega) with e | e
    · exact e.1.trans hy
    · exact e.1
  · intro y hy
    have : ((lineOf (depuseAt s c) == line) && (List.range 4).any fun k => y.1.getLsbD (depuseAt s c % 64 + k)) = true := by
      simp only [hl, hp, beq_self_eq_true, Bool.true_and, List.any_eq_true, List.mem_range]
      exact ⟨i, hi, hy⟩
    rw [clearDepuse, if_pos this, hp, getLsbD_clearBytes 4 _ _ (by omega), lineByte_clearBytes 4 _ _ (by omega)]
    simp [hk]
  · intro y d _ hy
    rcases clearDepuse_byte s line y d (k := p + k) (by omega) with e | ⟨h1, h2, -⟩
    · exact ⟨e.1.trans hy.1, e.2.trans hy.2⟩
    · exact ⟨h1, h2⟩

/-! ### The guard of a line -/

theorem guard_mask {s : State} {line k : Nat} (hk : k < 64) (h : notDepuse s (line + k)) (mask : BitVec 64) (data : BitVec 512) :
    (s.guard line mask data).1.getLsbD k = mask.getLsbD k := by
  rw [guard_eq, (clearDepuse_plain hk h _).1, keepRo_mask]

theorem guard_plain {s : State} {line k : Nat} (hl : line % 64 = 0) (hk : k < 64) (h : plainByte s (line + k)) (mask : BitVec 64)
    (data : BitVec 512) : lineByte (s.guard line mask data).2 k = lineByte data k := by
  obtain ⟨hro, hd⟩ := h
  rw [guard_eq, (clearDepuse_plain hk hd _).2, keepRo_plain s _ _ hk]
  intro r hr e
  obtain ⟨hr, hr'⟩ := (mem_roOf hl).mp hr
  exact hro r hr (by omega)

theorem guard_ro {s : State} {line k : Nat} (hl : line % 64 = 0) (hk : k < 64) {r : Nat × Byte} (hr : r ∈ s.roBytes)
    (e : r.1 = line + k) (h : notDepuse s (line + k)) (mask : BitVec 64) (data : BitVec 512) :
    lineByte (s.guard line mask data).2 k &&& r.2 = byteAt s (line + k) &&& r.2 := by
  rw [guard_eq, (clearDepuse_plain hk h _).2, ← e]
  refine keepRo_ro ((mem_roOf hl).mpr ⟨hr, by omega⟩) hk (by omega) (fun q hq hqk => ?_) _
  have := ((mem_roOf hl).mp hq).2
  omega

/-! ### A write of bytes within one line -/

theorem softBytes_line {s : State} {a : Nat} {bs : List Byte} (h0 : bs ≠ []) (h : a % 64 + bs.length ≤ 64) :
    s.softBytes a bs = s.softLine a bs := by
  have hd : bs.drop (64 - a % 64) = [] := List.drop_eq_nil_of_le (by omega)
  have ht : bs.take (64 - a % 64) = bs := List.take_of_length_le (by omega)
  have e : bs.isEmpty = false := List.isEmpty_eq_false_iff.mpr h0
  unfold State.softBytes
  simp only [softRun, e, hd, ht, List.isEmpty_nil, if_true, Bool.false_eq_true, if_false]

/-- A byte beside those written stays, unless it is of a DEPUSE. -/
theorem byteAt_softLine_other {s : State} (hm : Memory.wf s.mem = true) {a b : Nat} {bs : List Byte}
    (hb : b < a ∨ a + bs.length ≤ b) (hd : notDepuse s b) : byteAt (s.softLine a bs) b = byteAt s b := by
  unfold State.softLine
  by_cases hl : lineOf a ≤ b ∧ b < lineOf a + 64
  · obtain ⟨k, rfl⟩ := Nat.exists_eq_add_of_le hl.1
    have hk : k < 64 := by omega
    have hlo : a = lineOf a + a % 64 := by unfold lineOf; omega
    rw [byteAt_softWrite_line hm _ _ _ hk, guard_mask hk hd, getLsbD_byteMask _ _ hk, if_neg]
    rw [decide_eq_true_eq]
    omega
  · exact byteAt_softWrite_other hm _ _ _ (by omega)

/-- A byte that takes what is written has its new value. -/
theorem byteAt_softLine_written {s : State} (hm : Memory.wf s.mem = true) {a k : Nat} {bs : List Byte} (h : a % 64 + bs.length ≤ 64)
    (hk : k < bs.length) (hp : plainByte s (a + k)) : byteAt (s.softLine a bs) (a + k) = bs.getD k 0 := by
  have hl : lineOf a % 64 = 0 := by unfold lineOf; omega
  have hk' : a % 64 + k < 64 := by omega
  have e : a + k = lineOf a + (a % 64 + k) := by unfold lineOf; omega
  rw [e] at hp ⊢
  unfold State.softLine
  rw [byteAt_softWrite_line hm _ _ _ hk', guard_mask hk' hp.2, getLsbD_byteMask _ _ hk', guard_plain hl hk' hp,
    lineByte_lineOfBytes _ hk', if_pos (decide_eq_true (by omega)),
    List.getD_eq_getElem?_getD, List.getElem?_append_right (by rw [List.length_replicate]; exact Nat.le_add_right _ _),
    List.length_replicate, Nat.add_sub_cancel_left, ← List.getD_eq_getElem?_getD]

/-! ### Warps in their cores -/

/-- No warp has been evicted: each is in its core. -/
def AllResident (s : State) : Prop := ∀ w ∈ s.warps, w.resident = true

theorem AllResident.of_warps {s t : State} (h : AllResident s) (e : t.warps = s.warps := by rfl) : AllResident t := by
  unfold AllResident at *
  rw [e]
  exact h

theorem AllResident.map {s t : State} (h : AllResident s) (f : Warp → Warp) (hf : ∀ w, (f w).resident = w.resident)
    (e : t.warps = s.warps.map f := by rfl) : AllResident t := by
  intro w hw
  rw [e] at hw
  obtain ⟨x, hx, rfl⟩ := List.mem_map.mp hw
  exact (hf x).trans (h x hx)

theorem AllResident.modWarp {s : State} (h : AllResident s) (u n : Nat) (f : Warp → Warp) (hf : ∀ w, (f w).resident = w.resident) :
    AllResident (s.modWarp u n f) :=
  h.map (fun x => if x.uid == u && x.wid == n then f x else x) fun w => by split <;> simp only [hf]

theorem AllResident.setWarp {s : State} (h : AllResident s) {x : Warp} (hx : x.resident = true) : AllResident (s.setWarp x) := by
  intro w hw
  obtain ⟨y, hy, rfl⟩ := List.mem_map.mp hw
  split
  · exact hx
  · exact h y hy

theorem AllResident.warp? {s : State} (h : AllResident s) {u n : Nat} {w : Warp} (hw : s.warp? u n = some w) : w.resident = true :=
  h w (List.mem_of_find?_eq_some hw)

theorem AllResident.foldl {α : Type} {f : State → α → State} (hf : ∀ s x, AllResident s → AllResident (f s x)) (l : List α)
    {s : State} (h : AllResident s) : AllResident (l.foldl f s) :=
  List.foldlRecOn l f h fun s h x _ => hf s x h

theorem AllResident.modCore {s : State} (h : AllResident s) (n : Nat) (f : Core → Core) : AllResident (s.modCore n f) :=
  h.of_warps (warps_modCore _ _ _)

theorem AllResident.writeBack {s : State} (h : AllResident s) (core ctx line : Nat) : AllResident (s.writeBack core ctx line) := by
  unfold State.writeBack
  split
  · exact h
  · split
    · exact h
    · dsimp only
      refine AllResident.modCore (AllResident.of_warps ?_ (warps_forward _ _ _ _ _ _ _)) _ _
      refine AllResident.foldl (fun _ _ h => h.modWarp _ _ _ ?_) _ h.of_warps
      exact fun _ => rfl

theorem AllResident.flushWarp {s : State} (h : AllResident s) (w : Warp) : AllResident (s.flushWarp w) := by
  unfold State.flushWarp State.flushCore
  split <;> exact AllResident.foldl (fun _ _ h => h.writeBack _ _ _) _ h

theorem AllResident.retag {s : State} (h : AllResident s) (core : Nat) : AllResident (s.retag core) := by
  unfold State.retag
  dsimp only
  refine AllResident.modCore (AllResident.foldl (fun s w h => ?_) _ (h.modCore _ _)) _ _
  refine AllResident.modCore (h.modWarp _ _ _ ?_) _ _
  exact fun _ => rfl

theorem AllResident.freshTag {s : State} (h : AllResident s) (u n : Nat) : AllResident (s.freshTag u n) := by
  unfold State.freshTag
  split
  · exact h
  · dsimp only
    split
    · exact h.retag _
    · refine AllResident.modCore (h.modWarp _ _ _ ?_) _ _
      exact fun _ => rfl

theorem AllResident.bumpEpoch {s : State} (h : AllResident s) (u n : Nat) : AllResident (s.bumpEpoch u n) := by
  unfold State.bumpEpoch
  split
  · exact h
  · next w _ =>
    dsimp only
    split
    · unfold State.wrapEpoch
      exact (h.modCore w.core _).map (fun x => if x.core = w.core then { x with acqEpoch := 1 } else x) fun _ => by split <;> rfl
    · exact (h.modCore _ _).modWarp _ _ _ fun _ => rfl

theorem AllResident.acquire {s : State} (h : AllResident s) (u n : Nat) (x : Scope) (k : Nat) : AllResident (s.acquire u n x k) := by
  unfold State.acquire
  split
  · exact h
  · dsimp only
    split
    · refine AllResident.bumpEpoch (h.modWarp _ _ _ ?_) _ _
      exact fun _ => rfl
    · exact h.modWarp _ _ _ fun _ => rfl

theorem AllResident.endInterval {s : State} (h : AllResident s) (u n near : Nat) (wide : Bool) :
    AllResident (s.endInterval u n near wide) := by
  unfold State.endInterval
  split
  · exact h
  · next w0 _ =>
    dsimp only
    have hf := h.flushWarp w0
    split
    · exact hf
    · next w hw =>
      refine AllResident.freshTag (AllResident.of_warps (hf.setWarp ?_)) _ _
      exact (hf.warp? hw : w.resident = true)

theorem AllResident.releaseNow {s : State} (h : AllResident s) (u n : Nat) (x : Scope) : AllResident (s.releaseNow u n x) := by
  unfold State.releaseNow
  split
  · exact h
  · refine AllResident.endInterval (h.modWarp _ _ _ ?_) _ _ _ _
    exact fun _ => rfl

theorem AllResident.finishAcq {s : State} (h : AllResident s) (u n : Nat) (a : AcqWait) : AllResident (s.finishAcq u n a) := by
  have h1 := h.modWarp u n (fun w => { w with acq := none }) fun _ => rfl
  unfold State.finishAcq
  dsimp only
  split
  · exact h1
  split
  · exact h1.acquire _ _ _ _
  · exact (h1.acquire _ _ _ _).endInterval _ _ _ _

/-! ### What a strong access leaves alone beside the bytes that it writes -/

/-- While every warp is in its core, the change keeps all data, and evicts none. -/
def KeepsInCores (s t : State) : Prop := AllResident s → SameData false s t ∧ AllResident t

theorem KeepsInCores.refl (s : State) : KeepsInCores s s := fun h => ⟨SameData.refl _ s, h⟩

theorem KeepsInCores.trans {a b c : State} (h : KeepsInCores a b) (k : KeepsInCores b c) : KeepsInCores a c := fun ha =>
  have ⟨h1, hb⟩ := h ha
  have ⟨h2, hc⟩ := k hb
  ⟨h1.trans h2, hc⟩

theorem KeepsInCores.foldl {α : Type} {f : State → α → State} (hf : ∀ s x, KeepsInCores s (f s x)) (l : List α) (s : State) :
    KeepsInCores s (l.foldl f s) :=
  List.foldlRecOn (motive := KeepsInCores s) l f (KeepsInCores.refl s) fun _ h x _ => h.trans (hf _ x)

/-- Bookkeeping of a warp. -/
theorem KeepsInCores.touch (s : State) (u n : Nat) (f : Warp → Warp)
    (h : ∀ w, (f w).uid = w.uid ∧ (f w).wid = w.wid ∧ (f w).vregs = w.vregs ∧ (f w).sregs = w.sregs ∧ (f w).preds = w.preds ∧
      (f w).fflags = w.fflags) (hr : ∀ w, (f w).resident = w.resident) : KeepsInCores s (s.modWarp u n f) := fun hs =>
  ⟨SameData.touch s u n f h, hs.modWarp u n f hr⟩

theorem KeepsInCores.modOwed (s : State) (o : Nat) (f : Owed → Owed) : KeepsInCores s (s.modOwed o f) := fun h =>
  ⟨SameData.of_eq, h.of_warps⟩

theorem KeepsInCores.finishAcq (s : State) (u n : Nat) (a : AcqWait) : KeepsInCores s (s.finishAcq u n a) := fun h =>
  ⟨SameData.finishAcq s u n a, h.finishAcq u n a⟩

theorem KeepsInCores.wakeWhere (s : State) (u n : Nat) (p : Nat → Thread → Bool) : KeepsInCores s (s.wakeWhere u n p) := by
  intro h
  unfold State.wakeWhere
  split
  · next w b hw hb =>
    have hr := h.warp? hw
    dsimp only
    rw [if_pos hr]
    generalize hx : (if (w.modThreads _ _).outstanding = 0 then _ else _ : Warp) = x
    have e : ∃ ts, x = { w with threads := ts } := by
      rw [← hx]
      split <;> exact ⟨_, rfl⟩
    obtain ⟨ts, rfl⟩ := e
    refine ⟨SameData.setWarp _ fun y hy => ?_, h.setWarp hr⟩
    obtain ⟨hu, hn⟩ := warp?_ids hw
    have hy : s.warp? w.uid w.wid = some y := hy
    rw [hu, hn, hw] at hy
    cases hy
    exact SameRegs.refl _ w
  · exact ⟨SameData.refl _ s, h⟩

theorem KeepsInCores.resultIn (s : State) (u n : Nat) : KeepsInCores s (s.resultIn u n) := by
  have h1 : KeepsInCores s (s.modWarp u n fun w => { w with outstanding := w.outstanding - 1 }) :=
    KeepsInCores.touch s u n _ (fun _ => ⟨rfl, rfl, rfl, rfl, rfl, rfl⟩) fun _ => rfl
  unfold State.resultIn
  dsimp only
  split
  · exact h1
  split
  · exact h1.trans (KeepsInCores.wakeWhere _ _ _ _)
  · exact h1

theorem KeepsInCores.settle (s : State) (o : Nat) : KeepsInCores s (s.settle o) := by
  have h1 : KeepsInCores s (s.dropOwed o) := fun h => ⟨SameData.of_eq, h.of_warps⟩
  unfold State.settle
  split
  · exact KeepsInCores.refl s
  split
  · split
    · exact h1.trans (KeepsInCores.resultIn _ _ _)
    · exact h1
  · exact KeepsInCores.refl s

theorem KeepsInCores.releaseFirst (s : State) (r : Strong) : KeepsInCores s (s.releaseFirst r) := by
  unfold State.releaseFirst State.releaseDue
  split
  · split
    · exact KeepsInCores.refl s
    split
    · exact KeepsInCores.refl s
    · exact KeepsInCores.trans (fun h => ⟨SameData.releaseNow s _ _ _, h.releaseNow _ _ _⟩)
        (KeepsInCores.touch _ _ _ _ (fun _ => ⟨rfl, rfl, rfl, rfl, rfl, rfl⟩) fun _ => rfl)
  · exact KeepsInCores.refl s

theorem KeepsInCores.respSent (s : State) (r : Strong) : KeepsInCores s (s.respSent r) := by
  unfold State.respSent
  split
  · exact KeepsInCores.modOwed _ _ _
  · exact KeepsInCores.refl s

theorem KeepsInCores.acqLane (s : State) (u n l k : Nat) : KeepsInCores s (s.acqLane u n l k) := by
  unfold State.acqLane
  split
  · exact KeepsInCores.refl s
  split
  · exact KeepsInCores.refl s
  dsimp only
  split
  · exact KeepsInCores.finishAcq _ _ _ _
  · exact KeepsInCores.touch _ _ _ _ (fun _ => ⟨rfl, rfl, rfl, rfl, rfl, rfl⟩) fun _ => rfl

theorem KeepsInCores.metRelaxed (s : State) (u n : Nat) (met : List Rel) : KeepsInCores s (s.metRelaxed u n met) :=
  KeepsInCores.touch _ _ _ _ (fun _ => ⟨rfl, rfl, rfl, rfl, rfl, rfl⟩) fun _ => rfl

theorem KeepsInCores.strongDone (s : State) (r : Strong) (old : Nat) (met : List Rel) : KeepsInCores s (s.strongDone r old met) := by
  have hacq (y : State) (k : Nat) : KeepsInCores y (if r.acquires || r.releases then y.acqLane r.uid r.wid r.lane k
      else if r.op.reads && r.cls != 0 then y.metRelaxed r.uid r.wid met else y) := by
    split
    · exact KeepsInCores.acqLane _ _ _ _ _
    split
    · exact KeepsInCores.metRelaxed _ _ _ _
    · exact KeepsInCores.refl y
  unfold State.strongDone
  refine KeepsInCores.trans ?_ (hacq _ _)
  split
  · exact (KeepsInCores.modOwed _ _ _).trans (KeepsInCores.settle _ _)
  · exact KeepsInCores.refl s

theorem KeepsInCores.bindOutcome (s : State) (r : Strong) (old : Nat) : KeepsInCores s (s.bindOutcome r old) := by
  unfold State.bindOutcome
  split
  · split
    · exact KeepsInCores.refl s
    · refine KeepsInCores.touch _ _ _ _ (fun _ => ?_) fun _ => ?_
      · exact ⟨rfl, rfl, rfl, rfl, rfl, rfl⟩
      · rfl
  · exact KeepsInCores.refl s

theorem KeepsInCores.bindWake (s : State) (a n : Nat) : KeepsInCores s (s.bindWake a n) := by
  unfold State.bindWake
  refine KeepsInCores.foldl (fun s w => ?_) _ _
  dsimp only
  split
  · exact KeepsInCores.wakeWhere _ _ _ _
  · exact KeepsInCores.refl s

theorem softBytes_line_keeps (s : State) (a : Nat) (bs : List Byte) (h0 : bs ≠ []) (h : a % 64 + bs.length ≤ 64) :
    (s.softBytes a bs).wells = s.wells ∧ (s.softBytes a bs).wellFull = s.wellFull ∧ (s.softBytes a bs).warps = s.warps := by
  rw [softBytes_line h0 h]
  obtain ⟨b, l, r, e⟩ := softWrite_only s (lineOf a) (byteMask (a % 64) bs.length) (lineOfBytes (List.replicate (a % 64) 0 ++ bs))
  rw [State.softLine, e]
  exact ⟨rfl, rfl, rfl⟩

/-- The bytes that a strong access writes. -/
def strongBytes (s : State) (r : Strong) : List Byte := bytesOfNat r.size (strongNew r.op r.size (s.strongOld r) r.value.toNat)

/-- A strong access within a line leaves what the write of its bytes leaves, after its release: all else that it does is bookkeeping. -/
theorem strongHere_data {s : State} {r : Strong} (hs : AllResident s) (h0 : 0 < r.size) (h : r.addr % 64 + r.size ≤ 64) :
    (s.strongHere r).mem = (if strongWrites r.op r.size (s.strongOld r) then (s.releaseFirst r).softLine r.addr (strongBytes s r)
      else s.releaseFirst r).mem ∧ (s.strongHere r).wells = s.wells ∧ (s.strongHere r).wellFull = s.wellFull := by
  have hlen : (strongBytes s r).length = r.size := length_bytesOfNat _ _
  have hne : strongBytes s r ≠ [] := fun e => by
    rw [e, List.length_nil] at hlen
    omega
  have hdone (x : State) (old : Nat) (met : List Rel) : KeepsInCores x (((x.respSent r).strongDone r old met).bindOutcome r old) :=
    ((KeepsInCores.respSent _ _).trans (KeepsInCores.strongDone _ _ _ _)).trans (KeepsInCores.bindOutcome _ _ _)
  obtain ⟨⟨⟨-, hwells, hfull, -⟩, -⟩, hx⟩ := KeepsInCores.releaseFirst s r hs
  unfold State.strongHere
  dsimp only
  cases strongWrites r.op r.size (s.strongOld r) with
  | false =>
    obtain ⟨⟨⟨km, kw, kf, -⟩, -⟩, -⟩ := hdone _ (s.strongOld r) ((s.releaseFirst r).relsAt r.addr) hx
    exact ⟨km, kw.trans hwells, kf.trans hfull⟩
  | true =>
    obtain ⟨yw, yf, yr⟩ := softBytes_line_keeps (s.releaseFirst r) r.addr (strongBytes s r) hne (by omega)
    obtain ⟨⟨⟨km, kw, kf, -⟩, -⟩, -⟩ := ((hdone (((s.releaseFirst r).softBytes r.addr (strongBytes s r)).strongRels r r.addr
      ((s.releaseFirst r).relsAt r.addr)) (s.strongOld r) ((s.releaseFirst r).relsAt r.addr)).trans
        (KeepsInCores.bindWake _ r.addr r.size)) (hx.of_warps yr)
    rw [if_pos rfl, ← softBytes_line hne (by omega)]
    exact ⟨km, (kw.trans yw).trans hwells, (kf.trans yf).trans hfull⟩

theorem mem_releaseFirst {s : State} (hs : AllResident s) (r : Strong) : (s.releaseFirst r).mem = s.mem :=
  (KeepsInCores.releaseFirst s r hs).1.1.1

/-! ### The frame -/

/-- A DEPUSE of which a write of software reaches a byte reads zero (R449). -/
theorem softWrite_clears_depuse {s : State} {line : Nat} {mask : BitVec 64} (data : BitVec 512) (hm : Memory.wf s.mem = true)
    (hb : s.plat.ctxbase.toNat % 64 = 0) {c : Ctx} (hc : c ∈ s.ctxs) (hcr : c.created = true) (hl : lineOf (depuseAt s c) = line)
    (hw : ∃ k < 4, mask.getLsbD (depuseAt s c % 64 + k) = true) {k : Nat} (hk : k < 4) :
    byteAt (s.softWrite line mask data) (depuseAt s c + k) = 0 := by
  obtain ⟨i, hi, hw⟩ := hw
  have hp : depuseAt s c % 64 = 8 := by unfold depuseAt; omega
  have e : depuseAt s c + k = line + (8 + k) := by unfold lineOf at hl; omega
  rw [hp] at hw
  obtain ⟨h1, h2⟩ := clearDepuse_clears hc hcr hl hp (by omega) (x := (roOf s line).foldl (keepRo s) (mask, data)) hi
    (by rw [keepRo_mask]; exact hw) hk
  rw [e, byteAt_softWrite_line hm _ _ _ (by omega), guard_eq, if_pos h1, h2]

theorem strongHere_other {s : State} {r : Strong} (hm : Memory.wf s.mem = true) (hs : AllResident s) (h0 : 0 < r.size)
    (h : r.addr % 64 + r.size ≤ 64) {a : Nat} (ha : a < r.addr ∨ r.addr + r.size ≤ a) (hd : notDepuse (s.releaseFirst r) a) :
    byteAt (s.strongHere r) a = byteAt s a := by
  have hu := mem_releaseFirst hs r
  have e : byteAt (s.releaseFirst r) a = byteAt s a := by rw [byteAt, hu]; rfl
  rw [byteAt, (strongHere_data hs h0 h).1]
  split
  · refine Eq.trans ?_ e
    exact byteAt_softLine_other (by rw [hu]; exact hm) (by rw [strongBytes, length_bytesOfNat]; exact ha) hd
  · exact e

theorem strongHere_written {s : State} {r : Strong} (hm : Memory.wf s.mem = true) (hs : AllResident s)
    (h : r.addr % 64 + r.size ≤ 64) {k : Nat} (hk : k < r.size) (hp : plainByte (s.releaseFirst r) (r.addr + k)) :
    byteAt (s.strongHere r) (r.addr + k) =
      if strongWrites r.op r.size (s.strongOld r) then (strongBytes s r).getD k 0 else byteAt s (r.addr + k) := by
  have hu := mem_releaseFirst hs r
  have hlen : (strongBytes s r).length = r.size := length_bytesOfNat _ _
  rw [byteAt, (strongHere_data hs (by omega) h).1]
  split
  · exact byteAt_softLine_written (by rw [hu]; exact hm) (by omega) (by omega) hp
  · rw [hu]; rfl

/-- Settles O43: the guard changes only bytes with RO bits and those of a DEPUSE, and beside its own bytes a strong access changes
bookkeeping only. -/
theorem writebackFrame : Obligations.WritebackFrame := by
  unfold Obligations.WritebackFrame
  refine ⟨fun s line mask data hl hm => ⟨fun k hk hp => ?_, fun k hk x hx e hd => ?_, fun hb c hc hcr hu hw k hk => ?_,
    fun a ha => byteAt_softWrite_other hm line mask data ha, ?_⟩, fun s r hsz h hm hs => ?_⟩
  · rw [byteAt_softWrite_line hm _ _ _ hk, guard_mask hk hp.2, guard_plain hl hk hp]
  · rw [byteAt_softWrite_line hm _ _ _ hk]
    split
    · exact guard_ro hl hk hx e hd mask data
    · rfl
  · exact softWrite_clears_depuse data hm hb hc hcr hu hw hk
  · obtain ⟨b, l, r, e⟩ := softWrite_only s line mask data
    rw [e]
    exact ⟨rfl, rfl⟩
  · have h0 : 0 < r.size := by
      simp only [List.mem_cons, List.not_mem_nil, or_false] at hsz
      omega
    exact ⟨fun a ha hd => strongHere_other hm hs h0 h ha hd, fun k hk hp => strongHere_written hm hs h hk hp,
      (strongHere_data hs h0 h).2⟩

/-- Settles O2: the decoder run on each word. -/
theorem manualWordsDecode : Obligations.ManualWordsDecode := by
  unfold Obligations.ManualWordsDecode
  exact ⟨rfl, rfl, rfl, rfl, rfl⟩

end Sys2Proof

/-! PROOFS. The encoding: decoding and encoding are inverse to each other (O3, O4). What a step fetches and what the gate does with it
(O1, O5, O6, O8, O9, O10), what follows an instruction (O11), control transfers (O22), and the events at homes (O41). -/

namespace Sys2Proof

open Sys2Proof.Machine

/-! ### The opcode map and the encoder, one against the other (R83, R84) -/

/-- What an entry of the opcode map makes of a form's fields has the word that the form's encoder makes of them. -/
def Maker.Encodes (op : Nat × Nat) : Maker → Prop
  | .reg mk => ∀ f, encode (mk f) = some (encodeReg op f)
  | .movi mk => ∀ f, encode (mk f) = some (encodeMovi op f)
  | .mem mk => ∀ f, encode (mk f) = some (encodeMem op f)
  | .br mk => ∀ f, encode (mk f) = some (encodeBr op f)
  | .eng mk => ∀ f, encode (mk f) = some (encodeEng op f)

/-- Class by class and minor by minor; the variants of a minor share its opcode. -/
theorem opcodeMap_encodes {k n : Nat} {m : Maker} (h : opcodeMap k n = .ok m) : m.Encodes (k, n) := by
  unfold opcodeMap at h
  split at h
  case h_33 => cases h
  all_goals
    split at h <;> cases h <;> dsimp only [Maker.Encodes] <;> intro f
    all_goals
      repeat' split
      all_goals rfl

/-- An entry of the opcode map makes the instruction from the fields of the instruction's own form. -/
def Maker.Makes (i : Instr) : Maker → Prop
  | .reg mk => ∃ sh f, form i = .reg sh f ∧ mk f = i
  | .movi mk => ∃ f, form i = .movi f ∧ mk f = i
  | .mem mk => ∃ sh f, form i = .mem sh f ∧ mk f = i
  | .br mk => ∃ sh f, form i = .br sh f ∧ mk f = i
  | .eng mk => ∃ sh f, form i = .eng sh f ∧ mk f = i

/-- The variant of a minor that one sub code names. -/
theorem sub_of_ok {sh : Shape} {f : RegForm} (h : sh.ok f = true) {k : BitVec 3} (hk : sh.subs = [k.toNat]) : f.sub = k := by
  simp only [Shape.ok, Bool.and_eq_true, List.contains_iff_mem] at h
  obtain ⟨⟨⟨-, hsub⟩, -⟩, -⟩ := h
  rw [hk, List.mem_singleton] at hsub
  exact BitVec.eq_of_toNat_eq hsub

theorem ty_of_ok {sh : Shape} {f : RegForm} (h : sh.ok f = true) : f.ty ∈ sh.tys := by
  simp only [Shape.ok, Bool.and_eq_true, List.contains_iff_mem] at h
  obtain ⟨⟨⟨⟨-, hty⟩, -⟩, -⟩, -⟩ := h
  exact hty

theorem extra_of_ok {sh : EngShape} {f : EngForm} (h : sh.ok f = true) : sh.extra f = true := by
  simp only [EngShape.ok, Bool.and_eq_true] at h
  exact h.2

/-- The mod field tells the plain copies from the privileged ones, and the operations of `rwait` apart (R245, R257). -/
theorem mod_acopy {f : EngForm} (h : acopyOk f = true) : f.mod ≠ 4#16 ∧ f.mod ≠ 8#16 := by
  simp only [acopyOk, Bool.and_eq_true, decide_eq_true_eq] at h
  constructor <;> intro e <;> simp [e] at h

theorem mod_acopyWsl {f : EngForm} (h : acopyWslOk f = true) : f.mod = 4#16 := by
  simp only [acopyWslOk, Bool.and_eq_true, beq_iff_eq] at h
  exact BitVec.eq_of_toNat_eq h.1

theorem mod_acopySb {f : EngForm} (h : acopySbOk f = true) : f.mod = 8#16 := by
  simp only [acopySbOk, Bool.and_eq_true, beq_iff_eq] at h
  exact BitVec.eq_of_toNat_eq h.1

theorem mod_rwait {f : EngForm} {k : Nat} (h : rwaitOk k f = true) : f.mod = BitVec.ofNat 16 k := by
  simp only [rwaitOk, Bool.and_eq_true, beq_iff_eq] at h
  obtain ⟨⟨-, hmod⟩, -⟩ := h
  rw [← hmod, BitVec.ofNat_toNat, BitVec.setWidth_eq]

/-- A well-formed instruction with an opcode is made by the map's entry there: where the minor has variants, by the sub code, the
type or the mod field that its row asks for. -/
theorem opcodeMap_makes {i : Instr} {op : Nat × Nat} (hw : wellFormed i = true) (ho : opcode i = some op) :
    op.1 < 64 ∧ op.2 < 16 ∧ ∃ m, opcodeMap op.1 op.2 = .ok m ∧ m.Makes i := by
  cases i <;> cases ho <;> refine ⟨by decide, by decide, _, rfl, ?_⟩
  case movi f => exact ⟨_, rfl, rfl⟩
  case pmov f => exact ⟨_, _, rfl, by simp [sub_of_ok (k := 0) hw rfl]⟩
  case pmovPack f => exact ⟨_, _, rfl, by simp [sub_of_ok (k := 1) hw rfl]⟩
  case pmovUnpack f => exact ⟨_, _, rfl, by simp [sub_of_ok (k := 2) hw rfl]⟩
  case tmov f => exact ⟨_, _, rfl, by simp [sub_of_ok (k := 0) hw rfl]⟩
  case tmovW f => exact ⟨_, _, rfl, by simp [sub_of_ok (k := 1) hw rfl]⟩
  case tmovR f => exact ⟨_, _, rfl, by simp [sub_of_ok (k := 2) hw rfl]⟩
  case aconv f => exact ⟨_, _, rfl, if_neg fun e => by simpa [eq_of_beq e] using ty_of_ok hw⟩
  case aconvF32 f => exact ⟨_, _, rfl, by simp [List.mem_singleton.mp (ty_of_ok hw)]⟩
  case acopy f => exact ⟨_, _, rfl, by simp [mod_acopy (extra_of_ok hw)]⟩
  case acopyWsl f => exact ⟨_, _, rfl, by simp [mod_acopyWsl (extra_of_ok hw)]⟩
  case acopySb f => exact ⟨_, _, rfl, by simp [mod_acopySb (extra_of_ok hw)]⟩
  case rwait f => exact ⟨_, _, rfl, by simp [mod_rwait (extra_of_ok hw)]⟩
  case rwaitOpen f => exact ⟨_, _, rfl, by simp [mod_rwait (extra_of_ok hw)]⟩
  case rwaitClose f => exact ⟨_, _, rfl, by simp [mod_rwait (extra_of_ok hw)]⟩
  all_goals exact ⟨_, _, rfl, rfl⟩

theorem form_of_opcode_none {i : Instr} (h : opcode i = none) : form i = .event := by
  cases i <;> cases h <;> rfl

theorem encode_event {i : Instr} (h : opcode i = none) : encode i = none := by
  rw [encode, h]

/-- An instruction that an entry of the map makes has a word, which decodes to it. -/
theorem encode_decode {i : Instr} {op : Nat × Nat} (hw : wellFormed i = true) (ho : opcode i = some op) :
    ∃ w, encode i = some w ∧ decodeWord w = .ok i := by
  obtain ⟨h1, h2, m, hm, hi⟩ := opcodeMap_makes hw ho
  unfold encode
  rw [ho]
  cases m with
  | reg mk =>
    obtain ⟨sh, f, hf, e⟩ := hi
    rw [hf]
    exact ⟨_, rfl, decode_reg hm h1 h2 e hw⟩
  | movi mk =>
    obtain ⟨f, hf, e⟩ := hi
    rw [hf]
    exact ⟨_, rfl, decode_movi hm h1 h2 e hw⟩
  | mem mk =>
    obtain ⟨sh, f, hf, e⟩ := hi
    rw [hf]
    exact ⟨_, rfl, decode_mem hm h1 h2 e hw⟩
  | br mk =>
    obtain ⟨sh, f, hf, e⟩ := hi
    rw [hf]
    exact ⟨_, rfl, decode_br hm h1 h2 e hw⟩
  | eng mk =>
    obtain ⟨sh, f, hf, e⟩ := hi
    rw [hf]
    exact ⟨_, rfl, decode_eng hm h1 h2 e hw⟩

/-- Settles O3: every row of the operand table with an opcode is made by the opcode map's entry there, and every field of its word
reads back. -/
theorem decodeOfEncode : Obligations.DecodeOfEncode := by
  unfold Obligations.DecodeOfEncode
  intro i hw
  cases ho : opcode i with
  | none => exact .inr ⟨_, rfl, form_of_opcode_none ho, encode_event ho⟩
  | some op => exact .inl (encode_decode hw ho)

/-! ### Encoding what a word decodes to -/

theorem Cls.code_ofCode (n : BitVec 2) : (Cls.ofCode n).code = n := by
  revert n
  decide

theorem Width.code_of_ofCode {n : BitVec 4} {x : Width} (h : Width.ofCode n = some x) : x.code = n := by
  revert n
  cases x <;> decide

theorem Scope.code_of_ofCode {n : BitVec 3} {x : Scope} (h : Scope.ofCode n = some x) : x.code = n := by
  revert n
  cases x <;> decide

theorem Space.code_of_ofCode {n : BitVec 2} {x : Space} (h : Space.ofCode n = some x) : x.code = n := by
  revert n
  cases x <;> decide

theorem Ty.code_of_ofCode {n : BitVec 5} {x : Ty} (h : Ty.ofCode n = some x) : x.code = n := by
  revert n
  cases x <;> decide

/-- Class and minor as a word holds them (R61). -/
def wordOp (w : InstrWord) : Nat × Nat := ((w.extractLsb' 84 6).toNat, (w.extractLsb' 80 4).toNat)

/-- A form that has been read from a word encodes to the word: each of its fields is a field of the word, and what is no field is
fixed. -/
theorem encodeReg_of_readReg {w : InstrWord} {f : RegForm} (h : readReg w = .ok f) : encodeReg (wordOp w) f = w := by
  unfold readReg at h
  split at h
  · cases h
  · next ty hty =>
    cases h
    simp only [encodeReg, wordOp, commonBits_read, Cls.code_ofCode, Ty.code_of_ofCode hty]
    exact word_reg w

theorem encodeMovi_of_readMovi {w : InstrWord} {f : MoviForm} (h : readMovi w = .ok f) : encodeMovi (wordOp w) f = w := by
  unfold readMovi at h
  split at h
  · next hty =>
    split at h
    · next hsub =>
      cases h
      simp only [encodeMovi, wordOp, commonBits_read, ← hty, ← hsub, BitVec.extractLsb'_append_eq_left,
        BitVec.extractLsb'_append_eq_right]
      exact word_movi w
    · cases h
  · cases h

theorem encodeMem_of_readMem {w : InstrWord} {f : MemForm} (h : readMem w = .ok f) : encodeMem (wordOp w) f = w := by
  unfold readMem at h
  split at h
  · cases h
  next hz =>
    split at h
    · cases h
    next width hwidth =>
      split at h
      · cases h
      next scope hscope =>
        split at h
        · cases h
        next space hspace =>
          cases h
          rw [Bool.or_eq_true, not_or, Bool.not_eq_true, Bool.not_eq_true] at hz
          obtain ⟨h47, h45⟩ := hz
          have hw := word_mem w
          rw [← ofBool_wordBit w 47, ← ofBool_wordBit w 45, h47, h45] at hw
          simp only [encodeMem, wordOp, commonBits_read, ofBool_wordBit, Width.code_of_ofCode hwidth, Scope.code_of_ofCode hscope,
            Space.code_of_ofCode hspace]
          exact hw

theorem encodeBr_of_readBr {w : InstrWord} {f : BrForm} (h : readBr w = .ok f) : encodeBr (wordOp w) f = w := by
  unfold readBr at h
  split at h
  · next hhigh =>
    split at h
    · next hlow =>
      cases h
      simp only [encodeBr, wordOp, commonBits_read, ofBool_wordBit, ← hhigh, ← hlow]
      exact word_br w
    · cases h
  · cases h

theorem encodeEng_readEng (w : InstrWord) : encodeEng (wordOp w) (readEng w) = w := by
  simp only [encodeEng, wordOp, readEng, commonBits_read]
  exact word_eng w

theorem map_eq_ok {α β : Type} {x : Except Reject α} {g : α → β} {b : β} (h : x.map g = .ok b) : ∃ a, x = .ok a ∧ g a = b := by
  cases x with
  | error r => cases h
  | ok a => exact ⟨a, rfl, Except.ok.inj h⟩

/-- An instruction that an entry of the map builds from a word has that word. -/
theorem encode_of_build {w : InstrWord} {m : Maker} {i : Instr} (hm : m.Encodes (wordOp w)) (hb : m.build w = .ok i) :
    encode i = some w := by
  cases m with
  | reg mk =>
    obtain ⟨f, hf, rfl⟩ := map_eq_ok hb
    exact (hm f).trans (congrArg some (encodeReg_of_readReg hf))
  | movi mk =>
    obtain ⟨f, hf, rfl⟩ := map_eq_ok hb
    exact (hm f).trans (congrArg some (encodeMovi_of_readMovi hf))
  | mem mk =>
    obtain ⟨f, hf, rfl⟩ := map_eq_ok hb
    exact (hm f).trans (congrArg some (encodeMem_of_readMem hf))
  | br mk =>
    obtain ⟨f, hf, rfl⟩ := map_eq_ok hb
    exact (hm f).trans (congrArg some (encodeBr_of_readBr hf))
  | eng mk =>
    cases hb
    exact (hm _).trans (congrArg some (encodeEng_readEng w))

/-- Settles O4: the opcode map's entry gives the encoder, and what was read from the word encodes to it. -/
theorem encodeOfDecode : Obligations.EncodeOfDecode := by
  unfold Obligations.EncodeOfDecode
  intro w i h
  unfold decodeWord at h
  split at h
  · cases h
  next m hm =>
    split at h
    · cases h
    next j hj =>
      unfold accept at h
      split at h
      · next hw =>
        cases h
        exact ⟨encode_of_build (opcodeMap_encodes hm) hj, hw⟩
      · cases h

/-! ### Fetching from the line that the warp holds (R53 to R58) -/

/-- The issuing warp holds the line of its bundle's PC, fetched without a fault. -/
structure HoldsLine (s : State) (n : Issue) (w : Warp) (x : Bundle) (b : LineBuf) : Prop where
  issue : s.issue = some n
  warp : s.warp? n.uid n.wid = some w
  bundle : w.bundle = some x
  line : w.line = some b
  here : b.line = lineOf x.pc.toNat
  good : b.st = .good

/-- The line also passes R57, and its slot at the PC may issue (R54, R58). -/
structure HoldsSlot (s : State) (n : Issue) (w : Warp) (x : Bundle) (b : LineBuf) : Prop extends HoldsLine s n w x b where
  lineOk : lineWordBad (lineWord b.data) = false
  slot : isSlot x.pc.toNat = true
  target : landing w x = true → lwTarget (lineWord b.data) (slotOf x.pc) = true

section

variable {s : State} {n : Issue} {w : Warp} {x : Bundle} {b : LineBuf}

theorem fetchNow_badLine (h : HoldsLine s n w x b) (hb : lineWordBad (lineWord b.data) = true) :
    fetchNow s = .out (s.fetchFault w x FaultCode.illegal.code 0 0 0) := by
  obtain ⟨hi, hw, hx, hl, hh, hg⟩ := h
  simp [fetchNow, hi, hw, hx, hl, hh, hg, hb]

theorem HoldsSlot.noTargetFault (h : HoldsSlot s n w x b) :
    (!isSlot x.pc.toNat || (landing w x && !lwTarget (lineWord b.data) (slotOf x.pc))) = false := by
  cases hland : landing w x
  · simp [h.slot]
  · simp [h.slot, h.target hland]

theorem fetchNow_instr (h : HoldsSlot s n w x b) {i : Instr} (hd : decodeWord (slotWord b.data (slotOf x.pc)) = .ok i) :
    fetchNow s = .instr i := by
  have ht := h.noTargetFault
  obtain ⟨⟨hi, hw, hx, hl, hh, hg⟩, hok, -, -⟩ := h
  simp [fetchNow, hi, hw, hx, hl, hh, hg, hok, ht, hd]

/-- A region that begins does not wait when its mark checks are in (R59). -/
theorem boundary_passed {c : Ic} (hk : c.beginners ≠ 0 → s.checksIn c.w = true) :
    (c.beginners != 0 && !s.checksIn c.w) = false := by
  by_cases h0 : c.beginners = 0
  · simp [h0]
  · simp [hk h0]

/-- A reserved encoding: with no active lane it is passed over, otherwise it faults (R62, R80). -/
theorem fetchNow_reserved (h : HoldsSlot s n w x b) {r : Reject} {c : Ic}
    (hd : decodeWord (slotWord b.data (slotOf x.pc)) = .error r)
    (hc : s.issueCtx (readCommon (slotWord b.data (slotOf x.pc))) = some c) (hk : c.beginners ≠ 0 → s.checksIn c.w = true) :
    fetchNow s = .out (if c.active = 0 then
        ((s.setWarp c.begun.w).setWarp (enteredWarp s c)).retire c.begun
          (.nop (bareForm (readCommon (slotWord b.data (slotOf x.pc))))) fun _ p => p
      else (s.setWarp c.begun.w).issued.takeFault c.begun.w (c.begun.record .illegal c.begun.lane0)) := by
  have ht := h.noTargetFault
  have hb := boundary_passed hk
  obtain ⟨⟨hi, hw, hx, hl, hh, hg⟩, hok, -, -⟩ := h
  simp only [fetchNow, hi, hw, hx, hl, hh, hg, hok, ht, hd, hc, hb, ne_eq, not_true_eq_false, Bool.false_eq_true, if_false]
  by_cases ha : c.active = 0
  · rw [if_pos ha]
    exact if_pos ha
  · rw [if_neg ha]
    exact if_neg ha

/-! ### A step of an issuing warp -/

theorem step_out {t : State} (hi : s.issue = some n) (hf : fetchNow s = .out t) : step s = s.outcome (.next t) := by
  rw [step, hf, hi]
  rfl

theorem step_instr {i : Instr} (hi : s.issue = some n) (hf : fetchNow s = .instr i) : step s = s.outcome (exec i s) := by
  rw [step, hf, hi]
  rfl

/-- The outcome of the issue of a chosen warp is what the issue gives. -/
theorem outcome_chosen (hi : s.issue = some n) (hp : n.probe = false) (o : Out) : s.outcome o = o := by
  cases o with
  | next t => simp [State.outcome, hi, hp]
  | fault _ => rfl
  | refused _ => rfl

theorem outcome_probe (hi : s.issue = some n) (hp : n.probe = true) (t : State) : s.outcome (.next t) = .next (s.tried t) := by
  simp [State.outcome, hi, hp]

end

/-- Settles O1: the fetch of a good line's slot, and the branches of `step`. -/
theorem stepRunsTheDecodedInstruction : Obligations.StepRunsTheDecodedInstruction := by
  unfold Obligations.StepRunsTheDecodedInstruction
  refine ⟨fun s n w x b i hi hw hx hl hh hg hok hs ht hd => ?_, fun s x rest hi hs => ?_, fun s i hi hs ha => ?_, fun s hi hs ha => ?_⟩
  · have hstep := step_instr hi (fetchNow_instr ⟨⟨hi, hw, hx, hl, hh, hg⟩, hok, hs, ht⟩ hd)
    exact ⟨fun hp => by rw [hstep, outcome_chosen hi hp], fun hp t he => by rw [hstep, he, outcome_probe hi hp]⟩
  · simp [step, hi, hs]
  · simp [step, hi, hs, ha]
  · simp [step, hi, hs, ha]

/-- A line word is refused for its reserved bits and for a region bit without its target bit (R57). -/
theorem lineWordBad_of {lw : BitVec 32} (h : lw.extractLsb' 21 11 ≠ 0 ∨ lw.getLsbD 15 = true ∨
    ∃ k < 5, lw.getLsbD (16 + k) = true ∧ lw.getLsbD k = false) : lineWordBad lw = true := by
  rw [lineWordBad, Bool.or_eq_true, Bool.or_eq_true, bne_iff_ne, List.any_eq_true, or_assoc]
  refine h.imp_right (Or.imp_right ?_)
  rintro ⟨k, hk, hr, ht⟩
  exact ⟨k, List.mem_range.mpr hk, by simp [lwRegion, lwTarget, hr, ht]⟩

/-- Settles O5: the fetch refuses the line before the guards are read. -/
theorem badLineWordIsIllegal : Obligations.BadLineWordIsIllegal := by
  unfold Obligations.BadLineWordIsIllegal
  intro s n w x b hi hw hx hl hh hg hbad hp
  have hf := fetchNow_badLine ⟨hi, hw, hx, hl, hh, hg⟩ (lineWordBad_of hbad)
  exact ⟨_, rfl, rfl, rfl, (step_out hi hf).trans (outcome_chosen hi hp _)⟩

/-- The PC of an issue is its bundle's. -/
theorem issueCtx_pc {s : State} {k : Common} {c : Ic} {n : Issue} {w : Warp} {x : Bundle} (h : s.issueCtx k = some c)
    (hi : s.issue = some n) (hw : s.warp? n.uid n.wid = some w) (hx : w.bundle = some x) : c.pc = x.pc := by
  unfold State.issueCtx at h
  cases hb : s.block? n.uid <;> simp [hi, hw, hx, hb] at h
  rw [← h]

/-- Settles O6: the fetch reads the word's guard before it refuses the word. -/
theorem undecodableSlotIsIllegal : Obligations.UndecodableSlotIsIllegal := by
  unfold Obligations.UndecodableSlotIsIllegal
  intro s n w x b c hi hp hw hx hl hh hg hok hs ht hd hc hk
  obtain ⟨r, hr⟩ : ∃ r, decodeWord (slotWord b.data (slotOf x.pc)) = .error r := by
    cases h : decodeWord (slotWord b.data (slotOf x.pc)) with
    | ok i => exact absurd h (hd i)
    | error r => exact ⟨r, rfl⟩
  have hstep := (step_out hi (fetchNow_reserved ⟨⟨hi, hw, hx, hl, hh, hg⟩, hok, hs, ht⟩ hr hc hk)).trans (outcome_chosen hi hp _)
  constructor
  · intro ha
    rw [hstep, if_neg ha]
    exact ⟨_, rfl, issueCtx_pc hc hi hw hx, rfl⟩
  · intro ha
    rw [hstep, if_pos ha]
    exact ⟨_, rfl⟩

/-! ### The gate (R62, R80 to R82) -/

section

variable {i : Instr} {s : State} {c : Ic}

/-- An instruction that the gate keeps from its meaning leaves what the gate says. -/
theorem exec_of_gate_out {t : State} (hf : form i ≠ .event) (hg : gate i s = some (.out t)) : exec i s = .next t := by
  obtain ⟨body, he⟩ := exec_is_run i hf
  rw [he, run, hg]

/-- No acquire waits, and a region that begins has its mark checks in: the gate goes on to the guard. -/
theorem gate_guard (hc : s.issueCtx (common i) = some c) (hq : c.w.acq = none) (hk : c.beginners ≠ 0 → s.checksIn c.w = true) :
    (c.active = 0 → gate i s = some (.out (((s.setWarp c.begun.w).setWarp (enteredWarp s c)).retire c.begun i fun _ n => n))) ∧
    (c.active ≠ 0 → ∀ r, badIssue i (s.setWarp c.begun.w) c.begun = some r →
      gate i s = some (.out ((s.setWarp c.begun.w).issued.takeFault c.begun.w r))) := by
  have hb := boundary_passed hk
  rw [gate_eq hc, hq, hb]
  exact ⟨fun ha => if_pos ha, fun ha r hr => by rw [hr]; exact if_neg ha⟩

end

/-- Settles O8: R81 is the first of the gate's own checks. -/
theorem privilegedInstructionsFault : Obligations.PrivilegedInstructionsFault := by
  unfold Obligations.PrivilegedInstructionsFault
  intro i s c hi hc ha hq hk hu
  have ⟨hpriv, hform⟩ : isPrivileged i = true ∧ form i ≠ .event := by
    split at hi
    case h_11 => exact hi.elim
    all_goals exact ⟨rfl, nofun⟩
  refine exec_of_gate_out hform ((gate_guard hc hq hk).2 ha _ ?_)
  simp [badIssue, hpriv, hu]

/-- Settles O9: the guard comes before every check of the instruction. -/
theorem noActiveLaneDoesNothing : Obligations.NoActiveLaneDoesNothing := by
  unfold Obligations.NoActiveLaneDoesNothing
  exact fun i s c hform hc ha hq hk => exec_of_gate_out hform ((gate_guard hc hq hk).1 ha)

/-- Settles O10: the gate changes the issuing warp's bookkeeping and the tokens that it consumes. -/
theorem enteringChangesNoStorage : Obligations.EnteringChangesNoStorage := by
  unfold Obligations.EnteringChangesNoStorage
  intro i s c h
  obtain ⟨hu, hn, hw⟩ := entered_warp (i := i) h.ctx
  exact ⟨SameData.entered h.ctx, hw, hu, hn, rfl, rfl, rfl, rfl⟩

/-! ### What follows an instruction (R54, R64, R352, R353) -/

/-- The PC after slots 0 to 3, and after slot 4. -/
theorem nextPc_slot (line : Nat) {k : Nat} (hk : k < 4) :
    nextPc (BitVec.ofNat 55 (64 * line + 12 * k)) = BitVec.ofNat 55 (64 * line + 12 * (k + 1)) := by
  unfold nextPc
  rw [if_neg (by rw [BitVec.toNat_ofNat]; omega)]
  exact (BitVec.ofNat_add _ 12).symm.trans (congrArg _ (by omega))

theorem nextPc_lastSlot (line : Nat) :
    nextPc (BitVec.ofNat 55 (64 * line + 48)) = BitVec.ofNat 55 (64 * (line + 1)) := by
  unfold nextPc
  rw [if_pos (by rw [BitVec.toNat_ofNat]; omega)]
  exact (BitVec.ofNat_add _ 16).symm.trans (congrArg _ (by omega))

/-- Where the threads of the bundle stand after the instruction. -/
theorem retire_thread {s : State} {c : Ic} {w : Warp} (i : Instr) (p : Nat → Pc → Pc) (h : s.warp? c.w.uid c.w.wid = some w)
    {l : Nat} (hl : l < w.threads.length) (hm : c.bundle.getLsbD l = true) :
    ∃ w', (s.retire c i p).warp? c.w.uid c.w.wid = some w' ∧
      (w'.thread l).pc = (if c.active.getLsbD l then p l (nextPc c.pc) else nextPc c.pc) ∧ (w'.thread l).age = 0 := by
  obtain ⟨hu, hn⟩ := warp?_ids h
  unfold State.retire
  rw [h]
  dsimp only
  rw [warp?_issued, warp?_setWarp, h]
  simp only [Option.map_some, BEq.rfl, Bool.and_self, if_true]
  refine ⟨_, rfl, ?_⟩
  simp only [Warp.thread, List.getD_eq_getElem?_getD, List.getElem?_mapIdx, List.getElem?_eq_getElem hl, Option.map_some,
    Option.getD_some, hm, if_true]
  split
  · exact ⟨rfl, rfl⟩
  split
  · split <;> exact ⟨rfl, rfl⟩
  · exact ⟨rfl, rfl⟩
  · exact ⟨rfl, rfl⟩

theorem retire_owed (s : State) (c : Ic) (i : Instr) (p : Nat → Pc → Pc) : (s.retire c i p).owed = s.owed := by
  unfold State.retire
  split <;> rfl

theorem retire_issue (s : State) (c : Ic) (i : Instr) (p : Nat → Pc → Pc) : (s.retire c i p).issue = none := by
  unfold State.retire
  split <;> rfl

/-- Settles O11: the arithmetic of slots, then the threads that the end of an instruction leaves. -/
theorem sequenceAdvancesThePc : Obligations.SequenceAdvancesThePc := by
  unfold Obligations.SequenceAdvancesThePc
  refine ⟨fun line _ => ⟨fun k hk => nextPc_slot line hk, nextPc_lastSlot line⟩, fun s c i w l hw hl hm => ?_,
    fun s c i p => ⟨SameData.retire s c i p, retire_owed s c i p, retire_issue s c i p⟩⟩
  obtain ⟨w', h', hpc, hage⟩ := retire_thread i (fun _ n => n) hw hl hm
  exact ⟨w', h', hpc.trans (ite_self _), hage⟩

/-! ### Control transfers (R58, R174, R175) -/

/-- Every landing line is in and lets its target through; with `.uni` the targets agree. -/
def landsAll (f : BrForm) (tgt : Ic → Nat → BitVec 64) (c : Ic) (s : State) : Bool :=
  let ts := (lanesOf c.active).map fun l => (l, tgt c l)
  let bs := (s.landings c.w ts).1
  (!f.uni || ts.all fun x => x.2 == tgt c c.lane0) && bs.length == ts.length
    && bs.all fun x => x.2.2.st == .good && landsOn x.2.2 x.2.1.toNat

/-- The state when the lines are in and the link pairs written. -/
def linked (f : BrForm) (link : Bool) (tgt : Ic → Nat → BitVec 64) (c : Ic) (s : State) : State :=
  let ts := (lanesOf c.active).map fun l => (l, tgt c l)
  ((s.landings c.w ts).2).modWarp c.w.uid c.w.wid fun w =>
    if link then w.puts (ts.flatMap fun x => vecWrite f.link.toNat x.1 true (nextPc c.pc).toNat) else w

theorem fault_of_good {b : LineBuf} (h : b.st = .good) : b.fault = none := by
  rw [LineBuf.fault, h]

/-- A transfer sends its active lanes to their targets. -/
theorem transfer_leaves {i : Instr} {f : BrForm} {link : Bool} {tgt : Ic → Nat → BitVec 64}
    (he : ∀ s, exec i s = transfer i f s link tgt) :
    Leaves i (landsAll f tgt) fun c s => (linked f link tgt c s).retire c i fun l _ => (tgt c l).setWidth 55 := by
  refine leaves_of_done (fun c _ l _ => (tgt c l).setWidth 55) _ he fun c s hok => ?_
  simp only [landsAll, Bool.and_eq_true, Bool.or_eq_true, Bool.not_eq_true', beq_iff_eq, List.all_eq_true] at hok
  obtain ⟨⟨huni, hlen⟩, hall⟩ := hok
  unfold linked
  generalize (lanesOf c.active).map (fun l => (l, tgt c l)) = ts at *
  have h1 : (f.uni && ts.any fun x => x.2 != tgt c c.lane0) = false := by
    rcases huni with h | h
    · simp [h]
    · simpa using fun _ => h
  have h2 : (s.landings c.w ts).1.find? (fun x => x.2.2.fault.isSome) = none :=
    List.find?_eq_none.mpr fun x hx => by simp [fault_of_good (hall x hx).1]
  have h3 : (s.landings c.w ts).1.find? (fun x => x.2.2.st == .wanted) = none :=
    List.find?_eq_none.mpr fun x hx => by simp [(hall x hx).1]
  have h4 : (decide ((s.landings c.w ts).1.length < ts.length)
      || (s.landings c.w ts).1.any fun x => !landsOn x.2.2 x.2.1.toNat) = false := by
    simpa [hlen] using fun a b d hx => (hall (a, b, d) hx).2
  simp only [h1, h2, h3, h4, Bool.false_eq_true, if_false]

/-- Settles O22: all five are the one transfer, each with its target and link. -/
theorem controlTransfers : Obligations.ControlTransfers := by
  unfold Obligations.ControlTransfers
  intro f
  exact ⟨transfer_leaves fun _ => rfl, transfer_leaves fun _ => rfl, transfer_leaves fun _ => rfl, transfer_leaves fun _ => rfl,
    transfer_leaves fun _ => rfl⟩

/-! ### Events at homes and at the well switch (R59, R227, R317, R382, R404, R417) -/

/-- Settles O41: each event finds its message and passes its conditions, after which its meaning is the state named. -/
theorem homeEvents : Obligations.HomeEvents := by
  unfold Obligations.HomeEvents
  refine ⟨fun s s1 n core m a hm hk hl hr h1 => happens_of rfl ?check, fun s n uid wid k core loc line m hm hk hr => happens_of rfl ?ack,
    fun s s1 n m f hm hk hl hr h1 e => happens_of rfl ?fill, fun s t n e m r hm hk ht => happens_of rfl ?strong,
    fun s n e m r hm hk hc hr => happens_of rfl ?well, fun s n ctx va loc dev die m hm hk => happens_of rfl ?forward,
    fun s n m f hm hk hlate hr => happens_of rfl ?l1Fill⟩
  case check =>
    simp only [hm, hk, hl, hr, h1, Bool.not_true, Bool.or_self, Bool.false_eq_true, if_false, Option.map_some] <;> rfl
  case ack => simp only [hm, hk, hr, Bool.not_true, Bool.false_eq_true, if_false]
  case fill => simp only [hm, hk, hl, hr, Bool.and_self, if_true, State.fillServe, h1, Option.map_some]
  case strong => simp only [hm, hk, ht]
  case well => simp only [hm, hk, hc, hr, Bool.not_true, Bool.or_self, Bool.false_eq_true, if_false]
  case forward => simp only [hm, hk]
  case l1Fill =>
    simp only [hm, hk, hr, Bool.not_true, Bool.or_false]
    -- no earlier fill of the line is on its way (R383)
    refine if_neg fun hany => ?_
    obtain ⟨x, hx, hfill⟩ := List.any_eq_true.mp hany
    split at hfill
    · next g hg => simp [hlate x hx g (.inl hg)] at hfill
    · next g hg => simp [hlate x hx g (.inr hg)] at hfill
    · cases hfill

end Sys2Proof

/-! PROOFS. What the instructions that only compute on registers owe: bits and residues (O19), floating point and conversions
(O21). Each is issued as a computation (`computes_of`, Laws/Issue.lean), of the value that its statement gives for a lane. -/

namespace Sys2Proof

open Sys2Proof.Machine Sys2Proof.Claims

/-! ### Bits and residues (R110 to R114, R148, R149, R170) -/

theorem bitResults : BitResults := by
  intro f
  refine ⟨?and, ?or, ?xor, ?not, ?shl, ?shr, ?sar, ?rot, ?clz, ?popc, ?brev, ?bfe, ?bfi⟩
  case and | or | xor | not | brev => exact computes_of fun _ => rfl
  -- the count is a 32-bit operand, taken whole
  case shl | shr | sar | rot => exact computes_of fun _ => rfl
  -- one register, whatever the type (R147)
  case clz | popc => exact computes_of fun _ => rfl
  -- the control word is a 32-bit operand: B of `bfe`, C of `bfi` (R149)
  case bfe | bfi => exact computes_of fun _ => rfl

theorem residueResults : ResidueResults := by
  intro f
  refine ⟨?fwd, ?add, ?sub, ?mul, ?rev⟩
  -- channel by channel (R114)
  case add | sub | mul => exact computes_of fun _ => rfl
  -- between a signed integer and its triple (R112, R113)
  case fwd | rev => exact computes_of fun _ => rfl

/-- Settles O19: every instruction of both classes computes in its lanes and goes on. -/
theorem bitAndResidueInstructions : Obligations.BitAndResidueInstructions := by
  unfold Obligations.BitAndResidueInstructions
  exact ⟨bitResults, residueResults⟩

/-! ### Floating point and conversions (R94 to R104, R160 to R169) -/

theorem floatResults : FloatResults := by
  intro f
  refine ⟨?add, ?sub, ?mul, ?fma, ?min, ?max, ?abs, ?neg, ?classes, ?rnd, ?rcp, ?sqrt, ?rsq, ?exp2, ?log2⟩
  -- these round in the mode that sub names (R96)
  case add | sub | mul | fma | rnd => exact computes_of fun _ => rfl
  -- these round to nearest even (R165)
  case rcp | sqrt | rsq | exp2 | log2 => exact computes_of fun _ => rfl
  -- the first two deliver an operand or the canonical NaN (R161), the others act on the sign bit alone (R162)
  case min | max | abs | neg => exact computes_of fun _ => rfl
  -- the class mask is one register and raises no flag (R163)
  case classes => exact computes_of fun _ => rfl

theorem conversionResults : ConversionResults := by
  intro f
  refine ⟨?cvt, ?pack, ?unpack⟩
  -- a source of the type whose code the C field holds, a result of the instruction's own (R166, R167)
  case cvt => exact computes_of fun _ => rfl
  -- packed elements round and raise flags, integer halves saturate and raise none (R168, R169)
  case pack | unpack => exact computes_of fun _ => rfl

/-- Settles O21: every instruction of the three classes computes in its lanes, with its flags, and goes on. -/
theorem floatInstructions : Obligations.FloatInstructions := by
  unfold Obligations.FloatInstructions
  exact ⟨floatResults, conversionResults⟩

end Sys2Proof

/-! PROOFS. What the integer, carry, address and move instructions (O18) and the predicate and lane instructions (O20) owe. Those
that only compute on registers are issued as computations (`computes_of`, Laws/Issue.lean); `shfl`, whose operand may be a result in
flight, and `vote.agree`, which counts a use of its legacy form, change the state besides (`performs_of`). -/

namespace Sys2Proof

open Sys2Proof.Machine Sys2Proof.Claims

/-! ### Integers, carries, addresses and moves (R143 to R146) -/

theorem integerResults : IntegerResults := by
  intro f
  refine ⟨?add, ?sub, ?mul, ?mulhi, ?mad, ?min, ?max, ?abs, ?neg⟩
  -- sub 1 asks for saturation before the one narrowing (R143)
  case add | sub | mul | mad | abs | neg => exact computes_of fun _ => rfl
  -- these only wrap: a high half and a chosen operand are always in range
  case mulhi | min | max => exact computes_of fun _ => rfl

theorem carryAddressAndMoveResults : CarryAddressAndMoveResults := by
  intro f m
  refine ⟨?addc, ?lea, ?mov, ?movi, ?sel⟩
  -- the carry comes in and goes out through the predicate that E names (R144)
  case addc => exact computes_of fun _ => rfl
  -- a pair whatever the type of the index (R145)
  case lea => exact computes_of fun _ => rfl
  case mov | movi | sel => exact computes_of fun _ => rfl

/-- Settles O18: every instruction of the class computes in its lanes and goes on. -/
theorem integerInstructions : Obligations.IntegerInstructions := by
  unfold Obligations.IntegerInstructions
  exact ⟨integerResults, carryAddressAndMoveResults⟩

/-! ### Comparisons and predicates (R151 to R153) -/

theorem predicateResults : PredicateResults := by
  intro f
  refine ⟨?cmp, ?fcmp, ?and, ?or, ?xor, ?not, ?mov, ?pack, ?unpack⟩
  -- a comparison gives a predicate bit, that of floats also nv (R151, R152)
  case cmp | fcmp => exact computes_of fun _ => rfl
  -- sub inverts each operand and the result (R153); for `pnot` and `pmov` it is zero (R150)
  case and | or | xor | not | mov => exact computes_of fun _ => rfl
  -- between a whole predicate and a register of its 32 bits (R153)
  case pack | unpack => exact computes_of fun _ => rfl

/-! ### Lane operations (R155 to R158, R206, R207) -/

/-- What is owed rests on the working lanes alone. -/
theorem owed_congr {c : Ic} {s : State} {uniform fp : Bool} {f g : Nat → LaneOut}
    (h : ∀ l ∈ workLanes uniform c.active, f l = g l) : owed c s uniform fp f = owed c s uniform fp g := by
  simp only [owed, List.map_congr_left h]

/-- With no result in flight on the element, `shfl` reads the registers as they stand (R155). -/
theorem laneWarp_of_inFlight_nil {s : State} {c : Ic} {f : RegForm} {k : Nat} (h : s.inFlight c f k = []) (l : Nat) :
    s.laneWarp c f k l = c.w := by
  simp [State.laneWarp, h, Nat.mod_one]

theorem shflOut_of_inFlight_nil {s : State} {c : Ic} {f : RegForm} {l : Nat} (h : s.inFlight c f (shflLane c f l) = []) :
    s.shflOut c f l = putD f l (bitsA f c (shflLane c f l)) := by
  simp only [State.shflOut, laneWarp_of_inFlight_nil h, bitsA]

theorem laneResults : LaneResults := by
  intro f
  refine ⟨?settled, ?shfl, ?vote, ?redux, ?same, ?scan, ?agree⟩
  -- no lane's element has a result in flight, so every lane finds it as it stands
  case settled =>
    refine performs_of _ (fun _ => rfl) fun c s hnone => congrArg Res.next (owed_congr fun l hl => ?_)
    exact shflOut_of_inFlight_nil (List.isEmpty_iff.mp (List.all_eq_true.mp hnone l hl))
  -- a lane that reads an inactive one may find a result in flight written (R155)
  case shfl => exact performs_of _ (fun _ => rfl) fun _ _ _ => rfl
  -- over the active lanes (R157, R158)
  case vote | redux | same | scan => exact computes_of fun _ => rfl
  -- `vote.same`, and its use counted on the context (R206, R207)
  case agree => exact performs_of _ (fun _ => rfl) fun _ _ _ => rfl

/-- Settles O20: every instruction of the classes owes its lanes' results and goes on. -/
theorem predicateAndLaneInstructions : Obligations.PredicateAndLaneInstructions := by
  unfold Obligations.PredicateAndLaneInstructions
  exact ⟨predicateResults, laneResults⟩

end Sys2Proof

/-! PROOFS. What waking a faulted warp leaves of its threads (O14), and what a trap does (O23): the rules of a change of threads, of a
wake and of taking a fault, and then both statements. -/

namespace Sys2Proof

open Sys2Proof.Machine

/-! ### A change of a warp and of its threads -/

theorem warp?_modWarp_at {s : State} {u n : Nat} {w : Warp} {f : Warp → Warp} (h : s.warp? u n = some w)
    (hf : ∀ w, (f w).uid = w.uid ∧ (f w).wid = w.wid) : (s.modWarp u n f).warp? u n = some (f w) := by
  obtain ⟨hu, hn⟩ := warp?_ids h
  rw [warp?_modWarp hf, h, Option.map_some, if_pos (by simp [hu, hn])]

/-- The lanes of the mask of a list. -/
theorem getLsbD_maskOf (ls : List Nat) {l : Nat} (hl : l < 32) : (maskOf ls).getLsbD l = decide (l ∈ ls) := by
  have h (m : LaneMask) : (ls.foldl (fun m k => setBit m k true) m).getLsbD l = (m.getLsbD l || decide (l ∈ ls)) := by
    induction ls generalizing m with
    | nil => simp
    | cons k ls ih =>
      rw [List.foldl_cons, ih, getLsbD_setBit_true _ _ hl, Bool.or_comm (decide _), Bool.or_assoc, ← Bool.decide_or]
      simp only [List.mem_cons]
  exact (h 0).trans (by simp)

theorem thread_modThreads {w : Warp} {l : Nat} (hl : l < w.threads.length) (m : LaneMask) (f : Nat → Thread → Thread) :
    (w.modThreads m f).thread l = if m.getLsbD l then f l (w.thread l) else w.thread l := by
  simp only [Warp.thread, Warp.modThreads_threads, List.getD_eq_getElem?_getD, List.getElem?_mapIdx, List.getElem?_eq_getElem hl,
    Option.map_some, Option.getD_some]

theorem length_modThreads (w : Warp) (m : LaneMask) (f : Nat → Thread → Thread) :
    (w.modThreads m f).threads.length = w.threads.length := List.length_mapIdx

/-! ### Waking threads (R64, R183) -/

/-- The warp after the wake of the threads that pass a test: a switch marker that was due parks a thread while results are out. -/
def woken (p : Nat → Thread → Bool) (w : Warp) : Warp :=
  let m := maskOf (lanes.filter fun l => p l (w.thread l))
  let w := w.modThreads m fun _ t => { t with st := if t.marker then .parked .marker else .ready, marker := false, bind := none }
  if w.outstanding = 0 then w.modThreads m fun _ t => { t with st := .ready } else w

/-- A thread that a wake reaches. -/
def wokenThread (out : Nat) (t : Thread) : Thread :=
  { t with st := if t.marker ∧ out ≠ 0 then .parked .marker else .ready, marker := false, bind := none }

theorem thread_woken {w : Warp} {l : Nat} (p : Nat → Thread → Bool) (hl : l < w.threads.length) :
    (woken p w).thread l = if l < 32 ∧ p l (w.thread l) then wokenThread w.outstanding (w.thread l) else w.thread l := by
  have hm : (maskOf (lanes.filter fun k => p k (w.thread k))).getLsbD l = decide (l < 32 ∧ p l (w.thread l)) := by
    by_cases h32 : l < 32
    · rw [getLsbD_maskOf _ h32, lanes]
      simp [h32]
    · rw [BitVec.getLsbD_of_ge _ _ (by omega)]
      simp [h32]
  unfold woken
  dsimp only
  rw [Warp.modThreads_outstanding]
  by_cases hp : l < 32 ∧ p l (w.thread l)
  · split <;> simp [thread_modThreads, wokenThread, *]
  · split <;> simp [thread_modThreads, hl, hm, hp]

@[simp] theorem warps_saveWake (s : State) (b : Block) (n l : Nat) : (s.saveWake b n l).warps = s.warps := by
  unfold State.saveWake State.saveMod
  split <;> rfl

/-- A wake changes the warp in the core, and for a warp that is off it the save area besides. -/
theorem warp?_wakeWhere {s : State} {u n : Nat} {w : Warp} {b : Block} (hw : s.warp? u n = some w) (hb : s.block? u = some b)
    (p : Nat → Thread → Bool) : (s.wakeWhere u n p).warp? u n = some (woken p w) := by
  obtain ⟨hu, hn⟩ := warp?_ids hw
  have hids : (woken p w).uid = u ∧ (woken p w).wid = n := by
    unfold woken
    dsimp only
    split <;> exact ⟨hu, hn⟩
  have hset : (s.setWarp (woken p w)).warp? u n = some (woken p w) := by
    rw [warp?_setWarp, hw]
    simp [hids, hu, hn]
  have hsaved (ls : List Nat) : (ls.foldl (fun s l => s.saveWake b n l) (s.setWarp (woken p w))).warp? u n = some (woken p w) := by
    rw [← hset, State.warp?, State.warp?, warps_foldl _ (fun s l => warps_saveWake s b n l)]
  unfold State.wakeWhere
  rw [hw, hb]
  dsimp only
  split
  · exact hset
  · exact hsaved _

/-- The end of a hold. -/
def unheld (w : Warp) : Warp := { w with held := false }

theorem thread_unheld (w : Warp) (l : Nat) : (unheld w).thread l = w.thread l := rfl

theorem warp?_wakeFaulted {s : State} {w x : Warp} {b : Block} (hx : s.warp? w.uid w.wid = some x) (hb : s.block? w.uid = some b) :
    (s.wakeFaulted w).warp? w.uid w.wid = some (unheld (woken (fun _ t => t.st == .parked .fault) x)) := by
  have hwoken := warp?_wakeWhere hx hb fun _ t => t.st == .parked .fault
  exact warp?_modWarp_at (f := unheld) hwoken fun _ => ⟨rfl, rfl⟩

/-- No command of the warp stays suspended (R239). -/
theorem wakeFaulted_engines {s : State} {w : Warp} {e : Engine} (he : e ∈ (s.wakeFaulted w).engines) (hu : e.uid = w.uid)
    (hn : e.wid = w.wid) : e.st ≠ .suspended := by
  obtain ⟨d, -, rfl⟩ := List.mem_map.mp he
  split
  · exact nofun
  · next hother =>
    rw [if_neg hother] at hu hn
    simpa [hu, hn] using hother

/-- Settles O14: the wake of the fault-parked threads, then the end of the hold and the commands that run again. -/
theorem wakingAFaultedWarp : Obligations.WakingAFaultedWarp := by
  unfold Obligations.WakingAFaultedWarp
  intro s w x b hx hb
  refine ⟨_, warp?_wakeFaulted hx hb, rfl, fun l hl h32 hst => ?parked, fun l hl hst => ?other, fun e => wakeFaulted_engines⟩
  case parked =>
    rw [thread_unheld, thread_woken _ hl, if_pos ⟨h32, beq_iff_eq.mpr hst⟩]
    refine ⟨rfl, rfl, ?_⟩
    by_cases hdue : (x.thread l).marker = true ∧ x.outstanding ≠ 0
    · exact .inr ⟨hdue.1, hdue.2, if_pos hdue⟩
    · exact .inl (if_neg hdue)
  case other => rw [thread_unheld, thread_woken _ hl, if_neg fun h => hst (beq_iff_eq.mp h.2)]

/-! ### Taking a fault (R47, R426, R427) -/

/-- Two warps of one name, with the same threads and the same wait for a holding slot. -/
def SameThreads (w w' : Warp) : Prop :=
  w'.uid = w.uid ∧ w'.wid = w.wid ∧ w'.threads = w.threads ∧ w'.faultStall = w.faultStall

theorem SameThreads.refl (w : Warp) : SameThreads w w := ⟨rfl, rfl, rfl, rfl⟩

theorem SameThreads.trans {a b c : Warp} (h : SameThreads a b) (k : SameThreads b c) : SameThreads a c := by
  obtain ⟨hu, hn, hth, hstall⟩ := h
  obtain ⟨ku, kn, kth, kstall⟩ := k
  exact ⟨ku.trans hu, kn.trans hn, kth.trans hth, kstall.trans hstall⟩

theorem SameThreads.pset (w : Warp) (p : Nat) (v : LaneMask) : SameThreads w (w.pset p v) := by
  simp [SameThreads]

theorem SameThreads.put (w : Warp) (x : RegSlot) (v : Word) : SameThreads w (w.put x v) := by
  cases x with
  | vec | vecB | uni => exact ⟨rfl, rfl, rfl, rfl⟩
  | pred => exact .pset _ _ _

theorem SameThreads.foldl {α : Type} {f : Warp → α → Warp} (hf : ∀ w x, SameThreads w (f w x)) (l : List α) (w : Warp) :
    SameThreads w (l.foldl f w) := by
  induction l generalizing w with
  | nil => exact .refl w
  | cons a t ih => exact (hf w a).trans (ih _)

theorem SameThreads.puts (w : Warp) (ws : List (RegSlot × Word)) : SameThreads w (w.puts ws) := .foldl (fun w _ => .put w _ _) ws w

/-- The warp of a name keeps its threads and that wait. -/
def KeepsThreads (u n : Nat) (s t : State) : Prop := ∀ w, s.warp? u n = some w → ∃ w', t.warp? u n = some w' ∧ SameThreads w w'

theorem KeepsThreads.of_warps {u n : Nat} {s t : State} (e : t.warps = s.warps) : KeepsThreads u n s t := fun w hw =>
  ⟨w, by rwa [State.warp?, e], .refl w⟩

theorem KeepsThreads.trans {u n : Nat} {a b c : State} (h : KeepsThreads u n a b) (k : KeepsThreads u n b c) :
    KeepsThreads u n a c := by
  intro w hw
  obtain ⟨x, hx, hsame⟩ := h w hw
  obtain ⟨y, hy, ksame⟩ := k x hx
  exact ⟨y, hy, hsame.trans ksame⟩

theorem KeepsThreads.foldl {α : Type} {u n : Nat} {f : State → α → State} (hf : ∀ s x, KeepsThreads u n s (f s x)) (l : List α)
    (s : State) : KeepsThreads u n s (l.foldl f s) := by
  induction l generalizing s with
  | nil => exact .of_warps rfl
  | cons a t ih => exact (hf s a).trans (ih _)

theorem KeepsThreads.modWarp {u n : Nat} (s : State) (a b : Nat) {f : Warp → Warp} (hf : ∀ w, SameThreads w (f w)) :
    KeepsThreads u n s (s.modWarp a b f) := by
  intro w hw
  refine ⟨_, by rw [warp?_modWarp fun w => ⟨(hf w).1, (hf w).2.1⟩, hw]; rfl, ?_⟩
  dsimp only
  split
  · exact hf w
  · exact .refl w

theorem KeepsThreads.sampleMark {u n : Nat} (s : State) (w : Warp) (f : Sample → Sample) : KeepsThreads u n s (s.sampleMark w f) := by
  unfold State.sampleMark
  split
  · exact .of_warps (warps_modCore _ _ _)
  · exact .of_warps rfl

theorem KeepsThreads.discardLoads {u n : Nat} (s : State) (a b : Nat) : KeepsThreads u n s (s.discardLoads a b) := by
  unfold State.discardLoads
  refine KeepsThreads.trans ?_ (.modWarp _ a b fun w => ?_)
  · exact .of_warps rfl
  obtain ⟨hu, hn, hth, hstall⟩ := SameThreads.foldl (fun w o => .puts w o.writes)
    (s.owed.filter fun o => o.uid == a && o.wid == b && !o.strong) w
  exact ⟨hu, hn, hth, hstall⟩

theorem KeepsThreads.freeReg {u n : Nat} (s : State) (a b l d : Nat) (x : Nat × Nat) : KeepsThreads u n s (s.freeReg a b l d x) := by
  unfold State.freeReg
  dsimp only
  split
  · exact .modWarp _ _ _ fun w => .put w (.vec _ _) _
  · exact .modWarp _ _ _ fun w => .put w (.uni _) _
  · exact .modWarp _ _ _ fun w => .pset w _ _
  all_goals exact .of_warps rfl

theorem KeepsThreads.unspecify {u n : Nat} (s : State) (a b : Nat) (back : Thread → Bool) :
    KeepsThreads u n s (s.unspecify a b back) := by
  unfold State.unspecify
  split
  · exact .of_warps rfl
  · dsimp only
    split
    · exact .of_warps rfl
    · refine (KeepsThreads.foldl (fun s l => ?_) _ s).trans (.of_warps rfl)
      exact (KeepsThreads.foldl (fun s x => .freeReg s _ _ _ _ x) _ s).trans (.foldl (fun s p => .of_warps (warps_freeAt s _ p)) _ _)

/-- A thread that a fault parks: one that is kept stays where it stands, the others roll back (R178, R426). -/
def faultThread (keep : LaneMask) (l : Nat) (t : Thread) : Thread :=
  if faulting t then { (if keep.getLsbD l then { t with runWr := [], age := 0 } else t.rollback) with st := .parked .fault } else t

/-- Taking a fault whose record has gone to its ring or a holding slot: the warp is held, and its threads are parked. -/
theorem takeFault_recorded {s s1 : State} {w x : Warp} {r : FaultRec} (keep : LaneMask) (hstrong : s.strongBusy w.uid w.wid = false)
    (hput : s.putRecord w.core (s.recordOf w r) true = some s1) (hx : s1.warp? w.uid w.wid = some x) :
    ∃ y, (s.takeFault w r keep).warp? w.uid w.wid = some y ∧ y.held = true ∧ y.faultStall = x.faultStall ∧
      ∀ l < x.threads.length, y.thread l = faultThread keep l (x.thread l) := by
  unfold State.takeFault
  simp only [hstrong, Bool.false_eq_true, if_false, hput]
  generalize hs2 : State.unspecify _ w.uid w.wid faulting = s2
  have hkeeps : KeepsThreads w.uid w.wid s1 s2 := hs2 ▸
    (((KeepsThreads.of_warps (warps_traceEvent _ _ _ _ _ _ _ _)).trans (.sampleMark _ _ _)).trans (.discardLoads _ _ _)).trans
      (.unspecify _ _ _ _)
  obtain ⟨z, hz, -, -, hth, hstall⟩ := hkeeps x hx
  refine ⟨_, warp?_modWarp_at hz fun _ => ⟨rfl, rfl⟩, rfl, hstall, fun l hl => ?_⟩
  simp only [Warp.thread, hth, List.getD_eq_getElem?_getD, List.getElem?_mapIdx, List.getElem?_eq_getElem hl, Option.map_some,
    Option.getD_some, faultThread]

/-! ### Traps (R178) -/

/-- The warp of a trap, its active threads at the next instruction, which is their new region entry. -/
def trapWarp (c : Ic) (w : Warp) : Warp :=
  w.modThreads c.active fun _ t =>
    { t.fresh with pc := nextPc c.pc, rentry := nextPc c.pc, rseq := t.rseq + 1, newRegion := false, reenter := true, landed := true }

/-- The record of a trap: it names the next instruction as the region entry. -/
def trapRecord (c : Ic) (code : FaultCode) (aux : Nat) : FaultRec :=
  { c.record code c.lane0 with aux := aux, rentry := nextPc c.pc, rseq := (c.w.thread c.lane0).rseq + 1 }

/-- A trap whose warp does not come to wait for a holding slot is the fault of its warp, the active threads kept. -/
theorem trapNow_taken {s : State} {c : Ic} {x y : Warp} {code : FaultCode} {aux : Nat} (hx : s.warp? c.w.uid c.w.wid = some x)
    (hy : ((s.setWarp (trapWarp c x)).takeFault (trapWarp c x) (trapRecord c code aux) c.active).warp? c.w.uid c.w.wid = some y)
    (hstall : y.faultStall = none) :
    s.trapNow c code aux = (s.setWarp (trapWarp c x)).takeFault (trapWarp c x) (trapRecord c code aux) c.active := by
  unfold State.trapNow
  rw [hx]
  unfold trapWarp trapRecord at *
  simp only [Option.getD_some, hy, hstall, Option.isSome_none, Bool.false_eq_true, if_false]

/-- Settles O23: the trap puts its threads at the next instruction, and the fault, whose record is delivered, keeps them there. -/
theorem trapParksAtTheNextInstruction : Obligations.TrapParksAtTheNextInstruction := by
  unfold Obligations.TrapParksAtTheNextInstruction
  intro s s1 c x code aux hstrong hx hstall t0 w hput hw
  change (s.setWarp (trapWarp c x)).putRecord (trapWarp c x).core
    ((s.setWarp (trapWarp c x)).recordOf (trapWarp c x) (trapRecord c code aux)) true = some s1 at hput
  change s1.warp? c.w.uid c.w.wid = some (trapWarp c x) at hw
  obtain ⟨hu, hn⟩ : (trapWarp c x).uid = c.w.uid ∧ (trapWarp c x).wid = c.w.wid :=
    (warp?_ids hx : x.uid = c.w.uid ∧ x.wid = c.w.wid)
  obtain ⟨y, hy, hheld, hystall, hthread⟩ := takeFault_recorded c.active (hu ▸ hn ▸ hstrong) hput (hu ▸ hn ▸ hw)
  rw [hu, hn] at hy
  refine ⟨y, by rw [trapNow_taken hx hy (hystall.trans hstall), hy], hheld, fun l hl hact hst => ?_⟩
  have htrapped : (trapWarp c x).thread l = _ := (thread_modThreads hl _ _).trans (if_pos hact)
  rw [hthread l (by rwa [trapWarp, length_modThreads]), htrapped]
  simp only [faultThread, faulting, Thread.fresh, hst, hact, if_true]
  exact ⟨trivial, trivial, trivial, trivial⟩

end Sys2Proof

/-! PROOFS. Barriers, waiting and traps (O24, O25): when each is performed, and what it leaves. A release that need not wait goes on
after it (`withRelease_ready`, Laws/Issue.lean), so each proof is the instruction's own conditions, then that. -/

namespace Sys2Proof

open Sys2Proof.Machine Sys2Proof.Claims

/-! ### Barriers (R182 to R189, R206) -/

theorem barriers : Barriers := by
  intro f
  refine ⟨?bar, ?clbar, ?gbar, ?cvinit⟩
  case bar =>
    refine performs_of _ (fun _ => rfl) fun c s h => ?_
    simp only [Bool.and_eq_true, Bool.not_eq_true'] at h
    obtain ⟨hplain, hready⟩ := h
    simp only [hplain, Bool.false_eq_true, if_false, withRelease_ready hready]
  -- a block of a grid, with a cluster group (R185)
  case clbar =>
    refine performs_of _ (fun _ => rfl) fun c s h => ?_
    simp only [Bool.and_eq_true, Option.any_eq_true] at h
    obtain ⟨⟨hroot, g, hg, hgroup⟩, hready⟩ := h
    simp only [Option.isNone_iff_eq_none.mp hroot, hg, Option.isSome_none, Option.all_some, bne_iff_ne.mp hgroup, beq_iff_eq,
      Bool.false_or, if_false, withRelease_ready hready]
  -- a block of a grid that has its cores to itself (R186)
  case gbar =>
    refine performs_of _ (fun _ => rfl) fun c s h => ?_
    simp only [Bool.and_eq_true, Option.any_eq_true] at h
    obtain ⟨⟨hroot, g, hg, hcores⟩, hready⟩ := h
    simp only [Option.isNone_iff_eq_none.mp hroot, hg, Option.isSome_none, Option.all_some, hcores, Bool.not_true, Bool.or_self,
      Bool.false_eq_true, if_false, withRelease_ready hready]
  -- no lane waits at the register (R187)
  case cvinit =>
    refine performs_of _ (fun _ => rfl) fun c s h => ?_
    simp only [Bool.and_eq_true, decide_eq_true_eq, bne_iff_ne] at h
    obtain ⟨⟨⟨hpos, hlanes, hwarps⟩, hclosed⟩, hidle⟩ := h
    rw [if_neg (by simp; omega), if_neg hidle]

theorem countedBarrier : CountedBarrier := by
  intro f
  refine follows_of _ (fun _ => rfl) fun c s t h => ?_
  obtain ⟨hpos, hmax, hsame, hopen, hready, rfl⟩ := h
  have hall : ((lanesOf c.active).all fun l => srcA c f false .n32 l == srcA c f false .n32 c.lane0) = true :=
    List.all_eq_true.mpr fun l hl => beq_iff_eq.mpr (hsame l hl)
  have hcount : ((c.b.bars.find? fun x => x.id == f.sub.toNat).any fun x => x.need != some (srcA c f false .n32 c.lane0)) = false :=
    (Option.any_eq_false _ _).mpr fun x hx => by simp [hopen x hx]
  simp only [hall, hcount, Nat.pos_iff_ne_zero.mp hpos, Nat.not_lt.mpr hmax, decide_false, Bool.not_true, Bool.or_self,
    Bool.false_eq_true, if_false, withRelease_ready hready]
  -- the barrier that the arrivals have been entered at
  generalize Option.bind _ _ = entered
  cases entered with
  | none | some x => rfl

theorem phaseBarrier : PhaseBarrier := by
  intro f
  refine follows_of _ (fun _ => rfl) fun c s t h => ?_
  obtain ⟨hresults, ⟨pas, hlines⟩, hready, hagree, rfl⟩ := h
  simp only [hresults, hlines, withWritten_ready hready, ne_eq, not_true_eq_false, if_false]
  refine if_neg fun hclash => ?_
  revert hclash hagree
  cases State.block? _ c.b.uid with
  | none => simp
  | some b => intro hagree; simp [hagree b rfl]

/-- Settles O24: each instruction's own conditions, and its release, which need not wait. -/
theorem barrierInstructions : Obligations.BarrierInstructions := by
  unfold Obligations.BarrierInstructions
  exact ⟨barriers, countedBarrier, phaseBarrier⟩

/-! ### Waiting and traps (R176 to R180, R206, R442, R450) -/

theorem exitPauseAndYield : ExitPauseAndYield := by
  intro f g
  refine ⟨?exit, ?pause, ?yield⟩
  -- the warp's last exit releases first (R171)
  case exit =>
    refine performs_of _ (fun _ => rfl) fun c s h => ?_
    cases hlive : c.othersLive
    · rw [hlive, Bool.false_or] at h
      simp only [Bool.false_eq_true, if_false, withRelease_ready h]
    · rfl
  case pause | yield => exact performs_of _ (fun _ => rfl) fun _ _ _ => rfl

/-- A trapped legacy form traps once the warp's strong accesses are in (R207, R215). -/
theorem trapCounted_ready {s : State} {c : Ic} (h : s.strongBusy c.w.uid c.w.wid = false) (code : Nat) (count : State → State) :
    s.trapCounted c code count =
      .raw (let t := s.trapNow c .trap code
        if (t.warp? c.w.uid c.w.wid).any fun w => w.faultStall.isSome then t else count t) := by
  simp only [State.trapCounted, h, Bool.false_eq_true, if_false]

theorem trapInstructions : TrapInstructions := by
  intro f
  refine ⟨?trap, ?brk, ?halt⟩
  case trap =>
    refine leaves_of_raw _ (fun _ => rfl) fun c s h => ?_
    rw [Bool.not_eq_true'] at h
    exact if_neg (by simp [h])
  case brk =>
    refine leaves_of_raw _ (fun _ => rfl) fun c s h => ?_
    simp only [Bool.and_eq_true, Bool.not_eq_true'] at h
    obtain ⟨hstrong, hleave⟩ := h
    exact if_neg (by simp [hstrong, hleave])
  case halt =>
    refine leaves_of_raw _ (fun _ => rfl) fun c s h => ?_
    simp only [Bool.and_eq_true, Bool.not_eq_true', bne_iff_ne] at h
    obtain ⟨hpresent, hstrong⟩ := h
    exact (if_neg hpresent).trans (trapCounted_ready hstrong _ _)

theorem legacyFlush : LegacyFlush := by
  intro f
  constructor
  -- below step 2 of the ladder it is performed
  · refine follows_of _ (fun _ => rfl) fun c s t h => ?_
    obtain ⟨hstep, hacked, hready, rfl⟩ := h
    dsimp only
    split
    · omega
    · omega
    · rw [if_neg (by simp [hacked])]
      exact withBoth_ready hready _
  -- at step 2 it traps
  · refine leaves_of_raw _ (fun _ => rfl) fun c s h => ?_
    simp only [Bool.and_eq_true, Bool.not_eq_true', beq_iff_eq] at h
    obtain ⟨hstep, hstrong⟩ := h
    simp only [hstep, trapCounted_ready hstrong]

/-- Settles O25: each instruction's own conditions, and what it then leaves. -/
theorem waitingAndTrapInstructions : Obligations.WaitingAndTrapInstructions := by
  unfold Obligations.WaitingAndTrapInstructions
  exact ⟨exitPauseAndYield, trapInstructions, legacyFlush⟩

end Sys2Proof

/-! PROOFS. What control instructions leave alone (O53): the cases of a step (`run_cases`, Laws/StepFrame.lean) over what a control
transfer answers, and for the others what they are known to leave. -/

namespace Sys2Proof

open Sys2Proof.Machine

/-! ### What a control transfer answers (R174, R175) -/

/-- That a line has been asked for is bookkeeping (R468). -/
theorem asks_keeps (w : Warp) (line now : Nat) : (w.asks line now).uid = w.uid ∧ (w.asks line now).wid = w.wid ∧
    (w.asks line now).vregs = w.vregs ∧ (w.asks line now).sregs = w.sregs ∧ (w.asks line now).preds = w.preds ∧
    (w.asks line now).fflags = w.fflags := by
  unfold Warp.asks
  split <;> exact ⟨rfl, rfl, rfl, rfl, rfl, rfl⟩

/-- A transfer that goes on leaves its lines in and its links written; one that stalls changes no storage. -/
def TransferAnswer (s u : State) : Res → Prop
  | .done t _ => t = u
  | .stall t => SameData false s t
  | .raw _ => False
  | .fault _ => True
  | .brk _ => True

theorem run_transfer {i : Instr} {f : BrForm} {link : Bool} {tgt : Ic → Nat → BitVec 64}
    (he : ∀ s, exec i s = transfer i f s link tgt) :
    ∃ body, (∀ s, exec i s = run i s body) ∧ ∀ c s, TransferAnswer s (linked f link tgt c s) (body c s) := by
  refine ⟨_, he, fun c s => ?_⟩
  generalize hlinked : linked f link tgt c s = u
  dsimp only
  split
  · trivial
  split
  · trivial
  · exact (SameData.landings _ _ _).trans (SameData.touch _ _ _ _ fun w => asks_keeps w _ _)
  split
  · trivial
  · exact hlinked

/-- A transfer that takes no fault changes no storage, or retires with its links written. -/
theorem transfer_cases {i : Instr} {f : BrForm} {link : Bool} {tgt : Ic → Nat → BitVec 64} {s t : State} {c : Ic}
    (he : ∀ s, exec i s = transfer i f s link tgt) (hc : s.issueCtx (common i) = some c) (h : exec i s = .next t)
    (hu : Unfaulted t c) : SameData false s t ∨
      ∃ p, t = (linked f link tgt (enteredIc i s c) (enteredState i s c)).retire (enteredIc i s c) i p := by
  obtain ⟨body, hrun, hbody⟩ := run_transfer he
  have hb := hbody (enteredIc i s c) (enteredState i s c)
  rw [hrun] at h
  rcases run_cases (fl := false) hc h hu with k | ⟨y, p, e, rfl⟩ | ⟨y, w, e, rfl⟩ | ⟨y, e, rfl⟩
  · exact .inl k
  all_goals rw [e] at hb
  · exact .inr ⟨p, by rw [show y = _ from hb]⟩
  · have hs : SameData false (enteredState i s c) y := hb
    exact .inl ((SameData.entered hc).trans (hs.trans ((SameData.unopened _ _).trans (SameData.stalled _ _))))
  · exact hb.elim

/-- A transfer without a link (R174). -/
theorem transfer_frame {i : Instr} {f : BrForm} {tgt : Ic → Nat → BitVec 64} {s t : State} {c : Ic}
    (he : ∀ s, exec i s = transfer i f s false tgt) (hc : s.issueCtx (common i) = some c) (h : exec i s = .next t)
    (hu : Unfaulted t c) : SameData false s t := by
  rcases transfer_cases he hc h hu with k | ⟨p, rfl⟩
  · exact k
  · refine (SameData.entered (i := i) hc).trans (SameData.trans ?_ (SameData.retire _ _ _ _))
    exact (SameData.landings _ _ _).trans (SameData.touch _ _ _ _ fun _ => ⟨rfl, rfl, rfl, rfl, rfl, rfl⟩)

/-! ### The link pair (R175) -/

/-- The elements of a link pair, in the lanes of a mask. -/
def LinkSlot (link : Nat) (m : LaneMask) (r l : Nat) : Prop := m.getLsbD l = true ∧ (r = link ∨ r = link + 1)

/-- Memory, wells, blocks and every register of every warp are the same, but vector elements that may change. -/
def SameBut (may : Nat → Nat → Nat → Nat → Prop) (s t : State) : Prop :=
  (t.mem = s.mem ∧ t.wells = s.wells ∧ t.wellFull = s.wellFull ∧ t.blocks = s.blocks) ∧
  ∀ u n w, s.warp? u n = some w → ∃ w', t.warp? u n = some w' ∧ w'.sregs = w.sregs ∧ w'.preds = w.preds ∧ w'.fflags = w.fflags ∧
    (cwf w.vregs = true → ∀ r l, l < 32 → ¬ may u n r l → w'.vget r l = w.vget r l)

theorem SameData.sameBut {s t : State} (h : SameData false s t) (may : Nat → Nat → Nat → Nat → Prop) : SameBut may s t := by
  obtain ⟨⟨hmem, hwells, hfull, -, hblocks, -⟩, hregs⟩ := h
  refine ⟨⟨hmem, hwells, hfull, hblocks⟩, fun u n w hw => ?_⟩
  obtain ⟨w', hw', hv, hs, hp, hf⟩ := hregs u n w hw
  exact ⟨w', hw', hs, hp, hf, fun _ r l _ _ => by rw [Warp.vget, hv, Warp.vget]⟩

/-- Steps that change no register before and after keep it so. -/
theorem SameBut.between {may : Nat → Nat → Nat → Nat → Prop} {a b c d : State} (h : SameData false a b) (k : SameBut may b c)
    (j : SameData false c d) : SameBut may a d := by
  obtain ⟨⟨hmem, hwells, hfull, -, hblocks, -⟩, hregs⟩ := h
  obtain ⟨⟨kmem, kwells, kfull, kblocks⟩, kregs⟩ := k
  obtain ⟨⟨jmem, jwells, jfull, -, jblocks, -⟩, jregs⟩ := j
  refine ⟨⟨jmem.trans (kmem.trans hmem), jwells.trans (kwells.trans hwells), jfull.trans (kfull.trans hfull),
    jblocks.trans (kblocks.trans hblocks)⟩, fun u n w hw => ?_⟩
  obtain ⟨x, hx, hv, hs, hp, hf⟩ := hregs u n w hw
  obtain ⟨y, hy, ks, kp, kf, kv⟩ := kregs u n x hx
  obtain ⟨z, hz, jv, js, jp, jf⟩ := jregs u n y hy
  refine ⟨z, hz, js.trans (ks.trans hs), jp.trans (kp.trans hp), jf.trans (kf.trans hf), fun hwf r l hl hout => ?_⟩
  have hsame := kv (hv ▸ hwf) r l hl hout
  rwa [Warp.vget, Warp.vget, hv, ← jv] at hsame

/-- The writes of the link pairs of a mask's lanes (R175). -/
theorem mem_linkWrites {link : Nat} {m : LaneMask} {tgt : Nat → BitVec 64} {ret : Nat} {x : RegSlot × Word}
    (hx : x ∈ ((lanesOf m).map fun l => (l, tgt l)).flatMap fun y => vecWrite link y.1 true ret) :
    ∃ r l, x.1 = .vec r l ∧ l < 32 ∧ LinkSlot link m r l := by
  obtain ⟨y, hy, hxy⟩ := List.mem_flatMap.mp hx
  obtain ⟨l, hl, rfl⟩ := List.mem_map.mp hy
  obtain ⟨hl32, hm⟩ := mem_lanesOf.mp hl
  simp only [vecWrite, if_true, List.mem_cons, List.not_mem_nil, or_false] at hxy
  rcases hxy with rfl | rfl
  · exact ⟨_, _, rfl, hl32, hm, .inl rfl⟩
  · exact ⟨_, _, rfl, hl32, hm, .inr rfl⟩

/-- Writing the link pairs of a warp's lanes changes nothing else. -/
theorem SameBut.puts_links (s : State) (u n link : Nat) (m : LaneMask) (tgt : Nat → BitVec 64) (ret : Nat) :
    SameBut (fun u' n' r l => u' = u ∧ n' = n ∧ LinkSlot link m r l) s
      (s.modWarp u n fun w => w.puts (((lanesOf m).map fun l => (l, tgt l)).flatMap fun x => vecWrite link x.1 true ret)) := by
  have hother (w : Warp) := puts_vec_other w _ fun x hx =>
    let ⟨r, l, e, _⟩ := mem_linkWrites (link := link) (m := m) (tgt := tgt) (ret := ret) hx
    ⟨r, l, e⟩
  refine ⟨⟨rfl, rfl, rfl, rfl⟩, fun u' n' w hw => ?_⟩
  obtain ⟨hu, hn⟩ := warp?_ids hw
  refine ⟨_, by rw [warp?_modWarp fun w => (hother w).2.2.2, hw]; rfl, ?_⟩
  dsimp only
  split
  · next hme =>
    obtain ⟨hs, hp, hf, -⟩ := hother w
    rw [Bool.and_eq_true, beq_iff_eq, beq_iff_eq, hu, hn] at hme
    refine ⟨hs, hp, hf, fun hwf r l hl hout => (vget_puts w hwf _ r l hl fun x hx => ?_).1⟩
    obtain ⟨a, b, e, hb, hin⟩ := mem_linkWrites hx
    exact ⟨a, b, e, hb, fun ⟨hr, hl⟩ => hout ⟨hme.1, hme.2, hr ▸ hl ▸ hin⟩⟩
  · exact ⟨rfl, rfl, rfl, fun _ _ _ _ _ => rfl⟩

/-- A transfer with a link (R175). -/
theorem call_frame {i : Instr} {f : BrForm} {tgt : Ic → Nat → BitVec 64} {s t : State} {c : Ic}
    (he : ∀ s, exec i s = transfer i f s true tgt) (hc : s.issueCtx (common i) = some c) (h : exec i s = .next t)
    (hu : Unfaulted t c) :
    SameBut (fun u n r l => u = c.w.uid ∧ n = c.w.wid ∧ LinkSlot f.link.toNat c.active r l) s t := by
  rcases transfer_cases he hc h hu with k | ⟨p, rfl⟩
  · exact k.sameBut _
  · obtain ⟨hwu, hwn, -⟩ := entered_warp (i := i) hc
    rw [← hwu, ← hwn]
    exact .between ((SameData.entered hc).trans (SameData.landings _ _ _)) (.puts_links _ _ _ _ _ _ _) (SameData.retire _ _ _ _)

/-! ### The frame of the control instructions -/

/-- The frame of an instruction that is performed in sequence, without conditions of its own. -/
theorem performs_frame {i : Instr} {eff : Ic → State → State} {s t : State} {c : Ic} (hp : Performs i (fun _ _ => true) eff)
    (hk : ∀ c s, SameData false s (eff c s)) (hi : Issuable i s c) (h : exec i s = .next t) : SameData false s t := by
  cases (hp s c hi rfl).symm.trans h
  exact (SameData.entered hi.ctx).trans ((hk _ _).trans (SameData.retire _ _ _ _))

/-- Settles O53: transfers by the frame of what they answer, the others as bookkeeping of their warp. -/
theorem controlFrame : Obligations.ControlFrame := by
  unfold Obligations.ControlFrame
  intro f g i s t c hi h hu
  obtain ⟨-, hpause, hyield⟩ := exitPauseAndYield f g
  have hnop : Performs (.nop g) (fun _ _ => true) fun _ s => s := performs_of _ (fun _ => rfl) fun _ _ _ => rfl
  simp only [List.mem_cons, List.not_mem_nil, or_false]
  constructor
  · rintro (rfl | rfl | rfl | rfl | rfl | rfl)
    case inl | inr.inl | inr.inr.inl => exact transfer_frame (fun _ => rfl) hi.ctx h hu
    case inr.inr.inr.inl =>
      exact performs_frame hpause (fun _ _ => SameData.touch _ _ _ _ fun _ => ⟨rfl, rfl, rfl, rfl, rfl, rfl⟩) hi h
    case inr.inr.inr.inr.inl =>
      exact performs_frame hyield (fun _ _ => SameData.touch _ _ _ _ fun _ => ⟨rfl, rfl, rfl, rfl, rfl, rfl⟩) hi h
    case inr.inr.inr.inr.inr => exact performs_frame hnop (fun _ _ => SameData.refl _ _) hi h
  · intro hcall
    have hframe : SameBut (fun u n r l => u = c.w.uid ∧ n = c.w.wid ∧ LinkSlot f.link.toNat c.active r l) s t := by
      rcases hcall with rfl | rfl
      · exact call_frame (fun _ => rfl) hi.ctx h hu
      · exact call_frame (fun _ => rfl) hi.ctx h hu
    obtain ⟨⟨hmem, hwells, hfull, hblocks⟩, hregs⟩ := hframe
    exact ⟨hmem, hwells, hfull, hblocks, hregs⟩

end Sys2Proof

/-! PROOFS. Work creation (O26), tasks (O27) and the supervisor's instructions (O28, O29): when each is performed, and what it
leaves. Each proof takes the record's checks in the order in which the instruction makes them. -/

namespace Sys2Proof

open Sys2Proof.Machine Sys2Proof.Claims

/-! ### Work creation (R193 to R199) -/

theorem launchQueuesAGrid : LaunchQueuesAGrid := by
  intro f
  refine follows_of _ (fun _ => rfl) fun c s t h => ?_
  obtain ⟨v, s1, l, k, p, hwarp, hlane, hdepth, hready, hrecord, hcheck, rfl⟩ := h
  have hleader : (decide (c.w.wid ≠ 0) || !c.active.getLsbD 0) = false := by simp [hwarp, hlane]
  simp only [hleader, Nat.not_le.mpr hdepth, Bool.false_eq_true, if_false, withWritten_ready hready, hrecord, hcheck]

theorem spawnMakesAChild : SpawnMakesAChild := by
  intro f
  refine follows_of _ (fun _ => rfl) fun c s t h => ?_
  obtain ⟨v, s1, bs, s2, r, k, vs, bank, s3, hready, hrecord, hviews, htail, hcheck, hwells, rfl⟩ := h
  simp only [withWritten_ready hready, hrecord, Nat.not_le.mpr hviews, if_false, htail, hcheck, hwells]

theorem mergeAndSyncSpawn : MergeAndSyncSpawn := by
  intro f
  refine ⟨?merge, ?sync⟩
  case merge => exact performs_of _ (fun _ => rfl) fun c s hready => withRelease_ready hready _
  case sync =>
    refine performs_of _ (fun _ => rfl) fun c s hready => (withRing_ready hready _).trans ?_
    dsimp only
    split <;> rfl

/-- Settles O26: the checks of each record, one after another, and then the effect. -/
theorem workCreationInstructions : Obligations.WorkCreationInstructions := by
  unfold Obligations.WorkCreationInstructions
  exact ⟨launchQueuesAGrid, spawnMakesAChild, mergeAndSyncSpawn⟩

/-! ### Tasks (R200 to R203) -/

theorem taskSubmission : TaskSubmission := by
  intro f
  refine follows_of _ (fun _ => rfl) fun c s t h => ?_
  obtain ⟨v, s1, rs, bs, s2, hready, hrecord, hprint, hzeroTail, hzeroLow, hlines, hlaunch, hdepth, hroom, rfl⟩ := h
  simp only [withWritten_ready hready, hrecord, hprint, hzeroTail, hzeroLow, hlines, Option.isNone_eq_false_iff.mpr hlaunch,
    Nat.not_le.mpr hdepth, Nat.not_lt.mpr hroom, Bool.and_self, Bool.not_true, Bool.false_eq_true, if_false]

theorem taskSignal : TaskSignal := by
  intro f
  constructor
  · refine follows_of _ (fun _ => rfl) fun c s t h => ?_
    obtain ⟨v, s1, u, hready, hrecord, htask, hwaiting, hcount, rfl⟩ := h
    simp only [withWritten_ready hready, hrecord, htask]
    exact if_pos ⟨hwaiting, hcount⟩
  -- the record names no task that waits with a count
  · refine faults_of _ (fun _ => rfl) fun c s r h => ?_
    obtain ⟨v, s1, hready, hrecord, hnone, rfl⟩ := h
    simp only [withWritten_ready hready, hrecord]
    cases htask : s1.recordTask c.b.ctx (c.w.sget64 f.record.toNat) (fieldOf v 170 6) (fieldOf v 224 32) with
    | none => rfl
    | some u => exact if_neg (hnone u htask)

/-- Settles O27: the checks of the record, one after another, and then the effect or the fault. -/
theorem taskInstructions : Obligations.TaskInstructions := by
  unfold Obligations.TaskInstructions
  exact ⟨taskSubmission, taskSignal⟩

/-! ### The supervisor and warps (R204, R205, R430) -/

theorem supervisorWake : SupervisorWake := by
  intro f
  exact performs_of _ (fun _ => rfl) fun c s hready => withBoth_ready hready _

theorem supervisorKill : SupervisorKill := by
  intro f
  refine performs_of _ (fun _ => rfl) fun c s h => ?_
  obtain ⟨hcode, hready⟩ := Bool.and_eq_true_iff.mp h
  exact (if_neg (by simp [hcode])).trans (withBoth_ready hready _)

/-- The target of an eviction that may leave: the instruction retires, then its block is evicted (R205, R433). -/
theorem exec_sysEvict {f : RegForm} {s : State} {c : Ic} {k : Block} {pas : List Nat} (h : Issuable (.sysEvict f) s c)
    (htarget : (enteredState (.sysEvict f) s c).evictTarget (enteredIc (.sysEvict f) s c) f = some k)
    (hlines : (enteredState (.sysEvict f) s c).saveLines k = .ok pas)
    (hleave : (enteredState (.sysEvict f) s c).blockCanLeave k = true)
    (hready : releaseReady (enteredState (.sysEvict f) s c) (enteredIc (.sysEvict f) s c) .device = true) :
    let c' := enteredIc (.sysEvict f) s c
    let u := (((afterRelease (enteredState (.sysEvict f) s c) c' .device).acquire c'.w.uid c'.w.wid .device 0).putStatus c' f
      0).retire c' (.sysEvict f) fun _ n => n
    exec (.sysEvict f) s = .next (u.evictBlock ((u.block? k.uid).getD k) pas true none).issued := by
  show execSysEvict f s = _
  simp only [execSysEvict, run, gate_of_issuable h, htarget, hlines, hleave, Bool.not_true, Bool.false_eq_true, if_false,
    withBoth_ready hready]

theorem supervisorEvict : SupervisorEvict := by
  intro f
  refine ⟨performs_of _ (fun _ => rfl) fun c s h => ?_, fun s c k pas => exec_sysEvict⟩
  obtain ⟨hnone, hready⟩ := Bool.and_eq_true_iff.mp h
  simp only [Option.isNone_iff_eq_none.mp hnone, withBoth_ready hready]

/-- Settles O28: each releases and acquires without waiting, and answers for what it names. -/
theorem supervisorWarpControl : Obligations.SupervisorWarpControl := by
  unfold Obligations.SupervisorWarpControl
  exact ⟨supervisorWake, supervisorKill, supervisorEvict⟩

/-! ### The supervisor, translation and counts (R205, R414 to R419) -/

theorem tlbInvalidation : TlbInvalidation := by
  intro f
  refine follows_of _ (fun _ => rfl) fun c s t h => ?_
  obtain ⟨hready, hperformed, rfl⟩ := h
  exact (withWritten_ready hready _).trans (if_neg (by simp [hperformed]))

theorem supervisorResumeAndCounts : SupervisorResumeAndCounts := by
  intro f
  refine ⟨?resume, ?counts⟩
  case resume =>
    refine performs_of _ (fun _ => rfl) fun c s hready => (withBoth_ready hready _).trans ?_
    dsimp only
    -- the block with that save slot
    generalize List.find? _ _ = away
    cases away with
    | none | some b => rfl
  case counts => exact performs_of _ (fun _ => rfl) fun _ _ _ => rfl

/-- Settles O29: each releases and acquires without waiting, but `sys.mcount`, which does neither. -/
theorem supervisorTranslationAndCounts : Obligations.SupervisorTranslationAndCounts := by
  unfold Obligations.SupervisorTranslationAndCounts
  exact ⟨tlbInvalidation, supervisorResumeAndCounts⟩

end Sys2Proof

/-! PROOFS. The events that place work and end it (O46): each passes its conditions, after which it leaves the state named
(`happens_of`, Laws/Shapes.lean). -/

namespace Sys2Proof

open Sys2Proof.Machine Sys2Proof.Claims

/-! ### Placement (R346 to R349, R362, R374) -/

/-- What is served is one of those that wait (R346). -/
theorem serveRun_mem {xs : List Waiting} {skipped barred : List Nat} {s t : State} {x : Waiting}
    (h : serveRun xs skipped barred s = (some x, t)) : x ∈ xs := by
  induction xs generalizing skipped barred s with
  | nil => cases h
  | cons y ys ih =>
    unfold serveRun at h
    split at h
    · exact List.mem_cons_of_mem _ (ih h)
    · split at h
      · cases h
        exact List.mem_cons_self
      · exact List.mem_cons_of_mem _ (ih h)

/-- The first that waits is served when it can be (R346). -/
theorem serveRun_first {x : Waiting} {xs : List Waiting} {s t : State} (h : s.tryWaiting x [] = (true, t)) :
    serveRun (x :: xs) [] [] s = (some x, t.unskip x.gid) := by
  simp only [serveRun, List.contains_nil, Bool.false_eq_true, if_false, h]

theorem restore_happens {s t : State} {b : Block} (hgo : s.plat.stopped = false) (h : s.placeOne = (some (.back b), t)) :
    Happens (.restore b.uid) s t := by
  refine happens_of rfl ?_
  simp only [hgo, h, Bool.false_eq_true, if_false, if_true]

theorem blockPlace_happens {s t : State} {x : Waiting} (hgo : s.plat.stopped = false) (h : s.placeOne = (some x, t))
    (hx : ∀ b, x ≠ .back b) : Happens .blockPlace s t := by
  refine happens_of rfl ?_
  cases x with
  | back b => exact absurd rfl (hx b)
  | grid g | block b => simp only [hgo, h, Bool.false_eq_true, if_false]

theorem placementEvents : PlacementEvents := by
  refine ⟨fun s x hgo hnext => happens_of rfl ?accept, fun s t x hgo hplace => ⟨serveRun_mem hplace, ?place⟩,
    fun s t hgo hplace hnew => happens_of rfl ?skip,
    fun s t x xs hpending htry => ?first, fun s gid t g hg hst hblock hskip hlate => happens_of rfl ?timeout⟩
  case accept => simp only [hgo, hnext, Bool.false_eq_true, if_false, Option.map_some]
  case place =>
    cases x with
    | back b => exact restore_happens hgo hplace
    | grid g | block b => exact blockPlace_happens hgo hplace (by simp)
  -- nothing fits: that a grid has been passed over is noted
  case skip =>
    obtain ⟨x, hx, g, hg, hunskipped⟩ := hnew
    have hnoted : (s.pending.any fun x => (s.grid? x.gid).any fun g => g.skipSince.isNone) = true :=
      List.any_eq_true.mpr ⟨x, hx, by rw [hg, Option.any_some, hunskipped, Option.isNone_none]⟩
    simp only [hgo, hplace, hnoted, Bool.false_eq_true, if_false, if_true]
  case first =>
    unfold State.placeOne
    rw [hpending]
    exact serveRun_first htry
  case timeout =>
    simp only [hg, hst, hblock, hskip, Option.any_some, hlate, decide_true, BEq.rfl, Bool.not_false, Bool.and_self, if_true]

/-! ### Completion (R176, R189, R196 to R198, R350, R363, R369, R370) -/

theorem warpRelease_happens {s : State} {uid wid : Nat} {w : Warp} (hw : s.warp? uid wid = some w) (hslot : w.holds = true)
    (hexit : w.allExited = true) (hout : w.outstanding = 0) (hacq : w.acq = none)
    (hdone : ∀ e ∈ s.engines, e.uid = uid → e.wid = wid → e.st = .done) :
    Happens (.warpRelease uid wid) s { s.leaveSlot w with freed := true } := by
  have hidle : (s.engines.any fun e => e.uid == uid && e.wid == wid && !(e.st == .done)) = false :=
    List.any_eq_false.mpr fun e he => by simpa using hdone e he
  refine happens_of rfl ?_
  simp only [hw, hslot, hexit, hout, hacq, hidle, Option.isNone_none, BEq.rfl, Bool.not_false, Bool.and_self, if_true]

theorem blockRetire_happens {s : State} {uid : Nat} {b : Block} (hb : s.block? uid = some b) (hst : b.st = .resident)
    (hwarps : s.allReleased uid = true) (hfolded : b.spawned ≤ b.folded) :
    let u := (s.closeRings uid).modBlock uid Block.givenBack
    Happens (.blockRetire uid) s
      { (if b.parent.isSome then u else u.modGrid b.gid fun g => { g with retiredBlocks := g.retiredBlocks + 1 }).traceEvent
          (coreDie b.core) 3 none none none none b.ctx with freed := true } := by
  refine happens_of rfl ?_
  simp only [hb, hst, hwarps, hfolded, decide_true, BEq.rfl, Bool.and_self, if_true]

theorem gridRetire_happens {s : State} {gid : Nat} {g : Grid} (hg : s.grid? gid = some g) (hdone : s.gridDone g = true) :
    let u := s.modGrid gid fun g => { g with st := .retired }
    let v := match g.token with
      | some e => u.completeEngine e 0 0
      | none => u
    Happens (.gridRetire gid) s (match g.task with
      | some (q, i) => taskEnd (v.tasks.length + 1) v q i none
      | none => v) := by
  refine happens_of rfl ?_
  simp only [hg, hdone, Bool.not_true, Bool.false_eq_true, if_false]
  cases g.task <;> rfl

/-- A child that cannot merge yet, or whose fold has stopped, is not folded; else its views are, if it has merged (R196). -/
theorem childFold_happens {s : State} {parent : Nat} {p c : Block} (hp : s.block? parent = some p)
    (hc : (s.blocks.find? fun b => b.parent == some (parent, p.folded)) = some c) (hst : c.st = .merging)
    (hgo : (c.merge.getD {}).stopped = false) :
    ((c.merge.getD {}).merged = false → Happens (.childFold parent) s (s.foldEnd parent c.uid)) ∧
    ∀ s1, (c.merge.getD {}).merged = true →
      foldViews p c (c.merge.getD {}).view (c.merge.getD {}).elem (c.views.drop (c.merge.getD {}).view) s = (none, s1) →
      Happens (.childFold parent) s (s1.foldEnd parent c.uid) := by
  constructor
  · intro hmerged
    refine happens_of rfl ?_
    simp only [hp, hc, hst, hgo, hmerged, BEq.rfl, Bool.not_true, Bool.not_false, Bool.or_self, Bool.false_eq_true, if_false, if_true]
  · intro s1 hmerged hfold
    refine happens_of rfl ?_
    simp only [hp, hc, hst, hgo, hmerged, hfold, BEq.rfl, Bool.not_true, Bool.or_self, Bool.false_eq_true, if_false]

theorem phaseReady_happens {s : State} {uid : Nat} {b : Block} (hb : s.block? uid = some b) (hst : b.st = .phase false)
    (hidle : (s.engines.any fun e => e.uid == uid && !(e.st == .done)) = false)
    (hwait : b.phase.any PhaseOp.wc = true →
      (s.grids.any fun g => g.parentBlock == some uid && (g.st == .queued || g.st == .accepted)) = false ∧
      (s.tasks.any fun t => t.parentBlock == uid && (t.state == 1 || t.state == 2)) = false) :
    Happens (.phaseReady uid) s (s.modBlock uid fun b =>
      { b with st := .phase true, readySince := s.time, readyCyc := s.homeCycle (s.gridOf b).launch.queue }) := by
  refine happens_of rfl ?_
  simp only [hb, hst, hidle, BEq.rfl, Bool.not_false, Bool.true_and]
  cases hwc : b.phase.any PhaseOp.wc
  · simp only [Bool.false_and, Bool.not_false, if_true]
  · obtain ⟨hgrids, htasks⟩ := hwait hwc
    simp only [hgrids, htasks, Bool.or_self, Bool.and_false, Bool.not_false, if_true]

/-- A ready phase on its core leaves it for work of higher priority, or where the pool lacks its wells, and else begins (R189). -/
theorem phaseStart_happens {s : State} {uid : Nat} {b : Block} (hb : s.block? uid = some b) (hst : b.st = .phase true)
    (hcore : s.holdsCore b = true) :
    let spilled := spillFor { b := b, seat := .phase, cores := [] } (coreCluster b.core) s.blocks.length s
    (s.higherWaits b = true → Happens (.phaseStart uid) s (s.phaseLeave uid)) ∧
    (∀ s1 t, s.higherWaits b = false → spilled = some s1 → s1.phaseBegin uid b.core = some t → Happens (.phaseStart uid) s t) ∧
    (s.higherWaits b = false → spilled = none → Happens (.phaseStart uid) s (s.phaseLeave uid)) := by
  refine ⟨fun hhigher => happens_of rfl ?_, fun s1 t hhigher hspill hbegin => happens_of rfl ?_,
    fun hhigher hspill => happens_of rfl ?_⟩
  · simp only [hb, hst, hcore, hhigher, BEq.rfl, Bool.and_self, Bool.not_true, Bool.false_eq_true, if_false, if_true]
  · simp only [hb, hst, hcore, hhigher, hspill, hbegin, BEq.rfl, Bool.and_self, Bool.not_true, Bool.false_eq_true, if_false]
  · simp only [hb, hst, hcore, hhigher, hspill, BEq.rfl, Bool.and_self, Bool.not_true, Bool.false_eq_true, if_false]

theorem completionEvents : CompletionEvents := by
  refine ⟨fun s uid wid w => warpRelease_happens, fun s uid b => blockRetire_happens, fun s gid g => gridRetire_happens,
    fun s s1 parent p c hp hc hst hgo => ?fold, fun s uid b => phaseReady_happens, fun s s1 t uid b hb hst hcore => ?start,
    fun s t ht hdue => happens_of rfl ?boundary⟩
  case fold =>
    obtain ⟨hlost, hmerged⟩ := childFold_happens hp hc hst hgo
    exact ⟨hlost, hmerged s1⟩
  case start =>
    obtain ⟨hhigher, hbegins, hlacks⟩ := phaseStart_happens hb hst hcore
    exact ⟨hhigher, hbegins s1 t, hlacks⟩
  case boundary => simp only [ht, Nat.not_lt.mpr hdue, if_false]

/-- Settles O46: each event passes its conditions. -/
theorem distributionEvents : Obligations.DistributionEvents := by
  unfold Obligations.DistributionEvents
  exact ⟨placementEvents, completionEvents⟩

end Sys2Proof

/-! PROOFS. Loads and stores (O30), the values that atomics leave (O32), synchronising instructions (O33), and what the issue of a
memory instruction leaves alone (O52). Each goes on with its lanes' targets once they are in reach (`withTargets_ok`,
Laws/Bodies.lean), after which a release or an acquire that need not wait goes on (Laws/Issue.lean). -/

namespace Sys2Proof

open Sys2Proof.Machine Sys2Proof.Claims

/-! ### Loads and stores (R219 to R222) -/

/-- A load whose lanes have all started owes its result (R214). -/
theorem loadAll_of {s s2 : State} {c : Ic} {f : MemForm} {ts : List (Nat × Target)} {ps : List Piece} {ls : List Nat}
    (h : State.loadLanes { s with nextId := s.nextId + 1 } c f s.nextId ts 0 = (some (ps, ls), s2)) :
    s.loadAll c f ts = .next (((if ps.any Piece.ready then s2.servedBy c.w.core s.nextId 1 else s2).noteBytes c f false ts).oweAs
      { id := s.nextId, uid := c.w.uid, wid := c.w.wid, pieces := ps, lanes := ls }) := by
  simp only [State.loadAll, h]

theorem loads : Loads := by
  intro f
  refine ⟨?ld, ?ldc, ?prf⟩
  case ld =>
    refine follows_of _ (fun _ => rfl) fun c s t h => ?_
    obtain ⟨ts, s1, ps, ls, s2, hreach, hload, rfl⟩ := h
    exact (withTargets_ok hreach).trans (loadAll_of hload)
  case ldc =>
    refine follows_of _ (fun _ => rfl) fun c s t h => ?_
    obtain ⟨ts, s1, ps, ls, s2, hreach, hload, rfl⟩ := h
    simp only [hreach]
    exact loadAll_of hload
  case prf =>
    refine performs_of _ (fun _ => rfl) fun c s _ => ?_
    dsimp only
    split <;> rfl

theorem stores : Stores := by
  intro f
  refine follows_of _ (fun _ => rfl) fun c s t h => ?_
  obtain ⟨ts, s1, hreach, u, hstore, rfl⟩ := h
  rw [withTargets_ok hreach]
  simp only [hstore]

/-- Settles O30: with every lane in reach, each goes on with the lanes' targets, of which `prf` drops the bad ones. -/
theorem loadAndStoreInstructions : Obligations.LoadAndStoreInstructions := by
  unfold Obligations.LoadAndStoreInstructions
  exact ⟨loads, stores⟩

/-! ### What an atomic leaves at its location (R224, R226) -/

theorem rmw_fits {n old v : Nat} (op : Nat) (signed : Bool) (hold : old < 2 ^ (8 * n)) (hv : v < 2 ^ (8 * n)) :
    strongNew (.rmw op signed) n old v < 2 ^ (8 * n) := by
  unfold strongNew
  dsimp only
  split
  · exact Nat.mod_lt _ (by omega)
  · split <;> omega
  · split <;> omega
  · exact iteInduction (motive := (· < 2 ^ (8 * n))) (fun _ => hold) fun _ => hv
  · exact iteInduction (motive := (· < 2 ^ (8 * n))) (fun _ => hold) fun _ => hv
  · exact Nat.and_lt_two_pow _ hv
  · exact Nat.or_lt_two_pow hold hv
  · exact Nat.xor_lt_two_pow hold hv

/-- Minimum and maximum give one of the two values, however they are compared. -/
theorem rmw_minMax {op : Nat} (hop : op ∈ [3, 4]) (signed : Bool) (n old v : Nat) :
    strongNew (.rmw op signed) n old v = old ∨ strongNew (.rmw op signed) n old v = v := by
  simp only [List.mem_cons, List.not_mem_nil, or_false] at hop
  rcases hop with rfl | rfl
  · exact iteInduction (motive := fun x => x = old ∨ x = v) (fun _ => .inl rfl) fun _ => .inr rfl
  · exact iteInduction (motive := fun x => x = old ∨ x = v) (fun _ => .inl rfl) fun _ => .inr rfl

/-- The counters up and down wrap at the operand. -/
theorem rmw_counter {op old v : Nat} (hop : op ∈ [1, 2]) (signed : Bool) (n : Nat) (h : old ≤ v) :
    strongNew (.rmw op signed) n old v ≤ v := by
  simp only [List.mem_cons, List.not_mem_nil, or_false] at hop
  rcases hop with rfl | rfl
  · show (if v ≤ old then 0 else old + 1) ≤ v
    split <;> omega
  · show (if old = 0 ∨ v < old then v else old - 1) ≤ v
    split <;> omega

theorem cas_differs {n old : Nat} {x : BitVec 64} (h : old ≠ x.toNat % 2 ^ (8 * n)) (v : Nat) :
    strongNew (.cas x) n old v = old ∧ strongWrites (.cas x) n old = false :=
  ⟨if_neg h, beq_eq_false_iff_ne.mpr h⟩

/-- Settles O32: operation by operation. -/
theorem atomicValues : Obligations.AtomicValues := by
  unfold Obligations.AtomicValues
  intro n old v signed _ hold hv
  exact ⟨fun op _ => rmw_fits op signed hold hv, fun x hx => cas_differs hx v, fun sg => ⟨rfl, rfl⟩,
    fun op hop => rmw_minMax hop signed n old v, fun h op hop => rmw_counter hop signed n h, Nat.mod_mod _ _⟩

/-! ### Relaxed atomics and paired accesses (R224, R226, R227, R302) -/

theorem relaxed_of {i : Instr} {f : MemForm} {k : Ic → StrongKind} (he : ∀ s, exec i s = relaxed i f s k) : Relaxed i f k := by
  refine follows_of _ (fun s => (he s).trans rfl) fun c s t h => ?_
  obtain ⟨ts, s1, hreach, rfl⟩ := h
  exact withTargets_ok hreach

theorem relaxedAtomics : RelaxedAtomics := by
  intro f
  refine ⟨?atc, ?redc, ?ata, ?reda, ?ldf, ?stf, ?atx, ?cas⟩
  case atc | redc => exact relaxed_of fun _ => rfl
  case ata | reda => exact relaxed_of fun _ => rfl
  case ldf | stf => exact relaxed_of fun _ => rfl
  case atx | cas => exact relaxed_of fun _ => rfl

/-- The state in which the lanes of a paired access near its core have asked for what they need, for the first time or again
(R302). -/
def pairedAsked (u : State) (c : Ic) (f : MemForm) (k : StrongKind) (ts : List (Nat × Target)) (w : Warp) : State :=
  (u.pairedAskAll c f k (!w.flushed) ts).modWarp c.w.uid c.w.wid fun w => { w with flushed := true }

/-- A paired access near its core, once its checks and its bytes are in: it releases and is performed there (R302). -/
theorem pairedNear_ready {u : State} {c : Ic} {f : MemForm} {k : StrongKind} {ts : List (Nat × Target)} {w w' : Warp}
    (hw : u.warp? c.w.uid c.w.wid = some w) (hroom : w.flushed = true ∨ ∀ x ∈ ts, (u.pairedAsk c f k false x).isSome = true)
    (hw' : (pairedAsked u c f k ts w).warp? c.w.uid c.w.wid = some w') (hchecks : w'.checks = []) (hdeferred : w'.deferred = [])
    (hhas : ∀ x ∈ ts, (pairedAsked u c f k ts w).pairedHas c f k x = true)
    (hgood : (pairedAsked u c f k ts w).pairedBad c f k ts = none) :
    let y := pairedAsked u c f k ts w
    let z := if k.release then y.releaseNow c.w.uid c.w.wid f.scope else y
    u.pairedNear c f k ts = .next ((z.laneOrder ts).2.pairedAll c f k (z.laneOrder ts).1) := by
  obtain ⟨hu, hn⟩ := warp?_ids hw
  obtain ⟨hu', hn'⟩ := warp?_ids hw'
  have hany : (!w.flushed && ts.any fun x => !(u.pairedAsk c f k false x).isSome) = false := by
    rcases hroom with h | h
    · simp [h]
    · simpa [Option.isSome_iff_ne_none] using fun _ a b => h (a, b)
  unfold pairedAsked at *
  unfold State.pairedNear
  simp only [hw, hany, hu, hn, hw', hu', hn', hchecks, hdeferred, List.all_eq_true.mpr hhas, hgood, List.all_nil, List.isEmpty_nil,
    Bool.not_true, Bool.or_self, Bool.false_eq_true, if_false]

/-- What a paired access waits for is in: it goes on, its write-backs out where it releases. -/
theorem paired_ready {s : State} {c : Ic} {scope : Scope} {rel : Bool}
    (h : (if rel then releaseReady s c scope else ringReady s c) = true) (go : State → Res) :
    (if rel then withWritten s c scope go else withRing s c fun _ => go s) = go (if rel then released s c scope else s) := by
  cases rel with
  | true => exact withWritten_ready h _
  | false => exact withRing_ready h fun _ => go s

theorem paired_of {i : Instr} {f : MemForm} {k : Ic → StrongKind} (he : ∀ s, exec i s = paired i f s k) : Paired i f k := by
  refine follows_of _ (fun s => (he s).trans rfl) fun c s t h => ?_
  obtain ⟨ts, s1, hreach, hready, h⟩ := h
  rw [withTargets_ok hreach]
  dsimp only at h ⊢
  rw [paired_ready hready]
  generalize (if (k c).release then released s1 c f.scope else s1) = u at h
  split at h
  · next hwide =>
    rw [if_pos hwide, h]
  · next hnear =>
    obtain ⟨w, w', hw, hroom, hw', hchecks, hdeferred, hhas, hgood, rfl⟩ := h
    rw [if_neg hnear]
    exact pairedNear_ready hw hroom hw' hchecks hdeferred hhas hgood

theorem pairedAccesses : PairedAccesses := by
  intro f
  refine ⟨?lda, ?stl, ?xar, ?car⟩
  case lda | stl => exact paired_of fun _ => rfl
  case xar | car => exact paired_of fun _ => rfl

/-! ### Fences (R229, R303) -/

theorem fences : Fences := by
  intro f
  refine performs_of _ (fun _ => rfl) fun c s h => ?_
  by_cases hacq : f.aop = 0
  · rw [if_pos hacq] at h
    simp only [hacq]
    exact withRing_ready h _
  · rw [if_neg hacq] at h
    have hpos : f.aop.toNat ≠ 0 := fun h0 => hacq (BitVec.eq_of_toNat_eq h0)
    dsimp only
    generalize f.aop.toNat = n at hpos ⊢
    match n, hpos with
    | 0, hpos => exact absurd rfl hpos
    | 1, _ => exact withRelease_ready h _
    | 2, _ => exact withRelease_ready h _
    | _ + 3, _ => exact withRelease_ready h _

/-- Settles O33: the lanes of an atomic go to their homes or are performed in the L1, and a fence is its release and its acquire. -/
theorem synchronisingInstructions : Obligations.SynchronisingInstructions := by
  unfold Obligations.SynchronisingInstructions
  exact ⟨relaxedAtomics, pairedAccesses, fences⟩

/-! ### What an issue leaves alone (R214, R227, R381) -/

theorem SameData.prefetchL2 (s : State) (c : Ic) (x : Xlat) (va : Nat) : SameData false s (s.prefetchL2 c x va) := by
  unfold State.prefetchL2
  split
  · exact (SameData.forward _ _ _ _ _ _ _).trans (SameData.send _ _)
  · exact SameData.refl _ _

theorem SameData.noteFence (s : State) (c : Ic) (scope : Scope) : SameData false s (s.noteFence c scope) :=
  SameData.touch _ _ _ _ fun _ => ⟨rfl, rfl, rfl, rfl, rfl, rfl⟩

theorem load_frame {f : MemForm} {s t : State} {c : Ic} (hc : s.issueCtx (common (.ld f)) = some c) (h : exec (.ld f) s = .next t)
    (hu : Unfaulted t c) : SameData false s t :=
  run_frame hc (keeps_withTargets fun ts s => keeps_loadAll s _ f ts) h hu

theorem constLoad_frame {f : MemForm} {s t : State} {c : Ic} (hc : s.issueCtx (common (.ldc f)) = some c)
    (h : exec (.ldc f) s = .next t) (hu : Unfaulted t c) : SameData false s t := by
  refine run_frame hc ?_ h hu
  dsimp only
  split
  · exact (keeps_loadAll _ _ f _).mono (SameData.constTargets _ _ _ _)
  · exact keeps_laneFault _ _ _ _ _ _

theorem prefetch_frame {f : MemForm} {s t : State} {c : Ic} (hc : s.issueCtx (common (.prf f)) = some c)
    (h : exec (.prf f) s = .next t) (hu : Unfaulted t c) : SameData false s t := by
  refine run_frame hc ?_ h hu
  dsimp only
  split
  · refine (SameData.resolveLanes _ _ _ _ _).trans (SameData.foldl _ (fun s x => ?_) _ _)
    split
    · exact SameData.prefetchL2 _ _ _ _
    · exact SameData.refl _ _
  · refine (SameData.resolveLanes _ _ _ _ _).trans (SameData.foldl _ (fun s x => ?_) _ _)
    split
    · exact SameData.prefetch _ _ _ _
    · exact SameData.refl _ _

theorem store_frame {f : MemForm} {s t : State} {c : Ic} (hc : s.issueCtx (common (.st f)) = some c)
    (h : exec (.st f) s = .next t) (hu : Unfaulted t c) : SameData false s t := by
  refine run_frame hc (keeps_withTargets fun ts s => ?_) h hu
  generalize enteredIc (.st f) _ c = c
  have hstored : SameData false s ((s.laneOrder ts).2.storeLanes c f (s.laneOrder ts).1).2 :=
    (SameData.laneOrder s ts).trans (SameData.storeLanes _ c f _)
  dsimp only
  split
  · next e =>
    rw [e] at hstored
    refine SameData.trans ?_ (SameData.noteBytes _ _ _ _ _)
    split
    · exact hstored.trans (SameData.servedBy _ _ _ _)
    · exact hstored
  · next e =>
    rw [e] at hstored
    exact hstored.trans SameData.of_eq

theorem fence_frame {f : MemForm} {s t : State} {c : Ic} (hc : s.issueCtx (common (.fence f)) = some c)
    (h : exec (.fence f) s = .next t) (hu : Unfaulted t c) : SameData false s t := by
  refine run_frame hc ?_ h hu
  dsimp only
  split
  · exact keeps_withRing (SameData.acquireEnd _ _ _ _ _)
  · exact keeps_withRelease fun s => SameData.noteFence _ _ _
  · exact keeps_withRelease fun s => (SameData.noteFence _ _ _).trans (SameData.acquire _ _ _ _ _)
  · exact keeps_withRelease fun s => ((SameData.noteFence _ _ _).trans (SameData.acquire _ _ _ _ _)).trans SameData.of_eq

/-- Settles O52: each by the frame of what it answers; what it reads, writes or sends is bookkeeping until an event performs it. -/
theorem memoryIssueFrame : Obligations.MemoryIssueFrame := by
  unfold Obligations.MemoryIssueFrame
  intro f i s t c hi hissue h hu
  have hc := hissue.ctx
  simp only [List.mem_cons, List.not_mem_nil, or_false] at hi
  rcases hi with rfl | rfl | rfl | rfl | rfl | rfl | rfl | rfl | rfl | rfl | rfl | rfl | rfl | rfl | rfl | rfl | rfl
  · exact load_frame hc h hu
  · exact constLoad_frame hc h hu
  · exact prefetch_frame hc h hu
  · exact store_frame hc h hu
  -- the paired accesses, then the relaxed atomics
  iterate 4 exact keeps_paired hc h hu
  iterate 8 exact relaxed_frame hc h hu
  exact fence_frame hc h hu

end Sys2Proof

/-! PROOFS. What a stored lane leaves in its core's L1 (O31): lines of an L1 after changes of a core, the data that a line holds
through what a store does besides, and the bytes that it writes. -/

namespace Sys2Proof

open Sys2Proof.Machine

/-! ### Lines of an L1 after a change of a core -/

theorem core_id (s : State) (n : Nat) : (s.core n).id = n := by
  unfold State.core
  cases h : s.cores.find? fun c => c.id == n with
  | none => rfl
  | some c => simpa using List.find?_some h

theorem find?_replaceCore (c : Core) (cs : List Core) (n : Nat) :
    (replaceIf (fun x => x.id == c.id) (fun _ => c) cs).find? (fun x => x.id == n) =
      (cs.find? fun x => x.id == n).map fun x => if x.id == c.id then c else x := by
  induction cs with
  | nil => rfl
  | cons x xs ih =>
    simp only [replaceIf, List.map_cons, List.find?_cons] at ih ⊢
    by_cases hx : x.id = c.id
    · simp only [hx, BEq.rfl, if_true, ih]
      cases h : (c.id == n) <;> simp [hx]
    · simp only [beq_eq_false_iff_ne.mpr hx, Bool.false_eq_true, if_false, ih]
      cases h : (x.id == n) <;> simp [hx]

/-- A core that has been put reads as it is, every other as before. -/
theorem core_setCore (s : State) (c : Core) (n : Nat) : (s.setCore c).core n = if n = c.id then c else s.core n := by
  unfold State.setCore
  split
  · next h =>
    obtain ⟨x, hx, hid⟩ := List.any_eq_true.mp h
    unfold State.core
    rw [find?_replaceCore]
    cases hn : s.cores.find? fun x => x.id == n with
    | none =>
      have hne : n ≠ c.id := fun e => List.find?_eq_none.mp hn x hx (e ▸ hid)
      rw [if_neg hne]
      rfl
    | some y =>
      have hy : y.id = n := by simpa using List.find?_some hn
      simp [hy]
  · next h =>
    have hnone : s.cores.find? (fun x => x.id == c.id) = none :=
      List.find?_eq_none.mpr fun x hx hid => h (List.any_eq_true.mpr ⟨x, hx, hid⟩)
    unfold State.core
    rw [List.find?_append]
    split
    · next e => simp [e, hnone]
    · next e => simp [Ne.symm e]

theorem core_modCore {f : Core → Core} (hf : ∀ c, (f c).id = c.id) (s : State) (k n : Nat) :
    (s.modCore k f).core n = if n = k then f (s.core n) else s.core n := by
  have hid : (f (s.core k)).id = k := (hf _).trans (core_id s k)
  rw [State.modCore, core_setCore, hid]
  exact ite_congr rfl (fun e => by rw [e]) fun _ => rfl

/-- A change of lines that keeps their names. -/
theorem l1?_l1Mod {g : L1Line → L1Line} (hg : ∀ x, (g x).ctx = x.ctx ∧ (g x).line = x.line) (s : State)
    (k ctx line core ctx' line' : Nat) : (s.l1Mod k ctx line g).l1? core ctx' line' =
      (s.l1? core ctx' line').map fun x => if core = k ∧ x.is ctx line = true then g x else x := by
  unfold State.l1? State.l1Mod
  rw [core_modCore]
  case hf => exact fun _ => rfl
  split
  · next h =>
    simp only [h, true_and]
    exact find?_replaceIf _ _ _ (fun x => by simp only [L1Line.is, hg]) _
  · next h => simp [h]

theorem l1?_l1Put (s : State) (core : Nat) (x : L1Line) : (s.l1Put core x).l1? core x.ctx x.line = some x := by
  unfold State.l1? State.l1Put
  rw [core_modCore, if_pos rfl]
  case hf => exact fun _ => rfl
  simp [L1Line.is]

/-! ### The data of a line -/

/-- The data of the line of a name that a core's L1 holds. -/
def heldData (s : State) (core ctx line : Nat) : Option (BitVec 512) := (s.l1? core ctx line).map L1Line.data

theorem heldData_of_cores {s t : State} (h : t.cores = s.cores) (core ctx line : Nat) :
    heldData t core ctx line = heldData s core ctx line := by
  unfold heldData State.l1? State.core
  rw [h]

/-- A change of what a line holds beside its data. -/
theorem heldData_l1Mod {g : L1Line → L1Line} (hg : ∀ x, (g x).ctx = x.ctx ∧ (g x).line = x.line ∧ (g x).data = x.data)
    (s : State) (k ctx line core ctx' line' : Nat) :
    heldData (s.l1Mod k ctx line g) core ctx' line' = heldData s core ctx' line' := by
  unfold heldData
  rw [l1?_l1Mod fun x => ⟨(hg x).1, (hg x).2.1⟩, Option.map_map]
  refine congrArg (Option.map · _) (funext fun x => ?_)
  dsimp only [Function.comp_apply]
  split
  · exact (hg x).2.2
  · rfl

theorem cores_forward (s : State) (core ctx va loc pa : Nat) (tpin : Bool) :
    (s.forward core ctx va loc pa tpin).cores = s.cores := by
  unfold State.forward
  split <;> rfl

theorem cores_foldl {α : Type} {f : State → α → State} (hf : ∀ s x, (f s x).cores = s.cores) (l : List α) (s : State) :
    (l.foldl f s).cores = s.cores := by
  induction l generalizing s with
  | nil => rfl
  | cons a t ih => exact (ih _).trans (hf s a)

theorem heldData_writeBack (s : State) (k ctx line core ctx' line' : Nat) :
    heldData (s.writeBack k ctx line) core ctx' line' = heldData s core ctx' line' := by
  unfold State.writeBack
  split
  · rfl
  split
  · rfl
  · dsimp only
    rw [heldData_l1Mod]
    case hg => exact fun _ => ⟨rfl, rfl, rfl⟩
    refine heldData_of_cores ?_ _ _ _
    rw [cores_forward, cores_foldl fun _ _ => State.modWarp_cores _ _ _ _]
    rfl

/-- What a store notes besides: the line has lost its releases, and is one of its warp's dirty lines. -/
theorem heldData_noted (s : State) (place : Option Nat) (a : Nat) (mask : BitVec 64) (u n : Nat) (g : Warp → Warp)
    (core ctx line : Nat) : heldData ((s.relsDrop place a mask).modWarp u n g) core ctx line = heldData s core ctx line :=
  heldData_of_cores rfl _ _ _

theorem heldData_linePage (s : State) (c : Ic) (x : Xlat) (va : BitVec 64) (store : Bool) (core ctx line : Nat) :
    heldData (s.linePage c x va store) core ctx line = heldData s core ctx line := by
  unfold State.linePage
  dsimp only
  rw [heldData_l1Mod fun y => ?_]
  · split
    · exact heldData_writeBack _ _ _ _ _ _ _
    · rfl
  · split <;> exact ⟨rfl, rfl, rfl⟩

theorem heldData_checkData (s : State) (c : Ic) (a : Access) (core ctx line : Nat) :
    heldData (s.checkData c a) core ctx line = heldData s core ctx line := by
  unfold State.checkData
  split
  · split
    · rfl
    · rw [heldData_l1Mod fun y => ?_]
      · rfl
      · unfold L1Line.owned
        dsimp only
        repeat' split
        all_goals exact ⟨rfl, rfl, rfl⟩
  · rfl

/-- A set that has a way to give holds the line, with the data that it had if it was there (R379). -/
theorem l1Room_holds {s t : State} {core ctx line : Nat} (h : s.l1Room core ctx line = some t) :
    ∃ y, t.l1? core ctx line = some y ∧ ∀ x, s.l1? core ctx line = some x → y.data = x.data := by
  unfold State.l1Room at h
  split at h
  · next x hx =>
    cases h
    have his : x.ctx = ctx ∧ x.line = line := by simpa [L1Line.is] using List.find?_some hx
    obtain ⟨rfl, rfl⟩ := his
    exact ⟨x, l1?_l1Put s core x, fun y hy => by rw [hx] at hy; cases hy; rfl⟩
  · next hx =>
    refine ⟨{ ctx := ctx, line := line }, ?_, fun y hy => by simp [hx] at hy⟩
    dsimp only at h
    split at h
    · cases h
      exact l1?_l1Put _ core _
    · split at h
      · cases h
      · cases h
        exact l1?_l1Put _ core _

/-! ### Bytes of a stored line -/

/-- The data of a line when bytes have been stored (R381). -/
def storedData (off : Nat) (bs : List Byte) (d : BitVec 512) : BitVec 512 :=
  (List.range bs.length).foldl (fun (d : BitVec 512) k => setLineByte d (off + k) (bs.getD k 0)) d

theorem store_data (y : L1Line) (off : Nat) (bs : List Byte) : (y.store off bs).data = storedData off bs y.data := rfl

theorem heldData_store (s : State) (core ctx line off : Nat) (bs : List Byte) :
    heldData (s.l1Mod core ctx line fun y => y.store off bs) core ctx line =
      (heldData s core ctx line).map (storedData off bs) := by
  unfold heldData
  rw [l1?_l1Mod, Option.map_map, Option.map_map]
  case hg => exact fun _ => ⟨rfl, rfl⟩
  refine Option.map_congr fun y hy => ?_
  have his : y.is ctx line = true := List.find?_some (p := fun x : L1Line => x.is ctx line) hy
  rw [Function.comp_apply, if_pos ⟨rfl, his⟩]
  rfl

theorem lineByte_storedData (off : Nat) (bs : List Byte) (d : BitVec 512) {k : Nat} (hk : k < 64) :
    lineByte (storedData off bs d) k = if off ≤ k ∧ k < off + bs.length then bs.getD (k - off) 0 else lineByte d k := by
  have h (n : Nat) : lineByte ((List.range n).foldl (fun (d : BitVec 512) k => setLineByte d (off + k) (bs.getD k 0)) d) k =
      if off ≤ k ∧ k < off + n then bs.getD (k - off) 0 else lineByte d k := by
    induction n with
    | zero => rw [if_neg (by omega)]; rfl
    | succ n ih =>
      rw [List.range_succ, List.foldl_append, List.foldl_cons, List.foldl_nil, lineByte_setLineByte _ _ _ hk, ih]
      by_cases hlast : k = off + n
      · rw [if_pos hlast, if_pos (by omega), hlast, Nat.add_sub_cancel_left]
      · rw [if_neg hlast]
        exact ite_congr (propext (by omega)) (fun _ => rfl) fun _ => rfl
  exact h _

/-- A stored lane whose line is in its core's L1 leaves there the line's data with its bytes. -/
theorem storeLane_data {s t : State} {c : Ic} {f : MemForm} {l va : Nat} {x : Xlat} (hio : x.loc ≠ locIO)
    (h : s.storeLane c f l (.mem x va) = some t) :
    ∃ y : L1Line, (∀ x', s.l1? c.w.core c.b.ctx (lineOf x.pa) = some x' → y.data = x'.data) ∧ y.ctx = c.b.ctx ∧
      y.line = lineOf x.pa ∧ heldData t c.w.core c.b.ctx (lineOf x.pa) =
        some (storedData (x.pa % 64) (bytesOfNat (widthBytes f.width) (memReg c f f.data l)) y.data) := by
  unfold State.storeLane at h
  simp only [hio, if_false] at h
  obtain ⟨s1, hroom, rfl⟩ := Option.map_eq_some_iff.mp h
  obtain ⟨y, hy, hsame⟩ := l1Room_holds hroom
  have hnamed : y.ctx = c.b.ctx ∧ y.line = lineOf x.pa := by simpa [L1Line.is] using List.find?_some hy
  refine ⟨y, hsame, hnamed.1, hnamed.2, ?_⟩
  have hstored := heldData_store (s1.linePage c x (BitVec.ofNat 64 va) true) c.w.core c.b.ctx (lineOf x.pa) (x.pa % 64)
    (bytesOfNat (widthBytes f.width) (memReg c f f.data l))
  have hheld : heldData s1 c.w.core c.b.ctx (lineOf x.pa) = some y.data := by rw [heldData, hy, Option.map_some]
  rw [heldData_linePage, hheld] at hstored
  split
  · rw [heldData_checkData, heldData_noted, hstored]
    rfl
  · rw [heldData_noted, hstored]
    rfl

/-- Settles O31: room in the L1 gives the line, then the store changes its bytes, and all else that it does is bookkeeping. -/
theorem storeFrame : Obligations.StoreFrame := by
  unfold Obligations.StoreFrame
  intro s t c f l va x hio _ h
  obtain ⟨⟨hmem, hwells, hfull, -⟩, -⟩ := SameData.storeLane (fl := false) h
  refine ⟨hmem, hwells, hfull, fun y hy => ?_⟩
  obtain ⟨y0, hsame, hctx, hline, hdata⟩ := storeLane_data hio h
  refine ⟨y0, hctx, hline, fun y1 hy1 => hsame y1 hy1, fun k hk => ?_⟩
  rw [heldData, hy, Option.map_some, Option.some_inj] at hdata
  rw [hdata, lineByte_storedData _ _ _ hk, length_bytesOfNat]

end Sys2Proof

/-! PROOFS. Well instructions (O35) and engine commands (O36): each passes its own checks, in the order in which it makes them, and
then its effect or its issue follows. -/

namespace Sys2Proof

open Sys2Proof.Machine Sys2Proof.Claims

/-! ### Well instructions (R230 to R236) -/

theorem fullEmptyAccesses : FullEmptyAccesses := by
  intro f
  refine ⟨?ldfe, ?stfe⟩
  case ldfe =>
    refine ends_of _ (fun _ => rfl) fun c s t h => .inl ?_
    obtain ⟨ts, s1, hreach, hready, hgood, rfl⟩ := h
    refine ⟨_, _, (withTargets_ok hreach).trans ((withRing_ready hready _).trans ?_), rfl⟩
    simp only [hgood]
  case stfe =>
    refine ends_of _ (fun _ => rfl) fun c s t h => .inl ?_
    obtain ⟨ts, s1, hreach, hready, rfl⟩ := h
    exact ⟨_, _, (withTargets_ok hreach).trans (withRelease_ready hready _), rfl⟩

theorem wellFill : WellFill := by
  intro f
  refine performs_of _ (fun _ => rfl) fun c s h => ?_
  simp only [Bool.and_eq_true, Bool.or_eq_true, decide_eq_true_eq, beq_iff_eq] at h
  obtain ⟨⟨⟨haddr, hlen, hrange⟩, hmapped⟩, hready⟩ := h
  have hattached : (decide ((c.w.sget f.cmp.toNat).toNat ≠ 0)
      && !c.b.wellMapped (memAddr c f c.lane0).toNat (c.w.sget f.cmp.toNat).toNat) = false := by
    rcases hmapped with h | h <;> simp [h]
  simp only [haddr, hlen, Nat.not_lt.mpr hrange, hattached, ne_eq, not_true_eq_false, or_self, Bool.false_eq_true, if_false,
    withRelease_ready hready]

theorem giveBegins : GiveBegins := by
  intro f
  refine begins_of _ (fun _ => rfl) fun c s t h => ?_
  obtain ⟨e, hnone, hbank, hwhole, hk, hctx, hring, hroom, hready, rfl⟩ := h
  have hfirst : (s.gives.any fun g => g.uid == c.w.uid && g.wid == c.w.wid) = false :=
    List.any_eq_false.mpr fun g hg => by simpa using hnone g hg
  simp only [hfirst, hbank, hwhole, Nat.not_lt.mpr hk, hctx, hring, Nat.not_le.mpr hroom, withWritten_ready hready, ne_eq,
    not_true_eq_false, decide_false, Bool.not_true, Bool.or_self, Bool.false_eq_true, if_false]

theorem takeAndWmap : TakeAndWmap := by
  intro f
  refine ⟨?take, ?wmap⟩
  case take =>
    refine performs_of _ (fun _ => rfl) fun c s h => ?_
    obtain ⟨hfree, hready⟩ := Bool.and_eq_true_iff.mp h
    simp only [Option.isNone_iff_eq_none.mp hfree, Option.isSome_none, Bool.false_eq_true, if_false, withRing_ready hready]
  case wmap => exact performs_of _ (fun _ => rfl) fun _ _ _ => rfl

/-- Settles O35: each instruction's own conditions, and its release or acquire, which need not wait. -/
theorem wellInstructions : Obligations.WellInstructions := by
  unfold Obligations.WellInstructions
  exact ⟨fullEmptyAccesses, wellFill, giveBegins, takeAndWmap⟩

/-! ### Checks at issue (R43, R237, R245) -/

/-- A check that finds nothing. -/
@[simp] theorem bad_eq_none_iff (c : Ic) (cond : Bool) (code : FaultCode) (a : BitVec 64) (acc : Nat) :
    c.bad cond code a acc = none ↔ cond = false := by
  unfold Ic.bad
  split <;> simp_all

/-- The counter's well range of a counted copy, which only such a copy has (R245). -/
theorem countRange_none {cnt : Bool} {x : Option FaultRec} (h : cnt = true → x = none) : (if cnt then x else none) = none := by
  split
  · exact h ‹_›
  · rfl

theorem firstBadRange_pair {x y : Option FaultRec} (hx : x = none) (hy : y = none) : firstBadRange [x, y] = none := by
  rw [hx, hy]
  rfl

/-- A range of the global window has its base in no other window (R41, R43). -/
theorem wstoreBase?_of_inGlobal {a : BitVec 64} {n : Nat} (h : inGlobal a n = true) (s : State) (c : Ic) (write : Bool) :
    s.wstoreBase? c a write = none := by
  have hlow : a.toNat < 0x007FFC0000000000 := by
    simp only [inGlobal, decide_eq_true_eq] at h
    omega
  have hwindow (o : Nat) : windowOf a ≠ .wstore o := by
    unfold windowOf
    dsimp only
    rw [if_neg (c := 0x007FFC0000000000 ≤ a.toNat ∧ _) (by omega)]
    split
    · exact nofun
    repeat' split
    all_goals exact nofun
  unfold State.wstoreBase?
  split
  · exact absurd ‹_› (hwindow _)
  · rfl

/-- A command that has read its record goes on with it (R237). -/
theorem withRecord_read {s t : State} {c : Ic} {i : Instr} {a : BitVec 64} {n v : Nat} {k : Nat → State → Res}
    (h : lineRead s c i a n v t) : withRecord s c i a n k = k v t := by
  obtain ⟨halign, bs, hread, rfl⟩ := h
  exact withRecord_ok halign hread

theorem withTensor_read {s t : State} {c : Ic} {i : Instr} {f : EngForm} {v : Nat} {x : Tensor}
    {k : Nat → Tensor → State → Res} (h : tensorRead s c i f v x t) : withTensor s c i f.record.toNat k = k v x t := by
  obtain ⟨hread, hx⟩ := h
  exact (withRecord_read hread).trans (by simp only [hx])

/-- An amount that must be a multiple of something, if it is used at all. -/
theorem and_bne_zero {b : Bool} {n : Nat} (h : b = true → n = 0) : (b && n != 0) = false := by
  cases b
  · rfl
  · simpa using h rfl

/-- The length of a copy of whole lines (R245). -/
theorem copyLength_good {n : Nat} (hn : n % 64 = 0) (hmax : n < 2 ^ 31) : (n % 64 != 0 || decide (2 ^ 31 ≤ n)) = false :=
  Bool.or_eq_false_iff.mpr ⟨bne_eq_false_iff_eq.mpr hn, decide_eq_false (Nat.not_le.mpr hmax)⟩

/-! ### Asynchronous copies (R43, R233, R245) -/

theorem asynchronousCopies : AsynchronousCopies := by
  intro f
  refine ⟨?acopy, ?weights, ?band, ?tensor⟩
  case acopy =>
    refine follows_of _ (fun _ => rfl) fun c s t h => ?_
    obtain ⟨hmin, hmax, hn, hga, hwo, hso, hwell, hcount, hbase, rfl⟩ := h
    have hlen : (f.imm.toNat < 16 || 786432 < f.imm.toNat || f.imm.toNat % 16 != 0) = false := by
      simp [Nat.not_lt.mpr hmin, Nat.not_lt.mpr hmax, hn]
    have hranges := firstBadRange_pair hwell (countRange_none hcount)
    refine startCommand_of ?_
    simp only [List.forall_mem_cons, bad_eq_none_iff]
    exact ⟨hlen, bne_eq_false_iff_eq.mpr hga, bne_eq_false_iff_eq.mpr hwo, and_bne_zero hso, hranges, hbase, nofun⟩
  case weights =>
    refine follows_of _ (fun _ => rfl) fun c s t h => ?_
    obtain ⟨hn, hmax, hga, hdst, ⟨o, hwindow, hend⟩, hload, hbase, rfl⟩ := h
    refine startCommand_of ?_
    simp only [List.forall_mem_cons, bad_eq_none_iff]
    refine ⟨copyLength_good hn hmax, bne_eq_false_iff_eq.mpr hga, bne_eq_false_iff_eq.mpr hdst, ?window, ?dies, hbase, nofun⟩
    case window =>
      rw [show windowOf (c.w.sget64 f.aux.toNat) = .wstore o from hwindow]
      simpa using hend
    case dies =>
      refine List.any_eq_false.mpr fun d hd => ?_
      obtain ⟨hlt, hmeet⟩ := List.mem_filter.mp hd
      simpa using hload d (List.mem_range.mp hlt) hmeet
  case band =>
    refine follows_of _ (fun _ => rfl) fun c s t h => ?_
    obtain ⟨hn, hmax, hga, hdst, hsrc, hdest, rfl⟩ := h
    have hglobal : (!inGlobal (c.w.sget64 f.record.toNat) f.imm.toNat
        || !inGlobal (c.w.sget64 f.aux.toNat) f.imm.toNat) = false := by
      simpa using ⟨hsrc, hdest⟩
    refine startCommand_of ?_
    simp only [List.forall_mem_cons, bad_eq_none_iff]
    exact ⟨copyLength_good hn hmax, bne_eq_false_iff_eq.mpr hga, bne_eq_false_iff_eq.mpr hdst,
      wstoreBase?_of_inGlobal hsrc _ _ _, wstoreBase?_of_inGlobal hdest _ _ _, hglobal, nofun⟩
  case tensor =>
    refine follows_of _ (fun _ => rfl) fun c s t h => ?_
    obtain ⟨v, s1, x, hso, hread, horigin, hwell, hcount, hbase, rfl⟩ := h
    have hcounter : (f.mod.getLsbD 1 && c.uni (f.aux.toNat + 1) % 4 != 0) = false := and_bne_zero hso
    simp only [(bad_eq_none_iff ..).mpr hcounter]
    refine (withTensor_read hread).trans (startBox_of ?_)
    simp only [List.forall_mem_cons, bad_eq_none_iff]
    exact ⟨by simp [horigin], hwell, countRange_none hcount, hbase, nofun⟩

/-! ### Commands with a record (R249, R250, R253, R254, R258) -/

/-- A tile in either direction (R249). -/
theorem tileCommand_of {s t : State} {c : Ic} {i : Instr} {f : EngForm} {v : Nat} {x : Tensor} {cs : List Nat} {write : Bool}
    (hread : tensorRead s c i f v x t) (htile : x.tileOk cs = true)
    (hbase : t.wstoreBase? c (BitVec.ofNat 64 x.base) write = none) :
    (withTensor s c i f.record.toNat fun v x s => s.startBox c i f.token.toNat (v :: cs)
      [c.bad (!x.tileOk cs) .illegal, s.wstoreBase? c (BitVec.ofNat 64 x.base) write]) = .next (beginBox t c i f (v :: cs)) := by
  refine (withTensor_read hread).trans (startBox_of ?_)
  simp only [List.forall_mem_cons, bad_eq_none_iff]
  exact ⟨by simp [htile], hbase, nofun⟩

theorem recordCommands : RecordCommands := by
  intro f
  refine ⟨?tld, ?tst, ?gpool, ?coll, ?send⟩
  case tld | tst =>
    refine follows_of _ (fun _ => rfl) fun c s t h => ?_
    obtain ⟨v, s1, x, hread, htile, hbase, rfl⟩ := h
    exact tileCommand_of hread htile hbase
  case gpool =>
    refine follows_of _ (fun _ => rfl) fun c s t h => ?_
    obtain ⟨v, s1, hread, hzero, hzero', hop, hfmt, hbag, hbags, hrow4, hrow, hrows, hout, hwell, htable, hidx, hoffs, hwts,
      rfl⟩ := h
    have hfields : (zeroAt v 416 96 && zeroAt v 384 16 && decide (fieldOf v 408 8 ≤ 2) && decide (fieldOf v 400 8 ≤ 2)
        && decide (1 ≤ fieldOf v 320 32) && decide (fieldOf v 320 32 ≤ 65536) && fieldOf v 64 32 % 4 == 0
        && decide (4 ≤ fieldOf v 64 32) && decide (fieldOf v 64 32 ≤ 65536)) = true := by
      simp [hzero, hzero', hop, hfmt, hbag, hbags, hrow4, hrow, hrows]
    refine (withRecord_read hread).trans (startCommand_of ?_)
    simp only [List.forall_mem_cons, bad_eq_none_iff]
    exact ⟨congrArg Bool.not hfields, bne_eq_false_iff_eq.mpr hout, hwell, htable, hidx, hoffs,
      ite_eq_left_iff.mpr fun h => hwts.resolve_left h, nofun⟩
  case coll =>
    refine follows_of _ (fun _ => rfl) fun c s t h => ?_
    obtain ⟨v, s1, hread, hzero, hzero', hop, hred, hroot, hsrc, hdst, rfl⟩ := h
    refine (withRecord_read hread).trans (startCommand_of ?_)
    simp only [List.forall_mem_cons, bad_eq_none_iff]
    have hmember : ((collOp v == 1 || collOp v == 2)
        && (s1.group? (fieldOf v 192 32)).any fun g => g.size ≤ fieldOf v 288 32) = false := by
      simpa [Option.any_eq_false] using hroot
    exact ⟨by simp [hzero, hzero', hop, hred, hmember], hsrc, hdst, nofun⟩
  case send =>
    refine follows_of _ (fun _ => rfl) fun c s t h => ?_
    obtain ⟨hcluster, hzero, hzero', halign, hbase, rfl⟩ := h
    refine startCommand_of ?_
    simp only [List.forall_mem_cons, bad_eq_none_iff]
    have hnamed : (decide (24 < fieldOf (c.uni f.aux.toNat) 0 5) || !zeroAt (c.uni f.aux.toNat) 7 1
      || !zeroAt (c.uni f.aux.toNat) 12 20) = false := by
      simpa using ⟨⟨hcluster, hzero⟩, hzero'⟩
    exact ⟨hnamed, bne_eq_false_iff_eq.mpr halign, hbase, nofun⟩

/-! ### Messaging rings (R256, R257) -/

theorem ringInstructions : RingInstructions := by
  intro f
  refine ⟨?wait, ?opens, ?closes⟩
  case wait =>
    refine follows_of _ (fun _ => rfl) fun c s t h => ?_
    obtain ⟨r, hring, hgood, hready, rfl⟩ := h
    simp only [hring, hgood, Bool.false_eq_true, if_false, withRing_ready hready]
    split <;> rfl
  case opens =>
    refine follows_of _ (fun _ => rfl) fun c s t h => ?_
    obtain ⟨e, hin, halign, hwell, hbank, hnew, ⟨k, hk, hcap⟩, hfits, rfl⟩ := h
    have hheader : firstBad [c.bad (f.imm.toNat % 64 != 0) .align (BitVec.ofNat 64 f.imm.toNat) 3,
        c.wellRange f.imm.toNat 64 3] = none := by
      rw [(bad_eq_none_iff ..).mpr (bne_eq_false_iff_eq.mpr halign), hwell]
      rfl
    have hpower : (List.range 10).any (fun k => s.ringCap _ == 2 ^ k) = true :=
      List.any_eq_true.mpr ⟨k, List.mem_range.mpr hk, beq_iff_eq.mpr hcap⟩
    simp only [hin, hheader, hbank, hnew, hpower, Nat.not_lt.mpr hfits, Option.isSome_none, Bool.not_true, decide_false,
      Bool.or_self, Bool.false_eq_true, if_false]
    rfl
  case closes =>
    refine follows_of _ (fun _ => rfl) fun c s t h => ?_
    obtain ⟨r, hring, rfl⟩ := h
    simp only [hring]

/-- Settles O36: the record of a command is read, none of its checks finds a fault, and it is issued. -/
theorem engineInstructions : Obligations.EngineInstructions := by
  unfold Obligations.EngineInstructions
  exact ⟨asynchronousCopies, recordCommands, ringInstructions⟩

end Sys2Proof

/-! PROOFS. The events of the L2 and of deferred work (O44), and those of engine commands, collectives and `give` (O45): each finds
what it is about and passes its conditions (`happens_of`, Laws/Bodies.lean). -/

namespace Sys2Proof

open Sys2Proof.Machine Sys2Proof.Claims

/-! ### The L2 and its mark store (R395 to R397, R399) -/

theorem cacheEvents : CacheEvents := by
  refine ⟨fun s line x hx => happens_of rfl ?evict, fun s line e hline hhbm hnew => happens_of rfl ?refill,
    fun s line hfar hheld => happens_of rfl ?invalidate⟩
  case evict =>
    rw [hx]
    rfl
  case refill =>
    simp only [hline, hhbm, hnew, ne_eq, not_true_eq_false, decide_false, Bool.not_true, Bool.or_self, Bool.false_eq_true, if_false]
    cases e with
    | clean | correctable | uncorrectable => rfl
  case invalidate => simp only [hfar, hheld, Bool.and_self, if_true]

/-! ### Deferred faults, holding slots, the acquire floor, forgotten wells (R213, R322, R405, R427) -/

theorem faultAndFloorEvents : FaultAndFloorEvents := by
  refine ⟨fun s uid wid w x hw hedge hchecks hslot hstrong hfirst => happens_of rfl ?deliver,
    fun s ctx hwaits => happens_of rfl ?reread, fun s ctx hdue => happens_of rfl ?floor,
    fun s core hforgotten => happens_of rfl ?well⟩
  case deliver =>
    simp only [hw, hedge, hchecks, hslot, hstrong, hfirst, List.isEmpty_nil, Option.isSome_none, Option.map_some, Bool.not_true,
      Bool.or_self, Bool.false_eq_true, if_false]
  case reread => exact if_pos hwaits
  case floor => exact if_neg (Nat.not_lt.mpr hdue)
  case well => exact if_pos hforgotten

/-- Settles O44: each event passes its conditions. -/
theorem cacheAndFaultEvents : Obligations.CacheAndFaultEvents := by
  unfold Obligations.CacheAndFaultEvents
  exact ⟨cacheEvents, faultAndFloorEvents⟩

/-! ### Engine commands (R238, R239, R246, R258, R261, R275) -/

theorem engineCompletion_happens {s : State} {n k : Nat} {e : Engine} (he : s.running n = some e) (hown : e.selfEnds = false)
    (hslice : e.offSince = none) :
    let r := s.runEngine e k
    let u := r.s.modEngine n fun e' => { e' with progress := r.progress, heldAt := none }
    (∀ st, r.stop = .ok st → Happens (.engineCompletion ⟨n, k⟩) s (u.completeEngine n st 0)) ∧
    (∀ f, r.stop = .error (.fatal f) → Happens (.engineCompletion ⟨n, k⟩) s (r.s.failEngine e f)) ∧
    (r.stop = .error .wait → e.progress < r.progress → Happens (.engineCompletion ⟨n, k⟩) s
      ((r.s.modEngine n fun e' => { e' with progress := r.progress, heldAt := none, routeAt := none }).quillAhead n)) := by
  refine ⟨fun st hstop => happens_of rfl ?ends, fun f hstop => happens_of rfl ?fails, fun hstop hmoved => happens_of rfl ?moves⟩
  case ends => simp only [he, hown, hslice, hstop, Option.isSome_none, Bool.or_self, Bool.false_eq_true, if_false]
  case fails => simp only [he, hown, hslice, hstop, Option.isSome_none, Bool.or_self, Bool.false_eq_true, if_false]
  case moves =>
    simp only [he, hown, hslice, hstop, Nat.not_le.mpr hmoved, Option.isSome_none, Bool.or_self, Bool.false_eq_true, if_false]

theorem ringAppend_happens {s s1 : State} {n : Nat} {e : Engine} {bs : List Byte} (he : s.running n = some e)
    (hsend : e.isSend = true) (hturn : s.sendBefore e = false)
    (hread : s.engRead e (engineUnits e.core) (e.arg 0) 64 = (.ok bs, s1)) :
    (s1.ring? (sendCluster (e.arg 1)) (sendRing (e.arg 1)) = none → Happens (.ringAppend n) s (s1.completeEngine n 3 0)) ∧
    (∀ r, s1.ring? (sendCluster (e.arg 1)) (sendRing (e.arg 1)) = some r → s1.ringBad r = false →
      s1.ringRoom r = true → Happens (.ringAppend n) s ((s1.ringAppend r bs (s1.engRel e 4)).completeEngine n 0 0)) := by
  have hfound : (s.running n).filter Engine.isSend = some e := by rw [he, Option.filter_some, if_pos hsend]
  refine ⟨fun hclosed => happens_of rfl ?closed, fun r hring hgood hroom => happens_of rfl ?room⟩
  case closed => simp only [hfound, hturn, hread, hclosed, Bool.false_eq_true, if_false]
  case room => simp only [hfound, hturn, hread, hring, hgood, hroom, Bool.false_eq_true, if_false, if_true]

theorem matrixOpComplete_happens {s s1 : State} {core n : Nat} {ks : List Nat} {ecc : EccOutcome} {e e1 : Engine} {m : Mat}
    {cells : List Word} (hhead : s.matHead core = some e) (hm : e.mat? = some m)
    (hread : matRead e m ks (s.damagePart e m ks ecc) 0 = (none, n, s1)) (he1 : s1.engine? e.id = some e1) :
    (m.parts ≤ e1.got.length → s1.matCells e1 m = some cells →
      Happens (.matrixOpComplete ⟨core, ks, ecc⟩) s (e1.signers.foldl (fun (s : State) id => s.completeEngine id 0 0)
        (((s1.modBlock e1.uid fun b =>
            { b with accs := cput b.accs (4096 * m.acc) cells }).accSaved e1.uid m.acc).matPop core))) ∧
    (e1.got.length < m.parts → n ≠ 0 → Happens (.matrixOpComplete ⟨core, ks, ecc⟩) s (s1.matAhead e1.id)) := by
  refine ⟨fun hall hcells => happens_of rfl ?last, fun hleft hsome => happens_of rfl ?more⟩
  case last => simp only [hhead, hm, hread, he1, hall, if_true, State.matEnd, hcells]
  case more =>
    simp only [hhead, hm, hread, he1, Nat.not_le.mpr hleft, hsome, if_false]

theorem engineEvents : EngineEvents := by
  refine ⟨fun s n k e => engineCompletion_happens, fun s t n e f he hstop hput => happens_of rfl ?suspend,
    fun s s1 n e y he hcounts hleft hunit hgood => happens_of rfl ?count, fun s s1 n e bs => ringAppend_happens,
    fun s s1 core n ks ecc e e1 m cells => matrixOpComplete_happens⟩
  case suspend => simp only [he, hstop, Option.bind_some, hput, Option.map_some]
  case count =>
    simp only [he, hcounts, Nat.not_le.mpr hleft, hunit, hgood, decide_false, Bool.not_true, Bool.or_self, Bool.false_eq_true,
      if_false]

/-! ### Collectives (R254, R255) -/

theorem collPartial_happens {s s1 : State} {n child : Nat} {data : List Byte} {e e1 : Engine} {g : CollGroup}
    (he : s.collective n = some e) (hg : s.group? (fieldOf (e.arg 0) 192 32) = some g)
    (hlen : data.length = collBytes (e.arg 0) g.size) (hown : s.collWithOwn e g = (.ok e1, s1)) :
    let h := collHead (e.arg 0)
    (g.isRoot = false → e1.result = none →
      Happens (.collPartialReceive n child true ⟨h, data⟩) s (s1.modEngine n fun _ => { e1 with result := some data })) ∧
    ((s1.childRanks g).contains child = true → assocGet e1.partials (childKey child) = none →
      Happens (.collPartialReceive n child false ⟨h, data⟩) s
        (s1.modEngine n fun _ => { e1 with partials := e1.partials ++ [(childKey child, data)] })) := by
  refine ⟨fun hroot hnone => happens_of rfl ?result, fun hchild hnone => happens_of rfl ?part⟩
  case result =>
    simp only [he, hg, hlen, hown, hroot, hnone, ne_eq, not_true_eq_false, or_self, Option.isSome_none, Bool.or_self,
      Bool.false_eq_true, if_false, if_true]
  case part =>
    simp only [he, hg, hlen, hown, hchild, hnone, ne_eq, not_true_eq_false, or_self, Option.isSome_none, Bool.not_true,
      Bool.or_self, Bool.false_eq_true, if_false]

theorem collectiveEvents : CollectiveEvents := by
  refine ⟨fun s s1 n child data e e1 g => collPartial_happens,
    fun s n child root h data e g he hg hother => happens_of rfl ?other, fun s n code e f he hop hopen => happens_of rfl ?abort,
    fun s n e he hcoll hopen hslice hlate => happens_of rfl ?timeout⟩
  case other =>
    simp only [he, hg]
    exact if_pos hother
  case abort => simp only [he, hop, beq_eq_false_iff_ne.mpr hopen, Bool.false_eq_true, if_false]
  case timeout =>
    have hfound : (s.engine? n).filter (fun e => isColl e.op && !(e.st == .done) && e.offSince.isNone) = some e := by
      rw [he, Option.filter_some, if_pos (by simp [hcoll, hopen, hslice])]
    simp only [hfound, Nat.not_lt.mpr hlate, if_false]

/-! ### The completion of `give` (R233) -/

theorem giveCompletes : GiveCompletes := by
  intro s n g w w' x b' hgive hw hbundle hdrained a stamp ctx t hw' hb'
  refine happens_of rfl ?_
  simp only [hgive, hw, hbundle, hdrained, Bool.not_true, Bool.false_eq_true, if_false]
  rw [show State.warp? _ g.uid g.wid = some w' from hw', show State.block? _ g.uid = some b' from hb']

/-- Settles O45: each event finds its command, its message or its `give`, and passes its conditions. -/
theorem engineAndCollectiveEvents : Obligations.EngineAndCollectiveEvents := by
  unfold Obligations.EngineAndCollectiveEvents
  exact ⟨engineEvents, collectiveEvents, giveCompletes⟩

end Sys2Proof

/-! PROOFS. Matrix signatures (O37), tile, accumulator, quantisation and weight-store instructions (O38) and stochastic streams
(O39): each passes its own conditions, in the order in which it makes them, and then its effect follows. -/

namespace Sys2Proof

open Sys2Proof.Machine Sys2Proof.Claims

/-! ### Signatures of matrix operations (R261, R265, R273, R276) -/

/-- The last signer's operand values pass its checks (R273). -/
theorem checkMat_ok {s : State} {c : Ic} {conv : Bool} {f : EngForm} {rec1 brec : Nat} {args : List Nat} {k : State → Res}
    (hb : (tensorOf brec).isSome = true) (hbok : (matOf conv f args).bOk = true)
    (hconv : conv = true → (tensorOf (fieldOf rec1 0 512)).isSome = true ∧ (matOf conv f args).convOk = true)
    (hbase : s.wstoreBase? c (BitVec.ofNat 64 (matOf conv f args).b.base) false = none)
    (hact : conv = true → s.wstoreBase? c (BitVec.ofNat 64 (matOf conv f args).act.base) false = none)
    (hwells : mmaWells f = true →
      (matOf conv f args).well % 64 = 0 ∧ c.wellRange (matOf conv f args).well (64 * mmaRow (matOf conv f args).fmt) 4 = none)
    (hext : s.extentOk c.b (matOf conv f args) = true) : s.checkMat c conv f rec1 brec args k = k s := by
  have hrecord : ((tensorOf brec).isNone || !(matOf conv f args).bOk) = false := by
    rw [Option.isNone_eq_false_iff.mpr hb, hbok]
    rfl
  have hwindow : (conv && ((tensorOf (fieldOf rec1 0 512)).isNone || !(matOf conv f args).convOk)) = false := by
    cases conv with
    | false => rfl
    | true =>
      obtain ⟨htensor, hok⟩ := hconv rfl
      rw [Option.isNone_eq_false_iff.mpr htensor, hok]
      rfl
  have halign := and_bne_zero fun h => (hwells h).1
  have hrange := countRange_none fun h => (hwells h).2
  unfold State.checkMat
  simp only [(bad_eq_none_iff ..).mpr hrecord, (bad_eq_none_iff ..).mpr hwindow, hbase, countRange_none hact,
    (bad_eq_none_iff ..).mpr halign, hrange, hext, Bool.not_true, (bad_eq_none_iff ..).mpr rfl]
  rfl

/-- A signer whose operands are good goes on with the operation's arguments (R265, R273, R276). -/
theorem withOperands_ready {s t : State} {c : Ic} {i : Instr} {conv : Bool} {f : EngForm} {args : List Nat}
    (h : matReady s c i conv f args t) (k : List Nat → State → Res) : withOperands s c i conv f k = k args t := by
  obtain ⟨rec1, brec, s0, hread, hbrec, hargs, hb, hbok, hconv, hbase, hact, hwells, hext⟩ := h
  unfold withOperands
  refine (withRecord_read hread).trans ?_
  cases conv with
  | false =>
    obtain ⟨rfl, rfl⟩ := hbrec
    subst hargs
    exact checkMat_ok hb hbok hconv hbase hact hwells hext
  | true =>
    subst hargs
    rw [if_pos rfl]
    refine (withRecord_read hbrec).trans ?_
    exact checkMat_ok hb hbok hconv hbase hact hwells hext

theorem signs_of {i : Instr} {conv : Bool} {f : EngForm} (he : ∀ s, exec i s = run i s (sign i conv f)) : Signs i conv f := by
  refine follows_of _ he fun c s t h => ?_
  unfold sign
  rcases h with ⟨halone, args, s1, hready, rfl⟩ | ⟨hshared, hopen, hnew, hword, hlast⟩
  · exact (if_pos halone).trans (withOperands_ready hready _)
  · have hfresh : (decide ((c.b.cv f.conv.toNat).state ≠ 1) || (c.b.cv f.conv.toNat).signers.getLsbD c.w.wid) = false := by
      rw [hopen, hnew]
      rfl
    have hsame : (decide ((c.b.cv f.conv.toNat).count ≠ 0)
        && ((encode i).getD 0).setWidth 80 != (c.b.cv f.conv.toNat).first) = false := by
      rcases hword with h | h
      · simp [h]
      · rw [h, bne_self_eq_false, Bool.and_false]
    dsimp only
    rw [if_neg hshared, if_neg (by rw [hopen]; decide), if_neg (by rw [hfresh]; decide), if_neg (by rw [hsame]; decide)]
    rcases hlast with ⟨hfull, args, s1, hready, rfl⟩ | ⟨hmore, rfl⟩
    · exact (if_pos hfull).trans (withOperands_ready hready _)
    · exact if_neg hmore

/-- Settles O37: an operation alone, the last of its signers, and one before the last. -/
theorem matrixSignatures : Obligations.MatrixSignatures := by
  unfold Obligations.MatrixSignatures
  exact fun f => ⟨signs_of fun _ => rfl, signs_of fun _ => rfl⟩

/-! ### Tiles and accumulators (R261, R264, R279, R280) -/

theorem tileMoves : TileMoves := by
  intro f
  refine ⟨?tzero, ?azero, ?amov, ?tmov, ?ald, ?ast, ?tmovW, ?tmovR⟩
  -- nothing but a matrix operation of the block bars these (R261)
  case tzero | azero | amov | tmov =>
    exact tile_of (fun _ => rfl) fun c s h => ⟨by simpa using h, rfl⟩
  -- these name a row for each lane as well (R279)
  case ald | ast | tmovW | tmovR =>
    refine tile_of (fun _ => rfl) fun c s h => ?_
    obtain ⟨hfree, hrows⟩ := Bool.and_eq_true_iff.mp h
    refine ⟨by simpa using hfree, ?_⟩
    rw [rows_ok hrows]
    rfl

/-! ### Quantisation and conversion (R281 to R283) -/

theorem quantisation : Quantisation := by
  intro f
  refine ⟨?hqnt, ?hdeq, ?aconv, ?aconvF32⟩
  case hqnt => exact tile_of (fun _ => rfl) fun c s h => ⟨by simpa using h, rfl⟩
  case hdeq =>
    refine tile_of (fun _ => rfl) fun c s h => ?_
    obtain ⟨hfree, hcodes⟩ := Bool.and_eq_true_iff.mp h
    exact ⟨by simpa using hfree, if_neg (by simpa using hcodes)⟩
  case aconv | aconvF32 =>
    refine follows_of _ (fun _ => rfl) fun c s t h => ?_
    obtain ⟨ys, fl, hfree, hcells, rfl⟩ := h
    simp only [hfree, Bool.false_eq_true, if_false, hcells]

/-! ### Refresh windows of the weight store (R284 to R286) -/

theorem weightStoreTiming : WeightStoreTiming := by
  intro f
  refine ⟨?wsinfo, ?wswait⟩
  case wsinfo =>
    refine performs_of _ (fun _ => rfl) fun c s h => if_neg ?_
    simpa using h
  case wswait =>
    refine performs_of _ (fun _ => rfl) fun c s h => ?_
    simp only [Bool.and_eq_true, decide_eq_true_eq] at h
    obtain ⟨⟨hsel, hlen⟩, hclear⟩ := h
    simp only [hsel, Nat.not_lt.mpr hlen, hclear, Bool.not_true, decide_false, Bool.or_self, Bool.false_eq_true, if_false,
      if_true]

/-- Settles O38: no matrix operation bars the instruction, its rows and selectors are good, and its effect follows. -/
theorem tileInstructions : Obligations.TileInstructions := by
  unfold Obligations.TileInstructions
  exact ⟨tileMoves, quantisation, weightStoreTiming⟩

/-! ### Streams (R287 to R293) -/

/-- The condition on two operands of a bitwise instruction (R288, R291). -/
theorem bitwise_of {i : Instr} {f : RegForm} {op : BitVec 1024 → BitVec 1024 → BitVec 1024}
    (he : ∀ s, exec i s = streamBin i f s op) :
    Performs i (fun c s => lenGood (s.blockOf c) f.a && lenGood (s.blockOf c) f.b
        && (f.sub.getLsbD 0 || !correlated (s.blockOf c) f.a f.b))
      fun c s => s.putStream (s.blockOf c).uid f.d.toNat (joinTag (s.blockOf c) [f.a, f.b]) fun l =>
        op ((s.blockOf c).stream f.a.toNat l) ((s.blockOf c).stream f.b.toNat l) &&& (s.blockOf c).lenMask := by
  refine stream_of he fun c s h => ?_
  simp only [Bool.and_eq_true, Bool.or_eq_true, Bool.not_eq_true'] at h
  obtain ⟨⟨ha, hb⟩, hpair⟩ := h
  refine ⟨rfl, by simp [ha, hb], ?_, rfl⟩
  split
  · rfl
  · next hsub => simpa using hpair.resolve_left hsub

theorem streamResults : StreamResults := by
  intro f
  refine ⟨?slen, ?sseed, ?sgen, ?sregen, ?sand, ?sor, ?sxor, ?sxnor, ?snot⟩
  case slen =>
    refine performs_of _ (fun _ => rfl) fun c s h => if_pos ?_
    simpa using h
  case sseed =>
    refine performs_of _ (fun _ => rfl) fun c s h => if_neg ?_
    simpa using h
  case sgen =>
    exact stream_of (execSgen.eq_def f) fun c s h => ⟨by simpa using h, rfl, rfl, rfl⟩
  case sregen =>
    refine stream_of (execSregen.eq_def f) fun c s h => ?_
    obtain ⟨hlen, hclass⟩ := Bool.and_eq_true_iff.mp h
    exact ⟨by simpa using hclass, by simpa using hlen, rfl, rfl⟩
  case sand => exact bitwise_of (op := fun x y => x &&& y) fun _ => rfl
  case sor => exact bitwise_of (op := fun x y => x ||| y) fun _ => rfl
  case sxor => exact bitwise_of (op := fun x y => x ^^^ y) fun _ => rfl
  case sxnor => exact bitwise_of (op := fun x y => ~~~(x ^^^ y)) fun _ => rfl
  case snot =>
    refine stream_of (execSnot.eq_def f) fun c s h => ?_
    exact ⟨rfl, by simpa using h, rfl, rfl⟩

theorem streamMoves : StreamMoves := by
  intro f
  refine ⟨?smux, ?sshift, ?smov, ?scnt, ?sclass⟩
  case smux =>
    refine stream_of (execSmux.eq_def f) fun c s h => ?_
    simp only [Bool.and_eq_true, Bool.or_eq_true, Bool.not_eq_true'] at h
    obtain ⟨⟨⟨ha, hb⟩, he⟩, hpairs⟩ := h
    refine ⟨rfl, by simp [ha, hb, he], ?_, rfl⟩
    split
    · rfl
    · next hsub => simpa using hpairs.resolve_left hsub
  case sshift =>
    refine stream_of (execSshift.eq_def f) fun c s h => ?_
    simp only [Bool.and_eq_true, decide_eq_true_eq] at h
    obtain ⟨hlen, hpos, hbound⟩ := h
    exact ⟨by simpa using ⟨Nat.ne_of_gt hpos, hbound⟩, by simpa using hlen, rfl, rfl⟩
  case smov => exact stream_of (execSmov.eq_def f) fun c s _ => ⟨rfl, rfl, rfl, rfl⟩
  case sclass => exact stream_of (execSclass.eq_def f) fun c s _ => ⟨rfl, rfl, rfl, rfl⟩
  case scnt => exact stream_of (execScnt.eq_def f) fun c s h => ⟨rfl, by simpa using h, rfl, rfl⟩

/-- Settles O39: the operands have the present length and are not correlated, and the destination takes its bits and tag. -/
theorem streamInstructions : Obligations.StreamInstructions := by
  unfold Obligations.StreamInstructions
  exact ⟨streamResults, streamMoves⟩

end Sys2Proof

/-! PROOFS. What tile instructions (O54) and stream instructions (O55) leave alone: the cases of a step (`run_cases`,
Laws/StepFrame.lean) over a meaning that changes one block, or a few bytes of memory; then the cells that each instruction writes. -/

namespace Sys2Proof

open Sys2Proof.Machine

/-! ### A step that changes one piece of storage -/

/-- A relation of two states that holds when no storage changes, and still holds with bookkeeping before and after. -/
structure Framed (fl : Bool) (R : State → State → Prop) : Prop where
  same : ∀ {a b : State}, SameData fl a b → R a b
  between : ∀ {a b c d : State}, SameData fl a b → R b c → SameData fl c d → R a d

/-- What a meaning answers is in a relation to the state it runs in; a stall changes no storage. -/
def Res.Within (fl : Bool) (R : State → State → Prop) (s : State) : Res → Prop
  | .done t _ => R s t
  | .raw t => R s t
  | .stall t => SameData fl s t
  | .fault _ => True
  | .brk _ => True

/-- As `run_frame` (Laws/StepFrame.lean) for a meaning that changes some storage. -/
theorem run_within {fl : Bool} {R : State → State → Prop} {i : Instr} {s t : State} {c : Ic} {body : Ic → State → Res}
    (hR : Framed fl R) (hc : s.issueCtx (common i) = some c) (h : run i s body = .next t) (hu : Unfaulted t c)
    (hb : Res.Within fl R (enteredState i s c) (body (enteredIc i s c) (enteredState i s c))) : R s t := by
  have he := SameData.entered (fl := fl) (i := i) hc
  rcases run_cases (fl := fl) hc h hu with k | ⟨y, p, e, rfl⟩ | ⟨y, w, e, rfl⟩ | ⟨y, e, rfl⟩
  · exact hR.same k
  all_goals rw [e] at hb
  · exact hR.between he hb (SameData.retire _ _ _ _)
  · exact hR.same (he.trans (SameData.trans hb ((SameData.unopened _ _).trans (SameData.stalled _ _))))
  · exact hR.between he hb (SameData.issued _)

theorem SameData.framed (fl : Bool) : Framed fl (SameData fl) := ⟨id, fun h k j => h.trans (k.trans j)⟩

/-- Whatever an instruction does in the block of its warp when it takes no fault is in a relation. -/
def StepsWithin (i : Instr) (R : Block → State → State → Prop) : Prop :=
  ∀ s t c, s.issueCtx (common i) = some c → exec i s = .next t → Unfaulted t c → R c.b s t

theorem steps_of_run {fl : Bool} {R : Block → State → State → Prop} {i : Instr} {body : Ic → State → Res}
    (hR : ∀ b, Framed fl (R b)) (he : ∀ s, exec i s = run i s body) (hb : ∀ c s, Res.Within fl (R c.b) s (body c s)) :
    StepsWithin i R := fun s _ c hc h hu =>
  run_within (hR c.b) hc ((he s).symm.trans h) hu (hb (enteredIc i s c) (enteredState i s c))

/-- A tile instruction waits for a matrix operation, or does what is its own (R261). -/
theorem steps_of_tile {fl : Bool} {R : Block → State → State → Prop} {i : Instr} {accs tiles : List Nat}
    {body : Ic → State → Res} (hR : ∀ b, Framed fl (R b)) (he : ∀ s, exec i s = tileInstr i s accs tiles body)
    (hb : ∀ c s, Res.Within fl (R c.b) s (body c s)) : StepsWithin i R := by
  refine steps_of_run hR he fun c s => ?_
  split
  · exact SameData.refl _ _
  · exact hb c s

/-- A stream instruction faults, or leaves what its body says (R288, R291). -/
theorem steps_of_stream {fl : Bool} {R : Block → State → State → Prop} {i : Instr} {ops : List (BitVec 8)}
    {pairs : List (BitVec 8 × BitVec 8)} {ill : Ic → Bool} {body : Ic → State → Block → State} (hR : ∀ b, Framed fl (R b))
    (he : ∀ s, exec i s = streamInstr i s ops pairs ill body) (hb : ∀ c s, R c.b s (body c s (s.blockOf c))) :
    StepsWithin i R := by
  refine steps_of_run hR he fun c s => ?_
  dsimp only
  split
  · trivial
  split
  · trivial
  split
  · trivial
  · exact hb c s

/-! ### One block -/

/-- All storage is the same, but for the block `u`, which has changed as `p` allows. -/
def OneBlock (fl : Bool) (u : Nat) (p : Block → Block → Prop) (s t : State) : Prop :=
  SameData fl s { t with blocks := s.blocks } ∧
  ∀ v b, s.block? v = some b → ∃ b', t.block? v = some b' ∧ (v ≠ u → b' = b) ∧ p b b'

theorem SameData.blocks_eq {fl : Bool} {s t : State} (h : SameData fl s t) : t.blocks = s.blocks := by
  obtain ⟨⟨-, -, -, -, hblocks, -⟩, -⟩ := h
  exact hblocks

theorem SameData.mem_eq {fl : Bool} {s t : State} (h : SameData fl s t) : t.mem = s.mem := by
  obtain ⟨⟨hmem, -⟩, -⟩ := h
  exact hmem

theorem block?_of_blocks {s t : State} (h : t.blocks = s.blocks) (v : Nat) : t.block? v = s.block? v := by
  unfold State.block?
  rw [h]

/-- The same blocks put into both states. -/
theorem SameData.withBlocks {fl : Bool} {s t : State} (h : SameData fl s t) (bs : List Block) :
    SameData fl { s with blocks := bs } { t with blocks := bs } := by
  obtain ⟨⟨hmem, hwells, hfull, hpoison, -, hgrids, htasks, hctxs⟩, hregs⟩ := h
  exact ⟨⟨hmem, hwells, hfull, hpoison, rfl, hgrids, htasks, hctxs⟩, hregs⟩

theorem OneBlock.framed {fl : Bool} {u : Nat} {p : Block → Block → Prop} (hp : ∀ b, p b b) : Framed fl (OneBlock fl u p) where
  same {a b} h := by
    refine ⟨h.withBlocks a.blocks, fun v x hx => ⟨x, ?_, fun _ => rfl, hp x⟩⟩
    rwa [block?_of_blocks h.blocks_eq]
  between {a b c d} h k j := by
    obtain ⟨hdata, hblocks⟩ := k
    refine ⟨h.trans (hdata.trans ?_), fun v x hx => ?_⟩
    · rw [h.blocks_eq]
      exact j.withBlocks a.blocks
    · obtain ⟨y, hy, hother, hxy⟩ := hblocks v x (by rwa [block?_of_blocks h.blocks_eq])
      exact ⟨y, by rwa [block?_of_blocks j.blocks_eq], hother, hxy⟩

theorem OneBlock.modBlock {fl : Bool} {u : Nat} {p : Block → Block → Prop} {f : Block → Block} (hp : ∀ b, p b b)
    (hid : ∀ {b b'}, p b b' → b'.uid = b.uid) (hf : ∀ b, p b (f b)) (s : State) : OneBlock fl u p s (s.modBlock u f) := by
  refine ⟨SameData.of_eq, fun v b hb => ⟨_, by rw [block?_modBlock fun b => hid (hf b), hb]; rfl, fun hv => ?_, ?_⟩⟩
  · have hbv : b.uid = v := by simpa using List.find?_some (p := fun b : Block => b.uid == v) hb
    exact if_neg (by simpa [hbv] using hv)
  · dsimp only
    split
    · exact hf b
    · exact hp b

/-! ### Runs of cells -/

/-- Cells keep their canonical form, and those outside a range read as before. -/
def KeepsOutside {w : Nat} (lo n : Nat) (m m' : Cells w) : Prop :=
  cwf m = true → cwf m' = true ∧ ∀ k, k < lo ∨ lo + n ≤ k → cget m' k = cget m k

namespace KeepsOutside

variable {w lo n : Nat}

theorem refl (m : Cells w) : KeepsOutside lo n m m := fun h => ⟨h, fun _ _ => rfl⟩

theorem trans {a b c : Cells w} (h : KeepsOutside lo n a b) (k : KeepsOutside lo n b c) : KeepsOutside lo n a c := fun ha =>
  let ⟨hb, hab⟩ := h ha
  let ⟨hc, hbc⟩ := k hb
  ⟨hc, fun j hj => (hbc j hj).trans (hab j hj)⟩

theorem cset (m : Cells w) {k : Nat} (v : BitVec w) (hlo : lo ≤ k) (hhi : k < lo + n) :
    KeepsOutside lo n m (Machine.cset m k v) := fun h =>
  ⟨cwf_cset h k v, fun j hj => by rw [cget_cset h, if_neg (by omega)]⟩

theorem cput (m : Cells w) {vs : List (BitVec w)} (hvs : vs.length ≤ n) : KeepsOutside lo n m (Machine.cput m lo vs) := fun h =>
  ⟨cwf_cput h lo vs, fun j hj => by rw [cget_cput h, if_neg (by omega)]⟩

theorem cclear (m : Cells w) : KeepsOutside lo n m (Machine.cclear m lo n) := fun h =>
  ⟨cwf_cclear h lo n, fun j hj => by rw [cget_cclear h, if_pos hj]⟩

theorem foldl {α : Type} {g : Cells w → α → Cells w} {l : List α} (hg : ∀ m, ∀ x ∈ l, KeepsOutside lo n m (g m x)) (m : Cells w) :
    KeepsOutside lo n m (l.foldl g m) := by
  induction l generalizing m with
  | nil => exact refl m
  | cons x l ih =>
    exact (hg m x List.mem_cons_self).trans (ih (fun m y hy => hg m y (List.mem_cons_of_mem x hy)) (g m x))

end KeepsOutside

/-! ### One tile, one accumulator -/

/-- A block changes in the 4,096 elements of one tile only (R264). -/
def TileOnly (q : Nat) (b b' : Block) : Prop :=
  b' = { b with tiles := b'.tiles } ∧ KeepsOutside (4096 * q) 4096 b.tiles b'.tiles

/-- A block changes in the 4,096 cells of one accumulator only (R264). -/
def AccOnly (q : Nat) (b b' : Block) : Prop :=
  b' = { b with accs := b'.accs } ∧ KeepsOutside (4096 * q) 4096 b.accs b'.accs

theorem TileOnly.refl (q : Nat) (b : Block) : TileOnly q b b := ⟨rfl, KeepsOutside.refl _⟩

theorem AccOnly.refl (q : Nat) (b : Block) : AccOnly q b b := ⟨rfl, KeepsOutside.refl _⟩

theorem TileOnly.uid {q : Nat} {b b' : Block} (h : TileOnly q b b') : b'.uid = b.uid := by rw [h.1]

theorem AccOnly.uid {q : Nat} {b b' : Block} (h : AccOnly q b b') : b'.uid = b.uid := by rw [h.1]

theorem TileOnly.trans {q : Nat} {a b c : Block} (h : TileOnly q a b) (k : TileOnly q b c) : TileOnly q a c := by
  obtain ⟨hb, hab⟩ := h
  obtain ⟨hc, hbc⟩ := k
  refine ⟨?_, hab.trans hbc⟩
  rw [hb] at hc
  exact hc

theorem TileOnly.foldl {α : Type} {q : Nat} {g : Block → α → Block} {l : List α} (hg : ∀ b, ∀ x ∈ l, TileOnly q b (g b x))
    (b : Block) : TileOnly q b (l.foldl g b) := by
  induction l generalizing b with
  | nil => exact TileOnly.refl q b
  | cons x l ih =>
    exact (hg b x List.mem_cons_self).trans (ih (fun b y hy => hg b y (List.mem_cons_of_mem x hy)) (g b x))

/-- A block's tiles change in one tile. -/
theorem OneBlock.tile {fl : Bool} {q : Nat} {g : Block → Cells 16} (hg : ∀ b, KeepsOutside (4096 * q) 4096 b.tiles (g b))
    (s : State) (u : Nat) : OneBlock fl u (TileOnly q) s (s.modBlock u fun b => { b with tiles := g b }) :=
  .modBlock (TileOnly.refl q) TileOnly.uid (fun b => ⟨rfl, hg b⟩) s

/-- A block's accumulators change in one of them. -/
theorem OneBlock.acc {fl : Bool} {q : Nat} {g : Block → Cells 32} (hg : ∀ b, KeepsOutside (4096 * q) 4096 b.accs (g b))
    (s : State) (u : Nat) : OneBlock fl u (AccOnly q) s (s.modBlock u fun b => { b with accs := g b }) :=
  .modBlock (AccOnly.refl q) AccOnly.uid (fun b => ⟨rfl, hg b⟩) s

theorem length_cgets {w : Nat} (m : Cells w) (lo n : Nat) : (cgets m lo n).length = n := by
  simp [cgets]

/-! ### Results that are owed, and flags -/

theorem SameData.raise (s : State) (u n : Nat) (fl : Flags) : SameData true s (s.modWarp u n fun w => w.raise fl) :=
  SameData.modWarp _ _ _ _ (fun _ => ⟨rfl, rfl⟩) fun _ => ⟨rfl, rfl, rfl, fl, rfl⟩

theorem SameData.owedOnce (c : Ic) (s : State) (fl : Flags) (ws : List (RegSlot × Word)) : SameData true s (owedOnce c s fl ws) :=
  (SameData.raise s _ _ fl).trans (SameData.owe _ _)

theorem orFlags_zero {fs : List Flags} (h : ∀ x ∈ fs, x = 0) : orFlags fs = 0 := by
  unfold orFlags
  induction fs with
  | nil => rfl
  | cons x fs ih =>
    rw [List.foldl_cons, h x List.mem_cons_self]
    exact ih fun y hy => h y (List.mem_cons_of_mem x hy)

/-- Results that raise no flag. -/
theorem SameData.owed_plain {f : Nat → LaneOut} (hf : ∀ l, (f l).2 = 0) (c : Ic) (s : State) (u fp : Bool) :
    SameData false s (Machine.owed c s u fp f) := by
  have hzero : orFlags (((workLanes u c.active).map f).map Prod.snd) = 0 := by
    refine orFlags_zero fun x hx => ?_
    obtain ⟨y, hy, rfl⟩ := List.mem_map.mp hx
    obtain ⟨l, -, rfl⟩ := List.mem_map.mp hy
    exact hf l
  unfold Machine.owed
  dsimp only
  rw [hzero]
  refine SameData.trans' (SameData.owe _ _) (SameData.touch _ _ _ _ fun w => ⟨rfl, rfl, rfl, rfl, rfl, ?_⟩)
  exact BitVec.or_zero

/-! ### The tile instructions (R264, R280 to R283) -/

/-- The rows that a lane-wise tile instruction names are below 64 once it is not ILLEGAL (R279). -/
theorem row_lt {c : Ic} {f : RegForm} (h : ¬ rowsBad c f = true) {l : Nat} (hl : l ∈ lanesOf c.active) : rowOf c f l < 64 := by
  have h := List.any_eq_false.mp (Bool.not_eq_true _ ▸ h) l hl
  simpa using h

/-- The cell of a lane lies in its row of the accumulator (R280). -/
theorem laneCell_mem (q : BitVec 8) (f : RegForm) {row l : Nat} (hrow : row < 64) (hl : l < 32) :
    4096 * q.toNat ≤ laneCell q f row l ∧ laneCell q f row l < 4096 * q.toNat + 4096 := by
  unfold laneCell fileBase cellAt
  omega

/-- The two elements of a lane lie in its row of the tile (R280). -/
theorem laneElem_mem (q : BitVec 8) {row l : Nat} (hrow : row < 64) (hl : l < 32) :
    4096 * q.toNat ≤ laneElem q row l ∧ laneElem q row l + 1 < 4096 * q.toNat + 4096 := by
  unfold laneElem fileBase cellAt
  omega

/-- An instruction that reads a row for each lane owes what it reads, and raises no flag (R280). -/
theorem steps_of_rows {i : Instr} {f : RegForm} {accs tiles : List Nat} {x : Ic → State → Nat → List (RegSlot × Word)}
    (he : ∀ s, exec i s = tileInstr i s accs tiles fun c s =>
      if rowsBad c f then c.illegal else .next (owed c s false false fun l => (x c s l, 0))) :
    StepsWithin i fun _ => SameData false := by
  refine steps_of_tile (fun _ => SameData.framed false) he fun c s => ?_
  split
  · trivial
  · exact SameData.owed_plain (fun _ => rfl) _ _ _ _

theorem ald_frame (f : RegForm) : StepsWithin (.ald f) fun _ => SameData false := steps_of_rows (execAld.eq_def f)

theorem tmovR_frame (f : RegForm) : StepsWithin (.tmovR f) fun _ => SameData false := steps_of_rows (execTmovR.eq_def f)

theorem hdeq_frame (f : RegForm) : StepsWithin (.hdeq f) fun _ => SameData true := by
  refine steps_of_tile (fun _ => SameData.framed true) (fun _ => rfl) fun c s => ?_
  split
  · trivial
  · exact SameData.owedOnce _ _ _ _

/-- The block of an instruction's warp changes in one tile, or in one accumulator. -/
def InTile (fl : Bool) (q : Nat) (b : Block) : State → State → Prop := OneBlock fl b.uid (TileOnly q)
def InAcc (fl : Bool) (q : Nat) (b : Block) : State → State → Prop := OneBlock fl b.uid (AccOnly q)

theorem InTile.framed {fl : Bool} {q : Nat} (b : Block) : Framed fl (InTile fl q b) := OneBlock.framed (TileOnly.refl q)
theorem InAcc.framed {fl : Bool} {q : Nat} (b : Block) : Framed fl (InAcc fl q b) := OneBlock.framed (AccOnly.refl q)

theorem tzero_frame (f : RegForm) : StepsWithin (.tzero f) (InTile false f.d.toNat) :=
  steps_of_tile InTile.framed (fun _ => rfl) fun _ s => OneBlock.tile (fun _ => .cclear _) s _

theorem tmov_frame (f : RegForm) : StepsWithin (.tmov f) (InTile false f.d.toNat) :=
  steps_of_tile InTile.framed (fun _ => rfl) fun _ s => OneBlock.tile (fun _ => .cput _ (Nat.le_of_eq (length_cgets _ _ _))) s _

theorem tmovW_frame (f : RegForm) : StepsWithin (.tmovW f) (InTile false f.d.toNat) := by
  refine steps_of_tile InTile.framed (fun _ => rfl) fun c s => ?_
  split
  · trivial
  · next hrows =>
    refine OneBlock.tile (fun b => .foldl (fun m l hl => ?_) _) s _
    obtain ⟨hlo, hhi⟩ := laneElem_mem f.d (row_lt hrows hl) (mem_lanesOf.mp hl).1
    exact .trans (.cset _ _ hlo (by omega)) (.cset _ _ (by omega) hhi)

theorem aconv_frame (f : RegForm) : StepsWithin (.aconv f) (InTile true f.d.toNat) := by
  refine steps_of_tile InTile.framed (fun _ => rfl) fun c s => ?_
  refine (InTile.framed c.b).between (SameData.raise s _ _ _) (OneBlock.tile (fun _ => .cput _ ?_) _ _) (SameData.refl _ _)
  simp [length_cgets]

/-- A code of `hqnt` goes to its row of the tile (R281, R282). -/
theorem tileNibPut_only (b : Block) (f : RegForm) (v : Nat) {k : Nat} (hk : k < 64) :
    TileOnly (hqTile f) b (b.tileNibPut (hqTile f) (hqByte f k) 2 v) := by
  have hrow : hqRow f < 64 := Nat.mod_lt _ (by decide)
  refine ⟨rfl, .cset _ _ (by omega) ?_⟩
  unfold hqByte
  omega

/-- A block with the codes of `hqnt` in its tile. -/
def putCodes (f : RegForm) (xs : List Nat) (b : Block) : Block :=
  (xs.zip (List.range 64)).foldl (fun b x => b.tileNibPut (hqTile f) (hqByte f x.2) 2 x.1) b

theorem putCodes_only (f : RegForm) (xs : List Nat) (b : Block) : TileOnly (hqTile f) b (putCodes f xs b) :=
  TileOnly.foldl (fun b x hx => tileNibPut_only b f x.1 (List.mem_range.mp (List.of_mem_zip hx).2)) b

theorem hqnt_frame (f : RegForm) : StepsWithin (.hqnt f) (InTile true (hqTile f)) := by
  refine steps_of_tile InTile.framed (fun _ => rfl) fun c s => ?_
  have hput : InTile true (hqTile f) c.b s (s.modBlock c.b.uid (putCodes f (hqResult c f).2.1)) :=
    OneBlock.modBlock (TileOnly.refl _) TileOnly.uid (putCodes_only f _) s
  show InTile true (hqTile f) c.b s (owedOnce c (s.modBlock c.b.uid (putCodes f (hqResult c f).2.1)) _ _)
  exact (InTile.framed c.b).between (SameData.refl _ _) hput (SameData.owedOnce c _ _ _)

theorem azero_frame (f : RegForm) : StepsWithin (.azero f) (InAcc false f.d.toNat) :=
  steps_of_tile InAcc.framed (fun _ => rfl) fun _ s => OneBlock.acc (fun _ => .cclear _) s _

theorem amov_frame (f : RegForm) : StepsWithin (.amov f) (InAcc false f.d.toNat) :=
  steps_of_tile InAcc.framed (fun _ => rfl) fun _ s => OneBlock.acc (fun _ => .cput _ (Nat.le_of_eq (length_cgets _ _ _))) s _

theorem ast_frame (f : RegForm) : StepsWithin (.ast f) (InAcc false f.d.toNat) := by
  refine steps_of_tile InAcc.framed (fun _ => rfl) fun c s => ?_
  split
  · trivial
  · next hrows =>
    refine OneBlock.acc (fun b => .foldl (fun m l hl => ?_) _) s _
    obtain ⟨hlo, hhi⟩ := laneCell_mem f.d f (row_lt hrows hl) (mem_lanesOf.mp hl).1
    exact .cset _ _ hlo hhi

theorem aconvF32_frame (f : RegForm) : StepsWithin (.aconvF32 f) (InAcc true f.d.toNat) := by
  refine steps_of_tile InAcc.framed (fun _ => rfl) fun c s => ?_
  refine (InAcc.framed c.b).between (SameData.raise s _ _ _) (OneBlock.acc (fun _ => .cput _ ?_) _ _) (SameData.refl _ _)
  simp [length_cgets]

/-- A change of the block that allows more. -/
theorem OneBlock.mono {fl : Bool} {u : Nat} {p q : Block → Block → Prop} (hpq : ∀ {b b'}, p b b' → q b b') {s t : State}
    (h : OneBlock fl u p s t) : OneBlock fl u q s t := by
  obtain ⟨hdata, hblocks⟩ := h
  refine ⟨hdata, fun v b hb => ?_⟩
  obtain ⟨b', hb', hother, hp⟩ := hblocks v b hb
  exact ⟨b', hb', hother, hpq hp⟩

/-- Every cell outside the tile, or the accumulator, reads as before. -/
theorem TileOnly.cells {q : Nat} {b b' : Block} (h : TileOnly q b b') : b' = { b with tiles := b'.tiles } ∧
    (cwf b.tiles = true → ∀ key, key < 4096 * q ∨ 4096 * q + 4096 ≤ key → cget b'.tiles key = cget b.tiles key) :=
  ⟨h.1, fun hb => (h.2 hb).2⟩

theorem AccOnly.cells {q : Nat} {b b' : Block} (h : AccOnly q b b') : b' = { b with accs := b'.accs } ∧
    (cwf b.accs = true → ∀ key, key < 4096 * q ∨ 4096 * q + 4096 ≤ key → cget b'.accs key = cget b.accs key) :=
  ⟨h.1, fun hb => (h.2 hb).2⟩

/-- Settles O54: each by the one piece of storage that its meaning changes. -/
theorem tileFrame : Obligations.TileFrame := by
  unfold Obligations.TileFrame
  intro f i s t c hi h hu
  have hc := hi.ctx
  simp only [List.mem_cons, List.not_mem_nil, or_false]
  refine ⟨?reads, ?hdeq, ?tiles, ?aconv, ?hqnt, ?accs, ?aconvF32⟩
  case reads =>
    rintro (rfl | rfl)
    · exact ald_frame f s t c hc h hu
    · exact tmovR_frame f s t c hc h hu
  case hdeq =>
    rintro rfl
    exact hdeq_frame f s t c hc h hu
  case tiles =>
    rintro (rfl | rfl | rfl)
    · exact (tzero_frame f s t c hc h hu).mono TileOnly.cells
    · exact (tmov_frame f s t c hc h hu).mono TileOnly.cells
    · exact (tmovW_frame f s t c hc h hu).mono TileOnly.cells
  case aconv =>
    rintro rfl
    exact (aconv_frame f s t c hc h hu).mono TileOnly.cells
  case hqnt =>
    rintro rfl
    exact (hqnt_frame f s t c hc h hu).mono TileOnly.cells
  case accs =>
    rintro (rfl | rfl | rfl)
    · exact (azero_frame f s t c hc h hu).mono AccOnly.cells
    · exact (amov_frame f s t c hc h hu).mono AccOnly.cells
    · exact (ast_frame f s t c hc h hu).mono AccOnly.cells
  case aconvF32 =>
    rintro rfl
    exact (aconvF32_frame f s t c hc h hu).mono AccOnly.cells

/-! ### One stream (R287 to R292) -/

/-- A block changes in one stream and its tag only (R287). -/
def StreamOnly (d : Nat) (b b' : Block) : Prop :=
  b' = { b with streams := b'.streams, tags := b'.tags } ∧
    (cwf b.streams = true → ∀ q l, l < 32 → q ≠ d → b'.stream q l = b.stream q l ∧ b'.tag q = b.tag q)

theorem StreamOnly.refl (d : Nat) (b : Block) : StreamOnly d b b := ⟨rfl, fun _ _ _ _ _ => ⟨rfl, rfl⟩⟩

theorem StreamOnly.uid {d : Nat} {b b' : Block} (h : StreamOnly d b b') : b'.uid = b.uid := by rw [h.1]

/-- Another entry of an association list. -/
theorem assocGet_assocSet_ne {α : Type} (l : List (Nat × α)) {k q : Nat} (v : α) (h : q ≠ k) :
    assocGet (assocSet l k v) q = assocGet l q := by
  have hkq : (k == q) = false := beq_eq_false_iff_ne.mpr h.symm
  unfold assocGet
  induction l with
  | nil => simp [assocSet, hkq]
  | cons x l ih =>
    obtain ⟨a, y⟩ := x
    unfold assocSet
    split
    · rw [List.find?_cons, hkq]
    split
    · next hka => rw [List.find?_cons, hkq, List.find?_cons, ← hka, hkq]
    · simp only [List.find?_cons]
      split
      · rfl
      · exact ih

theorem blockOf_uid (s : State) (c : Ic) : (s.blockOf c).uid = c.b.uid := by
  unfold State.blockOf
  cases h : s.block? c.b.uid with
  | none => rfl
  | some b => simpa using List.find?_some (p := fun b : Block => b.uid == c.b.uid) h

/-- A stream register that is written, with its tag. -/
theorem StreamOnly.put (d : Nat) (b : Block) (tag : StreamTag) (x : Nat → BitVec 1024) :
    StreamOnly d b { b with streams := cput b.streams (32 * d) (lanes.map x), tags := assocSet b.tags d tag } := by
  refine ⟨rfl, fun hwf q l hl hq => ⟨?_, ?_⟩⟩
  · have hlanes : (lanes.map x).length = 32 := by simp [lanes]
    unfold Block.stream
    rw [cget_cput hwf, hlanes, if_neg (by omega)]
  · exact congrArg (Option.getD · {}) (assocGet_assocSet_ne b.tags tag hq)

/-- The block of an instruction's warp changes in one stream. -/
def InStream (d : Nat) (b : Block) : State → State → Prop := OneBlock false b.uid (StreamOnly d)

theorem InStream.framed {d : Nat} (b : Block) : Framed false (InStream d b) := OneBlock.framed (StreamOnly.refl d)

theorem InStream.putStream (c : Ic) (s : State) (d : Nat) (tag : StreamTag) (x : Nat → BitVec 1024) :
    InStream d c.b s (s.putStream (s.blockOf c).uid d tag x) := by
  rw [blockOf_uid]
  exact OneBlock.modBlock (StreamOnly.refl d) StreamOnly.uid (fun b => StreamOnly.put d b tag x) s

/-- An instruction that writes one stream (R290, R292). -/
theorem steps_of_put {i : Instr} {d : Nat} {ops : List (BitVec 8)} {pairs : List (BitVec 8 × BitVec 8)} {ill : Ic → Bool}
    {tag : Ic → State → Block → StreamTag} {x : Ic → State → Block → Nat → BitVec 1024}
    (he : ∀ s, exec i s = streamInstr i s ops pairs ill fun c s b => s.putStream b.uid d (tag c s b) (x c s b)) :
    StepsWithin i (InStream d) :=
  steps_of_stream InStream.framed he fun c s => InStream.putStream c s d _ _

theorem streamBin_frame {i : Instr} {f : RegForm} {op : BitVec 1024 → BitVec 1024 → BitVec 1024}
    (he : ∀ s, exec i s = streamBin i f s op) : StepsWithin i (InStream f.d.toNat) := steps_of_put he

/-! ### The length, a seed, and what is only read (R287 to R289, R293) -/

/-- A block changes in its length only (R288). -/
def LengthOnly (b b' : Block) : Prop := b' = { b with slen := b'.slen }

theorem LengthOnly.refl (b : Block) : LengthOnly b b := rfl

theorem LengthOnly.uid {b b' : Block} (h : LengthOnly b b') : b'.uid = b.uid := by
  rw [LengthOnly] at h
  rw [h]

theorem slen_frame (f : RegForm) : StepsWithin (.slen f) fun b => OneBlock false b.uid LengthOnly := by
  refine steps_of_run (fun _ => OneBlock.framed LengthOnly.refl) (fun _ => rfl) fun c s => ?_
  dsimp only
  split
  · refine OneBlock.modBlock LengthOnly.refl LengthOnly.uid (fun _ => ?_) s
    rfl
  · trivial

/-- All storage is the same, but for bytes of memory in a range. -/
def MemoryRange (lo n : Nat) (s t : State) : Prop :=
  SameData false s { t with mem := s.mem } ∧
    (Memory.wf s.mem = true → ∀ a, a < lo ∨ lo + n ≤ a → byteAt t a = byteAt s a)

theorem SameData.withMem {fl : Bool} {s t : State} (h : SameData fl s t) (m : Memory) :
    SameData fl { s with mem := m } { t with mem := m } := by
  obtain ⟨⟨-, hwells, hfull, hpoison, hblocks, hgrids, htasks, hctxs⟩, hregs⟩ := h
  exact ⟨⟨rfl, hwells, hfull, hpoison, hblocks, hgrids, htasks, hctxs⟩, hregs⟩

theorem MemoryRange.framed (lo n : Nat) : Framed false (MemoryRange lo n) where
  same {a b} h := ⟨h.withMem a.mem, fun _ k _ => by rw [byteAt, h.mem_eq, byteAt]⟩
  between {a b c d} h k j := by
    obtain ⟨hdata, hbytes⟩ := k
    refine ⟨h.trans (hdata.trans ?_), fun hwf x hx => ?_⟩
    · rw [h.mem_eq]
      exact j.withMem a.mem
    · have hx := hbytes (by rwa [h.mem_eq]) x hx
      rwa [byteAt, byteAt, h.mem_eq, ← j.mem_eq] at hx

theorem MemoryRange.writeNat (s : State) (lo n v : Nat) : MemoryRange lo n s { s with mem := writeNat s.mem lo n v } :=
  ⟨SameData.of_eq, fun hwf a ha => by
    unfold byteAt Machine.writeNat
    rw [cget_writeBytes hwf, length_bytesOfNat, if_neg (by omega)]⟩

theorem sseed_frame {f : RegForm} {s t : State} {c : Ic} (hc : s.issueCtx (common (.sseed f)) = some c)
    (h : exec (.sseed f) s = .next t) (hu : Unfaulted t c) :
    MemoryRange ((enteredState (.sseed f) s c).seedAt c.b.ctx (classOf (enteredIc (.sseed f) s c) f)) 8 s t := by
  refine run_within (MemoryRange.framed _ _) hc h hu ?_
  dsimp only
  split
  · trivial
  · exact MemoryRange.writeNat _ _ _ _

theorem scnt_frame (f : RegForm) : StepsWithin (.scnt f) fun _ => SameData false :=
  steps_of_stream (fun _ => SameData.framed false) (execScnt.eq_def f) fun _ _ => SameData.owed_plain (fun _ => rfl) _ _ _ _

theorem sclass_frame (f : RegForm) : StepsWithin (.sclass f) fun _ => SameData false := by
  refine steps_of_stream (fun _ => SameData.framed false) (execSclass.eq_def f) fun c s => ?_
  refine SameData.owed_plain (fun l => ?_) _ _ _ _
  split <;> rfl

/-- Settles O55: each by the one piece of storage that its meaning changes. -/
theorem streamFrame : Obligations.StreamFrame := by
  unfold Obligations.StreamFrame
  intro f i s t c hi h hu
  have hc := hi.ctx
  simp only [List.mem_cons, List.not_mem_nil, or_false]
  refine ⟨?reads, ?slen, ?sseed, ?streams⟩
  case reads =>
    rintro (rfl | rfl)
    · exact scnt_frame f s t c hc h hu
    · exact sclass_frame f s t c hc h hu
  case slen =>
    rintro rfl
    exact slen_frame f s t c hc h hu
  case sseed =>
    rintro rfl
    exact sseed_frame hc h hu
  case streams =>
    intro hput
    have hsteps : StepsWithin i (InStream f.d.toNat) := by
      rcases hput with rfl | rfl | rfl | rfl | rfl | rfl | rfl | rfl | rfl | rfl
      · exact steps_of_put (execSgen.eq_def f)
      · exact steps_of_put (execSregen.eq_def f)
      · exact streamBin_frame (execSand.eq_def f)
      · exact streamBin_frame (execSor.eq_def f)
      · exact streamBin_frame (execSxor.eq_def f)
      · exact streamBin_frame (execSxnor.eq_def f)
      · exact steps_of_put (execSnot.eq_def f)
      · exact steps_of_put (execSmux.eq_def f)
      · exact steps_of_put (execSshift.eq_def f)
      · exact steps_of_put (execSmov.eq_def f)
    exact hsteps s t c hc h hu

end Sys2Proof

/-! PROOFS. Write-backs, their acknowledgements and the migration hold (O42): each event finds its message and passes its
conditions (`happens_of`, Laws/Bodies.lean). -/

namespace Sys2Proof

open Sys2Proof.Machine Sys2Proof.Claims

/-! ### A write-back at its home (R330, R384, R419) -/

/-- A write-back to a migrating page is held, once: its home writes nothing (R419). -/
theorem lineWriteback_holds {s : State} {n : Nat} {m : Msg} {x : Wb} (hm : s.msg? n = some m) (hk : m.kind = .wb x)
    (hreach : s.reach m = true) (hrefused : m.refused = false) (hmig : x.mig = true) (hheld : m.heldAt = none) :
    Happens (.lineWriteback n) s (s.holdMsg n) := by
  refine happens_of rfl ?_
  simp only [hm, hk, hreach, hrefused, hmig, hheld, Option.isSome_none, Bool.not_true, Bool.or_self, Bool.false_eq_true,
    if_false, if_true]

/-- Any other write-back waits for its core's earlier accesses to the line (R384); its acknowledgement carries the time of the write
(R309). -/
theorem lineWriteback_writes {s s1 : State} {n : Nat} {m : Msg} {x : Wb} (hm : s.msg? n = some m) (hk : m.kind = .wb x)
    (hreach : s.reach m = true) (hrefused : m.refused = false) (hmig : x.mig = false) (hclear : s.lineClear m = true)
    (hhome : s.homeReady x.loc x.line = some s1) :
    let u := ((s1.dropMsg n).softWrite x.line x.mask x.data).relsMove none x.rels
    Happens (.lineWriteback n) s ((u.bindWake x.line 64).send (.wbAck x.owners n u.time x.core x.loc x.line)) := by
  refine happens_of rfl ?_
  simp only [hm, hk, hreach, hrefused, hmig, hclear, hhome, Bool.not_true, Bool.or_self, Bool.false_eq_true, if_false,
    Option.map_some]

/-! ### What follows it (R309, R330, R419) -/

theorem writebackAck_happens {s : State} {n k t core loc line : Nat} {m : Msg} {owners : List (Nat × Nat × Word)}
    (hm : s.msg? n = some m) (hk : m.kind = .wbAck owners k t core loc line) (hhere : s.respHere m = true) :
    Happens (.writebackAck n) s (owners.foldl (fun (s : State) o => s.wbDone o.1 o.2.1 k o.2.2 t) (s.dropMsg n)) := by
  refine happens_of rfl ?_
  simp only [hm, hk, hhere, Bool.not_true, Bool.false_eq_true, if_false]

/-- A write that has been held for 20 µs is refused (R419). -/
theorem migrationHoldTimeout_happens {s : State} {n t : Nat} {m : Msg} (hm : s.msg? n = some m) (hheld : m.heldAt = some t)
    (hlate : t + 20000 ≤ s.time) (hrefused : m.refused = false) :
    Happens (.migrationHoldTimeout n) s (s.refuseWrite m { code := .pageAbsent, cause := 3 }) := by
  refine happens_of rfl ?_
  simp only [hm, hheld, hlate, hrefused, Option.any_some, decide_true, Bool.not_false, Bool.and_self, if_true]

/-- Settles O42: a write-back is held or performed as its page migrates or not, and each event that follows passes its conditions. -/
theorem writebackEvents : Obligations.WritebackEvents := by
  unfold Obligations.WritebackEvents
  exact ⟨fun _ _ _ _ hm hk hreach hrefused =>
      ⟨lineWriteback_holds hm hk hreach hrefused, fun _ => lineWriteback_writes hm hk hreach hrefused⟩,
    fun _ _ _ _ _ _ _ _ _ => writebackAck_happens, fun _ _ _ _ => migrationHoldTimeout_happens⟩

end Sys2Proof

/-! PROOFS. The choice of a scheduler (O13) and the host's commands (O48). -/

namespace Sys2Proof

open Sys2Proof.Machine Sys2Proof.Claims

/-! ### What a scheduler chooses (R355, R426, R427) -/

/-- What `bestBy` finds stands in the list. -/
theorem mem_of_bestBy {α : Type} {lt : α → α → Bool} {x : α} {xs : List α} (h : bestBy lt xs = some x) : x ∈ xs := by
  induction xs generalizing x with
  | nil => cases h
  | cons y ys ih =>
    rw [bestBy] at h
    cases hbest : bestBy lt ys with
    | none =>
      rw [hbest] at h
      exact Option.some.inj h ▸ List.mem_cons_self
    | some z =>
      simp only [hbest] at h
      split at h
      · exact Option.some.inj h ▸ List.mem_cons_of_mem y (ih hbest)
      · exact Option.some.inj h ▸ List.mem_cons_self

/-- Whether or not it had to fall back on warps that yielded (R180), a scheduler chooses one of its own warps. -/
theorem schedWarps_of_chooseWarp {s : State} {core sched : Nat} {w : Warp} (h : s.chooseWarp core sched = some w) :
    w ∈ s.schedWarps core sched := by
  have hready := mem_of_bestBy h
  split at hready
  · exact (List.mem_filter.mp hready).1
  · exact (List.mem_filter.mp (List.mem_filter.mp hready).1).1

theorem mem_schedWarps_iff {s : State} {core sched : Nat} {w : Warp} :
    w ∈ s.schedWarps core sched ↔ w ∈ s.warps ∧ w.core = core ∧ w.slot / 32 = sched ∧ s.mayIssue w = true := by
  simp only [State.schedWarps, List.mem_filter, Bool.and_eq_true, beq_iff_eq, and_assoc]

theorem mayIssue_iff {s : State} {w : Warp} :
    s.mayIssue w = true ↔ w.resident = true ∧ w.released = false ∧ w.held = false ∧ w.faultStall = none ∧ w.acq = none ∧
      (s.gives.any fun g => g.uid == w.uid && g.wid == w.wid) = false ∧ ∃ b, s.block? w.uid = some b ∧ b.st = .resident := by
  simp only [State.mayIssue, Warp.holds, Bool.and_eq_true, Bool.not_eq_true', Option.isNone_iff_eq_none, Option.any_eq_true,
    beq_iff_eq, and_assoc]

/-- Settles O13: a scheduler chooses one of its own warps that may issue. -/
theorem heldWarpsAreNotChosen : Obligations.HeldWarpsAreNotChosen := by
  unfold Obligations.HeldWarpsAreNotChosen
  intro s core sched w h
  obtain ⟨-, hcore, hsched, hmay⟩ := mem_schedWarps_iff.mp (schedWarps_of_chooseWarp h)
  obtain ⟨hresident, hreleased, hheld, hfault, hacq, -, hblock⟩ := mayIssue_iff.mp hmay
  exact ⟨hheld, hfault, hacq, hreleased, hresident, hblock, hcore, hsched⟩

/-! ### The host's commands (R475) -/

/-- A command whose arguments are good, as the effect `f` of its event finds, is performed and completes with status 0. -/
theorem commanded_of {i : Instr} {mine : Nat → Bool} {f : Nat → State → Option State} {go : Nat → State → State → Prop}
    (he : ∀ s, exec i s = command s mine f) (hgo : ∀ v s t, go v s t → f v s = some t) : Commanded i mine go := by
  intro s t r v hruns hnext hmine heffect
  refine happens_of (he s) ?_
  simp only [hruns, hnext, hmine, hgo v _ t heffect, Bool.not_true, Bool.false_eq_true, if_false]

/-- Settles O48: each command is the next of its event, and its arguments pass their check. A launch is no `Commanded` event: its
completion is left to the grid's acceptance (R340). A slice table has four cases: slices are on and it waits for the boundary; it
turns them on; it keeps them off, with no table pending, or in place of the one that is (R369). -/
theorem hostCommands : Obligations.HostCommands := by
  unfold Obligations.HostCommands
  refine ⟨?launch,
    commanded_of execCmdCreateContext.eq_def fun v s t h => congrArg some h.symm,
    commanded_of execCmdKillContext.eq_def ?kill,
    commanded_of execCmdWritePartitionTable.eq_def ?partitions,
    commanded_of execCmdWriteSliceTable.eq_def ?slices,
    commanded_of execCmdWriteCollGroups.eq_def ?groups,
    commanded_of execCmdEnterWeightLoad.eq_def ?enter,
    commanded_of execCmdLeaveWeightLoad.eq_def ?leave,
    commanded_of execCmdSetCtxbase.eq_def ?base,
    commanded_of execCmdWritePowerControl.eq_def ?power,
    commanded_of execCmdWriteStitch.eq_def ?stitch,
    commanded_of execCmdReloadContext.eq_def ?reload⟩
  case launch =>
    intro s r v l k p hruns hnext hop u hlives haligned hgood
    refine happens_of rfl ?_
    have hok : ((u.ctx (cmdCtx v)).lives && cmdAddr v % 64 == 0) = true := by rw [hlives, haligned]; rfl
    simp only [hruns, hnext, hop, Bool.not_true, Bool.false_eq_true, ne_eq, not_true_eq_false, if_false]
    rw [if_pos hok, hgood]
  case kill =>
    rintro v s t ⟨hlives, rfl⟩
    simp only [hlives, Bool.not_true, Bool.false_eq_true, if_false]
  case partitions =>
    rintro v s t ⟨ps, hps, rfl⟩
    rw [hps, Option.map_some]
  case slices =>
    rintro v s t ⟨x, hx, hcase⟩
    rw [hx, Option.map_some, Option.some.injEq]
    rcases hcase with ⟨hon, rfl⟩ | ⟨hoff, hnew, rfl⟩ | ⟨hoff, hnew, hpending, rfl⟩ | ⟨hoff, hnew, y, at', hpending, rfl⟩
    · exact if_pos hon
    · simp only [hoff, hnew, ne_eq, not_true_eq_false, not_false_eq_true, if_false, if_true]
    · simp only [hoff, hnew, hpending, ne_eq, not_true_eq_false, if_false]
    · simp only [hoff, hnew, hpending, ne_eq, not_true_eq_false, if_false]
  case groups =>
    rintro v s t ⟨gs, hfits, hgs, rfl⟩
    simp only [Nat.not_lt.mpr hfits, hgs, if_false, Option.map_some]
  case enter =>
    rintro v s t ⟨ds, hds, hidle, rfl⟩
    simp only [hds, hidle, Bool.false_eq_true, if_false]
  case leave =>
    rintro v s t ⟨ds, hds, rfl⟩
    rw [hds, Option.map_some]
  case base =>
    rintro v s t ⟨hnone, rfl⟩
    simp only [hnone, Bool.false_eq_true, if_false]
  case power =>
    rintro v s t ⟨hmax, hmax', hmin, hmin', hcap, hcap', rfl⟩
    simp only [Nat.not_lt.mpr hmax, Nat.not_lt.mpr hmax', Nat.not_lt.mpr hmin, Nat.not_lt.mpr hmin', Nat.not_lt.mpr hcap,
      Nat.not_lt.mpr hcap', decide_false, Bool.or_self, Bool.false_eq_true, if_false]
  case stitch =>
    rintro v s t ⟨hok, rfl⟩
    simp only [hok, Bool.not_true, Bool.false_eq_true, if_false]
  case reload =>
    rintro v s t ⟨hlives, rfl⟩
    simp only [hlives, Bool.not_true, Bool.false_eq_true, if_false]

end Sys2Proof

/-! PROOFS. Memory and host: memories in canonical form (O57), the state after reset (O58), and the host's register, trace, BAR2
and doorbell writes (O47). -/

namespace Sys2Proof

open Sys2Proof.Machine Sys2Proof.Claims

/-! ### Canonical memories (R375) -/

/-- Above its first key, which holds something, a canonical list reads as its tail does. -/
theorem cget_tail {w lo a : Nat} {v : BitVec w} {t : Cells w} (h : cwfFrom lo ((a, v) :: t) = true) (k : Nat) :
    cget t k = if k ≤ a then 0 else cget ((a, v) :: t) k := by
  obtain ⟨-, -, ht⟩ := (cwfFrom_cons ..).mp h
  split
  · exact cget_below ht (by omega)
  · exact (cget_cons_gt v t (by omega)).symm

/-- A canonical list holds something at its first key. -/
theorem cget_first_ne_zero {w lo a : Nat} {v : BitVec w} {t : Cells w} (h : cwfFrom lo ((a, v) :: t) = true) :
    cget ((a, v) :: t) a ≠ 0 := by
  obtain ⟨-, hv, -⟩ := (cwfFrom_cons ..).mp h
  rwa [cget_cons_self]

/-- The first key of a canonical list is no lower than that of another that reads alike. -/
theorem first_key_le {w lo a b : Nat} {x y : BitVec w} {s t : Cells w} (ha : cwfFrom lo ((a, x) :: s) = true)
    (hread : ∀ k, cget ((a, x) :: s) k = cget ((b, y) :: t) k) : b ≤ a := by
  by_contra hlt
  have hzero : cget ((b, y) :: t) a = 0 := by rw [cget_cons, if_pos (by omega)]
  exact cget_first_ne_zero ha (by rw [hread, hzero])

/-- Canonical lists that read alike are equal: their first keys agree, and so do their first cells and what their tails read. -/
theorem cells_ext {w lo : Nat} {c d : Cells w} (hc : cwfFrom lo c = true) (hd : cwfFrom lo d = true)
    (hread : ∀ k, cget c k = cget d k) : c = d := by
  induction c generalizing lo d with
  | nil =>
    cases d with
    | nil => rfl
    | cons y t => exact absurd (hread y.1).symm (cget_first_ne_zero hd)
  | cons x s ih =>
    cases d with
    | nil => exact absurd (hread x.1) (cget_first_ne_zero hc)
    | cons y t =>
      obtain ⟨a, v⟩ := x
      obtain ⟨b, z⟩ := y
      obtain rfl : a = b := Nat.le_antisymm (first_key_le hd fun k => (hread k).symm) (first_key_le hc hread)
      obtain rfl : v = z := by simpa only [cget_cons_self] using hread a
      obtain ⟨-, -, hs⟩ := (cwfFrom_cons ..).mp hc
      obtain ⟨-, -, ht⟩ := (cwfFrom_cons ..).mp hd
      rw [ih hs ht fun k => by rw [cget_tail hc, cget_tail hd, hread]]

/-- Settles O57: a canonical list is what it reads as. -/
theorem memoryFormUnique : Obligations.MemoryFormUnique := by
  unfold Obligations.MemoryFormUnique
  exact fun _ _ ha hb hread => cells_ext (w := 8) ha hb hread

/-! ### The state after reset (R460, R473, R481, R482) -/

/-- Settles O58: each field is the one that `State.reset` gives, and every die is one of `Die.reset`. -/
theorem resetState : Obligations.ResetState := by
  unfold Obligations.ResetState
  refine ⟨rfl, rfl, rfl, rfl, rfl, rfl, rfl, rfl, rfl, rfl, fun _ => rfl, fun _ => ⟨rfl, rfl⟩, rfl, fun d hd => ?dies, rfl⟩
  case dies =>
    obtain ⟨n, -, rfl⟩ := List.mem_map.mp hd
    exact ⟨rfl, rfl, rfl, rfl, rfl, rfl⟩

/-! ### The host's writes (R438 to R441, R473 to R475) -/

/-- The device registers answer while neither a wipe nor the recovery image bars them (R473). -/
theorem barOpen_iff {s : State} : s.barOpen = true ↔ s.plat.wipe = false ∧ s.plat.recovery = false := by
  simp [State.barOpen]

theorem registerWrite_happens {s : State} {offset : Nat} (v : BitVec 64) (hfn : offset / barBytes ≤ 64) (hrec : s.plat.recovery = false) :
    Happens (.registerWrite offset v) s (s.barWrite (offset / barBytes) (offset % barBytes) v) := by
  refine happens_of rfl ?_
  simp only [hrec, Nat.not_lt.mpr hfn, decide_false, Bool.or_self, Bool.false_eq_true, if_false]

/-- Where the word `w` of a die's address-range entry `k` stands (R377). -/
theorem rangeReg_entry {d k w : Nat} (hd : d < Config.nDies) (hk : k < 64) (hw : w < 3) :
    rangeReg 64 (2048 * d + 32 * k + 8 * w) = some (d, k, w) := by
  have hn : Config.nDies = 4 := rfl
  rw [hn] at hd
  unfold rangeReg
  rw [if_pos (by rw [hn]; omega)]
  simp only [Option.some.injEq, Prod.mk.injEq]
  omega

theorem rangeWrite_happens {s : State} {d k w : Nat} (v : BitVec 64) (hd : d < Config.nDies) (hk : k < 64) (hw : w < 3)
    (hopen : s.barOpen = true) :
    Happens (.registerWrite (64 * barBytes + 2048 * d + 32 * k + 8 * w) v) s (s.putRange d k w v) := by
  obtain ⟨-, hrec⟩ := barOpen_iff.mp hopen
  have hn : Config.nDies = 4 := rfl
  have hb : barBytes = 67108864 := rfl
  rw [hn] at hd
  have hfn : (64 * barBytes + 2048 * d + 32 * k + 8 * w) / barBytes = 64 := by rw [hb]; omega
  have hoff : (64 * barBytes + 2048 * d + 32 * k + 8 * w) % barBytes = 2048 * d + 32 * k + 8 * w := by rw [hb]; omega
  have hwrite : s.barWrite 64 (2048 * d + 32 * k + 8 * w) v = s.putRange d k w v := by
    unfold State.barWrite
    rw [if_neg (by omega), if_neg (by simp [hopen]), rangeReg_entry (by omega) hk hw]
  have h := registerWrite_happens (s := s) v (Nat.le_of_eq hfn) hrec
  rwa [hfn, hoff, hwrite] at h

/-- The reserved bits of TRCTL, which stay zero, leave its enable bit alone (R438). -/
theorem trctl_enable (v : BitVec 64) : (v &&& ~~~(0xC0FC#64)).getLsbD 0 = v.getLsbD 0 := by
  have : (0xC0FC#64).getLsbD 0 = false := rfl
  rw [BitVec.getLsbD_and, BitVec.getLsbD_not, this]
  simp

theorem trctlWrite_happens {s : State} {die : Nat} {v : BitVec 64} (hopen : s.barOpen = true) (hdie : die < Config.nDies)
    (hold : (s.die die).trace.en = true ∨ v.getLsbD 0 = false) :
    Happens (.trctlWrite die v) s (s.modDie die fun d =>
      { d with trace := { (s.die die).trace with ctl := v &&& ~~~(0xC0FC#64), on := (s.die die).trace.on && v.getLsbD 0 } }) := by
  have hfresh : (!(s.die die).trace.en && v.getLsbD 0) = false := by
    rcases hold with h | h <;> simp only [h, Bool.not_true, Bool.false_and, Bool.and_false]
  refine happens_of rfl ?_
  simp only [hopen, Nat.not_le.mpr hdie, trctl_enable, hfresh, Bool.not_true, decide_false, Bool.or_self, Bool.false_eq_true, if_false]

theorem traceEnable : TraceEnable := by
  intro s die v hopen hdie hoff hon
  refine happens_of rfl ?_
  simp only [hopen, Nat.not_le.mpr hdie, trctl_enable, hoff, hon, Bool.not_true, Bool.not_false, Bool.and_self, decide_false,
    Bool.or_self, Bool.false_eq_true, if_false, if_true]

theorem trstatWrite_happens {s : State} {die : Nat} {v : BitVec 32} (hopen : s.barOpen = true) (hdie : die < Config.nDies)
    (hclear : v.getLsbD 31 = true) :
    Happens (.trstatWrite die v) s (s.modDie die fun d =>
      { d with trace := { d.trace with lost := false, drop := 0, on := d.trace.en } }) := by
  refine happens_of rfl ?_
  simp only [hopen, Nat.not_le.mpr hdie, hclear, Bool.not_true, decide_false, Bool.or_self, Bool.false_eq_true, if_false]

/-- What holds of every number below `n` holds of the whole range. -/
theorem all_range {n : Nat} {p : Nat → Bool} (h : ∀ k < n, p k = true) : (List.range n).all p = true :=
  List.all_eq_true.mpr fun k hk => h k (List.mem_range.mp hk)

theorem bar2Write_happens {s : State} {x : HostAccess} (hrec : s.plat.recovery = false) (hwipe : s.plat.wipe = false)
    (hwrite : x.write = true) (hfits : x.offset + (x.data.take x.len).length ≤ 2 ^ 36)
    (hmay : ∀ k < (x.data.take x.len).length, s.hostReach (s.plat.winbase.toNat + x.offset + k) = true ∧
      s.hostWritable (s.plat.winbase.toNat + x.offset + k) = true) :
    Happens (.hostBar2Access x) s (((s.softBytes (s.plat.winbase.toNat + x.offset) (x.data.take x.len)).storeMended
      (s.plat.winbase.toNat + x.offset) (x.data.take x.len).length).bindWake (s.plat.winbase.toNat + x.offset)
        (x.data.take x.len).length) := by
  have hreach := all_range fun k hk => (hmay k hk).1
  have hwritable := all_range fun k hk => (hmay k hk).2
  refine happens_of rfl ?_
  simp only [hrec, hwipe, hwrite, hreach, hwritable, Nat.not_lt.mpr hfits, if_true, Bool.not_true, Bool.not_false, Bool.and_false,
    decide_false, Bool.or_self, Bool.false_eq_true, if_false]

theorem bar2Read_happens {s : State} {x : HostAccess} (hrec : s.plat.recovery = false) (hread : x.write = false)
    (hfits : x.offset + x.len ≤ 2 ^ 36) (hmay : ∀ k < x.len, s.hostReach (s.plat.winbase.toNat + x.offset + k) = true) :
    Happens (.hostBar2Access x) s
      { s with freeCtr := s.freeCtr + 1,
               plat := { s.plat with hostReads := s.plat.hostReads ++
                 [(List.range x.len).map fun k => s.hostByte (s.plat.winbase.toNat + x.offset + k)] } } := by
  refine happens_of rfl ?_
  simp only [hrec, hread, all_range hmay, Nat.not_lt.mpr hfits, Bool.not_true, Bool.not_false, Bool.and_false, decide_false,
    Bool.or_self, Bool.false_eq_true, if_false, if_true]

theorem doorbellWrite_happens {s : State} {q : Nat} {r : QueueRun} (hruns : s.cmdsRun = true) (hq : q < 1024) (hr : s.queueHdr q = some r) :
    Happens (.doorbellWrite q) s (({ s with plat := { s.plat with
      queues := sortBy (fun x y => x.queue < y.queue) (r :: s.plat.queues.filter fun r => r.queue != q) } } : State).rejectAll) := by
  refine happens_of rfl ?_
  simp only [hruns, hr, Nat.not_le.mpr hq, Bool.not_true, decide_false, Bool.or_self, Bool.false_eq_true, if_false]

theorem hostWrites : HostWrites :=
  ⟨fun _ _ v => registerWrite_happens v, fun _ _ _ _ v => rangeWrite_happens v, fun _ _ _ => trctlWrite_happens,
    fun _ _ _ => trstatWrite_happens, fun _ _ hrec hwipe => ⟨bar2Write_happens hrec hwipe, bar2Read_happens hrec⟩,
    fun _ _ _ => doorbellWrite_happens⟩

/-- Settles O47: each write finds its register open and its operands in range. -/
theorem hostRegisterEvents : Obligations.HostRegisterEvents := ⟨hostWrites, traceEnable⟩

end Sys2Proof

/-! PROOFS. Every step keeps memory in its canonical form (O59, log entry 26). The functions of the model are taken in their own order,
one lemma each. A function that leaves memory alone has a lemma `mem_f`; one that may write it has a lemma `Formed.f`, which names
the functions through which it writes. The few that build a new memory themselves do it with `cset`, `writeBytes`, `writeNat`,
`writeMasked`, `writeLines` or a filter, each of which keeps the form (Laws/Cells). -/

namespace Sys2Proof

open Sys2Proof.Machine

/-! ### The form, and what hands it on -/

/-- Memory is in canonical form: what a step has to keep. -/
abbrev Formed (s : State) : Prop := Memory.wf s.mem = true

/-- What an instruction body answers keeps the form wherever it hands a state on; a fault record hands none. -/
def FormedRes : Res → Prop
  | .done s _ => Formed s
  | .stall s => Formed s
  | .raw s => Formed s
  | .fault _ => True
  | .brk _ => True

/-- What the gate answers, an end of the issue or the state in which the meaning runs, keeps the form. -/
def FormedGate : Gate → Prop
  | .out s => Formed s
  | .go _ s => Formed s

/-- The outcome of an instruction or an event keeps the form. -/
def FormedOut : Out → Prop
  | .next s => Formed s
  | .fault _ => True
  | .refused _ => True

theorem Formed.of_mem {s t : State} (h : Formed s) (e : t.mem = s.mem) : Formed t := by rwa [Formed, e]

theorem Formed.foldl {α : Type} (f : State → α → State) (hf : ∀ s x, Formed s → Formed (f s x)) (l : List α)
    {s : State} (h : Formed s) : Formed (l.foldl f s) := by
  induction l generalizing s with
  | nil => exact h
  | cons a t ih => exact ih (hf _ _ h)

theorem Formed.foldl_fst {α β : Type} (f : State × β → α → State × β) (hf : ∀ x y, Formed x.1 → Formed (f x y).1) (l : List α)
    {x : State × β} (h : Formed x.1) : Formed (l.foldl f x).1 := by
  induction l generalizing x with
  | nil => exact h
  | cons a t ih => exact ih (hf _ _ h)

theorem Formed.foldl_snd {α β : Type} (f : β × State → α → β × State) (hf : ∀ x y, Formed x.2 → Formed (f x y).2) (l : List α)
    {x : β × State} (h : Formed x.2) : Formed (l.foldl f x).2 := by
  induction l generalizing x with
  | nil => exact h
  | cons a t ih => exact ih (hf _ _ h)

/-- A loop that gives up at the first failure. -/
theorem Formed.foldl_bind {α : Type} {s : State} (h : Formed s) (f : State → α → Option State)
    (hf : ∀ s x t, Formed s → f s x = some t → Formed t) (l : List α) {t : State}
    (e : l.foldl (fun (o : Option State) x => o.bind fun s => f s x) (some s) = some t) : Formed t := by
  refine List.foldlRecOn (motive := fun o => ∀ t, o = some t → Formed t) l _ (fun t e => Option.some.inj e ▸ h)
    (fun o ho x _ t e => ?_) t e
  obtain ⟨u, hu, hx⟩ := Option.bind_eq_some_iff.mp e
  exact hf _ _ _ (ho u hu) hx

theorem mem_foldl {α : Type} (f : State → α → State) (hf : ∀ s x, (f s x).mem = s.mem) (l : List α) (s : State) :
    (l.foldl f s).mem = s.mem := by
  induction l generalizing s with
  | nil => rfl
  | cons a t ih => rw [List.foldl_cons, ih, hf]

theorem mem_getD {s : State} {o : Option State} (h : ∀ t, o = some t → t.mem = s.mem) : (o.getD s).mem = s.mem := by
  cases o with
  | none => rfl
  | some t => exact h t rfl

theorem wf_writeLines {m : Memory} (h : Memory.wf m = true) (as : List Nat) (bs : List Byte) :
    Memory.wf (writeLines m as bs) = true := by
  fun_induction writeLines <;> grind [wf_writeBytes]

theorem wf_writeSlot {m : Memory} (h : Memory.wf m = true) (pas : List Nat) (off : Nat) (bs : List Byte) :
    Memory.wf (writeSlot m pas off bs) = true :=
  wf_writeLines h ..

/-! ### Named reads and writes of the state -/

@[simp] theorem mem_draw (s : State) (what n : Nat) : (s.draw what n).2.mem = s.mem := rfl
@[simp] theorem mem_drawBytes (s : State) (n : Nat) : (s.drawBytes n).2.mem = s.mem := rfl

@[simp] theorem mem_interrupt (s : State) (v : Nat) (ctx : Option Nat) : (s.interrupt v ctx).mem = s.mem := by
  unfold State.interrupt
  grind

/-! ### Translation, and writes at the home of a line (R375 to R384, R409 to R416) -/

@[simp] theorem mem_tlbPut (s : State) (e : TlbEntry) : (s.tlbPut e).mem = s.mem := by
  unfold State.tlbPut
  grind [mem_draw]

@[simp] theorem mem_tlbFill (s : State) (units : List TlbUnit) (ctx va level : Nat) (p : BitVec 64) :
    (s.tlbFill units ctx va level p).mem = s.mem := by
  unfold State.tlbFill
  grind [mem_tlbPut, mem_foldl]

@[simp] theorem mem_walkFill (s : State) (units : List TlbUnit) (ctx va level : Nat) (p : BitVec 64) :
    (s.walkFill units ctx va level p).mem = s.mem := by
  unfold State.walkFill
  grind [mem_tlbFill, mem_foldl]

@[simp] theorem mem_pickPte (s : State) (units : List TlbUnit) (ctx va : Nat) : (s.pickPte units ctx va).2.mem = s.mem := by
  unfold State.pickPte
  grind [mem_draw, mem_tlbFill, mem_walkFill]

@[simp] theorem mem_xlat (s : State) (units : List TlbUnit) (ctx va : Nat) (need : Need) :
    (s.xlat units ctx va need).2.mem = s.mem :=
  (SameData.xlat (fl := false) ..).mem_eq

@[simp] theorem mem_setBand (s : State) (b : Band) : (s.setBand b).mem = s.mem := by
  unfold State.setBand
  split <;> rfl

@[simp] theorem mem_eccDone (s : State) (line : Nat) : (s.eccDone line).mem = s.mem := rfl

theorem Formed.homeWrite {s : State} (h : Formed s) (line : Nat) (mask : BitVec 64) (data : BitVec 512) :
    Formed (s.homeWrite line mask data) := by
  unfold State.homeWrite
  extract_lets b whole s'
  have hs : Formed s' := wf_writeMasked h ..
  split
  · exact Formed.of_mem hs (mem_setBand ..)
  · exact hs

theorem Formed.homeBytes {s : State} (h : Formed s) (n : Nat) (bs : List Byte) : Formed (s.homeBytes n bs) := by
  refine Formed.foldl _ (fun s line h => ?_) _ (wf_writeBytes h ..)
  dsimp only
  split
  · exact h
  · exact Formed.of_mem h (mem_setBand ..)

@[simp] theorem mem_relsDrop (s : State) (core : Option Nat) (line : Nat) (mask : BitVec 64) :
    (s.relsDrop core line mask).mem = s.mem :=
  rfl

theorem Formed.softWrite {s : State} (h : Formed s) (line : Nat) (mask : BitVec 64) (data : BitVec 512) :
    Formed (s.softWrite line mask data) :=
  Formed.of_mem (Formed.homeWrite h ..) (mem_relsDrop ..)

theorem Formed.softLine {s : State} (h : Formed s) (n : Nat) (bs : List Byte) : Formed (s.softLine n bs) := Formed.softWrite h ..

theorem Formed.softRun {s : State} (h : Formed s) (n a : Nat) (l : List Byte) : Formed (softRun n s a l) := by
  fun_induction Machine.softRun <;> grind [Formed.softLine]

theorem Formed.softBytes {s : State} (h : Formed s) (n : Nat) (bs : List Byte) : Formed (s.softBytes n bs) := Formed.softRun h ..

@[simp] theorem mem_readVirt (s : State) (units : List TlbUnit) (ctx va n : Nat) : (s.readVirt units ctx va n).2.mem = s.mem := by
  fun_induction State.readVirt <;> grind [mem_xlat]

/-! ### The save area (R48 to R51) -/

theorem Formed.saveMod {s : State} (h : Formed s) (b : Block) (off n : Nat) (f : Nat → Nat) : Formed (s.saveMod b off n f) := by
  unfold State.saveMod
  split
  · exact wf_writeNat h ..
  · exact h

theorem Formed.saveWake {s : State} (h : Formed s) (b : Block) (wid lane : Nat) : Formed (s.saveWake b wid lane) :=
  Formed.saveMod h ..

theorem Formed.saveToken {s : State} (h : Formed s) (b : Block) (wid reg : Nat) (v : Word) : Formed (s.saveToken b wid reg v) := by
  unfold State.saveToken
  grind [Formed.saveMod]

/-! ### Trace records (R438 to R441) -/

theorem Formed.tracePut {s : State} (h : Formed s) (d body : Nat) : Formed (s.tracePut d body) := by
  unfold State.tracePut
  grind [State.modDie_mem, mem_xlat, mem_interrupt, wf_writeNat]

theorem Formed.syncDue {s : State} (h : Formed s) (d : Nat) : Formed (s.syncDue d) := by
  unfold State.syncDue
  grind [Formed.tracePut]

theorem Formed.syncPut {s : State} (h : Formed s) (d why : Nat) : Formed (s.syncPut d why) := by
  unfold State.syncPut
  grind [Formed.tracePut]

theorem Formed.traceRec {s : State} (h : Formed s) (d type body : Nat) : Formed (s.traceRec d type body) := by
  unfold State.traceRec
  grind [Formed.syncDue, Formed.tracePut]

@[simp] theorem mem_orFree (s : State) (v : Option Nat) : (s.orFree v).2.mem = s.mem := by
  unfold State.orFree
  split <;> rfl

theorem Formed.traceEvent {s : State} (h : Formed s) (d code : Nat) (arg : Option Nat) (pc : Option Pc) (eseq : Option Word)
    (slot : Option Nat) (ctx : Nat) :
    Formed (s.traceEvent d code arg pc eseq slot ctx) := by
  unfold State.traceEvent
  grind [mem_orFree, Formed.traceRec]

/-! ### Shared operations: wells, rings, records, completions, kills, faults -/

@[simp] theorem mem_relSetIn (s : State) (core : Option Nat) (n : Nat) (rels : List Machine.Rel) :
    (s.relSetIn core n rels).mem = s.mem :=
  rfl

@[simp] theorem mem_relSet (s : State) (n : Nat) (rels : List Machine.Rel) : (s.relSet n rels).mem = s.mem := rfl
@[simp] theorem mem_relsMove (s : State) (core : Option Nat) (rs : List RelStamp) : (s.relsMove core rs).mem = s.mem :=
  mem_foldl _ (fun _ _ => mem_relSetIn ..) _ _
@[simp] theorem mem_relPut (s : State) (n : Nat) (rels : List Machine.Rel) : (s.relPut n rels).mem = s.mem := rfl

@[simp] theorem mem_wellPutSoft (s : State) (key : Nat) (v : Word) : (s.wellPutSoft key v).mem = s.mem := by
  unfold State.wellPutSoft
  split <;> rfl

@[simp] theorem mem_wellByte (s : State) (key pos : Nat) (v : Byte) : (s.wellByte key pos v).mem = s.mem := mem_wellPutSoft ..

@[simp] theorem mem_wellWrite (s : State) (b : Block) (off : Nat) (l : List Byte) : (s.wellWrite b off l).mem = s.mem := by
  fun_induction State.wellWrite <;> grind [mem_wellByte]

theorem Formed.wakeWhere {s : State} (h : Formed s) (uid wid : Nat) (p : Nat → Thread → Bool) : Formed (s.wakeWhere uid wid p) := by
  unfold State.wakeWhere
  grind [State.setWarp_mem, Formed.saveWake, Formed.foldl]

theorem Formed.wake {s : State} (h : Formed s) (uid wid : Nat) (r : Reason) : Formed (s.wake uid wid r) := Formed.wakeWhere h ..

@[simp] theorem mem_ringAppend (s : State) (r : Machine.Ring) (msg : List Byte) (rel : Machine.Rel) :
    (s.ringAppend r msg rel).mem = s.mem := by
  unfold State.ringAppend
  grind [State.wellPut_mem, mem_relPut, mem_foldl]

@[simp] theorem mem_flushNotices (s : State) (ctx : Nat) : (s.flushNotices ctx).mem = s.mem := by
  unfold State.flushNotices
  grind [State.modCtx_mem, mem_ringAppend, mem_foldl]

@[simp] theorem mem_flushAll (s : State) : s.flushAll.mem = s.mem := by
  unfold State.flushAll
  grind [mem_flushNotices, mem_foldl]

@[simp] theorem mem_notice (s : State) (ctx : Nat) (k : NoticeKind) (v : Word) : (s.notice ctx k v).mem = s.mem :=
  (mem_flushNotices ..).trans (State.modCtx_mem ..)

@[simp] theorem mem_forward (s : State) (core ctx va loc pa : Nat) (tpin : Bool) :
    (s.forward core ctx va loc pa tpin).mem = s.mem :=
  (SameData.forward (fl := false) ..).mem_eq

@[simp] theorem mem_forwardLines (s : State) (core ctx va n : Nat) (need : Need) (units : List TlbUnit) :
    (s.forwardLines core ctx va n need units).mem = s.mem := by
  unfold State.forwardLines
  grind [mem_xlat, mem_forward, mem_foldl]

theorem Formed.flagStore {s : State} (h : Formed s) (pa : Nat) (bs : List Byte) : Formed (s.flagStore pa bs) :=
  Formed.of_mem (Formed.homeBytes h ..) (mem_relSet ..)
theorem Formed.ctxRecord32 {s : State} (h : Formed s) (ctx off : Nat) (v : Word) : Formed (s.ctxRecord32 ctx off v) :=
  Formed.flagStore h ..

theorem Formed.setFqovf {s : State} (h : Formed s) (ctx : Nat) (v : Word) : Formed (s.setFqovf ctx v) := by
  unfold State.setFqovf
  grind [Formed.ctxRecord32, State.modCtx_mem, mem_notice]

theorem Formed.unqueue {s : State} (h : Formed s) (w : Warp) (ctx : Nat) : Formed (s.unqueue w ctx) := by
  unfold State.unqueue
  grind [State.modWarp_mem, Formed.setFqovf]

theorem Formed.ringWrite {s : State} (h : Formed s) (core hctx : Nat) (r : RingHdr) (body : Nat) :
    Formed (s.ringWrite core hctx r body).1 := by
  unfold State.ringWrite
  grind [mem_xlat, Formed.homeBytes, mem_forwardLines, mem_relSet]

theorem Formed.putToken {s : State} (h : Formed s) (uid wid reg : Nat) (v : Word) (eng : Nat) :
    Formed (s.putToken uid wid reg v eng) := by
  unfold State.putToken
  extract_lets s'
  have hs : Formed s' := h
  split
  · split
    · split
      · exact wf_writeNat hs ..
      · exact hs
    · split
      · exact hs
      · exact hs.saveToken ..
  · exact hs

theorem Formed.completeEngine {s : State} (h : Formed s) (id status fault : Nat) : Formed (s.completeEngine id status fault) := by
  unfold State.completeEngine
  grind [State.modEngine_mem, Formed.traceEvent, Formed.putToken]

theorem Formed.taskWrite {s : State} (h : Formed s) (t : Machine.Task) : Formed (s.taskWrite t) := by
  unfold State.taskWrite
  grind [mem_xlat, mem_forward, Formed.flagStore]

theorem Formed.taskEnd {s : State} (h : Formed s) (n a b : Nat) (c : Option Byte) : Formed (taskEnd n s a b c) := by
  fun_induction Machine.taskEnd <;> grind [State.modTask_mem, Formed.taskWrite, Formed.completeEngine, Formed.foldl]

theorem Formed.leaveSlot {s : State} (h : Formed s) (w : Warp) : Formed (s.leaveSlot w) :=
  Formed.of_mem (Formed.unqueue h ..) (State.setWarp_mem ..)
@[simp] theorem mem_dropWarpMsgs (s : State) (uid : Nat) : (s.dropWarpMsgs uid).mem = s.mem := rfl

theorem Formed.endBlock {s : State} (h : Formed s) (uid : Nat) (code : Byte) : Formed (s.endBlock uid code) := by
  unfold State.endBlock
  grind [mem_dropWarpMsgs, State.modCores_mem, Formed.completeEngine, Formed.leaveSlot, State.modEngines_mem, State.modBlock_mem,
    Formed.foldl]

theorem Formed.hostDone {s : State} (h : Formed s) (at' : Nat) (irq : Bool) (ctx status code : Nat) :
    Formed (s.hostDone at' irq ctx status code) := by
  unfold State.hostDone
  grind [mem_relSet, Formed.homeBytes, mem_interrupt]

theorem Formed.abortGrid (n : Nat) {s : State} (h : Formed s) (a : Nat) (b : Byte) : Formed (abortGrid n s a b).1 := by
  induction n generalizing s a with
  | zero => exact h
  | succ n ih =>
    unfold Machine.abortGrid
    grind [Formed.endBlock, Formed.taskEnd, Formed.completeEngine, Formed.hostDone, mem_interrupt, Formed.foldl, Formed.foldl_fst,
      State.modGrid_mem]

theorem Formed.ctxRo {s : State} (h : Formed s) (ctx : Nat) : Formed (s.ctxRo ctx) :=
  Formed.foldl _ (fun _ _ h => wf_cset h ..) _ h

theorem Formed.retake {s : State} (h : Formed s) (n a : Nat) : Formed (retake n s a) := by
  fun_induction Machine.retake <;> grind [Formed.unqueue]

theorem Formed.discardHeld {s : State} (h : Formed s) (core ctx : Nat) : Formed (s.discardHeld core ctx) := by
  unfold State.discardHeld
  grind [State.modCore_mem, Formed.retake]

theorem Formed.killContext {s : State} (h : Formed s) (ctx : Nat) (code : Byte) : Formed (s.killContext ctx code).1 := by
  unfold State.killContext
  grind [Formed.abortGrid, Formed.taskEnd, State.modCtx_mem, Formed.ctxRo, Formed.discardHeld, mem_notice, Formed.foldl,
    Formed.foldl_fst]

theorem Formed.countLegacy {s : State} (h : Formed s) (ctx : Nat) : Formed (s.countLegacy ctx) := by
  unfold State.countLegacy
  grind [Formed.ctxRecord32, mem_interrupt]

theorem Formed.undeliverable {s : State} (h : Formed s) (r : FaultRec) : Formed (s.undeliverable r) := by
  unfold State.undeliverable
  split
  · exact h
  · exact Formed.killContext h ..

theorem Formed.drainCore {s : State} (h : Formed s) (n a b : Nat) : Formed (drainCore n s a b) := by
  fun_induction Machine.drainCore <;> grind [Formed.undeliverable, mem_forwardLines, Formed.ringWrite, mem_notice,
    State.modCore_mem]

theorem Formed.reread {s : State} (h : Formed s) (ctx : Nat) : Formed (s.reread ctx) := by
  unfold State.reread
  grind [Formed.drainCore, Formed.retake, Formed.foldl]

theorem Formed.putRecord {s : State} (h : Formed s) (core : Nat) (r : FaultRec) (mayWait : Bool) {t : State}
    (e : s.putRecord core r mayWait = some t) :
    Formed t := by
  unfold State.putRecord at e
  grind [Formed.reread, Formed.undeliverable, Formed.ringWrite, mem_notice, State.modCore_mem, mem_forwardLines]

theorem Formed.report {s : State} (h : Formed s) (core : Nat) (r : FaultRec) : Formed (s.report core r) := by
  unfold State.report
  cases e : s.putRecord core r false with
  | none => exact h
  | some t => exact h.putRecord _ _ _ e

theorem Formed.reports {s : State} (h : Formed s) (core : Nat) (rs : List FaultRec) : Formed (s.reports core rs) :=
  Formed.foldl _ (fun _ _ h => Formed.report h ..) _ h
theorem Formed.reportFailed {s : State} (h : Formed s) (s0 : State) : Formed (s0.reportFailed s) :=
  Formed.foldl _ (fun _ _ h => Formed.report h ..) _ h

@[simp] theorem mem_freeReg (s : State) (uid wid l draw : Nat) (x : Nat × Nat) : (s.freeReg uid wid l draw x).mem = s.mem := by
  unfold State.freeReg
  split <;> rfl

theorem Formed.freeAt {s : State} (h : Formed s) (draw place : Nat) : Formed (s.freeAt draw place) := by
  unfold State.freeAt
  dsimp only
  split
  · exact Formed.of_mem h (mem_wellByte ..)
  · exact wf_cset h ..

theorem Formed.unspecify {s : State} (h : Formed s) (uid wid : Nat) (back : Thread → Bool) : Formed (s.unspecify uid wid back) := by
  unfold State.unspecify
  grind [mem_freeReg, Formed.freeAt, Formed.foldl]

@[simp] theorem mem_sampleMark (s : State) (w : Warp) (f : Sample → Sample) : (s.sampleMark w f).mem = s.mem := by
  unfold State.sampleMark
  split
  · exact State.modCore_mem ..
  · rfl

@[simp] theorem mem_servedBy (s : State) (core name level : Nat) : (s.servedBy core name level).mem = s.mem :=
  (SameData.servedBy (fl := false) ..).mem_eq
@[simp] theorem mem_discardLoads (s : State) (uid wid : Nat) : (s.discardLoads uid wid).mem = s.mem := rfl

theorem Formed.takeFault {s : State} (h : Formed s) (w : Warp) (r : FaultRec) (keep : LaneMask) :
    Formed (s.takeFault w r keep) := by
  unfold State.takeFault
  grind [State.modWarp_mem, → Formed.putRecord, Formed.setFqovf, Formed.traceEvent, mem_sampleMark, Formed.unspecify,
    mem_discardLoads]

theorem Formed.wakeFaulted {s : State} (h : Formed s) (w : Warp) : Formed (s.wakeFaulted w) := by
  unfold State.wakeFaulted
  grind [Formed.wake, State.modWarp_mem, State.modEngines_mem]

/-! ### A core's L1 (R379 to R385) -/

@[simp] theorem mem_l1Put (s : State) (core : Nat) (x : L1Line) : (s.l1Put core x).mem = s.mem :=
  (SameData.l1Put (fl := false) ..).mem_eq
@[simp] theorem mem_l1Mod (s : State) (core ctx line : Nat) (f : L1Line → L1Line) : (s.l1Mod core ctx line f).mem = s.mem :=
  (SameData.l1Mod (fl := false) ..).mem_eq
@[simp] theorem mem_l1Drop (s : State) (core ctx line : Nat) : (s.l1Drop core ctx line).mem = s.mem :=
  (SameData.l1Drop (fl := false) ..).mem_eq
@[simp] theorem mem_writeBack (s : State) (core ctx line : Nat) : (s.writeBack core ctx line).mem = s.mem :=
  (SameData.writeBack (fl := false) ..).mem_eq

theorem mem_l1Room (s : State) (core ctx line : Nat) {t : State} (e : s.l1Room core ctx line = some t) : t.mem = s.mem := by
  unfold State.l1Room at e
  grind [mem_l1Put, mem_l1Drop, mem_writeBack]

@[simp] theorem mem_freshTag (s : State) (uid wid : Nat) : (s.freshTag uid wid).mem = s.mem :=
  (SameData.freshTag (fl := false) ..).mem_eq
@[simp] theorem mem_bumpEpoch (s : State) (uid wid : Nat) : (s.bumpEpoch uid wid).mem = s.mem :=
  (SameData.bumpEpoch (fl := false) ..).mem_eq

@[simp] theorem mem_askFill (s : State) (core ctx line sec : Nat) (owed : List (Nat × Nat)) (loc va : Nat) (tpin : Bool) :
    (s.askFill core ctx line sec owed loc va tpin).mem = s.mem :=
  (SameData.askFill (fl := false) ..).mem_eq

@[simp] theorem mem_sendCheck (s : State) (w : Warp) (a : Access) : (s.sendCheck w a).mem = s.mem := rfl
@[simp] theorem mem_flushCore (s : State) (core : Nat) : (s.flushCore core).mem = s.mem :=
  (SameData.flushCore (fl := false) ..).mem_eq
@[simp] theorem mem_flushWarp (s : State) (w : Warp) : (s.flushWarp w).mem = s.mem := (SameData.flushWarp (fl := false) ..).mem_eq

/-! ### Intervals, releases and acquires (R301 to R310) -/

@[simp] theorem mem_endInterval (s : State) (uid wid near : Nat) (wide : Bool) : (s.endInterval uid wid near wide).mem = s.mem :=
  (SameData.endInterval (fl := false) ..).mem_eq

@[simp] theorem mem_acquire (s : State) (uid wid : Nat) (scope : Scope) (stamp : Nat) :
    (s.acquire uid wid scope stamp).mem = s.mem :=
  (SameData.acquire (fl := false) ..).mem_eq

@[simp] theorem mem_acquireEnd (s : State) (uid wid : Nat) (scope : Scope) (stamp : Nat) :
    (s.acquireEnd uid wid scope stamp).mem = s.mem :=
  (SameData.acquireEnd (fl := false) ..).mem_eq

theorem Formed.saveWord {s : State} (h : Formed s) (uid wid : Nat) : Formed (s.saveWord uid wid) := by
  unfold State.saveWord
  grind [Formed.saveMod]

theorem Formed.wakeAcquire {s : State} (h : Formed s) (uid wid : Nat) (scope : Scope) (stamp : Nat) :
    Formed (s.wakeAcquire uid wid scope stamp) :=
  Formed.saveWord (Formed.of_mem h (mem_acquireEnd ..)) ..

@[simp] theorem mem_releaseNow (s : State) (uid wid : Nat) (scope : Scope) : (s.releaseNow uid wid scope).mem = s.mem :=
  (SameData.releaseNow (fl := false) ..).mem_eq
@[simp] theorem mem_finishAcq (s : State) (uid wid : Nat) (a : AcqWait) : (s.finishAcq uid wid a).mem = s.mem :=
  (SameData.finishAcq (fl := false) ..).mem_eq

@[simp] theorem mem_releaseDue (s : State) (uid wid : Nat) : (s.releaseDue uid wid).mem = s.mem := by
  unfold State.releaseDue
  grind [State.modWarp_mem, mem_releaseNow]

@[simp] theorem mem_acqLane (s : State) (uid wid lane stamp : Nat) : (s.acqLane uid wid lane stamp).mem = s.mem := by
  unfold State.acqLane
  grind [mem_finishAcq, State.modWarp_mem]

@[simp] theorem mem_acqSkip (s : State) (uid wid lane : Nat) : (s.acqSkip uid wid lane).mem = s.mem := by
  unfold State.acqSkip
  grind [State.modWarp_mem, mem_finishAcq]

@[simp] theorem mem_wbDone (s : State) (uid wid msg : Nat) (num : Word) (t : Nat) : (s.wbDone uid wid msg num t).mem = s.mem := rfl

theorem Formed.resultIn {s : State} (h : Formed s) (uid wid : Nat) : Formed (s.resultIn uid wid) := by
  unfold State.resultIn
  grind [State.modWarp_mem, Formed.wake]

theorem Formed.settle {s : State} (h : Formed s) (id : Nat) : Formed (s.settle id) := by
  unfold State.settle
  grind [Formed.resultIn, State.dropOwed_mem]

@[simp] theorem mem_oweMore (s : State) (o : Owed) : (s.oweMore o).mem = s.mem := rfl

/-! ### Wells of a pool (R344) -/

theorem mem_takeRun (s : State) (taken : List (Nat × Nat × Nat)) (n : Nat) {x : Bank × State} (e : s.takeRun taken n = some x) :
    x.2.mem = s.mem := by
  unfold State.takeRun at e
  grind [mem_draw]

theorem mem_takeWells (n : Nat) (s : State) (l : List (Nat × Nat × Nat)) (a b : Nat) {x : List (Nat × Bank) × State}
    (e : takeWells n s l a b = some x) : x.2.mem = s.mem := by
  fun_induction Machine.takeWells generalizing x <;> grind [→ mem_takeRun]

@[simp] theorem mem_clearRun (s : State) (cluster : Nat) (b : Bank) : (s.clearRun cluster b).mem = s.mem := rfl

/-! ### Blocks on and off a core (R48, R52, R371 to R374, R434) -/

@[simp] theorem mem_seatWarp (s : State) (w : Warp) (core sched : Nat) : (s.seatWarp w core sched).mem = s.mem := by
  unfold State.seatWarp
  grind [mem_draw, mem_freshTag, State.setWarp_mem]

@[simp] theorem mem_seatAll (s : State) (ws : List Warp) (core : Nat) (scheds : List Nat) :
    (s.seatAll ws core scheds).mem = s.mem :=
  mem_foldl _ (fun _ _ => mem_seatWarp ..) _ _

@[simp] theorem mem_startAcquire (s : State) (uid stamp : Nat) : (s.startAcquire uid stamp).mem = s.mem := by
  unfold State.startAcquire
  grind [mem_acquire, mem_foldl]

theorem Formed.startBlock {s : State} (h : Formed s) (b : Block) (core : Nat) (scheds : List Nat) (bank : List (Nat × Bank))
    (stamp : Nat) :
    Formed (s.startBlock b core scheds bank stamp) := by
  unfold State.startBlock
  grind [State.setBlock_mem, mem_clearRun, mem_seatAll, mem_startAcquire, Formed.traceEvent, Formed.foldl]

theorem Formed.refuseReport {s : State} (h : Formed s) (b : Block) (x : XFault) (addr : Nat) :
    Formed (s.refuseReport b x addr) := by
  unfold State.refuseReport
  split
  · exact h
  · exact Formed.report h ..

/-- The warp's image goes to its save slot line by line; everything around it writes memory through `unqueue`, `unspecify` and the
trace. -/
theorem Formed.evictWarp {s : State} (h : Formed s) (b : Block) (pas : List Nat) (wid : Nat) (dbg : Bool) :
    Formed (s.evictWarp b pas wid dbg) := by
  unfold State.evictWarp
  split
  · exact h
  split
  · exact h
  next w0 _ _ =>
  extract_lets s1 s2 s3 s4
  have h1 : Formed s1 := h.unqueue ..
  have h4 : Formed s4 := Formed.unspecify (s := s3) (Formed.of_mem h1 (mem_flushWarp ..)) ..
  split
  · exact h4
  extract_lets c mine s5 w' s6 s7 s8
  have h6 : Formed s6 := Formed.of_mem h4 (State.setCore_mem ..)
  have h7 : Formed s7 := wf_writeSlot h6 ..
  have h8 : Formed s8 := Formed.of_mem h7 (mem_forwardLines ..)
  exact Formed.traceEvent (s := s8.setWarp w') h8 ..

theorem Formed.saveBlock {s : State} (h : Formed s) (b : Block) (pas : List Nat) : Formed (s.saveBlock b pas) := by
  unfold State.saveBlock
  rw [Formed, mem_forwardLines, mem_forwardLines]
  exact wf_writeSlot (wf_writeSlot h ..) ..

theorem Formed.evictBlock {s : State} (h : Formed s) (b : Block) (pas : List Nat) (bySys : Bool) (dbg : Option Nat) :
    Formed (s.evictBlock b pas bySys dbg) := by
  unfold State.evictBlock
  grind [Formed.evictWarp, Formed.saveBlock, State.modCores_mem, State.modBlock_mem, Formed.foldl]

theorem Formed.swapOut {s : State} (h : Formed s) (uid wid : Nat) : Formed (s.swapOut uid wid) := by
  unfold State.swapOut
  grind [Formed.evictBlock, Formed.refuseReport]

theorem Formed.writeVirt {s : State} (h : Formed s) (ctx va : Nat) (bs : List Byte) {t : State}
    (e : s.writeVirt ctx va bs = some t) : Formed t := by
  unfold State.writeVirt at e
  split at e
  · contradiction
  · exact Option.some.inj e ▸ Formed.foldl _ (fun _ _ h => wf_cset h ..) _ h

@[simp] theorem mem_spillLines (s : State) (cl hctx base i : Nat) (need : Need) :
    (s.spillLines cl hctx base i need).mem = s.mem := by
  unfold State.spillLines
  grind [mem_forwardLines]

theorem Formed.spillBank {s : State} (h : Formed s) (hctx base cl : Nat) (x : Nat × Bank) {t : State}
    (e : s.spillBank hctx base cl x = some t) : Formed t := by
  refine Formed.foldl_bind h _ ?_ _ e
  intro s i t hs e
  grind [Option.bind_eq_some_iff, → Formed.writeVirt, mem_spillLines]

theorem Formed.spill {s : State} (h : Formed s) (b : Block) {t : State} (e : s.spill b = some t) : Formed t := by
  unfold State.spill at e
  split at e
  · dsimp only at e
    split at e
    · contradiction
    · obtain ⟨u, hu, rfl⟩ := Option.map_eq_some_iff.mp e
      have hu : Formed u := h.foldl_bind _ (fun s x t hs hx => hs.spillBank _ _ _ _ hx) _ hu
      exact hu
  · contradiction

@[simp] theorem mem_reloadBank (s : State) (hctx base cl : Nat) (b : Bank) (bad : List Nat) :
    (s.reloadBank hctx base cl b bad).mem = s.mem := by
  unfold State.reloadBank
  grind [mem_spillLines, mem_foldl]

theorem mem_freshBanks (l : List (Nat × Bank)) (s : State) (a : List (Nat × Nat × Nat)) {x : List (Nat × Bank) × State}
    (e : freshBanks l s a = some x) : x.2.mem = s.mem := by
  fun_induction Machine.freshBanks generalizing x <;> grind [→ mem_takeRun]

theorem mem_unspill (s : State) (b : Block) {t : State} (e : s.unspill b = some t) : t.mem = s.mem := by
  unfold State.unspill at e
  grind [mem_reloadBank, → mem_freshBanks, State.modBlock_mem, mem_foldl]

theorem Formed.restoreWarp {s : State} (h : Formed s) (b : Block) (w : Warp) (core sched : Nat) :
    Formed (s.restoreWarp b w core sched) := by
  unfold State.restoreWarp
  grind [mem_bumpEpoch, mem_seatWarp, State.modCore_mem, mem_forwardLines, Formed.traceEvent]

theorem Formed.illegalReport {s : State} (h : Formed s) (uid wid : Nat) : Formed (s.illegalReport uid wid) := by
  unfold State.illegalReport
  split
  · exact h
  · exact Formed.report h ..

theorem Formed.resumeIllegal {s : State} (h : Formed s) (b : Block) : Formed (s.resumeIllegal b) :=
  Formed.illegalReport (Formed.of_mem h (State.modBlock_mem ..)) ..
theorem Formed.warpIllegal {s : State} (h : Formed s) (b : Block) (wid : Nat) : Formed (s.warpIllegal b wid) :=
  Formed.illegalReport (Formed.of_mem h (State.modWarp_mem ..)) ..

theorem Formed.restoreBlock {s : State} (h : Formed s) (b : Block) (core : Nat) (scheds : List Nat) {t : State}
    (e : s.restoreBlock b core scheds = some t) :
    Formed t := by
  unfold State.restoreBlock at e
  grind [Formed.resumeIllegal, → mem_unspill, State.setBlock_mem, mem_forwardLines, Formed.restoreWarp, Formed.foldl]

@[simp] theorem mem_closeRings (s : State) (uid : Nat) : (s.closeRings uid).mem = s.mem := rfl

@[simp] theorem mem_phaseLeave (s : State) (uid : Nat) : (s.phaseLeave uid).mem = s.mem := by
  unfold State.phaseLeave
  grind [State.setWarp_mem, mem_foldl]

theorem Formed.phaseComplete {s : State} (h : Formed s) (uid : Nat) : Formed (s.phaseComplete uid) := by
  unfold State.phaseComplete
  split
  · exact h
  split
  · exact h
  dsimp only
  split
  · split
    · grind [Formed.warpIllegal]
    · have hw (pas : List Nat) (bs : List Byte) : Memory.wf (writeLines s.mem pas bs) = true := wf_writeLines h pas bs
      grind [mem_forwardLines, mem_closeRings, State.modEngines_mem, State.modBlock_mem, State.setWarp_mem, mem_foldl,
        mem_phaseLeave]
  · exact h

theorem Formed.phaseBegin {s : State} (h : Formed s) (uid core : Nat) {t : State} (e : s.phaseBegin uid core = some t) :
    Formed t := by
  unfold State.phaseBegin at e
  split at e
  · contradiction
  split at e
  · contradiction
  split at e
  · contradiction
  split at e
  · exact Option.some.inj e ▸ h.resumeIllegal _
  dsimp only at e
  split at e
  · contradiction
  next hu =>
  have hm := mem_takeWells _ _ _ _ _ hu
  grind [mem_clearRun, mem_foldl, mem_forwardLines, State.modBlock_mem, State.setWarp_mem, mem_startAcquire]

/-! ### Issuing an instruction (R59 to R66, R82) -/

theorem Formed.next {s : State} (h : Formed s) : FormedRes (Res.next s) := h
theorem formedRes_illegal (c : Ic) : FormedRes c.illegal := trivial
@[simp] theorem mem_stalled (s : State) (c : Ic) : (s.stalled c).mem = s.mem := (SameData.stalled (fl := false) ..).mem_eq
@[simp] theorem mem_consume (s : State) (w : Warp) (ts : List Token) (ends : Bool) : (s.consume w ts ends).mem = s.mem :=
  (SameData.consume (fl := false) ..).mem_eq
@[simp] theorem mem_ringImplicit (s : State) (w : Warp) : (s.ringImplicit w).mem = s.mem :=
  (SameData.ringImplicit (fl := false) ..).mem_eq
@[simp] theorem mem_unopened (s : State) (w : Warp) : (s.unopened w).mem = s.mem := (SameData.unopened (fl := false) ..).mem_eq
@[simp] theorem mem_retire (s : State) (c : Ic) (i : Instr) (pcOf : Nat → Pc → Pc) : (s.retire c i pcOf).mem = s.mem :=
  (SameData.retire (fl := false) ..).mem_eq

theorem Formed.gate {s : State} (h : Formed s) (i : Instr) {g : Gate} (e : gate i s = some g) : FormedGate g := by
  have hs (t : State) (c : Ic) (ht : t.mem = s.mem) : FormedGate (.out (t.stalled c)) := by
    rw [FormedGate, Formed, mem_stalled, ht]; exact h
  unfold Machine.gate at e
  split at e
  · contradiction
  next c0 _ =>
  extract_lets boundary c s' bad at e
  have h' : s'.mem = s.mem := rfl
  clear_value bad s'
  split at e
  · grind
  split at e
  · grind [State.modWarp_mem]
  split at e
  · grind [FormedGate, State.setWarp_mem, mem_retire]
  split at e
  · grind [FormedGate, State.issued_mem, Formed.takeFault]
  grind [FormedGate, State.modWarp_mem, State.setWarp_mem, mem_ringImplicit, mem_consume]

/-- An instruction keeps the form when its body does: the gate, retirement and faults write memory through trace records only. -/
theorem Formed.run {s : State} (h : Formed s) (i : Instr) {body : Ic → State → Res}
    (hk : ∀ c s, Formed s → FormedRes (body c s)) : FormedOut (run i s body) := by
  unfold Machine.run
  cases e : Machine.gate i s with
  | none => trivial
  | some g =>
    have hg := Formed.gate h i e
    cases g with
    | out t => exact hg
    | go c s' =>
      have hb := hk c s' hg
      dsimp only
      cases er : body c s' with
      | done t pcOf => grind [FormedOut, FormedRes, mem_retire]
      | fault r => grind [FormedOut, Formed.takeFault, State.setWarp_mem, State.issued_mem]
      | brk r => grind [FormedOut, Formed.takeFault, Formed.swapOut, State.setWarp_mem, State.issued_mem, mem_stalled]
      | stall t => grind [FormedOut, FormedRes, mem_stalled, mem_unopened]
      | raw t => grind [FormedOut, FormedRes, State.issued_mem]

theorem Formed.withWritten {s : State} (h : Formed s) (c : Ic) (x : Scope) {k : State → Res}
    (hk : ∀ t, Formed t → FormedRes (k t)) :
    FormedRes (withWritten s c x k) := by
  unfold Machine.withWritten
  grind [FormedRes, mem_ringImplicit, mem_flushWarp, State.modWarp_mem]

theorem Formed.withRelease {s : State} (h : Formed s) (c : Ic) (x : Scope) {k : State → Res}
    (hk : ∀ t, Formed t → FormedRes (k t)) :
    FormedRes (withRelease s c x k) :=
  h.withWritten c x fun t ht => hk _ (by rw [Formed, mem_releaseNow]; exact ht)

theorem Formed.withRing {s : State} (h : Formed s) (c : Ic) {k : Unit → Res} (hk : FormedRes (k ())) :
    FormedRes (withRing s c k) := by
  unfold Machine.withRing
  grind [FormedRes, mem_ringImplicit]

theorem Formed.withBoth {s : State} (h : Formed s) (c : Ic) (x : Scope) {k : State → Res} (hk : ∀ t, Formed t → FormedRes (k t)) :
    FormedRes (withBoth s c x k) :=
  h.withRelease c x fun t ht => hk _ (by rw [Formed, mem_acquire]; exact ht)

/-! ### Instructions that compute on registers (R143 to R149, R170) -/

@[simp] theorem mem_owed (c : Ic) (s : State) (uniform fp : Bool) (f : Nat → LaneOut) : (owed c s uniform fp f).mem = s.mem := rfl

theorem Formed.compute {s : State} (h : Formed s) (i : Instr) (fp : Bool) (f : Ic → Nat → LaneOut) :
    FormedOut (Machine.compute i s fp f) :=
  Formed.run h _ fun _ _ h => h

theorem Formed.execNop {s : State} (h : Formed s) (f : RegForm) : FormedOut (execNop f s) := Formed.run h _ fun _ _ h => h

theorem Formed.execGetsr {s : State} (h : Formed s) (f : RegForm) : FormedOut (execGetsr f s) := by
  refine Formed.run h _ fun c s h => ?_
  grind [mem_owed, FormedRes, Res.next]

theorem Formed.execSetsr {s : State} (h : Formed s) (f : RegForm) : FormedOut (execSetsr f s) := by
  refine Formed.run h _ fun c s h => ?_
  grind [FormedRes, Res.next, State.modWarp_mem]

theorem Formed.intInstr {s : State} (h : Formed s) (i : Instr) (f : RegForm) (sat : Bool) (op : Int → Int → Int → Int) :
    FormedOut (Machine.intInstr i f s sat op) :=
  Formed.compute h ..

theorem Formed.bitInstr {s : State} (h : Formed s) (i : Instr) (f : RegForm) (op : Nat → Nat → Nat) :
    FormedOut (Machine.bitInstr i f s op) :=
  Formed.compute h ..

theorem Formed.shiftInstr {s : State} (h : Formed s) (i : Instr) (f : RegForm) (op : Nat → Nat → Nat → Nat) :
    FormedOut (Machine.shiftInstr i f s op) :=
  Formed.compute h ..

theorem Formed.rnInstr {s : State} (h : Formed s) (i : Instr) (f : RegForm) (op : Word → Word → Word) :
    FormedOut (Machine.rnInstr i f s op) :=
  Formed.compute h ..

/-! ### Barriers (R182 to R189) -/

theorem Formed.depart {s : State} (h : Formed s) (uid : Nat) (arr : List (Nat × Nat)) (scope : Scope) (stamp : Nat) :
    Formed (s.depart uid arr scope stamp) := by
  unfold State.depart
  grind [mem_acquire, Formed.wakeWhere, Formed.foldl]

theorem Formed.barComplete {s : State} (h : Formed s) (uid : Nat) (x : Barrier) : Formed (s.barComplete uid x) :=
  Formed.of_mem (Formed.depart h ..) (State.modBlock_mem ..)

theorem Formed.clusterBar {s : State} (h : Formed s) (uid : Nat) : Formed (s.clusterBar uid) := by
  unfold State.clusterBar
  grind [State.modBlock_mem, Formed.depart, Formed.foldl]

@[simp] theorem mem_newPhase (s : State) (ctx : Nat) : (s.newPhase ctx).mem = s.mem := State.modCtx_mem ..

theorem Formed.gridBar {s : State} (h : Formed s) (gid : Nat) : Formed (s.gridBar gid) := by
  unfold State.gridBar
  grind [State.modBlock_mem, Formed.depart, mem_newPhase, Formed.foldl]

theorem Formed.saveThreads {s : State} (h : Formed s) (uid wid : Nat) (m : LaneMask) : Formed (s.saveThreads uid wid m) := by
  unfold State.saveThreads
  grind [Formed.saveMod, Formed.foldl]

theorem Formed.phaseFault {s : State} (h : Formed s) (uid : Nat) : Formed (s.phaseFault uid) := by
  unfold State.phaseFault
  grind [State.modBlock_mem, Formed.saveThreads, State.modWarp_mem, State.setWarp_mem, Formed.foldl]

theorem Formed.phaseRelease {s : State} (h : Formed s) (uid : Nat) : Formed (s.phaseRelease uid) := by
  unfold State.phaseRelease
  grind [Formed.saveWord, mem_releaseNow, State.modBlock_mem, Formed.foldl]

theorem Formed.phaseBar {s : State} (h : Formed s) (uid : Nat) : Formed (s.phaseBar uid) := by
  unfold State.phaseBar
  grind [Formed.phaseFault, Formed.phaseComplete, Formed.phaseRelease]

theorem Formed.syncWake {s : State} (h : Formed s) (uid : Nat) : Formed (s.syncWake uid) := by
  unfold State.syncWake
  grind [State.modBlock_mem, Formed.wakeAcquire, Formed.wakeWhere, Formed.foldl]

theorem Formed.barsCheck {s : State} (h : Formed s) (uid : Nat) : Formed (s.barsCheck uid) := by
  unfold State.barsCheck
  grind [Formed.barComplete, Formed.gridBar, Formed.clusterBar, Formed.phaseBar, Formed.foldl]

@[simp] theorem mem_park (s : State) (c : Ic) (r : Reason) : (s.park c r).mem = s.mem := rfl

theorem Formed.endThreads {s : State} (h : Formed s) (c : Ic) : Formed (s.endThreads c) := by
  unfold State.endThreads
  grind [State.modWarp_mem, Formed.settle, Formed.barsCheck, State.modBlock_mem, Formed.foldl]

/-! ### What an address denotes (R209 to R213) -/

@[simp] theorem mem_resolve (s : State) (b : Block) (l : Look) (a : BitVec 64) : (s.resolve b l a).2.mem = s.mem :=
  (SameData.resolve (fl := false) ..).mem_eq

/-! ### Records and tokens of engine commands (R237, R238) -/

@[simp] theorem mem_linesAt (s : State) (c : Ic) (units : List TlbUnit) (a : BitVec 64) (n : Nat) :
    (s.linesAt c units a n).2.mem = s.mem := by
  fun_induction State.linesAt <;> grind [mem_resolve, mem_forward]

@[simp] theorem mem_record (s : State) (c : Ic) (pair lines : Nat) : (s.record c pair lines).2.mem = s.mem := by
  unfold State.record
  grind [mem_linesAt]

theorem Formed.issueCommand {s : State} (h : Formed s) (c : Ic) (i : Instr) (token : Option Nat) (args : List Nat) :
    Formed (s.issueCommand c i token args).2 := by
  unfold State.issueCommand
  grind [State.setWarp_mem, Formed.traceEvent]

/-! ### Loads, stores, atomics and fences (R208 to R229) -/

@[simp] theorem mem_resolveLanes (s : State) (c : Ic) (f : MemForm) (lk : Look) (l : List Nat) :
    (s.resolveLanes c f lk l).2.2.mem = s.mem :=
  (SameData.resolveLanes (fl := false) ..).mem_eq

theorem formedRes_laneFault (c : Ic) (l : Nat) (a : BitVec 64) (acc : Nat) (x : XFault) : FormedRes (c.laneFault l a acc x) := by
  unfold Ic.laneFault
  grind [FormedRes]

theorem Formed.withTargets {s : State} (h : Formed s) (c : Ic) (f : MemForm) (lk : Look) (acc : Nat)
    {k : List (Nat × Target) → State → Res} (hk : ∀ ts t, Formed t → FormedRes (k ts t)) : FormedRes (withTargets s c f lk acc k) := by
  unfold Machine.withTargets
  grind [formedRes_laneFault, mem_resolveLanes]

@[simp] theorem mem_linePage (s : State) (c : Ic) (x : Xlat) (va : BitVec 64) (store : Bool) :
    (s.linePage c x va store).mem = s.mem := by
  unfold State.linePage
  grind [mem_l1Mod, mem_writeBack]

@[simp] theorem mem_defer (s : State) (uid wid lane : Nat) (r : FaultRec) : (s.defer uid wid lane r).mem = s.mem := rfl

@[simp] theorem mem_pieceReady (s : State) (uid wid : Nat) (p : Piece) (bs : List (Option Byte)) (bad : Bool) :
    (s.pieceReady uid wid p bs bad).2.mem = s.mem :=
  (SameData.pieceReady (fl := false) ..).mem_eq

@[simp] theorem mem_loadLanes (s : State) (c : Ic) (f : MemForm) (id : Nat) (l : List (Nat × Target)) (n : Nat) :
    (s.loadLanes c f id l n).2.mem = s.mem :=
  (SameData.loadLanes (fl := false) ..).mem_eq

@[simp] theorem mem_oweAs (s : State) (o : Owed) : (s.oweAs o).mem = s.mem := rfl

@[simp] theorem mem_noteBytes (s : State) (c : Ic) (f : MemForm) (store : Bool) (ts : List (Nat × Target)) :
    (s.noteBytes c f store ts).mem = s.mem :=
  rfl

theorem Formed.loadAll {s : State} (h : Formed s) (c : Ic) (f : MemForm) (ts : List (Nat × Target)) :
    FormedRes (s.loadAll c f ts) := by
  unfold State.loadAll
  grind [mem_loadLanes, mem_servedBy, mem_oweAs, mem_noteBytes, FormedRes, Res.next]

theorem Formed.execLd {s : State} (h : Formed s) (f : MemForm) : FormedOut (execLd f s) :=
  Formed.run h _ fun _ _ h => Formed.withTargets h _ _ _ _ fun _ _ h => Formed.loadAll h ..
@[simp] theorem mem_constTargets (s : State) (c : Ic) (f : MemForm) (l : List Nat) : (s.constTargets c f l).2.2.mem = s.mem :=
  (SameData.constTargets (fl := false) ..).mem_eq

theorem Formed.execLdc {s : State} (h : Formed s) (f : MemForm) : FormedOut (execLdc f s) := by
  refine Formed.run h _ fun c s h => ?_
  grind [mem_constTargets, Formed.loadAll, formedRes_laneFault]

@[simp] theorem mem_prefetch (s : State) (c : Ic) (x : Xlat) (va : BitVec 64) : (s.prefetch c x va).mem = s.mem :=
  (SameData.prefetch (fl := false) ..).mem_eq

@[simp] theorem mem_prefetchL2 (s : State) (c : Ic) (x : Xlat) (va : Nat) : (s.prefetchL2 c x va).mem = s.mem := by
  unfold State.prefetchL2
  grind [State.send_mem, mem_forward]

theorem Formed.execPrf {s : State} (h : Formed s) (f : MemForm) : FormedOut (execPrf f s) := by
  refine Formed.run h _ fun c s h => ?_
  grind [mem_resolveLanes, mem_prefetchL2, mem_prefetch, Formed.foldl, FormedRes, Res.next]

@[simp] theorem mem_laneOrder (s : State) (ts : List (Nat × Target)) : (s.laneOrder ts).2.mem = s.mem :=
  (SameData.laneOrder (fl := false) ..).mem_eq
@[simp] theorem mem_storeLanes (s : State) (c : Ic) (f : MemForm) (l : List (Nat × Target)) : (s.storeLanes c f l).2.mem = s.mem :=
  (SameData.storeLanes (fl := false) ..).mem_eq

theorem Formed.execSt {s : State} (h : Formed s) (f : MemForm) : FormedOut (execSt f s) := by
  refine Formed.run h _ fun c s h => ?_
  grind [Formed.withTargets, mem_laneOrder, mem_storeLanes, mem_servedBy, mem_noteBytes, FormedRes, Res.next]

@[simp] theorem mem_strongAll (s : State) (i : Instr) (c : Ic) (f : MemForm) (k : StrongKind) (ts : List (Nat × Target)) :
    (s.strongAll i c f k ts).mem = s.mem :=
  (SameData.strongAll (fl := false) ..).mem_eq

theorem Formed.relaxed {s : State} (h : Formed s) (i : Instr) (f : MemForm) (k : Ic → StrongKind) :
    FormedOut (Machine.relaxed i f s k) := by
  refine Formed.run h _ fun c s h => ?_
  grind [Formed.withTargets, mem_laneOrder, mem_strongAll, FormedRes, Res.next]

theorem mem_pairedAsk (s : State) (c : Ic) (f : MemForm) (k : StrongKind) (first : Bool) (x : Nat × Target) {t : State}
    (e : s.pairedAsk c f k first x = some t) :
    t.mem = s.mem := by
  unfold State.pairedAsk at e
  grind [Option.map_eq_some_iff, mem_linePage, mem_sendCheck, mem_askFill, → mem_l1Room]

@[simp] theorem mem_pairedAll (s : State) (c : Ic) (f : MemForm) (k : StrongKind) (ts : List (Nat × Target)) :
    (s.pairedAll c f k ts).mem = s.mem :=
  (SameData.pairedAll (fl := false) ..).mem_eq

@[simp] theorem mem_pairedAskAll (s : State) (c : Ic) (f : MemForm) (k : StrongKind) (first : Bool) (ts : List (Nat × Target)) :
    (s.pairedAskAll c f k first ts).mem = s.mem :=
  (SameData.pairedAskAll (fl := false) ..).mem_eq

theorem Formed.pairedNear {s : State} (h : Formed s) (c : Ic) (f : MemForm) (k : StrongKind) (ts : List (Nat × Target)) :
    FormedRes (s.pairedNear c f k ts) := by
  unfold State.pairedNear
  grind [→ mem_pairedAsk, State.modWarp_mem, mem_pairedAskAll, mem_releaseNow, mem_laneOrder, mem_pairedAll, FormedRes, Res.next]

theorem Formed.paired {s : State} (h : Formed s) (i : Instr) (f : MemForm) (k : Ic → StrongKind) :
    FormedOut (Machine.paired i f s k) := by
  refine Formed.run h _ fun c s h => ?_
  grind [Formed.withTargets, mem_laneOrder, mem_strongAll, Formed.pairedNear, Formed.withWritten, Formed.withRing, FormedRes,
    Res.next]

@[simp] theorem mem_noteFence (s : State) (c : Ic) (scope : Scope) : (s.noteFence c scope).mem = s.mem := rfl

theorem Formed.execFence {s : State} (h : Formed s) (f : MemForm) : FormedOut (execFence f s) := by
  refine Formed.run h _ fun c s h => ?_
  grind [Formed.withRing, mem_acquireEnd, Formed.withRelease, mem_noteFence, mem_acquire, FormedRes, Res.next]

/-! ### The blotter (R312 to R320, R386 to R394) -/

@[simp] theorem mem_sweep (s : State) (slice : Nat) : (s.sweep slice).mem = s.mem := by
  unfold State.sweep
  grind

theorem mem_putMark (s : State) (ctx loc pa : Nat) (m : Mark) (wsure rsure : Bool) {t : State}
    (e : s.putMark ctx loc pa m wsure rsure = some t) :
    t.mem = s.mem := by
  unfold State.putMark at e
  grind

@[simp] theorem mem_claimOwners (s : State) (ctx : Nat) (xs : List OvParty) : (s.claimOwners ctx xs).mem = s.mem := by
  unfold State.claimOwners
  grind [mem_foldl]

theorem mem_writeMarks (s : State) (ctx loc pa : Nat) (m : LineMarks) (entry : Option OvEntry) {t : State}
    (e : s.writeMarks ctx loc pa m entry = some t) :
    t.mem = s.mem := by
  have hput {u v : State} {x : Mark} {b c : Bool} (e : u.putMark ctx loc pa x b c = some v) (hu : u.mem = s.mem) : v.mem = s.mem :=
    (mem_putMark _ _ _ _ _ _ _ e).trans hu
  have hclaim {u v : State} {x : Mark} {b c : Bool} {l : List OvParty}
      (e : (u.putMark ctx loc pa x b c).map (fun s => s.claimOwners ctx l) = some v) (hu : u.mem = s.mem) : v.mem = s.mem := by
    obtain ⟨w, hw, rfl⟩ := Option.map_eq_some_iff.mp e
    rw [mem_claimOwners, hput hw hu]
  unfold State.writeMarks at e
  extract_lets line slice ph bare full wsure rsure s' swept full' unsure at e
  have hswept : swept.mem = s.mem := mem_sweep _ _
  have hunsure : unsure.mem = s.mem := (mem_foldl _ (fun s x => by split <;> rfl) _ _).trans hswept
  split at e
  · exact hclaim e rfl
  split at e
  · exact hput e hswept
  split at e
  · contradiction
  · exact hclaim e hunsure

@[simp] theorem mem_readersMet (s : State) (a : Access) (m : LineMarks) : (s.readersMet a m).2.mem = s.mem := by
  unfold State.readersMet
  grind [mem_draw]

theorem mem_blotHere (s : State) (a : Access) : (s.blotHere a).2.mem = s.mem := by
  unfold State.blotHere
  have hw (s : State) (m : LineMarks) (entry : Option OvEntry) : ((s.writeMarks a.party.ctx a.loc a.addr m entry).getD s).mem = s.mem :=
    mem_getD fun _ => mem_writeMarks _ _ _ _ _ _
  dsimp only
  split
  · rw [hw]
    split
    · rfl
    · exact mem_draw ..
  · split
    · next hu =>
      obtain ⟨m, -, hu⟩ := Option.bind_eq_some_iff.mp hu
      rw [mem_writeMarks _ _ _ _ _ _ hu, mem_readersMet]
    · rw [hw, mem_readersMet]

@[simp] theorem mem_setPeerLine (s : State) (line : Nat) (m : LineMarks) : (s.setPeerLine line m).mem = s.mem := rfl

@[simp] theorem mem_blotPeer (s : State) (a : Access) : (s.blotPeer a).2.mem = s.mem := by
  unfold State.blotPeer
  grind [mem_draw, mem_setPeerLine]

@[simp] theorem mem_blot (s : State) (a : Access) : (s.blot a).2.mem = s.mem := by
  unfold State.blot
  split
  · exact mem_blotPeer ..
  · exact mem_blotHere ..

/-! ### Well instructions (R230 to R236) -/

@[simp] theorem mem_waitOver (s : State) (x : Waiter) : (s.waitOver x).mem = s.mem := by
  unfold State.waitOver
  split <;> rfl

theorem Formed.failThreads {s : State} (h : Formed s) (uid wid : Nat) (m : LaneMask) (code : FaultCode) (pc : Pc) (addr : BitVec 64) :
    Formed (s.failThreads uid wid m code pc addr) := by
  unfold State.failThreads
  grind [Formed.saveThreads, mem_defer, State.setWarp_mem]

theorem Formed.ldfeLeave {s : State} (h : Formed s) (x : Waiter) : Formed (s.ldfeLeave x) := by
  unfold State.ldfeLeave
  grind [Formed.settle, State.modOwed_mem, mem_endInterval]

theorem Formed.waitFault {s : State} (h : Formed s) (x : Waiter) (code : FaultCode) : Formed (s.waitFault x code) := by
  unfold State.waitFault
  grind [Formed.failThreads, Formed.ldfeLeave]

@[simp] theorem mem_ldfeTake (s : State) (uid wid key : Nat) : (s.ldfeTake uid wid key).2.mem = s.mem :=
  (mem_acquire ..).trans (State.wellSetFull_mem ..)

@[simp] theorem mem_serveLoad (s : State) (x : Waiter) (key : Nat) : (s.serveLoad x key).mem = s.mem := by
  unfold State.serveLoad
  grind [mem_ldfeTake, State.modOwed_mem, mem_waitOver, mem_endInterval]

@[simp] theorem mem_stfeFill (s : State) (uid wid key : Nat) (v : Word) : (s.stfeFill uid wid key v).mem = s.mem := by
  unfold State.stfeFill
  grind [mem_relSet, State.wellSetFull_mem, mem_wellPutSoft]

@[simp] theorem mem_serveStore (s : State) (x : Waiter) (key : Nat) : (s.serveStore x key).mem = s.mem :=
  (mem_waitOver ..).trans (mem_stfeFill ..)

theorem Formed.serveWord {s : State} (h : Formed s) (n a : Nat) : Formed (serveWord n s a) := by
  fun_induction Machine.serveWord <;> grind [Formed.waitFault, mem_serveLoad, mem_serveStore]

theorem Formed.serve {s : State} (h : Formed s) (key : Nat) : Formed (s.serve key) := Formed.serveWord h ..

@[simp] theorem mem_blockLane (s : State) (c : Ic) (f : MemForm) (l off seq : Nat) (stfe : Bool) (v : Word) :
    (s.blockLane c f l off seq stfe v).mem = s.mem :=
  rfl

theorem Formed.ldfeLanes {s : State} (h : Formed s) (c : Ic) (f : MemForm) (seq : Nat) (l : List (Nat × Target)) :
    Formed (s.ldfeLanes c f seq l).2.2 := by
  fun_induction State.ldfeLanes <;> grind [mem_ldfeTake, Formed.serve, mem_blockLane]

theorem Formed.execLdfe {s : State} (h : Formed s) (f : MemForm) : FormedOut (execLdfe f s) := by
  refine Formed.run h _ fun c s h => ?_
  grind [Formed.withTargets, Formed.withRing, Formed.ldfeLanes, mem_oweAs, mem_endInterval, FormedRes]

theorem Formed.stfeLanes {s : State} (h : Formed s) (c : Ic) (f : MemForm) (seq : Nat) (l : List (Nat × Target)) :
    Formed (s.stfeLanes c f seq l) := by
  fun_induction State.stfeLanes <;> grind [mem_blockLane, Formed.serve, mem_stfeFill]

theorem Formed.execStfe {s : State} (h : Formed s) (f : MemForm) : FormedOut (execStfe f s) := by
  refine Formed.run h _ fun c s h => ?_
  grind [Formed.withTargets, Formed.withRelease, Formed.stfeLanes, FormedRes]

theorem Formed.fillWords {s : State} (h : Formed s) (b : Block) (off : Nat) (v : Word) (full : Bool) (rels : List Machine.Rel)
    (n : Nat) :
    Formed (s.fillWords b off v full rels n) := by
  fun_induction State.fillWords <;> grind [Formed.serve, mem_relPut, mem_relSet, State.wellSetFull_mem, mem_wellPutSoft]

theorem Formed.execWfill {s : State} (h : Formed s) (f : MemForm) : FormedOut (execWfill f s) := by
  refine Formed.run h _ fun c s h => ?_
  grind [Formed.withRelease, Formed.fillWords, FormedRes, Res.next]

theorem Formed.execGive {s : State} (h : Formed s) (f : MemForm) : FormedOut (execGive f s) := by
  refine Formed.run h _ fun c s h => ?_
  grind [Formed.withWritten, FormedRes]

theorem Formed.mapTakes {s : State} (h : Formed s) (n a : Nat) : Formed (mapTakes n s a) := by
  fun_induction Machine.mapTakes <;> grind [State.modCore_mem, Formed.failThreads, Formed.resultIn, State.modBlock_mem, mem_oweMore,
    Formed.wakeWhere, Formed.wakeAcquire]

theorem Formed.takeWell {s : State} (h : Formed s) (core : Nat) : Formed (s.takeWell core) := Formed.mapTakes h ..

theorem Formed.execTake {s : State} (h : Formed s) (f : MemForm) : FormedOut (execTake f s) := by
  refine Formed.run h _ fun c s h => ?_
  grind [Formed.withRing, mem_park, Formed.takeWell, FormedRes, Res.next, State.modCore_mem, State.modWarp_mem]

theorem Formed.execWmap {s : State} (h : Formed s) (f : MemForm) : FormedOut (execWmap f s) := Formed.run h _ fun _ _ h => h

/-! ### Homes, results and the L2 (R214, R227, R383, R384, R396 to R404, R417 to R419) -/

theorem Formed.ringFail {s : State} (h : Formed s) (r : RingWait) : Formed (s.ringFail r) := by
  unfold State.ringFail
  grind [Formed.failThreads]

theorem Formed.rwaitsWake {s : State} (h : Formed s) : Formed s.rwaitsWake := by
  unfold State.rwaitsWake
  grind [Formed.ringFail, Formed.wakeWhere, Formed.wakeAcquire, Formed.foldl]

theorem Formed.ringWake {s0 : State} (h : Formed s0) : Formed s0.ringWake := by
  unfold State.ringWake
  grind [Formed.rwaitsWake, mem_flushAll, Formed.serve, Formed.takeWell, Formed.syncWake, Formed.phaseBar, Formed.foldl]

/-- An event keeps the form when the state it leaves does. -/
theorem Formed.happens {s : State} (h : Formed s) {r : Option State} (hr : ∀ t, r = some t → Formed t) :
    FormedOut (happens s r) := by
  cases r with
  | none => exact h
  | some t => exact Formed.ringWake (by rw [Formed, State.unstall_mem]; exact hr t rfl)

theorem Formed.execLoadSectorReturn {s : State} (h : Formed s) (owed piece : Nat) :
    FormedOut (execLoadSectorReturn owed piece s) := by
  refine Formed.happens h fun t e => ?_
  grind [Formed.settle, State.modWarp_mem, State.modOwed_mem]

@[simp] theorem mem_respSent (s : State) (r : Strong) : (s.respSent r).mem = s.mem := by
  unfold State.respSent
  split <;> rfl

theorem Formed.writeResults {s : State} (h : Formed s) (id : Nat) {t : State} (e : s.writeResults id = some t) : Formed t := by
  unfold State.writeResults at e
  grind [State.modWarp_mem, Formed.settle, State.modOwed_mem, Formed.barsCheck]

theorem Formed.execResultWriteback {s : State} (h : Formed s) (owed : Nat) : FormedOut (execResultWriteback owed s) :=
  Formed.happens h fun _ e => Formed.writeResults (e := e) h ..

@[simp] theorem mem_l2Out (s : State) (x : L2Line) : (s.l2Out x).mem = s.mem := by
  unfold State.l2Out
  split
  · exact mem_setBand ..
  · rfl

@[simp] theorem mem_l2Room (s : State) (line : Nat) : (s.l2Room line).mem = s.mem := by
  unfold State.l2Room
  grind [mem_draw, mem_l2Out]

theorem mem_homeReady (s : State) (loc pa : Nat) {t : State} (e : s.homeReady loc pa = some t) : t.mem = s.mem := by
  unfold State.homeReady at e
  grind [mem_l2Room]

@[simp] theorem mem_readFault (s : State) (pa n : Nat) : (s.readFault pa n).2.mem = s.mem := by
  unfold State.readFault
  split <;> rfl

theorem Formed.execL2Evict {s : State} (h : Formed s) (line : Nat) : FormedOut (execL2Evict line s) := by
  refine Formed.happens h fun t e => ?_
  grind [Option.map_eq_some_iff, mem_l2Out]

theorem mem_damaged (s : State) (line : Nat) : (s.damaged line).mem = s.mem := by
  unfold State.damaged
  extract_lets bare
  have hb : bare.mem = s.mem := rfl
  split
  · rfl
  · refine (mem_getD fun t ht => ?_).trans hb
    exact (mem_writeMarks _ _ _ _ _ _ ht).trans hb.symm

@[simp] theorem mem_takeLine (s : State) (line : Nat) : (s.takeLine line).mem = s.mem := mem_l2Room ..

theorem Formed.execL2Refill {s : State} (h : Formed s) (line : Nat) (ecc : EccOutcome) : FormedOut (execL2Refill line ecc s) := by
  refine Formed.happens h fun t e => ?_
  grind [mem_takeLine, mem_setBand, mem_damaged]

theorem Formed.execBackInvalidate {s : State} (h : Formed s) (line : Nat) : FormedOut (execBackInvalidate line s) := by
  refine Formed.happens h fun t e => ?_
  grind

@[simp] theorem mem_unfilter (s : State) (a : Access) : (s.unfilter a).mem = s.mem := by
  unfold State.unfilter
  split
  · rfl
  · exact mem_l1Mod ..

theorem Formed.execHomeMarkCheck {s : State} (h : Formed s) (msg : Nat) : FormedOut (execHomeMarkCheck msg s) := by
  refine Formed.happens h fun t e => ?_
  grind [Option.map_eq_some_iff, mem_blot, mem_defer, mem_unfilter, → mem_homeReady, State.dropMsg_mem, State.send_mem]

theorem Formed.execMarkCheckAck {s : State} (h : Formed s) (msg : Nat) : FormedOut (execMarkCheckAck msg s) := by
  refine Formed.happens h fun t e => ?_
  grind [State.modWarp_mem, State.dropMsg_mem]

@[simp] theorem mem_damageStore (s : State) (f : Fill) : (s.damageStore f).mem = s.mem := rfl

theorem mem_fillServe (s : State) (m : Msg) (f : Fill) (ecc : EccOutcome) {t : State} (e : s.fillServe m f ecc = some t) :
    t.mem = s.mem := by
  unfold State.fillServe at e
  grind [Option.map_eq_some_iff, mem_damageStore, mem_servedBy, mem_eccDone, → mem_homeReady, mem_foldl]

@[simp] theorem mem_fillPiece (s : State) (f : Fill) (ref : Nat × Nat) : (s.fillPiece f ref).mem = s.mem := by
  unfold State.fillPiece
  grind [mem_pieceReady, State.modOwed_mem]

theorem Formed.execL1Fill {s : State} (h : Formed s) (msg : Nat) : FormedOut (execL1Fill msg s) := by
  refine Formed.happens h fun t e => ?_
  grind [mem_fillPiece, mem_relsMove, mem_relsDrop, mem_l1Mod, Formed.foldl, State.dropMsg_mem]

theorem Formed.bindWake {s : State} (h : Formed s) (addr n : Nat) : Formed (s.bindWake addr n) := by
  unfold State.bindWake
  grind [Formed.wakeWhere, Formed.foldl]

theorem Formed.strongFault {s : State} (h : Formed s) (r : Strong) (f : FaultRec) : Formed (s.strongFault r f) := by
  unfold State.strongFault
  grind [State.modWarp_mem, mem_defer, Formed.settle, State.modOwed_mem, mem_acqSkip]

@[simp] theorem mem_metRelaxed (s : State) (uid wid : Nat) (met : List Machine.Rel) : (s.metRelaxed uid wid met).mem = s.mem := rfl

theorem Formed.strongDone {s : State} (h : Formed s) (r : Strong) (old : Nat) (met : List Machine.Rel) :
    Formed (s.strongDone r old met) := by
  unfold State.strongDone
  grind [Formed.settle, State.modOwed_mem, mem_acqLane, mem_metRelaxed]

theorem releaseFirst_mem (s : State) (r : Strong) : (s.releaseFirst r).mem = s.mem := by
  unfold State.releaseFirst
  grind [mem_releaseNow, mem_releaseDue]

@[simp] theorem mem_bindOutcome (s : State) (r : Strong) (old : Nat) : (s.bindOutcome r old).mem = s.mem := by
  unfold State.bindOutcome
  grind [State.modWarp_mem]

@[simp] theorem mem_strongRels (s : State) (r : Strong) (at' : Nat) (met : List Machine.Rel) :
    (s.strongRels r at' met).mem = s.mem :=
  rfl

theorem Formed.strongHere {s : State} (h : Formed s) (r : Strong) : Formed (s.strongHere r) := by
  unfold State.strongHere
  grind [releaseFirst_mem, Formed.softBytes, mem_strongRels, mem_respSent, Formed.strongDone, mem_bindOutcome, Formed.bindWake]

@[simp] theorem mem_noteAtomic (s : State) (r : Strong) : (s.noteAtomic r).mem = s.mem := by
  unfold State.noteAtomic
  split <;> rfl

@[simp] theorem mem_holdMsg (s : State) (id : Nat) : (s.holdMsg id).mem = s.mem := rfl

theorem Formed.strongServe {s : State} (h : Formed s) (m : Msg) (r : Strong) {t : State} (e : s.strongServe m r = some t) :
    Formed t := by
  unfold State.strongServe at e
  split at e
  · contradiction
  split at e
  · grind [mem_holdMsg]
  split at e
  · contradiction
  obtain ⟨u, hu, rfl⟩ := Option.map_eq_some_iff.mp e
  have hu : Formed u := by rw [Formed, mem_homeReady _ _ _ hu]; exact h
  grind [mem_servedBy, mem_readFault, State.dropMsg_mem, Formed.strongFault, mem_blot, mem_noteAtomic, Formed.strongHere]

theorem Formed.execHomeSliceAccess {s : State} (h : Formed s) (x : Service) : FormedOut (execHomeSliceAccess x s) := by
  refine Formed.happens h fun t e => ?_
  grind [Option.map_eq_some_iff, → mem_fillServe, → Formed.strongServe, → mem_homeReady, State.dropMsg_mem]

@[simp] theorem mem_wellStoreAt (s : State) (key pos size new : Nat) : (s.wellStoreAt key pos size new).mem = s.mem :=
  mem_foldl _ (fun _ _ => mem_wellByte ..) _ _

theorem Formed.wellHere {s : State} (h : Formed s) (r : Strong) : Formed (s.wellHere r) := by
  unfold State.wellHere
  grind [Formed.strongFault, releaseFirst_mem, mem_wellStoreAt, mem_relSet, mem_strongRels, Formed.strongDone]

theorem Formed.execWellSwitchAccess {s : State} (h : Formed s) (x : Service) : FormedOut (execWellSwitchAccess x s) := by
  refine Formed.happens h fun t e => ?_
  grind [Formed.wellHere, State.dropMsg_mem]

theorem Formed.execLineWriteback {s : State} (h : Formed s) (msg : Nat) : FormedOut (execLineWriteback msg s) := by
  refine Formed.happens h fun t e => ?_
  grind [Option.map_eq_some_iff, mem_holdMsg, mem_relsMove, Formed.softWrite, Formed.bindWake, → mem_homeReady, State.dropMsg_mem,
    State.send_mem]

theorem Formed.execWritebackAck {s : State} (h : Formed s) (msg : Nat) : FormedOut (execWritebackAck msg s) := by
  refine Formed.happens h fun t e => ?_
  grind [mem_wbDone, Formed.foldl, State.dropMsg_mem]

theorem Formed.migrationRecord {s : State} (h : Formed s) (die ctx va loc dev : Nat) :
    Formed (s.migrationRecord die ctx va loc dev) := by
  unfold State.migrationRecord
  extract_lets c
  split
  · exact h
  split
  · rw [Formed, mem_forwardLines, mem_forwardLines]
    exact wf_writeNat h ..
  · split
    next u tail e =>
    have hu : Formed u := by
      have := h.ringWrite (200 * die) c.hctx
      grind
    rw [Formed, mem_notice, State.modCtx_mem]
    exact hu

theorem Formed.countForward {s : State} (h : Formed s) (ctx va loc dev die : Nat) : Formed (s.countForward ctx va loc dev die) := by
  unfold State.countForward
  grind [Formed.migrationRecord]

theorem Formed.execForwardedLineRequest {s : State} (h : Formed s) (msg : Nat) : FormedOut (execForwardedLineRequest msg s) := by
  refine Formed.happens h fun t e => ?_
  grind [Formed.countForward, State.dropMsg_mem]

@[simp] theorem mem_deferWb (s : State) (uid wid : Nat) (r : FaultRec) : (s.deferWb uid wid r).mem = s.mem := by
  unfold State.deferWb
  split <;> rfl

theorem Formed.refuseWrite {s : State} (h : Formed s) (m : Msg) (x : XFault) : Formed (s.refuseWrite m x) := by
  unfold State.refuseWrite
  grind [Formed.strongFault, State.dropMsg_mem, mem_deferWb, Formed.foldl]

theorem Formed.execMigrationHoldTimeout {s : State} (h : Formed s) (msg : Nat) : FormedOut (execMigrationHoldTimeout msg s) := by
  refine Formed.happens h fun t e => ?_
  grind [Formed.refuseWrite]

theorem Formed.execDeferredFaultDelivery {s : State} (h : Formed s) (uid wid : Nat) :
    FormedOut (execDeferredFaultDelivery uid wid s) := by
  refine Formed.happens h fun t e => ?_
  grind [Option.map_eq_some_iff, Formed.takeFault]

theorem Formed.execHoldingSlotReread {s : State} (h : Formed s) (ctx : Nat) : FormedOut (execHoldingSlotReread ctx s) := by
  refine Formed.happens h fun t e => ?_
  grind [Formed.reread]

theorem Formed.execAcquireFloorRecompute {s : State} (h : Formed s) (ctx : Nat) : FormedOut (execAcquireFloorRecompute ctx s) := by
  refine Formed.happens h fun t e => ?_
  grind [State.modCtx_mem]

theorem Formed.execQueuedWellRelease {s : State} (h : Formed s) (core : Nat) : FormedOut (execQueuedWellRelease core s) := by
  refine Formed.happens h fun t e => ?_
  grind [State.modCore_mem]

/-! ### Reads and writes of the engines (R237 to R239) -/

theorem formed_engThen {α β : Type} {x : Eng α} {k : α → State → Eng β} (hx : Formed x.2)
    (hk : ∀ a s, Formed s → Formed (k a s).2) :
    Formed (engThen x k).2 := by
  unfold Machine.engThen
  grind

theorem mem_engHome (s : State) (e : Engine) (loc pa : Nat) {t : State} (eq : s.engHome e loc pa = some t) : t.mem = s.mem := by
  unfold State.engHome at eq
  grind [mem_takeLine, → mem_homeReady]

theorem Formed.engMark {s : State} (h : Formed s) (e : Engine) (write : Bool) (x : Xlat) (line : Nat) (ps : Parts) :
    Formed (s.engMark e write x line ps).2 := by
  unfold State.engMark
  grind [mem_blot]

theorem mem_partsFault (s : State) (pa : Nat) (ps : Parts) : (s.partsFault pa ps).2.mem = s.mem := by
  unfold State.partsFault
  refine List.foldlRecOn (motive := fun (x : Option FaultCode × State) => x.2.mem = s.mem) ps _ rfl fun x hx p _ => ?_
  grind [mem_readFault]

theorem Formed.engOpen {s : State} (h : Formed s) (e : Engine) (units : List TlbUnit) (line : Nat) (ps : Parts)
    (write marked : Bool) :
    Formed (s.engOpen e units line ps write marked).2 := by
  unfold State.engOpen
  grind [mem_resolve, → mem_engHome, mem_partsFault, mem_forward, formed_engThen, Formed.engMark]

theorem Formed.engLine {s : State} (h : Formed s) (e : Engine) (units : List TlbUnit) (line : Nat) (ps : Parts) (marked : Bool) :
    Formed (s.engLine e units line ps marked).2 := by
  unfold State.engLine
  grind [formed_engThen, Formed.engOpen, mem_drawBytes]

theorem Formed.engRead {s : State} (h : Formed s) (e : Engine) (units : List TlbUnit) (a n : Nat) (marked : Bool) :
    Formed (s.engRead e units a n marked).2 := by
  unfold State.engRead
  grind [formed_engThen, Formed.engLine, Formed.foldl_snd]

theorem Formed.engNat {s : State} (h : Formed s) (e : Engine) (units : List TlbUnit) (a n : Nat) :
    Formed (s.engNat e units a n).2 := by
  unfold State.engNat
  grind [formed_engThen, Formed.engRead]

theorem Formed.engPut {s : State} (h : Formed s) (e : Engine) (units : List TlbUnit) (line : Nat) (ps : Parts)
    (new : List Byte → List Byte) :
    Formed (s.engPut e units line ps new).2 := by
  unfold State.engPut
  grind [formed_engThen, Formed.engOpen, mem_drawBytes, Formed.bindWake, Formed.softWrite, mem_wellWrite, Formed.foldl]

theorem Formed.engWrite {s : State} (h : Formed s) (e : Engine) (units : List TlbUnit) (n : Nat) (bs : List Byte) :
    Formed (s.engWrite e units n bs).2 := by
  unfold State.engWrite
  grind [formed_engThen, Formed.engPut, Formed.foldl_snd]

theorem Formed.engWellRead {s : State} (h : Formed s) (e : Engine) (off n : Nat) : Formed (s.engWellRead e off n).2 := by
  unfold State.engWellRead
  grind [Formed.engRead]

theorem Formed.engWellWrite {s : State} (h : Formed s) (e : Engine) (off : Nat) (bs : List Byte) :
    Formed (s.engWellWrite e off bs).2 := by
  unfold State.engWellWrite
  grind [Formed.engWrite]

theorem Formed.withRecord {s : State} (h : Formed s) (c : Ic) (i : Instr) (a : BitVec 64) (n : Nat) {k : Nat → State → Res}
    (hk : ∀ v t, Formed t → FormedRes (k v t)) : FormedRes (withRecord s c i a n k) := by
  unfold Machine.withRecord
  grind [FormedRes, Formed.engRead, State.modWarp_mem]

theorem Formed.startCommand {s : State} (h : Formed s) (c : Ic) (i : Instr) (token : Nat) (args : List Nat)
    (checks : List (Option FaultRec)) :
    FormedRes (s.startCommand c i token args checks) := by
  unfold State.startCommand
  grind [Formed.issueCommand, FormedRes, Res.next]

theorem Formed.engNibs {s : State} (h : Formed s) (e : Engine) (units : List TlbUnit) (ns : List Nat) :
    Formed (s.engNibs e units ns).2 := by
  unfold State.engNibs
  grind [formed_engThen, Formed.engLine, Formed.foldl_snd]

theorem Formed.engNibPuts {s : State} (h : Formed s) (e : Engine) (units : List TlbUnit) (en : Nat) (xs : List (Nat × Nat)) :
    Formed (s.engNibPuts e units en xs).2 := by
  unfold State.engNibPuts
  grind [formed_engThen, Formed.engPut, Formed.foldl_snd]

theorem Formed.denseGets {s : State} (h : Formed s) (e : Engine) (d : Machine.Dense) (n : Nat) (is : List Nat) :
    Formed (s.denseGets e d n is).2 := by
  unfold State.denseGets
  grind [formed_engThen, Formed.engNibs]

theorem Formed.tileSaved {s : State} (h : Formed s) (uid t i n : Nat) : Formed (s.tileSaved uid t i n) := by
  unfold State.tileSaved
  grind [Formed.saveMod]

theorem Formed.accSaved {s : State} (h : Formed s) (uid n : Nat) : Formed (s.accSaved uid n) := by
  unfold State.accSaved
  grind [Formed.saveMod, Formed.foldl]

theorem Formed.densePuts {s : State} (h : Formed s) (e : Engine) (d : Machine.Dense) (n : Nat) (xs : List (Nat × Nat)) :
    Formed (s.densePuts e d n xs).2 := by
  unfold State.densePuts
  grind [Formed.engNibPuts, Formed.tileSaved, State.modBlock_mem, Formed.foldl]

theorem Formed.moveUnit {s : State} (h : Formed s) (e : Engine) (t : Tensor) (store : Bool) (g : Nat) (d : Machine.Dense)
    (xs : List BoxElem) :
    Formed (s.moveUnit e t store g d xs).2 := by
  unfold State.moveUnit
  grind [formed_engThen, Formed.denseGets, Formed.engNibPuts, Formed.engNibs, Formed.densePuts]

@[simp] theorem mem_walkAhead (s : State) (core ctx : Nat) (pages : List Nat) : (s.walkAhead core ctx pages).mem = s.mem := by
  unfold State.walkAhead
  grind [mem_draw, mem_pickPte, mem_foldl]

/-- Each of the five reads and writes of a bag hands its state to the next. -/
theorem Formed.poolBag {s : State} (h : Formed s) (e : Engine) (b : Nat) : Formed (s.poolBag e b).2 := by
  unfold State.poolBag
  refine formed_engThen (h.engNat ..) fun lo s h => formed_engThen (h.engNat ..) fun hi s h => ?_
  split
  · exact h
  refine formed_engThen (Formed.foldl_snd _ (fun r k hr => formed_engThen hr fun l s h => formed_engThen (h.engNat ..) fun i s h => h) _ h)
    fun idx s h => ?_
  split
  · exact h
  refine formed_engThen (Formed.foldl_snd _ (fun r x hr => formed_engThen hr fun ys s h =>
      formed_engThen (h.engRead ..) fun row s h => ?_) _ h)
    fun ys s h => formed_engThen (h.engWellWrite ..) fun _ s h => h
  split
  · exact h
  · exact formed_engThen (h.engNat ..) fun w s h => h

@[simp] theorem mem_liveMarks (s : State) (ctx : Nat) (x : Xlat) : (s.liveMarks ctx x).2.mem = s.mem := by
  unfold State.liveMarks
  split <;> rfl

theorem Formed.copyPlace {s : State} (h : Formed s) (e : Engine) (va acc : Nat) (need : Need) :
    Formed (s.copyPlace e va acc need).2 := by
  unfold State.copyPlace
  grind [mem_xlat, → mem_engHome, mem_forward]

theorem Formed.copyBand {s : State} (h : Formed s) (e : Engine) (src dst : Nat) : Formed (s.copyBand e src dst).2 := by
  unfold State.copyBand
  grind [formed_engThen, Formed.copyPlace, mem_liveMarks, mem_eccDone, mem_drawBytes, Formed.softBytes, Formed.bindWake,
    mem_setBand, wf_writeMasked]

theorem Formed.copyStore {s : State} (h : Formed s) (e : Engine) (src off : Nat) : Formed (s.copyStore e src off).2 := by
  unfold State.copyStore
  refine formed_engThen (h.engRead ..) fun bs s h => ?_
  split
  · exact h
  split
  · exact h
  · exact h.homeBytes _ _

theorem Formed.engUnit {s : State} (h : Formed s) (e : Engine) (k : Nat) : Formed (s.engUnit e k).2 := by
  unfold State.engUnit
  grind [formed_engThen, Formed.engWellRead, Formed.engWrite, Formed.engRead, Formed.engWellWrite, Formed.copyStore,
    Formed.copyBand, Formed.moveUnit, Formed.poolBag]

theorem Formed.runUnits {s : State} (h : Formed s) (n : Nat) (a : Engine) (b : Nat) : Formed (runUnits n s a b).s := by
  fun_induction Machine.runUnits <;> grind [Formed.engUnit]

@[simp] theorem mem_quillAhead (s : State) (id : Nat) : (s.quillAhead id).mem = s.mem := by
  unfold State.quillAhead
  split
  · exact mem_walkAhead ..
  · rfl

theorem Formed.poisonBarrier {s : State} (h : Formed s) (e : Engine) : Formed (s.poisonBarrier e) := by
  unfold State.poisonBarrier
  grind [State.wellSetFull_mem, mem_wellPutSoft, Formed.serve]

theorem Formed.countUnit {s : State} (h : Formed s) (e : Engine) (n : Nat) : Formed (s.countUnit e n).2 := by
  unfold State.countUnit
  grind [Formed.poisonBarrier, mem_wellPutSoft, Formed.serve, mem_relSet, State.wellSetFull_mem]

theorem Formed.failEngine {s : State} (h : Formed s) (e : Engine) (r : FaultRec) : Formed (s.failEngine e r) := by
  unfold State.failEngine
  grind [Formed.poisonBarrier, Formed.report, Formed.completeEngine]

theorem Formed.execStageBarrierCount {s : State} (h : Formed s) (eng : Nat) : FormedOut (execStageBarrierCount eng s) := by
  refine Formed.happens h fun t e => ?_
  grind [Formed.engUnit, Formed.failEngine, Formed.countUnit, Formed.completeEngine, mem_quillAhead, State.modEngine_mem]

theorem Formed.collOwn {s : State} (h : Formed s) (e : Engine) (g : CollGroup) : Formed (s.collOwn e g).2 := by
  unfold State.collOwn
  grind [Formed.engRead, formed_engThen]

theorem Formed.collWithOwn {s : State} (h : Formed s) (e : Engine) (g : CollGroup) : Formed (s.collWithOwn e g).2 := by
  unfold State.collWithOwn
  grind [formed_engThen, Formed.collOwn, State.modEngine_mem]

theorem Formed.collStore {s : State} (h : Formed s) (e : Engine) (g : CollGroup) (r : List Byte) :
    Formed (s.collStore e g r).2 := by
  unfold State.collStore
  grind [Formed.engWrite]

theorem Formed.runColl {s : State} (h : Formed s) (e : Engine) : Formed (s.runColl e).s := by
  unfold State.runColl
  grind [Formed.collWithOwn, Formed.collStore]

theorem Formed.execCollPartialReceive {s : State} (h : Formed s) (eng child : Nat) (fromRoot : Bool) (x : CollPartial) :
    FormedOut (execCollPartialReceive eng child fromRoot x s) := by
  refine Formed.happens h fun t e => ?_
  grind [Formed.failEngine, Formed.collWithOwn, State.modEngine_mem]

theorem Formed.runEngine {s : State} (h : Formed s) (e : Engine) (n : Nat) : Formed (s.runEngine e n).s := by
  unfold State.runEngine
  grind [Formed.runColl, Formed.engRead, Formed.runUnits, Formed.engUnit]

theorem Formed.execEngineCompletion {s : State} (h : Formed s) (x : EngineRun) : FormedOut (execEngineCompletion x s) := by
  refine Formed.happens h fun t e => ?_
  grind [Formed.runEngine, Formed.completeEngine, Formed.failEngine, mem_quillAhead, State.modEngine_mem]

theorem Formed.execCollAbortReceive {s : State} (h : Formed s) (eng : Nat) (code : Byte) :
    FormedOut (execCollAbortReceive eng code s) := by
  refine Formed.happens h fun t e => ?_
  grind [Formed.report, Formed.completeEngine]

theorem Formed.execCollTimeout {s : State} (h : Formed s) (eng : Nat) : FormedOut (execCollTimeout eng s) := by
  refine Formed.happens h fun t e => ?_
  grind [Formed.completeEngine]

/-! ### Work creation (R193 to R203) -/

@[simp] theorem mem_newGrid (s : State) (g : Grid) : (s.newGrid g).2.mem = s.mem := State.modCtx_mem ..

theorem Formed.execLaunch {s : State} (h : Formed s) (f : EngForm) : FormedOut (execLaunch f s) := by
  refine Formed.run h _ fun c s h => ?_
  grind [formedRes_illegal, Formed.withWritten, mem_record, mem_releaseNow, mem_forwardLines, Formed.issueCommand, Formed.next,
    mem_newGrid, FormedRes]

theorem mem_takeSpares (l : List Nat) (s : State) (n : Nat) (a : List (Nat × Nat × Nat)) {x : List (Nat × Bank) × State}
    (e : takeSpares l s n a = some x) :
    x.2.mem = s.mem := by
  fun_induction Machine.takeSpares generalizing x <;> grind [→ mem_takeRun, mem_clearRun]

@[simp] theorem mem_fillView (s : State) (b : Block) (v : View) : (s.fillView b v).mem = s.mem := mem_wellWrite ..

theorem Formed.execSpawn {s : State} (h : Formed s) (f : EngForm) : FormedOut (execSpawn f s) := by
  refine Formed.run h _ fun c s h => Formed.withWritten h _ _ fun s h => ?_
  split
  · trivial
  next v s1 e1 =>
  have h1 : Formed s1 := by grind [mem_record]
  extract_lets nv
  split
  · trivial
  next bs s2 e2 =>
  have h2 : Formed s2 := by grind [mem_linesAt]
  split
  · trivial
  extract_lets
  split
  · trivial
  next bank s3 e3 =>
  have h3 : Formed s3 := by
    rw [Formed, show s3.mem = s2.mem from mem_takeSpares _ _ _ _ e3]
    exact h2
  extract_lets s4
  split
  next e s5 e5 =>
  have h5 : Formed s5 := by
    have : Formed s4 := by grind [mem_releaseNow, mem_forwardLines]
    grind [Formed.issueCommand]
  extract_lets b s6 s7 s8
  have h7 : Formed s7 := by
    rw [Formed, mem_foldl _ (fun s v => mem_fillView s b v)]
    exact h5
  exact Formed.completeEngine (s := s8) h7 ..

@[simp] theorem mem_countCommand (s : State) (c : Ic) : (s.countCommand c).mem = s.mem := rfl

theorem Formed.execMerge {s : State} (h : Formed s) (f : EngForm) : FormedOut (execMerge f s) := by
  refine Formed.run h _ fun c s h => ?_
  grind [Formed.withRelease, Formed.endThreads, mem_countCommand, FormedRes, Res.next, State.modBlock_mem]

theorem Formed.execSyncSpawn {s : State} (h : Formed s) (f : EngForm) : FormedOut (execSyncSpawn f s) := by
  refine Formed.run h _ fun c s h => ?_
  grind [Formed.withRing, mem_countCommand, mem_acquireEnd, mem_park, FormedRes, Res.next, State.modBlock_mem]

theorem Formed.submit {s : State} (h : Formed s) (t : Machine.Task) : Formed (s.submit t) := by
  unfold State.submit
  grind [Formed.taskWrite]

theorem Formed.execTsub {s : State} (h : Formed s) (f : EngForm) : FormedOut (execTsub f s) := by
  refine Formed.run h _ fun c s h => ?_
  grind [Formed.withWritten, mem_record, formedRes_illegal, mem_linesAt, mem_forwardLines, mem_releaseNow, Formed.issueCommand,
    Formed.submit, Formed.next, Formed.completeEngine, FormedRes]

theorem Formed.taskDrop {s : State} (h : Formed s) (u : Machine.Task) (stamp : Nat) : Formed (s.taskDrop u stamp) := by
  unfold State.taskDrop
  grind [Formed.taskWrite, State.modTask_mem, Formed.reportFailed, Formed.taskEnd]

theorem Formed.execTsig {s : State} (h : Formed s) (f : EngForm) : FormedOut (execTsig f s) := by
  refine Formed.run h _ fun c s h => ?_
  grind [Formed.withWritten, mem_record, mem_countCommand, mem_releaseNow, Formed.taskDrop, FormedRes, Res.next]

/-! ### Engine commands (R233, R245 to R259) -/

theorem Formed.execAcopy {s : State} (h : Formed s) (f : EngForm) : FormedOut (execAcopy f s) :=
  Formed.run h _ fun _ _ h => Formed.startCommand h ..
theorem Formed.execAcopyWsl {s : State} (h : Formed s) (f : EngForm) : FormedOut (execAcopyWsl f s) :=
  Formed.run h _ fun _ _ h => Formed.startCommand h ..
theorem Formed.execAcopySb {s : State} (h : Formed s) (f : EngForm) : FormedOut (execAcopySb f s) :=
  Formed.run h _ fun _ _ h => Formed.startCommand h ..

theorem Formed.withTensor {s : State} (h : Formed s) (c : Ic) (i : Instr) (pair : Nat) {k : Nat → Tensor → State → Res}
    (hk : ∀ v x t, Formed t → FormedRes (k v x t)) : FormedRes (withTensor s c i pair k) := by
  unfold Machine.withTensor
  grind [formedRes_illegal, Formed.withRecord]

theorem Formed.startBox {s : State} (h : Formed s) (c : Ic) (i : Instr) (token : Nat) (args : List Nat)
    (checks : List (Option FaultRec)) :
    FormedRes (s.startBox c i token args checks) := by
  unfold State.startBox
  grind [Formed.issueCommand, mem_quillAhead, FormedRes, Res.next]

theorem Formed.execAcopyT {s : State} (h : Formed s) (f : EngForm) : FormedOut (execAcopyT f s) := by
  refine Formed.run h _ fun c s h => ?_
  grind [Formed.withTensor, Formed.startBox, FormedRes]

theorem Formed.execTld {s : State} (h : Formed s) (f : EngForm) : FormedOut (execTld f s) :=
  Formed.run h _ fun _ _ h => Formed.withTensor h _ _ _ fun _ _ _ h => Formed.startBox h ..
theorem Formed.execTst {s : State} (h : Formed s) (f : EngForm) : FormedOut (execTst f s) :=
  Formed.run h _ fun _ _ h => Formed.withTensor h _ _ _ fun _ _ _ h => Formed.startBox h ..
theorem Formed.execGpool {s : State} (h : Formed s) (f : EngForm) : FormedOut (execGpool f s) :=
  Formed.run h _ fun _ _ h => Formed.withRecord h _ _ _ _ fun _ _ h => Formed.startCommand h ..

theorem Formed.execColl {s : State} (h : Formed s) (f : EngForm) : FormedOut (execColl f s) := by
  refine Formed.run h _ fun c s h => ?_
  grind [Formed.withRecord, Formed.startCommand]

theorem Formed.execSend {s : State} (h : Formed s) (f : EngForm) : FormedOut (execSend f s) :=
  Formed.run h _ fun _ _ h => Formed.startCommand h ..

theorem Formed.execRingAppend {s : State} (h : Formed s) (eng : Nat) : FormedOut (execRingAppend eng s) := by
  refine Formed.happens h fun t e => ?_
  grind [Formed.engRead, Formed.completeEngine, Formed.failEngine, mem_ringAppend]

theorem Formed.execRwait {s : State} (h : Formed s) (f : EngForm) : FormedOut (execRwait f s) := by
  refine Formed.run h _ fun c s h => ?_
  grind [formedRes_illegal, Formed.withRing, mem_countCommand, Formed.next, mem_acquireEnd, mem_park, FormedRes]

theorem Formed.execRwaitOpen {s : State} (h : Formed s) (f : EngForm) : FormedOut (execRwaitOpen f s) := by
  refine Formed.run h _ fun c s h => ?_
  grind [formedRes_illegal, Formed.next, mem_countCommand, FormedRes, State.wellPut_mem]

theorem Formed.execRwaitClose {s : State} (h : Formed s) (f : EngForm) : FormedOut (execRwaitClose f s) := by
  refine Formed.run h _ fun c s h => ?_
  grind [formedRes_illegal, Formed.next, mem_countCommand]

theorem Formed.execGiveDrainComplete {s : State} (h : Formed s) (give : Nat) : FormedOut (execGiveDrainComplete give s) := by
  refine Formed.happens h fun t e => ?_
  split at e
  · contradiction
  split at e
  · contradiction
  split at e
  · contradiction
  extract_lets cl s1 s2 s3 stamp ctx s4 s5 s6 at e
  have h1 : Formed s1 := Formed.foldl _ (fun _ _ h => Formed.waitFault h ..) _ h
  have h2 : Formed s6 := by grind [Formed.takeWell, mem_releaseNow, State.modCore_mem, State.modBlock_mem]
  clear_value s1 s6
  grind [mem_retire, State.modCore_mem, State.modBlock_mem]

/-! ### Fetching the issuing instruction (R53 to R58) -/

theorem Formed.fetchFault {s : State} (h : Formed s) (w : Warp) (x : Bundle) (code : Byte) (cause level addr : Nat) :
    Formed (s.fetchFault w x code cause level addr) := by
  unfold State.fetchFault
  grind [Formed.takeFault, State.modWarp_mem, State.issued_mem]

theorem Formed.fetchNow {s : State} (h : Formed s) {t : State} (e : fetchNow s = .out t) : Formed t := by
  unfold Machine.fetchNow at e
  dsimp only at e
  repeat' split at e
  all_goals grind [State.modWarp_mem, State.setWarp_mem, mem_stalled, mem_retire, State.issued_mem, Formed.takeFault,
    Formed.fetchFault]

/-! ### Predicates and lanes (R151 to R158) -/

theorem Formed.predInstr {s : State} (h : Formed s) (i : Instr) (f : RegForm) (op : Bool → Bool → Bool) :
    FormedOut (Machine.predInstr i f s op) :=
  Formed.compute h ..

theorem Formed.execShfl {s : State} (h : Formed s) (f : RegForm) : FormedOut (execShfl f s) := Formed.run h _ fun _ _ h => h

theorem Formed.execVoteAgree {s : State} (h : Formed s) (f : RegForm) : FormedOut (execVoteAgree f s) := by
  refine Formed.run h _ fun c s h => ?_
  grind [mem_owed, Formed.countLegacy, FormedRes, Res.next]

/-! ### Control transfers, traps, waiting and barriers (R174 to R189, R206) -/

@[simp] theorem mem_fetchLine (s : State) (w : Warp) (line : Nat) (flip : BitVec 512) (last : Bool) :
    (s.fetchLine w line flip last).2.mem = s.mem :=
  (SameData.fetchLine (fl := false) ..).mem_eq

@[simp] theorem mem_landings (s : State) (w : Warp) (l : List (Nat × BitVec 64)) : (s.landings w l).2.mem = s.mem :=
  (SameData.landings (fl := false) ..).mem_eq

theorem Formed.transfer {s : State} (h : Formed s) (i : Instr) (f : BrForm) (link : Bool) (tgt : Ic → Nat → BitVec 64) :
    FormedOut (Machine.transfer i f s link tgt) := by
  refine Formed.run h _ fun c s h => ?_
  grind [mem_landings, FormedRes, State.modWarp_mem]

theorem Formed.execExit {s : State} (h : Formed s) (f : BrForm) : FormedOut (execExit f s) := by
  refine Formed.run h _ fun c s h => ?_
  grind [Formed.endThreads, Formed.withRelease, FormedRes, Res.next]

theorem Formed.trapNow {s : State} (h : Formed s) (c : Ic) (code : FaultCode) (aux : Nat) : Formed (s.trapNow c code aux) := by
  unfold State.trapNow
  grind [Formed.takeFault, State.setWarp_mem]

theorem Formed.execTrap {s : State} (h : Formed s) (f : RegForm) : FormedOut (execTrap f s) := by
  refine Formed.run h _ fun c s h => ?_
  grind [Formed.trapNow, FormedRes]

theorem Formed.execBrk {s : State} (h : Formed s) (f : RegForm) : FormedOut (execBrk f s) := by
  refine Formed.run h _ fun c s h => ?_
  grind [Formed.swapOut, Formed.trapNow, FormedRes]

theorem Formed.execPause {s : State} (h : Formed s) (f : RegForm) : FormedOut (execPause f s) := Formed.run h _ fun _ _ h => h
theorem Formed.execYield {s : State} (h : Formed s) (f : RegForm) : FormedOut (execYield f s) := Formed.run h _ fun _ _ h => h

theorem Formed.execBar {s : State} (h : Formed s) (f : RegForm) : FormedOut (execBar f s) := by
  refine Formed.run h _ fun c s h => ?_
  grind [formedRes_illegal, Formed.withRelease, Formed.next, Formed.barsCheck, mem_park, State.modBlock_mem]

theorem Formed.execBarCnt {s : State} (h : Formed s) (f : RegForm) : FormedOut (execBarCnt f s) := by
  refine Formed.run h _ fun c s h => ?_
  grind [formedRes_illegal, Formed.withRelease, mem_park, Formed.countLegacy, Formed.next, Formed.barComplete, State.modBlock_mem]

theorem Formed.execClbar {s : State} (h : Formed s) (f : RegForm) : FormedOut (execClbar f s) := by
  refine Formed.run h _ fun c s h => ?_
  grind [formedRes_illegal, Formed.withRelease, Formed.next, Formed.clusterBar, mem_park, State.modBlock_mem]

theorem Formed.execGbar {s : State} (h : Formed s) (f : RegForm) : FormedOut (execGbar f s) := by
  refine Formed.run h _ fun c s h => ?_
  grind [formedRes_illegal, Formed.withRelease, Formed.next, Formed.gridBar, mem_park, State.modBlock_mem]

theorem Formed.execCvinit {s : State} (h : Formed s) (f : RegForm) : FormedOut (execCvinit f s) := by
  refine Formed.run h _ fun c s h => ?_
  grind [formedRes_illegal, Formed.next, FormedRes, State.modBlock_mem]

theorem Formed.execBarPhase {s : State} (h : Formed s) (f : RegForm) : FormedOut (execBarPhase f s) := by
  refine Formed.run h _ fun c s h => ?_
  grind [Formed.withWritten, mem_park, Formed.phaseBar, FormedRes, Res.next, State.modWarp_mem, State.modBlock_mem]

@[simp] theorem mem_countFlush (s : State) : s.countFlush.mem = s.mem := rfl
@[simp] theorem mem_countHalt (s : State) : s.countHalt.mem = s.mem := rfl

theorem Formed.trapCounted {s : State} (h : Formed s) (c : Ic) (code : Nat) {count : State → State}
    (hc : ∀ t, Formed t → Formed (count t)) : FormedRes (s.trapCounted c code count) := by
  unfold State.trapCounted
  grind [FormedRes, Formed.trapNow]

theorem Formed.execSysFlush {s : State} (h : Formed s) (f : RegForm) : FormedOut (execSysFlush f s) := by
  refine Formed.run h _ fun c s h => ?_
  grind [formedRes_illegal, Formed.trapCounted, mem_countFlush, mem_flushCore, Formed.withBoth, Formed.next, FormedRes,
    State.modWarp_mem]

theorem Formed.execSysHalt {s : State} (h : Formed s) (f : RegForm) : FormedOut (execSysHalt f s) := by
  refine Formed.run h _ fun c s h => ?_
  grind [formedRes_illegal, Formed.trapCounted, mem_countHalt]

/-! ### The block distributor (R346 to R349, R362 to R374) -/

theorem Formed.acceptGrid {s : State} (h : Formed s) (g : Grid) : Formed (s.acceptGrid g) := by
  unfold State.acceptGrid
  grind [State.modGrid_mem, Formed.traceEvent, Formed.hostDone, Formed.completeEngine]

theorem Formed.acceptTask {s : State} (h : Formed s) (t : Machine.Task) : Formed (s.acceptTask t) := by
  unfold State.acceptTask
  grind [mem_readVirt, mem_forwardLines, Formed.reportFailed, Formed.taskEnd, Formed.report, Formed.taskWrite, State.modTask_mem,
    mem_newGrid, Formed.acceptGrid]

@[simp] theorem mem_acceptBlock (s : State) (uid : Nat) : (s.acceptBlock uid).mem = s.mem := rfl

theorem Formed.acceptEntry {s : State} (h : Formed s) (e : Entry) : Formed (s.acceptEntry e) := by
  unfold State.acceptEntry
  grind [Formed.acceptTask, Formed.acceptGrid, mem_acceptBlock]

theorem Formed.execGridAccept {s : State} (h : Formed s) : FormedOut (execGridAccept s) := by
  refine Formed.happens h fun t e => ?_
  grind [Option.map_eq_some_iff, Formed.acceptEntry]

theorem Formed.spillFor {s : State} (h : Formed s) (x : Want) (cl n : Nat) {t : State} (e : spillFor x cl n s = some t) :
    Formed t := by
  fun_induction Machine.spillFor with
  | case1 | case3 | case4 => grind
  | case2 => contradiction
  | case5 s n hp s' hs ih =>
    obtain ⟨b, -, hb⟩ := List.exists_of_findSome?_eq_some hs
    grind [→ Formed.spill]

theorem Formed.seat {s : State} (h : Formed s) (x : Want) (core : Nat) (scheds : List Nat) {t : State}
    (e : s.seat x core scheds = some t) :
    Formed t := by
  unfold State.seat at e
  split at e
  · contradiction
  next u hu =>
  have h := h.spillFor _ _ _ hu
  grind [Formed.restoreWarp, Formed.phaseBar, Formed.warpIllegal, → Formed.restoreBlock, mem_seatAll, → Formed.phaseBegin,
    → mem_takeWells, Formed.startBlock]

theorem Formed.seatOn {s : State} (h : Formed s) (x : Want) (core : Nat) {t : State} (e : s.seatOn x core = some t) : Formed t := by
  unfold State.seatOn at e
  grind [→ Formed.seat]

@[simp] theorem mem_shed (s : State) (core prio : Nat) : (s.shed core prio).mem = s.mem :=
  mem_foldl _ (fun _ _ => mem_phaseLeave ..) _ _

theorem Formed.evictOne {s : State} (h : Formed s) (b : Block) (pas : List Nat) (wid : Nat) : Formed (s.evictOne b pas wid) := by
  unfold State.evictOne
  grind [Formed.evictWarp, State.modBlock_mem, Formed.saveBlock]

theorem Formed.evictAll {s : State} (h : Formed s) (us : List Nat) (ws : List Warp) {t : State} (e : s.evictAll us ws = .ok t) :
    Formed t := by
  unfold State.evictAll at e
  grind [Formed.evictBlock, Formed.evictOne, Formed.foldl]

theorem Formed.place {s : State} (h : Formed s) (mode prio : Nat) (spare : List Nat) (x : Want) {t : State}
    (e : s.place mode prio spare x = .ok t) :
    Formed t := by
  unfold State.place at e
  extract_lets done at e
  have hdone (s t : State) (c : Nat) (h : Formed s) (e : done s c = .ok t) : Formed t := by
    dsimp only [done] at e
    split at e
    · next hs => exact Except.ok.inj e ▸ h.seatOn _ _ hs
    · contradiction
  have hshed (c p : Nat) : Formed (s.shed c p) := by rw [Formed, mem_shed]; exact h
  split at e
  · exact hdone _ _ _ h e
  split at e
  · exact hdone _ _ _ (hshed ..) e
  split at e
  · contradiction
  dsimp only at e
  split at e
  · contradiction
  split at e
  · contradiction
  · next hu => exact hdone _ _ _ ((hshed ..).evictAll _ _ hu) e

theorem Formed.placeAll {s : State} (h : Formed s) (mode prio : Nat) (spare : List Nat) (l : List Want) {t : State}
    (e : placeAll mode prio spare l s = .ok t) : Formed t := by
  fun_induction Machine.placeAll <;> grind [→ Formed.place]

theorem Formed.placeGroup {s : State} (h : Formed s) (g : Grid) (clusters barred spare bids : List Nat) {t : State}
    (e : s.placeGroup g clusters barred spare bids = .ok t) : Formed t := by
  unfold State.placeGroup at e
  extract_lets on try' at e
  have htry (mode : Nat) (r : Except Miss State) (hr : ∀ t, r = .ok t → Formed t) : ∀ t, try' mode r = .ok t → Formed t := by
    dsimp only [try']
    split
    · refine List.foldlRecOn (motive := fun (r : Except Miss State) => ∀ t, r = .ok t → Formed t)
        clusters _ (fun _ e => nomatch e) fun r hr cl _ => ?_
      split
      · exact fun _ => h.placeAll _ _ _ _
      · exact hr
    · exact hr
  exact htry 2 _ (htry 1 _ (htry 0 (.error .noRoom) fun _ e => nomatch e)) t e

theorem Formed.placeGrid {s : State} (h : Formed s) (g : Grid) (barred spare : List Nat) {t : State}
    (e : s.placeGrid g barred spare = .ok t) : Formed t := by
  unfold State.placeGrid at e
  extract_lets n bids cores s0 wants r at e
  have h0 : Formed s0 := by grind [mem_newPhase]
  have hr : ∀ u, r = .ok u → Formed u := by
    dsimp only [r]
    split
    · exact fun _ e => nomatch e
    split
    · exact fun _ => h0.placeAll _ _ _ _
    · refine List.foldlRecOn (motive := fun (r : Except Miss State) => ∀ t, r = .ok t → Formed t)
        _ _ (fun _ e => Except.ok.inj e ▸ h0) fun r hr k _ => ?_
      split
      · exact fun _ e => nomatch e
      · exact fun _ => (hr _ rfl).placeGroup _ _ _ _ _
  grind [State.modGrid_mem]

theorem Formed.tryPlace {go : State → List Nat → Except Miss State} (hgo : ∀ s l t, Formed s → go s l = .ok t → Formed t)
    (n : Nat) {s : State} (h : Formed s)
    (l : List Nat) : Formed (tryPlace go n l s).2 := by
  fun_induction tryPlace <;> grind [Formed.refuseReport]

theorem Formed.tryWaiting {s : State} (h : Formed s) (x : Waiting) (barred : List Nat) : Formed (s.tryWaiting x barred).2 := by
  unfold State.tryWaiting
  grind [Formed.tryPlace, → Formed.placeGrid, → Formed.place]

@[simp] theorem mem_skip (s : State) (gid : Nat) : (s.skip gid).mem = s.mem := rfl
@[simp] theorem mem_unskip (s : State) (gid : Nat) : (s.unskip gid).mem = s.mem := rfl

theorem Formed.serveRun {s : State} (h : Formed s) (l : List Waiting) (a b : List Nat) : Formed (serveRun l a b s).2 := by
  fun_induction Machine.serveRun <;> grind [Formed.tryWaiting, mem_unskip, mem_skip]

theorem Formed.placeOne {s : State} (h : Formed s) : Formed s.placeOne.2 := Formed.serveRun h ..

theorem Formed.execRestore {s : State} (h : Formed s) (uid : Nat) : FormedOut (execRestore uid s) := by
  refine Formed.happens h fun t e => ?_
  grind [Formed.placeOne]

theorem Formed.offerRun {s : State} (h : Formed s) (n : Nat) : Formed (offerRun n s) := by
  fun_induction Machine.offerRun <;> grind [Formed.placeOne]

theorem Formed.offer {s : State} (h : Formed s) (dt : Nat) : Formed (s.offer dt) := by
  unfold State.offer
  grind [Formed.ringWake, State.unstall_mem, Formed.offerRun]

theorem Formed.execBlockPlace {s : State} (h : Formed s) : FormedOut (execBlockPlace s) := by
  refine Formed.happens h fun t e => ?_
  grind [Formed.placeOne]

theorem Formed.execGridSkipTimeout {s : State} (h : Formed s) (gid : Nat) : FormedOut (execGridSkipTimeout gid s) := by
  refine Formed.happens h fun t e => ?_
  grind [State.modGrid_mem]

/-! ### Floating-point instructions (R160 to R169) -/

theorem Formed.fpInstr {s : State} (h : Formed s) (i : Instr) (f : RegForm) (op : Fmt → Nat → Nat → Nat → Nat × Flags) :
    FormedOut (Machine.fpInstr i f s op) :=
  Formed.compute h ..

/-! ### The host's side (R472 to R476) -/

theorem Formed.putRange {s : State} (h : Formed s) (die k word : Nat) (v : BitVec 64) : Formed (s.putRange die k word v) :=
  Formed.foldl _ (fun _ _ h => wf_writeBytes h ..) _ h

@[simp] theorem mem_msixWrite (s : State) (fn word : Nat) (v : Word) : (s.msixWrite fn word v).mem = s.mem := by
  unfold State.msixWrite
  grind

theorem Formed.barWrite {s : State} (h : Formed s) (fn off : Nat) (v : BitVec 64) : Formed (s.barWrite fn off v) := by
  have ite {c : Prop} [Decidable c] {a b : State} (ha : Formed a) (hb : Formed b) :
      Formed (if c then a else b) := by
    split <;> assumption
  unfold State.barWrite
  refine ite (by rw [Formed, mem_msixWrite]; exact h) (ite h ?_)
  split
  · exact h.putRange _ _ _ _
  · exact ite h (ite h (ite h (ite h (ite h (ite h (ite h h))))))

theorem Formed.execRegisterWrite {s : State} (h : Formed s) (offset : Nat) (value : BitVec 64) :
    FormedOut (execRegisterWrite offset value s) := by
  refine Formed.happens h fun t e => ?_
  grind [Formed.barWrite]

theorem Formed.execTrctlWrite {s : State} (h : Formed s) (die : Nat) (value : BitVec 64) :
    FormedOut (execTrctlWrite die value s) := by
  refine Formed.happens h fun t e => ?_
  grind [Formed.tracePut, State.modDie_mem, State.modCores_mem]

theorem Formed.execTrstatWrite {s : State} (h : Formed s) (die : Nat) (value : BitVec 32) :
    FormedOut (execTrstatWrite die value s) := by
  refine Formed.happens h fun t e => ?_
  grind [State.modDie_mem]

@[simp] theorem mem_storeMended (s : State) (a n : Nat) : (s.storeMended a n).mem = s.mem := by
  unfold State.storeMended
  split <;> rfl

theorem Formed.execHostBar2Access {s : State} (h : Formed s) (acc : HostAccess) : FormedOut (execHostBar2Access acc s) := by
  refine Formed.happens h fun t e => ?_
  grind [Formed.bindWake, mem_storeMended, Formed.softBytes]

theorem Formed.queuePop {s : State} (h : Formed s) (r : QueueRun) : Formed (s.queuePop r) := Formed.homeBytes h ..

theorem Formed.rejectBad {s : State} (h : Formed s) (n : Nat) : Formed (rejectBad n s) := by
  fun_induction Machine.rejectBad <;> grind [Formed.hostDone, Formed.queuePop]

theorem Formed.rejectAll {s : State} (h : Formed s) : Formed s.rejectAll := Formed.rejectBad h ..

theorem Formed.execDoorbellWrite {s : State} (h : Formed s) (queue : Nat) : FormedOut (execDoorbellWrite queue s) := by
  refine Formed.happens h fun t e => ?_
  grind [Formed.rejectAll]

theorem Formed.command {s : State} (h : Formed s) (mine : Nat → Bool) {go : Nat → State → Option State}
    (hk : ∀ v s t, Formed s → go v s = some t → Formed t) : FormedOut (Machine.command s mine go) := by
  refine Formed.happens h fun t e => ?_
  grind [Formed.rejectAll, Formed.queuePop, Formed.hostDone]

theorem Formed.execCmdLaunch {s : State} (h : Formed s) : FormedOut (execCmdLaunch s) := by
  refine Formed.happens h fun t e => ?_
  grind [Formed.rejectAll, Formed.queuePop, Formed.hostDone, mem_newGrid]

theorem Formed.execCmdCreateContext {s : State} (h : Formed s) : FormedOut (execCmdCreateContext s) := by
  refine Formed.command h _ fun v s t h e => ?_
  grind [Formed.homeBytes, Formed.ctxRecord32, Formed.ctxRo, State.modCtx_mem]

theorem Formed.execCmdKillContext {s : State} (h : Formed s) : FormedOut (execCmdKillContext s) := by
  refine Formed.command h _ fun v s t h e => ?_
  grind [Formed.killContext, Formed.reports, Formed.reportFailed]

theorem Formed.execCmdWritePartitionTable {s : State} (h : Formed s) : FormedOut (execCmdWritePartitionTable s) := by
  refine Formed.command h _ fun v s t h e => ?_
  grind [Option.map_eq_some_iff]

theorem Formed.execCmdWriteSliceTable {s : State} (h : Formed s) : FormedOut (execCmdWriteSliceTable s) := by
  refine Formed.command h _ fun v s t h e => ?_
  grind [Option.map_eq_some_iff]

theorem Formed.execCmdWriteCollGroups {s : State} (h : Formed s) : FormedOut (execCmdWriteCollGroups s) := by
  refine Formed.command h _ fun v s t h e => ?_
  grind [Option.map_eq_some_iff]

theorem Formed.execCmdEnterWeightLoad {s : State} (h : Formed s) : FormedOut (execCmdEnterWeightLoad s) := by
  refine Formed.command h _ fun v s t h e => ?_
  grind [Formed.foldl, State.modDie_mem]

theorem Formed.execCmdLeaveWeightLoad {s : State} (h : Formed s) : FormedOut (execCmdLeaveWeightLoad s) := by
  refine Formed.command h _ fun v s t h e => ?_
  grind [Option.map_eq_some_iff, Formed.foldl, State.modDie_mem]

theorem Formed.execCmdSetCtxbase {s : State} (h : Formed s) : FormedOut (execCmdSetCtxbase s) := by
  refine Formed.command h _ fun v s t h e => ?_
  grind

theorem Formed.execCmdWritePowerControl {s : State} (h : Formed s) : FormedOut (execCmdWritePowerControl s) := by
  refine Formed.command h _ fun v s t h e => ?_
  grind [State.modDie_mem]

theorem Formed.execCmdWriteStitch {s : State} (h : Formed s) : FormedOut (execCmdWriteStitch s) := by
  refine Formed.command h _ fun v s t h e => ?_
  grind [State.modDie_mem]

theorem Formed.execCmdReloadContext {s : State} (h : Formed s) : FormedOut (execCmdReloadContext s) := by
  refine Formed.command h _ fun v s t h e => ?_
  grind [Formed.ctxRo, State.modCtx_mem]

/-! ### The matrix engine (R261 to R278) -/

theorem Formed.engElems {s : State} (h : Formed s) (e : Engine) (en pad : Nat) (as : List (Option Nat)) :
    Formed (s.engElems e en pad as).2 := by
  unfold State.engElems
  grind [formed_engThen, Formed.engNibs]

theorem Formed.matRow {s : State} (h : Formed s) (e : Engine) (m : Mat) (i : Nat) : Formed (s.matRow e m i).2 := by
  unfold State.matRow
  grind [formed_engThen, Formed.engElems, Formed.engWellRead]

theorem Formed.engList {α : Type} {s : State} (h : Formed s) (n : Nat) {f : Nat → State → Eng α}
    (hf : ∀ k t, Formed t → Formed (f k t).2) :
    Formed (engList s n f).2 := by
  unfold Machine.engList
  grind [formed_engThen, Formed.foldl_snd]

theorem Formed.entry {s : State} (h : Formed s) (e : Engine) (en n : Nat) : Formed (s.entry e en n).2 := by
  unfold State.entry
  grind [formed_engThen, Formed.engNat]

theorem Formed.slotCols {s : State} (h : Formed s) (e : Engine) (en n : Nat) : Formed (s.slotCols e en n).2 := by
  unfold State.slotCols
  grind [formed_engThen, Formed.entry, Formed.foldl_snd]

theorem Formed.matPart {s : State} (h : Formed s) (e : Engine) (m : Mat) (k : Nat) : Formed (s.matPart e m k).2 := by
  unfold State.matPart
  grind [Formed.matRow, formed_engThen, Formed.slotCols, Formed.engElems, Formed.engList, Formed.engNat]

theorem Formed.matRead {s : State} (h : Formed s) (e : Engine) (m : Mat) (l : List Nat) (n : Nat) :
    Formed (matRead e m l s n).2.2 := by
  fun_induction Machine.matRead <;> grind [Formed.matPart, State.modEngine_mem]

theorem Formed.checkMat {s : State} (h : Formed s) (c : Ic) (conv : Bool) (f : EngForm) (rec1 brec : Nat) (args : List Nat)
    {k : State → Res} (hk : ∀ t, Formed t → FormedRes (k t)) : FormedRes (s.checkMat c conv f rec1 brec args k) := by
  unfold State.checkMat
  grind [FormedRes]

theorem Formed.withOperands {s : State} (h : Formed s) (c : Ic) (i : Instr) (conv : Bool) (f : EngForm)
    {k : List Nat → State → Res} (hk : ∀ a t, Formed t → FormedRes (k a t)) : FormedRes (withOperands s c i conv f k) := by
  unfold Machine.withOperands
  grind [Formed.withRecord, Formed.checkMat]

@[simp] theorem mem_queueMat (s : State) (core id : Nat) (signers : List Nat) : (s.queueMat core id signers).mem = s.mem :=
  (State.modCore_mem ..).trans (State.modEngine_mem ..)

@[simp] theorem mem_matAhead (s : State) (id : Nat) : (s.matAhead id).mem = s.mem := by
  unfold State.matAhead
  grind [mem_walkAhead]

theorem Formed.sign {s : State} (h : Formed s) (i : Instr) (conv : Bool) (f : EngForm) (c : Ic) :
    FormedRes (sign i conv f c s) := by
  unfold Machine.sign
  grind [FormedRes, Res.next, Formed.withOperands, Formed.issueCommand, mem_matAhead, mem_queueMat, Ic.illegal, State.modBlock_mem]

theorem Formed.execMma {s : State} (h : Formed s) (f : EngForm) : FormedOut (execMma f s) :=
  Formed.run h _ fun _ _ h => Formed.sign h ..
theorem Formed.execMconv {s : State} (h : Formed s) (f : EngForm) : FormedOut (execMconv f s) :=
  Formed.run h _ fun _ _ h => Formed.sign h ..
@[simp] theorem mem_matPop (s : State) (core : Nat) : (s.matPop core).mem = s.mem := State.modCore_mem ..

theorem Formed.matFail {s : State} (h : Formed s) (core : Nat) (e : Engine) (code : Nat) : Formed (s.matFail core e code) := by
  unfold State.matFail
  grind [Formed.reportFailed, Formed.completeEngine, mem_matPop, Formed.foldl]

theorem Formed.matEnd {s : State} (h : Formed s) (core : Nat) (e : Engine) (m : Mat) : Formed (s.matEnd core e m) := by
  unfold State.matEnd
  grind [Formed.matFail, Formed.accSaved, State.modBlock_mem, Formed.completeEngine, mem_matPop, Formed.foldl]

@[simp] theorem mem_damagePart (s : State) (e : Engine) (m : Mat) (ks : List Nat) (ecc : EccOutcome) :
    (s.damagePart e m ks ecc).mem = s.mem := by
  unfold State.damagePart
  grind [mem_draw]

theorem Formed.execMatrixOpComplete {s : State} (h : Formed s) (x : MatrixRun) : FormedOut (execMatrixOpComplete x s) := by
  refine Formed.happens h fun t e => ?_
  grind [Formed.matRead, mem_damagePart, Formed.matFail, Formed.matEnd, mem_matAhead, State.modEngine_mem]

theorem Formed.runAny {s : State} (h : Formed s) (e : Engine) : Formed (s.runAny e).s := by
  unfold State.runAny
  grind [Formed.runEngine, Formed.matRead]

theorem Formed.execEngineSuspend {s : State} (h : Formed s) (eng : Nat) : FormedOut (execEngineSuspend eng s) := by
  refine Formed.happens h fun t e => ?_
  grind [Option.map_eq_some_iff, Formed.runAny, → Formed.putRecord, State.modEngine_mem]

/-! ### Device time (R33, R34) -/

@[simp] theorem mem_advance (s : State) (dt : Nat) : (s.advance dt).mem = s.mem := by
  unfold State.advance
  split <;> rfl

/-! ### The platform (R284, R334, R401, R440, R458 to R468, R478 to R483) -/

theorem Formed.execWsWindowOpen {s : State} (h : Formed s) (die group : Nat) : FormedOut (execWsWindowOpen die group s) := by
  refine Formed.happens h fun t e => ?_
  grind [State.modDie_mem]

theorem Formed.execWsWindowClose {s : State} (h : Formed s) (die group : Nat) : FormedOut (execWsWindowClose die group s) := by
  refine Formed.happens h fun t e => ?_
  grind [State.modDie_mem]

theorem Formed.peerWrite {s : State} (h : Formed s) (r : PeerReq) : Formed (s.peerWrite r) := by
  unfold State.peerWrite
  grind [Formed.softBytes, mem_relSet, Formed.bindWake]

theorem Formed.execPeerRequest {s : State} (h : Formed s) (req : PeerReq) : FormedOut (execPeerRequest req s) := by
  refine Formed.happens h fun t e => ?_
  grind [Option.map_eq_some_iff, mem_readFault, mem_blot, Formed.peerWrite, → mem_homeReady]

theorem Formed.execLinkDown {s : State} (h : Formed s) (port : Nat) : FormedOut (execLinkDown port s) := by
  refine Formed.happens h fun t e => ?_
  grind [mem_interrupt]

theorem Formed.noRoute {s : State} (h : Formed s) (m : Msg) {t : State} (e : s.noRoute m = some t) : Formed t := by
  unfold State.noRoute at e
  grind [mem_drawBytes, Formed.strongFault, State.dropMsg_mem, mem_defer, State.send_mem, mem_unfilter, mem_deferWb, mem_wbDone,
    Formed.foldl]

theorem Formed.noRouteEngine {s : State} (h : Formed s) (e : Engine) {t : State} (eq : s.noRouteEngine e = some t) : Formed t := by
  unfold State.noRouteEngine at eq
  grind [Formed.runAny, Formed.matFail, Formed.failEngine]

theorem Formed.execRouteTimeout {s : State} (h : Formed s) (msg : Nat) : FormedOut (execRouteTimeout msg s) := by
  refine Formed.happens h fun t e => ?_
  grind [Option.bind_eq_some_iff, → Formed.noRoute, → Formed.noRouteEngine]

theorem Formed.execSampleIntervalStart {s : State} (h : Formed s) (core sched : Nat) :
    FormedOut (execSampleIntervalStart core sched s) := by
  refine Formed.happens h fun t e => ?_
  grind [State.modCore_mem]

@[simp] theorem mem_sampleLevel (s : State) (p : Sample) : (s.sampleLevel p).2.mem = s.mem := by
  unfold State.sampleLevel
  grind [mem_draw]

theorem Formed.execSampleRecordWrite {s : State} (h : Formed s) (core sched : Nat) :
    FormedOut (execSampleRecordWrite core sched s) := by
  refine Formed.happens h fun t e => ?_
  grind [Option.map_eq_some_iff, mem_sampleLevel, Formed.traceRec, State.modCore_mem]

@[simp] theorem mem_freqStep (s : State) (d mhz : Nat) : (s.freqStep d mhz).mem = s.mem := rfl
@[simp] theorem mem_sensed (s : State) (die mw tempC : Nat) : (s.sensed die mw tempC).mem = s.mem := rfl

theorem Formed.execPowerCompare {s : State} (h : Formed s) (die : Nat) (x : PowerReading) :
    FormedOut (execPowerCompare die x s) := by
  refine Formed.happens h fun t e => ?_
  grind [mem_sensed, mem_freqStep, State.modDie_mem]

@[simp] theorem mem_catchUp (s : State) (d dt : Nat) : (s.catchUp d dt).mem = s.mem := rfl

theorem Formed.execPllRelockDone {s : State} (h : Formed s) (die : Nat) : FormedOut (execPllRelockDone die s) := by
  refine Formed.happens h fun t e => ?_
  grind [Formed.syncPut, mem_catchUp, State.modDie_mem]

theorem Formed.execThermalThrottle {s : State} (h : Formed s) (x : HeatReading) : FormedOut (execThermalThrottle x s) := by
  refine Formed.happens h fun t e => ?_
  grind [mem_sensed, mem_freqStep, State.modDie_mem]

theorem Formed.execThermalRecover {s : State} (h : Formed s) (x : HeatReading) : FormedOut (execThermalRecover x s) := by
  refine Formed.happens h fun t e => ?_
  grind [mem_sensed, State.modDie_mem]

theorem Formed.execThermalTrip {s : State} (h : Formed s) : FormedOut (execThermalTrip s) := by
  refine Formed.happens h fun t e => ?_
  grind [Formed.killContext, Formed.reports, Formed.reportFailed, mem_interrupt, Formed.foldl]

@[simp] theorem mem_setLock (s : State) (b : Bool) : (s.setLock b).mem = s.mem := by
  unfold State.setLock
  split
  · rfl
  · exact mem_interrupt ..

theorem Formed.execPtpSync {s : State} (h : Formed s) (sync : PtpSync) : FormedOut (execPtpSync sync s) := by
  refine Formed.happens h fun t e => ?_
  grind [mem_setLock]

theorem Formed.execPtpHoldover {s : State} (h : Formed s) : FormedOut (execPtpHoldover s) := by
  refine Formed.happens h fun t e => ?_
  grind [mem_interrupt]

/-- A reset drops the cells of the wiped ranges, and a part of a canonical list is canonical. -/
theorem Formed.restart {s : State} (h : Formed s) (lcs : LifeCycle) : Formed (s.restart lcs) := cwf_filter h _

@[simp] theorem mem_verifyImage (s : State) (i : FirmwareImage) : (s.verifyImage i).mem = s.mem := by
  unfold State.verifyImage
  grind

theorem Formed.execWipeComplete {s : State} (h : Formed s) (image : FirmwareImage) : FormedOut (execWipeComplete image s) := by
  refine Formed.happens h fun t e => ?_
  grind [mem_verifyImage, mem_interrupt]

theorem Formed.execRecoveryImageLoad {s : State} (h : Formed s) (image : FirmwareImage) :
    FormedOut (execRecoveryImageLoad image s) := by
  refine Formed.happens h fun t e => ?_
  grind [mem_verifyImage]

theorem Formed.execDeviceReset {s : State} (h : Formed s) : FormedOut (execDeviceReset s) := Formed.restart h _
theorem Formed.execMgmtResetRequest {s : State} (h : Formed s) : FormedOut (execMgmtResetRequest s) := Formed.restart h _

theorem Formed.execLifecycleChange {s : State} (h : Formed s) (next : LifeCycle) : FormedOut (execLifecycleChange next s) := by
  refine Formed.happens h fun t e => ?_
  grind [Formed.restart]

theorem Formed.execSpdmRequest {s : State} (h : Formed s) (request : List Byte) : FormedOut (execSpdmRequest request s) := by
  refine Formed.happens h fun t e => ?_
  grind

/-! ### How work ends (R176, R189, R196 to R202, R350, R369) -/

theorem Formed.execWarpRelease {s : State} (h : Formed s) (uid wid : Nat) : FormedOut (execWarpRelease uid wid s) := by
  refine Formed.happens h fun t e => ?_
  grind [Formed.leaveSlot]

theorem Formed.execBlockRetire {s : State} (h : Formed s) (uid : Nat) : FormedOut (execBlockRetire uid s) := by
  refine Formed.happens h fun t e => ?_
  grind [mem_closeRings, Formed.traceEvent, State.modBlock_mem, State.modGrid_mem]

theorem Formed.execGridRetire {s : State} (h : Formed s) (gid : Nat) : FormedOut (execGridRetire gid s) := by
  refine Formed.happens h fun t e => ?_
  grind [Formed.completeEngine, Formed.taskEnd, State.modGrid_mem]

@[simp] theorem mem_foldView (p c : Block) (v : View) (n a : Nat) (s : State) : (foldView p c v n a s).2.mem = s.mem := by
  fun_induction Machine.foldView <;> grind [mem_wellWrite]

@[simp] theorem mem_foldViews (p c : Block) (n a : Nat) (l : List View) (s : State) : (foldViews p c n a l s).2.mem = s.mem := by
  fun_induction Machine.foldViews <;> grind [mem_foldView]

theorem Formed.foldEnd {s : State} (h : Formed s) (parent child : Nat) : Formed (s.foldEnd parent child) := by
  unfold State.foldEnd
  grind [State.modBlock_mem, Formed.syncWake]

theorem Formed.execChildFold {s : State} (h : Formed s) (parent : Nat) : FormedOut (execChildFold parent s) := by
  refine Formed.happens h fun t e => ?_
  grind [Formed.foldEnd, mem_foldViews, Formed.report, State.modBlock_mem]

theorem Formed.execPhaseReady {s : State} (h : Formed s) (uid : Nat) : FormedOut (execPhaseReady uid s) := by
  refine Formed.happens h fun t e => ?_
  grind [State.modBlock_mem]

theorem Formed.execPhaseStart {s : State} (h : Formed s) (uid : Nat) : FormedOut (execPhaseStart uid s) := by
  refine Formed.happens h fun t e => ?_
  grind [mem_phaseLeave, → Formed.spillFor, → Formed.phaseBegin]

@[simp] theorem mem_gangColls (s : State) (at' : Nat) : (s.gangColls at').mem = s.mem := rfl

theorem Formed.execGangBoundary {s : State} (h : Formed s) : FormedOut (execGangBoundary s) := by
  refine Formed.happens h fun t e => ?_
  grind [mem_gangColls, Formed.traceEvent, Formed.foldl]

/-! ### The schedulers (R351 to R356) -/

@[simp] theorem mem_tag (s : State) (w : Warp) (x : Scheduler) : (s.tag w x).2.mem = s.mem := by
  unfold State.tag
  grind [mem_draw]

@[simp] theorem mem_choose (s : State) (w : Warp) (core sched : Nat) : (s.choose w core sched).mem = s.mem :=
  (State.modCore_mem ..).trans (mem_tag ..)
@[simp] theorem mem_tryWarp (s : State) (w : Warp) (core sched : Nat) : (s.tryWarp w core sched).mem = s.mem := rfl

theorem Formed.tried {s t : State} (hs : Formed s) (ht : Formed t) : Formed (s.tried t) := by
  unfold State.tried
  grind [State.modWarp_mem]

theorem Formed.outcome {s : State} (h : Formed s) {o : Out} (ho : FormedOut o) : FormedOut (s.outcome o) := by
  cases o with
  | next t =>
    unfold State.outcome
    grind [FormedOut, Formed.tried]
  | fault r => trivial
  | refused r => trivial

theorem Formed.execSchedulerIssueCycle {s : State} (h : Formed s) (core sched : Nat) :
    FormedOut (execSchedulerIssueCycle core sched s) := by
  unfold Machine.execSchedulerIssueCycle
  extract_lets cycle mine s'
  have hs : Formed s' := Formed.foldl (fun s (w : Warp) => s.setWarp (w.prepare cycle)) (fun _ _ h => h) _ h
  clear_value s'
  grind [FormedOut, mem_tryWarp, mem_choose]

theorem mem_lineIn (s : State) (uid wid : Nat) (st : FetchSt) (flip : BitVec 512) {t : State}
    (e : s.lineIn uid wid st flip = some t) :
    t.mem = s.mem := by
  unfold State.lineIn at e
  grind [mem_fetchLine, State.modWarp_mem]

theorem Formed.execLineFetch {s : State} (h : Formed s) (uid wid : Nat) (flip : BitVec 512) :
    FormedOut (execLineFetch uid wid flip s) := by
  refine Formed.happens h fun t e => ?_
  grind [→ mem_lineIn]

theorem Formed.execLineRefetch {s : State} (h : Formed s) (uid wid : Nat) (flip : BitVec 512) :
    FormedOut (execLineRefetch uid wid flip s) := by
  refine Formed.happens h fun t e => ?_
  grind [→ mem_lineIn]

theorem Formed.execPauseExpiry {s : State} (h : Formed s) (uid wid lane : Nat) : FormedOut (execPauseExpiry uid wid lane s) := by
  refine Formed.happens h fun t e => ?_
  grind [Formed.wakeWhere]

/-! ### Tiles and accumulators (R279 to R286) -/

theorem Formed.tileInstr {s : State} (h : Formed s) (i : Instr) (accs tiles : List Nat) {body : Ic → State → Res}
    (hk : ∀ c s, Formed s → FormedRes (body c s)) : FormedOut (Machine.tileInstr i s accs tiles body) := by
  refine Formed.run h _ fun c s h => ?_
  grind [FormedRes]

theorem Formed.execTzero {s : State} (h : Formed s) (f : RegForm) : FormedOut (execTzero f s) :=
  Formed.tileInstr h _ _ _ fun _ _ h => h
theorem Formed.execAzero {s : State} (h : Formed s) (f : RegForm) : FormedOut (execAzero f s) :=
  Formed.tileInstr h _ _ _ fun _ _ h => h
theorem Formed.execAmov {s : State} (h : Formed s) (f : RegForm) : FormedOut (execAmov f s) :=
  Formed.tileInstr h _ _ _ fun _ _ h => h
theorem Formed.execTmov {s : State} (h : Formed s) (f : RegForm) : FormedOut (execTmov f s) :=
  Formed.tileInstr h _ _ _ fun _ _ h => h

theorem Formed.execAld {s : State} (h : Formed s) (f : RegForm) : FormedOut (execAld f s) := by
  refine Formed.tileInstr h _ _ _ fun c s h => ?_
  grind [formedRes_illegal, Formed.next, mem_owed]

theorem Formed.execAst {s : State} (h : Formed s) (f : RegForm) : FormedOut (execAst f s) := by
  refine Formed.tileInstr h _ _ _ fun c s h => ?_
  grind [formedRes_illegal, Formed.next, State.modBlock_mem]

theorem Formed.execTmovW {s : State} (h : Formed s) (f : RegForm) : FormedOut (execTmovW f s) := by
  refine Formed.tileInstr h _ _ _ fun c s h => ?_
  grind [formedRes_illegal, Formed.next, State.modBlock_mem]

theorem Formed.execTmovR {s : State} (h : Formed s) (f : RegForm) : FormedOut (execTmovR f s) := by
  refine Formed.tileInstr h _ _ _ fun c s h => ?_
  grind [formedRes_illegal, Formed.next, mem_owed]

@[simp] theorem mem_owedOnce (c : Ic) (s : State) (fl : Flags) (ws : List (RegSlot × Word)) : (owedOnce c s fl ws).mem = s.mem :=
  rfl
theorem Formed.execHqnt {s : State} (h : Formed s) (f : RegForm) : FormedOut (execHqnt f s) :=
  Formed.tileInstr h _ _ _ fun _ _ h => h

theorem Formed.execHdeq {s : State} (h : Formed s) (f : RegForm) : FormedOut (execHdeq f s) := by
  refine Formed.tileInstr h _ _ _ fun c s h => ?_
  grind [formedRes_illegal, Formed.next, mem_owedOnce]

theorem Formed.execAconv {s : State} (h : Formed s) (f : RegForm) : FormedOut (execAconv f s) :=
  Formed.tileInstr h _ _ _ fun _ _ h => h
theorem Formed.execAconvF32 {s : State} (h : Formed s) (f : RegForm) : FormedOut (execAconvF32 f s) :=
  Formed.tileInstr h _ _ _ fun _ _ h => h

theorem Formed.execWsinfo {s : State} (h : Formed s) (f : RegForm) : FormedOut (execWsinfo f s) := by
  refine Formed.run h _ fun c s h => ?_
  grind [formedRes_illegal, Formed.next, mem_owed]

theorem Formed.execWswait {s : State} (h : Formed s) (f : RegForm) : FormedOut (execWswait f s) := by
  refine Formed.run h _ fun c s h => ?_
  grind [formedRes_illegal, Formed.next, FormedRes]

/-! ### Streams (R287 to R293) -/

theorem Formed.streamInstr {s : State} (h : Formed s) (i : Instr) (ops : List (BitVec 8)) (pairs : List (BitVec 8 × BitVec 8))
    (illegal : Ic → Bool) {body : Ic → State → Block → State} (hk : ∀ c s b, Formed s → Formed (body c s b)) :
    FormedOut (Machine.streamInstr i s ops pairs illegal body) := by
  refine Formed.run h _ fun c s h => ?_
  grind [formedRes_illegal, Formed.next, FormedRes]

theorem Formed.execSlen {s : State} (h : Formed s) (f : RegForm) : FormedOut (execSlen f s) := by
  refine Formed.run h _ fun c s h => ?_
  grind [Formed.next, formedRes_illegal, State.modBlock_mem]

theorem Formed.execSseed {s : State} (h : Formed s) (f : RegForm) : FormedOut (execSseed f s) := by
  refine Formed.run h _ fun c s h => ?_
  dsimp only
  split
  · exact formedRes_illegal _
  · exact wf_writeNat h ..

theorem Formed.execSgen {s : State} (h : Formed s) (f : RegForm) : FormedOut (execSgen f s) :=
  Formed.streamInstr h _ _ _ _ fun _ _ _ h => h
theorem Formed.execSregen {s : State} (h : Formed s) (f : RegForm) : FormedOut (execSregen f s) :=
  Formed.streamInstr h _ _ _ _ fun _ _ _ h => h

theorem Formed.streamBin {s : State} (h : Formed s) (i : Instr) (f : RegForm) (op : BitVec 1024 → BitVec 1024 → BitVec 1024) :
    FormedOut (Machine.streamBin i f s op) :=
  Formed.streamInstr h _ _ _ _ fun _ _ _ h => h

theorem Formed.execSnot {s : State} (h : Formed s) (f : RegForm) : FormedOut (execSnot f s) :=
  Formed.streamInstr h _ _ _ _ fun _ _ _ h => h
theorem Formed.execSmux {s : State} (h : Formed s) (f : RegForm) : FormedOut (execSmux f s) :=
  Formed.streamInstr h _ _ _ _ fun _ _ _ h => h
theorem Formed.execSshift {s : State} (h : Formed s) (f : RegForm) : FormedOut (execSshift f s) :=
  Formed.streamInstr h _ _ _ _ fun _ _ _ h => h
theorem Formed.execSmov {s : State} (h : Formed s) (f : RegForm) : FormedOut (execSmov f s) :=
  Formed.streamInstr h _ _ _ _ fun _ _ _ h => h
theorem Formed.execScnt {s : State} (h : Formed s) (f : RegForm) : FormedOut (execScnt f s) :=
  Formed.streamInstr h _ _ _ _ fun _ _ _ h => h
theorem Formed.execSclass {s : State} (h : Formed s) (f : RegForm) : FormedOut (execSclass f s) :=
  Formed.streamInstr h _ _ _ _ fun _ _ _ h => h

/-! ### Supervisor instructions (R204, R205, R430) -/

@[simp] theorem mem_putStatus (s : State) (c : Ic) (f : RegForm) (v : Nat) : (s.putStatus c f v).mem = s.mem := rfl

theorem Formed.retranslate {s : State} (h : Formed s) (m : Msg) : Formed (s.retranslate m) := by
  unfold State.retranslate
  grind [mem_xlat, Formed.refuseWrite]

theorem Formed.invalidate {s : State} (h : Formed s) (x : InvSel) (level : Nat) : Formed (s.invalidate x level) := by
  unfold State.invalidate
  grind [mem_writeBack, Formed.retranslate, Formed.foldl]

theorem Formed.execSysTlbinv {s : State} (h : Formed s) (f : RegForm) : FormedOut (execSysTlbinv f s) := by
  refine Formed.run h _ fun c s h => ?_
  grind [Formed.withWritten, Formed.invalidate, mem_acquire, mem_releaseNow, FormedRes, Res.next, State.modWarp_mem]

theorem Formed.answer {s : State} (h : Formed s) (w : Warp) : Formed (s.answer w) := by
  unfold State.answer
  grind [Formed.wakeFaulted, Formed.retranslate, Formed.foldl]

theorem Formed.execSysFwake {s : State} (h : Formed s) (f : RegForm) : FormedOut (execSysFwake f s) := by
  refine Formed.run h _ fun c s h => ?_
  grind [Formed.withBoth, mem_putStatus, Formed.answer, FormedRes, Res.next, State.modBlock_mem]

theorem Formed.execSysFkill {s : State} (h : Formed s) (f : RegForm) : FormedOut (execSysFkill f s) := by
  refine Formed.run h _ fun c s h => ?_
  grind [formedRes_illegal, Formed.withBoth, Formed.next, mem_putStatus, Formed.abortGrid, Formed.reports, Formed.reportFailed,
    State.modBlock_mem]

theorem Formed.execSysEvict {s : State} (h : Formed s) (f : RegForm) : FormedOut (execSysEvict f s) := by
  refine Formed.run h _ fun c s h => ?_
  grind [Formed.withBoth, mem_putStatus, Formed.refuseReport, mem_retire, Formed.evictBlock, FormedRes, Res.next]

theorem Formed.execSysResume {s : State} (h : Formed s) (f : RegForm) : FormedOut (execSysResume f s) := by
  refine Formed.run h _ fun c s h => ?_
  grind [Formed.withBoth, Formed.next, mem_putStatus, State.modBlock_mem, State.setWarp_mem, Formed.foldl, FormedRes, Res.next]

theorem Formed.execSysMcount {s : State} (h : Formed s) (f : RegForm) : FormedOut (execSysMcount f s) := by
  refine Formed.run h _ fun c s h => ?_
  grind [mem_putStatus, FormedRes, Res.next]

/-! ### Every instruction and event -/

/-- One arm for each constructor of `Instr`; an instruction that only computes on registers goes through its class. -/
theorem Formed.exec {s : State} (h : Formed s) (i : Instr) : FormedOut (Machine.exec i s) := by
  cases i with
  | nop f => exact Formed.execNop h ..
  | getsr f => exact Formed.execGetsr h ..
  | setsr f => exact Formed.execSetsr h ..
  | bra f => exact show FormedOut (execBra f s) from Formed.transfer h ..
  | brx f => exact show FormedOut (execBrx f s) from Formed.transfer h ..
  | call f => exact show FormedOut (execCall f s) from Formed.transfer h ..
  | calli f => exact show FormedOut (execCalli f s) from Formed.transfer h ..
  | ret f => exact show FormedOut (execRet f s) from Formed.transfer h ..
  | exit f => exact Formed.execExit h ..
  | trap f => exact Formed.execTrap h ..
  | brk f => exact Formed.execBrk h ..
  | pause f => exact Formed.execPause h ..
  | yield f => exact Formed.execYield h ..
  | bar f => exact Formed.execBar h ..
  | barPhase f => exact Formed.execBarPhase h ..
  | clbar f => exact Formed.execClbar h ..
  | gbar f => exact Formed.execGbar h ..
  | cvinit f => exact Formed.execCvinit h ..
  | launch f => exact Formed.execLaunch h ..
  | spawn f => exact Formed.execSpawn h ..
  | merge f => exact Formed.execMerge h ..
  | syncSpawn f => exact Formed.execSyncSpawn h ..
  | tsub f => exact Formed.execTsub h ..
  | tsig f => exact Formed.execTsig h ..
  | sysTlbinv f => exact Formed.execSysTlbinv h ..
  | sysFwake f => exact Formed.execSysFwake h ..
  | sysFkill f => exact Formed.execSysFkill h ..
  | sysEvict f => exact Formed.execSysEvict h ..
  | sysResume f => exact Formed.execSysResume h ..
  | sysMcount f => exact Formed.execSysMcount h ..
  | voteAgree f => exact Formed.execVoteAgree h ..
  | barCnt f => exact Formed.execBarCnt h ..
  | sysFlush f => exact Formed.execSysFlush h ..
  | sysHalt f => exact Formed.execSysHalt h ..
  | add f => exact show FormedOut (execAdd f s) from Formed.intInstr h ..
  | sub f => exact show FormedOut (execSub f s) from Formed.intInstr h ..
  | mul f => exact show FormedOut (execMul f s) from Formed.intInstr h ..
  | mulhi f => exact show FormedOut (execMulhi f s) from Formed.intInstr h ..
  | mad f => exact show FormedOut (execMad f s) from Formed.intInstr h ..
  | min f => exact show FormedOut (execMin f s) from Formed.intInstr h ..
  | max f => exact show FormedOut (execMax f s) from Formed.intInstr h ..
  | abs f => exact show FormedOut (execAbs f s) from Formed.intInstr h ..
  | neg f => exact show FormedOut (execNeg f s) from Formed.intInstr h ..
  | addc f => exact show FormedOut (execAddc f s) from Formed.compute h ..
  | lea f => exact show FormedOut (execLea f s) from Formed.compute h ..
  | mov f => exact show FormedOut (execMov f s) from Formed.compute h ..
  | movi f => exact show FormedOut (execMovi f s) from Formed.compute h ..
  | sel f => exact show FormedOut (execSel f s) from Formed.compute h ..
  | andB f => exact show FormedOut (execAndB f s) from Formed.bitInstr h ..
  | orB f => exact show FormedOut (execOrB f s) from Formed.bitInstr h ..
  | xorB f => exact show FormedOut (execXorB f s) from Formed.bitInstr h ..
  | notB f => exact show FormedOut (execNotB f s) from Formed.bitInstr h ..
  | shl f => exact show FormedOut (execShl f s) from Formed.shiftInstr h ..
  | shr f => exact show FormedOut (execShr f s) from Formed.shiftInstr h ..
  | sar f => exact show FormedOut (execSar f s) from Formed.shiftInstr h ..
  | rot f => exact show FormedOut (execRot f s) from Formed.shiftInstr h ..
  | clz f => exact show FormedOut (execClz f s) from Formed.compute h ..
  | popc f => exact show FormedOut (execPopc f s) from Formed.compute h ..
  | brev f => exact show FormedOut (execBrev f s) from Formed.bitInstr h ..
  | bfe f => exact show FormedOut (execBfe f s) from Formed.compute h ..
  | bfi f => exact show FormedOut (execBfi f s) from Formed.compute h ..
  | cmp f => exact show FormedOut (execCmp f s) from Formed.compute h ..
  | fcmp f => exact show FormedOut (execFcmp f s) from Formed.compute h ..
  | pand f => exact show FormedOut (execPand f s) from Formed.predInstr h ..
  | por f => exact show FormedOut (execPor f s) from Formed.predInstr h ..
  | pxor f => exact show FormedOut (execPxor f s) from Formed.predInstr h ..
  | pnot f => exact show FormedOut (execPnot f s) from Formed.predInstr h ..
  | pmov f => exact show FormedOut (execPmov f s) from Formed.predInstr h ..
  | pmovPack f => exact show FormedOut (execPmovPack f s) from Formed.compute h ..
  | pmovUnpack f => exact show FormedOut (execPmovUnpack f s) from Formed.compute h ..
  | shfl f => exact Formed.execShfl h ..
  | vote f => exact show FormedOut (execVote f s) from Formed.compute h ..
  | redux f => exact show FormedOut (execRedux f s) from Formed.compute h ..
  | matchL f => exact show FormedOut (execMatchL f s) from Formed.compute h ..
  | prefixL f => exact show FormedOut (execPrefixL f s) from Formed.compute h ..
  | fadd f => exact show FormedOut (execFadd f s) from Formed.fpInstr h ..
  | fsub f => exact show FormedOut (execFsub f s) from Formed.fpInstr h ..
  | fmul f => exact show FormedOut (execFmul f s) from Formed.fpInstr h ..
  | ffma f => exact show FormedOut (execFfma f s) from Formed.fpInstr h ..
  | fmin f => exact show FormedOut (execFmin f s) from Formed.fpInstr h ..
  | fmax f => exact show FormedOut (execFmax f s) from Formed.fpInstr h ..
  | fabs f => exact show FormedOut (execFabs f s) from Formed.fpInstr h ..
  | fneg f => exact show FormedOut (execFneg f s) from Formed.fpInstr h ..
  | fclass f => exact show FormedOut (execFclass f s) from Formed.compute h ..
  | frnd f => exact show FormedOut (execFrnd f s) from Formed.fpInstr h ..
  | frcp f => exact show FormedOut (execFrcp f s) from Formed.fpInstr h ..
  | fsqrt f => exact show FormedOut (execFsqrt f s) from Formed.fpInstr h ..
  | frsq f => exact show FormedOut (execFrsq f s) from Formed.fpInstr h ..
  | fexp2 f => exact show FormedOut (execFexp2 f s) from Formed.fpInstr h ..
  | flog2 f => exact show FormedOut (execFlog2 f s) from Formed.fpInstr h ..
  | cvt f => exact show FormedOut (execCvt f s) from Formed.compute h ..
  | pack f => exact show FormedOut (execPack f s) from Formed.compute h ..
  | unpack f => exact show FormedOut (execUnpack f s) from Formed.compute h ..
  | rnfwd f => exact show FormedOut (execRnfwd f s) from Formed.rnInstr h ..
  | rnadd f => exact show FormedOut (execRnadd f s) from Formed.rnInstr h ..
  | rnsub f => exact show FormedOut (execRnsub f s) from Formed.rnInstr h ..
  | rnmul f => exact show FormedOut (execRnmul f s) from Formed.rnInstr h ..
  | rnrev f => exact show FormedOut (execRnrev f s) from Formed.rnInstr h ..
  | ld f => exact Formed.execLd h ..
  | st f => exact Formed.execSt h ..
  | ldc f => exact Formed.execLdc h ..
  | prf f => exact Formed.execPrf h ..
  | lda f => exact show FormedOut (execLda f s) from Formed.paired h ..
  | stl f => exact show FormedOut (execStl f s) from Formed.paired h ..
  | xar f => exact show FormedOut (execXar f s) from Formed.paired h ..
  | car f => exact show FormedOut (execCar f s) from Formed.paired h ..
  | atc f => exact show FormedOut (execAtc f s) from Formed.relaxed h ..
  | redc f => exact show FormedOut (execRedc f s) from Formed.relaxed h ..
  | ata f => exact show FormedOut (execAta f s) from Formed.relaxed h ..
  | reda f => exact show FormedOut (execReda f s) from Formed.relaxed h ..
  | ldf f => exact show FormedOut (execLdf f s) from Formed.relaxed h ..
  | stf f => exact show FormedOut (execStf f s) from Formed.relaxed h ..
  | atx f => exact show FormedOut (execAtx f s) from Formed.relaxed h ..
  | cas f => exact show FormedOut (execCas f s) from Formed.relaxed h ..
  | fence f => exact Formed.execFence h ..
  | ldfe f => exact Formed.execLdfe h ..
  | stfe f => exact Formed.execStfe h ..
  | give f => exact Formed.execGive h ..
  | giveDrainComplete give => exact Formed.execGiveDrainComplete h ..
  | take f => exact Formed.execTake h ..
  | wmap f => exact Formed.execWmap h ..
  | wfill f => exact Formed.execWfill h ..
  | acopy f => exact Formed.execAcopy h ..
  | acopyWsl f => exact Formed.execAcopyWsl h ..
  | acopySb f => exact Formed.execAcopySb h ..
  | acopyT f => exact Formed.execAcopyT h ..
  | stageBarrierCount eng => exact Formed.execStageBarrierCount h ..
  | tld f => exact Formed.execTld h ..
  | tst f => exact Formed.execTst h ..
  | gpool f => exact Formed.execGpool h ..
  | coll f => exact Formed.execColl h ..
  | collPartialReceive eng child fromRoot data => exact Formed.execCollPartialReceive h ..
  | collAbortReceive eng code => exact Formed.execCollAbortReceive h ..
  | collTimeout eng => exact Formed.execCollTimeout h ..
  | send f => exact Formed.execSend h ..
  | ringAppend eng => exact Formed.execRingAppend h ..
  | rwait f => exact Formed.execRwait h ..
  | rwaitOpen f => exact Formed.execRwaitOpen h ..
  | rwaitClose f => exact Formed.execRwaitClose h ..
  | mma f => exact Formed.execMma h ..
  | matrixOpComplete core => exact Formed.execMatrixOpComplete h ..
  | mconv f => exact Formed.execMconv h ..
  | tzero f => exact Formed.execTzero h ..
  | azero f => exact Formed.execAzero h ..
  | amov f => exact Formed.execAmov h ..
  | ald f => exact Formed.execAld h ..
  | ast f => exact Formed.execAst h ..
  | tmov f => exact Formed.execTmov h ..
  | tmovW f => exact Formed.execTmovW h ..
  | tmovR f => exact Formed.execTmovR h ..
  | hqnt f => exact Formed.execHqnt h ..
  | aconv f => exact Formed.execAconv h ..
  | aconvF32 f => exact Formed.execAconvF32 h ..
  | hdeq f => exact Formed.execHdeq h ..
  | wsinfo f => exact Formed.execWsinfo h ..
  | wswait f => exact Formed.execWswait h ..
  | slen f => exact Formed.execSlen h ..
  | sseed f => exact Formed.execSseed h ..
  | sgen f => exact Formed.execSgen h ..
  | sand f => exact show FormedOut (execSand f s) from Formed.streamBin h ..
  | sor f => exact show FormedOut (execSor f s) from Formed.streamBin h ..
  | sxor f => exact show FormedOut (execSxor f s) from Formed.streamBin h ..
  | sxnor f => exact show FormedOut (execSxnor f s) from Formed.streamBin h ..
  | snot f => exact Formed.execSnot h ..
  | smux f => exact Formed.execSmux h ..
  | scnt f => exact Formed.execScnt h ..
  | sregen f => exact Formed.execSregen h ..
  | sshift f => exact Formed.execSshift h ..
  | smov f => exact Formed.execSmov h ..
  | sclass f => exact Formed.execSclass h ..
  | schedulerIssueCycle core sched => exact Formed.execSchedulerIssueCycle h ..
  | lineFetch uid wid flip => exact Formed.execLineFetch h ..
  | lineRefetch uid wid flip => exact Formed.execLineRefetch h ..
  | pauseExpiry uid wid lane => exact Formed.execPauseExpiry h ..
  | resultWriteback owed => exact Formed.execResultWriteback h ..
  | loadSectorReturn owed piece => exact Formed.execLoadSectorReturn h ..
  | markCheckAck msg => exact Formed.execMarkCheckAck h ..
  | homeMarkCheck msg => exact Formed.execHomeMarkCheck h ..
  | deferredFaultDelivery uid wid => exact Formed.execDeferredFaultDelivery h ..
  | holdingSlotReread ctx => exact Formed.execHoldingSlotReread h ..
  | engineCompletion eng => exact Formed.execEngineCompletion h ..
  | engineSuspend eng => exact Formed.execEngineSuspend h ..
  | phaseReady uid => exact Formed.execPhaseReady h ..
  | phaseStart uid => exact Formed.execPhaseStart h ..
  | gridAccept => exact Formed.execGridAccept h ..
  | gridSkipTimeout gid => exact Formed.execGridSkipTimeout h ..
  | blockPlace => exact Formed.execBlockPlace h ..
  | restore uid => exact Formed.execRestore h ..
  | warpRelease uid wid => exact Formed.execWarpRelease h ..
  | blockRetire uid => exact Formed.execBlockRetire h ..
  | gridRetire gid => exact Formed.execGridRetire h ..
  | childFold parent => exact Formed.execChildFold h ..
  | l1Fill msg => exact Formed.execL1Fill h ..
  | lineWriteback msg => exact Formed.execLineWriteback h ..
  | writebackAck msg => exact Formed.execWritebackAck h ..
  | l2Evict line => exact Formed.execL2Evict h ..
  | l2Refill line ecc => exact Formed.execL2Refill h ..
  | backInvalidate line => exact Formed.execBackInvalidate h ..
  | peerRequest req => exact Formed.execPeerRequest h ..
  | forwardedLineRequest msg => exact Formed.execForwardedLineRequest h ..
  | migrationHoldTimeout msg => exact Formed.execMigrationHoldTimeout h ..
  | acquireFloorRecompute ctx => exact Formed.execAcquireFloorRecompute h ..
  | wellSwitchAccess msg => exact Formed.execWellSwitchAccess h ..
  | queuedWellRelease core => exact Formed.execQueuedWellRelease h ..
  | wsWindowOpen die group => exact Formed.execWsWindowOpen h ..
  | wsWindowClose die group => exact Formed.execWsWindowClose h ..
  | gangBoundary => exact Formed.execGangBoundary h ..
  | sampleIntervalStart core sched => exact Formed.execSampleIntervalStart h ..
  | sampleRecordWrite core sched => exact Formed.execSampleRecordWrite h ..
  | trctlWrite die value => exact Formed.execTrctlWrite h ..
  | trstatWrite die value => exact Formed.execTrstatWrite h ..
  | doorbellWrite queue => exact Formed.execDoorbellWrite h ..
  | registerWrite offset value => exact Formed.execRegisterWrite h ..
  | cmdLaunch => exact Formed.execCmdLaunch h ..
  | cmdCreateContext => exact Formed.execCmdCreateContext h ..
  | cmdKillContext => exact Formed.execCmdKillContext h ..
  | cmdWritePartitionTable => exact Formed.execCmdWritePartitionTable h ..
  | cmdWriteSliceTable => exact Formed.execCmdWriteSliceTable h ..
  | cmdWriteCollGroups => exact Formed.execCmdWriteCollGroups h ..
  | cmdEnterWeightLoad => exact Formed.execCmdEnterWeightLoad h ..
  | cmdLeaveWeightLoad => exact Formed.execCmdLeaveWeightLoad h ..
  | cmdSetCtxbase => exact Formed.execCmdSetCtxbase h ..
  | cmdWritePowerControl => exact Formed.execCmdWritePowerControl h ..
  | cmdWriteStitch => exact Formed.execCmdWriteStitch h ..
  | cmdReloadContext => exact Formed.execCmdReloadContext h ..
  | hostBar2Access acc => exact Formed.execHostBar2Access h ..
  | powerCompare die meanMilliwatts => exact Formed.execPowerCompare h ..
  | pllRelockDone die => exact Formed.execPllRelockDone h ..
  | thermalThrottle die => exact Formed.execThermalThrottle h ..
  | thermalRecover die => exact Formed.execThermalRecover h ..
  | thermalTrip => exact Formed.execThermalTrip h ..
  | ptpSync sync => exact Formed.execPtpSync h ..
  | ptpHoldover => exact Formed.execPtpHoldover h ..
  | linkDown port => exact Formed.execLinkDown h ..
  | routeTimeout msg => exact Formed.execRouteTimeout h ..
  | deviceReset => exact Formed.execDeviceReset h ..
  | wipeComplete image => exact Formed.execWipeComplete h ..
  | recoveryImageLoad image => exact Formed.execRecoveryImageLoad h ..
  | lifecycleChange next => exact Formed.execLifecycleChange h ..
  | spdmRequest request => exact Formed.execSpdmRequest h ..
  | mgmtResetRequest => exact Formed.execMgmtResetRequest h ..
  | homeSliceAccess msg => exact Formed.execHomeSliceAccess h ..

/-! ### What the device does of itself -/

@[simp] theorem mem_took (s : State) (i : Instr) : (s.took i).mem = s.mem := by
  unfold State.took
  split <;> rfl

theorem Formed.idle {s : State} (h : Formed s) : Formed s.idle := by
  unfold State.idle
  grind [mem_advance, Formed.offer]

/-! ### One step -/

theorem Formed.step {s : State} (h : Formed s) : FormedOut (Machine.step s) := by
  unfold Machine.step
  split
  · split
    next t e => exact Formed.outcome h (Formed.fetchNow h e)
    next i _ => exact Formed.outcome h (Formed.exec h i)
  · split
    next x rest _ =>
      refine Formed.exec ?_ _
      rw [Formed, mem_advance]
      exact Formed.offer (s := { s with script := rest }) h _
    · split
      next i _ => exact Formed.exec (by rwa [Formed, mem_took]) i
      · exact Formed.idle h

/-- Settles O59: a step is a fetch that ends the issue, or one instruction or event of the table, and each of them writes memory
only through the operations that keep its form. -/
theorem memoryFormKept : Obligations.MemoryFormKept := by
  intro s t h e
  have ht := Formed.step h
  rw [e] at ht
  exact ht

end Sys2Proof

/-! PROOFS. Sampling, device time, firmware and resets (O50): each event passes its conditions (`happens_of`, Laws/Bodies.lean), and
the record of a sample carries each of its fields where R439 puts it. -/

namespace Sys2Proof

open Sys2Proof.Machine Sys2Proof.Claims

/-! ### Fields packed into a record -/

/-- The fields of a record, each as its lowest bit, its length and its value, added up. -/
def fieldSum : List (Nat × Nat × Nat) → Nat
  | [] => 0
  | (lo, len, v) :: fs => putField lo len v + fieldSum fs

/-- The fields stand one below the other, all of them below bit `n`. -/
def FieldsBelow (n : Nat) : List (Nat × Nat × Nat) → Prop
  | [] => True
  | (lo, len, _) :: fs => lo + len ≤ n ∧ FieldsBelow lo fs

theorem fieldSum_lt {n : Nat} {fs : List (Nat × Nat × Nat)} (h : FieldsBelow n fs) : fieldSum fs < 2 ^ n := by
  induction fs generalizing n with
  | nil => exact Nat.two_pow_pos n
  | cons x fs ih =>
    obtain ⟨lo, len, v⟩ := x
    obtain ⟨hfits, hbelow⟩ := h
    have hv : v % 2 ^ len + 1 ≤ 2 ^ len := Nat.mod_lt v (Nat.two_pow_pos len)
    calc putField lo len v + fieldSum fs
        < v % 2 ^ len * 2 ^ lo + 2 ^ lo := Nat.add_lt_add_left (ih hbelow) _
      _ = (v % 2 ^ len + 1) * 2 ^ lo := (Nat.succ_mul ..).symm
      _ ≤ 2 ^ len * 2 ^ lo := Nat.mul_le_mul_right _ hv
      _ = 2 ^ (lo + len) := by rw [Nat.pow_add, Nat.mul_comm]
      _ ≤ 2 ^ n := Nat.pow_le_pow_right Nat.two_pos hfits

/-- A field reads as its own value over whatever lies below it. -/
theorem fieldOf_putField_add {lo r : Nat} (hr : r < 2 ^ lo) (len v : Nat) : fieldOf (putField lo len v + r) lo len = v % 2 ^ len := by
  rw [fieldOf, putField, Nat.add_comm, Nat.add_mul_div_right _ _ (Nat.two_pow_pos lo), Nat.div_eq_of_lt hr, Nat.zero_add, Nat.mod_mod]

/-- A field does not see what stands above it. -/
theorem fieldOf_below_putField {lo len hi : Nat} (hlo : lo + len ≤ hi) (n v r : Nat) :
    fieldOf (putField hi n v + r) lo len = fieldOf r lo len := by
  obtain ⟨k, rfl⟩ := Nat.exists_eq_add_of_le hlo
  have hput : putField (lo + len + k) n v = 2 ^ lo * (2 ^ len * (v % 2 ^ n * 2 ^ k)) := by
    rw [putField, Nat.pow_add, Nat.pow_add]
    ring
  rw [fieldOf, fieldOf, hput, Nat.mul_add_div (Nat.two_pow_pos lo), Nat.mul_add_mod]

/-- Fields that stand below bit `n` end there. -/
theorem le_of_mem_fieldsBelow {n lo len v : Nat} {fs : List (Nat × Nat × Nat)} (h : FieldsBelow n fs) (hmem : (lo, len, v) ∈ fs) :
    lo + len ≤ n := by
  induction fs generalizing n with
  | nil => cases hmem
  | cons x fs ih =>
    obtain ⟨hfits, hbelow⟩ := h
    rcases List.mem_cons.mp hmem with rfl | htail
    · exact hfits
    · have := ih hbelow htail
      omega

/-- Each of the fields reads as its value. -/
theorem fieldOf_fieldSum {n lo len v : Nat} {fs : List (Nat × Nat × Nat)} (h : FieldsBelow n fs) (hmem : (lo, len, v) ∈ fs) :
    fieldOf (fieldSum fs) lo len = v % 2 ^ len := by
  induction fs generalizing n with
  | nil => cases hmem
  | cons x fs ih =>
    obtain ⟨-, hbelow⟩ := h
    rcases List.mem_cons.mp hmem with rfl | htail
    · exact fieldOf_putField_add (fieldSum_lt hbelow) len v
    · rw [fieldSum, fieldOf_below_putField (le_of_mem_fieldsBelow hbelow htail), ih hbelow htail]

/-! ### Sampling (R439, R440) -/

/-- The fields of a sample's record (R440), from its highest bit down. -/
def sampleFields (p : Sample) (core sched level lat : Nat) : List (Nat × Nat × Nat) :=
  [(448, 64, p.time), (393, 55, p.pc.toNat), (361, 32, p.eseq.toNat), (344, 17, p.slot), (328, 16, p.ctx), (248, 80, lat),
    (245, 3, level), (239, 6, p.cls), (235, 4, p.minor), (229, 6, p.nact), (228, 1, p.fault.toNat), (227, 1, p.disc.toNat),
    (226, 1, p.pair.toNat), (224, 2, sched), (216, 8, coreInDie core)]

theorem sampleFields_below (p : Sample) (core sched level lat : Nat) : FieldsBelow 512 (sampleFields p core sched level lat) := by
  simp [sampleFields, FieldsBelow]

theorem record_eq_fieldSum (p : Sample) (core sched level lat : Nat) :
    p.record core sched level lat = fieldSum (sampleFields p core sched level lat) := by
  simp only [Sample.record, sampleFields, fieldSum, Nat.add_assoc, Nat.add_zero]

theorem fieldOf_record {p : Sample} {core sched level lat lo len v : Nat} (hmem : (lo, len, v) ∈ sampleFields p core sched level lat) :
    fieldOf (p.record core sched level lat) lo len = v % 2 ^ len := by
  rw [record_eq_fieldSum]
  exact fieldOf_fieldSum (sampleFields_below ..) hmem

theorem sampleIntervalStart_happens {s : State} {core sched : Nat} (hen : (s.die (coreDie core)).trace.en = true)
    (hsint : (s.die (coreDie core)).trace.sint ≠ 0) (hsched : sched < 4) (hcore : core < 800) :
    let t := (s.die (coreDie core)).trace
    let x := (s.core core).sched sched
    let start := max x.nextAt t.enAt
    start ≤ s.time →
    let r := lfsrDraw (if x.lfsr = 0 then lfsrLoad t.enAt core sched else x.lfsr)
    Happens (.sampleIntervalStart core sched) s (s.modCore core fun c => c.setSched sched
      { x with lfsr := r, nextAt := start + 1000 * t.sint, tagAt := x.tagAt ++ [start + r.toNat * t.sint * 1000 / 65536] }) := by
  intro t x start hdue
  have hpassed : ¬s.time < max ((s.core core).sched sched).nextAt (s.die (coreDie core)).trace.enAt := Nat.not_lt.mpr hdue
  refine happens_of rfl (if_neg ?_)
  simp only [hen, hsint, Nat.not_le.mpr hsched, Nat.not_le.mpr hcore, hpassed, Bool.not_true, decide_false, Bool.or_self,
    Bool.false_eq_true, not_false_eq_true]

theorem samplingEvents : SamplingEvents := by
  refine ⟨fun s core sched => sampleIntervalStart_happens, ?record⟩
  case record =>
    intro s core sched p hp x y u body
    refine ⟨happens_of rfl (by rw [hp]; rfl), fieldOf_record ?_, ?pc, ?eseq, fieldOf_record ?_, fieldOf_record ?_, fieldOf_record ?_,
      fieldOf_record ?_, fieldOf_record ?_, ?fault, fieldOf_record ?_, fieldOf_record ?_⟩
    case pc => exact (fieldOf_record (by simp [sampleFields])).trans (Nat.mod_eq_of_lt p.pc.isLt)
    case eseq => exact (fieldOf_record (by simp [sampleFields])).trans (Nat.mod_eq_of_lt p.eseq.isLt)
    case fault => exact (fieldOf_record (by simp [sampleFields])).trans (Nat.mod_eq_of_lt p.fault.toNat_lt)
    all_goals simp [sampleFields]

/-! ### Device time (R464, R465) -/

/-- A sync that discipline takes sets the lock, the rate and, before any context lives, the time (R465). -/
theorem ptpSync_happens {s : State} {x : PtpSync} (hhears : s.hearsSync x = true) :
    let p := s.plat
    let n := if x.offset.natAbs < 20 then p.syncs + 1 else 0
    let step := if p.ptplock || s.ctxs.any Ctx.lives then 0 else x.stepNs
    Happens (.ptpSync x) s
      (({ s with time := s.time + step,
                 plat := { p with syncs := n, lastSync := s.time + step, slewPpb := max (-200000) (min 200000 x.slewPpb),
                                  holdover := false } } : State).setLock
        (if p.ptplock then decide (x.offset.natAbs ≤ 25) else decide (16 ≤ n))) := by
  refine happens_of rfl ?_
  simp only [hhears, Bool.not_true, Bool.false_eq_true, if_false]

/-- Without a sync for 2 s the lock is lost (R465). -/
theorem ptpHoldover_happens {s : State} (htrained : s.trained = true) (hheld : s.plat.holdover = false)
    (hlate : s.plat.lastSync + 2000000000 ≤ s.time) :
    Happens .ptpHoldover s
      (({ s with plat := { s.plat with holdover := true, ptplock := false, syncs := 0 } } : State).interrupt 4 none) := by
  refine happens_of rfl ?_
  simp only [htrained, hheld, Nat.not_lt.mpr hlate, Bool.not_true, decide_false, Bool.or_self, Bool.false_eq_true, if_false]

/-! ### Firmware, life cycle and resets (R478 to R482) -/

theorem wipeComplete_happens {s : State} (x : FirmwareImage) (hwipe : s.plat.wipe = true) (hdone : s.plat.resetAt + wipeTime ≤ s.time) :
    Happens (.wipeComplete x) s
      ((({ s with plat := { s.plat with wipe := false } } : State).interrupt 7 none).verifyImage x) := by
  refine happens_of rfl ?_
  simp only [hwipe, Nat.not_lt.mpr hdone, Bool.not_true, decide_false, Bool.or_self, Bool.false_eq_true, if_false]

theorem recoveryImageLoad_happens {s : State} (x : FirmwareImage) (hrec : s.plat.recovery = true) (hwipe : s.plat.wipe = false) :
    Happens (.recoveryImageLoad x) s (s.verifyImage x) := by
  refine happens_of rfl ?_
  simp only [hrec, hwipe, Bool.not_false, Bool.and_self, if_true]

theorem timeAndResetEvents : TimeAndResetEvents :=
  ⟨fun _ _ => ptpSync_happens, fun _ => ptpHoldover_happens, fun _ => wipeComplete_happens, fun _ => recoveryImageLoad_happens,
    fun _ => ⟨rfl, rfl⟩, fun _ _ hfollows => happens_of rfl (if_pos hfollows), fun _ _ => happens_of rfl rfl⟩

/-- Settles O50: each event passes its conditions, and a sample's record is the sum of fields that do not overlap. -/
theorem samplingTimeAndResetEvents : Obligations.SamplingTimeAndResetEvents := by
  unfold Obligations.SamplingTimeAndResetEvents
  exact ⟨samplingEvents, timeAndResetEvents⟩

end Sys2Proof

/-! PROOFS. What an instruction checks before its meaning (O7), the register files (O15, O16), special registers (O17), and the frame of
the computing instructions (O51). -/

namespace Sys2Proof

open Sys2Proof.Machine Sys2Proof.Claims

/-! ### Before the meaning (R23, R24, R80, R81) -/

/-- Settles O7: each is one of the gate's own checks, and whichever comes first faults ILLEGAL. -/
theorem illegalBeforeTheMeaning : Obligations.IllegalBeforeTheMeaning := by
  unfold Obligations.IllegalBeforeTheMeaning
  intro i s c hform hc ha hq hk hbad
  refine exec_of_gate_out hform ((gate_guard hc hq hk).2 ha _ ?_)
  have hpriv : (s.setWarp c.begun.w).privileged c.begun.b.ctx = s.privileged c.b.ctx := rfl
  unfold badIssue
  rw [hpriv, begun_b]
  rcases hbad with ⟨h1, h2⟩ | h | h | h
  · simp only [h1, h2, Bool.not_false, Bool.and_self, if_true]
  · simp only [h, Bool.not_false, if_true, ite_self]
  · simp only [h, Bool.false_and, Bool.not_false, if_true, ite_self]
  · simp only [h, Bool.and_false, Bool.not_false, if_true, ite_self]

/-! ### Registers (R22, R24 to R26) -/

theorem getLsbD_setBit {w : Nat} (v : BitVec w) (k : Nat) (b : Bool) {j : Nat} (hj : j < w) :
    (setBit v k b).getLsbD j = if j = k then b else v.getLsbD j := by
  cases b with
  | true =>
    rw [getLsbD_setBit_true v k hj]
    split <;> simp [*]
  | false =>
    have h : ((1 : BitVec w) <<< k).getLsbD j = (decide (k < w) && decide (k = j)) := BitVec.getLsbD_twoPow k j
    rw [setBit, if_neg Bool.false_ne_true, BitVec.getLsbD_and, BitVec.getLsbD_not, h]
    split
    · next e => subst e; simp [hj]
    · next e => simp [hj, Ne.symm e]

section

variable {w : Warp}

theorem vget_put_vec (hw : cwf w.vregs = true) (r : Nat) {l : Nat} (v : Word) (hl : l < 32) (r' : Nat) {l' : Nat} (hl' : l' < 32) :
    (w.put (.vec r l) v).vget r' l' = if r' = r ∧ l' = l then v else w.vget r' l' :=
  (cget_cset hw (32 * r + l) v (32 * r' + l')).trans (ite_congr (propext (by omega)) (fun _ => rfl) fun _ => rfl)

theorem sget_put_uni (hw : cwf w.sregs = true) (r : Nat) (v : Word) (r' : Nat) :
    (w.put (.uni r) v).sget r' = if r' = r then v else w.sget r' :=
  cget_cset hw r v r'

theorem put_pred_seven (l : Nat) (v : Word) : w.put (.pred 7 l) v = w := by
  rw [Warp.put, Warp.pset, if_pos rfl]

/-- A predicate write is a write of the whole predicate with one bit changed. -/
theorem put_pred {p : Nat} (hp : p < 7) (l : Nat) (v : Word) :
    w.put (.pred p l) v = { w with preds := cset w.preds p (setBit (w.pget p) l (v.getLsbD 0)) } :=
  if_neg (Nat.ne_of_lt hp)

theorem pget_put_pred (hw : cwf w.preds = true) {p : Nat} (hp : p < 7) (l : Nat) (v : Word) (p' : Nat) :
    (w.put (.pred p l) v).pget p' = if p' = p then setBit (w.pget p) l (v.getLsbD 0) else w.pget p' := by
  rw [put_pred hp]
  by_cases h7 : p' = 7
  · rw [if_neg (by omega)]
    simp only [Warp.pget, h7, if_true]
  · rw [Warp.pget, if_neg h7, cget_cset hw, Warp.pget.eq_def w p', if_neg h7]

theorem cwf_put_pred (hw : cwf w.preds = true) {p : Nat} (hp : p < 7) (l : Nat) (v : Word) :
    cwf (w.put (.pred p l) v).preds = true := by
  rw [put_pred hp]
  exact cwf_cset hw ..

/-- The bits of a predicate after the same bit has been written in each lane of a list. -/
theorem getLsbD_pget_puts_pred (hw : cwf w.preds = true) {p : Nat} (hp : p < 7) (v : Word) (ls : List Nat) {j : Nat} (hj : j < 32) :
    ((w.puts (ls.map fun k => (.pred p k, v))).pget p).getLsbD j = if j ∈ ls then v.getLsbD 0 else (w.pget p).getLsbD j := by
  induction ls generalizing w with
  | nil => rfl
  | cons k ls ih =>
    refine (ih (cwf_put_pred hw hp k v)).trans ?_
    rw [pget_put_pred hw hp, if_pos rfl, getLsbD_setBit _ _ _ hj]
    by_cases h : j = k <;> by_cases h' : j ∈ ls <;> simp [h, h']

end

/-- Settles O15: `Warp.pget` and `Warp.pset` single p7 out, and a uniform write goes through all 32 lanes. -/
theorem predicateSeven : Obligations.PredicateSeven := by
  unfold Obligations.PredicateSeven
  refine ⟨fun w => if_pos rfl, fun w l v => put_pred_seven l v, fun w p l b hp hw => ?_⟩
  refine BitVec.eq_of_getLsbD_eq fun j hj => (getLsbD_pget_puts_pred hw hp _ lanes hj).trans ?_
  rw [if_pos (show j ∈ lanes from List.mem_range.mpr hj)]
  cases b
  · exact (BitVec.getLsbD_zero).symm
  · exact (BitVec.getLsbD_allOnes ▸ (decide_eq_true hj).symm)

/-- Settles O16: each file is read after one write of it, and the write of one file leaves the others. -/
theorem registerWritesAreLocal : Obligations.RegisterWritesAreLocal := by
  unfold Obligations.RegisterWritesAreLocal
  intro w hv hs hp
  refine ⟨fun r l v hl r' l' hl' => vget_put_vec hv r v hl r' hl', fun r v r' => sget_put_uni hs r v r',
    fun p l v hp7 _ p' l' hl' => ?pred, fun _ _ _ => ⟨rfl, rfl⟩, fun _ _ => ⟨rfl, rfl⟩, fun p l v => ?others⟩
  case pred =>
    rw [pget_put_pred hp hp7]
    by_cases h : p' = p
    · subst h
      rw [if_pos rfl, getLsbD_setBit _ _ _ hl']
      exact ite_congr (propext (by simp)) (fun _ => rfl) fun _ => rfl
    · rw [if_neg h, if_neg fun h' => h h'.1]
  case others =>
    change (w.pset p _).vregs = w.vregs ∧ (w.pset p _).sregs = w.sregs
    unfold Warp.pset
    split <;> exact ⟨rfl, rfl⟩

/-! ### Special registers (R31, R37, R139 to R141) -/

/-- Settles O17: `getsr` of `%fflags`, and `setsr`, wait only while a floating-point instruction is out. -/
theorem specialRegisterResults : Obligations.SpecialRegisterResults := by
  unfold Obligations.SpecialRegisterResults
  refine fun f => ⟨?nop, ?getsr, ?setsr⟩
  case nop => exact performs_of _ (fun _ => rfl) fun _ _ _ => rfl
  case getsr =>
    refine performs_of _ (fun _ => rfl) fun c s hok => if_neg fun ⟨hi, hbusy⟩ => ?_
    simp [hi, hbusy] at hok
  case setsr =>
    refine performs_of _ (fun _ => rfl) fun c s hok => if_neg fun hbusy => ?_
    simp [hbusy] at hok

/-! ### What a computing instruction leaves alone (R38, R63, R135) -/

theorem SameData.inSequence {fl : Bool} (i : Instr) {s u : State} {c : Ic} (h : Issuable i s c)
    (hu : SameData fl (enteredState i s c) u) : SameData fl s (inSequence i s c u) :=
  ((SameData.entered h.ctx).trans hu).trans (SameData.retire ..)

/-- Settles O51: the instruction enters, owes its results and goes on, and none of the three writes a register. -/
theorem computingFrame : Obligations.ComputingFrame := by
  unfold Obligations.ComputingFrame
  rintro i fp f s t c (hcomp | ⟨g, rfl⟩) h ht
  case inl =>
    cases (hcomp s c h).symm.trans ht
    exact SameData.inSequence i h (SameData.owed ..)
  case inr =>
    cases (run_next h rfl : execShfl g s = _).symm.trans ht
    exact SameData.inSequence _ h (SameData.trans' (SameData.owed ..) SameData.of_eq)

end Sys2Proof

/-! PROOFS. Taking a fault (O12): what it leaves of the warp, but for its registers, and of each of its threads. -/

namespace Sys2Proof

open Sys2Proof.Machine

/-! ### Changes of a warp's registers alone -/

/-- A warp with other registers, and all else as before. -/
def OnlyRegs (w w' : Warp) : Prop := ∃ v u p, w' = { w with vregs := v, sregs := u, preds := p }

theorem OnlyRegs.refl (w : Warp) : OnlyRegs w w := ⟨_, _, _, rfl⟩

theorem OnlyRegs.trans {a b c : Warp} (h : OnlyRegs a b) (k : OnlyRegs b c) : OnlyRegs a c := by
  obtain ⟨_, _, _, rfl⟩ := h
  obtain ⟨_, _, _, rfl⟩ := k
  exact ⟨_, _, _, rfl⟩

theorem OnlyRegs.pset (w : Warp) (p : Nat) (v : LaneMask) : OnlyRegs w (w.pset p v) := by
  unfold Warp.pset
  split
  · exact .refl w
  · exact ⟨_, _, _, rfl⟩

theorem OnlyRegs.put (w : Warp) (x : RegSlot) (v : Word) : OnlyRegs w (w.put x v) := by
  cases x with
  | vec | vecB | uni => exact ⟨_, _, _, rfl⟩
  | pred => exact .pset ..

theorem OnlyRegs.foldl {α : Type} {f : Warp → α → Warp} (hf : ∀ w x, OnlyRegs w (f w x)) (l : List α) (w : Warp) :
    OnlyRegs w (l.foldl f w) :=
  List.foldlRecOn (motive := OnlyRegs w) l f (.refl w) fun _ h x _ => h.trans (hf _ x)

theorem OnlyRegs.puts (w : Warp) (ws : List (RegSlot × Word)) : OnlyRegs w (w.puts ws) := .foldl (fun w _ => .put w _ _) ws w

/-- The warp of a name keeps all but its registers. -/
def KeepsButRegs (u n : Nat) (s t : State) : Prop := ∀ w, s.warp? u n = some w → ∃ w', t.warp? u n = some w' ∧ OnlyRegs w w'

section

variable {u n : Nat}

theorem KeepsButRegs.of_warps {s t : State} (e : t.warps = s.warps) : KeepsButRegs u n s t := fun w hw =>
  ⟨w, by rwa [State.warp?, e], .refl w⟩

theorem KeepsButRegs.trans {a b c : State} (h : KeepsButRegs u n a b) (k : KeepsButRegs u n b c) : KeepsButRegs u n a c := by
  intro w hw
  obtain ⟨x, hx, hregs⟩ := h w hw
  obtain ⟨y, hy, kregs⟩ := k x hx
  exact ⟨y, hy, hregs.trans kregs⟩

theorem KeepsButRegs.foldl {α : Type} {f : State → α → State} (hf : ∀ s x, KeepsButRegs u n s (f s x)) (l : List α) (s : State) :
    KeepsButRegs u n s (l.foldl f s) :=
  List.foldlRecOn (motive := KeepsButRegs u n s) l f (.of_warps rfl) fun _ h x _ => h.trans (hf _ x)

theorem KeepsButRegs.modWarp (s : State) (a b : Nat) {f : Warp → Warp} (hf : ∀ w, OnlyRegs w (f w)) :
    KeepsButRegs u n s (s.modWarp a b f) := by
  have hids (w : Warp) : (f w).uid = w.uid ∧ (f w).wid = w.wid := by
    obtain ⟨_, _, _, h⟩ := hf w
    rw [h]
    exact ⟨rfl, rfl⟩
  intro w hw
  refine ⟨_, by rw [warp?_modWarp hids, hw]; rfl, ?_⟩
  dsimp only
  split
  · exact hf w
  · exact .refl w

theorem KeepsButRegs.freeReg (s : State) (a b l d : Nat) (x : Nat × Nat) : KeepsButRegs u n s (s.freeReg a b l d x) := by
  unfold State.freeReg
  dsimp only
  split
  · exact .modWarp _ _ _ fun w => .put w (.vec _ _) _
  · exact .modWarp _ _ _ fun w => .put w (.uni _) _
  · exact .modWarp _ _ _ fun w => .pset w _ _
  all_goals exact .of_warps rfl

theorem KeepsButRegs.unspecify (s : State) (a b : Nat) (back : Thread → Bool) : KeepsButRegs u n s (s.unspecify a b back) := by
  unfold State.unspecify
  split
  · exact .of_warps rfl
  dsimp only
  split
  · exact .of_warps rfl
  · refine (KeepsButRegs.foldl (fun s l => ?_) _ s).trans (.of_warps rfl)
    exact (KeepsButRegs.foldl (fun s x => .freeReg s _ _ _ _ x) _ s).trans (.foldl (fun s p => .of_warps (warps_freeAt s _ p)) _ _)

end

/-! ### Taking a fault (R47, R178, R215, R426) -/

@[simp] theorem warps_sampleMark (s : State) (w : Warp) (f : Sample → Sample) : (s.sampleMark w f).warps = s.warps := by
  unfold State.sampleMark
  split
  · exact warps_modCore ..
  · rfl

/-- The warp once its loads in flight are discarded: results already computed are written, and its counter is zero (R47). -/
theorem warp?_discardLoads {s : State} {u n : Nat} {w : Warp} (hw : s.warp? u n = some w) :
    ∃ w', (s.discardLoads u n).warp? u n = some w' ∧ OnlyRegs { w with outstanding := 0, bundle := none } w' := by
  have hfold (w : Warp) := OnlyRegs.foldl (fun w (o : Owed) => .puts w o.writes)
    (s.owed.filter fun o => o.uid == u && o.wid == n && !o.strong) w
  unfold State.discardLoads
  refine ⟨_, warp?_modWarp_at (s := { s with owed := _, cores := _ }) hw fun w => ?_, ?_⟩
  · obtain ⟨_, _, _, h⟩ := hfold w
    rw [h]
    exact ⟨rfl, rfl⟩
  · obtain ⟨_, _, _, h⟩ := hfold w
    rw [h]
    exact ⟨_, _, _, rfl⟩

/-- A warp that holds after a fault: its loads discarded, its threads parked (R426). -/
def faulted (keep : LaneMask) (w : Warp) : Warp :=
  { w with outstanding := 0, bundle := none, line := none, threads := w.threads.mapIdx (faultThread keep), held := true, deferred := [],
           stall := false, ringStall := false, tokenStall := false, flushed := false, waitId := 0, atBoundary := false }

/-- Taking a fault whose record has gone to its ring or a holding slot changes the warp so, but for its registers. -/
theorem warp?_takeFault {s s1 : State} {w x : Warp} {r : FaultRec} (keep : LaneMask) (hstrong : s.strongBusy w.uid w.wid = false)
    (hput : s.putRecord w.core (s.recordOf w r) true = some s1) (hx : s1.warp? w.uid w.wid = some x) :
    ∃ y, (s.takeFault w r keep).warp? w.uid w.wid = some y ∧ OnlyRegs (faulted keep x) y := by
  unfold State.takeFault
  simp only [hstrong, Bool.false_eq_true, if_false, hput]
  generalize hs2 : State.sampleMark _ _ _ = s2
  have hx2 : s2.warp? w.uid w.wid = some x := by rwa [← hs2, State.warp?, warps_sampleMark, warps_traceEvent]
  obtain ⟨z, hz, hzx⟩ := warp?_discardLoads hx2
  obtain ⟨y, hy, hyz⟩ := KeepsButRegs.unspecify (s2.discardLoads w.uid w.wid) w.uid w.wid faulting z hz
  obtain ⟨_, _, _, rfl⟩ := hzx.trans hyz
  exact ⟨_, warp?_modWarp_at hy fun _ => ⟨rfl, rfl⟩, _, _, _, rfl⟩

theorem rollback_age (t : Thread) : t.rollback.age = 0 := by
  unfold Thread.rollback
  split <;> rfl

/-- A thread that has begun its region, or is to perform its last instruction again, goes back to the region's entry (R47). -/
theorem rollback_to_entry {t : Thread} (h : t.newRegion = false ∨ t.redo = true) :
    t.rollback.pc = t.rentry ∧ t.rollback.rentry = t.rentry ∧ t.rollback.rseq = t.rseq := by
  have hback : (t.newRegion && !t.redo) = false := by
    rcases h with h | h <;> rw [h]
    · rfl
    · exact Bool.and_false _
  unfold Thread.rollback
  rw [hback]
  exact ⟨rfl, rfl, rfl⟩

theorem thread_of_faulted {keep : LaneMask} {x y : Warp} (h : OnlyRegs (faulted keep x) y) {l : Nat} (hl : l < x.threads.length) :
    y.thread l = faultThread keep l (x.thread l) := by
  obtain ⟨_, _, _, rfl⟩ := h
  simp only [Warp.thread, faulted, List.getD_eq_getElem?_getD, List.getElem?_mapIdx, List.getElem?_eq_getElem hl, Option.map_some,
    Option.getD_some]

/-- Settles O12: what the fault leaves of the warp, and of each thread, where no lane is kept from its rollback. -/
theorem takingAFaultParksAndRollsBack : Obligations.TakingAFaultParksAndRollsBack := by
  unfold Obligations.TakingAFaultParksAndRollsBack
  intro s s1 w x r hstrong hput hx
  obtain ⟨y, hy, h⟩ := warp?_takeFault 0 hstrong hput hx
  have hthread l (hl : l < x.threads.length) := thread_of_faulted h hl
  obtain ⟨_, _, _, rfl⟩ := h
  refine ⟨_, hy, rfl, rfl, rfl, rfl, rfl, rfl, rfl, List.length_mapIdx, fun l hl => ?_⟩
  rw [hthread l hl]
  refine ⟨fun hf => ?parked, fun hf => ?other⟩
  case parked =>
    have hkeep : (0 : LaneMask).getLsbD l = false := BitVec.getLsbD_zero
    rw [faultThread, if_pos hf, hkeep]
    exact ⟨rfl, rollback_age _, rollback_to_entry⟩
  case other => rw [faultThread, hf]; rfl

end Sys2Proof

/-! PROOFS. One lane of `ldfe` on a mapped word (O34), and what the issue of an engine command leaves alone (O56), the trace among it. -/

namespace Sys2Proof

open Sys2Proof.Machine

/-! ### `ldfe` on one word (R19, R231) -/

section

variable {s : State} {c : Ic} {l off key : Nat}

theorem ldfeLanes_full (f : MemForm) (seq : Nat) (hk : c.b.wellAt off = some key) (hfull : s.wellIsFull key = true) :
    s.ldfeLanes c f seq [(l, .well off)] =
      (ldfeWrites (f.duni, f.d.toNat) l (s.wellGet key), [], ((s.ldfeTake c.w.uid c.w.wid key).2).serve key) := by
  have hoff : c.b.wellAt (Target.off (.well off)) = some key := hk
  simp only [State.ldfeLanes, hoff, hfull, if_true, List.append_nil]
  rfl

theorem ldfeLanes_empty (f : MemForm) (seq : Nat) (hk : c.b.wellAt off = some key) (hempty : s.wellIsFull key = false) :
    s.ldfeLanes c f seq [(l, .well off)] = ([], [l], s.blockLane c f l off seq false 0) := by
  have hoff : c.b.wellAt (Target.off (.well off)) = some key := hk
  simp only [State.ldfeLanes, hoff, hempty, Bool.false_eq_true, if_false]
  rfl

/-- An empty word on which no lane waits to store serves no lane (R232). -/
theorem serve_of_no_waiter (hempty : s.wellIsFull key = false) (hnone : s.waiters key true = []) : s.serve key = s := by
  unfold State.serve serveWord
  rw [hempty, if_neg Bool.false_ne_true, hnone]

/-- The take leaves its word empty: an acquire changes no word. -/
theorem wellIsFull_ldfeTake (h : cwf s.wellFull = true) (u n key : Nat) : (s.ldfeTake u n key).2.wellIsFull key = false := by
  obtain ⟨⟨-, -, hfull, -⟩, -⟩ := SameData.acquire (fl := false) (s.wellSetFull key false) u n .cluster
    (max (s.relMetAt u n 2 (wellStampAt key)) (s.relMetAt u n 2 (fillStampAt key)))
  have hset : (s.ldfeTake u n key).2.wellFull = cset s.wellFull key 0 := hfull
  rw [State.wellIsFull, hset, cget_cset h, if_pos rfl]
  rfl

end

/-- Settles O34: a full word is taken and serves no store that waits, an empty one blocks the lane. -/
theorem fullEmptyWords : Obligations.FullEmptyWords := by
  unfold Obligations.FullEmptyWords
  intro s c f l off key seq hwf hk
  refine ⟨fun hfull hnone => ?full, fun hempty => ?empty⟩
  case full =>
    have htaken := wellIsFull_ldfeTake hwf c.w.uid c.w.wid key
    rw [ldfeLanes_full f seq hk hfull, serve_of_no_waiter htaken hnone]
    exact ⟨rfl, rfl, htaken⟩
  case empty =>
    rw [ldfeLanes_empty f seq hk hempty]
    exact ⟨rfl, rfl, rfl, rfl⟩

/-! ### What the trace units change (R438 to R441) -/

/-- The state with other contents of memory and of the trace units, an interrupt perhaps, and free values drawn. -/
def TracedOnly (s t : State) : Prop := ∃ m d p k, t = { s with mem := m, dies := d, plat := p, freeCtr := k }

theorem TracedOnly.refl (s : State) : TracedOnly s s := ⟨_, _, _, _, rfl⟩

theorem TracedOnly.trans {a b c : State} (h : TracedOnly a b) (k : TracedOnly b c) : TracedOnly a c := by
  obtain ⟨_, _, _, _, rfl⟩ := h
  obtain ⟨_, _, _, _, rfl⟩ := k
  exact ⟨_, _, _, _, rfl⟩

theorem TracedOnly.modDie (s : State) (d : Nat) (f : Die → Die) : TracedOnly s (s.modDie d f) := ⟨_, _, _, _, rfl⟩

theorem TracedOnly.interrupt (s : State) (v : Nat) (ctx : Option Nat) : TracedOnly s (s.interrupt v ctx) := by
  unfold State.interrupt
  dsimp only
  split
  · split
    · exact .refl s
    · exact ⟨_, _, _, _, rfl⟩
  · exact ⟨_, _, _, _, rfl⟩

theorem TracedOnly.tracePut (s : State) (d body : Nat) : TracedOnly s (s.tracePut d body) := by
  unfold State.tracePut
  dsimp only
  split
  · exact .refl s
  split
  · exact .modDie ..
  split
  · exact .refl s
  split
  · exact .modDie ..
  split
  · exact .modDie ..
  split
  · split
    · exact ⟨_, _, _, _, rfl⟩
    · exact (TracedOnly.modDie ..).trans (.interrupt ..)
  · exact (TracedOnly.modDie ..).trans (.interrupt ..)

theorem TracedOnly.syncDue (s : State) (d : Nat) : TracedOnly s (s.syncDue d) := by
  unfold State.syncDue
  dsimp only
  split
  · exact .tracePut ..
  split
  · exact .tracePut ..
  · exact .refl s

theorem TracedOnly.syncPut (s : State) (d why : Nat) : TracedOnly s (s.syncPut d why) := by
  unfold State.syncPut
  dsimp only
  split
  · exact (TracedOnly.tracePut ..).trans (.tracePut ..)
  · exact .tracePut ..

theorem TracedOnly.traceRec (s : State) (d type body : Nat) : TracedOnly s (s.traceRec d type body) := by
  unfold State.traceRec
  split
  · exact .refl s
  · exact (TracedOnly.syncDue ..).trans (.tracePut ..)

/-- The state with some free values drawn. -/
def Drawn (s t : State) : Prop := ∃ k, t = { s with freeCtr := k }

theorem Drawn.orFree {s t : State} (h : Drawn s t) (v : Option Nat) : Drawn s (t.orFree v).2 := by
  obtain ⟨k, rfl⟩ := h
  unfold State.orFree
  split <;> exact ⟨_, rfl⟩

/-- A trace event: some free draws, then the record. -/
theorem traceEvent_eq (s : State) (d code : Nat) (arg : Option Nat) (pc : Option Pc) (eseq : Option Word) (slot : Option Nat)
    (ctx : Nat) : s.traceEvent d code arg pc eseq slot ctx = s ∨
      ∃ k body, s.traceEvent d code arg pc eseq slot ctx = ({ s with freeCtr := k } : State).traceRec d 3 body := by
  unfold State.traceEvent
  dsimp only
  split
  · obtain ⟨k, hk⟩ := (((Drawn.orFree ⟨s.freeCtr, rfl⟩ arg).orFree (pc.map BitVec.toNat)).orFree (eseq.map BitVec.toNat)).orFree slot
    exact .inr ⟨k, _, by rw [hk]⟩
  · exact .inl rfl

theorem TracedOnly.traceEvent (s : State) (d code : Nat) (arg : Option Nat) (pc : Option Pc) (eseq : Option Word) (slot : Option Nat)
    (ctx : Nat) : TracedOnly s (s.traceEvent d code arg pc eseq slot ctx) := by
  rcases traceEvent_eq s d code arg pc eseq slot ctx with h | ⟨_, _, h⟩ <;> rw [h]
  · exact .refl s
  · exact TracedOnly.trans (b := { s with freeCtr := _ }) ⟨_, _, _, _, rfl⟩ (.traceRec ..)

/-- A die that traces nothing writes no record. -/
theorem mem_traceEvent {s : State} {d : Nat} (h : (s.die d).trace.en = false) (code : Nat) (arg : Option Nat) (pc : Option Pc)
    (eseq : Option Word) (slot : Option Nat) (ctx : Nat) : (s.traceEvent d code arg pc eseq slot ctx).mem = s.mem := by
  rcases traceEvent_eq s d code arg pc eseq slot ctx with e | ⟨k, body, e⟩ <;> rw [e]
  have hen : (({ s with freeCtr := k } : State).die d).trace.en = false := h
  rw [State.traceRec, hen]
  rfl

/-! ### What the issue of a command leaves alone (R39, R237) -/

/-- The warp with one token more, which is pending. -/
def commandWarp (w : Warp) (id : Nat) (token : Option Nat) : Warp :=
  { w with
    eseq := w.eseq + 1,
    tokens := match token with
      | some r => (w.tokens.filter fun t => t.reg != r) ++ [{ reg := r, eng := id, done := false }]
      | none => w.tokens }

theorem commandWarp_token (w : Warp) (id r : Nat) :
    (∃ k ∈ (commandWarp w id (some r)).tokens, k.reg = r ∧ k.done = false) ∧
      ∀ k ∈ (commandWarp w id (some r)).tokens, k.reg = r → k.done = false := by
  refine ⟨⟨_, List.mem_append_right _ List.mem_cons_self, rfl, rfl⟩, fun k hk hr => ?_⟩
  rcases List.mem_append.mp hk with h | h
  · simp [hr] at h
  · rw [List.mem_singleton.mp h]

/-- The command is queued and its warp has its token; then the event may be traced. -/
theorem issueCommand_eq {s : State} {c : Ic} {w : Warp} (i : Instr) (token : Option Nat) (args : List Nat)
    (hw : s.warp? c.w.uid c.w.wid = some w) :
    ∃ e : Engine, (s.issueCommand c i token args).2 =
      (({ s with nextId := s.nextId + 1, engines := s.engines ++ [e] } : State).setWarp (commandWarp w s.nextId token)).traceEvent
        (coreDie w.core) 4 none (some c.pc) (some e.eseq) (some e.lslot) e.ctx := by
  unfold State.issueCommand
  rw [hw]
  exact ⟨_, rfl⟩

/-- Settles O56: the command's own changes are those of its warp's token, and of what the trace writes. -/
theorem commandIssueFrame : Obligations.CommandIssueFrame := by
  unfold Obligations.CommandIssueFrame
  intro s c i token args w hw
  obtain ⟨e, ht⟩ := issueCommand_eq i token args hw
  obtain ⟨hu, hn⟩ := warp?_ids hw
  generalize hv : ({ s with nextId := s.nextId + 1, engines := s.engines ++ [e] } : State) = v at ht
  have hvw (u n : Nat) : v.warp? u n = s.warp? u n := by rw [← hv]; rfl
  have hset : SameData false s (v.setWarp (commandWarp w s.nextId token)) := by
    refine SameData.trans (hv ▸ SameData.of_eq) (SameData.setWarp _ fun x hx => ?_)
    have hx : v.warp? w.uid w.wid = some x := hx
    rw [hvw, hu, hn, hw] at hx
    cases hx
    exact SameRegs.refl false w
  have hown : (v.setWarp (commandWarp w s.nextId token)).warp? c.w.uid c.w.wid = some (commandWarp w s.nextId token) := by
    rw [warp?_setWarp, hvw, hw]
    exact congrArg some (if_pos (by simp [commandWarp]))
  have hen : ((v.setWarp (commandWarp w s.nextId token)).die (coreDie w.core)) = s.die (coreDie w.core) := by rw [← hv]; rfl
  obtain ⟨⟨hmem, hwells, hfull, -, hblocks, -⟩, hregs⟩ := hset
  dsimp only
  rw [ht]
  generalize v.setWarp (commandWarp w s.nextId token) = y at *
  have hnoTrace (h : ∀ d, (s.die d).trace.en = false) := mem_traceEvent (s := y) (d := coreDie w.core) (by rw [hen]; exact h _) 4 none
    (some c.pc) (some e.eseq) (some e.lslot) e.ctx
  obtain ⟨_, _, _, _, htraced⟩ := TracedOnly.traceEvent y (coreDie w.core) 4 none (some c.pc) (some e.eseq) (some e.lslot) e.ctx
  have hwarp (u n : Nat) : (y.traceEvent (coreDie w.core) 4 none (some c.pc) (some e.eseq) (some e.lslot) e.ctx).warp? u n = y.warp? u n := by
    rw [htraced]; rfl
  refine ⟨?_, ?_, ?_, fun h => (hnoTrace h).trans hmem, fun u n x hx => ?_, commandWarp w s.nextId token, ?_, rfl, ?_⟩
  · rw [htraced]; exact hwells
  · rw [htraced]; exact hfull
  · rw [htraced]; exact hblocks
  · rw [hwarp]; exact hregs u n x hx
  · rw [hwarp]; exact hown
  · rintro r rfl
    exact commandWarp_token ..

end Sys2Proof

/-! PROOFS. Events that issue, fetch and write results (O40), and those of power, heat, refresh windows, links and other devices (O49). -/

namespace Sys2Proof

open Sys2Proof.Machine Sys2Proof.Claims

/-! ### Schedulers, fetches and pauses (R55, R56, R179, R352, R355) -/

/-- With its bundles formed and no warp in doubt, a scheduler issues the warp that it chooses. -/
theorem schedulerCycle_chooses {core sched : Nat} {s : State} {w : Warp} :
    let cycle := (s.die (coreDie core)).cycle
    let u : State := (s.schedWarps core sched).foldl (fun (s : State) w => s.setWarp (w.prepare cycle)) s
    u.plat.stopped = false → (u.die (coreDie core)).relock = none →
    ((u.schedWarps core sched).find? fun w => w.doubt && !w.stall && w.lineReady) = none → u.chooseWarp core sched = some w →
    exec (.schedulerIssueCycle core sched) s = .next (u.choose w core sched) := by
  intro cycle u hruns hlock hsure hchosen
  change execSchedulerIssueCycle core sched s = _
  unfold execSchedulerIssueCycle
  change (if u.plat.stopped || (u.die (coreDie core)).relock.isSome then _ else _) = _
  rw [hruns, hlock, if_neg (by decide), hsure, hchosen]

/-- What a line does that arrives for the warp that waits for it so, or is not reached yet. -/
theorem lineIn_eq {s : State} {uid wid : Nat} {w : Warp} {b : LineBuf} {st : FetchSt} (flip : BitVec 512)
    (hw : s.warp? uid wid = some w) (hb : w.line = some b) (hst : b.st = st) :
    let x := s.fetchLine w b.line flip (st == .refetch)
    (x.1.st ≠ .wanted → s.lineIn uid wid st flip =
      some (x.2.modWarp uid wid fun w => { w with line := some { x.1 with time := x.2.time }, askedAt := none })) ∧
    (x.1.st = .wanted → w.askedAt = none → s.lineIn uid wid st flip = some (x.2.modWarp uid wid fun w => w.asks x.1.line x.2.time)) := by
  intro x
  unfold State.lineIn
  simp only [hw, hb, hst, ne_eq, not_true_eq_false, if_false]
  refine ⟨fun hin => if_neg (by simpa using hin), fun hwanted hnew => ?_⟩
  rw [if_pos (by simpa using hwanted), hnew]
  rfl

theorem schedulerAndFetchEvents : SchedulerAndFetchEvents := by
  refine ⟨fun core sched s w => schedulerCycle_chooses, fun s uid wid flip w b hw hb => ⟨fun hst => ?fetch, fun hst => ?refetch⟩,
    fun s uid wid lane w hw hst => happens_of rfl ?pause⟩
  case fetch =>
    have h := lineIn_eq flip hw hb hst
    exact ⟨fun hin => happens_of rfl (h.1 hin), fun hwanted hnew => happens_of rfl (h.2 hwanted hnew)⟩
  case refetch =>
    have h := lineIn_eq flip hw hb hst
    exact ⟨fun hin => happens_of rfl (h.1 hin), fun hwanted hnew => happens_of rfl (h.2 hwanted hnew)⟩
  case pause => simp only [hw, hst, beq_self_eq_true, if_true]

/-! ### Results (R38, R64, R214) -/

theorem resultEvents : ResultEvents := by
  refine ⟨fun s n o ho hwrites hafter hnext => happens_of rfl ?writeback, fun s n k o p ho hp hready hdone => happens_of rfl ?sector⟩
  case writeback =>
    unfold State.writeResults
    simp only [ho, List.isEmpty_eq_false_iff.mpr hwrites, Nat.not_lt.mpr hafter, hnext, Bool.not_true, decide_false, Bool.or_self,
      Bool.false_eq_true, if_false]
  case sector =>
    simp only [ho, hp, hready, hdone, Bool.not_true, Bool.or_self, Bool.false_eq_true, if_false]
    rfl

/-- Settles O40: each event finds its warp or its result, and passes its conditions. -/
theorem issueAndResultEvents : Obligations.IssueAndResultEvents := by
  unfold Obligations.IssueAndResultEvents
  exact ⟨schedulerAndFetchEvents, resultEvents⟩

/-! ### Power and heat (R35, R458 to R462) -/

theorem powerCompare_happens {s : State} {die mw tc : Nat} (hdie : die < Config.nDies) (hdue : (s.die die).lastPower + 10000 ≤ s.time)
    (hlock : (s.die die).relock = none) (hruns : s.plat.stopped = false) :
    let d := s.die die
    let f := d.compare mw
    let u := (s.sensed die mw tc).modDie die fun x =>
      { x with lastPower := s.time, thr := f < 100 * d.fmax && (d.thr || d.hot || f < d.fMHz) }
    Happens (.powerCompare die ⟨mw, tc⟩) s (if f = d.fMHz then u else u.freqStep die f) := by
  refine happens_of rfl (if_neg ?_)
  simp only [hlock, hruns, Nat.not_le.mpr hdie, Nat.not_lt.mpr hdue, Option.isSome_none, decide_false, Bool.or_self, Bool.false_eq_true,
    not_false_eq_true]

theorem pllRelockDone_happens {s : State} {die t : Nat} (hlock : (s.die die).relock = some t) (hdue : t ≤ s.time)
    (hruns : s.plat.stopped = false) :
    let u := s.modDie die fun d =>
      { d with relock := none, fMHz := d.nextMHz, fstept := t % 2 ^ 64, fstepc := d.cycle % 2 ^ 64, frac := 0 }
    Happens (.pllRelockDone die) s ((u.catchUp die (u.time - t)).syncPut die 1) := by
  refine happens_of rfl ?_
  simp only [hlock, hruns, Nat.not_lt.mpr hdue, decide_false, Bool.or_self, Bool.false_eq_true, if_false]

theorem thermalThrottle_happens {s : State} {die tc : Nat} (hdie : die < Config.nDies) (hcool : (s.die die).hot = false) (htc : 105 ≤ tc)
    (hruns : s.plat.stopped = false) :
    let d := s.die die
    let u := (s.sensed die d.meanMw tc).modDie die fun x => { x with hot := true, thr := x.fmin < x.fmax }
    Happens (.thermalThrottle ⟨die, tc⟩) s
      (if d.relock.isSome then u.modDie die fun x => { x with nextMHz := 100 * x.fmin }
       else if d.fMHz = 100 * d.fmin then u else u.freqStep die (100 * d.fmin)) := by
  refine happens_of rfl ((if_neg ?_).trans (if_neg ?_))
  · simp only [hruns, Nat.not_le.mpr hdie, Nat.not_lt.mpr htc, decide_false, Bool.or_self, Bool.false_eq_true, not_false_eq_true]
  · simp only [hcool, Bool.false_eq_true, not_false_eq_true]

theorem thermalThrottle_hotter {s : State} {die tc : Nat} (hdie : die < Config.nDies) (hhot : (s.die die).hot = true) (htc : 105 ≤ tc)
    (hruns : s.plat.stopped = false) : Happens (.thermalThrottle ⟨die, tc⟩) s (s.sensed die (s.die die).meanMw tc) := by
  refine happens_of rfl ((if_neg ?_).trans (if_pos hhot))
  simp only [hruns, Nat.not_le.mpr hdie, Nat.not_lt.mpr htc, decide_false, Bool.or_self, Bool.false_eq_true, not_false_eq_true]

theorem powerEvents : PowerEvents := by
  refine ⟨fun _ _ _ _ => powerCompare_happens, fun _ _ _ => pllRelockDone_happens, fun _ _ _ => thermalThrottle_happens,
    fun s die tc hhot htc => happens_of rfl (if_pos ?recover), fun _ _ _ => thermalThrottle_hotter,
    fun s hhot hcold => happens_of rfl ((if_neg ?trip).trans rfl)⟩
  case recover => simp only [hhot, htc, decide_true, Bool.and_self]
  case trip => simp only [hhot, hcold, Bool.not_true, Bool.or_self, Bool.false_eq_true, not_false_eq_true]

/-! ### Windows, links and other devices (R284, R334, R401, R467, R468) -/

theorem wsWindowOpen_happens {s : State} {die group : Nat} (hdie : die < Config.nDies) (hgroup : group < 64)
    (hshut : (s.die die).openGroups.contains group = false) (hopen : windowOpenAt (s.die die).t0 group s.time = true) :
    Happens (.wsWindowOpen die group) s (s.modDie die fun d => { d with openGroups := group :: d.openGroups }) := by
  refine happens_of rfl (if_neg ?_)
  simp only [hshut, hopen, Nat.not_le.mpr hdie, Nat.not_le.mpr hgroup, decide_false, Bool.not_true, Bool.or_self, Bool.false_eq_true,
    not_false_eq_true]

theorem wsWindowClose_happens {s : State} {die group : Nat} (hopen : (s.die die).openGroups.contains group = true)
    (hshut : windowOpenAt (s.die die).t0 group s.time = false) :
    Happens (.wsWindowClose die group) s
      (s.modDie die fun d => { d with openGroups := d.openGroups.filter fun g => g != group }) := by
  refine happens_of rfl (if_neg ?_)
  simp only [hopen, hshut, Bool.not_true, Bool.or_self, Bool.false_eq_true, not_false_eq_true]

/-- The home of a request is the device's own memory or its weight store. -/
theorem peerLoc_ne_local (r : PeerReq) : (if inHbm r.addr then locLocal else locWstore) ≠ locLocal ↔ inHbm r.addr = false := by
  cases inHbm r.addr <;> decide

theorem peerRequest_happens {s s1 : State} {r : PeerReq} (htrained : s.trained = true) (hpeer : s.plat.isPeer r.dev = true)
    (hplace : (inHbm r.addr || inWstore r.addr) = true) (hline : r.addr % 64 + r.len ≤ 64) (hlen : r.len ≠ 0)
    (hmay : r.write = (peerStrong r.op).mayWrite) (hturn : s.peerTurn r = true) (hreach : s.hostReach r.addr = true)
    (hready : s.homeReady (if inHbm r.addr then locLocal else locWstore) r.addr = some s1) :
    let rest := s1.peerLast.filter (fun x => !(x.1 == r.dev && x.2.1 == lineOf r.addr))
    let u : State := { s1 with peerLast := (r.dev, lineOf r.addr, r.seq) :: rest }
    let b := if (peerStrong r.op).reads then u.readFault r.addr r.len else (none, u)
    let stop := b.1.isSome && r.label != 0
    let x := if r.chk && !stop then b.2.blot (peerAccess r (b.2.ctx r.ctx).phase b.2.time) else (none, b.2)
    Happens (.peerRequest r) s
      (if stop || (x.1.isSome && r.label != 0) || !inHbm r.addr then x.2 else x.2.peerWrite r) := by
  intro rest u b stop x
  refine happens_of rfl ((if_neg ?_).trans ?_)
  · simp only [htrained, hpeer, hplace, hmay, hturn, hreach, hlen, Nat.not_lt.mpr hline, bne_self_eq_false, Bool.not_true, decide_false,
      Bool.or_self, Bool.false_eq_true, not_false_eq_true]
  · rw [hready]
    refine congrArg some (ite_congr ?_ (fun _ => rfl) fun _ => rfl)
    simp only [Bool.or_eq_true, decide_eq_true_eq, peerLoc_ne_local, Bool.not_eq_true']
    rfl

theorem linkDown_happens {s : State} {port : Nat} (htrained : s.trained = true) (hport : port < 36)
    (hup : s.plat.linksDown.contains port = false) :
    Happens (.linkDown port) s
      (({ s with plat := { s.plat with
          linksDown := port :: s.plat.linksDown,
          noRouteSince := if s.plat.linksDown.length = 35 then some s.time else s.plat.noRouteSince } } : State).interrupt 5 none) := by
  refine happens_of rfl ((if_neg ?_).trans ?_)
  · simp only [htrained, hup, Nat.not_le.mpr hport, Bool.not_true, decide_false, Bool.or_self, Bool.false_eq_true, not_false_eq_true]
  · simp only [List.length_cons, Nat.succ_inj]

theorem linkAndWindowEvents : LinkAndWindowEvents := by
  refine ⟨fun _ _ _ => wsWindowOpen_happens, fun _ _ _ => wsWindowClose_happens, fun _ _ _ => peerRequest_happens,
    fun _ _ => linkDown_happens, fun s t n m hlost hm hdue ht => happens_of rfl ?message, fun s t n e hlost hm he ht => happens_of rfl ?command⟩
  case message => simp only [hlost, hm, hdue, ht, Bool.not_true, Bool.false_eq_true, if_false, if_true]
  case command => simp only [hlost, hm, he, ht, Bool.not_true, Bool.false_eq_true, if_false, Option.bind_some]

/-- Settles O49: each event passes its conditions. -/
theorem powerAndLinkEvents : Obligations.PowerAndLinkEvents := by
  unfold Obligations.PowerAndLinkEvents
  exact ⟨powerEvents, linkAndWindowEvents⟩

end Sys2Proof

/-! PROOFS. Every step keeps the registers and the wells in canonical form (O60, log entry 26).

One lemma for each function of the model: what it hands on keeps the form. A function that leaves the wells, the warps and the blocks
alone does so at sight; one that calls others does so by their lemmas; those that write a register file, a tile, an accumulator, a stream or
a well do it by `cset`, `cput`, `cclear` or a run of fresh cells (`Laws/Cells`). -/

namespace Sys2Proof

open Sys2Proof.Machine

/-! ### The form, and what hands it on -/

/-- A warp's register files are in canonical form. -/
def RegFiles (vregs sregs preds : Cells 32) : Prop := cwf vregs = true ∧ cwf sregs = true ∧ cwf preds = true

/-- A block's tiles, accumulators and streams are in canonical form. -/
def BlockFiles (tiles : Cells 16) (accs : Cells 32) (streams : Cells 1024) : Prop :=
  cwf tiles = true ∧ cwf accs = true ∧ cwf streams = true

abbrev WarpForm (w : Warp) : Prop := RegFiles w.vregs w.sregs w.preds
abbrev BlockForm (b : Block) : Prop := BlockFiles b.tiles b.accs b.streams

/-- The wells, and the registers of every warp and block, are in canonical form. -/
def RegStore (wells : Cells 32) (full poison bad : Cells 1) (warps : List Warp) (blocks : List Block) : Prop :=
  (cwf wells = true ∧ cwf full = true ∧ cwf poison = true ∧ cwf bad = true) ∧
    (∀ w ∈ warps, WarpForm w) ∧ ∀ b ∈ blocks, BlockForm b

/-- What a step has to keep: a function of the state that leaves these six fields alone keeps it at sight. -/
abbrev RegFormed (s : State) : Prop := RegStore s.wells s.wellFull s.wellPoison s.wellBad s.warps s.blocks

theorem registersWf_iff {s : State} : registersWf s = true ↔ RegFormed s := by
  simp only [registersWf, RegFormed, RegStore, RegFiles, BlockFiles, Bool.and_eq_true, List.all_eq_true, and_assoc]

/-- The issue that a body is given has its warp and its block in canonical form. -/
def IcForm (c : Ic) : Prop := WarpForm c.w ∧ BlockForm c.b

/-- What an instruction body answers keeps the form wherever it hands a state on. -/
def RegFormedRes : Res → Prop
  | .done s _ => RegFormed s
  | .stall s => RegFormed s
  | .raw s => RegFormed s
  | .fault _ => True
  | .brk _ => True

def RegFormedGate : Gate → Prop
  | .out s => RegFormed s
  | .go c s => IcForm c ∧ RegFormed s

def RegFormedOut : Out → Prop
  | .next s => RegFormed s
  | .fault _ => True
  | .refused _ => True

theorem RegFormed.foldl {α : Type} (f : State → α → State) (hf : ∀ s x, RegFormed s → RegFormed (f s x)) (l : List α)
    {s : State} (h : RegFormed s) : RegFormed (l.foldl f s) := by
  induction l generalizing s with
  | nil => exact h
  | cons a t ih => exact ih (hf _ _ h)

/-- The same where the step looks at the elements of the list. -/
theorem RegFormed.foldl_mem {α : Type} (f : State → α → State) (l : List α)
    (hf : ∀ s, ∀ x ∈ l, RegFormed s → RegFormed (f s x)) {s : State} (h : RegFormed s) : RegFormed (l.foldl f s) :=
  List.foldlRecOn l f h fun _ h x hx => hf _ x hx h

theorem RegFormed.foldl_fst {α β : Type} (f : State × β → α → State × β) (hf : ∀ x y, RegFormed x.1 → RegFormed (f x y).1)
    (l : List α) {x : State × β} (h : RegFormed x.1) : RegFormed (l.foldl f x).1 := by
  induction l generalizing x with
  | nil => exact h
  | cons a t ih => exact ih (hf _ _ h)

theorem RegFormed.foldl_snd {α β : Type} (f : β × State → α → β × State) (hf : ∀ x y, RegFormed x.2 → RegFormed (f x y).2)
    (l : List α) {x : β × State} (h : RegFormed x.2) : RegFormed (l.foldl f x).2 := by
  induction l generalizing x with
  | nil => exact h
  | cons a t ih => exact ih (hf _ _ h)

theorem RegFormed.foldl_snd_snd {α β γ : Type} (f : β × γ × State → α → β × γ × State)
    (hf : ∀ x y, RegFormed x.2.2 → RegFormed (f x y).2.2) (l : List α) {x : β × γ × State} (h : RegFormed x.2.2) :
    RegFormed (l.foldl f x).2.2 := by
  induction l generalizing x with
  | nil => exact h
  | cons a t ih => exact ih (hf _ _ h)

/-- A loop that gives up at the first failure. -/
theorem RegFormed.foldl_bind {α : Type} {s : State} (h : RegFormed s) (f : State → α → Option State)
    (hf : ∀ s x t, RegFormed s → f s x = some t → RegFormed t) (l : List α) {t : State}
    (e : l.foldl (fun (o : Option State) x => o.bind fun s => f s x) (some s) = some t) : RegFormed t := by
  refine List.foldlRecOn (motive := fun o => ∀ t, o = some t → RegFormed t) l _ (fun t e => Option.some.inj e ▸ h)
    (fun o ho x _ t e => ?_) t e
  obtain ⟨u, hu, hx⟩ := Option.bind_eq_some_iff.mp e
  exact hf _ _ _ (ho u hu) hx

/-! ### Register files of a warp -/

theorem WarpForm.vset {w : Warp} (h : WarpForm w) (r l : Nat) (v : Word) : WarpForm (w.vset r l v) := ⟨cwf_cset h.1 .., h.2⟩
theorem WarpForm.sset {w : Warp} (h : WarpForm w) (r : Nat) (v : Word) : WarpForm (w.sset r v) := ⟨h.1, cwf_cset h.2.1 .., h.2.2⟩

theorem WarpForm.pset {w : Warp} (h : WarpForm w) (p : Nat) (v : LaneMask) : WarpForm (w.pset p v) := by
  unfold Warp.pset
  split
  · exact h
  · exact ⟨h.1, h.2.1, cwf_cset h.2.2 ..⟩

theorem WarpForm.put {w : Warp} (h : WarpForm w) (x : RegSlot) (v : Word) : WarpForm (w.put x v) := by
  cases x with
  | vec | vecB => exact h.vset ..
  | uni => exact h.sset ..
  | pred => exact h.pset ..

theorem WarpForm.foldl {α : Type} {f : Warp → α → Warp} (hf : ∀ w x, WarpForm w → WarpForm (f w x)) (l : List α) {w : Warp}
    (h : WarpForm w) : WarpForm (l.foldl f w) :=
  List.foldlRecOn (motive := WarpForm) l f h fun _ h x _ => hf _ x h

theorem WarpForm.puts {w : Warp} (h : WarpForm w) (ws : List (RegSlot × Word)) : WarpForm (w.puts ws) :=
  WarpForm.foldl (fun _ _ h => h.put ..) ws h

theorem WarpForm.modThreads {w : Warp} (h : WarpForm w) (m : LaneMask) (f : Nat → Thread → Thread) : WarpForm (w.modThreads m f) := h
theorem WarpForm.raise {w : Warp} (h : WarpForm w) (f : Flags) : WarpForm (w.raise f) := h

theorem WarpForm.opened {w : Warp} (h : WarpForm w) (pc : Pc) (phase : Nat) : WarpForm (w.opened pc phase) := by
  unfold Warp.opened
  split <;> exact h

/-! ### Changes of warps and blocks -/

theorem RegFormed.warp {s : State} (h : RegFormed s) {u n : Nat} {w : Warp} (e : s.warp? u n = some w) : WarpForm w :=
  h.2.1 w (List.mem_of_find?_eq_some e)

theorem RegFormed.block {s : State} (h : RegFormed s) {u : Nat} {b : Block} (e : s.block? u = some b) : BlockForm b :=
  h.2.2 b (List.mem_of_find?_eq_some e)

theorem RegFormed.modWarp {s : State} (h : RegFormed s) (u n : Nat) {f : Warp → Warp} (hf : ∀ w, WarpForm w → WarpForm (f w)) :
    RegFormed (s.modWarp u n f) := by
  refine ⟨h.1, fun w hw => ?_, h.2.2⟩
  obtain ⟨x, hx, rfl⟩ := List.mem_map.mp hw
  split
  · exact hf _ (h.2.1 _ hx)
  · exact h.2.1 _ hx

theorem RegFormed.setWarp {s : State} (h : RegFormed s) {w : Warp} (hw : WarpForm w) : RegFormed (s.setWarp w) :=
  h.modWarp _ _ fun _ _ => hw

/-- A change of every warp. -/
theorem RegFormed.mapWarps {s : State} (h : RegFormed s) {f : Warp → Warp} (hf : ∀ w, WarpForm w → WarpForm (f w)) :
    RegFormed { s with warps := s.warps.map f } :=
  ⟨h.1, List.forall_mem_map.mpr fun _ hw => hf _ (h.2.1 _ hw), h.2.2⟩

theorem RegFormed.modBlock {s : State} (h : RegFormed s) (u : Nat) {f : Block → Block} (hf : ∀ b, BlockForm b → BlockForm (f b)) :
    RegFormed (s.modBlock u f) := by
  refine ⟨h.1, h.2.1, fun b hb => ?_⟩
  obtain ⟨x, hx, rfl⟩ := List.mem_map.mp hb
  split
  · exact hf _ (h.2.2 _ hx)
  · exact h.2.2 _ hx

theorem RegFormed.setBlock {s : State} (h : RegFormed s) {b : Block} (hb : BlockForm b) : RegFormed (s.setBlock b) :=
  h.modBlock _ fun _ _ => hb

theorem RegFormed.unstall {s : State} (h : RegFormed s) : RegFormed s.unstall := h.mapWarps fun _ h => h
theorem RegFormed.issued {s : State} (h : RegFormed s) : RegFormed s.issued := h.unstall

theorem RegFormed.wellPut {s : State} (h : RegFormed s) (key : Nat) (v : Word) : RegFormed (s.wellPut key v) := by
  obtain ⟨⟨hwells, hfull, hpoison, hbad⟩, hwarps, hblocks⟩ := h
  exact ⟨⟨cwf_cset hwells .., hfull, cwf_cset hpoison .., cwf_cset hbad ..⟩, hwarps, hblocks⟩

theorem RegFormed.wellSetFull {s : State} (h : RegFormed s) (key : Nat) (f : Bool) : RegFormed (s.wellSetFull key f) := by
  obtain ⟨⟨hwells, hfull, hpoison, hbad⟩, hwarps, hblocks⟩ := h
  exact ⟨⟨hwells, cwf_cset hfull .., hpoison, hbad⟩, hwarps, hblocks⟩

theorem RegFormed.setPoison {s : State} (h : RegFormed s) (key : Nat) (v : BitVec 1) :
    RegFormed { s with wellPoison := cset s.wellPoison key v } := by
  obtain ⟨⟨hwells, hfull, hpoison, hbad⟩, hrest⟩ := h
  exact ⟨⟨hwells, hfull, cwf_cset hpoison .., hbad⟩, hrest⟩

theorem RegFormed.setBad {s : State} (h : RegFormed s) (key : Nat) (v : BitVec 1) :
    RegFormed { s with wellBad := cset s.wellBad key v } := by
  obtain ⟨⟨hwells, hfull, hpoison, hbad⟩, hrest⟩ := h
  exact ⟨⟨hwells, hfull, hpoison, cwf_cset hbad ..⟩, hrest⟩

/-! ### Changes of anything else -/

section

variable {s : State}

theorem RegFormed.modGrid (h : RegFormed s) (g : Nat) (f : Grid → Grid) : RegFormed (s.modGrid g f) := h
theorem RegFormed.modTask (h : RegFormed s) (q i : Nat) (f : Machine.Task → Machine.Task) : RegFormed (s.modTask q i f) := h
theorem RegFormed.modEngine (h : RegFormed s) (n : Nat) (f : Engine → Engine) : RegFormed (s.modEngine n f) := h
theorem RegFormed.modEngines (h : RegFormed s) (p : Engine → Bool) (f : Engine → Engine) : RegFormed (s.modEngines p f) := h
theorem RegFormed.modCores (h : RegFormed s) (f : Machine.Core → Machine.Core) : RegFormed (s.modCores f) := h
theorem RegFormed.modOwed (h : RegFormed s) (n : Nat) (f : Owed → Owed) : RegFormed (s.modOwed n f) := h
theorem RegFormed.dropOwed (h : RegFormed s) (n : Nat) : RegFormed (s.dropOwed n) := h
theorem RegFormed.dropMsg (h : RegFormed s) (n : Nat) : RegFormed (s.dropMsg n) := h
theorem RegFormed.send (h : RegFormed s) (k : MsgKind) : RegFormed (s.send k) := h
theorem RegFormed.modDie (h : RegFormed s) (d : Nat) (f : Die → Die) : RegFormed (s.modDie d f) := h

theorem RegFormed.setCtx (h : RegFormed s) (c : Ctx) : RegFormed (s.setCtx c) := by
  unfold State.setCtx
  split <;> exact h

theorem RegFormed.modCtx (h : RegFormed s) (n : Nat) (f : Ctx → Ctx) : RegFormed (s.modCtx n f) := h.setCtx _

theorem RegFormed.setCore (h : RegFormed s) (c : Machine.Core) : RegFormed (s.setCore c) := by
  unfold State.setCore
  split <;> exact h

theorem RegFormed.modCore (h : RegFormed s) (n : Nat) (f : Machine.Core → Machine.Core) : RegFormed (s.modCore n f) := h.setCore _

end

/-! ### Named reads and writes of the state -/

theorem RegFormed.draw {s : State} (h : RegFormed s) (what n : Nat) : RegFormed (s.draw what n).2 := by
  unfold State.draw
  grind

theorem RegFormed.drawBytes {s : State} (h : RegFormed s) (n : Nat) : RegFormed (s.drawBytes n).2 := by
  unfold State.drawBytes
  grind

theorem RegFormed.interrupt {s : State} (h : RegFormed s) (v : Nat) (ctx : Option Nat) : RegFormed (s.interrupt v ctx) := by
  unfold State.interrupt
  grind

/-! ### Translation, and writes at the home of a line (R375 to R384, R409 to R416) -/

theorem RegFormed.lookedUp {s t : State} (h : RegFormed s) (e : LookedUp s t) : RegFormed t := by
  obtain ⟨_, _, rfl⟩ := e
  exact h

theorem RegFormed.pickPte {s : State} (h : RegFormed s) (units : List TlbUnit) (ctx va : Nat) :
    RegFormed (s.pickPte units ctx va).2 := h.lookedUp (LookedUp.pickPte ..)

theorem RegFormed.xlat {s : State} (h : RegFormed s) (units : List TlbUnit) (ctx va : Nat) (need : Need) :
    RegFormed (s.xlat units ctx va need).2 := h.lookedUp (LookedUp.xlat ..)

theorem RegFormed.setBand {s : State} (h : RegFormed s) (b : Band) : RegFormed (s.setBand b) := by
  unfold State.setBand
  grind

theorem RegFormed.eccDone {s : State} (h : RegFormed s) (line : Nat) : RegFormed (s.eccDone line) := by
  unfold State.eccDone
  grind

theorem RegFormed.homeWrite {s : State} (h : RegFormed s) (line : Nat) (mask : BitVec 64) (data : BitVec 512) :
    RegFormed (s.homeWrite line mask data) := by
  unfold State.homeWrite
  grind [RegFormed.eccDone, RegFormed.setBand]

theorem RegFormed.homeBytes {s : State} (h : RegFormed s) (n : Nat) (bs : List Byte) : RegFormed (s.homeBytes n bs) := by
  refine RegFormed.foldl _ (fun s line h => ?_) _ h
  dsimp only
  split
  · exact h.eccDone _
  · exact RegFormed.setBand (h.eccDone _) _

theorem RegFormed.relsDrop {s : State} (h : RegFormed s) (core : Option Nat) (line : Nat) (mask : BitVec 64) :
    RegFormed (s.relsDrop core line mask) := by
  unfold State.relsDrop
  grind

theorem RegFormed.softWrite {s : State} (h : RegFormed s) (line : Nat) (mask : BitVec 64) (data : BitVec 512) :
    RegFormed (s.softWrite line mask data) := (h.homeWrite ..).relsDrop ..

theorem RegFormed.softLine {s : State} (h : RegFormed s) (n : Nat) (bs : List Byte) :
    RegFormed (s.softLine n bs) := RegFormed.softWrite h ..

theorem RegFormed.softRun {s : State} (h : RegFormed s) (n a : Nat) (l : List Byte) : RegFormed (softRun n s a l) := by
  fun_induction Machine.softRun <;> grind [RegFormed.softLine]

theorem RegFormed.softBytes {s : State} (h : RegFormed s) (n : Nat) (bs : List Byte) :
    RegFormed (s.softBytes n bs) := RegFormed.softRun h ..

theorem RegFormed.readVirt {s : State} (h : RegFormed s) (units : List TlbUnit) (ctx va n : Nat) :
    RegFormed (s.readVirt units ctx va n).2 := by
  fun_induction State.readVirt <;> grind [RegFormed.xlat]

/-! ### The save area (R48 to R51) -/

theorem RegFormed.saveMod {s : State} (h : RegFormed s) (b : Block) (off n : Nat) (f : Nat → Nat) :
    RegFormed (s.saveMod b off n f) := by
  unfold State.saveMod
  split <;> exact h

theorem RegFormed.saveWake {s : State} (h : RegFormed s) (b : Block) (wid lane : Nat) : RegFormed (s.saveWake b wid lane) :=
  RegFormed.saveMod h ..

theorem RegFormed.saveToken {s : State} (h : RegFormed s) (b : Block) (wid reg : Nat) (v : Word) :
    RegFormed (s.saveToken b wid reg v) := by
  unfold State.saveToken
  grind [RegFormed.saveMod]

/-! ### Trace records (R438 to R441) -/

theorem RegFormed.tracePut {s : State} (h : RegFormed s) (d body : Nat) : RegFormed (s.tracePut d body) := by
  unfold State.tracePut
  grind [RegFormed.modDie, RegFormed.xlat, RegFormed.interrupt, wf_writeNat]

theorem RegFormed.syncDue {s : State} (h : RegFormed s) (d : Nat) : RegFormed (s.syncDue d) := by
  unfold State.syncDue
  grind [RegFormed.tracePut]

theorem RegFormed.syncPut {s : State} (h : RegFormed s) (d why : Nat) : RegFormed (s.syncPut d why) := by
  unfold State.syncPut
  grind [RegFormed.tracePut]

theorem RegFormed.traceRec {s : State} (h : RegFormed s) (d type body : Nat) : RegFormed (s.traceRec d type body) := by
  unfold State.traceRec
  grind [RegFormed.syncDue, RegFormed.tracePut]

theorem RegFormed.orFree {s : State} (h : RegFormed s) (v : Option Nat) : RegFormed (s.orFree v).2 := by
  unfold State.orFree
  grind [RegFormed.drawBytes]

theorem RegFormed.traceEvent {s : State} (h : RegFormed s) (d code : Nat) (arg : Option Nat) (pc : Option Pc) (eseq : Option Word)
    (slot : Option Nat) (ctx : Nat) :
    RegFormed (s.traceEvent d code arg pc eseq slot ctx) := by
  unfold State.traceEvent
  grind [RegFormed.orFree, RegFormed.traceRec]

/-! ### Shared operations: wells, rings, records, completions, kills, faults -/

theorem RegFormed.relSetIn {s : State} (h : RegFormed s) (core : Option Nat) (n : Nat) (rels : List Machine.Rel) :
    RegFormed (s.relSetIn core n rels) := by
  unfold State.relSetIn
  grind

theorem RegFormed.relSet {s : State} (h : RegFormed s) (n : Nat) (rels : List Machine.Rel) : RegFormed (s.relSet n rels) := by
  unfold State.relSet
  grind [RegFormed.relSetIn]

theorem RegFormed.relsMove {s : State} (h : RegFormed s) (core : Option Nat) (rs : List RelStamp) :
    RegFormed (s.relsMove core rs) := by
  unfold State.relsMove
  grind [RegFormed.relSetIn, RegFormed.foldl]

theorem RegFormed.relPut {s : State} (h : RegFormed s) (n : Nat) (rels : List Machine.Rel) : RegFormed (s.relPut n rels) := by
  unfold State.relPut
  grind [RegFormed.relSet]

theorem RegFormed.wellPutSoft {s : State} (h : RegFormed s) (key : Nat) (v : Word) : RegFormed (s.wellPutSoft key v) := by
  unfold State.wellPutSoft
  grind [RegFormed.wellPut]

theorem RegFormed.wellByte {s : State} (h : RegFormed s) (key pos : Nat) (v : Byte) : RegFormed (s.wellByte key pos v) := by
  unfold State.wellByte
  grind [RegFormed.wellPutSoft]

theorem RegFormed.wellWrite {s : State} (h : RegFormed s) (b : Block) (off : Nat) (l : List Byte) :
    RegFormed (s.wellWrite b off l) := by
  fun_induction State.wellWrite <;> grind [RegFormed.wellByte]

theorem RegFormed.wakeWhere {s : State} (h : RegFormed s) (uid wid : Nat) (p : Nat → Thread → Bool) :
    RegFormed (s.wakeWhere uid wid p) := by
  unfold State.wakeWhere
  split
  next w _ hw _ =>
    extract_lets ls w1 w2 s'
    have hf : WarpForm w := h.warp hw
    have hs : RegFormed s' := by
      refine h.setWarp ?_
      dsimp only [w2]
      split <;> exact hf
    split
    · exact hs
    · exact RegFormed.foldl _ (fun _ _ h => h.saveWake ..) _ hs
  · exact h

theorem RegFormed.wake {s : State} (h : RegFormed s) (uid wid : Nat) (r : Reason) :
    RegFormed (s.wake uid wid r) := RegFormed.wakeWhere h ..

theorem RegFormed.ringAppend {s : State} (h : RegFormed s) (r : Machine.Ring) (msg : List Byte) (rel : Machine.Rel) :
    RegFormed (s.ringAppend r msg rel) := by
  unfold State.ringAppend
  grind [RegFormed.wellPut, RegFormed.relPut, RegFormed.foldl]

theorem RegFormed.flushNotices {s : State} (h : RegFormed s) (ctx : Nat) : RegFormed (s.flushNotices ctx) := by
  unfold State.flushNotices
  grind [RegFormed.modCtx, RegFormed.ringAppend, RegFormed.foldl]

theorem RegFormed.flushAll {s : State} (h : RegFormed s) : RegFormed s.flushAll := by
  unfold State.flushAll
  grind [RegFormed.flushNotices, RegFormed.foldl]

theorem RegFormed.notice {s : State} (h : RegFormed s) (ctx : Nat) (k : NoticeKind) (v : Word) : RegFormed (s.notice ctx k v) := by
  unfold State.notice
  grind [RegFormed.modCtx, RegFormed.flushNotices]

theorem RegFormed.forward {s : State} (h : RegFormed s) (core ctx va loc pa : Nat) (tpin : Bool) :
    RegFormed (s.forward core ctx va loc pa tpin) := by
  unfold State.forward
  grind [RegFormed.send]

theorem RegFormed.forwardLines {s : State} (h : RegFormed s) (core ctx va n : Nat) (need : Need)
    (units : List TlbUnit) : RegFormed (s.forwardLines core ctx va n need units) := by
  unfold State.forwardLines
  grind [RegFormed.xlat, RegFormed.forward, RegFormed.foldl]

theorem RegFormed.flagStore {s : State} (h : RegFormed s) (pa : Nat) (bs : List Byte) : RegFormed (s.flagStore pa bs) :=
  (h.homeBytes ..).relSet ..

theorem RegFormed.ctxRecord32 {s : State} (h : RegFormed s) (ctx off : Nat) (v : Word) : RegFormed (s.ctxRecord32 ctx off v) :=
  RegFormed.flagStore h ..

theorem RegFormed.setFqovf {s : State} (h : RegFormed s) (ctx : Nat) (v : Word) : RegFormed (s.setFqovf ctx v) := by
  unfold State.setFqovf
  grind [RegFormed.ctxRecord32, RegFormed.modCtx, RegFormed.notice]

theorem RegFormed.unqueue {s : State} (h : RegFormed s) (w : Warp) (ctx : Nat) : RegFormed (s.unqueue w ctx) := by
  unfold State.unqueue
  grind [RegFormed.modWarp, RegFormed.setFqovf]

theorem RegFormed.ringWrite {s : State} (h : RegFormed s) (core hctx : Nat) (r : RingHdr) (body : Nat) :
    RegFormed (s.ringWrite core hctx r body).1 := by
  unfold State.ringWrite
  grind [RegFormed.xlat, RegFormed.homeBytes, RegFormed.forwardLines, RegFormed.relSet]

theorem RegFormed.putToken {s : State} (h : RegFormed s) (uid wid reg : Nat) (v : Word) (eng : Nat) :
    RegFormed (s.putToken uid wid reg v eng) := by
  unfold State.putToken
  extract_lets s'
  have hs : RegFormed s' := h.modWarp _ _ fun _ h => h.sset ..
  split
  · split
    · split <;> exact hs
    · split
      · exact hs
      · exact RegFormed.saveToken hs ..
  · exact hs

theorem RegFormed.completeEngine {s : State} (h : RegFormed s) (id status fault : Nat) :
    RegFormed (s.completeEngine id status fault) := by
  unfold State.completeEngine
  grind [RegFormed.modEngine, RegFormed.traceEvent, RegFormed.putToken]

theorem RegFormed.taskWrite {s : State} (h : RegFormed s) (t : Machine.Task) : RegFormed (s.taskWrite t) := by
  unfold State.taskWrite
  grind [RegFormed.xlat, RegFormed.forward, RegFormed.flagStore]

theorem RegFormed.taskEnd {s : State} (h : RegFormed s) (n a b : Nat) (c : Option Byte) : RegFormed (taskEnd n s a b c) := by
  fun_induction Machine.taskEnd <;> grind [RegFormed.modTask, RegFormed.taskWrite, RegFormed.completeEngine, RegFormed.foldl]

theorem RegFormed.leaveSlot {s : State} (h : RegFormed s) (w : Warp) : RegFormed (s.leaveSlot w) :=
  RegFormed.setWarp (h.unqueue ..) ⟨rfl, rfl, rfl⟩

theorem RegFormed.dropWarpMsgs {s : State} (h : RegFormed s) (uid : Nat) : RegFormed (s.dropWarpMsgs uid) := by
  unfold State.dropWarpMsgs
  grind

theorem RegFormed.endBlock {s : State} (h : RegFormed s) (uid : Nat) (code : Byte) : RegFormed (s.endBlock uid code) := by
  unfold State.endBlock
  have hnil : BlockFiles [] [] [] := ⟨rfl, rfl, rfl⟩
  grind [RegFormed.dropWarpMsgs, RegFormed.modCores, RegFormed.completeEngine, RegFormed.leaveSlot, RegFormed.modEngines,
    RegFormed.modBlock, RegFormed.foldl]

theorem RegFormed.hostDone {s : State} (h : RegFormed s) (at' : Nat) (irq : Bool) (ctx status code : Nat) :
    RegFormed (s.hostDone at' irq ctx status code) := by
  unfold State.hostDone
  grind [RegFormed.relSet, RegFormed.homeBytes, RegFormed.interrupt]

theorem RegFormed.abortGrid (n : Nat) {s : State} (h : RegFormed s) (a : Nat) (b : Byte) : RegFormed (abortGrid n s a b).1 := by
  induction n generalizing s a with
  | zero => exact h
  | succ n ih =>
    unfold Machine.abortGrid
    grind [RegFormed.endBlock, RegFormed.taskEnd, RegFormed.completeEngine, RegFormed.hostDone, RegFormed.interrupt,
      RegFormed.foldl, RegFormed.foldl_fst, RegFormed.modGrid]

theorem RegFormed.ctxRo {s : State} (h : RegFormed s) (ctx : Nat) : RegFormed (s.ctxRo ctx) := by
  refine RegFormed.foldl _ (fun _ _ h => ?_) _ h
  exact h

theorem RegFormed.retake {s : State} (h : RegFormed s) (n a : Nat) : RegFormed (retake n s a) := by
  fun_induction Machine.retake <;> grind [RegFormed.unqueue]

theorem RegFormed.discardHeld {s : State} (h : RegFormed s) (core ctx : Nat) : RegFormed (s.discardHeld core ctx) := by
  unfold State.discardHeld
  grind [RegFormed.modCore, RegFormed.retake]

theorem RegFormed.killContext {s : State} (h : RegFormed s) (ctx : Nat) (code : Byte) : RegFormed (s.killContext ctx code).1 := by
  unfold State.killContext
  grind [RegFormed.abortGrid, RegFormed.taskEnd, RegFormed.modCtx, RegFormed.ctxRo, RegFormed.discardHeld, RegFormed.notice,
    RegFormed.foldl, RegFormed.foldl_fst]

theorem RegFormed.countLegacy {s : State} (h : RegFormed s) (ctx : Nat) : RegFormed (s.countLegacy ctx) := by
  unfold State.countLegacy
  grind [RegFormed.ctxRecord32, RegFormed.interrupt]

theorem RegFormed.undeliverable {s : State} (h : RegFormed s) (r : FaultRec) : RegFormed (s.undeliverable r) := by
  unfold State.undeliverable
  split
  · exact h
  · exact RegFormed.killContext h ..

theorem RegFormed.drainCore {s : State} (h : RegFormed s) (n a b : Nat) : RegFormed (drainCore n s a b) := by
  fun_induction Machine.drainCore <;> grind [RegFormed.undeliverable, RegFormed.forwardLines, RegFormed.ringWrite, RegFormed.notice,
    RegFormed.modCore]

theorem RegFormed.reread {s : State} (h : RegFormed s) (ctx : Nat) : RegFormed (s.reread ctx) := by
  unfold State.reread
  grind [RegFormed.drainCore, RegFormed.retake, RegFormed.foldl]

theorem RegFormed.putRecord {s : State} (h : RegFormed s) (core : Nat) (r : FaultRec) (mayWait : Bool) {t : State}
    (e : s.putRecord core r mayWait = some t) :
    RegFormed t := by
  unfold State.putRecord at e
  grind [RegFormed.reread, RegFormed.undeliverable, RegFormed.ringWrite, RegFormed.notice, RegFormed.modCore,
    RegFormed.forwardLines]

theorem RegFormed.report {s : State} (h : RegFormed s) (core : Nat) (r : FaultRec) : RegFormed (s.report core r) := by
  unfold State.report
  cases e : s.putRecord core r false with
  | none => exact h
  | some t => exact h.putRecord _ _ _ e

theorem RegFormed.reports {s : State} (h : RegFormed s) (core : Nat) (rs : List FaultRec) : RegFormed (s.reports core rs) :=
  RegFormed.foldl _ (fun _ _ h => RegFormed.report h ..) _ h

theorem RegFormed.reportFailed {s : State} (h : RegFormed s) (s0 : State) : RegFormed (s0.reportFailed s) :=
  RegFormed.foldl _ (fun _ _ h => RegFormed.report h ..) _ h

theorem RegFormed.freeReg {s : State} (h : RegFormed s) (uid wid l draw : Nat) (x : Nat × Nat) :
    RegFormed (s.freeReg uid wid l draw x) := by
  unfold State.freeReg
  extract_lets
  split
  · exact h.modWarp _ _ fun _ h => h.vset ..
  · exact h.modWarp _ _ fun _ h => h.sset ..
  · exact h.modWarp _ _ fun _ h => h.pset ..
  · exact h.modBlock _ fun _ ⟨htiles, hrest⟩ => ⟨cwf_cput htiles .., hrest⟩
  · exact h.modBlock _ fun _ ⟨htiles, haccs, hstreams⟩ => ⟨htiles, cwf_cput haccs .., hstreams⟩
  · exact h.modBlock _ fun _ ⟨htiles, haccs, hstreams⟩ => ⟨htiles, haccs, cwf_cput hstreams ..⟩
  · exact h

theorem RegFormed.freeAt {s : State} (h : RegFormed s) (draw place : Nat) : RegFormed (s.freeAt draw place) := by
  unfold State.freeAt
  dsimp only
  split
  · exact h.wellByte ..
  · exact h

theorem RegFormed.unspecify {s : State} (h : RegFormed s) (uid wid : Nat) (back : Thread → Bool) :
    RegFormed (s.unspecify uid wid back) := by
  unfold State.unspecify
  grind [RegFormed.freeReg, RegFormed.freeAt, RegFormed.foldl]

theorem RegFormed.sampleMark {s : State} (h : RegFormed s) (w : Warp) (f : Sample → Sample) : RegFormed (s.sampleMark w f) := by
  unfold State.sampleMark
  grind [RegFormed.modCore]

theorem RegFormed.servedBy {s : State} (h : RegFormed s) (core name level : Nat) : RegFormed (s.servedBy core name level) := by
  unfold State.servedBy
  grind [RegFormed.modCore]

theorem RegFormed.discardLoads {s : State} (h : RegFormed s) (uid wid : Nat) : RegFormed (s.discardLoads uid wid) :=
  h.modWarp _ _ fun _ h => WarpForm.foldl (fun _ _ h => h.puts _) _ h

theorem RegFormed.takeFault {s : State} (h : RegFormed s) (w : Warp) (r : FaultRec) (keep : LaneMask) :
    RegFormed (s.takeFault w r keep) := by
  unfold State.takeFault
  grind [RegFormed.modWarp, → RegFormed.putRecord, RegFormed.setFqovf, RegFormed.traceEvent, RegFormed.sampleMark,
    RegFormed.unspecify, RegFormed.discardLoads]

theorem RegFormed.wakeFaulted {s : State} (h : RegFormed s) (w : Warp) : RegFormed (s.wakeFaulted w) := by
  unfold State.wakeFaulted
  grind [RegFormed.wake, RegFormed.modWarp, RegFormed.modEngines]

/-! ### A core's L1 (R379 to R385) -/

theorem RegFormed.l1Put {s : State} (h : RegFormed s) (core : Nat) (x : L1Line) : RegFormed (s.l1Put core x) := by
  unfold State.l1Put
  grind [RegFormed.modCore]

theorem RegFormed.l1Mod {s : State} (h : RegFormed s) (core ctx line : Nat) (f : L1Line → L1Line) :
    RegFormed (s.l1Mod core ctx line f) := by
  unfold State.l1Mod
  grind [RegFormed.modCore]

theorem RegFormed.l1Drop {s : State} (h : RegFormed s) (core ctx line : Nat) : RegFormed (s.l1Drop core ctx line) := by
  unfold State.l1Drop
  grind [RegFormed.modCore]

theorem RegFormed.keepBytes {s : State} (h : RegFormed s) (core ctx line : Nat) (mask : BitVec 64) :
    RegFormed (s.keepBytes core ctx line mask) := by
  unfold State.keepBytes
  grind [RegFormed.modCore]

theorem RegFormed.writeBack {s : State} (h : RegFormed s) (core ctx line : Nat) : RegFormed (s.writeBack core ctx line) := by
  unfold State.writeBack
  grind [RegFormed.send, RegFormed.keepBytes, RegFormed.modWarp, RegFormed.forward, RegFormed.l1Mod, RegFormed.foldl]

theorem RegFormed.l1Room {s : State} (h : RegFormed s) (core ctx line : Nat) {t : State}
    (e : s.l1Room core ctx line = some t) : RegFormed t := by
  unfold State.l1Room at e
  grind [RegFormed.l1Put, RegFormed.l1Drop, RegFormed.writeBack]

theorem RegFormed.l1Yield {s : State} (h : RegFormed s) (core ctx line : Nat) : RegFormed (s.l1Yield core ctx line) :=
  (h.writeBack ..).l1Drop ..

theorem RegFormed.retag {s : State} (h : RegFormed s) (core : Nat) : RegFormed (s.retag core) := by
  unfold State.retag
  grind [RegFormed.modCore, RegFormed.modWarp, RegFormed.foldl]

theorem RegFormed.wrapEpoch {s : State} (h : RegFormed s) (core : Nat) : RegFormed (s.wrapEpoch core) := by
  refine RegFormed.mapWarps (h.modCore ..) fun w hw => ?_
  split <;> exact hw

theorem RegFormed.freshTag {s : State} (h : RegFormed s) (uid wid : Nat) : RegFormed (s.freshTag uid wid) := by
  unfold State.freshTag
  grind [RegFormed.modWarp, RegFormed.modCore, RegFormed.retag]

theorem RegFormed.bumpEpoch {s : State} (h : RegFormed s) (uid wid : Nat) : RegFormed (s.bumpEpoch uid wid) := by
  unfold State.bumpEpoch
  grind [RegFormed.modCore, RegFormed.modWarp, RegFormed.wrapEpoch]

theorem RegFormed.askFill {s : State} (h : RegFormed s) (core ctx line sec : Nat) (owed : List (Nat × Nat)) (loc va : Nat)
    (tpin : Bool) : RegFormed (s.askFill core ctx line sec owed loc va tpin) := ((h.send _).forward ..).l1Mod ..

theorem RegFormed.sendCheck {s : State} (h : RegFormed s) (w : Warp) (a : Access) : RegFormed (s.sendCheck w a) := by
  unfold State.sendCheck
  grind [RegFormed.send, RegFormed.modWarp]

theorem RegFormed.flushCore {s : State} (h : RegFormed s) (core : Nat) : RegFormed (s.flushCore core) := by
  unfold State.flushCore
  grind [RegFormed.writeBack, RegFormed.foldl]

theorem RegFormed.flushWarp {s : State} (h : RegFormed s) (w : Warp) : RegFormed (s.flushWarp w) := by
  unfold State.flushWarp
  grind [RegFormed.flushCore, RegFormed.writeBack, RegFormed.foldl]

/-! ### Intervals, releases and acquires (R301 to R310) -/

theorem RegFormed.endInterval {s : State} (h : RegFormed s) (uid wid near : Nat) (wide : Bool) :
    RegFormed (s.endInterval uid wid near wide) := by
  unfold State.endInterval Warp.pushInterval
  grind [RegFormed.flushWarp, → RegFormed.warp, RegFormed.setWarp, RegFormed.freshTag]

theorem RegFormed.acquire {s : State} (h : RegFormed s) (uid wid : Nat) (scope : Scope) (stamp : Nat) :
    RegFormed (s.acquire uid wid scope stamp) := by
  unfold State.acquire
  grind [RegFormed.modWarp, RegFormed.bumpEpoch]

theorem RegFormed.acquireEnd {s : State} (h : RegFormed s) (uid wid : Nat) (scope : Scope) (stamp : Nat) :
    RegFormed (s.acquireEnd uid wid scope stamp) := by
  unfold State.acquireEnd
  grind [RegFormed.acquire, RegFormed.endInterval]

theorem RegFormed.saveWord {s : State} (h : RegFormed s) (uid wid : Nat) : RegFormed (s.saveWord uid wid) := by
  unfold State.saveWord
  grind [RegFormed.saveMod]

theorem RegFormed.wakeAcquire {s : State} (h : RegFormed s) (uid wid : Nat) (scope : Scope) (stamp : Nat) :
    RegFormed (s.wakeAcquire uid wid scope stamp) := (h.acquireEnd ..).saveWord ..

theorem RegFormed.releaseNow {s : State} (h : RegFormed s) (uid wid : Nat) (scope : Scope) :
    RegFormed (s.releaseNow uid wid scope) := by
  unfold State.releaseNow
  grind [RegFormed.modWarp, RegFormed.endInterval]

theorem RegFormed.finishAcq {s : State} (h : RegFormed s) (uid wid : Nat) (a : AcqWait) : RegFormed (s.finishAcq uid wid a) := by
  unfold State.finishAcq
  grind [RegFormed.modWarp, RegFormed.acquire, RegFormed.acquireEnd]

theorem RegFormed.releaseDue {s : State} (h : RegFormed s) (uid wid : Nat) : RegFormed (s.releaseDue uid wid) := by
  unfold State.releaseDue
  grind [RegFormed.modWarp, RegFormed.releaseNow]

theorem RegFormed.acqLane {s : State} (h : RegFormed s) (uid wid lane stamp : Nat) : RegFormed (s.acqLane uid wid lane stamp) := by
  unfold State.acqLane
  grind [RegFormed.finishAcq, RegFormed.modWarp]

theorem RegFormed.acqSkip {s : State} (h : RegFormed s) (uid wid lane : Nat) : RegFormed (s.acqSkip uid wid lane) := by
  unfold State.acqSkip
  grind [RegFormed.modWarp, RegFormed.finishAcq]

theorem RegFormed.wbDone {s : State} (h : RegFormed s) (uid wid msg : Nat) (num : Word) (t : Nat) :
    RegFormed (s.wbDone uid wid msg num t) := h.modWarp _ _ fun _ h => h

theorem RegFormed.resultIn {s : State} (h : RegFormed s) (uid wid : Nat) : RegFormed (s.resultIn uid wid) := by
  unfold State.resultIn
  grind [RegFormed.modWarp, RegFormed.wake]

theorem RegFormed.settle {s : State} (h : RegFormed s) (id : Nat) : RegFormed (s.settle id) := by
  unfold State.settle
  grind [RegFormed.resultIn, RegFormed.dropOwed]

theorem RegFormed.oweMore {s : State} (h : RegFormed s) (o : Owed) : RegFormed (s.oweMore o) := h

/-! ### Wells of a pool (R344) -/

theorem RegFormed.takeRun {s : State} (h : RegFormed s) (taken : List (Nat × Nat × Nat)) (n : Nat) {x : Bank × State}
    (e : s.takeRun taken n = some x) : RegFormed x.2 := by
  unfold State.takeRun at e
  grind [RegFormed.draw]

theorem RegFormed.takeWells {s : State} (h : RegFormed s) (n : Nat) (l : List (Nat × Nat × Nat)) (a b : Nat)
    {x : List (Nat × Bank) × State} (e : takeWells n s l a b = some x) : RegFormed x.2 := by
  fun_induction Machine.takeWells generalizing x <;> grind [→ RegFormed.takeRun]

theorem RegFormed.clearRun {s : State} (h : RegFormed s) (cluster : Nat) (b : Bank) : RegFormed (s.clearRun cluster b) := by
  obtain ⟨⟨hwells, hfull, hpoison, hbad⟩, hrest⟩ := h
  exact ⟨⟨cwf_cclear hwells .., cwf_cclear hfull .., cwf_cclear hpoison .., cwf_cclear hbad ..⟩, hrest⟩

/-! ### Blocks on and off a core (R48, R52, R371 to R374, R434) -/

theorem RegFormed.addWarp {s : State} (h : RegFormed s) {w : Warp} (hw : WarpForm w) : RegFormed { s with warps := s.warps ++ [w] } := by
  refine ⟨h.1, fun x hx => ?_, h.2.2⟩
  obtain hx | rfl := List.mem_append.mp hx |>.imp_right List.mem_singleton.mp
  · exact h.2.1 x hx
  · exact hw

theorem RegFormed.addBlock {s : State} (h : RegFormed s) {b : Block} (hb : BlockForm b) :
    RegFormed { s with blocks := s.blocks ++ [b] } := by
  refine ⟨h.1, h.2.1, fun x hx => ?_⟩
  obtain hx | rfl := List.mem_append.mp hx |>.imp_right List.mem_singleton.mp
  · exact h.2.2 x hx
  · exact hb

theorem RegFormed.seatWarp {s : State} (h : RegFormed s) {w : Warp} (hw : WarpForm w) (core sched : Nat) :
    RegFormed (s.seatWarp w core sched) := by
  unfold State.seatWarp
  grind [RegFormed.draw, RegFormed.freshTag, RegFormed.setWarp, RegFormed.addWarp]

theorem RegFormed.seatAll {s : State} (h : RegFormed s) {ws : List Warp} (hws : ∀ w ∈ ws, WarpForm w) (core : Nat) (scheds : List Nat) :
    RegFormed (s.seatAll ws core scheds) :=
  RegFormed.foldl_mem _ _ (fun _ _ hx h => h.seatWarp (hws _ (List.of_mem_zip hx).1) ..) h

theorem RegFormed.startAcquire {s : State} (h : RegFormed s) (uid stamp : Nat) : RegFormed (s.startAcquire uid stamp) := by
  unfold State.startAcquire
  grind [RegFormed.acquire, RegFormed.foldl]

theorem RegFormed.startBlock {s : State} (h : RegFormed s) {b : Block} (hb : BlockForm b) (core : Nat) (scheds : List Nat)
    (bank : List (Nat × Bank)) (stamp : Nat) : RegFormed (s.startBlock b core scheds bank stamp) := by
  unfold State.startBlock
  have hnil : RegFiles [] [] [] := ⟨rfl, rfl, rfl⟩
  grind [RegFormed.setBlock, RegFormed.addBlock, RegFormed.clearRun, RegFormed.seatAll, RegFormed.startAcquire,
    RegFormed.traceEvent, RegFormed.foldl]

theorem RegFormed.refuseReport {s : State} (h : RegFormed s) (b : Block) (x : XFault) (addr : Nat) :
    RegFormed (s.refuseReport b x addr) := by
  unfold State.refuseReport
  split
  · exact h
  · exact RegFormed.report h ..

/-- The warp's image goes to its save slot; its registers stay as they are. -/
theorem RegFormed.evictWarp {s : State} (h : RegFormed s) (b : Block) (pas : List Nat) (wid : Nat) (dbg : Bool) :
    RegFormed (s.evictWarp b pas wid dbg) := by
  unfold State.evictWarp
  grind [RegFormed.unqueue, RegFormed.flushWarp, RegFormed.discardLoads, RegFormed.unspecify, → RegFormed.warp,
    RegFormed.setCore, RegFormed.forwardLines, RegFormed.setWarp, RegFormed.traceEvent]

theorem RegFormed.saveBlock {s : State} (h : RegFormed s) (b : Block) (pas : List Nat) : RegFormed (s.saveBlock b pas) := by
  unfold State.saveBlock
  grind [RegFormed.forwardLines]

theorem RegFormed.evictBlock {s : State} (h : RegFormed s) (b : Block) (pas : List Nat) (bySys : Bool) (dbg : Option Nat) :
    RegFormed (s.evictBlock b pas bySys dbg) := by
  unfold State.evictBlock
  grind [RegFormed.evictWarp, RegFormed.saveBlock, RegFormed.modCores, RegFormed.modBlock, RegFormed.foldl]

theorem RegFormed.swapOut {s : State} (h : RegFormed s) (uid wid : Nat) : RegFormed (s.swapOut uid wid) := by
  unfold State.swapOut
  grind [RegFormed.evictBlock, RegFormed.refuseReport]

theorem RegFormed.writeVirt {s : State} (h : RegFormed s) (ctx va : Nat) (bs : List Byte) {t : State}
    (e : s.writeVirt ctx va bs = some t) : RegFormed t := by
  unfold State.writeVirt at e
  split at e
  · contradiction
  · obtain rfl := Option.some.inj e
    refine RegFormed.foldl _ (fun _ _ h => ?_) _ h
    exact h

theorem RegFormed.spillLines {s : State} (h : RegFormed s) (cl hctx base i : Nat) (need : Need) :
    RegFormed (s.spillLines cl hctx base i need) := by
  unfold State.spillLines
  grind [RegFormed.forwardLines]

theorem RegFormed.spillBank {s : State} (h : RegFormed s) (hctx base cl : Nat) (x : Nat × Bank) {t : State}
    (e : s.spillBank hctx base cl x = some t) : RegFormed t := by
  refine RegFormed.foldl_bind h _ ?_ _ e
  intro s i t hs e
  grind [Option.bind_eq_some_iff, → RegFormed.writeVirt, RegFormed.spillLines]

theorem RegFormed.spill {s : State} (h : RegFormed s) (b : Block) {t : State} (e : s.spill b = some t) : RegFormed t := by
  unfold State.spill at e
  split at e
  · dsimp only at e
    split at e
    · contradiction
    · obtain ⟨u, hu, rfl⟩ := Option.map_eq_some_iff.mp e
      have hu : RegFormed u := h.foldl_bind _ (fun s x t hs hx => hs.spillBank _ _ _ _ hx) _ hu
      exact hu
  · contradiction

theorem RegFormed.reloadBank {s : State} (h : RegFormed s) (hctx base cl : Nat) (b : Bank) (bad : List Nat) :
    RegFormed (s.reloadBank hctx base cl b bad) := by
  refine RegFormed.foldl _ (fun s i h => ?_) _ h
  extract_lets lo s' d f p bits ws
  obtain ⟨⟨hwells, hfull, hpoison, hbad⟩, hrest⟩ : RegFormed s' := h.spillLines ..
  refine ⟨⟨cwf_cput hwells .., cwf_cput hfull .., cwf_cput hpoison .., ?_⟩, hrest⟩
  refine List.foldlRecOn (motive := fun m => cwf m = true) bad _ (cwf_cclear hbad ..) fun m hm k _ => ?_
  split
  · exact cwf_cset hm ..
  · exact hm

theorem RegFormed.freshBanks {s : State} (h : RegFormed s) (l : List (Nat × Bank)) (a : List (Nat × Nat × Nat))
    {x : List (Nat × Bank) × State} (e : freshBanks l s a = some x) : RegFormed x.2 := by
  fun_induction Machine.freshBanks generalizing x <;> grind [→ RegFormed.takeRun]

theorem RegFormed.unspill {s : State} (h : RegFormed s) (b : Block) {t : State} (e : s.unspill b = some t) : RegFormed t := by
  unfold State.unspill at e
  grind [RegFormed.reloadBank, → RegFormed.freshBanks, RegFormed.modBlock, RegFormed.foldl]

theorem RegFormed.restoreWarp {s : State} (h : RegFormed s) (b : Block) {w : Warp} (hw : WarpForm w) (core sched : Nat) :
    RegFormed (s.restoreWarp b w core sched) := by
  unfold State.restoreWarp
  grind [RegFormed.seatWarp, RegFormed.bumpEpoch, RegFormed.modCore, RegFormed.forwardLines, RegFormed.traceEvent]

theorem RegFormed.illegalReport {s : State} (h : RegFormed s) (uid wid : Nat) : RegFormed (s.illegalReport uid wid) := by
  unfold State.illegalReport
  split
  · exact h
  · exact RegFormed.report h ..

theorem RegFormed.resumeIllegal {s : State} (h : RegFormed s) (b : Block) : RegFormed (s.resumeIllegal b) := by
  unfold State.resumeIllegal
  grind [RegFormed.illegalReport, RegFormed.modBlock]

theorem RegFormed.warpIllegal {s : State} (h : RegFormed s) (b : Block) (wid : Nat) : RegFormed (s.warpIllegal b wid) := by
  unfold State.warpIllegal
  grind [RegFormed.illegalReport, RegFormed.modWarp]

/-! ### Registers read back from the save area (R48, R50) -/

theorem cwf_crun {n : Nat} (lo : Nat) (vs : List (BitVec n)) : cwf (crun lo vs) = true := cwf_of_from (cwfFrom_crun lo vs)

theorem warpForm_of_warpBack {k : Kernel} {w x : Warp} {bs : List Byte} (e : warpBack k w bs = some x) : WarpForm x := by
  unfold warpBack at e
  extract_lets at e
  split at e
  · contradiction
  split at e
  · contradiction
  · obtain rfl := Option.some.inj e
    exact ⟨cwf_crun .., cwf_crun .., cwf_filter (cwf_crun ..) _⟩

theorem blockForm_of_blockBack {b x : Block} {bs : List Byte} (e : blockBack b bs = some x) : BlockForm x := by
  unfold blockBack at e
  extract_lets at e
  split at e
  · contradiction
  split at e
  · contradiction
  · obtain rfl := Option.some.inj e
    exact ⟨cwf_crun .., cwf_crun .., cwf_crun ..⟩

theorem mem_of_allSome {α : Type} {l : List (Option α)} {r : List α} (e : allSome l = some r) {x : α} (hx : x ∈ r) :
    some x ∈ l := by
  fun_induction allSome generalizing r with
  | case1 => simp_all
  | case2 => contradiction
  | case3 y t ih =>
    obtain ⟨r', hr, rfl⟩ := Option.map_eq_some_iff.mp e
    obtain rfl | hx := List.mem_cons.mp hx
    · exact List.mem_cons_self
    · exact List.mem_cons_of_mem _ (ih hr hx)

theorem warpForm_of_savedWarps {s : State} {b : Block} {pas : List Nat} {ws l : List Warp}
    (e : allSome (ws.map fun w => s.savedWarp b pas w) = some l) : ∀ w ∈ l, WarpForm w := by
  intro w hw
  obtain ⟨_, _, hx⟩ := List.mem_map.mp (mem_of_allSome e hw)
  exact warpForm_of_warpBack hx

theorem RegFormed.restoreBlock {s : State} (h : RegFormed s) (b : Block) (core : Nat) (scheds : List Nat) {t : State}
    (e : s.restoreBlock b core scheds = some t) :
    RegFormed t := by
  unfold State.restoreBlock at e
  split at e
  · contradiction
  dsimp only at e
  split at e
  next ws' b' hback hown =>
    split at e
    · exact Option.some.inj e ▸ h.resumeIllegal _
    split at e
    · contradiction
    next s1 hs1 =>
    obtain rfl := Option.some.inj e
    have hb : BlockForm b' := blockForm_of_blockBack hown
    have h1 : RegFormed s1 := h.unspill _ hs1
    refine RegFormed.foldl_mem _ _ (fun _ x hx h => h.restoreWarp _ (warpForm_of_savedWarps hback x.1 (List.of_mem_zip hx).1) ..) ?_
    grind [RegFormed.forwardLines, RegFormed.setBlock]
  · exact Option.some.inj e ▸ h.resumeIllegal _

theorem RegFormed.closeRings {s : State} (h : RegFormed s) (uid : Nat) : RegFormed (s.closeRings uid) := by
  unfold State.closeRings
  grind

theorem RegFormed.warpsOf {s : State} (h : RegFormed s) {uid : Nat} {w : Warp} (hw : w ∈ s.warpsOf uid) : WarpForm w :=
  h.2.1 w (List.mem_of_mem_filter hw)

theorem RegFormed.foldl_warpsOf {s : State} (h : RegFormed s) (uid : Nat) {f : State → Warp → State}
    (hf : ∀ s w, RegFormed s → WarpForm w → RegFormed (f s w)) : RegFormed ((s.warpsOf uid).foldl f s) :=
  RegFormed.foldl_mem _ _ (fun _ _ hw hs => hf _ _ hs (h.warpsOf hw)) h

theorem RegFormed.phaseLeave {s : State} (h : RegFormed s) (uid : Nat) : RegFormed (s.phaseLeave uid) := by
  refine h.foldl_warpsOf _ fun s w hs hw => ?_
  split
  · exact hs
  · exact RegFormed.setWarp hs hw

theorem WarpForm.phaseReset {w : Warp} (h : WarpForm w) (p : PhaseOp) : WarpForm (phaseReset p w) :=
  ⟨cwf_filter h.1 _, cwf_filter h.2.1 _, rfl⟩

theorem WarpForm.phaseLoad {w : Warp} (h : WarpForm w) (p : PhaseOp) (bs : List Byte) : WarpForm (phaseLoad p w bs) := by
  refine WarpForm.foldl (fun _ _ h => h.sset ..) _ (WarpForm.foldl (fun w _ h => ?_) _ h)
  exact ⟨cwf_cput h.1 .., h.2⟩

theorem RegFormed.phaseWarps {s : State} (h : RegFormed s) {b : Block} {pas : List Nat} {ws : List Warp}
    (e : s.phaseWarps b pas = .ok ws) : ∀ w ∈ ws, WarpForm w := by
  unfold State.phaseWarps at e
  refine List.foldlRecOn (motive := fun (r : Except Nat (List Warp)) => ∀ l, r = .ok l → ∀ w ∈ l, WarpForm w) (s.warpsOf b.uid) _ ?_
    (fun r hr w hw l e => ?_) ws e
  · rintro _ ⟨⟩ w hw
    contradiction
  · split at e
    · contradiction
    split at e
    · obtain rfl := Except.ok.inj e
      exact List.forall_mem_append.mpr ⟨hr _ rfl, List.forall_mem_singleton.mpr (h.warpsOf hw)⟩
    split at e
    next x hx =>
      obtain rfl := Except.ok.inj e
      exact List.forall_mem_append.mpr ⟨hr _ rfl, List.forall_mem_singleton.mpr (warpForm_of_warpBack hx)⟩
    · contradiction

theorem RegFormed.phaseComplete {s : State} (h : RegFormed s) (uid : Nat) : RegFormed (s.phaseComplete uid) := by
  unfold State.phaseComplete
  split
  · exact h
  split
  · exact h
  next p _ =>
  dsimp only
  split
  · split
    · grind [RegFormed.warpIllegal]
    next ws hws =>
      have hreset : ∀ w ∈ ws, WarpForm (phaseReset p w) := fun w hw => (h.phaseWarps hws w hw).phaseReset p
      have hnil : BlockFiles [] [] [] := ⟨rfl, rfl, rfl⟩
      grind [RegFormed.forwardLines, RegFormed.closeRings, RegFormed.modEngines, RegFormed.modBlock, RegFormed.setWarp,
        RegFormed.foldl_mem, RegFormed.phaseLeave]
  · exact h

theorem RegFormed.phaseBegin {s : State} (h : RegFormed s) (uid core : Nat) {t : State} (e : s.phaseBegin uid core = some t) :
    RegFormed t := by
  unfold State.phaseBegin at e
  split at e
  · contradiction
  split at e
  · contradiction
  split at e
  · contradiction
  split at e
  · exact Option.some.inj e ▸ h.resumeIllegal _
  dsimp only at e
  split at e
  · contradiction
  next hu =>
  obtain rfl := Option.some.inj e
  have h1 := h.takeWells _ _ _ _ hu
  refine RegFormed.startAcquire (RegFormed.foldl_warpsOf ?_ _ fun s w hs hw => ?_) ..
  · grind [RegFormed.clearRun, RegFormed.foldl, RegFormed.forwardLines, RegFormed.modBlock]
  · exact hs.setWarp (hw.phaseLoad ..)

/-! ### Issuing an instruction (R59 to R66, R82) -/

theorem RegFormed.next {s : State} (h : RegFormed s) : RegFormedRes (Res.next s) := h

theorem regFormedRes_illegal (c : Ic) : RegFormedRes c.illegal := trivial

theorem RegFormed.unchoose {s : State} (h : RegFormed s) (w : Warp) : RegFormed (s.unchoose w) := by
  unfold State.unchoose
  extract_lets k yields ws back
  have hws : ∀ x ∈ ws, WarpForm x := List.forall_mem_map.mpr fun x hx => by
    have hf : WarpForm x := h.2.1 x hx
    split <;> exact hf
  have hcore := h.modCore w.core fun c => c.setSched k (back (c.sched k))
  exact ⟨hcore.1, hws, hcore.2.2⟩

theorem RegFormed.stalled {s : State} (h : RegFormed s) (c : Ic) : RegFormed (s.stalled c) := by
  unfold State.stalled
  grind [RegFormed.modWarp, RegFormed.unchoose]

theorem RegFormed.consume {s : State} (h : RegFormed s) (w : Warp) (ts : List Token) (ends : Bool) :
    RegFormed (s.consume w ts ends) := by
  unfold State.consume
  grind [RegFormed.modEngines, RegFormed.modWarp, RegFormed.acquire, RegFormed.acquireEnd, RegFormed.foldl]

theorem RegFormed.ringImplicit {s : State} (h : RegFormed s) (w : Warp) : RegFormed (s.ringImplicit w) := by
  unfold State.ringImplicit
  grind [RegFormed.acquire, RegFormed.modWarp]

theorem RegFormed.unopened {s : State} (h : RegFormed s) (w : Warp) : RegFormed (s.unopened w) := by
  unfold State.unopened
  grind [RegFormed.modWarp]

theorem RegFormed.retire {s : State} (h : RegFormed s) (c : Ic) (i : Instr) (pcOf : Nat → Pc → Pc) :
    RegFormed (s.retire c i pcOf) := by
  unfold State.retire
  split
  · exact h.issued
  next w hw =>
    have hf : WarpForm w := h.warp hw
    exact RegFormed.issued (RegFormed.setWarp h hf)

theorem RegFormed.issueCtx {s : State} (h : RegFormed s) {k : Common} {c : Ic} (e : s.issueCtx k = some c) : IcForm c :=
  ⟨h.warp (issueCtx_warp e).1, h.block (issueCtx_warp e).2⟩

theorem RegFormed.gate {s : State} (h : RegFormed s) (i : Instr) {g : Gate} (e : gate i s = some g) : RegFormedGate g := by
  unfold Machine.gate at e
  split at e
  · contradiction
  next c0 hc0 =>
  have hic : IcForm c0 := h.issueCtx hc0
  extract_lets boundary c s' bad ts w s1 s2 at e
  have hw : WarpForm c.w := hic.1
  have hb : BlockForm c.b := hic.2
  have h' : RegFormed s' := h.setWarp hw
  have hopen : WarpForm w := hw.opened ..
  have h1 : RegFormed s1 := h'.setWarp hopen
  have h2 : RegFormed s2 := by
    dsimp only [s2]
    split
    · exact h1
    · exact h1.consume ..
  have hgo : IcForm { c with w := (s2.warp? w.uid w.wid).getD w } := by
    refine ⟨?_, hb⟩
    cases ew : s2.warp? w.uid w.wid with
    | none => exact hopen
    | some x => exact h2.warp ew
  have hstalled (t : State) (ht : RegFormed t) : RegFormedGate (.out (t.stalled c)) := ht.stalled c
  clear_value bad ts
  split at e
  · grind [RegFormedGate, RegFormed.stalled]
  split at e
  · grind [RegFormedGate, RegFormed.modWarp, RegFormed.stalled]
  split at e
  · obtain rfl := Option.some.inj e
    exact RegFormed.retire (h'.setWarp hopen) ..
  split at e
  · obtain rfl := Option.some.inj e
    exact RegFormed.takeFault h'.issued ..
  clear_value s2 w s' c
  split at e
  · grind [RegFormed.modWarp]
  split at e
  · grind
  split at e
  · grind
  split at e
  · grind [RegFormed.modWarp]
  split at e
  · grind
  split at e
  · grind [RegFormed.ringImplicit]
  obtain rfl := Option.some.inj e
  exact ⟨hgo, h2⟩

/-- An instruction keeps the form when its body does. -/
theorem RegFormed.run {s : State} (h : RegFormed s) (i : Instr) {body : Ic → State → Res}
    (hk : ∀ c s, RegFormed s → IcForm c → RegFormedRes (body c s)) : RegFormedOut (run i s body) := by
  unfold Machine.run
  cases e : Machine.gate i s with
  | none => trivial
  | some g =>
    have hg := RegFormed.gate h i e
    cases g with
    | out t => exact hg
    | go c s' =>
      obtain ⟨hc, hs'⟩ := hg
      have hb := hk c s' hs' hc
      have hw : WarpForm (((s.warp? c.w.uid c.w.wid).getD c.w).modThreads c.bundle fun l _ => c.w.thread l) := by
        cases ew : s.warp? c.w.uid c.w.wid with
        | none => exact hc.1
        | some x => exact WarpForm.modThreads (h.warp ew) ..
      dsimp only
      cases er : body c s' with
      | done t pcOf => grind [RegFormedOut, RegFormedRes, RegFormed.retire]
      | fault r => grind [RegFormedOut, RegFormed.takeFault, RegFormed.setWarp, RegFormed.issued]
      | brk r => grind [RegFormedOut, RegFormed.takeFault, RegFormed.swapOut, RegFormed.setWarp, RegFormed.issued, RegFormed.stalled]
      | stall t => grind [RegFormedOut, RegFormedRes, RegFormed.stalled, RegFormed.unopened]
      | raw t => grind [RegFormedOut, RegFormedRes, RegFormed.issued]

theorem RegFormed.withWritten {s : State} (h : RegFormed s) (c : Ic) (x : Scope) {k : State → Res}
    (hk : ∀ t, RegFormed t → RegFormedRes (k t)) :
    RegFormedRes (withWritten s c x k) := by
  unfold Machine.withWritten
  grind [RegFormedRes, RegFormed.ringImplicit, RegFormed.flushWarp, RegFormed.modWarp]

theorem RegFormed.withRelease {s : State} (h : RegFormed s) (c : Ic) (x : Scope) {k : State → Res}
    (hk : ∀ t, RegFormed t → RegFormedRes (k t)) :
    RegFormedRes (withRelease s c x k) :=
  h.withWritten c x fun _ ht => hk _ (ht.releaseNow ..)

theorem RegFormed.withRing {s : State} (h : RegFormed s) (c : Ic) {k : Unit → Res} (hk : RegFormedRes (k ())) :
    RegFormedRes (withRing s c k) := by
  unfold Machine.withRing
  grind [RegFormedRes, RegFormed.ringImplicit]

theorem RegFormed.withBoth {s : State} (h : RegFormed s) (c : Ic) (x : Scope) {k : State → Res}
    (hk : ∀ t, RegFormed t → RegFormedRes (k t)) :
    RegFormedRes (withBoth s c x k) :=
  h.withRelease c x fun _ ht => hk _ (ht.acquire ..)

/-! ### Instructions that compute on registers (R143 to R149, R170) -/

theorem RegFormed.owe {s : State} (h : RegFormed s) (o : Owed) : RegFormed (s.owe o) := by
  unfold State.owe
  grind [RegFormed.oweMore, RegFormed.modWarp]

theorem RegFormed.owed {s : State} (h : RegFormed s) (c : Ic) (uniform fp : Bool) (f : Nat → LaneOut) :
    RegFormed (Machine.owed c s uniform fp f) := by
  unfold Machine.owed
  grind [RegFormed.modWarp, WarpForm.raise, RegFormed.owe]

theorem RegFormed.compute {s : State} (h : RegFormed s) (i : Instr) (fp : Bool) (f : Ic → Nat → LaneOut) :
    RegFormedOut (Machine.compute i s fp f) :=
  RegFormed.run h _ fun _ _ h _ => h.owed ..

theorem RegFormed.execNop {s : State} (h : RegFormed s) (f : RegForm) :
    RegFormedOut (execNop f s) := RegFormed.run h _ fun _ _ h _ => h

theorem RegFormed.execGetsr {s : State} (h : RegFormed s) (f : RegForm) : RegFormedOut (execGetsr f s) := by
  refine RegFormed.run h _ fun c s h hc => ?_
  grind [RegFormed.owed, RegFormedRes, Res.next]

theorem RegFormed.execSetsr {s : State} (h : RegFormed s) (f : RegForm) : RegFormedOut (execSetsr f s) := by
  refine RegFormed.run h _ fun c s h hc => ?_
  grind [RegFormedRes, Res.next, RegFormed.modWarp]

theorem RegFormed.intInstr {s : State} (h : RegFormed s) (i : Instr) (f : RegForm) (sat : Bool) (op : Int → Int → Int → Int) :
    RegFormedOut (Machine.intInstr i f s sat op) :=
  RegFormed.compute h ..

theorem RegFormed.bitInstr {s : State} (h : RegFormed s) (i : Instr) (f : RegForm) (op : Nat → Nat → Nat) :
    RegFormedOut (Machine.bitInstr i f s op) :=
  RegFormed.compute h ..

theorem RegFormed.shiftInstr {s : State} (h : RegFormed s) (i : Instr) (f : RegForm) (op : Nat → Nat → Nat → Nat) :
    RegFormedOut (Machine.shiftInstr i f s op) :=
  RegFormed.compute h ..

theorem RegFormed.rnInstr {s : State} (h : RegFormed s) (i : Instr) (f : RegForm) (op : Word → Word → Word) :
    RegFormedOut (Machine.rnInstr i f s op) :=
  RegFormed.compute h ..

/-! ### Barriers (R182 to R189) -/

theorem RegFormed.depart {s : State} (h : RegFormed s) (uid : Nat) (arr : List (Nat × Nat)) (scope : Scope) (stamp : Nat) :
    RegFormed (s.depart uid arr scope stamp) := by
  unfold State.depart
  grind [RegFormed.acquire, RegFormed.wakeWhere, RegFormed.foldl]

theorem RegFormed.barComplete {s : State} (h : RegFormed s) (uid : Nat) (x : Barrier) : RegFormed (s.barComplete uid x) := by
  unfold State.barComplete
  grind [RegFormed.depart, RegFormed.modBlock]

theorem RegFormed.clusterBar {s : State} (h : RegFormed s) (uid : Nat) : RegFormed (s.clusterBar uid) := by
  unfold State.clusterBar
  grind [RegFormed.modBlock, RegFormed.depart, RegFormed.foldl]

theorem RegFormed.newPhase {s : State} (h : RegFormed s) (ctx : Nat) : RegFormed (s.newPhase ctx) := by
  unfold State.newPhase
  grind [RegFormed.modCtx, RegFormed.foldl]

theorem RegFormed.gridBar {s : State} (h : RegFormed s) (gid : Nat) : RegFormed (s.gridBar gid) := by
  unfold State.gridBar
  grind [RegFormed.modBlock, RegFormed.depart, RegFormed.newPhase, RegFormed.foldl]

theorem RegFormed.saveThreads {s : State} (h : RegFormed s) (uid wid : Nat) (m : LaneMask) :
    RegFormed (s.saveThreads uid wid m) := by
  unfold State.saveThreads
  grind [RegFormed.saveMod, RegFormed.foldl]

theorem RegFormed.phaseFault {s : State} (h : RegFormed s) (uid : Nat) : RegFormed (s.phaseFault uid) := by
  unfold State.phaseFault
  refine RegFormed.foldl_warpsOf (h.modBlock _ fun _ h => ?_) _ fun s w hs hw => ?_
  · exact h
  split
  · exact hs
  · refine RegFormed.saveThreads (RegFormed.modWarp (hs.setWarp (hw.modThreads ..)) _ _ fun _ h => ?_) ..
    exact h

theorem RegFormed.phaseRelease {s : State} (h : RegFormed s) (uid : Nat) : RegFormed (s.phaseRelease uid) := by
  unfold State.phaseRelease
  grind [RegFormed.saveWord, RegFormed.releaseNow, RegFormed.modBlock, RegFormed.foldl]

theorem RegFormed.phaseBar {s : State} (h : RegFormed s) (uid : Nat) : RegFormed (s.phaseBar uid) := by
  unfold State.phaseBar
  grind [RegFormed.phaseFault, RegFormed.phaseComplete, RegFormed.phaseRelease]

theorem RegFormed.syncWake {s : State} (h : RegFormed s) (uid : Nat) : RegFormed (s.syncWake uid) := by
  unfold State.syncWake
  grind [RegFormed.modBlock, RegFormed.wakeAcquire, RegFormed.wakeWhere, RegFormed.foldl]

theorem RegFormed.barsCheck {s : State} (h : RegFormed s) (uid : Nat) : RegFormed (s.barsCheck uid) := by
  unfold State.barsCheck
  grind [RegFormed.barComplete, RegFormed.gridBar, RegFormed.clusterBar, RegFormed.phaseBar, RegFormed.foldl]

theorem RegFormed.park {s : State} (h : RegFormed s) (c : Ic) (r : Reason) : RegFormed (s.park c r) :=
  h.modWarp _ _ fun _ h => h.modThreads ..

theorem RegFormed.endThreads {s : State} (h : RegFormed s) (c : Ic) : RegFormed (s.endThreads c) := by
  unfold State.endThreads
  grind [RegFormed.modWarp, WarpForm.modThreads, RegFormed.settle, RegFormed.barsCheck, RegFormed.modBlock, RegFormed.foldl]

/-! ### What an address denotes (R209 to R213) -/

theorem RegFormed.resolve {s : State} (h : RegFormed s) (b : Block) (l : Look) (a : BitVec 64) : RegFormed (s.resolve b l a).2 := by
  have ht (va : Nat) : RegFormed (s.xlat l.units b.ctx va l.need).2 := h.xlat ..
  unfold State.resolve
  extract_lets
  split
  · exact h
  split
  · exact h
  · grind
  · grind
  · split
    · exact h
    split
    · exact h
    grind
  · split
    · exact h
    grind

/-! ### Records and tokens of engine commands (R237, R238) -/

theorem RegFormed.linesAt {s : State} (h : RegFormed s) (c : Ic) (units : List TlbUnit) (a : BitVec 64) (n : Nat) :
    RegFormed (s.linesAt c units a n).2 := by
  fun_induction State.linesAt <;> grind [RegFormed.resolve, RegFormed.forward]

theorem RegFormed.record {s : State} (h : RegFormed s) (c : Ic) (pair lines : Nat) : RegFormed (s.record c pair lines).2 := by
  unfold State.record
  grind [RegFormed.linesAt]

theorem RegFormed.issueCommand {s : State} (h : RegFormed s) {c : Ic} (hc : IcForm c) (i : Instr) (token : Option Nat) (args : List Nat) :
    RegFormed (s.issueCommand c i token args).2 := by
  have hw : WarpForm ((s.warp? c.w.uid c.w.wid).getD c.w) := by
    cases e : s.warp? c.w.uid c.w.wid with
    | none => exact hc.1
    | some x => exact h.warp e
  unfold State.issueCommand
  grind [RegFormed.setWarp, RegFormed.traceEvent]

/-! ### Loads, stores, atomics and fences (R208 to R229) -/

theorem RegFormed.resolveLanes {s : State} (h : RegFormed s) (c : Ic) (f : MemForm) (lk : Look) (l : List Nat) :
    RegFormed (s.resolveLanes c f lk l).2.2 := by
  fun_induction State.resolveLanes <;> grind [RegFormed.resolve]

theorem regFormedRes_laneFault (c : Ic) (l : Nat) (a : BitVec 64) (acc : Nat) (x : XFault) :
    RegFormedRes (c.laneFault l a acc x) := by
  unfold Ic.laneFault
  grind [RegFormedRes]

theorem RegFormed.withTargets {s : State} (h : RegFormed s) (c : Ic) (f : MemForm) (lk : Look) (acc : Nat)
    {k : List (Nat × Target) → State → Res} (hk : ∀ ts t, RegFormed t → RegFormedRes (k ts t)) :
    RegFormedRes (withTargets s c f lk acc k) := by
  unfold Machine.withTargets
  grind [regFormedRes_laneFault, RegFormed.resolveLanes]

theorem RegFormed.linePage {s : State} (h : RegFormed s) (c : Ic) (x : Xlat) (va : BitVec 64) (store : Bool) :
    RegFormed (s.linePage c x va store) := by
  unfold State.linePage
  grind [RegFormed.l1Mod, RegFormed.writeBack]

theorem RegFormed.defer {s : State} (h : RegFormed s) (uid wid lane : Nat) (r : FaultRec) : RegFormed (s.defer uid wid lane r) := by
  unfold State.defer
  grind [RegFormed.modWarp]

theorem RegFormed.pieceReady {s : State} (h : RegFormed s) (uid wid : Nat) (p : Piece) (bs : List (Option Byte))
    (bad : Bool) : RegFormed (s.pieceReady uid wid p bs bad).2 := by
  unfold State.pieceReady
  grind [RegFormed.defer]

theorem RegFormed.checkData {s : State} (h : RegFormed s) (c : Ic) (a : Access) : RegFormed (s.checkData c a) := by
  unfold State.checkData
  grind [RegFormed.sendCheck, RegFormed.l1Mod]

theorem RegFormed.joinFill {s : State} (h : RegFormed s) (id : Nat) (refs : List (Nat × Nat)) : RegFormed (s.joinFill id refs) := h

theorem RegFormed.loadPiece {s : State} (h : RegFormed s) (c : Ic) (x : Xlat) (va : BitVec 64) (p : Piece) (ref : Nat × Nat)
    {y : Piece × State} (e : s.loadPiece c x va p ref = some y) : RegFormed y.2 := by
  unfold State.loadPiece at e
  split at e
  · obtain rfl := Option.some.inj e
    exact h
  obtain ⟨u, hu, e⟩ := Option.bind_eq_some_iff.mp e
  have hu : RegFormed u := h.l1Room _ _ _ hu
  grind [RegFormed.linePage, RegFormed.checkData, RegFormed.pieceReady, RegFormed.joinFill, RegFormed.askFill]

theorem RegFormed.wellLoad {s : State} (h : RegFormed s) (c : Ic) (f : MemForm) (id l off : Nat) :
    RegFormed (s.wellLoad c f id l off).2 := by
  refine RegFormed.foldl_snd _ (fun x k h => ?_) _ h
  split
  · exact h
  · exact RegFormed.send h _

theorem RegFormed.loadLanes {s : State} (h : RegFormed s) (c : Ic) (f : MemForm) (id : Nat) (l : List (Nat × Target))
    (n : Nat) : RegFormed (s.loadLanes c f id l n).2 := by
  fun_induction State.loadLanes <;> grind [→ RegFormed.loadPiece, RegFormed.wellLoad]

theorem RegFormed.oweAs {s : State} (h : RegFormed s) (o : Owed) : RegFormed (s.oweAs o) := by
  unfold State.oweAs
  grind [RegFormed.modWarp]

theorem RegFormed.noteBytes {s : State} (h : RegFormed s) (c : Ic) (f : MemForm) (store : Bool) (ts : List (Nat × Target)) :
    RegFormed (s.noteBytes c f store ts) :=
  h.modWarp _ _ fun _ h => WarpForm.foldl (fun _ _ h => h.modThreads ..) _ h

theorem RegFormed.loadAll {s : State} (h : RegFormed s) (c : Ic) (f : MemForm) (ts : List (Nat × Target)) :
    RegFormedRes (s.loadAll c f ts) := by
  unfold State.loadAll
  grind [RegFormed.loadLanes, RegFormed.servedBy, RegFormed.oweAs, RegFormed.noteBytes, RegFormedRes, Res.next]

theorem RegFormed.execLd {s : State} (h : RegFormed s) (f : MemForm) : RegFormedOut (execLd f s) :=
  RegFormed.run h _ fun _ _ h _ => RegFormed.withTargets h _ _ _ _ fun _ _ h => RegFormed.loadAll h ..

theorem RegFormed.constTargets {s : State} (h : RegFormed s) (c : Ic) (f : MemForm) (l : List Nat) :
    RegFormed (s.constTargets c f l).2.2 := by
  fun_induction State.constTargets <;> grind [RegFormed.resolve]

theorem RegFormed.execLdc {s : State} (h : RegFormed s) (f : MemForm) : RegFormedOut (execLdc f s) := by
  refine RegFormed.run h _ fun c s h hc => ?_
  grind [RegFormed.constTargets, RegFormed.loadAll, regFormedRes_laneFault]

theorem RegFormed.prefetch {s : State} (h : RegFormed s) (c : Ic) (x : Xlat) (va : BitVec 64) : RegFormed (s.prefetch c x va) := by
  unfold State.prefetch
  grind [→ RegFormed.l1Room, RegFormed.askFill, RegFormed.linePage, RegFormed.foldl]

theorem RegFormed.prefetchL2 {s : State} (h : RegFormed s) (c : Ic) (x : Xlat) (va : Nat) : RegFormed (s.prefetchL2 c x va) := by
  unfold State.prefetchL2
  grind [RegFormed.send, RegFormed.forward]

theorem RegFormed.execPrf {s : State} (h : RegFormed s) (f : MemForm) : RegFormedOut (execPrf f s) := by
  refine RegFormed.run h _ fun c s h hc => ?_
  grind [RegFormed.resolveLanes, RegFormed.prefetchL2, RegFormed.prefetch, RegFormed.foldl, RegFormedRes, Res.next]

theorem RegFormed.laneOrder {s : State} (h : RegFormed s) (ts : List (Nat × Target)) : RegFormed (s.laneOrder ts).2 := by
  unfold State.laneOrder
  grind

theorem RegFormed.wellStore {s : State} (h : RegFormed s) (c : Ic) (f : MemForm) (l off v : Nat) :
    RegFormed (s.wellStore c f l off v) := by
  refine RegFormed.foldl _ (fun s k h => ?_) _ h
  split
  · exact h
  · exact RegFormed.send h _

theorem WarpForm.noteDirty {w : Warp} (h : WarpForm w) (line : Nat) : WarpForm (w.noteDirty line) := by
  unfold Warp.noteDirty
  split
  · exact h
  · split <;> exact h

theorem RegFormed.storeLane {s : State} (h : RegFormed s) (c : Ic) (f : MemForm) (l : Nat) (x : Target) {t : State}
    (e : s.storeLane c f l x = some t) : RegFormed t := by
  unfold State.storeLane at e
  grind [Option.map_eq_some_iff, RegFormed.wellStore, → RegFormed.l1Room, RegFormed.linePage, RegFormed.l1Mod,
    RegFormed.relsDrop, RegFormed.modWarp, WarpForm.noteDirty, RegFormed.checkData]

theorem RegFormed.storeLanes {s : State} (h : RegFormed s) (c : Ic) (f : MemForm) (l : List (Nat × Target)) :
    RegFormed (s.storeLanes c f l).2 := by
  fun_induction State.storeLanes <;> grind [→ RegFormed.storeLane]

theorem RegFormed.execSt {s : State} (h : RegFormed s) (f : MemForm) : RegFormedOut (execSt f s) := by
  refine RegFormed.run h _ fun c s h hc => ?_
  grind [RegFormed.withTargets, RegFormed.laneOrder, RegFormed.storeLanes, RegFormed.servedBy, RegFormed.noteBytes, RegFormedRes,
    Res.next]

theorem RegFormed.sendStrong {s : State} (h : RegFormed s) (c : Ic) (f : MemForm) (k : StrongKind) (seq : Nat) (owed : Option Nat)
    (x : Nat × Target) : RegFormed (s.sendStrong c f k seq owed x) := by
  unfold State.sendStrong
  grind [RegFormed.send, RegFormed.l1Yield, RegFormed.forward]

theorem RegFormed.strongAll {s : State} (h : RegFormed s) (i : Instr) (c : Ic) (f : MemForm) (k : StrongKind)
    (ts : List (Nat × Target)) : RegFormed (s.strongAll i c f k ts) := by
  unfold State.strongAll
  grind [RegFormed.sendStrong, RegFormed.oweAs, RegFormed.modWarp, WarpForm.modThreads, RegFormed.foldl]

theorem RegFormed.relaxed {s : State} (h : RegFormed s) (i : Instr) (f : MemForm) (k : Ic → StrongKind) :
    RegFormedOut (Machine.relaxed i f s k) := by
  refine RegFormed.run h _ fun c s h hc => ?_
  grind [RegFormed.withTargets, RegFormed.laneOrder, RegFormed.strongAll, RegFormedRes, Res.next]

theorem RegFormed.pairedAsk {s : State} (h : RegFormed s) (c : Ic) (f : MemForm) (k : StrongKind) (first : Bool)
    (x : Nat × Target) {t : State} (e : s.pairedAsk c f k first x = some t) : RegFormed t := by
  unfold State.pairedAsk at e
  grind [Option.map_eq_some_iff, RegFormed.linePage, RegFormed.sendCheck, RegFormed.askFill, → RegFormed.l1Room]

theorem RegFormed.pairedLane {s : State} (h : RegFormed s) (c : Ic) (f : MemForm) (k : StrongKind) (l : Nat) (y : Xlat) :
    RegFormed (s.pairedLane c f k l y).2.2 := by
  unfold State.pairedLane
  grind [RegFormed.l1Mod, RegFormed.relsDrop, RegFormed.modWarp, WarpForm.noteDirty, RegFormed.relSetIn]

theorem RegFormed.pairedAll {s : State} (h : RegFormed s) (c : Ic) (f : MemForm) (k : StrongKind) (ts : List (Nat × Target)) :
    RegFormed (s.pairedAll c f k ts) := by
  unfold State.pairedAll
  extract_lets id s1
  split
  next ws stamp s2 e =>
  have h2 : RegFormed (ws, stamp, s2).2.2 := by
    rw [← e]
    refine RegFormed.foldl_snd_snd _ (fun x t hx => ?_) _ h
    split
    · exact hx.sendStrong ..
    · exact hx.pairedLane ..
  grind [RegFormed.oweAs, RegFormed.finishAcq, RegFormed.modWarp]

theorem RegFormed.pairedAskAll {s : State} (h : RegFormed s) (c : Ic) (f : MemForm) (k : StrongKind) (first : Bool)
    (ts : List (Nat × Target)) : RegFormed (s.pairedAskAll c f k first ts) := by
  refine RegFormed.foldl _ (fun s x h => ?_) _ h
  cases e : s.pairedAsk c f k first x with
  | none => exact h
  | some t => exact h.pairedAsk _ _ _ _ _ e

theorem RegFormed.pairedNear {s : State} (h : RegFormed s) (c : Ic) (f : MemForm) (k : StrongKind) (ts : List (Nat × Target)) :
    RegFormedRes (s.pairedNear c f k ts) := by
  unfold State.pairedNear
  split
  · exact h
  split
  · exact h
  extract_lets s'
  have h' : RegFormed s' := RegFormed.modWarp (h.pairedAskAll ..) _ _ fun _ h => h
  clear_value s'
  split
  · exact h'
  grind [RegFormed.modWarp, RegFormed.releaseNow, RegFormed.laneOrder, RegFormed.pairedAll, RegFormedRes, Res.next]

theorem RegFormed.paired {s : State} (h : RegFormed s) (i : Instr) (f : MemForm) (k : Ic → StrongKind) :
    RegFormedOut (Machine.paired i f s k) := by
  refine RegFormed.run h _ fun c s h hc => ?_
  grind [RegFormed.withTargets, RegFormed.laneOrder, RegFormed.strongAll, RegFormed.pairedNear, RegFormed.withWritten,
    RegFormed.withRing, RegFormedRes, Res.next]

theorem RegFormed.noteFence {s : State} (h : RegFormed s) (c : Ic) (scope : Scope) : RegFormed (s.noteFence c scope) := by
  unfold State.noteFence
  grind [RegFormed.modWarp]

theorem RegFormed.execFence {s : State} (h : RegFormed s) (f : MemForm) : RegFormedOut (execFence f s) := by
  refine RegFormed.run h _ fun c s h hc => ?_
  grind [RegFormed.withRing, RegFormed.acquireEnd, RegFormed.withRelease, RegFormed.noteFence, RegFormed.acquire, RegFormedRes,
    Res.next]

/-! ### The blotter (R312 to R320, R386 to R394) -/

theorem RegFormed.sweep {s : State} (h : RegFormed s) (slice : Nat) : RegFormed (s.sweep slice) := by
  unfold State.sweep
  grind

theorem RegFormed.putMark {s : State} (h : RegFormed s) (ctx loc pa : Nat) (m : Mark) (wsure rsure : Bool) {t : State}
    (e : s.putMark ctx loc pa m wsure rsure = some t) : RegFormed t := by
  unfold State.putMark at e
  grind

theorem RegFormed.claimOwners {s : State} (h : RegFormed s) (ctx : Nat) (xs : List OvParty) : RegFormed (s.claimOwners ctx xs) := by
  unfold State.claimOwners
  grind [RegFormed.foldl]

theorem RegFormed.writeMarks {s : State} (h : RegFormed s) (ctx loc pa : Nat) (m : LineMarks)
    (entry : Option OvEntry) {t : State} (e : s.writeMarks ctx loc pa m entry = some t) : RegFormed t := by
  unfold State.writeMarks at e
  extract_lets line slice ph bare full wsure rsure s1 s2 m2 s3 at e
  have h1 : RegFormed s1 := h
  have h2 : RegFormed s2 := h1.sweep _
  have h3 : RegFormed s3 := RegFormed.foldl _ (fun s x h => by
    split <;> exact h) _ h2
  split at e
  · obtain ⟨u, hu, rfl⟩ := Option.map_eq_some_iff.mp e
    exact (h1.putMark _ _ _ _ _ _ hu).claimOwners ..
  split at e
  · refine RegFormed.putMark ?_ _ _ _ _ _ _ e
    exact h2
  split at e
  · contradiction
  · obtain ⟨u, hu, rfl⟩ := Option.map_eq_some_iff.mp e
    exact (h3.putMark _ _ _ _ _ _ hu).claimOwners ..

theorem RegFormed.readersMet {s : State} (h : RegFormed s) (a : Access) (m : LineMarks) : RegFormed (s.readersMet a m).2 := by
  unfold State.readersMet
  grind [RegFormed.draw]

/-- Marks that cannot be written leave the state as it is. -/
theorem RegFormed.writeMarks_getD {s : State} (h : RegFormed s) (ctx loc pa : Nat) (m : LineMarks) (entry : Option OvEntry) :
    RegFormed ((s.writeMarks ctx loc pa m entry).getD s) := by
  cases e : s.writeMarks ctx loc pa m entry with
  | none => exact h
  | some t => exact h.writeMarks _ _ _ _ _ e

theorem RegFormed.blotHere {s : State} (h : RegFormed s) (a : Access) : RegFormed (s.blotHere a).2 := by
  unfold State.blotHere
  grind [Option.bind_eq_some_iff, RegFormed.draw, → RegFormed.writeMarks, RegFormed.writeMarks_getD, RegFormed.readersMet]

theorem RegFormed.setPeerLine {s : State} (h : RegFormed s) (line : Nat) (m : LineMarks) : RegFormed (s.setPeerLine line m) := by
  unfold State.setPeerLine
  grind

theorem RegFormed.blotPeer {s : State} (h : RegFormed s) (a : Access) : RegFormed (s.blotPeer a).2 := by
  unfold State.blotPeer
  grind [RegFormed.draw, RegFormed.setPeerLine]

theorem RegFormed.blot {s : State} (h : RegFormed s) (a : Access) : RegFormed (s.blot a).2 := by
  unfold State.blot
  grind [RegFormed.blotPeer, RegFormed.blotHere]

/-! ### Well instructions (R230 to R236) -/

theorem RegFormed.waitOver {s : State} (h : RegFormed s) (x : Waiter) : RegFormed (s.waitOver x) := by
  unfold State.waitOver
  grind [→ RegFormed.warp, WarpForm.modThreads, RegFormed.setWarp]

theorem RegFormed.failThreads {s : State} (h : RegFormed s) (uid wid : Nat) (m : LaneMask) (code : FaultCode) (pc : Pc)
    (addr : BitVec 64) :
    RegFormed (s.failThreads uid wid m code pc addr) := by
  unfold State.failThreads
  grind [→ RegFormed.warp, WarpForm.modThreads, RegFormed.saveThreads, RegFormed.defer, RegFormed.setWarp]

theorem RegFormed.ldfeLeave {s : State} (h : RegFormed s) (x : Waiter) : RegFormed (s.ldfeLeave x) := by
  unfold State.ldfeLeave
  grind [RegFormed.settle, RegFormed.modOwed, RegFormed.endInterval]

theorem RegFormed.waitFault {s : State} (h : RegFormed s) (x : Waiter) (code : FaultCode) : RegFormed (s.waitFault x code) := by
  unfold State.waitFault
  grind [RegFormed.failThreads, RegFormed.ldfeLeave]

theorem RegFormed.ldfeTake {s : State} (h : RegFormed s) (uid wid key : Nat) : RegFormed (s.ldfeTake uid wid key).2 := by
  unfold State.ldfeTake
  grind [RegFormed.wellSetFull, RegFormed.acquire]

theorem RegFormed.serveLoad {s : State} (h : RegFormed s) (x : Waiter) (key : Nat) : RegFormed (s.serveLoad x key) := by
  unfold State.serveLoad
  grind [RegFormed.ldfeTake, RegFormed.modOwed, RegFormed.waitOver, RegFormed.endInterval]

theorem RegFormed.stfeFill {s : State} (h : RegFormed s) (uid wid key : Nat) (v : Word) : RegFormed (s.stfeFill uid wid key v) := by
  unfold State.stfeFill
  grind [RegFormed.relSet, RegFormed.wellSetFull, RegFormed.wellPutSoft]

theorem RegFormed.serveStore {s : State} (h : RegFormed s) (x : Waiter) (key : Nat) : RegFormed (s.serveStore x key) := by
  unfold State.serveStore
  grind [RegFormed.stfeFill, RegFormed.waitOver]

theorem RegFormed.serveWord {s : State} (h : RegFormed s) (n a : Nat) : RegFormed (serveWord n s a) := by
  fun_induction Machine.serveWord <;> grind [RegFormed.waitFault, RegFormed.serveLoad, RegFormed.serveStore]

theorem RegFormed.serve {s : State} (h : RegFormed s) (key : Nat) : RegFormed (s.serve key) := RegFormed.serveWord h ..

theorem RegFormed.blockLane {s : State} (h : RegFormed s) (c : Ic) (f : MemForm) (l off seq : Nat) (stfe : Bool)
    (v : Word) : RegFormed (s.blockLane c f l off seq stfe v) := h.modWarp _ _ fun _ h => h.modThreads ..

theorem RegFormed.ldfeLanes {s : State} (h : RegFormed s) (c : Ic) (f : MemForm) (seq : Nat) (l : List (Nat × Target)) :
    RegFormed (s.ldfeLanes c f seq l).2.2 := by
  fun_induction State.ldfeLanes <;> grind [RegFormed.ldfeTake, RegFormed.serve, RegFormed.blockLane]

theorem RegFormed.execLdfe {s : State} (h : RegFormed s) (f : MemForm) : RegFormedOut (execLdfe f s) := by
  refine RegFormed.run h _ fun c s h hc => ?_
  grind [RegFormed.withTargets, RegFormed.withRing, RegFormed.ldfeLanes, RegFormed.oweAs, RegFormed.endInterval, RegFormedRes]

theorem RegFormed.stfeLanes {s : State} (h : RegFormed s) (c : Ic) (f : MemForm) (seq : Nat) (l : List (Nat × Target)) :
    RegFormed (s.stfeLanes c f seq l) := by
  fun_induction State.stfeLanes <;> grind [RegFormed.blockLane, RegFormed.serve, RegFormed.stfeFill]

theorem RegFormed.execStfe {s : State} (h : RegFormed s) (f : MemForm) : RegFormedOut (execStfe f s) := by
  refine RegFormed.run h _ fun c s h hc => ?_
  grind [RegFormed.withTargets, RegFormed.withRelease, RegFormed.stfeLanes, RegFormedRes]

theorem RegFormed.fillWords {s : State} (h : RegFormed s) (b : Block) (off : Nat) (v : Word) (full : Bool) (rels : List Machine.Rel)
    (n : Nat) :
    RegFormed (s.fillWords b off v full rels n) := by
  fun_induction State.fillWords <;> grind [RegFormed.serve, RegFormed.relPut, RegFormed.relSet, RegFormed.wellSetFull,
    RegFormed.wellPutSoft]

theorem RegFormed.execWfill {s : State} (h : RegFormed s) (f : MemForm) : RegFormedOut (execWfill f s) := by
  refine RegFormed.run h _ fun c s h hc => ?_
  grind [RegFormed.withRelease, RegFormed.fillWords, RegFormedRes, Res.next]

theorem RegFormed.execGive {s : State} (h : RegFormed s) (f : MemForm) : RegFormedOut (execGive f s) := by
  refine RegFormed.run h _ fun c s h hc => ?_
  grind [RegFormed.withWritten, RegFormedRes]

theorem RegFormed.mapTakes {s : State} (h : RegFormed s) (n a : Nat) : RegFormed (mapTakes n s a) := by
  fun_induction Machine.mapTakes <;> grind [RegFormed.modCore, RegFormed.failThreads, RegFormed.resultIn, RegFormed.modBlock,
    RegFormed.oweMore, RegFormed.wakeWhere, RegFormed.wakeAcquire]

theorem RegFormed.takeWell {s : State} (h : RegFormed s) (core : Nat) : RegFormed (s.takeWell core) := RegFormed.mapTakes h ..

theorem RegFormed.execTake {s : State} (h : RegFormed s) (f : MemForm) : RegFormedOut (execTake f s) := by
  refine RegFormed.run h _ fun c s h hc => ?_
  grind [RegFormed.withRing, RegFormed.park, RegFormed.takeWell, RegFormedRes, Res.next, RegFormed.modCore, RegFormed.modWarp]

theorem RegFormed.execWmap {s : State} (h : RegFormed s) (f : MemForm) :
    RegFormedOut (execWmap f s) := RegFormed.run h _ fun _ _ h _ => h.owe _

/-! ### Homes, results and the L2 (R214, R227, R383, R384, R396 to R404, R417 to R419) -/

theorem RegFormed.ringFail {s : State} (h : RegFormed s) (r : RingWait) : RegFormed (s.ringFail r) := by
  unfold State.ringFail
  grind [RegFormed.failThreads]

theorem RegFormed.rwaitsWake {s : State} (h : RegFormed s) : RegFormed s.rwaitsWake := by
  unfold State.rwaitsWake
  grind [RegFormed.ringFail, RegFormed.wakeWhere, RegFormed.wakeAcquire, RegFormed.foldl]

theorem RegFormed.ringWake {s0 : State} (h : RegFormed s0) : RegFormed s0.ringWake := by
  unfold State.ringWake
  grind [RegFormed.rwaitsWake, RegFormed.flushAll, RegFormed.serve, RegFormed.takeWell, RegFormed.syncWake, RegFormed.phaseBar,
    RegFormed.foldl]

theorem RegFormed.happens {s : State} (h : RegFormed s) {r : Option State} (hr : ∀ t, r = some t → RegFormed t) :
    RegFormedOut (happens s r) := by
  cases r with
  | none => exact h
  | some t => exact RegFormed.ringWake (RegFormed.unstall (hr t rfl))

theorem RegFormed.execLoadSectorReturn {s : State} (h : RegFormed s) (owed piece : Nat) :
    RegFormedOut (execLoadSectorReturn owed piece s) := by
  refine RegFormed.happens h fun t e => ?_
  grind [RegFormed.settle, RegFormed.modWarp, WarpForm.puts, RegFormed.modOwed]

theorem RegFormed.respSent {s : State} (h : RegFormed s) (r : Strong) : RegFormed (s.respSent r) := by
  unfold State.respSent
  grind [RegFormed.modOwed]

theorem RegFormed.writeResults {s : State} (h : RegFormed s) (id : Nat) {t : State} (e : s.writeResults id = some t) :
    RegFormed t := by
  unfold State.writeResults at e
  grind [RegFormed.modWarp, WarpForm.puts, RegFormed.settle, RegFormed.modOwed, RegFormed.barsCheck]

theorem RegFormed.execResultWriteback {s : State} (h : RegFormed s) (owed : Nat) : RegFormedOut (execResultWriteback owed s) :=
  RegFormed.happens h fun _ e => RegFormed.writeResults (e := e) h ..

theorem RegFormed.l2Out {s : State} (h : RegFormed s) (x : L2Line) : RegFormed (s.l2Out x) := by
  unfold State.l2Out
  grind [RegFormed.setBand]

theorem RegFormed.l2Room {s : State} (h : RegFormed s) (line : Nat) : RegFormed (s.l2Room line) := by
  unfold State.l2Room
  grind [RegFormed.draw, RegFormed.l2Out]

theorem RegFormed.homeReady {s : State} (h : RegFormed s) (loc pa : Nat) {t : State} (e : s.homeReady loc pa = some t) :
    RegFormed t := by
  unfold State.homeReady at e
  grind [RegFormed.l2Room]

theorem RegFormed.readFault {s : State} (h : RegFormed s) (pa n : Nat) : RegFormed (s.readFault pa n).2 := by
  unfold State.readFault
  grind [RegFormed.eccDone]

theorem RegFormed.execL2Evict {s : State} (h : RegFormed s) (line : Nat) : RegFormedOut (execL2Evict line s) := by
  refine RegFormed.happens h fun t e => ?_
  grind [Option.map_eq_some_iff, RegFormed.l2Out]

theorem RegFormed.damaged {s : State} (h : RegFormed s) (line : Nat) : RegFormed (s.damaged line) := by
  unfold State.damaged
  split
  · exact h
  next ctx _ =>
    cases e : s.writeMarks ctx locLocal line { (s.readMarks ctx locLocal line).1 with
        parties := (s.readMarks ctx locLocal line).1.parties.filter OvParty.writer, broad := true, rmask := BitVec.allOnes 16 }
        (s.readMarks ctx locLocal line).2 with
    | none => simpa only [e, Option.getD_none] using h
    | some t => simpa only [e, Option.getD_some] using h.writeMarks _ _ _ _ _ e

theorem RegFormed.takeLine {s : State} (h : RegFormed s) (line : Nat) : RegFormed (s.takeLine line) := by
  unfold State.takeLine
  grind [RegFormed.l2Room]

theorem RegFormed.execL2Refill {s : State} (h : RegFormed s) (line : Nat) (ecc : EccOutcome) :
    RegFormedOut (execL2Refill line ecc s) := by
  refine RegFormed.happens h fun t e => ?_
  grind [RegFormed.takeLine, RegFormed.setBand, RegFormed.damaged]

theorem RegFormed.execBackInvalidate {s : State} (h : RegFormed s) (line : Nat) : RegFormedOut (execBackInvalidate line s) := by
  refine RegFormed.happens h fun t e => ?_
  grind

theorem RegFormed.unfilter {s : State} (h : RegFormed s) (a : Access) : RegFormed (s.unfilter a) := by
  unfold State.unfilter
  grind [RegFormed.l1Mod]

theorem RegFormed.execHomeMarkCheck {s : State} (h : RegFormed s) (msg : Nat) : RegFormedOut (execHomeMarkCheck msg s) := by
  refine RegFormed.happens h fun t e => ?_
  grind [Option.map_eq_some_iff, RegFormed.blot, RegFormed.defer, RegFormed.unfilter, → RegFormed.homeReady, RegFormed.dropMsg,
    RegFormed.send]

theorem RegFormed.execMarkCheckAck {s : State} (h : RegFormed s) (msg : Nat) : RegFormedOut (execMarkCheckAck msg s) := by
  refine RegFormed.happens h fun t e => ?_
  grind [RegFormed.modWarp, RegFormed.dropMsg]

theorem RegFormed.damageStore {s : State} (h : RegFormed s) (f : Fill) : RegFormed (s.damageStore f) := by
  unfold State.damageStore
  grind [RegFormed.draw]

theorem RegFormed.fillServe {s : State} (h : RegFormed s) (m : Msg) (f : Fill) (ecc : EccOutcome) {t : State}
    (e : s.fillServe m f ecc = some t) : RegFormed t := by
  unfold State.fillServe at e
  grind [Option.map_eq_some_iff, RegFormed.damageStore, RegFormed.servedBy, RegFormed.eccDone, → RegFormed.homeReady,
    RegFormed.foldl]

theorem RegFormed.fillPiece {s : State} (h : RegFormed s) (f : Fill) (ref : Nat × Nat) : RegFormed (s.fillPiece f ref) := by
  unfold State.fillPiece
  grind [RegFormed.pieceReady, RegFormed.modOwed]

theorem RegFormed.execL1Fill {s : State} (h : RegFormed s) (msg : Nat) : RegFormedOut (execL1Fill msg s) := by
  refine RegFormed.happens h fun t e => ?_
  grind [RegFormed.fillPiece, RegFormed.relsMove, RegFormed.relsDrop, RegFormed.l1Mod, RegFormed.foldl, RegFormed.dropMsg]

theorem RegFormed.bindWake {s : State} (h : RegFormed s) (addr n : Nat) : RegFormed (s.bindWake addr n) := by
  unfold State.bindWake
  grind [RegFormed.wakeWhere, RegFormed.foldl]

theorem RegFormed.strongFault {s : State} (h : RegFormed s) (r : Strong) (f : FaultRec) : RegFormed (s.strongFault r f) := by
  unfold State.strongFault
  grind [RegFormed.modWarp, WarpForm.modThreads, RegFormed.defer, RegFormed.settle, RegFormed.modOwed, RegFormed.acqSkip]

theorem RegFormed.metRelaxed {s : State} (h : RegFormed s) (uid wid : Nat) (met : List Machine.Rel) :
    RegFormed (s.metRelaxed uid wid met) := by
  unfold State.metRelaxed
  grind [RegFormed.modWarp]

theorem RegFormed.strongDone {s : State} (h : RegFormed s) (r : Strong) (old : Nat) (met : List Machine.Rel) :
    RegFormed (s.strongDone r old met) := by
  unfold State.strongDone
  grind [RegFormed.settle, RegFormed.modOwed, RegFormed.acqLane, RegFormed.metRelaxed]

theorem RegFormed.releaseFirst {s : State} (h : RegFormed s) (r : Strong) : RegFormed (s.releaseFirst r) := by
  unfold State.releaseFirst
  grind [RegFormed.releaseNow, RegFormed.releaseDue]

theorem RegFormed.bindOutcome {s : State} (h : RegFormed s) (r : Strong) (old : Nat) : RegFormed (s.bindOutcome r old) := by
  unfold State.bindOutcome
  split
  · split
    · exact h
    · exact h.modWarp _ _ fun _ h => h.modThreads ..
  · exact h

theorem RegFormed.strongRels {s : State} (h : RegFormed s) (r : Strong) (at' : Nat) (met : List Machine.Rel) :
    RegFormed (s.strongRels r at' met) := by
  unfold State.strongRels
  grind [RegFormed.relSet]

theorem RegFormed.strongHere {s : State} (h : RegFormed s) (r : Strong) : RegFormed (s.strongHere r) := by
  unfold State.strongHere
  grind [RegFormed.releaseFirst, RegFormed.softBytes, RegFormed.strongRels, RegFormed.respSent, RegFormed.strongDone,
    RegFormed.bindOutcome, RegFormed.bindWake]

theorem RegFormed.noteAtomic {s : State} (h : RegFormed s) (r : Strong) : RegFormed (s.noteAtomic r) := by
  unfold State.noteAtomic
  grind [RegFormed.modWarp]

theorem RegFormed.holdMsg {s : State} (h : RegFormed s) (id : Nat) : RegFormed (s.holdMsg id) := by
  unfold State.holdMsg
  grind

theorem RegFormed.strongServe {s : State} (h : RegFormed s) (m : Msg) (r : Strong) {t : State} (e : s.strongServe m r = some t) :
    RegFormed t := by
  unfold State.strongServe at e
  split at e
  · contradiction
  split at e
  · grind [RegFormed.holdMsg]
  split at e
  · contradiction
  obtain ⟨u, hu, rfl⟩ := Option.map_eq_some_iff.mp e
  have hu : RegFormed u := h.homeReady _ _ hu
  grind [RegFormed.servedBy, RegFormed.readFault, RegFormed.dropMsg, RegFormed.strongFault, RegFormed.blot, RegFormed.noteAtomic,
    RegFormed.strongHere]

theorem RegFormed.execHomeSliceAccess {s : State} (h : RegFormed s) (x : Service) : RegFormedOut (execHomeSliceAccess x s) := by
  refine RegFormed.happens h fun t e => ?_
  grind [Option.map_eq_some_iff, → RegFormed.fillServe, → RegFormed.strongServe, → RegFormed.homeReady, RegFormed.dropMsg]

theorem RegFormed.wellStoreAt {s : State} (h : RegFormed s) (key pos size new : Nat) :
    RegFormed (s.wellStoreAt key pos size new) := by
  unfold State.wellStoreAt
  grind [RegFormed.wellByte, RegFormed.foldl]

theorem RegFormed.wellHere {s : State} (h : RegFormed s) (r : Strong) : RegFormed (s.wellHere r) := by
  unfold State.wellHere
  grind [RegFormed.strongFault, RegFormed.releaseFirst, RegFormed.wellStoreAt, RegFormed.relSet, RegFormed.strongRels,
    RegFormed.strongDone]

theorem RegFormed.execWellSwitchAccess {s : State} (h : RegFormed s) (x : Service) : RegFormedOut (execWellSwitchAccess x s) := by
  refine RegFormed.happens h fun t e => ?_
  split at e
  · contradiction
  split at e
  · split at e
    · contradiction
    obtain rfl := Option.some.inj e
    refine RegFormed.wellHere (RegFormed.dropMsg ?_ _) _
    split
    · exact h.setBad ..
    · exact h
  · contradiction

theorem RegFormed.execLineWriteback {s : State} (h : RegFormed s) (msg : Nat) : RegFormedOut (execLineWriteback msg s) := by
  refine RegFormed.happens h fun t e => ?_
  grind [Option.map_eq_some_iff, RegFormed.holdMsg, RegFormed.relsMove, RegFormed.softWrite, RegFormed.bindWake,
    → RegFormed.homeReady, RegFormed.dropMsg, RegFormed.send]

theorem RegFormed.execWritebackAck {s : State} (h : RegFormed s) (msg : Nat) : RegFormedOut (execWritebackAck msg s) := by
  refine RegFormed.happens h fun t e => ?_
  grind [RegFormed.wbDone, RegFormed.foldl, RegFormed.dropMsg]

theorem RegFormed.migrationRecord {s : State} (h : RegFormed s) (die ctx va loc dev : Nat) :
    RegFormed (s.migrationRecord die ctx va loc dev) := by
  unfold State.migrationRecord
  grind [RegFormed.forwardLines, RegFormed.ringWrite, RegFormed.modCtx, RegFormed.notice]

theorem RegFormed.countForward {s : State} (h : RegFormed s) (ctx va loc dev die : Nat) :
    RegFormed (s.countForward ctx va loc dev die) := by
  unfold State.countForward
  grind [RegFormed.migrationRecord]

theorem RegFormed.execForwardedLineRequest {s : State} (h : RegFormed s) (msg : Nat) :
    RegFormedOut (execForwardedLineRequest msg s) := by
  refine RegFormed.happens h fun t e => ?_
  grind [RegFormed.countForward, RegFormed.dropMsg]

theorem RegFormed.deferWb {s : State} (h : RegFormed s) (uid wid : Nat) (r : FaultRec) : RegFormed (s.deferWb uid wid r) := by
  unfold State.deferWb
  grind [RegFormed.defer]

theorem RegFormed.refuseWrite {s : State} (h : RegFormed s) (m : Msg) (x : XFault) : RegFormed (s.refuseWrite m x) := by
  unfold State.refuseWrite
  grind [RegFormed.strongFault, RegFormed.dropMsg, RegFormed.deferWb, RegFormed.foldl]

theorem RegFormed.execMigrationHoldTimeout {s : State} (h : RegFormed s) (msg : Nat) :
    RegFormedOut (execMigrationHoldTimeout msg s) := by
  refine RegFormed.happens h fun t e => ?_
  grind [RegFormed.refuseWrite]

theorem RegFormed.execDeferredFaultDelivery {s : State} (h : RegFormed s) (uid wid : Nat) :
    RegFormedOut (execDeferredFaultDelivery uid wid s) := by
  refine RegFormed.happens h fun t e => ?_
  grind [Option.map_eq_some_iff, RegFormed.takeFault]

theorem RegFormed.execHoldingSlotReread {s : State} (h : RegFormed s) (ctx : Nat) : RegFormedOut (execHoldingSlotReread ctx s) := by
  refine RegFormed.happens h fun t e => ?_
  grind [RegFormed.reread]

theorem RegFormed.execAcquireFloorRecompute {s : State} (h : RegFormed s) (ctx : Nat) :
    RegFormedOut (execAcquireFloorRecompute ctx s) := by
  refine RegFormed.happens h fun t e => ?_
  grind [RegFormed.modCtx]

theorem RegFormed.execQueuedWellRelease {s : State} (h : RegFormed s) (core : Nat) :
    RegFormedOut (execQueuedWellRelease core s) := by
  refine RegFormed.happens h fun t e => ?_
  grind [RegFormed.modCore]

/-! ### Reads and writes of the engines (R237 to R239) -/

theorem regFormed_engThen {α β : Type} {x : Eng α} {k : α → State → Eng β} (hx : RegFormed x.2)
    (hk : ∀ a s, RegFormed s → RegFormed (k a s).2) :
    RegFormed (engThen x k).2 := by
  unfold Machine.engThen
  grind

theorem RegFormed.engHome {s : State} (h : RegFormed s) (e : Engine) (loc pa : Nat) {t : State}
    (eq : s.engHome e loc pa = some t) : RegFormed t := by
  unfold State.engHome at eq
  grind [RegFormed.takeLine, → RegFormed.homeReady]

theorem RegFormed.engMark {s : State} (h : RegFormed s) (e : Engine) (write : Bool) (x : Xlat) (line : Nat) (ps : Parts) :
    RegFormed (s.engMark e write x line ps).2 := by
  unfold State.engMark
  grind [RegFormed.blot]

theorem RegFormed.partsFault {s : State} (h : RegFormed s) (pa : Nat) (ps : Parts) : RegFormed (s.partsFault pa ps).2 := by
  refine RegFormed.foldl_snd _ (fun x p h => ?_) _ h
  split
  · exact h
  · exact h.readFault ..

theorem RegFormed.engOpen {s : State} (h : RegFormed s) (e : Engine) (units : List TlbUnit) (line : Nat) (ps : Parts)
    (write marked : Bool) :
    RegFormed (s.engOpen e units line ps write marked).2 := by
  unfold State.engOpen
  grind [RegFormed.resolve, → RegFormed.engHome, RegFormed.partsFault, RegFormed.forward, regFormed_engThen, RegFormed.engMark]

theorem RegFormed.engLine {s : State} (h : RegFormed s) (e : Engine) (units : List TlbUnit) (line : Nat) (ps : Parts)
    (marked : Bool) :
    RegFormed (s.engLine e units line ps marked).2 := by
  unfold State.engLine
  grind [regFormed_engThen, RegFormed.engOpen, RegFormed.drawBytes]

theorem RegFormed.engRead {s : State} (h : RegFormed s) (e : Engine) (units : List TlbUnit) (a n : Nat) (marked : Bool) :
    RegFormed (s.engRead e units a n marked).2 := by
  unfold State.engRead
  grind [regFormed_engThen, RegFormed.engLine, RegFormed.foldl_snd]

theorem RegFormed.engNat {s : State} (h : RegFormed s) (e : Engine) (units : List TlbUnit) (a n : Nat) :
    RegFormed (s.engNat e units a n).2 := by
  unfold State.engNat
  grind [regFormed_engThen, RegFormed.engRead]

theorem RegFormed.engPut {s : State} (h : RegFormed s) (e : Engine) (units : List TlbUnit) (line : Nat) (ps : Parts)
    (new : List Byte → List Byte) :
    RegFormed (s.engPut e units line ps new).2 := by
  unfold State.engPut
  grind [regFormed_engThen, RegFormed.engOpen, RegFormed.drawBytes, RegFormed.bindWake, RegFormed.softWrite, RegFormed.wellWrite,
    RegFormed.foldl]

theorem RegFormed.engWrite {s : State} (h : RegFormed s) (e : Engine) (units : List TlbUnit) (n : Nat) (bs : List Byte) :
    RegFormed (s.engWrite e units n bs).2 := by
  unfold State.engWrite
  grind [regFormed_engThen, RegFormed.engPut, RegFormed.foldl_snd]

theorem RegFormed.engWellRead {s : State} (h : RegFormed s) (e : Engine) (off n : Nat) : RegFormed (s.engWellRead e off n).2 := by
  unfold State.engWellRead
  grind [RegFormed.engRead]

theorem RegFormed.engWellWrite {s : State} (h : RegFormed s) (e : Engine) (off : Nat) (bs : List Byte) :
    RegFormed (s.engWellWrite e off bs).2 := by
  unfold State.engWellWrite
  grind [RegFormed.engWrite]

theorem RegFormed.withRecord {s : State} (h : RegFormed s) (c : Ic) (i : Instr) (a : BitVec 64) (n : Nat) {k : Nat → State → Res}
    (hk : ∀ v t, RegFormed t → RegFormedRes (k v t)) : RegFormedRes (withRecord s c i a n k) := by
  have hasks (w : Warp) (line now : Nat) (hw : WarpForm w) : WarpForm (w.asks line now) := by
    unfold Warp.asks
    split <;> exact hw
  unfold Machine.withRecord
  grind [RegFormedRes, RegFormed.engRead, RegFormed.modWarp]

theorem RegFormed.startCommand {s : State} (h : RegFormed s) {c : Ic} (hc : IcForm c) (i : Instr) (token : Nat) (args : List Nat)
    (checks : List (Option FaultRec)) :
    RegFormedRes (s.startCommand c i token args checks) := by
  unfold State.startCommand
  grind [RegFormed.issueCommand, RegFormedRes, Res.next]

theorem RegFormed.engNibs {s : State} (h : RegFormed s) (e : Engine) (units : List TlbUnit) (ns : List Nat) :
    RegFormed (s.engNibs e units ns).2 := by
  unfold State.engNibs
  grind [regFormed_engThen, RegFormed.engLine, RegFormed.foldl_snd]

theorem RegFormed.engNibPuts {s : State} (h : RegFormed s) (e : Engine) (units : List TlbUnit) (en : Nat) (xs : List (Nat × Nat)) :
    RegFormed (s.engNibPuts e units en xs).2 := by
  unfold State.engNibPuts
  grind [regFormed_engThen, RegFormed.engPut, RegFormed.foldl_snd]

theorem RegFormed.denseGets {s : State} (h : RegFormed s) (e : Engine) (d : Machine.Dense) (n : Nat) (is : List Nat) :
    RegFormed (s.denseGets e d n is).2 := by
  unfold State.denseGets
  grind [regFormed_engThen, RegFormed.engNibs]

theorem RegFormed.tileSaved {s : State} (h : RegFormed s) (uid t i n : Nat) : RegFormed (s.tileSaved uid t i n) := by
  unfold State.tileSaved
  grind [RegFormed.saveMod]

theorem RegFormed.accSaved {s : State} (h : RegFormed s) (uid n : Nat) : RegFormed (s.accSaved uid n) := by
  unfold State.accSaved
  grind [RegFormed.saveMod, RegFormed.foldl]

theorem BlockForm.tileNibPut {b : Block} (h : BlockForm b) (t i n v : Nat) : BlockForm (b.tileNibPut t i n v) := ⟨cwf_cset h.1 .., h.2⟩

theorem RegFormed.densePuts {s : State} (h : RegFormed s) (e : Engine) (d : Machine.Dense) (n : Nat) (xs : List (Nat × Nat)) :
    RegFormed (s.densePuts e d n xs).2 := by
  unfold State.densePuts
  grind [RegFormed.engNibPuts, RegFormed.tileSaved, RegFormed.modBlock, BlockForm.tileNibPut, RegFormed.foldl]

theorem RegFormed.moveUnit {s : State} (h : RegFormed s) (e : Engine) (t : Tensor) (store : Bool) (g : Nat) (d : Machine.Dense)
    (xs : List BoxElem) :
    RegFormed (s.moveUnit e t store g d xs).2 := by
  unfold State.moveUnit
  grind [regFormed_engThen, RegFormed.denseGets, RegFormed.engNibPuts, RegFormed.engNibs, RegFormed.densePuts]

theorem RegFormed.walkAhead {s : State} (h : RegFormed s) (core ctx : Nat) (pages : List Nat) :
    RegFormed (s.walkAhead core ctx pages) := by
  unfold State.walkAhead
  grind [RegFormed.draw, RegFormed.pickPte, RegFormed.foldl]

/-- Each of the five reads and writes of a bag hands its state to the next. -/
theorem RegFormed.poolBag {s : State} (h : RegFormed s) (e : Engine) (b : Nat) : RegFormed (s.poolBag e b).2 := by
  unfold State.poolBag
  refine regFormed_engThen (h.engNat ..) fun lo s h => regFormed_engThen (h.engNat ..) fun hi s h => ?_
  split
  · exact h
  refine regFormed_engThen (RegFormed.foldl_snd _ (fun r k hr => regFormed_engThen hr fun l s h =>
      regFormed_engThen (h.engNat ..) fun i s h => h) _ h)
    fun idx s h => ?_
  split
  · exact h
  refine regFormed_engThen (RegFormed.foldl_snd _ (fun r x hr => regFormed_engThen hr fun ys s h =>
      regFormed_engThen (h.engRead ..) fun row s h => ?_) _ h)
    fun ys s h => regFormed_engThen (h.engWellWrite ..) fun _ s h => h
  split
  · exact h
  · exact regFormed_engThen (h.engNat ..) fun w s h => h

theorem RegFormed.liveMarks {s : State} (h : RegFormed s) (ctx : Nat) (x : Xlat) : RegFormed (s.liveMarks ctx x).2 := by
  unfold State.liveMarks
  grind [RegFormed.draw]

theorem RegFormed.copyPlace {s : State} (h : RegFormed s) (e : Engine) (va acc : Nat) (need : Need) :
    RegFormed (s.copyPlace e va acc need).2 := by
  unfold State.copyPlace
  grind [RegFormed.xlat, → RegFormed.engHome, RegFormed.forward]

theorem RegFormed.copyBand {s : State} (h : RegFormed s) (e : Engine) (src dst : Nat) : RegFormed (s.copyBand e src dst).2 := by
  unfold State.copyBand
  grind [regFormed_engThen, RegFormed.copyPlace, RegFormed.liveMarks, RegFormed.eccDone, RegFormed.drawBytes,
    RegFormed.softBytes, RegFormed.bindWake, RegFormed.setBand]

theorem RegFormed.copyStore {s : State} (h : RegFormed s) (e : Engine) (src off : Nat) : RegFormed (s.copyStore e src off).2 := by
  unfold State.copyStore
  refine regFormed_engThen (h.engRead ..) fun bs s h => ?_
  split
  · exact h
  split
  · exact h
  · exact h.homeBytes _ _

theorem RegFormed.engUnit {s : State} (h : RegFormed s) (e : Engine) (k : Nat) : RegFormed (s.engUnit e k).2 := by
  unfold State.engUnit
  grind [regFormed_engThen, RegFormed.engWellRead, RegFormed.engWrite, RegFormed.engRead, RegFormed.engWellWrite,
    RegFormed.copyStore, RegFormed.copyBand, RegFormed.moveUnit, RegFormed.poolBag]

theorem RegFormed.runUnits {s : State} (h : RegFormed s) (n : Nat) (a : Engine) (b : Nat) : RegFormed (runUnits n s a b).s := by
  fun_induction Machine.runUnits <;> grind [RegFormed.engUnit]

theorem RegFormed.quillAhead {s : State} (h : RegFormed s) (id : Nat) : RegFormed (s.quillAhead id) := by
  unfold State.quillAhead
  grind [RegFormed.walkAhead]

theorem RegFormed.poisonBarrier {s : State} (h : RegFormed s) (e : Engine) : RegFormed (s.poisonBarrier e) := by
  unfold State.poisonBarrier
  grind [RegFormed.wellSetFull, RegFormed.wellPutSoft, RegFormed.setPoison, RegFormed.serve]

theorem RegFormed.countUnit {s : State} (h : RegFormed s) (e : Engine) (n : Nat) : RegFormed (s.countUnit e n).2 := by
  unfold State.countUnit
  grind [RegFormed.poisonBarrier, RegFormed.wellPutSoft, RegFormed.serve, RegFormed.relSet, RegFormed.wellSetFull]

theorem RegFormed.failEngine {s : State} (h : RegFormed s) (e : Engine) (r : FaultRec) : RegFormed (s.failEngine e r) := by
  unfold State.failEngine
  grind [RegFormed.poisonBarrier, RegFormed.report, RegFormed.completeEngine]

theorem RegFormed.execStageBarrierCount {s : State} (h : RegFormed s) (eng : Nat) : RegFormedOut (execStageBarrierCount eng s) := by
  refine RegFormed.happens h fun t e => ?_
  grind [RegFormed.engUnit, RegFormed.failEngine, RegFormed.countUnit, RegFormed.completeEngine, RegFormed.quillAhead,
    RegFormed.modEngine]

theorem RegFormed.collOwn {s : State} (h : RegFormed s) (e : Engine) (g : CollGroup) : RegFormed (s.collOwn e g).2 := by
  unfold State.collOwn
  grind [RegFormed.engRead, regFormed_engThen]

theorem RegFormed.collWithOwn {s : State} (h : RegFormed s) (e : Engine) (g : CollGroup) : RegFormed (s.collWithOwn e g).2 := by
  unfold State.collWithOwn
  grind [regFormed_engThen, RegFormed.collOwn, RegFormed.modEngine]

theorem RegFormed.collStore {s : State} (h : RegFormed s) (e : Engine) (g : CollGroup) (r : List Byte) :
    RegFormed (s.collStore e g r).2 := by
  unfold State.collStore
  grind [RegFormed.engWrite]

theorem RegFormed.runColl {s : State} (h : RegFormed s) (e : Engine) : RegFormed (s.runColl e).s := by
  unfold State.runColl
  grind [RegFormed.collWithOwn, RegFormed.collStore]

theorem RegFormed.execCollPartialReceive {s : State} (h : RegFormed s) (eng child : Nat) (fromRoot : Bool) (x : CollPartial) :
    RegFormedOut (execCollPartialReceive eng child fromRoot x s) := by
  refine RegFormed.happens h fun t e => ?_
  grind [RegFormed.failEngine, RegFormed.collWithOwn, RegFormed.modEngine]

theorem RegFormed.runEngine {s : State} (h : RegFormed s) (e : Engine) (n : Nat) : RegFormed (s.runEngine e n).s := by
  unfold State.runEngine
  grind [RegFormed.runColl, RegFormed.engRead, RegFormed.runUnits, RegFormed.engUnit]

theorem RegFormed.execEngineCompletion {s : State} (h : RegFormed s) (x : EngineRun) : RegFormedOut (execEngineCompletion x s) := by
  refine RegFormed.happens h fun t e => ?_
  grind [RegFormed.runEngine, RegFormed.completeEngine, RegFormed.failEngine, RegFormed.quillAhead, RegFormed.modEngine]

theorem RegFormed.execCollAbortReceive {s : State} (h : RegFormed s) (eng : Nat) (code : Byte) :
    RegFormedOut (execCollAbortReceive eng code s) := by
  refine RegFormed.happens h fun t e => ?_
  grind [RegFormed.report, RegFormed.completeEngine]

theorem RegFormed.execCollTimeout {s : State} (h : RegFormed s) (eng : Nat) : RegFormedOut (execCollTimeout eng s) := by
  refine RegFormed.happens h fun t e => ?_
  grind [RegFormed.completeEngine]

/-! ### Work creation (R193 to R203) -/

theorem RegFormed.newGrid {s : State} (h : RegFormed s) (g : Grid) : RegFormed (s.newGrid g).2 := by
  unfold State.newGrid
  grind [RegFormed.modCtx]

theorem RegFormed.execLaunch {s : State} (h : RegFormed s) (f : EngForm) : RegFormedOut (execLaunch f s) := by
  refine RegFormed.run h _ fun c s h hc => ?_
  grind [regFormedRes_illegal, RegFormed.withWritten, RegFormed.record, RegFormed.releaseNow, RegFormed.forwardLines,
    RegFormed.issueCommand, RegFormed.next, RegFormed.newGrid, RegFormedRes]

theorem RegFormed.takeSpares {s : State} (h : RegFormed s) (l : List Nat) (n : Nat) (a : List (Nat × Nat × Nat))
    {x : List (Nat × Bank) × State} (e : takeSpares l s n a = some x) : RegFormed x.2 := by
  fun_induction Machine.takeSpares generalizing x <;> grind [→ RegFormed.takeRun, RegFormed.clearRun]

theorem RegFormed.fillView {s : State} (h : RegFormed s) (b : Block) (v : View) : RegFormed (s.fillView b v) := by
  unfold State.fillView
  grind [RegFormed.wellWrite]

theorem RegFormed.execSpawn {s : State} (h : RegFormed s) (f : EngForm) : RegFormedOut (execSpawn f s) := by
  refine RegFormed.run h _ fun c s h hc => RegFormed.withWritten h _ _ fun s h => ?_
  split
  · trivial
  next v s1 e1 =>
  have h1 : RegFormed s1 := by grind [RegFormed.record]
  extract_lets nv
  split
  · trivial
  next bs s2 e2 =>
  have h2 : RegFormed s2 := by grind [RegFormed.linesAt]
  split
  · trivial
  extract_lets
  split
  · trivial
  next bank s3 e3 =>
  have h3 : RegFormed s3 := h2.takeSpares _ _ _ e3
  extract_lets s4
  split
  next e s5 e5 =>
  have h5 : RegFormed s5 := by
    have : RegFormed s4 := by grind [RegFormed.releaseNow, RegFormed.forwardLines]
    grind [RegFormed.issueCommand]
  extract_lets b s6 s7 s8
  have hb : BlockForm b := ⟨rfl, rfl, rfl⟩
  have h6 : RegFormed s6 := h5.addBlock hb
  have h7 : RegFormed s7 := RegFormed.foldl _ (fun _ _ h => h.fillView ..) _ h6
  have h8 : RegFormed s8 := h7.modBlock _ fun _ h => h
  exact RegFormed.completeEngine h8 ..

theorem RegFormed.countCommand {s : State} (h : RegFormed s) (c : Ic) : RegFormed (s.countCommand c) := by
  unfold State.countCommand
  grind [RegFormed.modWarp]

theorem RegFormed.execMerge {s : State} (h : RegFormed s) (f : EngForm) : RegFormedOut (execMerge f s) := by
  refine RegFormed.run h _ fun c s h hc => ?_
  grind [RegFormed.withRelease, RegFormed.endThreads, RegFormed.countCommand, RegFormedRes, Res.next, RegFormed.modBlock]

theorem RegFormed.execSyncSpawn {s : State} (h : RegFormed s) (f : EngForm) : RegFormedOut (execSyncSpawn f s) := by
  refine RegFormed.run h _ fun c s h hc => ?_
  grind [RegFormed.withRing, RegFormed.countCommand, RegFormed.acquireEnd, RegFormed.park, RegFormedRes, Res.next,
    RegFormed.modBlock]

theorem RegFormed.submit {s : State} (h : RegFormed s) (t : Machine.Task) : RegFormed (s.submit t) := by
  unfold State.submit
  grind [RegFormed.taskWrite]

theorem RegFormed.execTsub {s : State} (h : RegFormed s) (f : EngForm) : RegFormedOut (execTsub f s) := by
  refine RegFormed.run h _ fun c s h hc => ?_
  grind [RegFormed.withWritten, RegFormed.record, regFormedRes_illegal, RegFormed.linesAt, RegFormed.forwardLines,
    RegFormed.releaseNow, RegFormed.issueCommand, RegFormed.submit, RegFormed.next, RegFormed.completeEngine, RegFormedRes]

theorem RegFormed.taskDrop {s : State} (h : RegFormed s) (u : Machine.Task) (stamp : Nat) : RegFormed (s.taskDrop u stamp) := by
  unfold State.taskDrop
  grind [RegFormed.taskWrite, RegFormed.modTask, RegFormed.reportFailed, RegFormed.taskEnd]

theorem RegFormed.execTsig {s : State} (h : RegFormed s) (f : EngForm) : RegFormedOut (execTsig f s) := by
  refine RegFormed.run h _ fun c s h hc => ?_
  grind [RegFormed.withWritten, RegFormed.record, RegFormed.countCommand, RegFormed.releaseNow, RegFormed.taskDrop, RegFormedRes,
    Res.next]

/-! ### Engine commands (R233, R245 to R259) -/

theorem RegFormed.execAcopy {s : State} (h : RegFormed s) (f : EngForm) : RegFormedOut (execAcopy f s) :=
  RegFormed.run h _ fun _ _ h hc => h.startCommand hc ..

theorem RegFormed.execAcopyWsl {s : State} (h : RegFormed s) (f : EngForm) : RegFormedOut (execAcopyWsl f s) :=
  RegFormed.run h _ fun _ _ h hc => h.startCommand hc ..

theorem RegFormed.execAcopySb {s : State} (h : RegFormed s) (f : EngForm) : RegFormedOut (execAcopySb f s) :=
  RegFormed.run h _ fun _ _ h hc => h.startCommand hc ..

theorem RegFormed.withTensor {s : State} (h : RegFormed s) (c : Ic) (i : Instr) (pair : Nat) {k : Nat → Tensor → State → Res}
    (hk : ∀ v x t, RegFormed t → RegFormedRes (k v x t)) : RegFormedRes (withTensor s c i pair k) := by
  unfold Machine.withTensor
  grind [regFormedRes_illegal, RegFormed.withRecord]

theorem RegFormed.startBox {s : State} (h : RegFormed s) {c : Ic} (hc : IcForm c) (i : Instr) (token : Nat) (args : List Nat)
    (checks : List (Option FaultRec)) :
    RegFormedRes (s.startBox c i token args checks) := by
  unfold State.startBox
  grind [RegFormed.issueCommand, RegFormed.quillAhead, RegFormedRes, Res.next]

theorem RegFormed.execAcopyT {s : State} (h : RegFormed s) (f : EngForm) : RegFormedOut (execAcopyT f s) := by
  refine RegFormed.run h _ fun c s h hc => ?_
  grind [RegFormed.withTensor, RegFormed.startBox, RegFormedRes]

theorem RegFormed.execTld {s : State} (h : RegFormed s) (f : EngForm) : RegFormedOut (execTld f s) :=
  RegFormed.run h _ fun _ _ h hc => RegFormed.withTensor h _ _ _ fun _ _ _ h => RegFormed.startBox h hc ..

theorem RegFormed.execTst {s : State} (h : RegFormed s) (f : EngForm) : RegFormedOut (execTst f s) :=
  RegFormed.run h _ fun _ _ h hc => RegFormed.withTensor h _ _ _ fun _ _ _ h => RegFormed.startBox h hc ..

theorem RegFormed.execGpool {s : State} (h : RegFormed s) (f : EngForm) : RegFormedOut (execGpool f s) :=
  RegFormed.run h _ fun _ _ h hc => RegFormed.withRecord h _ _ _ _ fun _ _ h => h.startCommand hc ..

theorem RegFormed.execColl {s : State} (h : RegFormed s) (f : EngForm) : RegFormedOut (execColl f s) := by
  refine RegFormed.run h _ fun c s h hc => ?_
  grind [RegFormed.withRecord, RegFormed.startCommand]

theorem RegFormed.execSend {s : State} (h : RegFormed s) (f : EngForm) : RegFormedOut (execSend f s) :=
  RegFormed.run h _ fun _ _ h hc => h.startCommand hc ..

theorem RegFormed.execRingAppend {s : State} (h : RegFormed s) (eng : Nat) : RegFormedOut (execRingAppend eng s) := by
  refine RegFormed.happens h fun t e => ?_
  grind [RegFormed.engRead, RegFormed.completeEngine, RegFormed.failEngine, RegFormed.ringAppend]

theorem RegFormed.execRwait {s : State} (h : RegFormed s) (f : EngForm) : RegFormedOut (execRwait f s) := by
  refine RegFormed.run h _ fun c s h hc => ?_
  grind [regFormedRes_illegal, RegFormed.withRing, RegFormed.countCommand, RegFormed.next, RegFormed.acquireEnd, RegFormed.park,
    RegFormedRes]

theorem RegFormed.execRwaitOpen {s : State} (h : RegFormed s) (f : EngForm) : RegFormedOut (execRwaitOpen f s) := by
  refine RegFormed.run h _ fun c s h hc => ?_
  grind [regFormedRes_illegal, RegFormed.next, RegFormed.countCommand, RegFormedRes, RegFormed.wellPut]

theorem RegFormed.execRwaitClose {s : State} (h : RegFormed s) (f : EngForm) : RegFormedOut (execRwaitClose f s) := by
  refine RegFormed.run h _ fun c s h hc => ?_
  grind [regFormedRes_illegal, RegFormed.next, RegFormed.countCommand]

theorem RegFormed.execGiveDrainComplete {s : State} (h : RegFormed s) (give : Nat) :
    RegFormedOut (execGiveDrainComplete give s) := by
  refine RegFormed.happens h fun t e => ?_
  split at e
  · contradiction
  split at e
  · contradiction
  split at e
  · contradiction
  extract_lets cl s1 s2 s3 stamp ctx s4 s5 s6 at e
  have h1 : RegFormed s1 := RegFormed.foldl _ (fun _ _ h => RegFormed.waitFault h ..) _ h
  have h2 : RegFormed s6 := by grind [RegFormed.takeWell, RegFormed.releaseNow, RegFormed.modCore, RegFormed.modBlock]
  clear_value s1 s6
  grind [RegFormed.retire, RegFormed.modCore, RegFormed.modBlock]

/-! ### Fetching the issuing instruction (R53 to R58) -/

theorem RegFormed.fetchFault {s : State} (h : RegFormed s) (w : Warp) (x : Bundle) (code : Byte) (cause level addr : Nat) :
    RegFormed (s.fetchFault w x code cause level addr) := by
  unfold State.fetchFault
  grind [RegFormed.takeFault, RegFormed.modWarp, RegFormed.issued]

theorem IcForm.begun {c : Ic} (h : IcForm c) : IcForm c.begun := h

theorem RegFormed.setBegun {s : State} (h : RegFormed s) {k : Common} {c : Ic} (e : s.issueCtx k = some c) :
    RegFormed (s.setWarp c.begun.w) := h.setWarp (h.issueCtx e).begun.1

theorem RegFormed.setOpened {s : State} (h : RegFormed s) {k : Common} {c : Ic} (e : s.issueCtx k = some c) (pc : Pc) (phase : Nat) :
    RegFormed ((s.setWarp c.begun.w).setWarp (c.begun.w.opened pc phase)) :=
  (h.setBegun e).setWarp ((h.issueCtx e).begun.1.opened ..)

theorem RegFormed.fetchNow {s : State} (h : RegFormed s) {t : State} (e : fetchNow s = .out t) : RegFormed t := by
  unfold Machine.fetchNow at e
  dsimp only at e
  repeat' split at e
  all_goals grind [RegFormed.modWarp, RegFormed.setBegun, RegFormed.setOpened, RegFormed.stalled, RegFormed.retire, RegFormed.issued,
    RegFormed.takeFault, RegFormed.fetchFault]

/-! ### Predicates and lanes (R151 to R158) -/

theorem RegFormed.predInstr {s : State} (h : RegFormed s) (i : Instr) (f : RegForm) (op : Bool → Bool → Bool) :
    RegFormedOut (Machine.predInstr i f s op) :=
  RegFormed.compute h ..

theorem RegFormed.execShfl {s : State} (h : RegFormed s) (f : RegForm) :
    RegFormedOut (execShfl f s) := RegFormed.run h _ fun _ s h _ => RegFormed.owed (s := { s with freeCtr := s.freeCtr + 1 }) h ..

theorem RegFormed.execVoteAgree {s : State} (h : RegFormed s) (f : RegForm) : RegFormedOut (execVoteAgree f s) := by
  refine RegFormed.run h _ fun c s h hc => ?_
  grind [RegFormed.owed, RegFormed.countLegacy, RegFormedRes, Res.next]

/-! ### Control transfers, traps, waiting and barriers (R174 to R189, R206) -/

theorem RegFormed.fetchLine {s : State} (h : RegFormed s) (w : Warp) (line : Nat) (flip : BitVec 512) (last : Bool) :
    RegFormed (s.fetchLine w line flip last).2 := by
  unfold State.fetchLine
  grind [RegFormed.xlat, RegFormed.drawBytes, RegFormed.forward]

theorem RegFormed.landings {s : State} (h : RegFormed s) (w : Warp) (l : List (Nat × BitVec 64)) :
    RegFormed (s.landings w l).2 := by
  fun_induction State.landings <;> grind [RegFormed.fetchLine]

theorem WarpForm.asks {w : Warp} (h : WarpForm w) (line now : Nat) : WarpForm (w.asks line now) := by
  unfold Warp.asks
  split <;> exact h

theorem RegFormed.transfer {s : State} (h : RegFormed s) (i : Instr) (f : BrForm) (link : Bool) (tgt : Ic → Nat → BitVec 64) :
    RegFormedOut (Machine.transfer i f s link tgt) := by
  refine RegFormed.run h _ fun c s h hc => ?_
  grind [RegFormed.landings, RegFormedRes, RegFormed.modWarp, WarpForm.puts, WarpForm.asks]

theorem RegFormed.execExit {s : State} (h : RegFormed s) (f : BrForm) : RegFormedOut (execExit f s) := by
  refine RegFormed.run h _ fun c s h hc => ?_
  grind [RegFormed.endThreads, RegFormed.withRelease, RegFormedRes, Res.next]

theorem RegFormed.trapNow {s : State} (h : RegFormed s) {c : Ic} (hc : IcForm c) (code : FaultCode) (aux : Nat) :
    RegFormed (s.trapNow c code aux) := by
  have hw : WarpForm ((s.warp? c.w.uid c.w.wid).getD c.w) := by
    cases e : s.warp? c.w.uid c.w.wid with
    | none => exact hc.1
    | some x => exact h.warp e
  unfold State.trapNow
  grind [RegFormed.takeFault, RegFormed.setWarp, WarpForm.modThreads]

theorem RegFormed.execTrap {s : State} (h : RegFormed s) (f : RegForm) : RegFormedOut (execTrap f s) := by
  refine RegFormed.run h _ fun c s h hc => ?_
  grind [RegFormed.trapNow, RegFormedRes]

theorem RegFormed.execBrk {s : State} (h : RegFormed s) (f : RegForm) : RegFormedOut (execBrk f s) := by
  refine RegFormed.run h _ fun c s h hc => ?_
  grind [RegFormed.swapOut, RegFormed.trapNow, RegFormedRes]

theorem RegFormed.execPause {s : State} (h : RegFormed s) (f : RegForm) :
    RegFormedOut (execPause f s) := RegFormed.run h _ fun _ _ h _ => h.modWarp _ _ fun _ h => h.modThreads ..

theorem RegFormed.execYield {s : State} (h : RegFormed s) (f : RegForm) :
    RegFormedOut (execYield f s) := RegFormed.run h _ fun _ _ h _ => h.modWarp _ _ fun _ h => h

theorem BlockForm.arrive {b : Block} (h : BlockForm b) (id : Nat) (xs : List (Nat × Nat)) (need : Option Nat) :
    BlockForm (b.arrive id xs need) := by
  unfold Block.arrive
  split <;> exact h

theorem RegFormed.execBar {s : State} (h : RegFormed s) (f : RegForm) : RegFormedOut (execBar f s) := by
  refine RegFormed.run h _ fun c s h hc => ?_
  grind [regFormedRes_illegal, RegFormed.withRelease, RegFormed.next, RegFormed.barsCheck, RegFormed.park, RegFormed.modBlock,
    BlockForm.arrive]

theorem RegFormed.execBarCnt {s : State} (h : RegFormed s) (f : RegForm) : RegFormedOut (execBarCnt f s) := by
  refine RegFormed.run h _ fun c s h hc => ?_
  grind [regFormedRes_illegal, RegFormed.withRelease, RegFormed.park, RegFormed.countLegacy, RegFormed.next,
    RegFormed.barComplete, RegFormed.modBlock, BlockForm.arrive]

theorem RegFormed.execClbar {s : State} (h : RegFormed s) (f : RegForm) : RegFormedOut (execClbar f s) := by
  refine RegFormed.run h _ fun c s h hc => ?_
  grind [regFormedRes_illegal, RegFormed.withRelease, RegFormed.next, RegFormed.clusterBar, RegFormed.park, RegFormed.modBlock]

theorem RegFormed.execGbar {s : State} (h : RegFormed s) (f : RegForm) : RegFormedOut (execGbar f s) := by
  refine RegFormed.run h _ fun c s h hc => ?_
  grind [regFormedRes_illegal, RegFormed.withRelease, RegFormed.next, RegFormed.gridBar, RegFormed.park, RegFormed.modBlock]

theorem RegFormed.execCvinit {s : State} (h : RegFormed s) (f : RegForm) : RegFormedOut (execCvinit f s) := by
  refine RegFormed.run h _ fun c s h hc => ?_
  grind [regFormedRes_illegal, RegFormed.next, RegFormedRes, RegFormed.modBlock]

theorem RegFormed.execBarPhase {s : State} (h : RegFormed s) (f : RegForm) : RegFormedOut (execBarPhase f s) := by
  refine RegFormed.run h _ fun c s h hc => ?_
  grind [RegFormed.withWritten, RegFormed.park, RegFormed.phaseBar, RegFormedRes, Res.next, RegFormed.modWarp,
    WarpForm.modThreads, RegFormed.modBlock]

theorem RegFormed.countFlush {s : State} (h : RegFormed s) : RegFormed s.countFlush := by
  unfold State.countFlush
  grind

theorem RegFormed.countHalt {s : State} (h : RegFormed s) : RegFormed s.countHalt := by
  unfold State.countHalt
  grind

theorem RegFormed.trapCounted {s : State} (h : RegFormed s) {c : Ic} (hc : IcForm c) (code : Nat) {count : State → State}
    (hcount : ∀ t, RegFormed t → RegFormed (count t)) : RegFormedRes (s.trapCounted c code count) := by
  unfold State.trapCounted
  grind [RegFormedRes, RegFormed.trapNow]

theorem RegFormed.execSysFlush {s : State} (h : RegFormed s) (f : RegForm) : RegFormedOut (execSysFlush f s) := by
  refine RegFormed.run h _ fun c s h hc => ?_
  split
  · exact regFormedRes_illegal c
  · exact h.trapCounted hc _ fun _ h => h.countFlush
  extract_lets s'
  have h' : RegFormed s' := by
    dsimp only [s']
    split
    · exact h
    · exact RegFormed.modWarp (h.flushCore _) _ _ fun _ h => h
  split
  · exact h'
  · exact h'.withBoth _ _ fun _ h => h.countFlush.next

theorem RegFormed.execSysHalt {s : State} (h : RegFormed s) (f : RegForm) : RegFormedOut (execSysHalt f s) := by
  refine RegFormed.run h _ fun c s h hc => ?_
  grind [regFormedRes_illegal, RegFormed.trapCounted, RegFormed.countHalt]

/-! ### The block distributor (R346 to R349, R362 to R374) -/

theorem RegFormed.acceptGrid {s : State} (h : RegFormed s) (g : Grid) : RegFormed (s.acceptGrid g) := by
  unfold State.acceptGrid
  grind [RegFormed.modGrid, RegFormed.traceEvent, RegFormed.hostDone, RegFormed.completeEngine]

theorem RegFormed.acceptTask {s : State} (h : RegFormed s) (t : Machine.Task) : RegFormed (s.acceptTask t) := by
  unfold State.acceptTask
  grind [RegFormed.readVirt, RegFormed.forwardLines, RegFormed.reportFailed, RegFormed.taskEnd, RegFormed.report,
    RegFormed.taskWrite, RegFormed.modTask, RegFormed.newGrid, RegFormed.acceptGrid]

theorem RegFormed.acceptBlock {s : State} (h : RegFormed s) (uid : Nat) : RegFormed (s.acceptBlock uid) := by
  unfold State.acceptBlock
  grind [RegFormed.modBlock]

theorem RegFormed.acceptEntry {s : State} (h : RegFormed s) (e : Entry) : RegFormed (s.acceptEntry e) := by
  unfold State.acceptEntry
  grind [RegFormed.acceptTask, RegFormed.acceptGrid, RegFormed.acceptBlock]

theorem RegFormed.execGridAccept {s : State} (h : RegFormed s) : RegFormedOut (execGridAccept s) := by
  refine RegFormed.happens h fun t e => ?_
  grind [Option.map_eq_some_iff, RegFormed.acceptEntry]

theorem RegFormed.spillFor {s : State} (h : RegFormed s) (x : Want) (cl n : Nat) {t : State} (e : spillFor x cl n s = some t) :
    RegFormed t := by
  fun_induction Machine.spillFor with
  | case1 | case3 | case4 => grind
  | case2 => contradiction
  | case5 s n hp s' hs ih =>
    obtain ⟨b, -, hb⟩ := List.exists_of_findSome?_eq_some hs
    grind [→ RegFormed.spill]

theorem RegFormed.wantWarps {s : State} (h : RegFormed s) (x : Want) : ∀ w ∈ s.wantWarps x, WarpForm w := by
  intro w hw
  unfold State.wantWarps at hw
  split at hw
  · contradiction
  · contradiction
  · exact h.warpsOf (List.mem_of_mem_filter hw)
  · exact h.warpsOf (List.mem_of_mem_filter hw)

theorem RegFormed.seat {s : State} (h : RegFormed s) {x : Want} (hx : BlockForm x.b) (core : Nat) (scheds : List Nat) {t : State}
    (e : s.seat x core scheds = some t) :
    RegFormed t := by
  unfold State.seat at e
  dsimp only at e
  split at e
  · contradiction
  next u hu =>
  have h := h.spillFor _ _ _ hu
  split at e
  · split at e
    · split at e
      next w hw =>
        obtain rfl := Option.some.inj e
        exact RegFormed.phaseBar (h.restoreWarp _ (warpForm_of_warpBack hw) ..) _
      · obtain rfl := Option.some.inj e
        exact h.warpIllegal ..
    · contradiction
  · exact h.restoreBlock _ _ _ e
  · exact (h.seatAll (h.wantWarps x) ..).phaseBegin _ _ e
  · split at e
    · contradiction
    next hbank =>
      obtain rfl := Option.some.inj e
      exact RegFormed.startBlock (h.takeWells _ _ _ _ hbank) hx ..

theorem RegFormed.seatOn {s : State} (h : RegFormed s) {x : Want} (hx : BlockForm x.b) (core : Nat) {t : State}
    (e : s.seatOn x core = some t) : RegFormed t := by
  unfold State.seatOn at e
  split at e
  · contradiction
  · exact h.seat hx _ _ e

theorem RegFormed.shed {s : State} (h : RegFormed s) (core prio : Nat) : RegFormed (s.shed core prio) := by
  unfold State.shed
  grind [RegFormed.phaseLeave, RegFormed.foldl]

theorem RegFormed.evictOne {s : State} (h : RegFormed s) (b : Block) (pas : List Nat) (wid : Nat) :
    RegFormed (s.evictOne b pas wid) := by
  unfold State.evictOne
  grind [RegFormed.evictWarp, RegFormed.modBlock, RegFormed.saveBlock]

theorem RegFormed.evictAll {s : State} (h : RegFormed s) (us : List Nat) (ws : List Warp) {t : State}
    (e : s.evictAll us ws = .ok t) :
    RegFormed t := by
  unfold State.evictAll at e
  grind [RegFormed.evictBlock, RegFormed.evictOne, RegFormed.foldl]

theorem RegFormed.place {s : State} (h : RegFormed s) (mode prio : Nat) (spare : List Nat) {x : Want} (hx : BlockForm x.b) {t : State}
    (e : s.place mode prio spare x = .ok t) :
    RegFormed t := by
  unfold State.place at e
  extract_lets done at e
  have hdone (s t : State) (c : Nat) (h : RegFormed s) (e : done s c = .ok t) : RegFormed t := by
    dsimp only [done] at e
    split at e
    · next hs => exact Except.ok.inj e ▸ h.seatOn hx _ hs
    · contradiction
  have hshed (c p : Nat) : RegFormed (s.shed c p) := h.shed ..
  split at e
  · exact hdone _ _ _ h e
  split at e
  · exact hdone _ _ _ (hshed ..) e
  split at e
  · contradiction
  dsimp only at e
  split at e
  · contradiction
  split at e
  · contradiction
  · next hu => exact hdone _ _ _ ((hshed ..).evictAll _ _ hu) e

theorem RegFormed.placeAll {s : State} (h : RegFormed s) (mode prio : Nat) (spare : List Nat) {l : List Want}
    (hl : ∀ x ∈ l, BlockForm x.b) {t : State} (e : placeAll mode prio spare l s = .ok t) : RegFormed t := by
  fun_induction Machine.placeAll with
  | case1 s => exact Except.ok.inj e ▸ h
  | case2 => contradiction
  | case3 x xs s u hu ih =>
    rw [List.forall_mem_cons] at hl
    exact ih (h.place _ _ _ hl.1 hu) hl.2 e

/-- The blocks that a grid makes have nothing in their registers yet. -/
theorem blockForm_fresh (g : Grid) (uid : Nat → Nat) (bids cores : List Nat) :
    ∀ x ∈ bids.map fun b => ({ b := g.fresh (uid b) b, seat := .fresh, cores := cores } : Want), BlockForm x.b :=
  List.forall_mem_map.mpr fun _ _ => ⟨rfl, rfl, rfl⟩

theorem RegFormed.placeGroup {s : State} (h : RegFormed s) (g : Grid) (clusters barred spare bids : List Nat) {t : State}
    (e : s.placeGroup g clusters barred spare bids = .ok t) : RegFormed t := by
  unfold State.placeGroup at e
  extract_lets on try' at e
  have hon (mode cl : Nat) (t : State) (e : on mode cl = .ok t) : RegFormed t :=
    h.placeAll _ _ _ (blockForm_fresh g (fun b => s.nextId + b) bids _) e
  have htry (mode : Nat) (r : Except Miss State) (hr : ∀ t, r = .ok t → RegFormed t) : ∀ t, try' mode r = .ok t → RegFormed t := by
    dsimp only [try']
    split
    · refine List.foldlRecOn (motive := fun (r : Except Miss State) => ∀ t, r = .ok t → RegFormed t)
        clusters _ (fun _ e => nomatch e) fun r hr cl _ => ?_
      split
      · exact hon mode cl
      · exact hr
    · exact hr
  exact htry 2 _ (htry 1 _ (htry 0 (.error .noRoom) fun _ e => nomatch e)) t e

theorem RegFormed.placeGrid {s : State} (h : RegFormed s) (g : Grid) (barred spare : List Nat) {t : State}
    (e : s.placeGrid g barred spare = .ok t) : RegFormed t := by
  unfold State.placeGrid at e
  extract_lets n bids cores s0 wants r at e
  have h0 : RegFormed s0 := by grind [RegFormed.newPhase]
  have hwants : ∀ x ∈ wants, BlockForm x.b := blockForm_fresh g (fun b => s.nextId + b) bids cores
  have hr : ∀ u, r = .ok u → RegFormed u := by
    dsimp only [r]
    split
    · exact fun _ e => nomatch e
    split
    · exact fun _ => h0.placeAll _ _ _ hwants
    · refine List.foldlRecOn (motive := fun (r : Except Miss State) => ∀ t, r = .ok t → RegFormed t)
        _ _ (fun _ e => Except.ok.inj e ▸ h0) fun r hr k _ => ?_
      split
      · exact fun _ e => nomatch e
      · exact fun _ => (hr _ rfl).placeGroup _ _ _ _ _
  grind [RegFormed.modGrid]

theorem RegFormed.tryPlace {go : State → List Nat → Except Miss State} (hgo : ∀ s l t, RegFormed s → go s l = .ok t → RegFormed t)
    (n : Nat) {s : State} (h : RegFormed s)
    (l : List Nat) : RegFormed (tryPlace go n l s).2 := by
  fun_induction tryPlace <;> grind [RegFormed.refuseReport]

/-- What waits to be placed brings a block of canonical form. -/
def WaitForm : Waiting → Prop
  | .grid _ => True
  | .block b => BlockForm b
  | .back b => BlockForm b

theorem blockForm_restoreWant {s : State} {b : Block} (hb : BlockForm b) {barred : List Nat} {x : Want}
    (e : s.restoreWant b barred = some x) : BlockForm x.b := by
  unfold State.restoreWant at e
  grind [State.wantOf]

theorem RegFormed.placeWant {s : State} (h : RegFormed s) (mode prio : Nat) (spare : List Nat) {b : Block} (hb : BlockForm b)
    (seat : Seat) (barred : List Nat) {t : State} (e : s.place mode prio spare (s.wantOf b seat barred) = .ok t) : RegFormed t :=
  h.place _ _ _ (x := s.wantOf b seat barred) hb e

theorem RegFormed.tryWaiting {s : State} (h : RegFormed s) {x : Waiting} (hx : WaitForm x) (barred : List Nat) :
    RegFormed (s.tryWaiting x barred).2 := by
  refine RegFormed.tryPlace (fun s spare t h e => ?_) _ h _
  cases x with
  | grid g => exact h.placeGrid _ _ _ e
  | block b => exact h.placeWant _ _ _ hx _ _ e
  | back b =>
    dsimp only at e
    split at e
    next hw => exact h.place _ _ _ (blockForm_restoreWant hx hw) e
    · contradiction

theorem RegFormed.skip {s : State} (h : RegFormed s) (gid : Nat) : RegFormed (s.skip gid) := by
  unfold State.skip
  grind [RegFormed.modGrid]

theorem RegFormed.unskip {s : State} (h : RegFormed s) (gid : Nat) : RegFormed (s.unskip gid) := by
  unfold State.unskip
  grind [RegFormed.modGrid]

theorem RegFormed.serveRun {s : State} (h : RegFormed s) {l : List Waiting} (hl : ∀ x ∈ l, WaitForm x) (a b : List Nat) :
    RegFormed (serveRun l a b s).2 := by
  fun_induction Machine.serveRun <;> grind [RegFormed.tryWaiting, RegFormed.unskip, RegFormed.skip]

theorem mem_of_mem_insertBy {α : Type} {lt : α → α → Bool} {x y : α} {l : List α} (h : y ∈ insertBy lt x l) :
    y = x ∨ y ∈ l := by
  fun_induction insertBy <;> grind

theorem mem_of_mem_sortBy {α : Type} {lt : α → α → Bool} {y : α} {l : List α} (h : y ∈ sortBy lt l) : y ∈ l := by
  induction l with
  | nil => exact h
  | cons x xs ih => exact List.mem_cons.mpr ((mem_of_mem_insertBy h).imp_right ih)

theorem RegFormed.pending {s : State} (h : RegFormed s) : ∀ x ∈ s.pending, WaitForm x := by
  have hblocks (p : Block → Bool) (f : Block → Waiting) (hf : ∀ b, BlockForm b → WaitForm (f b)) :
      ∀ x ∈ (s.blocks.filter p).map f, WaitForm x :=
    List.forall_mem_map.mpr fun b hb => hf b (h.2.2 b (List.mem_of_mem_filter hb))
  intro x hx
  obtain hx | hx := List.mem_append.mp hx
  · exact hblocks _ Waiting.back (fun _ h => h) x (mem_of_mem_sortBy hx)
  obtain hx | hx := List.mem_append.mp (mem_of_mem_sortBy hx)
  · obtain ⟨g, -, rfl⟩ := List.mem_map.mp hx
    trivial
  · exact hblocks _ Waiting.block (fun _ h => h) x hx

theorem RegFormed.placeOne {s : State} (h : RegFormed s) : RegFormed s.placeOne.2 := RegFormed.serveRun h h.pending ..

theorem RegFormed.execRestore {s : State} (h : RegFormed s) (uid : Nat) : RegFormedOut (execRestore uid s) := by
  refine RegFormed.happens h fun t e => ?_
  grind [RegFormed.placeOne]

theorem RegFormed.offerRun {s : State} (h : RegFormed s) (n : Nat) : RegFormed (offerRun n s) := by
  fun_induction Machine.offerRun <;> grind [RegFormed.placeOne]

theorem RegFormed.offer {s : State} (h : RegFormed s) (dt : Nat) : RegFormed (s.offer dt) := by
  unfold State.offer
  grind [RegFormed.ringWake, RegFormed.unstall, RegFormed.offerRun]

theorem RegFormed.execBlockPlace {s : State} (h : RegFormed s) : RegFormedOut (execBlockPlace s) := by
  refine RegFormed.happens h fun t e => ?_
  grind [RegFormed.placeOne]

theorem RegFormed.execGridSkipTimeout {s : State} (h : RegFormed s) (gid : Nat) : RegFormedOut (execGridSkipTimeout gid s) := by
  refine RegFormed.happens h fun t e => ?_
  grind [RegFormed.modGrid]

/-! ### Floating-point instructions (R160 to R169) -/

theorem RegFormed.fpInstr {s : State} (h : RegFormed s) (i : Instr) (f : RegForm) (op : Fmt → Nat → Nat → Nat → Nat × Flags) :
    RegFormedOut (Machine.fpInstr i f s op) :=
  RegFormed.compute h ..

/-! ### The host's side (R472 to R476) -/

theorem RegFormed.putRange {s : State} (h : RegFormed s) (die k word : Nat) (v : BitVec 64) : RegFormed (s.putRange die k word v) := by
  refine RegFormed.foldl _ (fun _ _ h => ?_) _ (h.modDie ..)
  exact h

theorem RegFormed.msixWrite {s : State} (h : RegFormed s) (fn word : Nat) (v : Word) : RegFormed (s.msixWrite fn word v) := by
  unfold State.msixWrite
  grind

theorem RegFormed.barWrite {s : State} (h : RegFormed s) (fn off : Nat) (v : BitVec 64) : RegFormed (s.barWrite fn off v) := by
  have ite {c : Prop} [Decidable c] {a b : State} (ha : RegFormed a) (hb : RegFormed b) :
      RegFormed (if c then a else b) := by
    split <;> assumption
  unfold State.barWrite
  refine ite (h.msixWrite ..) (ite h ?_)
  split
  · exact h.putRange _ _ _ _
  · exact ite h (ite h (ite h (ite h (ite h (ite h (ite h h))))))

theorem RegFormed.execRegisterWrite {s : State} (h : RegFormed s) (offset : Nat) (value : BitVec 64) :
    RegFormedOut (execRegisterWrite offset value s) := by
  refine RegFormed.happens h fun t e => ?_
  grind [RegFormed.barWrite]

theorem RegFormed.execTrctlWrite {s : State} (h : RegFormed s) (die : Nat) (value : BitVec 64) :
    RegFormedOut (execTrctlWrite die value s) := by
  refine RegFormed.happens h fun t e => ?_
  grind [RegFormed.tracePut, RegFormed.modDie, RegFormed.modCores]

theorem RegFormed.execTrstatWrite {s : State} (h : RegFormed s) (die : Nat) (value : BitVec 32) :
    RegFormedOut (execTrstatWrite die value s) := by
  refine RegFormed.happens h fun t e => ?_
  grind [RegFormed.modDie]

theorem RegFormed.storeMended {s : State} (h : RegFormed s) (a n : Nat) : RegFormed (s.storeMended a n) := by
  unfold State.storeMended
  grind

theorem RegFormed.execHostBar2Access {s : State} (h : RegFormed s) (acc : HostAccess) :
    RegFormedOut (execHostBar2Access acc s) := by
  refine RegFormed.happens h fun t e => ?_
  grind [RegFormed.bindWake, RegFormed.storeMended, RegFormed.softBytes]

theorem RegFormed.queuePop {s : State} (h : RegFormed s) (r : QueueRun) : RegFormed (s.queuePop r) := RegFormed.homeBytes h ..

theorem RegFormed.rejectBad {s : State} (h : RegFormed s) (n : Nat) : RegFormed (rejectBad n s) := by
  fun_induction Machine.rejectBad <;> grind [RegFormed.hostDone, RegFormed.queuePop]

theorem RegFormed.rejectAll {s : State} (h : RegFormed s) : RegFormed s.rejectAll := RegFormed.rejectBad h ..

theorem RegFormed.execDoorbellWrite {s : State} (h : RegFormed s) (queue : Nat) : RegFormedOut (execDoorbellWrite queue s) := by
  refine RegFormed.happens h fun t e => ?_
  grind [RegFormed.rejectAll]

theorem RegFormed.command {s : State} (h : RegFormed s) (mine : Nat → Bool) {go : Nat → State → Option State}
    (hk : ∀ v s t, RegFormed s → go v s = some t → RegFormed t) : RegFormedOut (Machine.command s mine go) := by
  refine RegFormed.happens h fun t e => ?_
  grind [RegFormed.rejectAll, RegFormed.queuePop, RegFormed.hostDone]

theorem RegFormed.execCmdLaunch {s : State} (h : RegFormed s) : RegFormedOut (execCmdLaunch s) := by
  refine RegFormed.happens h fun t e => ?_
  grind [RegFormed.rejectAll, RegFormed.queuePop, RegFormed.hostDone, RegFormed.newGrid]

theorem RegFormed.execCmdCreateContext {s : State} (h : RegFormed s) : RegFormedOut (execCmdCreateContext s) := by
  refine RegFormed.command h _ fun v s t h e => ?_
  grind [RegFormed.homeBytes, RegFormed.ctxRecord32, RegFormed.ctxRo, RegFormed.modCtx]

theorem RegFormed.execCmdKillContext {s : State} (h : RegFormed s) : RegFormedOut (execCmdKillContext s) := by
  refine RegFormed.command h _ fun v s t h e => ?_
  grind [RegFormed.killContext, RegFormed.reports, RegFormed.reportFailed]

theorem RegFormed.execCmdWritePartitionTable {s : State} (h : RegFormed s) : RegFormedOut (execCmdWritePartitionTable s) := by
  refine RegFormed.command h _ fun v s t h e => ?_
  grind [Option.map_eq_some_iff]

theorem RegFormed.execCmdWriteSliceTable {s : State} (h : RegFormed s) : RegFormedOut (execCmdWriteSliceTable s) := by
  refine RegFormed.command h _ fun v s t h e => ?_
  grind [Option.map_eq_some_iff]

theorem RegFormed.execCmdWriteCollGroups {s : State} (h : RegFormed s) : RegFormedOut (execCmdWriteCollGroups s) := by
  refine RegFormed.command h _ fun v s t h e => ?_
  grind [Option.map_eq_some_iff]

theorem RegFormed.execCmdEnterWeightLoad {s : State} (h : RegFormed s) : RegFormedOut (execCmdEnterWeightLoad s) := by
  refine RegFormed.command h _ fun v s t h e => ?_
  grind [RegFormed.foldl, RegFormed.modDie]

theorem RegFormed.execCmdLeaveWeightLoad {s : State} (h : RegFormed s) : RegFormedOut (execCmdLeaveWeightLoad s) := by
  refine RegFormed.command h _ fun v s t h e => ?_
  grind [Option.map_eq_some_iff, RegFormed.foldl, RegFormed.modDie]

theorem RegFormed.execCmdSetCtxbase {s : State} (h : RegFormed s) : RegFormedOut (execCmdSetCtxbase s) := by
  refine RegFormed.command h _ fun v s t h e => ?_
  grind

theorem RegFormed.execCmdWritePowerControl {s : State} (h : RegFormed s) : RegFormedOut (execCmdWritePowerControl s) := by
  refine RegFormed.command h _ fun v s t h e => ?_
  grind [RegFormed.modDie]

theorem RegFormed.execCmdWriteStitch {s : State} (h : RegFormed s) : RegFormedOut (execCmdWriteStitch s) := by
  refine RegFormed.command h _ fun v s t h e => ?_
  grind [RegFormed.modDie]

theorem RegFormed.execCmdReloadContext {s : State} (h : RegFormed s) : RegFormedOut (execCmdReloadContext s) := by
  refine RegFormed.command h _ fun v s t h e => ?_
  grind [RegFormed.ctxRo, RegFormed.modCtx]

/-! ### The matrix engine (R261 to R278) -/

theorem RegFormed.engElems {s : State} (h : RegFormed s) (e : Engine) (en pad : Nat) (as : List (Option Nat)) :
    RegFormed (s.engElems e en pad as).2 := by
  unfold State.engElems
  grind [regFormed_engThen, RegFormed.engNibs]

theorem RegFormed.matRow {s : State} (h : RegFormed s) (e : Engine) (m : Mat) (i : Nat) : RegFormed (s.matRow e m i).2 := by
  unfold State.matRow
  grind [regFormed_engThen, RegFormed.engElems, RegFormed.engWellRead]

theorem RegFormed.engList {α : Type} {s : State} (h : RegFormed s) (n : Nat) {f : Nat → State → Eng α}
    (hf : ∀ k t, RegFormed t → RegFormed (f k t).2) :
    RegFormed (engList s n f).2 := by
  unfold Machine.engList
  grind [regFormed_engThen, RegFormed.foldl_snd]

theorem RegFormed.entry {s : State} (h : RegFormed s) (e : Engine) (en n : Nat) : RegFormed (s.entry e en n).2 := by
  unfold State.entry
  grind [regFormed_engThen, RegFormed.engNat]

theorem RegFormed.slotCols {s : State} (h : RegFormed s) (e : Engine) (en n : Nat) : RegFormed (s.slotCols e en n).2 := by
  unfold State.slotCols
  grind [regFormed_engThen, RegFormed.entry, RegFormed.foldl_snd]

theorem RegFormed.matPart {s : State} (h : RegFormed s) (e : Engine) (m : Mat) (k : Nat) : RegFormed (s.matPart e m k).2 := by
  unfold State.matPart
  grind [RegFormed.matRow, regFormed_engThen, RegFormed.slotCols, RegFormed.engElems, RegFormed.engList, RegFormed.engNat]

theorem RegFormed.matRead {s : State} (h : RegFormed s) (e : Engine) (m : Mat) (l : List Nat) (n : Nat) :
    RegFormed (matRead e m l s n).2.2 := by
  fun_induction Machine.matRead <;> grind [RegFormed.matPart, RegFormed.modEngine]

theorem RegFormed.checkMat {s : State} (h : RegFormed s) (c : Ic) (conv : Bool) (f : EngForm) (rec1 brec : Nat) (args : List Nat)
    {k : State → Res} (hk : ∀ t, RegFormed t → RegFormedRes (k t)) : RegFormedRes (s.checkMat c conv f rec1 brec args k) := by
  unfold State.checkMat
  grind [RegFormedRes]

theorem RegFormed.withOperands {s : State} (h : RegFormed s) (c : Ic) (i : Instr) (conv : Bool) (f : EngForm)
    {k : List Nat → State → Res} (hk : ∀ a t, RegFormed t → RegFormedRes (k a t)) : RegFormedRes (withOperands s c i conv f k) := by
  unfold Machine.withOperands
  grind [RegFormed.withRecord, RegFormed.checkMat]

theorem RegFormed.queueMat {s : State} (h : RegFormed s) (core id : Nat) (signers : List Nat) :
    RegFormed (s.queueMat core id signers) := by
  unfold State.queueMat
  grind [RegFormed.modEngine, RegFormed.modCore]

theorem RegFormed.matAhead {s : State} (h : RegFormed s) (id : Nat) : RegFormed (s.matAhead id) := by
  unfold State.matAhead
  grind [RegFormed.walkAhead]

theorem RegFormed.sign {s : State} (h : RegFormed s) (i : Instr) (conv : Bool) (f : EngForm) {c : Ic} (hc : IcForm c) :
    RegFormedRes (sign i conv f c s) := by
  unfold Machine.sign
  grind [RegFormedRes, Res.next, RegFormed.withOperands, RegFormed.issueCommand, RegFormed.matAhead, RegFormed.queueMat,
    Ic.illegal, RegFormed.modBlock]

theorem RegFormed.execMma {s : State} (h : RegFormed s) (f : EngForm) : RegFormedOut (execMma f s) :=
  RegFormed.run h _ fun _ _ h hc => h.sign _ _ _ hc

theorem RegFormed.execMconv {s : State} (h : RegFormed s) (f : EngForm) : RegFormedOut (execMconv f s) :=
  RegFormed.run h _ fun _ _ h hc => h.sign _ _ _ hc

theorem RegFormed.matPop {s : State} (h : RegFormed s) (core : Nat) : RegFormed (s.matPop core) := by
  unfold State.matPop
  grind [RegFormed.modCore]

theorem RegFormed.matFail {s : State} (h : RegFormed s) (core : Nat) (e : Engine) (code : Nat) :
    RegFormed (s.matFail core e code) := by
  unfold State.matFail
  grind [RegFormed.reportFailed, RegFormed.completeEngine, RegFormed.matPop, RegFormed.foldl]

theorem RegFormed.putAcc {s : State} (h : RegFormed s) (uid lo : Nat) (cells : List Word) :
    RegFormed (s.modBlock uid fun b => { b with accs := cput b.accs lo cells }) :=
  h.modBlock _ fun _ ⟨htiles, haccs, hstreams⟩ => ⟨htiles, cwf_cput haccs .., hstreams⟩

theorem RegFormed.putTile {s : State} (h : RegFormed s) (uid lo : Nat) (cells : List (BitVec 16)) :
    RegFormed (s.modBlock uid fun b => { b with tiles := cput b.tiles lo cells }) :=
  h.modBlock _ fun _ ⟨htiles, hrest⟩ => ⟨cwf_cput htiles .., hrest⟩

theorem RegFormed.matEnd {s : State} (h : RegFormed s) (core : Nat) (e : Engine) (m : Mat) : RegFormed (s.matEnd core e m) := by
  unfold State.matEnd
  split
  · exact h.matFail ..
  · exact RegFormed.foldl _ (fun _ _ h => h.completeEngine ..) _ (RegFormed.matPop (RegFormed.accSaved (h.putAcc ..) ..) _)

theorem RegFormed.damagePart {s : State} (h : RegFormed s) (e : Engine) (m : Mat) (ks : List Nat) (ecc : EccOutcome) :
    RegFormed (s.damagePart e m ks ecc) := by
  unfold State.damagePart
  grind [RegFormed.draw]

theorem RegFormed.execMatrixOpComplete {s : State} (h : RegFormed s) (x : MatrixRun) : RegFormedOut (execMatrixOpComplete x s) := by
  refine RegFormed.happens h fun t e => ?_
  grind [RegFormed.matRead, RegFormed.damagePart, RegFormed.matFail, RegFormed.matEnd, RegFormed.matAhead, RegFormed.modEngine]

theorem RegFormed.runAny {s : State} (h : RegFormed s) (e : Engine) : RegFormed (s.runAny e).s := by
  unfold State.runAny
  grind [RegFormed.runEngine, RegFormed.matRead]

theorem RegFormed.execEngineSuspend {s : State} (h : RegFormed s) (eng : Nat) : RegFormedOut (execEngineSuspend eng s) := by
  refine RegFormed.happens h fun t e => ?_
  grind [Option.map_eq_some_iff, RegFormed.runAny, → RegFormed.putRecord, RegFormed.modEngine]

/-! ### Device time (R33, R34) -/

theorem RegFormed.advance {s : State} (h : RegFormed s) (dt : Nat) : RegFormed (s.advance dt) := by
  unfold State.advance
  split
  · exact h
  refine RegFormed.unstall ⟨h.1, List.forall_mem_map.mpr fun w hw => ?_, h.2.2⟩
  have hf : WarpForm w := h.2.1 w hw
  split <;> exact hf

/-! ### The platform (R284, R334, R401, R440, R458 to R468, R478 to R483) -/

theorem RegFormed.execWsWindowOpen {s : State} (h : RegFormed s) (die group : Nat) :
    RegFormedOut (execWsWindowOpen die group s) := by
  refine RegFormed.happens h fun t e => ?_
  grind [RegFormed.modDie]

theorem RegFormed.execWsWindowClose {s : State} (h : RegFormed s) (die group : Nat) :
    RegFormedOut (execWsWindowClose die group s) := by
  refine RegFormed.happens h fun t e => ?_
  grind [RegFormed.modDie]

theorem RegFormed.peerWrite {s : State} (h : RegFormed s) (r : PeerReq) : RegFormed (s.peerWrite r) := by
  unfold State.peerWrite
  grind [RegFormed.softBytes, RegFormed.relSet, RegFormed.bindWake]

theorem RegFormed.execPeerRequest {s : State} (h : RegFormed s) (req : PeerReq) : RegFormedOut (execPeerRequest req s) := by
  refine RegFormed.happens h fun t e => ?_
  dsimp only at e
  split at e
  · contradiction
  obtain ⟨u, hu, rfl⟩ := Option.map_eq_some_iff.mp e
  have hu : RegFormed u := h.homeReady _ _ hu
  grind [RegFormed.readFault, RegFormed.blot, RegFormed.peerWrite]

theorem RegFormed.execLinkDown {s : State} (h : RegFormed s) (port : Nat) : RegFormedOut (execLinkDown port s) := by
  refine RegFormed.happens h fun t e => ?_
  grind [RegFormed.interrupt]

theorem RegFormed.noRoute {s : State} (h : RegFormed s) (m : Msg) {t : State} (e : s.noRoute m = some t) : RegFormed t := by
  unfold State.noRoute at e
  grind [RegFormed.drawBytes, RegFormed.strongFault, RegFormed.dropMsg, RegFormed.defer, RegFormed.send, RegFormed.unfilter,
    RegFormed.deferWb, RegFormed.wbDone, RegFormed.foldl]

theorem RegFormed.noRouteEngine {s : State} (h : RegFormed s) (e : Engine) {t : State}
    (eq : s.noRouteEngine e = some t) : RegFormed t := by
  unfold State.noRouteEngine at eq
  grind [RegFormed.runAny, RegFormed.matFail, RegFormed.failEngine]

theorem RegFormed.execRouteTimeout {s : State} (h : RegFormed s) (msg : Nat) : RegFormedOut (execRouteTimeout msg s) := by
  refine RegFormed.happens h fun t e => ?_
  grind [Option.bind_eq_some_iff, → RegFormed.noRoute, → RegFormed.noRouteEngine]

theorem RegFormed.execSampleIntervalStart {s : State} (h : RegFormed s) (core sched : Nat) :
    RegFormedOut (execSampleIntervalStart core sched s) := by
  refine RegFormed.happens h fun t e => ?_
  grind [RegFormed.modCore]

theorem RegFormed.sampleLevel {s : State} (h : RegFormed s) (p : Sample) : RegFormed (s.sampleLevel p).2 := by
  unfold State.sampleLevel
  grind [RegFormed.draw]

theorem RegFormed.execSampleRecordWrite {s : State} (h : RegFormed s) (core sched : Nat) :
    RegFormedOut (execSampleRecordWrite core sched s) := by
  refine RegFormed.happens h fun t e => ?_
  grind [Option.map_eq_some_iff, RegFormed.sampleLevel, RegFormed.traceRec, RegFormed.modCore]

theorem RegFormed.freqStep {s : State} (h : RegFormed s) (d mhz : Nat) : RegFormed (s.freqStep d mhz) := by
  unfold State.freqStep
  grind [RegFormed.modDie]

theorem RegFormed.sensed {s : State} (h : RegFormed s) (die mw tempC : Nat) : RegFormed (s.sensed die mw tempC) := by
  unfold State.sensed
  grind [RegFormed.modDie]

theorem RegFormed.execPowerCompare {s : State} (h : RegFormed s) (die : Nat) (x : PowerReading) :
    RegFormedOut (execPowerCompare die x s) := by
  refine RegFormed.happens h fun t e => ?_
  grind [RegFormed.sensed, RegFormed.freqStep, RegFormed.modDie]

theorem RegFormed.catchUp {s : State} (h : RegFormed s) (d dt : Nat) : RegFormed (s.catchUp d dt) := by
  refine ⟨h.1, List.forall_mem_map.mpr fun w hw => ?_, h.2.2⟩
  have hf : WarpForm w := h.2.1 w hw
  split <;> exact hf

theorem RegFormed.execPllRelockDone {s : State} (h : RegFormed s) (die : Nat) : RegFormedOut (execPllRelockDone die s) := by
  refine RegFormed.happens h fun t e => ?_
  grind [RegFormed.syncPut, RegFormed.catchUp, RegFormed.modDie]

theorem RegFormed.execThermalThrottle {s : State} (h : RegFormed s) (x : HeatReading) : RegFormedOut (execThermalThrottle x s) := by
  refine RegFormed.happens h fun t e => ?_
  grind [RegFormed.sensed, RegFormed.freqStep, RegFormed.modDie]

theorem RegFormed.execThermalRecover {s : State} (h : RegFormed s) (x : HeatReading) : RegFormedOut (execThermalRecover x s) := by
  refine RegFormed.happens h fun t e => ?_
  grind [RegFormed.sensed, RegFormed.modDie]

theorem RegFormed.execThermalTrip {s : State} (h : RegFormed s) : RegFormedOut (execThermalTrip s) := by
  refine RegFormed.happens h fun t e => ?_
  grind [RegFormed.killContext, RegFormed.reports, RegFormed.reportFailed, RegFormed.interrupt, RegFormed.foldl]

theorem RegFormed.setLock {s : State} (h : RegFormed s) (b : Bool) : RegFormed (s.setLock b) := by
  unfold State.setLock
  grind [RegFormed.interrupt]

theorem RegFormed.execPtpSync {s : State} (h : RegFormed s) (sync : PtpSync) : RegFormedOut (execPtpSync sync s) := by
  refine RegFormed.happens h fun t e => ?_
  grind [RegFormed.setLock]

theorem RegFormed.execPtpHoldover {s : State} (h : RegFormed s) : RegFormedOut (execPtpHoldover s) := by
  refine RegFormed.happens h fun t e => ?_
  grind [RegFormed.interrupt]

/-- A reset leaves no warp, no block and no well word. -/
theorem RegFormed.restart {s : State} (lcs : LifeCycle) : RegFormed (s.restart lcs) :=
  ⟨⟨rfl, rfl, rfl, rfl⟩, List.forall_mem_nil _, List.forall_mem_nil _⟩

theorem RegFormed.verifyImage {s : State} (h : RegFormed s) (i : FirmwareImage) : RegFormed (s.verifyImage i) := by
  unfold State.verifyImage
  grind

theorem RegFormed.execWipeComplete {s : State} (h : RegFormed s) (image : FirmwareImage) :
    RegFormedOut (execWipeComplete image s) := by
  refine RegFormed.happens h fun t e => ?_
  grind [RegFormed.verifyImage, RegFormed.interrupt]

theorem RegFormed.execRecoveryImageLoad {s : State} (h : RegFormed s) (image : FirmwareImage) :
    RegFormedOut (execRecoveryImageLoad image s) := by
  refine RegFormed.happens h fun t e => ?_
  grind [RegFormed.verifyImage]

theorem RegFormed.execDeviceReset {s : State} : RegFormedOut (execDeviceReset s) := RegFormed.restart _

theorem RegFormed.execMgmtResetRequest {s : State} : RegFormedOut (execMgmtResetRequest s) := RegFormed.restart _

theorem RegFormed.execLifecycleChange {s : State} (h : RegFormed s) (next : LifeCycle) :
    RegFormedOut (execLifecycleChange next s) := by
  refine RegFormed.happens h fun t e => ?_
  grind [RegFormed.restart]

theorem RegFormed.execSpdmRequest {s : State} (h : RegFormed s) (request : List Byte) :
    RegFormedOut (execSpdmRequest request s) := by
  refine RegFormed.happens h fun t e => ?_
  grind

/-! ### How work ends (R176, R189, R196 to R202, R350, R369) -/

theorem RegFormed.execWarpRelease {s : State} (h : RegFormed s) (uid wid : Nat) : RegFormedOut (execWarpRelease uid wid s) := by
  refine RegFormed.happens h fun t e => ?_
  grind [RegFormed.leaveSlot]

theorem BlockForm.givenBack (b : Block) : BlockForm b.givenBack := ⟨rfl, rfl, rfl⟩

theorem RegFormed.execBlockRetire {s : State} (h : RegFormed s) (uid : Nat) : RegFormedOut (execBlockRetire uid s) := by
  refine RegFormed.happens h fun t e => ?_
  grind [RegFormed.closeRings, RegFormed.traceEvent, RegFormed.modBlock, BlockForm.givenBack, RegFormed.modGrid]

theorem RegFormed.execGridRetire {s : State} (h : RegFormed s) (gid : Nat) : RegFormedOut (execGridRetire gid s) := by
  refine RegFormed.happens h fun t e => ?_
  grind [RegFormed.completeEngine, RegFormed.taskEnd, RegFormed.modGrid]

theorem RegFormed.foldView {s : State} (h : RegFormed s) (p c : Block) (v : View) (n a : Nat) :
    RegFormed (foldView p c v n a s).2 := by
  fun_induction Machine.foldView <;> grind [RegFormed.wellWrite]

theorem RegFormed.foldViews {s : State} (h : RegFormed s) (p c : Block) (n a : Nat) (l : List View) :
    RegFormed (foldViews p c n a l s).2 := by
  fun_induction Machine.foldViews <;> grind [RegFormed.foldView]

theorem RegFormed.foldEnd {s : State} (h : RegFormed s) (parent child : Nat) : RegFormed (s.foldEnd parent child) := by
  have hend := RegFormed.modBlock h child (f := fun c => { c with st := .retired, bank := [], views := [] }) fun _ h => h
  exact RegFormed.syncWake (hend.modBlock parent (f := fun p => { p with folded := p.folded + 1 }) fun _ h => h) _

theorem RegFormed.execChildFold {s : State} (h : RegFormed s) (parent : Nat) : RegFormedOut (execChildFold parent s) := by
  refine RegFormed.happens h fun t e => ?_
  grind [RegFormed.foldEnd, RegFormed.foldViews, RegFormed.report, RegFormed.modBlock]

theorem RegFormed.execPhaseReady {s : State} (h : RegFormed s) (uid : Nat) : RegFormedOut (execPhaseReady uid s) := by
  refine RegFormed.happens h fun t e => ?_
  grind [RegFormed.modBlock]

theorem RegFormed.execPhaseStart {s : State} (h : RegFormed s) (uid : Nat) : RegFormedOut (execPhaseStart uid s) := by
  refine RegFormed.happens h fun t e => ?_
  grind [RegFormed.phaseLeave, → RegFormed.spillFor, → RegFormed.phaseBegin]

theorem RegFormed.gangColls {s : State} (h : RegFormed s) (at' : Nat) : RegFormed (s.gangColls at') := by
  unfold State.gangColls
  grind [RegFormed.modEngines]

theorem RegFormed.execGangBoundary {s : State} (h : RegFormed s) : RegFormedOut (execGangBoundary s) := by
  refine RegFormed.happens h fun t e => ?_
  grind [RegFormed.gangColls, RegFormed.traceEvent, RegFormed.foldl]

/-! ### The schedulers (R351 to R356) -/

theorem RegFormed.tag {s : State} (h : RegFormed s) (w : Warp) (x : Scheduler) : RegFormed (s.tag w x).2 := by
  unfold State.tag
  grind [RegFormed.draw]

theorem RegFormed.choose {s : State} (h : RegFormed s) (w : Warp) (core sched : Nat) : RegFormed (s.choose w core sched) := by
  have ht : RegFormed (s.tag w ((s.core core).sched sched)).2 := h.tag ..
  unfold State.choose
  split
  next x s1 e =>
  rw [e] at ht
  extract_lets yields s2 ws
  have h2 : RegFormed s2 := RegFormed.modCore ht ..
  refine ⟨h2.1, List.forall_mem_map.mpr fun w hw => ?_, h2.2.2⟩
  have hf : WarpForm w := h2.2.1 w hw
  split <;> exact hf

theorem RegFormed.tryWarp {s : State} (h : RegFormed s) (w : Warp) (core sched : Nat) : RegFormed (s.tryWarp w core sched) := by
  unfold State.tryWarp
  grind

theorem RegFormed.tried {s t : State} (hs : RegFormed s) (ht : RegFormed t) : RegFormed (s.tried t) := by
  unfold State.tried
  grind [RegFormed.modWarp]

theorem RegFormed.outcome {s : State} (h : RegFormed s) {o : Out} (ho : RegFormedOut o) : RegFormedOut (s.outcome o) := by
  cases o with
  | next t =>
    unfold State.outcome
    grind [RegFormedOut, RegFormed.tried]
  | fault r => trivial
  | refused r => trivial

theorem WarpForm.prepare {w : Warp} (h : WarpForm w) (cycle : Nat) : WarpForm (w.prepare cycle) := by
  unfold Warp.prepare Warp.markerWake
  grind

theorem RegFormed.execSchedulerIssueCycle {s : State} (h : RegFormed s) (core sched : Nat) :
    RegFormedOut (execSchedulerIssueCycle core sched s) := by
  unfold Machine.execSchedulerIssueCycle
  extract_lets cycle mine s'
  have hs : RegFormed s' := RegFormed.foldl_mem _ _ (fun s w hw hs => by
    have hf : WarpForm w := h.2.1 w (List.mem_of_mem_filter hw)
    exact hs.setWarp (hf.prepare _)) h
  clear_value s'
  grind [RegFormedOut, RegFormed.tryWarp, RegFormed.choose]

theorem RegFormed.lineIn {s : State} (h : RegFormed s) (uid wid : Nat) (st : FetchSt) (flip : BitVec 512) {t : State}
    (e : s.lineIn uid wid st flip = some t) : RegFormed t := by
  unfold State.lineIn at e
  grind [RegFormed.fetchLine, RegFormed.modWarp, WarpForm.asks]

theorem RegFormed.execLineFetch {s : State} (h : RegFormed s) (uid wid : Nat) (flip : BitVec 512) :
    RegFormedOut (execLineFetch uid wid flip s) := by
  refine RegFormed.happens h fun t e => ?_
  grind [→ RegFormed.lineIn]

theorem RegFormed.execLineRefetch {s : State} (h : RegFormed s) (uid wid : Nat) (flip : BitVec 512) :
    RegFormedOut (execLineRefetch uid wid flip s) := by
  refine RegFormed.happens h fun t e => ?_
  grind [→ RegFormed.lineIn]

theorem RegFormed.execPauseExpiry {s : State} (h : RegFormed s) (uid wid lane : Nat) :
    RegFormedOut (execPauseExpiry uid wid lane s) := by
  refine RegFormed.happens h fun t e => ?_
  grind [RegFormed.wakeWhere]

/-! ### Tiles and accumulators (R279 to R286) -/

theorem RegFormed.tileInstr {s : State} (h : RegFormed s) (i : Instr) (accs tiles : List Nat) {body : Ic → State → Res}
    (hk : ∀ c s, RegFormed s → IcForm c → RegFormedRes (body c s)) : RegFormedOut (Machine.tileInstr i s accs tiles body) := by
  refine RegFormed.run h _ fun c s h hc => ?_
  grind [RegFormedRes]

theorem RegFormed.execTzero {s : State} (h : RegFormed s) (f : RegForm) : RegFormedOut (execTzero f s) :=
  RegFormed.tileInstr h _ _ _ fun _ _ h _ => h.modBlock _ fun _ ⟨htiles, hrest⟩ => ⟨cwf_cclear htiles .., hrest⟩

theorem RegFormed.execAzero {s : State} (h : RegFormed s) (f : RegForm) : RegFormedOut (execAzero f s) :=
  RegFormed.tileInstr h _ _ _ fun _ _ h _ =>
    h.modBlock _ fun _ ⟨htiles, haccs, hstreams⟩ => ⟨htiles, cwf_cclear haccs .., hstreams⟩

theorem RegFormed.execAmov {s : State} (h : RegFormed s) (f : RegForm) : RegFormedOut (execAmov f s) :=
  RegFormed.tileInstr h _ _ _ fun _ _ h _ =>
    h.modBlock _ fun _ ⟨htiles, haccs, hstreams⟩ => ⟨htiles, cwf_cput haccs .., hstreams⟩

theorem RegFormed.execTmov {s : State} (h : RegFormed s) (f : RegForm) : RegFormedOut (execTmov f s) :=
  RegFormed.tileInstr h _ _ _ fun _ _ h _ => h.modBlock _ fun _ ⟨htiles, hrest⟩ => ⟨cwf_cput htiles .., hrest⟩

theorem RegFormed.execAld {s : State} (h : RegFormed s) (f : RegForm) : RegFormedOut (execAld f s) := by
  refine RegFormed.tileInstr h _ _ _ fun c s h _ => ?_
  grind [regFormedRes_illegal, RegFormed.next, RegFormed.owed]

theorem cwf_foldl {n : Nat} {α : Type} {f : Cells n → α → Cells n} (hf : ∀ c x, cwf c = true → cwf (f c x) = true) (l : List α)
    {c : Cells n} (h : cwf c = true) : cwf (l.foldl f c) = true :=
  List.foldlRecOn (motive := fun c => cwf c = true) l f h fun _ h x _ => hf _ x h

theorem RegFormed.execAst {s : State} (h : RegFormed s) (f : RegForm) : RegFormedOut (execAst f s) := by
  refine RegFormed.tileInstr h _ _ _ fun c s h _ => ?_
  split
  · exact regFormedRes_illegal c
  · exact h.modBlock _ fun _ ⟨htiles, haccs, hstreams⟩ => ⟨htiles, cwf_foldl (fun _ _ h => cwf_cset h ..) _ haccs, hstreams⟩

theorem RegFormed.execTmovW {s : State} (h : RegFormed s) (f : RegForm) : RegFormedOut (execTmovW f s) := by
  refine RegFormed.tileInstr h _ _ _ fun c s h _ => ?_
  split
  · exact regFormedRes_illegal c
  · exact h.modBlock _ fun _ ⟨htiles, hrest⟩ => ⟨cwf_foldl (fun _ _ h => cwf_cset (cwf_cset h ..) ..) _ htiles, hrest⟩

theorem RegFormed.execTmovR {s : State} (h : RegFormed s) (f : RegForm) : RegFormedOut (execTmovR f s) := by
  refine RegFormed.tileInstr h _ _ _ fun c s h _ => ?_
  grind [regFormedRes_illegal, RegFormed.next, RegFormed.owed]

theorem RegFormed.owedOnce {s : State} (h : RegFormed s) (c : Ic) (fl : Flags) (ws : List (RegSlot × Word)) :
    RegFormed (Machine.owedOnce c s fl ws) := by
  unfold Machine.owedOnce
  grind [RegFormed.modWarp, WarpForm.raise, RegFormed.owe]

theorem BlockForm.foldl {α : Type} {f : Block → α → Block} (hf : ∀ b x, BlockForm b → BlockForm (f b x)) (l : List α) {b : Block}
    (h : BlockForm b) : BlockForm (l.foldl f b) :=
  List.foldlRecOn (motive := BlockForm) l f h fun _ h x _ => hf _ x h

/-- The tile bytes that `hqnt` writes. -/
theorem RegFormed.putCodes {s : State} (h : RegFormed s) (uid t n : Nat) (pos : Nat → Nat) (xs : List (Nat × Nat)) :
    RegFormed (s.modBlock uid fun b => xs.foldl (fun b x => b.tileNibPut t (pos x.2) n x.1) b) := by
  refine h.modBlock _ fun b hb => ?_
  exact BlockForm.foldl (fun _ _ hb => hb.tileNibPut ..) _ hb

theorem RegFormed.execHqnt {s : State} (h : RegFormed s) (f : RegForm) : RegFormedOut (execHqnt f s) := by
  unfold Machine.execHqnt
  refine RegFormed.tileInstr h _ _ _ fun c s h _ => ?_
  extract_lets r
  clear_value r
  exact RegFormed.next (RegFormed.owedOnce (h.putCodes c.b.uid (hqTile f) 2 (hqByte f) (r.2.1.zip (List.range 64))) ..)

theorem RegFormed.execHdeq {s : State} (h : RegFormed s) (f : RegForm) : RegFormedOut (execHdeq f s) := by
  refine RegFormed.tileInstr h _ _ _ fun c s h _ => ?_
  split
  · exact regFormedRes_illegal c
  · exact RegFormed.next (h.owedOnce ..)

theorem RegFormed.execAconv {s : State} (h : RegFormed s) (f : RegForm) : RegFormedOut (execAconv f s) := by
  refine RegFormed.tileInstr h _ _ _ fun c s h _ => ?_
  split
  next ys fl _ => exact RegFormed.next (RegFormed.putTile (h.modWarp _ _ fun _ h => h.raise fl) ..)

theorem RegFormed.execAconvF32 {s : State} (h : RegFormed s) (f : RegForm) : RegFormedOut (execAconvF32 f s) := by
  refine RegFormed.tileInstr h _ _ _ fun c s h _ => ?_
  split
  next ys fl _ => exact RegFormed.next (RegFormed.putAcc (h.modWarp _ _ fun _ h => h.raise fl) ..)

theorem RegFormed.execWsinfo {s : State} (h : RegFormed s) (f : RegForm) : RegFormedOut (execWsinfo f s) := by
  refine RegFormed.run h _ fun c s h hc => ?_
  grind [regFormedRes_illegal, RegFormed.next, RegFormed.owed]

theorem RegFormed.execWswait {s : State} (h : RegFormed s) (f : RegForm) : RegFormedOut (execWswait f s) := by
  refine RegFormed.run h _ fun c s h hc => ?_
  grind [regFormedRes_illegal, RegFormed.next, RegFormedRes]

/-! ### Streams (R287 to R293) -/

theorem RegFormed.streamInstr {s : State} (h : RegFormed s) (i : Instr) (ops : List (BitVec 8)) (pairs : List (BitVec 8 × BitVec 8))
    (illegal : Ic → Bool) {body : Ic → State → Block → State} (hk : ∀ c s b, RegFormed s → RegFormed (body c s b)) :
    RegFormedOut (Machine.streamInstr i s ops pairs illegal body) := by
  refine RegFormed.run h _ fun c s h hc => ?_
  grind [regFormedRes_illegal, RegFormed.next, RegFormedRes]

theorem RegFormed.execSlen {s : State} (h : RegFormed s) (f : RegForm) : RegFormedOut (execSlen f s) := by
  refine RegFormed.run h _ fun c s h hc => ?_
  grind [RegFormed.next, regFormedRes_illegal, RegFormed.modBlock]

theorem RegFormed.execSseed {s : State} (h : RegFormed s) (f : RegForm) : RegFormedOut (execSseed f s) := by
  refine RegFormed.run h _ fun c s h hc => ?_
  dsimp only
  split
  · exact regFormedRes_illegal _
  · exact h

theorem RegFormed.putStream {s : State} (h : RegFormed s) (uid q : Nat) (tag : StreamTag) (f : Nat → BitVec 1024) :
    RegFormed (s.putStream uid q tag f) :=
  h.modBlock _ fun _ ⟨htiles, haccs, hstreams⟩ => ⟨htiles, haccs, cwf_cput hstreams ..⟩

theorem RegFormed.execSgen {s : State} (h : RegFormed s) (f : RegForm) : RegFormedOut (execSgen f s) :=
  RegFormed.streamInstr h _ _ _ _ fun _ _ _ h => h.putStream ..

theorem RegFormed.execSregen {s : State} (h : RegFormed s) (f : RegForm) : RegFormedOut (execSregen f s) :=
  RegFormed.streamInstr h _ _ _ _ fun _ _ _ h => h.putStream ..

theorem RegFormed.streamBin {s : State} (h : RegFormed s) (i : Instr) (f : RegForm) (op : BitVec 1024 → BitVec 1024 → BitVec 1024) :
    RegFormedOut (Machine.streamBin i f s op) :=
  RegFormed.streamInstr h _ _ _ _ fun _ _ _ h => h.putStream ..

theorem RegFormed.execSnot {s : State} (h : RegFormed s) (f : RegForm) : RegFormedOut (execSnot f s) :=
  RegFormed.streamInstr h _ _ _ _ fun _ _ _ h => h.putStream ..

theorem RegFormed.execSmux {s : State} (h : RegFormed s) (f : RegForm) : RegFormedOut (execSmux f s) :=
  RegFormed.streamInstr h _ _ _ _ fun _ _ _ h => h.putStream ..

theorem RegFormed.execSshift {s : State} (h : RegFormed s) (f : RegForm) : RegFormedOut (execSshift f s) :=
  RegFormed.streamInstr h _ _ _ _ fun _ _ _ h => h.putStream ..

theorem RegFormed.execSmov {s : State} (h : RegFormed s) (f : RegForm) : RegFormedOut (execSmov f s) :=
  RegFormed.streamInstr h _ _ _ _ fun _ _ _ h => h.putStream ..

theorem RegFormed.execScnt {s : State} (h : RegFormed s) (f : RegForm) : RegFormedOut (execScnt f s) :=
  RegFormed.streamInstr h _ _ _ _ fun _ _ _ h => h.owed ..

theorem RegFormed.execSclass {s : State} (h : RegFormed s) (f : RegForm) : RegFormedOut (execSclass f s) :=
  RegFormed.streamInstr h _ _ _ _ fun _ _ _ h => h.owed ..

/-! ### Supervisor instructions (R204, R205, R430) -/

theorem RegFormed.putStatus {s : State} (h : RegFormed s) (c : Ic) (f : RegForm) (v : Nat) : RegFormed (s.putStatus c f v) :=
  h.modWarp _ _ fun _ h => h.sset ..

theorem RegFormed.retranslate {s : State} (h : RegFormed s) (m : Msg) : RegFormed (s.retranslate m) := by
  unfold State.retranslate
  grind [RegFormed.xlat, RegFormed.refuseWrite]

theorem RegFormed.invalidate {s : State} (h : RegFormed s) (x : InvSel) (level : Nat) : RegFormed (s.invalidate x level) := by
  unfold State.invalidate
  grind [RegFormed.writeBack, RegFormed.retranslate, RegFormed.foldl]

theorem RegFormed.execSysTlbinv {s : State} (h : RegFormed s) (f : RegForm) : RegFormedOut (execSysTlbinv f s) := by
  refine RegFormed.run h _ fun c s h hc => ?_
  grind [RegFormed.withWritten, RegFormed.invalidate, RegFormed.acquire, RegFormed.releaseNow, RegFormedRes, Res.next,
    RegFormed.modWarp]

theorem RegFormed.answer {s : State} (h : RegFormed s) (w : Warp) : RegFormed (s.answer w) := by
  unfold State.answer
  grind [RegFormed.wakeFaulted, RegFormed.retranslate, RegFormed.foldl]

theorem RegFormed.execSysFwake {s : State} (h : RegFormed s) (f : RegForm) : RegFormedOut (execSysFwake f s) := by
  refine RegFormed.run h _ fun c s h hc => ?_
  grind [RegFormed.withBoth, RegFormed.putStatus, RegFormed.answer, RegFormedRes, Res.next, RegFormed.modBlock]

theorem RegFormed.execSysFkill {s : State} (h : RegFormed s) (f : RegForm) : RegFormedOut (execSysFkill f s) := by
  refine RegFormed.run h _ fun c s h hc => ?_
  grind [regFormedRes_illegal, RegFormed.withBoth, RegFormed.next, RegFormed.putStatus, RegFormed.abortGrid, RegFormed.reports,
    RegFormed.reportFailed, RegFormed.modBlock]

theorem RegFormed.execSysEvict {s : State} (h : RegFormed s) (f : RegForm) : RegFormedOut (execSysEvict f s) := by
  refine RegFormed.run h _ fun c s h hc => ?_
  grind [RegFormed.withBoth, RegFormed.putStatus, RegFormed.refuseReport, RegFormed.retire, RegFormed.evictBlock, RegFormedRes,
    Res.next]

theorem RegFormed.execSysResume {s : State} (h : RegFormed s) (f : RegForm) : RegFormedOut (execSysResume f s) := by
  refine RegFormed.run h _ fun c s h hc => RegFormed.withBoth h _ _ fun s h => ?_
  dsimp only
  split
  · exact h.putStatus ..
  refine RegFormed.next (RegFormed.putStatus (RegFormed.foldl_warpsOf ?_ _ fun s w hs hw => ?_) ..)
  · split
    · exact h
    · exact h.modBlock _ fun _ h => h
  · exact hs.setWarp hw

theorem RegFormed.execSysMcount {s : State} (h : RegFormed s) (f : RegForm) : RegFormedOut (execSysMcount f s) := by
  refine RegFormed.run h _ fun c s h hc => ?_
  grind [RegFormed.putStatus, RegFormedRes, Res.next]

/-! ### Every instruction and event -/

/-- One arm for each constructor of `Instr`; an instruction that only computes on registers goes through its class. -/
theorem RegFormed.exec {s : State} (h : RegFormed s) (i : Instr) : RegFormedOut (Machine.exec i s) := by
  cases i with
  | nop f => exact RegFormed.execNop h ..
  | getsr f => exact RegFormed.execGetsr h ..
  | setsr f => exact RegFormed.execSetsr h ..
  | bra f => exact show RegFormedOut (execBra f s) from RegFormed.transfer h ..
  | brx f => exact show RegFormedOut (execBrx f s) from RegFormed.transfer h ..
  | call f => exact show RegFormedOut (execCall f s) from RegFormed.transfer h ..
  | calli f => exact show RegFormedOut (execCalli f s) from RegFormed.transfer h ..
  | ret f => exact show RegFormedOut (execRet f s) from RegFormed.transfer h ..
  | exit f => exact RegFormed.execExit h ..
  | trap f => exact RegFormed.execTrap h ..
  | brk f => exact RegFormed.execBrk h ..
  | pause f => exact RegFormed.execPause h ..
  | yield f => exact RegFormed.execYield h ..
  | bar f => exact RegFormed.execBar h ..
  | barPhase f => exact RegFormed.execBarPhase h ..
  | clbar f => exact RegFormed.execClbar h ..
  | gbar f => exact RegFormed.execGbar h ..
  | cvinit f => exact RegFormed.execCvinit h ..
  | launch f => exact RegFormed.execLaunch h ..
  | spawn f => exact RegFormed.execSpawn h ..
  | merge f => exact RegFormed.execMerge h ..
  | syncSpawn f => exact RegFormed.execSyncSpawn h ..
  | tsub f => exact RegFormed.execTsub h ..
  | tsig f => exact RegFormed.execTsig h ..
  | sysTlbinv f => exact RegFormed.execSysTlbinv h ..
  | sysFwake f => exact RegFormed.execSysFwake h ..
  | sysFkill f => exact RegFormed.execSysFkill h ..
  | sysEvict f => exact RegFormed.execSysEvict h ..
  | sysResume f => exact RegFormed.execSysResume h ..
  | sysMcount f => exact RegFormed.execSysMcount h ..
  | voteAgree f => exact RegFormed.execVoteAgree h ..
  | barCnt f => exact RegFormed.execBarCnt h ..
  | sysFlush f => exact RegFormed.execSysFlush h ..
  | sysHalt f => exact RegFormed.execSysHalt h ..
  | add f => exact show RegFormedOut (execAdd f s) from RegFormed.intInstr h ..
  | sub f => exact show RegFormedOut (execSub f s) from RegFormed.intInstr h ..
  | mul f => exact show RegFormedOut (execMul f s) from RegFormed.intInstr h ..
  | mulhi f => exact show RegFormedOut (execMulhi f s) from RegFormed.intInstr h ..
  | mad f => exact show RegFormedOut (execMad f s) from RegFormed.intInstr h ..
  | min f => exact show RegFormedOut (execMin f s) from RegFormed.intInstr h ..
  | max f => exact show RegFormedOut (execMax f s) from RegFormed.intInstr h ..
  | abs f => exact show RegFormedOut (execAbs f s) from RegFormed.intInstr h ..
  | neg f => exact show RegFormedOut (execNeg f s) from RegFormed.intInstr h ..
  | addc f => exact show RegFormedOut (execAddc f s) from RegFormed.compute h ..
  | lea f => exact show RegFormedOut (execLea f s) from RegFormed.compute h ..
  | mov f => exact show RegFormedOut (execMov f s) from RegFormed.compute h ..
  | movi f => exact show RegFormedOut (execMovi f s) from RegFormed.compute h ..
  | sel f => exact show RegFormedOut (execSel f s) from RegFormed.compute h ..
  | andB f => exact show RegFormedOut (execAndB f s) from RegFormed.bitInstr h ..
  | orB f => exact show RegFormedOut (execOrB f s) from RegFormed.bitInstr h ..
  | xorB f => exact show RegFormedOut (execXorB f s) from RegFormed.bitInstr h ..
  | notB f => exact show RegFormedOut (execNotB f s) from RegFormed.bitInstr h ..
  | shl f => exact show RegFormedOut (execShl f s) from RegFormed.shiftInstr h ..
  | shr f => exact show RegFormedOut (execShr f s) from RegFormed.shiftInstr h ..
  | sar f => exact show RegFormedOut (execSar f s) from RegFormed.shiftInstr h ..
  | rot f => exact show RegFormedOut (execRot f s) from RegFormed.shiftInstr h ..
  | clz f => exact show RegFormedOut (execClz f s) from RegFormed.compute h ..
  | popc f => exact show RegFormedOut (execPopc f s) from RegFormed.compute h ..
  | brev f => exact show RegFormedOut (execBrev f s) from RegFormed.bitInstr h ..
  | bfe f => exact show RegFormedOut (execBfe f s) from RegFormed.compute h ..
  | bfi f => exact show RegFormedOut (execBfi f s) from RegFormed.compute h ..
  | cmp f => exact show RegFormedOut (execCmp f s) from RegFormed.compute h ..
  | fcmp f => exact show RegFormedOut (execFcmp f s) from RegFormed.compute h ..
  | pand f => exact show RegFormedOut (execPand f s) from RegFormed.predInstr h ..
  | por f => exact show RegFormedOut (execPor f s) from RegFormed.predInstr h ..
  | pxor f => exact show RegFormedOut (execPxor f s) from RegFormed.predInstr h ..
  | pnot f => exact show RegFormedOut (execPnot f s) from RegFormed.predInstr h ..
  | pmov f => exact show RegFormedOut (execPmov f s) from RegFormed.predInstr h ..
  | pmovPack f => exact show RegFormedOut (execPmovPack f s) from RegFormed.compute h ..
  | pmovUnpack f => exact show RegFormedOut (execPmovUnpack f s) from RegFormed.compute h ..
  | shfl f => exact RegFormed.execShfl h ..
  | vote f => exact show RegFormedOut (execVote f s) from RegFormed.compute h ..
  | redux f => exact show RegFormedOut (execRedux f s) from RegFormed.compute h ..
  | matchL f => exact show RegFormedOut (execMatchL f s) from RegFormed.compute h ..
  | prefixL f => exact show RegFormedOut (execPrefixL f s) from RegFormed.compute h ..
  | fadd f => exact show RegFormedOut (execFadd f s) from RegFormed.fpInstr h ..
  | fsub f => exact show RegFormedOut (execFsub f s) from RegFormed.fpInstr h ..
  | fmul f => exact show RegFormedOut (execFmul f s) from RegFormed.fpInstr h ..
  | ffma f => exact show RegFormedOut (execFfma f s) from RegFormed.fpInstr h ..
  | fmin f => exact show RegFormedOut (execFmin f s) from RegFormed.fpInstr h ..
  | fmax f => exact show RegFormedOut (execFmax f s) from RegFormed.fpInstr h ..
  | fabs f => exact show RegFormedOut (execFabs f s) from RegFormed.fpInstr h ..
  | fneg f => exact show RegFormedOut (execFneg f s) from RegFormed.fpInstr h ..
  | fclass f => exact show RegFormedOut (execFclass f s) from RegFormed.compute h ..
  | frnd f => exact show RegFormedOut (execFrnd f s) from RegFormed.fpInstr h ..
  | frcp f => exact show RegFormedOut (execFrcp f s) from RegFormed.fpInstr h ..
  | fsqrt f => exact show RegFormedOut (execFsqrt f s) from RegFormed.fpInstr h ..
  | frsq f => exact show RegFormedOut (execFrsq f s) from RegFormed.fpInstr h ..
  | fexp2 f => exact show RegFormedOut (execFexp2 f s) from RegFormed.fpInstr h ..
  | flog2 f => exact show RegFormedOut (execFlog2 f s) from RegFormed.fpInstr h ..
  | cvt f => exact show RegFormedOut (execCvt f s) from RegFormed.compute h ..
  | pack f => exact show RegFormedOut (execPack f s) from RegFormed.compute h ..
  | unpack f => exact show RegFormedOut (execUnpack f s) from RegFormed.compute h ..
  | rnfwd f => exact show RegFormedOut (execRnfwd f s) from RegFormed.rnInstr h ..
  | rnadd f => exact show RegFormedOut (execRnadd f s) from RegFormed.rnInstr h ..
  | rnsub f => exact show RegFormedOut (execRnsub f s) from RegFormed.rnInstr h ..
  | rnmul f => exact show RegFormedOut (execRnmul f s) from RegFormed.rnInstr h ..
  | rnrev f => exact show RegFormedOut (execRnrev f s) from RegFormed.rnInstr h ..
  | ld f => exact RegFormed.execLd h ..
  | st f => exact RegFormed.execSt h ..
  | ldc f => exact RegFormed.execLdc h ..
  | prf f => exact RegFormed.execPrf h ..
  | lda f => exact show RegFormedOut (execLda f s) from RegFormed.paired h ..
  | stl f => exact show RegFormedOut (execStl f s) from RegFormed.paired h ..
  | xar f => exact show RegFormedOut (execXar f s) from RegFormed.paired h ..
  | car f => exact show RegFormedOut (execCar f s) from RegFormed.paired h ..
  | atc f => exact show RegFormedOut (execAtc f s) from RegFormed.relaxed h ..
  | redc f => exact show RegFormedOut (execRedc f s) from RegFormed.relaxed h ..
  | ata f => exact show RegFormedOut (execAta f s) from RegFormed.relaxed h ..
  | reda f => exact show RegFormedOut (execReda f s) from RegFormed.relaxed h ..
  | ldf f => exact show RegFormedOut (execLdf f s) from RegFormed.relaxed h ..
  | stf f => exact show RegFormedOut (execStf f s) from RegFormed.relaxed h ..
  | atx f => exact show RegFormedOut (execAtx f s) from RegFormed.relaxed h ..
  | cas f => exact show RegFormedOut (execCas f s) from RegFormed.relaxed h ..
  | fence f => exact RegFormed.execFence h ..
  | ldfe f => exact RegFormed.execLdfe h ..
  | stfe f => exact RegFormed.execStfe h ..
  | give f => exact RegFormed.execGive h ..
  | giveDrainComplete give => exact RegFormed.execGiveDrainComplete h ..
  | take f => exact RegFormed.execTake h ..
  | wmap f => exact RegFormed.execWmap h ..
  | wfill f => exact RegFormed.execWfill h ..
  | acopy f => exact RegFormed.execAcopy h ..
  | acopyWsl f => exact RegFormed.execAcopyWsl h ..
  | acopySb f => exact RegFormed.execAcopySb h ..
  | acopyT f => exact RegFormed.execAcopyT h ..
  | stageBarrierCount eng => exact RegFormed.execStageBarrierCount h ..
  | tld f => exact RegFormed.execTld h ..
  | tst f => exact RegFormed.execTst h ..
  | gpool f => exact RegFormed.execGpool h ..
  | coll f => exact RegFormed.execColl h ..
  | collPartialReceive eng child fromRoot data => exact RegFormed.execCollPartialReceive h ..
  | collAbortReceive eng code => exact RegFormed.execCollAbortReceive h ..
  | collTimeout eng => exact RegFormed.execCollTimeout h ..
  | send f => exact RegFormed.execSend h ..
  | ringAppend eng => exact RegFormed.execRingAppend h ..
  | rwait f => exact RegFormed.execRwait h ..
  | rwaitOpen f => exact RegFormed.execRwaitOpen h ..
  | rwaitClose f => exact RegFormed.execRwaitClose h ..
  | mma f => exact RegFormed.execMma h ..
  | matrixOpComplete core => exact RegFormed.execMatrixOpComplete h ..
  | mconv f => exact RegFormed.execMconv h ..
  | tzero f => exact RegFormed.execTzero h ..
  | azero f => exact RegFormed.execAzero h ..
  | amov f => exact RegFormed.execAmov h ..
  | ald f => exact RegFormed.execAld h ..
  | ast f => exact RegFormed.execAst h ..
  | tmov f => exact RegFormed.execTmov h ..
  | tmovW f => exact RegFormed.execTmovW h ..
  | tmovR f => exact RegFormed.execTmovR h ..
  | hqnt f => exact RegFormed.execHqnt h ..
  | aconv f => exact RegFormed.execAconv h ..
  | aconvF32 f => exact RegFormed.execAconvF32 h ..
  | hdeq f => exact RegFormed.execHdeq h ..
  | wsinfo f => exact RegFormed.execWsinfo h ..
  | wswait f => exact RegFormed.execWswait h ..
  | slen f => exact RegFormed.execSlen h ..
  | sseed f => exact RegFormed.execSseed h ..
  | sgen f => exact RegFormed.execSgen h ..
  | sand f => exact show RegFormedOut (execSand f s) from RegFormed.streamBin h ..
  | sor f => exact show RegFormedOut (execSor f s) from RegFormed.streamBin h ..
  | sxor f => exact show RegFormedOut (execSxor f s) from RegFormed.streamBin h ..
  | sxnor f => exact show RegFormedOut (execSxnor f s) from RegFormed.streamBin h ..
  | snot f => exact RegFormed.execSnot h ..
  | smux f => exact RegFormed.execSmux h ..
  | scnt f => exact RegFormed.execScnt h ..
  | sregen f => exact RegFormed.execSregen h ..
  | sshift f => exact RegFormed.execSshift h ..
  | smov f => exact RegFormed.execSmov h ..
  | sclass f => exact RegFormed.execSclass h ..
  | schedulerIssueCycle core sched => exact RegFormed.execSchedulerIssueCycle h ..
  | lineFetch uid wid flip => exact RegFormed.execLineFetch h ..
  | lineRefetch uid wid flip => exact RegFormed.execLineRefetch h ..
  | pauseExpiry uid wid lane => exact RegFormed.execPauseExpiry h ..
  | resultWriteback owed => exact RegFormed.execResultWriteback h ..
  | loadSectorReturn owed piece => exact RegFormed.execLoadSectorReturn h ..
  | markCheckAck msg => exact RegFormed.execMarkCheckAck h ..
  | homeMarkCheck msg => exact RegFormed.execHomeMarkCheck h ..
  | deferredFaultDelivery uid wid => exact RegFormed.execDeferredFaultDelivery h ..
  | holdingSlotReread ctx => exact RegFormed.execHoldingSlotReread h ..
  | engineCompletion eng => exact RegFormed.execEngineCompletion h ..
  | engineSuspend eng => exact RegFormed.execEngineSuspend h ..
  | phaseReady uid => exact RegFormed.execPhaseReady h ..
  | phaseStart uid => exact RegFormed.execPhaseStart h ..
  | gridAccept => exact RegFormed.execGridAccept h ..
  | gridSkipTimeout gid => exact RegFormed.execGridSkipTimeout h ..
  | blockPlace => exact RegFormed.execBlockPlace h ..
  | restore uid => exact RegFormed.execRestore h ..
  | warpRelease uid wid => exact RegFormed.execWarpRelease h ..
  | blockRetire uid => exact RegFormed.execBlockRetire h ..
  | gridRetire gid => exact RegFormed.execGridRetire h ..
  | childFold parent => exact RegFormed.execChildFold h ..
  | l1Fill msg => exact RegFormed.execL1Fill h ..
  | lineWriteback msg => exact RegFormed.execLineWriteback h ..
  | writebackAck msg => exact RegFormed.execWritebackAck h ..
  | l2Evict line => exact RegFormed.execL2Evict h ..
  | l2Refill line ecc => exact RegFormed.execL2Refill h ..
  | backInvalidate line => exact RegFormed.execBackInvalidate h ..
  | peerRequest req => exact RegFormed.execPeerRequest h ..
  | forwardedLineRequest msg => exact RegFormed.execForwardedLineRequest h ..
  | migrationHoldTimeout msg => exact RegFormed.execMigrationHoldTimeout h ..
  | acquireFloorRecompute ctx => exact RegFormed.execAcquireFloorRecompute h ..
  | wellSwitchAccess msg => exact RegFormed.execWellSwitchAccess h ..
  | queuedWellRelease core => exact RegFormed.execQueuedWellRelease h ..
  | wsWindowOpen die group => exact RegFormed.execWsWindowOpen h ..
  | wsWindowClose die group => exact RegFormed.execWsWindowClose h ..
  | gangBoundary => exact RegFormed.execGangBoundary h ..
  | sampleIntervalStart core sched => exact RegFormed.execSampleIntervalStart h ..
  | sampleRecordWrite core sched => exact RegFormed.execSampleRecordWrite h ..
  | trctlWrite die value => exact RegFormed.execTrctlWrite h ..
  | trstatWrite die value => exact RegFormed.execTrstatWrite h ..
  | doorbellWrite queue => exact RegFormed.execDoorbellWrite h ..
  | registerWrite offset value => exact RegFormed.execRegisterWrite h ..
  | cmdLaunch => exact RegFormed.execCmdLaunch h ..
  | cmdCreateContext => exact RegFormed.execCmdCreateContext h ..
  | cmdKillContext => exact RegFormed.execCmdKillContext h ..
  | cmdWritePartitionTable => exact RegFormed.execCmdWritePartitionTable h ..
  | cmdWriteSliceTable => exact RegFormed.execCmdWriteSliceTable h ..
  | cmdWriteCollGroups => exact RegFormed.execCmdWriteCollGroups h ..
  | cmdEnterWeightLoad => exact RegFormed.execCmdEnterWeightLoad h ..
  | cmdLeaveWeightLoad => exact RegFormed.execCmdLeaveWeightLoad h ..
  | cmdSetCtxbase => exact RegFormed.execCmdSetCtxbase h ..
  | cmdWritePowerControl => exact RegFormed.execCmdWritePowerControl h ..
  | cmdWriteStitch => exact RegFormed.execCmdWriteStitch h ..
  | cmdReloadContext => exact RegFormed.execCmdReloadContext h ..
  | hostBar2Access acc => exact RegFormed.execHostBar2Access h ..
  | powerCompare die meanMilliwatts => exact RegFormed.execPowerCompare h ..
  | pllRelockDone die => exact RegFormed.execPllRelockDone h ..
  | thermalThrottle die => exact RegFormed.execThermalThrottle h ..
  | thermalRecover die => exact RegFormed.execThermalRecover h ..
  | thermalTrip => exact RegFormed.execThermalTrip h ..
  | ptpSync sync => exact RegFormed.execPtpSync h ..
  | ptpHoldover => exact RegFormed.execPtpHoldover h ..
  | linkDown port => exact RegFormed.execLinkDown h ..
  | routeTimeout msg => exact RegFormed.execRouteTimeout h ..
  | deviceReset => exact RegFormed.execDeviceReset
  | wipeComplete image => exact RegFormed.execWipeComplete h ..
  | recoveryImageLoad image => exact RegFormed.execRecoveryImageLoad h ..
  | lifecycleChange next => exact RegFormed.execLifecycleChange h ..
  | spdmRequest request => exact RegFormed.execSpdmRequest h ..
  | mgmtResetRequest => exact RegFormed.execMgmtResetRequest
  | homeSliceAccess msg => exact RegFormed.execHomeSliceAccess h ..

/-! ### What the device does of itself -/

theorem RegFormed.took {s : State} (h : RegFormed s) (i : Instr) : RegFormed (s.took i) := by
  unfold State.took
  grind

theorem RegFormed.idle {s : State} (h : RegFormed s) : RegFormed s.idle := by
  unfold State.idle
  grind [RegFormed.advance, RegFormed.offer]

/-! ### One step -/

theorem RegFormed.step {s : State} (h : RegFormed s) : RegFormedOut (Machine.step s) := by
  unfold Machine.step
  split
  · split
    next t e => exact RegFormed.outcome h (RegFormed.fetchNow h e)
    next i _ => exact RegFormed.outcome h (RegFormed.exec h i)
  · split
    next x rest _ => exact RegFormed.exec (RegFormed.advance (RegFormed.offer (s := { s with script := rest }) h _) _) _
    · split
      next i _ => exact RegFormed.exec (h.took i) i
      · exact RegFormed.idle h

/-- Settles O60: what changes a register file or the wells does so cell by cell or in runs of cells, and every step is made of such
changes (`RegFormed.step`). -/
theorem registerFormKept : Obligations.RegisterFormKept := by
  unfold Obligations.RegisterFormKept
  intro s t hs hstep
  have ht := RegFormed.step (registersWf_iff.mp hs)
  rw [hstep] at ht
  exact registersWf_iff.mpr ht

end Sys2Proof
